-- ==== Sys2Proof/Word.lean ====
section
/-!
DEFINITION. The word types of the Lirrirus and their plainest helpers: 64-bit registers (R47),
bytes, 24-bit logical timestamps (R199), the poison pattern (R61), and lists indexed by position.
-/

namespace Sys2Proof

/-- A register word (R47). -/
abbrev Word := BitVec 64

/-- A byte of memory. -/
abbrev Byte := BitVec 8

/-- A logical timestamp, counted in lt (R199). -/
abbrev TS := BitVec 24

/-- Poison (R61). -/
def poison : Word := 0x7FF97FF97FF97FF9#64

/-- Map over a list with the position of each element, counted from `i`. -/
def imap {α β : Type} (f : Nat → α → β) : Nat → List α → List β
  | _, [] => []
  | i, x :: xs => f i x :: imap f (i + 1) xs

/-- Replace the element at position `i` by its image under `f`. -/
def modAt {α : Type} (f : α → α) : Nat → List α → List α
  | _, [] => []
  | 0, x :: xs => f x :: xs
  | i + 1, x :: xs => x :: modAt f i xs

/-- The element at position `i`, or `d` beyond the end. -/
def at' {α : Type} (d : α) : List α → Nat → α
  | [], _ => d
  | x :: _, 0 => x
  | _ :: xs, i + 1 => at' d xs i

/-- The numbers `lo`, `lo + 1`, … of a range of `n`. -/
def rangeFrom : Nat → Nat → List Nat
  | _, 0 => []
  | lo, n + 1 => lo :: rangeFrom (lo + 1) n

/-- The bit mask of the positions of `ls` below 64. -/
def maskOf (ls : List Nat) : Word :=
  ls.foldl (fun m l => m ||| BitVec.ofNat 64 (2 ^ l)) 0

end Sys2Proof
end

