-- ==== Sys2Proof/Syntax.lean ====
section
/-!
DEFINITION. The syntax of the Lirrirus: the operand records of the formats of R55 and the one
inductive Instr, with one constructor for each of the 415 rows of the opcode table: 313 instruction
words of Rinic and 102 events, the steps of the memory homes, the engines, the hub, the host bridge,
the fabric and the platform.
-/

namespace Sys2Proof

/-- HSCHED payload (R64): i IPF, d DEFER. -/
structure OpHsched where
  i : BitVec 1
  d : BitVec 1
  deriving DecidableEq, Repr

/-- HIMM payload (R65): l SLOT, d DATA. -/
structure OpHimm where
  l : BitVec 2
  d : BitVec 24
  deriving DecidableEq, Repr

/-- HDST payload (R66): d is a D5 destination. -/
structure OpHdst where
  d : BitVec 5
  deriving DecidableEq, Repr

/-- HMOD payload (R67): p POL, v SCV, o SCO, t SAT, r RM. -/
structure OpHmod where
  p : BitVec 3
  v : BitVec 1
  o : BitVec 3
  t : BitVec 1
  r : BitVec 3
  deriving DecidableEq, Repr

/-- AB and AG formats (R55): s ST, w W, d D5, a S7, b S7 or G7. -/
structure OpAB where
  s : BitVec 2
  w : BitVec 2
  d : BitVec 5
  a : BitVec 7
  b : BitVec 7
  deriving DecidableEq, Repr

/-- AB format with B = 0 (R55, R81, R105). -/
structure OpA where
  s : BitVec 2
  w : BitVec 2
  d : BitVec 5
  a : BitVec 7
  deriving DecidableEq, Repr

/-- ABC format (R55): three S7 sources. -/
structure OpABC where
  s : BitVec 2
  a : BitVec 7
  b : BitVec 7
  c : BitVec 7
  deriving DecidableEq, Repr

/-- CP format (R55): w W, p PD, a S7, b S7 or G7. -/
structure OpCmp where
  w : BitVec 2
  p : BitVec 7
  a : BitVec 7
  b : BitVec 7
  deriving DecidableEq, Repr

/-- ABC format of FFMA (R103): f is the top bit of F, 0 FP64, 1 FP32x2. -/
structure OpFma where
  s : BitVec 2
  f : BitVec 1
  a : BitVec 7
  b : BitVec 7
  c : BitVec 7
  deriving DecidableEq, Repr

/-- FCVT F = 7 (R108): n is the narrow format register. -/
structure OpNarrow where
  s : BitVec 2
  w : BitVec 2
  d : BitVec 5
  a : BitVec 7
  n : BitVec 4
  deriving DecidableEq, Repr

/-- CF format (R55, R166): i IT, t FMT, d D5, a S7. -/
structure OpCordic where
  i : BitVec 5
  t : BitVec 2
  d : BitVec 5
  a : BitVec 7
  deriving DecidableEq, Repr

/-- VRED with the U control bit (R126). -/
structure OpRedU where
  s : BitVec 2
  w : BitVec 2
  d : BitVec 5
  a : BitVec 7
  u : BitVec 1
  deriving DecidableEq, Repr

/-- VRED with the X control bit (R126). -/
structure OpRedX where
  s : BitVec 2
  w : BitVec 2
  d : BitVec 5
  a : BitVec 7
  x : BitVec 1
  deriving DecidableEq, Repr

/-- PL format with two predicate sources (R113). -/
structure OpPred2 where
  d : BitVec 7
  a : BitVec 7
  b : BitVec 7
  deriving DecidableEq, Repr

/-- PL format with one predicate source (R113). -/
structure OpPred1 where
  d : BitVec 7
  a : BitVec 7
  deriving DecidableEq, Repr

/-- PL format of GUARD and GUARDN (R114): a is PA. -/
structure OpGuard where
  a : BitVec 7
  deriving DecidableEq, Repr

/-- PX format without sources (R115). -/
structure OpPx1 where
  s : BitVec 2
  p : BitVec 7
  deriving DecidableEq, Repr

/-- PX format of PSET (R115). -/
structure OpPset where
  s : BitVec 2
  p : BitVec 7
  a : BitVec 7
  b : BitVec 7
  deriving DecidableEq, Repr

/-- SL format (R116): i inverts the predicate. -/
structure OpSel where
  s : BitVec 2
  i : BitVec 1
  p : BitVec 7
  a : BitVec 7
  b : BitVec 7
  deriving DecidableEq, Repr

/-- MO format with two moment sources (R151). -/
structure OpMom2 where
  s : BitVec 2
  d : BitVec 4
  a : BitVec 4
  b : BitVec 4
  deriving DecidableEq, Repr

/-- MO format with a moment source and an S7 scalar (R151). -/
structure OpMomX where
  s : BitVec 2
  d : BitVec 4
  a : BitVec 4
  x : BitVec 7
  deriving DecidableEq, Repr

/-- MO format with one moment source (R151, R153). -/
structure OpMom1 where
  s : BitVec 2
  d : BitVec 4
  a : BitVec 4
  deriving DecidableEq, Repr

/-- MO format of MMAKE (R159). -/
structure OpMmake where
  s : BitVec 2
  d : BitVec 4
  x : BitVec 7
  deriving DecidableEq, Repr

/-- MO format of the MCOL forms (R159). -/
structure OpMcol where
  s : BitVec 2
  a : BitVec 4
  deriving DecidableEq, Repr

/-- MO format of MCOL.SMP (R159). -/
structure OpMcolX where
  s : BitVec 2
  a : BitVec 4
  x : BitVec 7
  deriving DecidableEq, Repr

/-- LB format (R55): z SZ, d D5, a S7, o OFF. -/
structure OpLB where
  s : BitVec 2
  z : BitVec 2
  d : BitVec 5
  a : BitVec 7
  o : BitVec 10
  deriving DecidableEq, Repr

/-- LX format (R55): z SZ, d D5, g G7, x S7, h SH. -/
structure OpLX where
  s : BitVec 2
  z : BitVec 2
  d : BitVec 5
  g : BitVec 7
  x : BitVec 7
  h : BitVec 3
  deriving DecidableEq, Repr

/-- SB format (R55): z SZ, v S7 value, a S7, o OFF. -/
structure OpSB where
  s : BitVec 2
  z : BitVec 2
  v : BitVec 7
  a : BitVec 7
  o : BitVec 8
  deriving DecidableEq, Repr

/-- SX format (R55): g is 0 to 59 only. -/
structure OpSX where
  s : BitVec 2
  z : BitVec 2
  v : BitVec 7
  g : BitVec 6
  x : BitVec 7
  h : BitVec 2
  deriving DecidableEq, Repr

/-- LDO (R233): z is the low bit of SZ (its high bit is 1), k the scope, o the offset. -/
structure OpLdo where
  s : BitVec 2
  z : BitVec 1
  d : BitVec 5
  a : BitVec 7
  k : BitVec 3
  o : BitVec 7
  deriving DecidableEq, Repr

/-- STO (R233): z is the low bit of SZ, k the scope, o the offset. -/
structure OpSto where
  s : BitVec 2
  z : BitVec 1
  v : BitVec 7
  a : BitVec 7
  k : BitVec 3
  o : BitVec 5
  deriving DecidableEq, Repr

/-- AT format (R55, R235): z is the low bit of SZ, k SC. -/
structure OpAT where
  s : BitVec 2
  z : BitVec 1
  a : BitVec 7
  b : BitVec 7
  k : BitVec 3
  deriving DecidableEq, Repr

/-- AT format of the RADD forms (R237). -/
structure OpRed where
  s : BitVec 2
  a : BitVec 7
  b : BitVec 7
  k : BitVec 3
  deriving DecidableEq, Repr

/-- A word whose only operand is ST. -/
structure OpSt where
  s : BitVec 2
  deriving DecidableEq, Repr

/-- AT format of PROP and DREAD (R261). -/
structure OpDoc where
  s : BitVec 2
  z : BitVec 2
  a : BitVec 7
  b : BitVec 7
  k : BitVec 3
  deriving DecidableEq, Repr

/-- AT format of RECYC and DSTAT (R261). -/
structure OpDoc1 where
  s : BitVec 2
  a : BitVec 7
  k : BitVec 3
  deriving DecidableEq, Repr

/-- SY format of FENCE (R243): k is the scope. -/
structure OpFence where
  s : BitVec 2
  k : BitVec 3
  deriving DecidableEq, Repr

/-- AT format of PREF and EVF (R253). -/
structure OpCa where
  s : BitVec 2
  a : BitVec 7
  deriving DecidableEq, Repr

/-- AT format of PIN and LHINT (R253). -/
structure OpCab where
  s : BitVec 2
  a : BitVec 7
  b : BitVec 7
  deriving DecidableEq, Repr

/-- AT format of UNPIN (R253). -/
structure OpCb where
  s : BitVec 2
  b : BitVec 7
  deriving DecidableEq, Repr

/-- SY format of BINIT (R245): n NSL, t ATT, r REG. -/
structure OpBinit where
  s : BitVec 2
  g : BitVec 6
  e : BitVec 6
  n : BitVec 1
  t : BitVec 1
  r : BitVec 1
  deriving DecidableEq, Repr

/-- SY format of BARR and BDROP (R245). -/
structure OpBarG where
  s : BitVec 2
  g : BitVec 6
  deriving DecidableEq, Repr

/-- SY format of BARRX (R245). -/
structure OpBarGE where
  s : BitVec 2
  g : BitVec 6
  e : BitVec 6
  deriving DecidableEq, Repr

/-- SY format of BWAIT (R245): m MODE. -/
structure OpBwait where
  s : BitVec 2
  g : BitVec 6
  m : BitVec 2
  deriving DecidableEq, Repr

/-- SY format of BTRY (R245). -/
structure OpBtry where
  s : BitVec 2
  g : BitVec 6
  p : BitVec 7
  m : BitVec 2
  deriving DecidableEq, Repr

/-- BR format (R55): p predicate, d DISP in words. -/
structure OpBr where
  p : BitVec 7
  d : BitVec 17
  deriving DecidableEq, Repr

/-- JC format (R55): d DISP in words. -/
structure OpJump where
  d : BitVec 24
  deriving DecidableEq, Repr

/-- JC format of JMPI and CALLI (R118): a S7. -/
structure OpJumpI where
  a : BitVec 7
  deriving DecidableEq, Repr

/-- SY format of SLEEP (R121). -/
structure OpSleep where
  s : BitVec 2
  i : BitVec 16
  deriving DecidableEq, Repr

/-- SY format of YIELDW (R121). -/
structure OpYieldw where
  s : BitVec 2
  g : BitVec 6
  d : BitVec 10
  deriving DecidableEq, Repr

/-- SY format of ROLE (R366). -/
structure OpRole where
  s : BitVec 2
  i : BitVec 3
  deriving DecidableEq, Repr

/-- SY format of REGION (R366). -/
structure OpRegion where
  s : BitVec 2
  g : BitVec 6
  deriving DecidableEq, Repr

/-- SY format of EMIT (R366): p PD, t STAGE, h HI. -/
structure OpEmit where
  s : BitVec 2
  p : BitVec 7
  t : BitVec 3
  h : BitVec 1
  deriving DecidableEq, Repr

/-- SY format of LNCH (R366). -/
structure OpLnch where
  s : BitVec 2
  p : BitVec 7
  g : BitVec 6
  deriving DecidableEq, Repr

/-- EN format with GA, GB and FL (R278, R371). -/
structure OpEnF where
  s : BitVec 2
  a : BitVec 6
  b : BitVec 6
  f : BitVec 2
  deriving DecidableEq, Repr

/-- EN format with GA and one FL bit (R278, R316, R372). -/
structure OpEnA where
  s : BitVec 2
  a : BitVec 6
  f : BitVec 1
  deriving DecidableEq, Repr

/-- SY format of PARK and UNPARK (R128): l SLOT, m MOM, r REG. -/
structure OpPark where
  s : BitVec 2
  l : BitVec 6
  m : BitVec 1
  r : BitVec 4
  deriving DecidableEq, Repr

/-- SY format of SPQ (R128): l SLOT. -/
structure OpSpq where
  s : BitVec 2
  l : BitVec 6
  deriving DecidableEq, Repr

/-- EN format with GA and GB. -/
structure OpEn2 where
  s : BitVec 2
  a : BitVec 6
  b : BitVec 6
  deriving DecidableEq, Repr

/-- EN format with GA alone. -/
structure OpEn1 where
  s : BitVec 2
  a : BitVec 6
  deriving DecidableEq, Repr

/-- EN format of MXLDB (R316). -/
structure OpMxldb where
  s : BitVec 2
  a : BitVec 6
  b : BitVec 6
  c : BitVec 6
  f : BitVec 2
  deriving DecidableEq, Repr

/-- EN format with GA, GB and GC. -/
structure OpEn3 where
  s : BitVec 2
  a : BitVec 6
  b : BitVec 6
  c : BitVec 6
  deriving DecidableEq, Repr

/-- EN format of the stream data commands (R278): e EF. -/
structure OpSx where
  s : BitVec 2
  a : BitVec 6
  b : BitVec 6
  c : BitVec 6
  e : BitVec 1
  deriving DecidableEq, Repr

/-- SY format of CSRR (R132): c CSR, d D5. -/
structure OpCsrr where
  s : BitVec 2
  c : BitVec 6
  d : BitVec 5
  deriving DecidableEq, Repr

/-- SY format of CSRW (R132): c CSR, x S7. -/
structure OpCsrw where
  s : BitVec 2
  c : BitVec 6
  x : BitVec 7
  deriving DecidableEq, Repr

/-- CSRW of one fixed control register: x S7. -/
structure OpCsrwK where
  s : BitVec 2
  x : BitVec 7
  deriving DecidableEq, Repr

/-- SY format of TRAP and BKPT (R132). -/
structure OpCode where
  s : BitVec 2
  c : BitVec 16
  deriving DecidableEq, Repr

/-- SY format of CLK (R132). -/
structure OpClk where
  s : BitVec 2
  d : BitVec 5
  deriving DecidableEq, Repr

/-- SY format of DEVR (R132): r device register. -/
structure OpDevr where
  s : BitVec 2
  r : BitVec 8
  d : BitVec 5
  deriving DecidableEq, Repr

/-- SY format of GSET (R133). -/
structure OpGset where
  s : BitVec 2
  g : BitVec 6
  x : BitVec 7
  deriving DecidableEq, Repr

/-- Which RED entries a flush point drains (R240). -/
inductive DrainSel where
  | epoch (e : Nat)
  | groupEnd
  | gang (g : Nat)
  deriving DecidableEq, Repr

/-- The meta-value of a host request to device memory (R409). -/
inductive HostMeta where
  | invalid | shared | anyState | noOp
  deriving DecidableEq, Repr

/-- The state of a host granule at the bridge (R404). -/
inductive GranuleState where
  | s | e | m
  deriving DecidableEq, Repr

/-- A place in protected storage (R379): where an error can lie. -/
inductive Storage where
  | mem (codeword : Nat)                  -- a 64-bit word as L2, host memory or another reader of memory holds it
  | hbm (block : Nat)                     -- 32 bytes across the devices of an HBM4 stack
  | scratch (window word : Nat)           -- a 64-bit word of a scratchpad window
  | named (gang lane reg : Nat)
  | queue (gang lane reg : Nat)
  | moment (gang lane reg : Nat)
  | parked (gang slot lane : Nat)
  | uniform (gang reg : Nat)
  | predicates (gang slice : Nat)
  | control (gang slice : Nat)
  | tile (group tile elem : Nat)
  | operandBuffer (group word : Nat)
  | l1 (core line : Nat)
  | icache (core line : Nat)
  | transCache (chip entry : Nat)
  | hubPartition (part : Nat)
  | hubShared
  deriving DecidableEq, Repr

/-- A request of another device to a line or cell homed here (R236, R263, R267, R268, R424): the device and
the number of its word there, the address, function and width of an atomic with its operands and rounding code,
generation, bytes, winner identity and PTPNOW of a decide-once word. -/
structure FarReq where
  dev  : Nat
  word : Nat
  part : Nat
  asn  : Nat
  va   : Nat
  f    : Nat
  n    : Nat
  b    : BitVec 64
  c    : BitVec 64
  fm   : Nat
  gen  : Nat
  val  : List (BitVec 8)
  wid  : Nat
  time : Nat
  deriving DecidableEq, Repr

/-- An update or a lock of a replicated line as its set's home sends it (R424, R425): line, byte mask and bytes,
whether its lowest word is poisoned, and the number of this device's store that it performs. -/
structure RepMsg where
  va   : Nat
  mask : BitVec 128
  data : List (BitVec 8)
  bad  : Bool
  src  : Option Nat
  deriving DecidableEq, Repr

/-- An update by its number: of a set homed here, or one that comes in from the set's home. -/
inductive RepSeq where
  | own (seq : Nat)
  | far (seq : Nat) (m : RepMsg)
  deriving DecidableEq, Repr

/-- An entry of the replica table as the fabric manager writes it (R424): the page and the devices of the set, its
home first. -/
structure RepEntry where
  id   : Nat
  part : Nat
  asn  : Nat
  va   : Nat
  size : Nat
  devs : List Nat
  deriving DecidableEq, Repr

/-- What the fabric manager sets up: the mode of a set, or a set in that mode (R424, R425). -/
inductive RepOrder where
  | mode (set : Nat)
  | table (e : RepEntry)
  deriving DecidableEq, Repr

/-- What a step at a home serves: a request on its way, by number, or one that comes in from another device. -/
inductive Ask where
  | req (id : Nat)
  | far (r : FarReq)
  deriving DecidableEq, Repr

/-- The instructions and events of the Lirrirus, one constructor per row of the opcode table:
the events first, then the words of Rinic. -/
inductive Instr where
  | issueBeat
  | sleepExpiry (gang slice : Nat)
  | resultReturn (op : Nat)
  | homeRead (req : Nat)
  | homeWrite (req : Nat)
  | homeAtomic (req : Ask)
  | biResponse (req : Nat) (dirty : List (BitVec 8))
  | lazyReleaseDrain (flag : Nat)
  | lazyReleaseTimeout (flag : Nat)
  | regionMerge (chip region : Nat)
  | ccInterval
  | clockReconcile
  | sweeperVisit (chip sets : Nat)
  | smbFlushTimeout (core entry : Nat)
  | smbFlushAck (req : Nat)
  | tlbFill (core part asn va : Nat)
  | faultResolve (part asn va : Nat) (ok : Bool)
  | drainProcedure (part asn va : Nat) (ptes : List (BitVec 64))
  | redDrain (group : Nat) (sel : DrainSel)
  | redEntryApply (entry : Nat)
  | redDrainAck (entry : Nat)
  | wsigSignal (op : Nat)
  | homeProp (req : Ask)
  | homeDread (req : Ask)
  | homeRecyc (req : Ask)
  | homeDstat (req : Ask)
  | docReply (op : Nat)
  | sxCommandStart (core : Nat)
  | sxElementLand (cmd elem : Nat)
  | sxResume (cmd : Nat)
  | sxAbort (cmd : Nat)
  | mxCommandStart (group : Nat)
  | mxldbLand (cmd : Nat)
  | mxKstep (cmd : Nat)
  | mxendComplete (cmd : Nat)
  | mxdrainLand (cmd : Nat)
  | mxchkComplete (cmd : Nat)
  | forkProgramRead (prog : Nat)
  | forkProgramComplete (prog : Nat)
  | doorbellWrite (part queue wi : Nat)
  | launchAccept (part queue : Nat)
  | placeTeam (part lid : Nat)
  | discardTeam (team : Nat)
  | preemptWatchdog (team : Nat)
  | groupEnd (group : Nat)
  | roleRestart (group : Nat)
  | launchComplete (part lid : Nat)
  | copyLaunch (part lid : Nat)
  | releaseLaunch (part lid : Nat)
  | gatherTimeout (part lid stage : Nat)
  | stageAllowance (part lid : Nat)
  | riddleReplay (audit : Nat)
  | riddleCompare (audit : Nat)
  | deviceReset
  | partitionReset (part : Nat)
  | resourceRegisterWrite (part off : Nat) (val : BitVec 64)
  | qcfgWrite (part queue : Nat) (val : BitVec 64)
  | ptrootWrite (part asn : Nat) (val : BitVec 64)
  | logcfgWrite (part : Nat) (val : BitVec 64)
  | biasFlip (part : Nat) (val : BitVec 64)
  | registerWrite (fn off : Nat) (val : BitVec 64)
  | hostRead (part win off len : Nat) (mv : HostMeta)
  | hostWrite (part win off : Nat) (bytes : List (BitVec 8)) (mv : HostMeta)
  | snpInv (granule : Nat)
  | snpData (granule : Nat)
  | snpCur (granule : Nat)
  | bridgeDeviceRead (req : Nat)
  | hostGrant (granule : Nat) (grant : GranuleState) (bytes : List (BitVec 8))
  | bridgeDeviceWrite (req : Nat)
  | bridgeWriteAck (req : Nat)
  | bridgeEvict (granule : Nat)
  | bridgeWriteback (granule : Nat)
  | ingestWrite (requester off : Nat) (bytes : List (BitVec 8)) (poisoned : Bool)
  | ingestPiece (stream : Nat)
  | ingestDoorbell (requester off len : Nat)
  | pwrcapWrite (val : BitVec 64)
  | powerCheck
  | attest (val : BitVec 64)
  | dbgctlWrite (val : BitVec 64)
  | dbgselWrite (val : BitVec 64)
  | debugResume (val : BitVec 64)
  | dbgdataRead
  | dbgdataWrite (val : BitVec 64)
  | deviceNumberAssign (num : Nat)
  | ptpSync (reference : Nat)
  | flitRetry (port : Nat)
  | fabricTimeout (req : Nat)
  | remoteRead (dev part asn va len : Nat)
  | remoteWrite (dev part asn va : Nat) (bytes : List (BitVec 8))
  | heldWriteRelease (req : Nat)
  | repStore (req : Ask)
  | repUpdateApply (set : Nat) (seq : RepSeq)
  | repApplyAck (set seq dev : Nat)
  | repLock (set : Nat) (seq : RepSeq)
  | repLockTimeout (set seq dev : Nat)
  | repLoadTimeout (req : Nat)
  | repModeSwitch (set : RepOrder) (lock : Bool)
  | illegalInstruction (word : BitVec 32)
  | fetchFill (core part asn va : Nat)
  | retentionRequest (req : Nat)
  | damagedBit (loc : Storage) (bit : Nat) (uncorrectable : Bool)
  | ingestUnsupportedRequest (requester : Nat)
  | hnop
  | hsched (o : OpHsched)
  | himm (o : OpHimm)
  | hdst (o : OpHdst)
  | hmod (o : OpHmod)
  | iadd (o : OpAB)
  | isub (o : OpAB)
  | iadds (o : OpAB)
  | iaddu (o : OpAB)
  | isubs (o : OpAB)
  | isubu (o : OpAB)
  | imul (o : OpAB)
  | imulh (o : OpAB)
  | iaddG (o : OpAB)
  | isubG (o : OpAB)
  | iaddsG (o : OpAB)
  | iadduG (o : OpAB)
  | isubsG (o : OpAB)
  | isubuG (o : OpAB)
  | imulG (o : OpAB)
  | imulhG (o : OpAB)
  | and (o : OpAB)
  | or (o : OpAB)
  | xor (o : OpAB)
  | andn (o : OpAB)
  | shl (o : OpAB)
  | shr (o : OpAB)
  | sar (o : OpAB)
  | rotl (o : OpAB)
  | andG (o : OpAB)
  | orG (o : OpAB)
  | xorG (o : OpAB)
  | andnG (o : OpAB)
  | shlG (o : OpAB)
  | shrG (o : OpAB)
  | sarG (o : OpAB)
  | rotlG (o : OpAB)
  | imin (o : OpAB)
  | imax (o : OpAB)
  | umin (o : OpAB)
  | umax (o : OpAB)
  | imulhu (o : OpAB)
  | iabsd (o : OpAB)
  | pklo (o : OpAB)
  | pkhi (o : OpAB)
  | iminG (o : OpAB)
  | imaxG (o : OpAB)
  | uminG (o : OpAB)
  | umaxG (o : OpAB)
  | imulhuG (o : OpAB)
  | iabsdG (o : OpAB)
  | pkloG (o : OpAB)
  | pkhiG (o : OpAB)
  | clz (o : OpA)
  | ctz (o : OpA)
  | popc (o : OpA)
  | brev (o : OpA)
  | ineg (o : OpA)
  | inot (o : OpA)
  | iabs (o : OpA)
  | bswap (o : OpA)
  | imad (o : OpABC)
  | imad64 (o : OpABC)
  | imadhs (o : OpABC)
  | imadhz (o : OpABC)
  | imadw (o : OpABC)
  | idot8 (o : OpABC)
  | idot16 (o : OpABC)
  | idivs (o : OpAB)
  | idivz (o : OpAB)
  | irems (o : OpAB)
  | iremz (o : OpAB)
  | icmpeq (o : OpCmp)
  | icmpne (o : OpCmp)
  | icmplt (o : OpCmp)
  | icmple (o : OpCmp)
  | icmpltz (o : OpCmp)
  | icmplez (o : OpCmp)
  | icmptst (o : OpCmp)
  | icmpeqG (o : OpCmp)
  | icmpneG (o : OpCmp)
  | icmpltG (o : OpCmp)
  | icmpleG (o : OpCmp)
  | icmpltzG (o : OpCmp)
  | icmplezG (o : OpCmp)
  | icmptstG (o : OpCmp)
  | fadd (o : OpAB)
  | fsub (o : OpAB)
  | fmul (o : OpAB)
  | fmin (o : OpAB)
  | fmax (o : OpAB)
  | fminn (o : OpAB)
  | fmaxn (o : OpAB)
  | fcpsg (o : OpAB)
  | faddG (o : OpAB)
  | fsubG (o : OpAB)
  | fmulG (o : OpAB)
  | fminG (o : OpAB)
  | fmaxG (o : OpAB)
  | fminnG (o : OpAB)
  | fmaxnG (o : OpAB)
  | fcpsgG (o : OpAB)
  | fma (o : OpFma)
  | fms (o : OpFma)
  | fnma (o : OpFma)
  | fnms (o : OpFma)
  | hdotBf16 (o : OpABC)
  | hdotF16 (o : OpABC)
  | ffmaBf16x4 (o : OpABC)
  | ffmaF16x4 (o : OpABC)
  | fabs (o : OpA)
  | fneg (o : OpA)
  | frnd (o : OpA)
  | frndz (o : OpA)
  | fclass (o : OpA)
  | fgetexp (o : OpA)
  | fgetman (o : OpA)
  | fcvtwl (o : OpA)
  | fcvtwh (o : OpA)
  | fcvtn (o : OpAB)
  | fcvtfi (o : OpA)
  | fcvtfu (o : OpA)
  | fcvtif (o : OpA)
  | fcvtuf (o : OpA)
  | fenc (o : OpNarrow)
  | fdec (o : OpNarrow)
  | fcmpeq (o : OpCmp)
  | fcmpne (o : OpCmp)
  | fcmplt (o : OpCmp)
  | fcmple (o : OpCmp)
  | fcmpun (o : OpCmp)
  | fcmpor (o : OpCmp)
  | fcmpequ (o : OpCmp)
  | fcmpgt (o : OpCmp)
  | fdiv (o : OpAB)
  | fsqrt (o : OpA)
  | cexp2 (o : OpCordic)
  | clog2 (o : OpCordic)
  | csin (o : OpCordic)
  | ccos (o : OpCordic)
  | ctanh (o : OpCordic)
  | csigm (o : OpCordic)
  | crcp (o : OpCordic)
  | crsqrt (o : OpCordic)
  | csqrt (o : OpCordic)
  | catan (o : OpCordic)
  | catan2 (o : OpCordic)
  | csincos (o : OpCordic)
  | chypot (o : OpCordic)
  | xshf (o : OpAB)
  | xup (o : OpAB)
  | xdn (o : OpAB)
  | xbfly (o : OpAB)
  | xget (o : OpAB)
  | xperm (o : OpAB)
  | xrot (o : OpAB)
  | xshfG (o : OpAB)
  | xupG (o : OpAB)
  | xdnG (o : OpAB)
  | xbflyG (o : OpAB)
  | xgetG (o : OpAB)
  | xpermG (o : OpAB)
  | xrotG (o : OpAB)
  | vsum (o : OpA)
  | vfsum (o : OpA)
  | vmin (o : OpRedU)
  | vmax (o : OpRedU)
  | vfmin (o : OpA)
  | vfmax (o : OpA)
  | vscan (o : OpRedX)
  | vfscan (o : OpRedX)
  | pand (o : OpPred2)
  | por (o : OpPred2)
  | pxor (o : OpPred2)
  | pandn (o : OpPred2)
  | pnot (o : OpPred1)
  | pmov (o : OpPred1)
  | pany (o : OpPred1)
  | pall (o : OpPred1)
  | guard (o : OpGuard)
  | guardn (o : OpGuard)
  | guardoff
  | pbal (o : OpPx1)
  | pset (o : OpPset)
  | pget (o : OpPx1)
  | pcnt (o : OpPx1)
  | sel (o : OpSel)
  | madd (o : OpMom2)
  | msub (o : OpMom2)
  | mmul (o : OpMom2)
  | mscl (o : OpMomX)
  | mofs (o : OpMomX)
  | mneg (o : OpMom1)
  | mcpy (o : OpMom1)
  | mrelu (o : OpMom1)
  | mexp (o : OpMom1)
  | msig (o : OpMom1)
  | mtanh (o : OpMom1)
  | mrcp (o : OpMom1)
  | msqr (o : OpMom1)
  | mmake (o : OpMmake)
  | mcolMu (o : OpMcol)
  | mcolVar (o : OpMcol)
  | mcolSd (o : OpMcol)
  | mcolPair (o : OpMcol)
  | mcolSmp (o : OpMcolX)
  | ldg (o : OpLB)
  | ldgx (o : OpLX)
  | stg (o : OpSB)
  | stgx (o : OpSX)
  | lds (o : OpLB)
  | ldsx (o : OpLX)
  | sts (o : OpSB)
  | stsx (o : OpSX)
  | ldo (o : OpLdo)
  | sto (o : OpSto)
  | atmAdd (o : OpAT)
  | atmAnd (o : OpAT)
  | atmOr (o : OpAT)
  | atmXor (o : OpAT)
  | atmMin (o : OpAT)
  | atmMax (o : OpAT)
  | atmMinz (o : OpAT)
  | atmMaxz (o : OpAT)
  | atmXchg (o : OpAT)
  | atmCas (o : OpAT)
  | atmFadd (o : OpAT)
  | raddI32 (o : OpRed)
  | raddI64 (o : OpRed)
  | raddF32 (o : OpRed)
  | raddF64 (o : OpRed)
  | rmin (o : OpAT)
  | rmax (o : OpAT)
  | redfl (o : OpSt)
  | prop (o : OpDoc)
  | dread (o : OpDoc)
  | recyc (o : OpDoc1)
  | dstat (o : OpDoc1)
  | fenceAcq (o : OpFence)
  | fenceRel (o : OpFence)
  | fenceFull (o : OpFence)
  | fenceEng (o : OpFence)
  | wsigSt (o : OpAT)
  | wsigAdd (o : OpAT)
  | pref (o : OpCa)
  | evf (o : OpCa)
  | pin (o : OpCab)
  | unpin (o : OpCb)
  | lhint (o : OpCab)
  | binit (o : OpBinit)
  | barr (o : OpBarG)
  | barrx (o : OpBarGE)
  | bwait (o : OpBwait)
  | btry (o : OpBtry)
  | bdrop (o : OpBarG)
  | bdropRel (o : OpBarG)
  | brAny (o : OpBr)
  | brAll (o : OpBr)
  | brNone (o : OpBr)
  | brUni (o : OpBr)
  | jmp (o : OpJump)
  | call (o : OpJump)
  | ret
  | jmpi (o : OpJumpI)
  | calli (o : OpJumpI)
  | regang (o : OpSt)
  | exit (o : OpSt)
  | sleep (o : OpSleep)
  | yield (o : OpSt)
  | yieldw (o : OpYieldw)
  | role (o : OpRole)
  | region (o : OpRegion)
  | emit (o : OpEmit)
  | lnch (o : OpLnch)
  | fork (o : OpEnF)
  | fkill (o : OpEnA)
  | park (o : OpPark)
  | unpark (o : OpPark)
  | spqOut (o : OpSpq)
  | spqIn (o : OpSpq)
  | mxcfgNf (o : OpEn2)
  | mxcfgTile (o : OpEn2)
  | mxcfgFree (o : OpEn1)
  | mxres (o : OpEn2)
  | mxrel (o : OpEn1)
  | mxldb (o : OpMxldb)
  | mxrake (o : OpEn2)
  | mxbegin (o : OpSt)
  | mxloop (o : OpEn3)
  | mxend (o : OpEnA)
  | mxzero (o : OpEn1)
  | mxdrain (o : OpEn3)
  | mxchk (o : OpEn3)
  | sxcopy (o : OpSx)
  | sxgath (o : OpSx)
  | sxscat (o : OpSx)
  | sxfill (o : OpSx)
  | sxflip (o : OpEnF)
  | sxflipT (o : OpEn2)
  | sxcan (o : OpEnA)
  | sxstat (o : OpEn2)
  | csrr (o : OpCsrr)
  | csrw (o : OpCsrw)
  | csrwErrinj (o : OpCsrwK)
  | csrwClktest (o : OpCsrwK)
  | trap (o : OpCode)
  | eret (o : OpSt)
  | clkCyc (o : OpClk)
  | clkPts (o : OpClk)
  | clkPtp (o : OpClk)
  | devr (o : OpDevr)
  | bkpt (o : OpCode)
  | gset (o : OpGset)
  deriving DecidableEq, Repr

end Sys2Proof
end

