-- ==== Sys2Proof/WellFormed.lean ====
section
/-!
DEFINITION. Well-formed instructions: the operand codes of R50, R53, R54, R55 and R56 that are
reserved in every word that carries them (R70). What depends on the hints attached to a word, on the
control register it names or on the engine state is checked by its meaning.
-/

namespace Sys2Proof

/-- An S7 field: the operand-cache codes 01 and 11 are reserved on a queue register (R51). -/
def s7ok (c : BitVec 7) : Bool := !(c.getLsbD 5 && c.getLsbD 4)

/-- A D5 field: codes 18 to 31 are reserved (R54). -/
def d5ok (d : BitVec 5) : Bool := decide (d.toNat ≤ 17)

/-- A field that names one of g0 to g59 (R56). -/
def gok (g : BitVec 6) : Bool := decide (g.toNat ≤ 59)

/-- An SC field: codes 5 to 7 are reserved (R56). -/
def scok (k : BitVec 3) : Bool := decide (k.toNat ≤ 4)

/-- Operand codes of OpHsched. -/
def OpHsched.wf (o : OpHsched) : Bool := o.i != 0#1 || o.d != 0#1

/-- Operand codes of OpHimm. -/
def OpHimm.wf (o : OpHimm) : Bool := o.l != 3#2 && (o.l != 2#2 || o.d.extractLsb' 16 8 == 0#8)

/-- Operand codes of OpHdst. -/
def OpHdst.wf (o : OpHdst) : Bool := d5ok o.d

/-- Operand codes of OpHmod. -/
def OpHmod.wf (o : OpHmod) : Bool := decide (o.p.toNat ≤ 3) && decide (o.o.toNat ≤ 4) && decide (o.r.toNat ≤ 4)

/-- Operand codes of OpAB. -/
def OpAB.wf (o : OpAB) : Bool := d5ok o.d && s7ok o.a

/-- Operand codes of OpA. -/
def OpA.wf (o : OpA) : Bool := d5ok o.d && s7ok o.a

/-- Operand codes of OpABC. -/
def OpABC.wf (o : OpABC) : Bool := s7ok o.a && s7ok o.b && s7ok o.c

/-- Operand codes of OpCmp. -/
def OpCmp.wf (o : OpCmp) : Bool := s7ok o.a

/-- Operand codes of OpFma. -/
def OpFma.wf (o : OpFma) : Bool := s7ok o.a && s7ok o.b && s7ok o.c

/-- Operand codes of OpNarrow. -/
def OpNarrow.wf (o : OpNarrow) : Bool := d5ok o.d && s7ok o.a

/-- Operand codes of OpCordic. -/
def OpCordic.wf (o : OpCordic) : Bool := d5ok o.d && s7ok o.a

/-- Operand codes of OpRedU. -/
def OpRedU.wf (o : OpRedU) : Bool := d5ok o.d && s7ok o.a

/-- Operand codes of OpRedX. -/
def OpRedX.wf (o : OpRedX) : Bool := d5ok o.d && s7ok o.a

/-- Operand codes of OpPred2. -/
def OpPred2.wf (_ : OpPred2) : Bool := true

/-- Operand codes of OpPred1. -/
def OpPred1.wf (_ : OpPred1) : Bool := true

/-- Operand codes of OpGuard. -/
def OpGuard.wf (_ : OpGuard) : Bool := true

/-- Operand codes of OpPx1. -/
def OpPx1.wf (_ : OpPx1) : Bool := true

/-- Operand codes of OpPset. -/
def OpPset.wf (o : OpPset) : Bool := s7ok o.a && s7ok o.b

/-- Operand codes of OpSel. -/
def OpSel.wf (o : OpSel) : Bool := s7ok o.a && s7ok o.b

/-- Operand codes of OpMom2. -/
def OpMom2.wf (_ : OpMom2) : Bool := true

/-- Operand codes of OpMomX. -/
def OpMomX.wf (o : OpMomX) : Bool := s7ok o.x

/-- Operand codes of OpMom1. -/
def OpMom1.wf (_ : OpMom1) : Bool := true

/-- Operand codes of OpMmake. -/
def OpMmake.wf (o : OpMmake) : Bool := s7ok o.x

/-- Operand codes of OpMcol. -/
def OpMcol.wf (_ : OpMcol) : Bool := true

/-- Operand codes of OpMcolX. -/
def OpMcolX.wf (o : OpMcolX) : Bool := s7ok o.x

/-- Operand codes of OpLB. -/
def OpLB.wf (o : OpLB) : Bool := d5ok o.d && s7ok o.a

/-- Operand codes of OpLX. -/
def OpLX.wf (o : OpLX) : Bool := d5ok o.d && s7ok o.x

/-- Operand codes of OpSB. -/
def OpSB.wf (o : OpSB) : Bool := s7ok o.v && s7ok o.a

/-- Operand codes of OpSX. -/
def OpSX.wf (o : OpSX) : Bool := s7ok o.v && s7ok o.x && gok o.g

/-- Operand codes of OpLdo. -/
def OpLdo.wf (o : OpLdo) : Bool := d5ok o.d && s7ok o.a && scok o.k

/-- Operand codes of OpSto. -/
def OpSto.wf (o : OpSto) : Bool := s7ok o.v && s7ok o.a && scok o.k

/-- Operand codes of OpAT. -/
def OpAT.wf (o : OpAT) : Bool := s7ok o.a && s7ok o.b && scok o.k

/-- Operand codes of OpRed. -/
def OpRed.wf (o : OpRed) : Bool := s7ok o.a && s7ok o.b && scok o.k

/-- Operand codes of OpSt. -/
def OpSt.wf (_ : OpSt) : Bool := true

/-- Operand codes of OpDoc. -/
def OpDoc.wf (o : OpDoc) : Bool := s7ok o.a && s7ok o.b && scok o.k

/-- Operand codes of OpDoc1. -/
def OpDoc1.wf (o : OpDoc1) : Bool := s7ok o.a && scok o.k

/-- Operand codes of OpFence. -/
def OpFence.wf (o : OpFence) : Bool := scok o.k

/-- Operand codes of OpCa. -/
def OpCa.wf (o : OpCa) : Bool := s7ok o.a

/-- Operand codes of OpCab. -/
def OpCab.wf (o : OpCab) : Bool := s7ok o.a && s7ok o.b

/-- Operand codes of OpCb. -/
def OpCb.wf (o : OpCb) : Bool := s7ok o.b

/-- Operand codes of OpBinit. -/
def OpBinit.wf (o : OpBinit) : Bool := gok o.g && gok o.e

/-- Operand codes of OpBarG. -/
def OpBarG.wf (o : OpBarG) : Bool := gok o.g

/-- Operand codes of OpBarGE. -/
def OpBarGE.wf (o : OpBarGE) : Bool := gok o.g && gok o.e

/-- Operand codes of OpBwait. -/
def OpBwait.wf (o : OpBwait) : Bool := gok o.g

/-- Operand codes of OpBtry. -/
def OpBtry.wf (o : OpBtry) : Bool := gok o.g

/-- Operand codes of OpBr. -/
def OpBr.wf (_ : OpBr) : Bool := true

/-- Operand codes of OpJump. -/
def OpJump.wf (_ : OpJump) : Bool := true

/-- Operand codes of OpJumpI. -/
def OpJumpI.wf (o : OpJumpI) : Bool := s7ok o.a

/-- Operand codes of OpSleep. -/
def OpSleep.wf (_ : OpSleep) : Bool := true

/-- Operand codes of OpYieldw. -/
def OpYieldw.wf (o : OpYieldw) : Bool := gok o.g

/-- Operand codes of OpRole. -/
def OpRole.wf (_ : OpRole) : Bool := true

/-- Operand codes of OpRegion. -/
def OpRegion.wf (o : OpRegion) : Bool := gok o.g

/-- Operand codes of OpEmit. -/
def OpEmit.wf (_ : OpEmit) : Bool := true

/-- Operand codes of OpLnch. -/
def OpLnch.wf (o : OpLnch) : Bool := gok o.g

/-- Operand codes of OpEnF. -/
def OpEnF.wf (o : OpEnF) : Bool := gok o.a && gok o.b

/-- Operand codes of OpEnA. -/
def OpEnA.wf (o : OpEnA) : Bool := gok o.a

/-- Operand codes of OpPark. -/
def OpPark.wf (_ : OpPark) : Bool := true

/-- Operand codes of OpSpq. -/
def OpSpq.wf (_ : OpSpq) : Bool := true

/-- Operand codes of OpEn2. -/
def OpEn2.wf (o : OpEn2) : Bool := gok o.a && gok o.b

/-- Operand codes of OpEn1. -/
def OpEn1.wf (o : OpEn1) : Bool := gok o.a

/-- Operand codes of OpMxldb. -/
def OpMxldb.wf (o : OpMxldb) : Bool := gok o.a && gok o.b && gok o.c

/-- Operand codes of OpEn3. -/
def OpEn3.wf (o : OpEn3) : Bool := gok o.a && gok o.b && gok o.c

/-- Operand codes of OpSx. -/
def OpSx.wf (o : OpSx) : Bool := gok o.a && gok o.b && gok o.c

/-- Operand codes of OpCsrr. -/
def OpCsrr.wf (o : OpCsrr) : Bool := d5ok o.d

/-- Operand codes of OpCsrw. -/
def OpCsrw.wf (o : OpCsrw) : Bool := s7ok o.x && (o.c != 0x0F#6 && o.c != 0x10#6)

/-- Operand codes of OpCsrwK. -/
def OpCsrwK.wf (o : OpCsrwK) : Bool := s7ok o.x

/-- Operand codes of OpCode. -/
def OpCode.wf (_ : OpCode) : Bool := true

/-- Operand codes of OpClk. -/
def OpClk.wf (o : OpClk) : Bool := d5ok o.d

/-- Operand codes of OpDevr. -/
def OpDevr.wf (o : OpDevr) : Bool := d5ok o.d

/-- Operand codes of OpGset. -/
def OpGset.wf (o : OpGset) : Bool := s7ok o.x && gok o.g

/-- The second source of an AB word is an S7 field, that of an AG word any G7 code (R53). -/
def OpAB.wfS (o : OpAB) : Bool := o.wf && s7ok o.b

/-- The second source of a CP word of ICMP and FCMP is an S7 field. -/
def OpCmp.wfS (o : OpCmp) : Bool := o.wf && s7ok o.b

/-- Primary opcodes that R68 reserves: 0x0B, 0x3E and 0x3F. -/
def reservedPrimary (w : BitVec 32) : Bool :=
  w.extractLsb' 26 6 == 0x0B#6 || w.extractLsb' 26 6 == 0x3E#6 || w.extractLsb' 26 6 == 0x3F#6

/-- Well-formed instructions. An event has no word, and every event is well formed. -/
def Instr.wf : Instr → Bool
  | .hnop => true
  | .hsched o => o.wf
  | .himm o => o.wf
  | .hdst o => o.wf
  | .hmod o => o.wf
  | .iadd o => o.wfS
  | .isub o => o.wfS
  | .iadds o => o.wfS
  | .iaddu o => o.wfS
  | .isubs o => o.wfS
  | .isubu o => o.wfS
  | .imul o => o.wfS
  | .imulh o => o.wfS
  | .iaddG o => o.wf
  | .isubG o => o.wf
  | .iaddsG o => o.wf
  | .iadduG o => o.wf
  | .isubsG o => o.wf
  | .isubuG o => o.wf
  | .imulG o => o.wf
  | .imulhG o => o.wf
  | .and o => o.wfS
  | .or o => o.wfS
  | .xor o => o.wfS
  | .andn o => o.wfS
  | .shl o => o.wfS
  | .shr o => o.wfS
  | .sar o => o.wfS
  | .rotl o => o.wfS
  | .andG o => o.wf
  | .orG o => o.wf
  | .xorG o => o.wf
  | .andnG o => o.wf
  | .shlG o => o.wf
  | .shrG o => o.wf
  | .sarG o => o.wf
  | .rotlG o => o.wf
  | .imin o => o.wfS
  | .imax o => o.wfS
  | .umin o => o.wfS
  | .umax o => o.wfS
  | .imulhu o => o.wfS
  | .iabsd o => o.wfS
  | .pklo o => o.wfS
  | .pkhi o => o.wfS
  | .iminG o => o.wf
  | .imaxG o => o.wf
  | .uminG o => o.wf
  | .umaxG o => o.wf
  | .imulhuG o => o.wf
  | .iabsdG o => o.wf
  | .pkloG o => o.wf
  | .pkhiG o => o.wf
  | .clz o => o.wf
  | .ctz o => o.wf
  | .popc o => o.wf
  | .brev o => o.wf
  | .ineg o => o.wf
  | .inot o => o.wf
  | .iabs o => o.wf
  | .bswap o => o.wf
  | .imad o => o.wf
  | .imad64 o => o.wf
  | .imadhs o => o.wf
  | .imadhz o => o.wf
  | .imadw o => o.wf
  | .idot8 o => o.wf
  | .idot16 o => o.wf
  | .idivs o => o.wfS
  | .idivz o => o.wfS
  | .irems o => o.wfS
  | .iremz o => o.wfS
  | .icmpeq o => o.wfS
  | .icmpne o => o.wfS
  | .icmplt o => o.wfS
  | .icmple o => o.wfS
  | .icmpltz o => o.wfS
  | .icmplez o => o.wfS
  | .icmptst o => o.wfS
  | .icmpeqG o => o.wf
  | .icmpneG o => o.wf
  | .icmpltG o => o.wf
  | .icmpleG o => o.wf
  | .icmpltzG o => o.wf
  | .icmplezG o => o.wf
  | .icmptstG o => o.wf
  | .fadd o => o.wfS
  | .fsub o => o.wfS
  | .fmul o => o.wfS
  | .fmin o => o.wfS
  | .fmax o => o.wfS
  | .fminn o => o.wfS
  | .fmaxn o => o.wfS
  | .fcpsg o => o.wfS
  | .faddG o => o.wf
  | .fsubG o => o.wf
  | .fmulG o => o.wf
  | .fminG o => o.wf
  | .fmaxG o => o.wf
  | .fminnG o => o.wf
  | .fmaxnG o => o.wf
  | .fcpsgG o => o.wf
  | .fma o => o.wf
  | .fms o => o.wf
  | .fnma o => o.wf
  | .fnms o => o.wf
  | .hdotBf16 o => o.wf
  | .hdotF16 o => o.wf
  | .ffmaBf16x4 o => o.wf
  | .ffmaF16x4 o => o.wf
  | .fabs o => o.wf
  | .fneg o => o.wf
  | .frnd o => o.wf
  | .frndz o => o.wf
  | .fclass o => o.wf
  | .fgetexp o => o.wf
  | .fgetman o => o.wf
  | .fcvtwl o => o.wf
  | .fcvtwh o => o.wf
  | .fcvtn o => o.wfS
  | .fcvtfi o => o.wf
  | .fcvtfu o => o.wf
  | .fcvtif o => o.wf
  | .fcvtuf o => o.wf
  | .fenc o => o.wf
  | .fdec o => o.wf
  | .fcmpeq o => o.wfS
  | .fcmpne o => o.wfS
  | .fcmplt o => o.wfS
  | .fcmple o => o.wfS
  | .fcmpun o => o.wfS
  | .fcmpor o => o.wfS
  | .fcmpequ o => o.wfS
  | .fcmpgt o => o.wfS
  | .fdiv o => o.wfS
  | .fsqrt o => o.wf
  | .cexp2 o => o.wf
  | .clog2 o => o.wf
  | .csin o => o.wf
  | .ccos o => o.wf
  | .ctanh o => o.wf
  | .csigm o => o.wf
  | .crcp o => o.wf
  | .crsqrt o => o.wf
  | .csqrt o => o.wf
  | .catan o => o.wf
  | .catan2 o => o.wf
  | .csincos o => o.wf
  | .chypot o => o.wf
  | .xshf o => o.wfS
  | .xup o => o.wfS
  | .xdn o => o.wfS
  | .xbfly o => o.wfS
  | .xget o => o.wfS
  | .xperm o => o.wfS
  | .xrot o => o.wfS
  | .xshfG o => o.wf
  | .xupG o => o.wf
  | .xdnG o => o.wf
  | .xbflyG o => o.wf
  | .xgetG o => o.wf
  | .xpermG o => o.wf
  | .xrotG o => o.wf
  | .vsum o => o.wf
  | .vfsum o => o.wf
  | .vmin o => o.wf
  | .vmax o => o.wf
  | .vfmin o => o.wf
  | .vfmax o => o.wf
  | .vscan o => o.wf
  | .vfscan o => o.wf
  | .pand o => o.wf
  | .por o => o.wf
  | .pxor o => o.wf
  | .pandn o => o.wf
  | .pnot o => o.wf
  | .pmov o => o.wf
  | .pany o => o.wf
  | .pall o => o.wf
  | .guard o => o.wf
  | .guardn o => o.wf
  | .guardoff => true
  | .pbal o => o.wf
  | .pset o => o.wf
  | .pget o => o.wf
  | .pcnt o => o.wf
  | .sel o => o.wf
  | .madd o => o.wf
  | .msub o => o.wf
  | .mmul o => o.wf
  | .mscl o => o.wf
  | .mofs o => o.wf
  | .mneg o => o.wf
  | .mcpy o => o.wf
  | .mrelu o => o.wf
  | .mexp o => o.wf
  | .msig o => o.wf
  | .mtanh o => o.wf
  | .mrcp o => o.wf
  | .msqr o => o.wf
  | .mmake o => o.wf
  | .mcolMu o => o.wf
  | .mcolVar o => o.wf
  | .mcolSd o => o.wf
  | .mcolPair o => o.wf
  | .mcolSmp o => o.wf
  | .ldg o => o.wf
  | .ldgx o => o.wf
  | .stg o => o.wf
  | .stgx o => o.wf
  | .lds o => o.wf
  | .ldsx o => o.wf
  | .sts o => o.wf
  | .stsx o => o.wf
  | .ldo o => o.wf
  | .sto o => o.wf
  | .atmAdd o => o.wf
  | .atmAnd o => o.wf
  | .atmOr o => o.wf
  | .atmXor o => o.wf
  | .atmMin o => o.wf
  | .atmMax o => o.wf
  | .atmMinz o => o.wf
  | .atmMaxz o => o.wf
  | .atmXchg o => o.wf
  | .atmCas o => o.wf
  | .atmFadd o => o.wf
  | .raddI32 o => o.wf
  | .raddI64 o => o.wf
  | .raddF32 o => o.wf
  | .raddF64 o => o.wf
  | .rmin o => o.wf
  | .rmax o => o.wf
  | .redfl o => o.wf
  | .prop o => o.wf
  | .dread o => o.wf
  | .recyc o => o.wf
  | .dstat o => o.wf
  | .fenceAcq o => o.wf
  | .fenceRel o => o.wf
  | .fenceFull o => o.wf
  | .fenceEng o => o.wf
  | .wsigSt o => o.wf
  | .wsigAdd o => o.wf
  | .pref o => o.wf
  | .evf o => o.wf
  | .pin o => o.wf
  | .unpin o => o.wf
  | .lhint o => o.wf
  | .binit o => o.wf
  | .barr o => o.wf
  | .barrx o => o.wf
  | .bwait o => o.wf
  | .btry o => o.wf
  | .bdrop o => o.wf
  | .bdropRel o => o.wf
  | .brAny o => o.wf
  | .brAll o => o.wf
  | .brNone o => o.wf
  | .brUni o => o.wf
  | .jmp o => o.wf
  | .call o => o.wf
  | .ret => true
  | .jmpi o => o.wf
  | .calli o => o.wf
  | .regang o => o.wf
  | .exit o => o.wf
  | .sleep o => o.wf
  | .yield o => o.wf
  | .yieldw o => o.wf
  | .role o => o.wf
  | .region o => o.wf
  | .emit o => o.wf
  | .lnch o => o.wf
  | .fork o => o.wf
  | .fkill o => o.wf
  | .park o => o.wf
  | .unpark o => o.wf
  | .spqOut o => o.wf
  | .spqIn o => o.wf
  | .mxcfgNf o => o.wf
  | .mxcfgTile o => o.wf
  | .mxcfgFree o => o.wf
  | .mxres o => o.wf
  | .mxrel o => o.wf
  | .mxldb o => o.wf
  | .mxrake o => o.wf
  | .mxbegin o => o.wf
  | .mxloop o => o.wf
  | .mxend o => o.wf
  | .mxzero o => o.wf
  | .mxdrain o => o.wf
  | .mxchk o => o.wf
  | .sxcopy o => o.wf
  | .sxgath o => o.wf
  | .sxscat o => o.wf
  | .sxfill o => o.wf
  | .sxflip o => o.wf
  | .sxflipT o => o.wf
  | .sxcan o => o.wf
  | .sxstat o => o.wf
  | .csrr o => o.wf
  | .csrw o => o.wf
  | .csrwErrinj o => o.wf
  | .csrwClktest o => o.wf
  | .trap o => o.wf
  | .eret o => o.wf
  | .clkCyc o => o.wf
  | .clkPts o => o.wf
  | .clkPtp o => o.wf
  | .devr o => o.wf
  | .bkpt o => o.wf
  | .gset o => o.wf
  | .issueBeat => true
  | .sleepExpiry _ _ => true
  | .resultReturn _ => true
  | .homeRead _ => true
  | .homeWrite _ => true
  | .homeAtomic _ => true
  | .biResponse _ _ => true
  | .lazyReleaseDrain _ => true
  | .lazyReleaseTimeout _ => true
  | .regionMerge _ _ => true
  | .ccInterval => true
  | .clockReconcile => true
  | .sweeperVisit _ _ => true
  | .smbFlushTimeout _ _ => true
  | .smbFlushAck _ => true
  | .tlbFill _ _ _ _ => true
  | .faultResolve _ _ _ _ => true
  | .drainProcedure _ _ _ _ => true
  | .redDrain _ _ => true
  | .redEntryApply _ => true
  | .redDrainAck _ => true
  | .wsigSignal _ => true
  | .homeProp _ => true
  | .homeDread _ => true
  | .homeRecyc _ => true
  | .homeDstat _ => true
  | .docReply _ => true
  | .sxCommandStart _ => true
  | .sxElementLand _ _ => true
  | .sxResume _ => true
  | .sxAbort _ => true
  | .mxCommandStart _ => true
  | .mxldbLand _ => true
  | .mxKstep _ => true
  | .mxendComplete _ => true
  | .mxdrainLand _ => true
  | .mxchkComplete _ => true
  | .forkProgramRead _ => true
  | .forkProgramComplete _ => true
  | .doorbellWrite _ _ _ => true
  | .launchAccept _ _ => true
  | .placeTeam _ _ => true
  | .discardTeam _ => true
  | .preemptWatchdog _ => true
  | .groupEnd _ => true
  | .roleRestart _ => true
  | .launchComplete _ _ => true
  | .copyLaunch _ _ => true
  | .releaseLaunch _ _ => true
  | .gatherTimeout _ _ _ => true
  | .stageAllowance _ _ => true
  | .riddleReplay _ => true
  | .riddleCompare _ => true
  | .deviceReset => true
  | .partitionReset _ => true
  | .resourceRegisterWrite _ _ _ => true
  | .qcfgWrite _ _ _ => true
  | .ptrootWrite _ _ _ => true
  | .logcfgWrite _ _ => true
  | .biasFlip _ _ => true
  | .registerWrite _ _ _ => true
  | .hostRead _ _ _ _ _ => true
  | .hostWrite _ _ _ _ _ => true
  | .snpInv _ => true
  | .snpData _ => true
  | .snpCur _ => true
  | .bridgeDeviceRead _ => true
  | .hostGrant _ _ _ => true
  | .bridgeDeviceWrite _ => true
  | .bridgeWriteAck _ => true
  | .bridgeEvict _ => true
  | .bridgeWriteback _ => true
  | .ingestWrite _ _ _ _ => true
  | .ingestPiece _ => true
  | .ingestDoorbell _ _ _ => true
  | .pwrcapWrite _ => true
  | .powerCheck => true
  | .attest _ => true
  | .dbgctlWrite _ => true
  | .dbgselWrite _ => true
  | .debugResume _ => true
  | .dbgdataRead => true
  | .dbgdataWrite _ => true
  | .deviceNumberAssign _ => true
  | .ptpSync _ => true
  | .flitRetry _ => true
  | .fabricTimeout _ => true
  | .remoteRead _ _ _ _ _ => true
  | .remoteWrite _ _ _ _ _ => true
  | .heldWriteRelease _ => true
  | .repStore _ => true
  | .repUpdateApply _ _ => true
  | .repApplyAck _ _ _ => true
  | .repLock _ _ => true
  | .repLockTimeout _ _ _ => true
  | .repLoadTimeout _ => true
  | .repModeSwitch _ _ => true
  | .illegalInstruction w => reservedPrimary w
  | .fetchFill _ _ _ _ => true
  | .retentionRequest _ => true
  | .damagedBit _ _ _ => true
  | .ingestUnsupportedRequest _ => true

end Sys2Proof
end

