-- ==== Sys2Proof/Decode.lean ====
section
/-!
DEFINITION. The decoder, total on any bytes, which rejects by name, and the encoder. Both follow the
formats of R55 and the primary opcode map of R68; a row of the decoder is a mask, a pattern and the
operand record that its format names. The word is stored little-endian (R46).

A definition that builds an instruction is marked noncomputable because Lean's compiler gives no code
for a constructor beyond the 244th that carries fields; Lean's kernel evaluates all of them.
-/

namespace Sys2Proof

/-- Why bytes are no instruction. -/
inductive DecodeError where
  | truncated                          -- fewer than four bytes
  | reservedForm (w : BitVec 32)       -- a reserved F, C, SUB or sub-op, or a nonzero field named 0 (R70)
  | reservedOperand (w : BitVec 32)    -- a reserved operand, SC, SCO, RM, POL or SLOT code (R70)
  deriving DecidableEq, Repr

/-- The operand fields of OpHsched in a word (R55). -/
def OpHsched.ofWord (w : BitVec 32) : OpHsched :=
  ⟨w.extractLsb' 1 1, w.extractLsb' 0 1⟩

/-- The operand fields of OpHsched laid out in a word (R55). -/
def OpHsched.toWord (o : OpHsched) : BitVec 32 :=
  o.i.setWidth 32 <<< 1 |||
  o.d.setWidth 32

/-- The operand fields of OpHimm in a word (R55). -/
def OpHimm.ofWord (w : BitVec 32) : OpHimm :=
  ⟨w.extractLsb' 24 2, w.extractLsb' 0 24⟩

/-- The operand fields of OpHimm laid out in a word (R55). -/
def OpHimm.toWord (o : OpHimm) : BitVec 32 :=
  o.l.setWidth 32 <<< 24 |||
  o.d.setWidth 32

/-- The operand fields of OpHdst in a word (R55). -/
def OpHdst.ofWord (w : BitVec 32) : OpHdst :=
  ⟨w.extractLsb' 0 5⟩

/-- The operand fields of OpHdst laid out in a word (R55). -/
def OpHdst.toWord (o : OpHdst) : BitVec 32 :=
  o.d.setWidth 32

/-- The operand fields of OpHmod in a word (R55). -/
def OpHmod.ofWord (w : BitVec 32) : OpHmod :=
  ⟨w.extractLsb' 9 3, w.extractLsb' 8 1, w.extractLsb' 5 3, w.extractLsb' 3 1, w.extractLsb' 0 3⟩

/-- The operand fields of OpHmod laid out in a word (R55). -/
def OpHmod.toWord (o : OpHmod) : BitVec 32 :=
  o.p.setWidth 32 <<< 9 |||
  o.v.setWidth 32 <<< 8 |||
  o.o.setWidth 32 <<< 5 |||
  o.t.setWidth 32 <<< 3 |||
  o.r.setWidth 32

/-- The operand fields of OpAB in a word (R55). -/
def OpAB.ofWord (w : BitVec 32) : OpAB :=
  ⟨w.extractLsb' 24 2, w.extractLsb' 19 2, w.extractLsb' 14 5, w.extractLsb' 7 7, w.extractLsb' 0 7⟩

/-- The operand fields of OpAB laid out in a word (R55). -/
def OpAB.toWord (o : OpAB) : BitVec 32 :=
  o.s.setWidth 32 <<< 24 |||
  o.w.setWidth 32 <<< 19 |||
  o.d.setWidth 32 <<< 14 |||
  o.a.setWidth 32 <<< 7 |||
  o.b.setWidth 32

/-- The operand fields of OpA in a word (R55). -/
def OpA.ofWord (w : BitVec 32) : OpA :=
  ⟨w.extractLsb' 24 2, w.extractLsb' 19 2, w.extractLsb' 14 5, w.extractLsb' 7 7⟩

/-- The operand fields of OpA laid out in a word (R55). -/
def OpA.toWord (o : OpA) : BitVec 32 :=
  o.s.setWidth 32 <<< 24 |||
  o.w.setWidth 32 <<< 19 |||
  o.d.setWidth 32 <<< 14 |||
  o.a.setWidth 32 <<< 7

/-- The operand fields of OpABC in a word (R55). -/
def OpABC.ofWord (w : BitVec 32) : OpABC :=
  ⟨w.extractLsb' 24 2, w.extractLsb' 14 7, w.extractLsb' 7 7, w.extractLsb' 0 7⟩

/-- The operand fields of OpABC laid out in a word (R55). -/
def OpABC.toWord (o : OpABC) : BitVec 32 :=
  o.s.setWidth 32 <<< 24 |||
  o.a.setWidth 32 <<< 14 |||
  o.b.setWidth 32 <<< 7 |||
  o.c.setWidth 32

/-- The operand fields of OpCmp in a word (R55). -/
def OpCmp.ofWord (w : BitVec 32) : OpCmp :=
  ⟨w.extractLsb' 21 2, w.extractLsb' 14 7, w.extractLsb' 7 7, w.extractLsb' 0 7⟩

/-- The operand fields of OpCmp laid out in a word (R55). -/
def OpCmp.toWord (o : OpCmp) : BitVec 32 :=
  o.w.setWidth 32 <<< 21 |||
  o.p.setWidth 32 <<< 14 |||
  o.a.setWidth 32 <<< 7 |||
  o.b.setWidth 32

/-- The operand fields of OpFma in a word (R55). -/
def OpFma.ofWord (w : BitVec 32) : OpFma :=
  ⟨w.extractLsb' 24 2, w.extractLsb' 23 1, w.extractLsb' 14 7, w.extractLsb' 7 7, w.extractLsb' 0 7⟩

/-- The operand fields of OpFma laid out in a word (R55). -/
def OpFma.toWord (o : OpFma) : BitVec 32 :=
  o.s.setWidth 32 <<< 24 |||
  o.f.setWidth 32 <<< 23 |||
  o.a.setWidth 32 <<< 14 |||
  o.b.setWidth 32 <<< 7 |||
  o.c.setWidth 32

/-- The operand fields of OpNarrow in a word (R55). -/
def OpNarrow.ofWord (w : BitVec 32) : OpNarrow :=
  ⟨w.extractLsb' 24 2, w.extractLsb' 19 2, w.extractLsb' 14 5, w.extractLsb' 7 7, w.extractLsb' 0 4⟩

/-- The operand fields of OpNarrow laid out in a word (R55). -/
def OpNarrow.toWord (o : OpNarrow) : BitVec 32 :=
  o.s.setWidth 32 <<< 24 |||
  o.w.setWidth 32 <<< 19 |||
  o.d.setWidth 32 <<< 14 |||
  o.a.setWidth 32 <<< 7 |||
  o.n.setWidth 32

/-- The operand fields of OpCordic in a word (R55). -/
def OpCordic.ofWord (w : BitVec 32) : OpCordic :=
  ⟨w.extractLsb' 17 5, w.extractLsb' 15 2, w.extractLsb' 10 5, w.extractLsb' 3 7⟩

/-- The operand fields of OpCordic laid out in a word (R55). -/
def OpCordic.toWord (o : OpCordic) : BitVec 32 :=
  o.i.setWidth 32 <<< 17 |||
  o.t.setWidth 32 <<< 15 |||
  o.d.setWidth 32 <<< 10 |||
  o.a.setWidth 32 <<< 3

/-- The operand fields of OpRedU in a word (R55). -/
def OpRedU.ofWord (w : BitVec 32) : OpRedU :=
  ⟨w.extractLsb' 24 2, w.extractLsb' 19 2, w.extractLsb' 14 5, w.extractLsb' 7 7, w.extractLsb' 0 1⟩

/-- The operand fields of OpRedU laid out in a word (R55). -/
def OpRedU.toWord (o : OpRedU) : BitVec 32 :=
  o.s.setWidth 32 <<< 24 |||
  o.w.setWidth 32 <<< 19 |||
  o.d.setWidth 32 <<< 14 |||
  o.a.setWidth 32 <<< 7 |||
  o.u.setWidth 32

/-- The operand fields of OpRedX in a word (R55). -/
def OpRedX.ofWord (w : BitVec 32) : OpRedX :=
  ⟨w.extractLsb' 24 2, w.extractLsb' 19 2, w.extractLsb' 14 5, w.extractLsb' 7 7, w.extractLsb' 1 1⟩

/-- The operand fields of OpRedX laid out in a word (R55). -/
def OpRedX.toWord (o : OpRedX) : BitVec 32 :=
  o.s.setWidth 32 <<< 24 |||
  o.w.setWidth 32 <<< 19 |||
  o.d.setWidth 32 <<< 14 |||
  o.a.setWidth 32 <<< 7 |||
  o.x.setWidth 32 <<< 1

/-- The operand fields of OpPred2 in a word (R55). -/
def OpPred2.ofWord (w : BitVec 32) : OpPred2 :=
  ⟨w.extractLsb' 14 7, w.extractLsb' 7 7, w.extractLsb' 0 7⟩

/-- The operand fields of OpPred2 laid out in a word (R55). -/
def OpPred2.toWord (o : OpPred2) : BitVec 32 :=
  o.d.setWidth 32 <<< 14 |||
  o.a.setWidth 32 <<< 7 |||
  o.b.setWidth 32

/-- The operand fields of OpPred1 in a word (R55). -/
def OpPred1.ofWord (w : BitVec 32) : OpPred1 :=
  ⟨w.extractLsb' 14 7, w.extractLsb' 7 7⟩

/-- The operand fields of OpPred1 laid out in a word (R55). -/
def OpPred1.toWord (o : OpPred1) : BitVec 32 :=
  o.d.setWidth 32 <<< 14 |||
  o.a.setWidth 32 <<< 7

/-- The operand fields of OpGuard in a word (R55). -/
def OpGuard.ofWord (w : BitVec 32) : OpGuard :=
  ⟨w.extractLsb' 7 7⟩

/-- The operand fields of OpGuard laid out in a word (R55). -/
def OpGuard.toWord (o : OpGuard) : BitVec 32 :=
  o.a.setWidth 32 <<< 7

/-- The operand fields of OpPx1 in a word (R55). -/
def OpPx1.ofWord (w : BitVec 32) : OpPx1 :=
  ⟨w.extractLsb' 24 2, w.extractLsb' 14 7⟩

/-- The operand fields of OpPx1 laid out in a word (R55). -/
def OpPx1.toWord (o : OpPx1) : BitVec 32 :=
  o.s.setWidth 32 <<< 24 |||
  o.p.setWidth 32 <<< 14

/-- The operand fields of OpPset in a word (R55). -/
def OpPset.ofWord (w : BitVec 32) : OpPset :=
  ⟨w.extractLsb' 24 2, w.extractLsb' 14 7, w.extractLsb' 7 7, w.extractLsb' 0 7⟩

/-- The operand fields of OpPset laid out in a word (R55). -/
def OpPset.toWord (o : OpPset) : BitVec 32 :=
  o.s.setWidth 32 <<< 24 |||
  o.p.setWidth 32 <<< 14 |||
  o.a.setWidth 32 <<< 7 |||
  o.b.setWidth 32

/-- The operand fields of OpSel in a word (R55). -/
def OpSel.ofWord (w : BitVec 32) : OpSel :=
  ⟨w.extractLsb' 24 2, w.extractLsb' 23 1, w.extractLsb' 16 7, w.extractLsb' 7 7, w.extractLsb' 0 7⟩

/-- The operand fields of OpSel laid out in a word (R55). -/
def OpSel.toWord (o : OpSel) : BitVec 32 :=
  o.s.setWidth 32 <<< 24 |||
  o.i.setWidth 32 <<< 23 |||
  o.p.setWidth 32 <<< 16 |||
  o.a.setWidth 32 <<< 7 |||
  o.b.setWidth 32

/-- The operand fields of OpMom2 in a word (R55). -/
def OpMom2.ofWord (w : BitVec 32) : OpMom2 :=
  ⟨w.extractLsb' 24 2, w.extractLsb' 17 4, w.extractLsb' 13 4, w.extractLsb' 9 4⟩

/-- The operand fields of OpMom2 laid out in a word (R55). -/
def OpMom2.toWord (o : OpMom2) : BitVec 32 :=
  o.s.setWidth 32 <<< 24 |||
  o.d.setWidth 32 <<< 17 |||
  o.a.setWidth 32 <<< 13 |||
  o.b.setWidth 32 <<< 9

/-- The operand fields of OpMomX in a word (R55). -/
def OpMomX.ofWord (w : BitVec 32) : OpMomX :=
  ⟨w.extractLsb' 24 2, w.extractLsb' 17 4, w.extractLsb' 13 4, w.extractLsb' 2 7⟩

/-- The operand fields of OpMomX laid out in a word (R55). -/
def OpMomX.toWord (o : OpMomX) : BitVec 32 :=
  o.s.setWidth 32 <<< 24 |||
  o.d.setWidth 32 <<< 17 |||
  o.a.setWidth 32 <<< 13 |||
  o.x.setWidth 32 <<< 2

/-- The operand fields of OpMom1 in a word (R55). -/
def OpMom1.ofWord (w : BitVec 32) : OpMom1 :=
  ⟨w.extractLsb' 24 2, w.extractLsb' 17 4, w.extractLsb' 13 4⟩

/-- The operand fields of OpMom1 laid out in a word (R55). -/
def OpMom1.toWord (o : OpMom1) : BitVec 32 :=
  o.s.setWidth 32 <<< 24 |||
  o.d.setWidth 32 <<< 17 |||
  o.a.setWidth 32 <<< 13

/-- The operand fields of OpMmake in a word (R55). -/
def OpMmake.ofWord (w : BitVec 32) : OpMmake :=
  ⟨w.extractLsb' 24 2, w.extractLsb' 17 4, w.extractLsb' 2 7⟩

/-- The operand fields of OpMmake laid out in a word (R55). -/
def OpMmake.toWord (o : OpMmake) : BitVec 32 :=
  o.s.setWidth 32 <<< 24 |||
  o.d.setWidth 32 <<< 17 |||
  o.x.setWidth 32 <<< 2

/-- The operand fields of OpMcol in a word (R55). -/
def OpMcol.ofWord (w : BitVec 32) : OpMcol :=
  ⟨w.extractLsb' 24 2, w.extractLsb' 13 4⟩

/-- The operand fields of OpMcol laid out in a word (R55). -/
def OpMcol.toWord (o : OpMcol) : BitVec 32 :=
  o.s.setWidth 32 <<< 24 |||
  o.a.setWidth 32 <<< 13

/-- The operand fields of OpMcolX in a word (R55). -/
def OpMcolX.ofWord (w : BitVec 32) : OpMcolX :=
  ⟨w.extractLsb' 24 2, w.extractLsb' 13 4, w.extractLsb' 2 7⟩

/-- The operand fields of OpMcolX laid out in a word (R55). -/
def OpMcolX.toWord (o : OpMcolX) : BitVec 32 :=
  o.s.setWidth 32 <<< 24 |||
  o.a.setWidth 32 <<< 13 |||
  o.x.setWidth 32 <<< 2

/-- The operand fields of OpLB in a word (R55). -/
def OpLB.ofWord (w : BitVec 32) : OpLB :=
  ⟨w.extractLsb' 24 2, w.extractLsb' 22 2, w.extractLsb' 17 5, w.extractLsb' 10 7, w.extractLsb' 0 10⟩

/-- The operand fields of OpLB laid out in a word (R55). -/
def OpLB.toWord (o : OpLB) : BitVec 32 :=
  o.s.setWidth 32 <<< 24 |||
  o.z.setWidth 32 <<< 22 |||
  o.d.setWidth 32 <<< 17 |||
  o.a.setWidth 32 <<< 10 |||
  o.o.setWidth 32

/-- The operand fields of OpLX in a word (R55). -/
def OpLX.ofWord (w : BitVec 32) : OpLX :=
  ⟨w.extractLsb' 24 2, w.extractLsb' 22 2, w.extractLsb' 17 5, w.extractLsb' 10 7, w.extractLsb' 3 7, w.extractLsb' 0 3⟩

/-- The operand fields of OpLX laid out in a word (R55). -/
def OpLX.toWord (o : OpLX) : BitVec 32 :=
  o.s.setWidth 32 <<< 24 |||
  o.z.setWidth 32 <<< 22 |||
  o.d.setWidth 32 <<< 17 |||
  o.g.setWidth 32 <<< 10 |||
  o.x.setWidth 32 <<< 3 |||
  o.h.setWidth 32

/-- The operand fields of OpSB in a word (R55). -/
def OpSB.ofWord (w : BitVec 32) : OpSB :=
  ⟨w.extractLsb' 24 2, w.extractLsb' 22 2, w.extractLsb' 15 7, w.extractLsb' 8 7, w.extractLsb' 0 8⟩

/-- The operand fields of OpSB laid out in a word (R55). -/
def OpSB.toWord (o : OpSB) : BitVec 32 :=
  o.s.setWidth 32 <<< 24 |||
  o.z.setWidth 32 <<< 22 |||
  o.v.setWidth 32 <<< 15 |||
  o.a.setWidth 32 <<< 8 |||
  o.o.setWidth 32

/-- The operand fields of OpSX in a word (R55). -/
def OpSX.ofWord (w : BitVec 32) : OpSX :=
  ⟨w.extractLsb' 24 2, w.extractLsb' 22 2, w.extractLsb' 15 7, w.extractLsb' 9 6, w.extractLsb' 2 7, w.extractLsb' 0 2⟩

/-- The operand fields of OpSX laid out in a word (R55). -/
def OpSX.toWord (o : OpSX) : BitVec 32 :=
  o.s.setWidth 32 <<< 24 |||
  o.z.setWidth 32 <<< 22 |||
  o.v.setWidth 32 <<< 15 |||
  o.g.setWidth 32 <<< 9 |||
  o.x.setWidth 32 <<< 2 |||
  o.h.setWidth 32

/-- The operand fields of OpLdo in a word (R55). -/
def OpLdo.ofWord (w : BitVec 32) : OpLdo :=
  ⟨w.extractLsb' 24 2, w.extractLsb' 22 1, w.extractLsb' 17 5, w.extractLsb' 10 7, w.extractLsb' 7 3, w.extractLsb' 0 7⟩

/-- The operand fields of OpLdo laid out in a word (R55). -/
def OpLdo.toWord (o : OpLdo) : BitVec 32 :=
  o.s.setWidth 32 <<< 24 |||
  o.z.setWidth 32 <<< 22 |||
  o.d.setWidth 32 <<< 17 |||
  o.a.setWidth 32 <<< 10 |||
  o.k.setWidth 32 <<< 7 |||
  o.o.setWidth 32

/-- The operand fields of OpSto in a word (R55). -/
def OpSto.ofWord (w : BitVec 32) : OpSto :=
  ⟨w.extractLsb' 24 2, w.extractLsb' 22 1, w.extractLsb' 15 7, w.extractLsb' 8 7, w.extractLsb' 5 3, w.extractLsb' 0 5⟩

/-- The operand fields of OpSto laid out in a word (R55). -/
def OpSto.toWord (o : OpSto) : BitVec 32 :=
  o.s.setWidth 32 <<< 24 |||
  o.z.setWidth 32 <<< 22 |||
  o.v.setWidth 32 <<< 15 |||
  o.a.setWidth 32 <<< 8 |||
  o.k.setWidth 32 <<< 5 |||
  o.o.setWidth 32

/-- The operand fields of OpAT in a word (R55). -/
def OpAT.ofWord (w : BitVec 32) : OpAT :=
  ⟨w.extractLsb' 24 2, w.extractLsb' 18 1, w.extractLsb' 11 7, w.extractLsb' 4 7, w.extractLsb' 1 3⟩

/-- The operand fields of OpAT laid out in a word (R55). -/
def OpAT.toWord (o : OpAT) : BitVec 32 :=
  o.s.setWidth 32 <<< 24 |||
  o.z.setWidth 32 <<< 18 |||
  o.a.setWidth 32 <<< 11 |||
  o.b.setWidth 32 <<< 4 |||
  o.k.setWidth 32 <<< 1

/-- The operand fields of OpRed in a word (R55). -/
def OpRed.ofWord (w : BitVec 32) : OpRed :=
  ⟨w.extractLsb' 24 2, w.extractLsb' 11 7, w.extractLsb' 4 7, w.extractLsb' 1 3⟩

/-- The operand fields of OpRed laid out in a word (R55). -/
def OpRed.toWord (o : OpRed) : BitVec 32 :=
  o.s.setWidth 32 <<< 24 |||
  o.a.setWidth 32 <<< 11 |||
  o.b.setWidth 32 <<< 4 |||
  o.k.setWidth 32 <<< 1

/-- The operand fields of OpSt in a word (R55). -/
def OpSt.ofWord (w : BitVec 32) : OpSt :=
  ⟨w.extractLsb' 24 2⟩

/-- The operand fields of OpSt laid out in a word (R55). -/
def OpSt.toWord (o : OpSt) : BitVec 32 :=
  o.s.setWidth 32 <<< 24

/-- The operand fields of OpDoc in a word (R55). -/
def OpDoc.ofWord (w : BitVec 32) : OpDoc :=
  ⟨w.extractLsb' 24 2, w.extractLsb' 18 2, w.extractLsb' 11 7, w.extractLsb' 4 7, w.extractLsb' 1 3⟩

/-- The operand fields of OpDoc laid out in a word (R55). -/
def OpDoc.toWord (o : OpDoc) : BitVec 32 :=
  o.s.setWidth 32 <<< 24 |||
  o.z.setWidth 32 <<< 18 |||
  o.a.setWidth 32 <<< 11 |||
  o.b.setWidth 32 <<< 4 |||
  o.k.setWidth 32 <<< 1

/-- The operand fields of OpDoc1 in a word (R55). -/
def OpDoc1.ofWord (w : BitVec 32) : OpDoc1 :=
  ⟨w.extractLsb' 24 2, w.extractLsb' 11 7, w.extractLsb' 1 3⟩

/-- The operand fields of OpDoc1 laid out in a word (R55). -/
def OpDoc1.toWord (o : OpDoc1) : BitVec 32 :=
  o.s.setWidth 32 <<< 24 |||
  o.a.setWidth 32 <<< 11 |||
  o.k.setWidth 32 <<< 1

/-- The operand fields of OpFence in a word (R55). -/
def OpFence.ofWord (w : BitVec 32) : OpFence :=
  ⟨w.extractLsb' 24 2, w.extractLsb' 0 3⟩

/-- The operand fields of OpFence laid out in a word (R55). -/
def OpFence.toWord (o : OpFence) : BitVec 32 :=
  o.s.setWidth 32 <<< 24 |||
  o.k.setWidth 32

/-- The operand fields of OpCa in a word (R55). -/
def OpCa.ofWord (w : BitVec 32) : OpCa :=
  ⟨w.extractLsb' 24 2, w.extractLsb' 11 7⟩

/-- The operand fields of OpCa laid out in a word (R55). -/
def OpCa.toWord (o : OpCa) : BitVec 32 :=
  o.s.setWidth 32 <<< 24 |||
  o.a.setWidth 32 <<< 11

/-- The operand fields of OpCab in a word (R55). -/
def OpCab.ofWord (w : BitVec 32) : OpCab :=
  ⟨w.extractLsb' 24 2, w.extractLsb' 11 7, w.extractLsb' 4 7⟩

/-- The operand fields of OpCab laid out in a word (R55). -/
def OpCab.toWord (o : OpCab) : BitVec 32 :=
  o.s.setWidth 32 <<< 24 |||
  o.a.setWidth 32 <<< 11 |||
  o.b.setWidth 32 <<< 4

/-- The operand fields of OpCb in a word (R55). -/
def OpCb.ofWord (w : BitVec 32) : OpCb :=
  ⟨w.extractLsb' 24 2, w.extractLsb' 4 7⟩

/-- The operand fields of OpCb laid out in a word (R55). -/
def OpCb.toWord (o : OpCb) : BitVec 32 :=
  o.s.setWidth 32 <<< 24 |||
  o.b.setWidth 32 <<< 4

/-- The operand fields of OpBinit in a word (R55). -/
def OpBinit.ofWord (w : BitVec 32) : OpBinit :=
  ⟨w.extractLsb' 24 2, w.extractLsb' 10 6, w.extractLsb' 4 6, w.extractLsb' 2 1, w.extractLsb' 1 1, w.extractLsb' 0 1⟩

/-- The operand fields of OpBinit laid out in a word (R55). -/
def OpBinit.toWord (o : OpBinit) : BitVec 32 :=
  o.s.setWidth 32 <<< 24 |||
  o.g.setWidth 32 <<< 10 |||
  o.e.setWidth 32 <<< 4 |||
  o.n.setWidth 32 <<< 2 |||
  o.t.setWidth 32 <<< 1 |||
  o.r.setWidth 32

/-- The operand fields of OpBarG in a word (R55). -/
def OpBarG.ofWord (w : BitVec 32) : OpBarG :=
  ⟨w.extractLsb' 24 2, w.extractLsb' 10 6⟩

/-- The operand fields of OpBarG laid out in a word (R55). -/
def OpBarG.toWord (o : OpBarG) : BitVec 32 :=
  o.s.setWidth 32 <<< 24 |||
  o.g.setWidth 32 <<< 10

/-- The operand fields of OpBarGE in a word (R55). -/
def OpBarGE.ofWord (w : BitVec 32) : OpBarGE :=
  ⟨w.extractLsb' 24 2, w.extractLsb' 10 6, w.extractLsb' 4 6⟩

/-- The operand fields of OpBarGE laid out in a word (R55). -/
def OpBarGE.toWord (o : OpBarGE) : BitVec 32 :=
  o.s.setWidth 32 <<< 24 |||
  o.g.setWidth 32 <<< 10 |||
  o.e.setWidth 32 <<< 4

/-- The operand fields of OpBwait in a word (R55). -/
def OpBwait.ofWord (w : BitVec 32) : OpBwait :=
  ⟨w.extractLsb' 24 2, w.extractLsb' 10 6, w.extractLsb' 0 2⟩

/-- The operand fields of OpBwait laid out in a word (R55). -/
def OpBwait.toWord (o : OpBwait) : BitVec 32 :=
  o.s.setWidth 32 <<< 24 |||
  o.g.setWidth 32 <<< 10 |||
  o.m.setWidth 32

/-- The operand fields of OpBtry in a word (R55). -/
def OpBtry.ofWord (w : BitVec 32) : OpBtry :=
  ⟨w.extractLsb' 24 2, w.extractLsb' 10 6, w.extractLsb' 3 7, w.extractLsb' 0 2⟩

/-- The operand fields of OpBtry laid out in a word (R55). -/
def OpBtry.toWord (o : OpBtry) : BitVec 32 :=
  o.s.setWidth 32 <<< 24 |||
  o.g.setWidth 32 <<< 10 |||
  o.p.setWidth 32 <<< 3 |||
  o.m.setWidth 32

/-- The operand fields of OpBr in a word (R55). -/
def OpBr.ofWord (w : BitVec 32) : OpBr :=
  ⟨w.extractLsb' 17 7, w.extractLsb' 0 17⟩

/-- The operand fields of OpBr laid out in a word (R55). -/
def OpBr.toWord (o : OpBr) : BitVec 32 :=
  o.p.setWidth 32 <<< 17 |||
  o.d.setWidth 32

/-- The operand fields of OpJump in a word (R55). -/
def OpJump.ofWord (w : BitVec 32) : OpJump :=
  ⟨w.extractLsb' 0 24⟩

/-- The operand fields of OpJump laid out in a word (R55). -/
def OpJump.toWord (o : OpJump) : BitVec 32 :=
  o.d.setWidth 32

/-- The operand fields of OpJumpI in a word (R55). -/
def OpJumpI.ofWord (w : BitVec 32) : OpJumpI :=
  ⟨w.extractLsb' 0 7⟩

/-- The operand fields of OpJumpI laid out in a word (R55). -/
def OpJumpI.toWord (o : OpJumpI) : BitVec 32 :=
  o.a.setWidth 32

/-- The operand fields of OpSleep in a word (R55). -/
def OpSleep.ofWord (w : BitVec 32) : OpSleep :=
  ⟨w.extractLsb' 24 2, w.extractLsb' 0 16⟩

/-- The operand fields of OpSleep laid out in a word (R55). -/
def OpSleep.toWord (o : OpSleep) : BitVec 32 :=
  o.s.setWidth 32 <<< 24 |||
  o.i.setWidth 32

/-- The operand fields of OpYieldw in a word (R55). -/
def OpYieldw.ofWord (w : BitVec 32) : OpYieldw :=
  ⟨w.extractLsb' 24 2, w.extractLsb' 10 6, w.extractLsb' 0 10⟩

/-- The operand fields of OpYieldw laid out in a word (R55). -/
def OpYieldw.toWord (o : OpYieldw) : BitVec 32 :=
  o.s.setWidth 32 <<< 24 |||
  o.g.setWidth 32 <<< 10 |||
  o.d.setWidth 32

/-- The operand fields of OpRole in a word (R55). -/
def OpRole.ofWord (w : BitVec 32) : OpRole :=
  ⟨w.extractLsb' 24 2, w.extractLsb' 0 3⟩

/-- The operand fields of OpRole laid out in a word (R55). -/
def OpRole.toWord (o : OpRole) : BitVec 32 :=
  o.s.setWidth 32 <<< 24 |||
  o.i.setWidth 32

/-- The operand fields of OpRegion in a word (R55). -/
def OpRegion.ofWord (w : BitVec 32) : OpRegion :=
  ⟨w.extractLsb' 24 2, w.extractLsb' 0 6⟩

/-- The operand fields of OpRegion laid out in a word (R55). -/
def OpRegion.toWord (o : OpRegion) : BitVec 32 :=
  o.s.setWidth 32 <<< 24 |||
  o.g.setWidth 32

/-- The operand fields of OpEmit in a word (R55). -/
def OpEmit.ofWord (w : BitVec 32) : OpEmit :=
  ⟨w.extractLsb' 24 2, w.extractLsb' 9 7, w.extractLsb' 6 3, w.extractLsb' 5 1⟩

/-- The operand fields of OpEmit laid out in a word (R55). -/
def OpEmit.toWord (o : OpEmit) : BitVec 32 :=
  o.s.setWidth 32 <<< 24 |||
  o.p.setWidth 32 <<< 9 |||
  o.t.setWidth 32 <<< 6 |||
  o.h.setWidth 32 <<< 5

/-- The operand fields of OpLnch in a word (R55). -/
def OpLnch.ofWord (w : BitVec 32) : OpLnch :=
  ⟨w.extractLsb' 24 2, w.extractLsb' 9 7, w.extractLsb' 0 6⟩

/-- The operand fields of OpLnch laid out in a word (R55). -/
def OpLnch.toWord (o : OpLnch) : BitVec 32 :=
  o.s.setWidth 32 <<< 24 |||
  o.p.setWidth 32 <<< 9 |||
  o.g.setWidth 32

/-- The operand fields of OpEnF in a word (R55). -/
def OpEnF.ofWord (w : BitVec 32) : OpEnF :=
  ⟨w.extractLsb' 24 2, w.extractLsb' 14 6, w.extractLsb' 8 6, w.extractLsb' 0 2⟩

/-- The operand fields of OpEnF laid out in a word (R55). -/
def OpEnF.toWord (o : OpEnF) : BitVec 32 :=
  o.s.setWidth 32 <<< 24 |||
  o.a.setWidth 32 <<< 14 |||
  o.b.setWidth 32 <<< 8 |||
  o.f.setWidth 32

/-- The operand fields of OpEnA in a word (R55). -/
def OpEnA.ofWord (w : BitVec 32) : OpEnA :=
  ⟨w.extractLsb' 24 2, w.extractLsb' 14 6, w.extractLsb' 0 1⟩

/-- The operand fields of OpEnA laid out in a word (R55). -/
def OpEnA.toWord (o : OpEnA) : BitVec 32 :=
  o.s.setWidth 32 <<< 24 |||
  o.a.setWidth 32 <<< 14 |||
  o.f.setWidth 32

/-- The operand fields of OpPark in a word (R55). -/
def OpPark.ofWord (w : BitVec 32) : OpPark :=
  ⟨w.extractLsb' 24 2, w.extractLsb' 8 6, w.extractLsb' 5 1, w.extractLsb' 0 4⟩

/-- The operand fields of OpPark laid out in a word (R55). -/
def OpPark.toWord (o : OpPark) : BitVec 32 :=
  o.s.setWidth 32 <<< 24 |||
  o.l.setWidth 32 <<< 8 |||
  o.m.setWidth 32 <<< 5 |||
  o.r.setWidth 32

/-- The operand fields of OpSpq in a word (R55). -/
def OpSpq.ofWord (w : BitVec 32) : OpSpq :=
  ⟨w.extractLsb' 24 2, w.extractLsb' 8 6⟩

/-- The operand fields of OpSpq laid out in a word (R55). -/
def OpSpq.toWord (o : OpSpq) : BitVec 32 :=
  o.s.setWidth 32 <<< 24 |||
  o.l.setWidth 32 <<< 8

/-- The operand fields of OpEn2 in a word (R55). -/
def OpEn2.ofWord (w : BitVec 32) : OpEn2 :=
  ⟨w.extractLsb' 24 2, w.extractLsb' 14 6, w.extractLsb' 8 6⟩

/-- The operand fields of OpEn2 laid out in a word (R55). -/
def OpEn2.toWord (o : OpEn2) : BitVec 32 :=
  o.s.setWidth 32 <<< 24 |||
  o.a.setWidth 32 <<< 14 |||
  o.b.setWidth 32 <<< 8

/-- The operand fields of OpEn1 in a word (R55). -/
def OpEn1.ofWord (w : BitVec 32) : OpEn1 :=
  ⟨w.extractLsb' 24 2, w.extractLsb' 14 6⟩

/-- The operand fields of OpEn1 laid out in a word (R55). -/
def OpEn1.toWord (o : OpEn1) : BitVec 32 :=
  o.s.setWidth 32 <<< 24 |||
  o.a.setWidth 32 <<< 14

/-- The operand fields of OpMxldb in a word (R55). -/
def OpMxldb.ofWord (w : BitVec 32) : OpMxldb :=
  ⟨w.extractLsb' 24 2, w.extractLsb' 14 6, w.extractLsb' 8 6, w.extractLsb' 2 6, w.extractLsb' 0 2⟩

/-- The operand fields of OpMxldb laid out in a word (R55). -/
def OpMxldb.toWord (o : OpMxldb) : BitVec 32 :=
  o.s.setWidth 32 <<< 24 |||
  o.a.setWidth 32 <<< 14 |||
  o.b.setWidth 32 <<< 8 |||
  o.c.setWidth 32 <<< 2 |||
  o.f.setWidth 32

/-- The operand fields of OpEn3 in a word (R55). -/
def OpEn3.ofWord (w : BitVec 32) : OpEn3 :=
  ⟨w.extractLsb' 24 2, w.extractLsb' 14 6, w.extractLsb' 8 6, w.extractLsb' 2 6⟩

/-- The operand fields of OpEn3 laid out in a word (R55). -/
def OpEn3.toWord (o : OpEn3) : BitVec 32 :=
  o.s.setWidth 32 <<< 24 |||
  o.a.setWidth 32 <<< 14 |||
  o.b.setWidth 32 <<< 8 |||
  o.c.setWidth 32 <<< 2

/-- The operand fields of OpSx in a word (R55). -/
def OpSx.ofWord (w : BitVec 32) : OpSx :=
  ⟨w.extractLsb' 24 2, w.extractLsb' 14 6, w.extractLsb' 8 6, w.extractLsb' 2 6, w.extractLsb' 0 1⟩

/-- The operand fields of OpSx laid out in a word (R55). -/
def OpSx.toWord (o : OpSx) : BitVec 32 :=
  o.s.setWidth 32 <<< 24 |||
  o.a.setWidth 32 <<< 14 |||
  o.b.setWidth 32 <<< 8 |||
  o.c.setWidth 32 <<< 2 |||
  o.e.setWidth 32

/-- The operand fields of OpCsrr in a word (R55). -/
def OpCsrr.ofWord (w : BitVec 32) : OpCsrr :=
  ⟨w.extractLsb' 24 2, w.extractLsb' 10 6, w.extractLsb' 0 5⟩

/-- The operand fields of OpCsrr laid out in a word (R55). -/
def OpCsrr.toWord (o : OpCsrr) : BitVec 32 :=
  o.s.setWidth 32 <<< 24 |||
  o.c.setWidth 32 <<< 10 |||
  o.d.setWidth 32

/-- The operand fields of OpCsrw in a word (R55). -/
def OpCsrw.ofWord (w : BitVec 32) : OpCsrw :=
  ⟨w.extractLsb' 24 2, w.extractLsb' 10 6, w.extractLsb' 0 7⟩

/-- The operand fields of OpCsrw laid out in a word (R55). -/
def OpCsrw.toWord (o : OpCsrw) : BitVec 32 :=
  o.s.setWidth 32 <<< 24 |||
  o.c.setWidth 32 <<< 10 |||
  o.x.setWidth 32

/-- The operand fields of OpCsrwK in a word (R55). -/
def OpCsrwK.ofWord (w : BitVec 32) : OpCsrwK :=
  ⟨w.extractLsb' 24 2, w.extractLsb' 0 7⟩

/-- The operand fields of OpCsrwK laid out in a word (R55). -/
def OpCsrwK.toWord (o : OpCsrwK) : BitVec 32 :=
  o.s.setWidth 32 <<< 24 |||
  o.x.setWidth 32

/-- The operand fields of OpCode in a word (R55). -/
def OpCode.ofWord (w : BitVec 32) : OpCode :=
  ⟨w.extractLsb' 24 2, w.extractLsb' 0 16⟩

/-- The operand fields of OpCode laid out in a word (R55). -/
def OpCode.toWord (o : OpCode) : BitVec 32 :=
  o.s.setWidth 32 <<< 24 |||
  o.c.setWidth 32

/-- The operand fields of OpClk in a word (R55). -/
def OpClk.ofWord (w : BitVec 32) : OpClk :=
  ⟨w.extractLsb' 24 2, w.extractLsb' 0 5⟩

/-- The operand fields of OpClk laid out in a word (R55). -/
def OpClk.toWord (o : OpClk) : BitVec 32 :=
  o.s.setWidth 32 <<< 24 |||
  o.d.setWidth 32

/-- The operand fields of OpDevr in a word (R55). -/
def OpDevr.ofWord (w : BitVec 32) : OpDevr :=
  ⟨w.extractLsb' 24 2, w.extractLsb' 8 8, w.extractLsb' 0 5⟩

/-- The operand fields of OpDevr laid out in a word (R55). -/
def OpDevr.toWord (o : OpDevr) : BitVec 32 :=
  o.s.setWidth 32 <<< 24 |||
  o.r.setWidth 32 <<< 8 |||
  o.d.setWidth 32

/-- The operand fields of OpGset in a word (R55). -/
def OpGset.ofWord (w : BitVec 32) : OpGset :=
  ⟨w.extractLsb' 24 2, w.extractLsb' 10 6, w.extractLsb' 0 7⟩

/-- The operand fields of OpGset laid out in a word (R55). -/
def OpGset.toWord (o : OpGset) : BitVec 32 :=
  o.s.setWidth 32 <<< 24 |||
  o.g.setWidth 32 <<< 10 |||
  o.x.setWidth 32

/-- One row of the opcode table: a word belongs to it when its masked bits equal the pattern. -/
structure Row where
  mask : BitVec 32
  pat  : BitVec 32
  instr : BitVec 32 → Instr

/-- The first row a word belongs to. -/
def findRow (w : BitVec 32) : List Row → Option Row
  | [] => none
  | r :: rs => if w &&& r.mask == r.pat then some r else findRow w rs

/-- The rows of primary opcode 0x00. -/
noncomputable def rows00 : List Row := [
  ⟨0xFFFFFFFF#32, 0x00000000#32, fun _ => .hnop⟩,
  ⟨0xFFFFFFFC#32, 0x00000000#32, fun w => .hsched (.ofWord w)⟩]

/-- The rows of primary opcode 0x01. -/
noncomputable def rows01 : List Row := [
  ⟨0xFC000000#32, 0x04000000#32, fun w => .himm (.ofWord w)⟩]

/-- The rows of primary opcode 0x02. -/
noncomputable def rows02 : List Row := [
  ⟨0xFFFFFFE0#32, 0x08000000#32, fun w => .hdst (.ofWord w)⟩]

/-- The rows of primary opcode 0x03. -/
noncomputable def rows03 : List Row := [
  ⟨0xFFFFF010#32, 0x0C000000#32, fun w => .hmod (.ofWord w)⟩]

/-- The rows of primary opcode 0x04. -/
noncomputable def rows04 : List Row := [
  ⟨0xFCE00000#32, 0x10000000#32, fun w => .iadd (.ofWord w)⟩,
  ⟨0xFCE00000#32, 0x10200000#32, fun w => .isub (.ofWord w)⟩,
  ⟨0xFCE00000#32, 0x10400000#32, fun w => .iadds (.ofWord w)⟩,
  ⟨0xFCE00000#32, 0x10600000#32, fun w => .iaddu (.ofWord w)⟩,
  ⟨0xFCE00000#32, 0x10800000#32, fun w => .isubs (.ofWord w)⟩,
  ⟨0xFCE00000#32, 0x10A00000#32, fun w => .isubu (.ofWord w)⟩,
  ⟨0xFCE00000#32, 0x10C00000#32, fun w => .imul (.ofWord w)⟩,
  ⟨0xFCE00000#32, 0x10E00000#32, fun w => .imulh (.ofWord w)⟩]

/-- The rows of primary opcode 0x05. -/
noncomputable def rows05 : List Row := [
  ⟨0xFCE00000#32, 0x14000000#32, fun w => .and (.ofWord w)⟩,
  ⟨0xFCE00000#32, 0x14200000#32, fun w => .or (.ofWord w)⟩,
  ⟨0xFCE00000#32, 0x14400000#32, fun w => .xor (.ofWord w)⟩,
  ⟨0xFCE00000#32, 0x14600000#32, fun w => .andn (.ofWord w)⟩,
  ⟨0xFCE00000#32, 0x14800000#32, fun w => .shl (.ofWord w)⟩,
  ⟨0xFCE00000#32, 0x14A00000#32, fun w => .shr (.ofWord w)⟩,
  ⟨0xFCE00000#32, 0x14C00000#32, fun w => .sar (.ofWord w)⟩,
  ⟨0xFCE00000#32, 0x14E00000#32, fun w => .rotl (.ofWord w)⟩]

/-- The rows of primary opcode 0x06. -/
noncomputable def rows06 : List Row := [
  ⟨0xFCE00000#32, 0x18000000#32, fun w => .imin (.ofWord w)⟩,
  ⟨0xFCE00000#32, 0x18200000#32, fun w => .imax (.ofWord w)⟩,
  ⟨0xFCE00000#32, 0x18400000#32, fun w => .umin (.ofWord w)⟩,
  ⟨0xFCE00000#32, 0x18600000#32, fun w => .umax (.ofWord w)⟩,
  ⟨0xFCE00000#32, 0x18800000#32, fun w => .imulhu (.ofWord w)⟩,
  ⟨0xFCE00000#32, 0x18A00000#32, fun w => .iabsd (.ofWord w)⟩,
  ⟨0xFCE00000#32, 0x18C00000#32, fun w => .pklo (.ofWord w)⟩,
  ⟨0xFCE00000#32, 0x18E00000#32, fun w => .pkhi (.ofWord w)⟩]

/-- The rows of primary opcode 0x07. -/
noncomputable def rows07 : List Row := [
  ⟨0xFCE0007F#32, 0x1C000000#32, fun w => .clz (.ofWord w)⟩,
  ⟨0xFCE0007F#32, 0x1C200000#32, fun w => .ctz (.ofWord w)⟩,
  ⟨0xFCE0007F#32, 0x1C400000#32, fun w => .popc (.ofWord w)⟩,
  ⟨0xFCE0007F#32, 0x1C600000#32, fun w => .brev (.ofWord w)⟩,
  ⟨0xFCE0007F#32, 0x1C800000#32, fun w => .ineg (.ofWord w)⟩,
  ⟨0xFCE0007F#32, 0x1CA00000#32, fun w => .inot (.ofWord w)⟩,
  ⟨0xFCE0007F#32, 0x1CC00000#32, fun w => .iabs (.ofWord w)⟩,
  ⟨0xFCE0007F#32, 0x1CE00000#32, fun w => .bswap (.ofWord w)⟩]

/-- The rows of primary opcode 0x08. -/
noncomputable def rows08 : List Row := [
  ⟨0xFCE00000#32, 0x20000000#32, fun w => .iaddG (.ofWord w)⟩,
  ⟨0xFCE00000#32, 0x20200000#32, fun w => .isubG (.ofWord w)⟩,
  ⟨0xFCE00000#32, 0x20400000#32, fun w => .iaddsG (.ofWord w)⟩,
  ⟨0xFCE00000#32, 0x20600000#32, fun w => .iadduG (.ofWord w)⟩,
  ⟨0xFCE00000#32, 0x20800000#32, fun w => .isubsG (.ofWord w)⟩,
  ⟨0xFCE00000#32, 0x20A00000#32, fun w => .isubuG (.ofWord w)⟩,
  ⟨0xFCE00000#32, 0x20C00000#32, fun w => .imulG (.ofWord w)⟩,
  ⟨0xFCE00000#32, 0x20E00000#32, fun w => .imulhG (.ofWord w)⟩]

/-- The rows of primary opcode 0x09. -/
noncomputable def rows09 : List Row := [
  ⟨0xFCE00000#32, 0x24000000#32, fun w => .andG (.ofWord w)⟩,
  ⟨0xFCE00000#32, 0x24200000#32, fun w => .orG (.ofWord w)⟩,
  ⟨0xFCE00000#32, 0x24400000#32, fun w => .xorG (.ofWord w)⟩,
  ⟨0xFCE00000#32, 0x24600000#32, fun w => .andnG (.ofWord w)⟩,
  ⟨0xFCE00000#32, 0x24800000#32, fun w => .shlG (.ofWord w)⟩,
  ⟨0xFCE00000#32, 0x24A00000#32, fun w => .shrG (.ofWord w)⟩,
  ⟨0xFCE00000#32, 0x24C00000#32, fun w => .sarG (.ofWord w)⟩,
  ⟨0xFCE00000#32, 0x24E00000#32, fun w => .rotlG (.ofWord w)⟩]

/-- The rows of primary opcode 0x0A. -/
noncomputable def rows0A : List Row := [
  ⟨0xFCE00000#32, 0x28000000#32, fun w => .iminG (.ofWord w)⟩,
  ⟨0xFCE00000#32, 0x28200000#32, fun w => .imaxG (.ofWord w)⟩,
  ⟨0xFCE00000#32, 0x28400000#32, fun w => .uminG (.ofWord w)⟩,
  ⟨0xFCE00000#32, 0x28600000#32, fun w => .umaxG (.ofWord w)⟩,
  ⟨0xFCE00000#32, 0x28800000#32, fun w => .imulhuG (.ofWord w)⟩,
  ⟨0xFCE00000#32, 0x28A00000#32, fun w => .iabsdG (.ofWord w)⟩,
  ⟨0xFCE00000#32, 0x28C00000#32, fun w => .pkloG (.ofWord w)⟩,
  ⟨0xFCE00000#32, 0x28E00000#32, fun w => .pkhiG (.ofWord w)⟩]

/-- The rows of primary opcode 0x0C. -/
noncomputable def rows0C : List Row := [
  ⟨0xFCE00000#32, 0x30000000#32, fun w => .imad (.ofWord w)⟩,
  ⟨0xFCE00000#32, 0x30200000#32, fun w => .imad64 (.ofWord w)⟩,
  ⟨0xFCE00000#32, 0x30400000#32, fun w => .imadhs (.ofWord w)⟩,
  ⟨0xFCE00000#32, 0x30600000#32, fun w => .imadhz (.ofWord w)⟩,
  ⟨0xFCE00000#32, 0x30800000#32, fun w => .imadw (.ofWord w)⟩,
  ⟨0xFCE00000#32, 0x30A00000#32, fun w => .idot8 (.ofWord w)⟩,
  ⟨0xFCE00000#32, 0x30C00000#32, fun w => .idot16 (.ofWord w)⟩]

/-- The rows of primary opcode 0x0D. -/
noncomputable def rows0D : List Row := [
  ⟨0xFCE00000#32, 0x34000000#32, fun w => .idivs (.ofWord w)⟩,
  ⟨0xFCE00000#32, 0x34200000#32, fun w => .idivz (.ofWord w)⟩,
  ⟨0xFCE00000#32, 0x34400000#32, fun w => .irems (.ofWord w)⟩,
  ⟨0xFCE00000#32, 0x34600000#32, fun w => .iremz (.ofWord w)⟩]

/-- The rows of primary opcode 0x0E. -/
noncomputable def rows0E : List Row := [
  ⟨0xFF800000#32, 0x38000000#32, fun w => .icmpeq (.ofWord w)⟩,
  ⟨0xFF800000#32, 0x38800000#32, fun w => .icmpne (.ofWord w)⟩,
  ⟨0xFF800000#32, 0x39000000#32, fun w => .icmplt (.ofWord w)⟩,
  ⟨0xFF800000#32, 0x39800000#32, fun w => .icmple (.ofWord w)⟩,
  ⟨0xFF800000#32, 0x3A000000#32, fun w => .icmpltz (.ofWord w)⟩,
  ⟨0xFF800000#32, 0x3A800000#32, fun w => .icmplez (.ofWord w)⟩,
  ⟨0xFF800000#32, 0x3B000000#32, fun w => .icmptst (.ofWord w)⟩]

/-- The rows of primary opcode 0x0F. -/
noncomputable def rows0F : List Row := [
  ⟨0xFF800000#32, 0x3C000000#32, fun w => .icmpeqG (.ofWord w)⟩,
  ⟨0xFF800000#32, 0x3C800000#32, fun w => .icmpneG (.ofWord w)⟩,
  ⟨0xFF800000#32, 0x3D000000#32, fun w => .icmpltG (.ofWord w)⟩,
  ⟨0xFF800000#32, 0x3D800000#32, fun w => .icmpleG (.ofWord w)⟩,
  ⟨0xFF800000#32, 0x3E000000#32, fun w => .icmpltzG (.ofWord w)⟩,
  ⟨0xFF800000#32, 0x3E800000#32, fun w => .icmplezG (.ofWord w)⟩,
  ⟨0xFF800000#32, 0x3F000000#32, fun w => .icmptstG (.ofWord w)⟩]

/-- The rows of primary opcode 0x10. -/
noncomputable def rows10 : List Row := [
  ⟨0xFCE00000#32, 0x40000000#32, fun w => .fadd (.ofWord w)⟩,
  ⟨0xFCE00000#32, 0x40200000#32, fun w => .fsub (.ofWord w)⟩,
  ⟨0xFCE00000#32, 0x40400000#32, fun w => .fmul (.ofWord w)⟩,
  ⟨0xFCE00000#32, 0x40600000#32, fun w => .fmin (.ofWord w)⟩,
  ⟨0xFCE00000#32, 0x40800000#32, fun w => .fmax (.ofWord w)⟩,
  ⟨0xFCE00000#32, 0x40A00000#32, fun w => .fminn (.ofWord w)⟩,
  ⟨0xFCE00000#32, 0x40C00000#32, fun w => .fmaxn (.ofWord w)⟩,
  ⟨0xFCE00000#32, 0x40E00000#32, fun w => .fcpsg (.ofWord w)⟩]

/-- The rows of primary opcode 0x11. -/
noncomputable def rows11 : List Row := [
  ⟨0xFCE00000#32, 0x44000000#32, fun w => .faddG (.ofWord w)⟩,
  ⟨0xFCE00000#32, 0x44200000#32, fun w => .fsubG (.ofWord w)⟩,
  ⟨0xFCE00000#32, 0x44400000#32, fun w => .fmulG (.ofWord w)⟩,
  ⟨0xFCE00000#32, 0x44600000#32, fun w => .fminG (.ofWord w)⟩,
  ⟨0xFCE00000#32, 0x44800000#32, fun w => .fmaxG (.ofWord w)⟩,
  ⟨0xFCE00000#32, 0x44A00000#32, fun w => .fminnG (.ofWord w)⟩,
  ⟨0xFCE00000#32, 0x44C00000#32, fun w => .fmaxnG (.ofWord w)⟩,
  ⟨0xFCE00000#32, 0x44E00000#32, fun w => .fcpsgG (.ofWord w)⟩]

/-- The rows of primary opcode 0x12. -/
noncomputable def rows12 : List Row := [
  ⟨0xFC600000#32, 0x48000000#32, fun w => .fma (.ofWord w)⟩,
  ⟨0xFC600000#32, 0x48200000#32, fun w => .fms (.ofWord w)⟩,
  ⟨0xFC600000#32, 0x48400000#32, fun w => .fnma (.ofWord w)⟩,
  ⟨0xFC600000#32, 0x48600000#32, fun w => .fnms (.ofWord w)⟩]

/-- The rows of primary opcode 0x13. -/
noncomputable def rows13 : List Row := [
  ⟨0xFCE00000#32, 0x4C000000#32, fun w => .hdotBf16 (.ofWord w)⟩,
  ⟨0xFCE00000#32, 0x4C200000#32, fun w => .hdotF16 (.ofWord w)⟩,
  ⟨0xFCE00000#32, 0x4C400000#32, fun w => .ffmaBf16x4 (.ofWord w)⟩,
  ⟨0xFCE00000#32, 0x4C600000#32, fun w => .ffmaF16x4 (.ofWord w)⟩]

/-- The rows of primary opcode 0x14. -/
noncomputable def rows14 : List Row := [
  ⟨0xFCE0007F#32, 0x50000000#32, fun w => .fabs (.ofWord w)⟩,
  ⟨0xFCE0007F#32, 0x50200000#32, fun w => .fneg (.ofWord w)⟩,
  ⟨0xFCE0007F#32, 0x50400000#32, fun w => .frnd (.ofWord w)⟩,
  ⟨0xFCE0007F#32, 0x50600000#32, fun w => .frndz (.ofWord w)⟩,
  ⟨0xFCE0007F#32, 0x50800000#32, fun w => .fclass (.ofWord w)⟩,
  ⟨0xFCE0007F#32, 0x50A00000#32, fun w => .fgetexp (.ofWord w)⟩,
  ⟨0xFCE0007F#32, 0x50C00000#32, fun w => .fgetman (.ofWord w)⟩]

/-- The rows of primary opcode 0x15. -/
noncomputable def rows15 : List Row := [
  ⟨0xFCE0007F#32, 0x54000000#32, fun w => .fcvtwl (.ofWord w)⟩,
  ⟨0xFCE0007F#32, 0x54200000#32, fun w => .fcvtwh (.ofWord w)⟩,
  ⟨0xFCE00000#32, 0x54400000#32, fun w => .fcvtn (.ofWord w)⟩,
  ⟨0xFCE0007F#32, 0x54600000#32, fun w => .fcvtfi (.ofWord w)⟩,
  ⟨0xFCE0007F#32, 0x54800000#32, fun w => .fcvtfu (.ofWord w)⟩,
  ⟨0xFCE0007F#32, 0x54A00000#32, fun w => .fcvtif (.ofWord w)⟩,
  ⟨0xFCE0007F#32, 0x54C00000#32, fun w => .fcvtuf (.ofWord w)⟩,
  ⟨0xFCE00070#32, 0x54E00000#32, fun w => .fenc (.ofWord w)⟩,
  ⟨0xFCE00070#32, 0x54E00040#32, fun w => .fdec (.ofWord w)⟩]

/-- The rows of primary opcode 0x16. -/
noncomputable def rows16 : List Row := [
  ⟨0xFF800000#32, 0x58000000#32, fun w => .fcmpeq (.ofWord w)⟩,
  ⟨0xFF800000#32, 0x58800000#32, fun w => .fcmpne (.ofWord w)⟩,
  ⟨0xFF800000#32, 0x59000000#32, fun w => .fcmplt (.ofWord w)⟩,
  ⟨0xFF800000#32, 0x59800000#32, fun w => .fcmple (.ofWord w)⟩,
  ⟨0xFF800000#32, 0x5A000000#32, fun w => .fcmpun (.ofWord w)⟩,
  ⟨0xFF800000#32, 0x5A800000#32, fun w => .fcmpor (.ofWord w)⟩,
  ⟨0xFF800000#32, 0x5B000000#32, fun w => .fcmpequ (.ofWord w)⟩,
  ⟨0xFF800000#32, 0x5B800000#32, fun w => .fcmpgt (.ofWord w)⟩]

/-- The rows of primary opcode 0x17. -/
noncomputable def rows17 : List Row := [
  ⟨0xFCE00000#32, 0x5C000000#32, fun w => .fdiv (.ofWord w)⟩,
  ⟨0xFCE0007F#32, 0x5C200000#32, fun w => .fsqrt (.ofWord w)⟩]

/-- The rows of primary opcode 0x18. -/
noncomputable def rows18 : List Row := [
  ⟨0xFFC00007#32, 0x60000000#32, fun w => .cexp2 (.ofWord w)⟩,
  ⟨0xFFC00007#32, 0x60400000#32, fun w => .clog2 (.ofWord w)⟩,
  ⟨0xFFC00007#32, 0x60800000#32, fun w => .csin (.ofWord w)⟩,
  ⟨0xFFC00007#32, 0x60C00000#32, fun w => .ccos (.ofWord w)⟩,
  ⟨0xFFC00007#32, 0x61000000#32, fun w => .ctanh (.ofWord w)⟩,
  ⟨0xFFC00007#32, 0x61400000#32, fun w => .csigm (.ofWord w)⟩,
  ⟨0xFFC00007#32, 0x61800000#32, fun w => .crcp (.ofWord w)⟩,
  ⟨0xFFC00007#32, 0x61C00000#32, fun w => .crsqrt (.ofWord w)⟩,
  ⟨0xFFC00007#32, 0x62000000#32, fun w => .csqrt (.ofWord w)⟩,
  ⟨0xFFC00007#32, 0x62400000#32, fun w => .catan (.ofWord w)⟩]

/-- The rows of primary opcode 0x19. -/
noncomputable def rows19 : List Row := [
  ⟨0xFFC00007#32, 0x64000000#32, fun w => .catan2 (.ofWord w)⟩,
  ⟨0xFFC00007#32, 0x64400000#32, fun w => .csincos (.ofWord w)⟩,
  ⟨0xFFC00007#32, 0x64800000#32, fun w => .chypot (.ofWord w)⟩]

/-- The rows of primary opcode 0x1A. -/
noncomputable def rows1A : List Row := [
  ⟨0xFCE00000#32, 0x68000000#32, fun w => .xshf (.ofWord w)⟩,
  ⟨0xFCE00000#32, 0x68200000#32, fun w => .xup (.ofWord w)⟩,
  ⟨0xFCE00000#32, 0x68400000#32, fun w => .xdn (.ofWord w)⟩,
  ⟨0xFCE00000#32, 0x68600000#32, fun w => .xbfly (.ofWord w)⟩,
  ⟨0xFCE00000#32, 0x68800000#32, fun w => .xget (.ofWord w)⟩,
  ⟨0xFCE00000#32, 0x68A00000#32, fun w => .xperm (.ofWord w)⟩,
  ⟨0xFCE00000#32, 0x68C00000#32, fun w => .xrot (.ofWord w)⟩]

/-- The rows of primary opcode 0x1B. -/
noncomputable def rows1B : List Row := [
  ⟨0xFCE00000#32, 0x6C000000#32, fun w => .xshfG (.ofWord w)⟩,
  ⟨0xFCE00000#32, 0x6C200000#32, fun w => .xupG (.ofWord w)⟩,
  ⟨0xFCE00000#32, 0x6C400000#32, fun w => .xdnG (.ofWord w)⟩,
  ⟨0xFCE00000#32, 0x6C600000#32, fun w => .xbflyG (.ofWord w)⟩,
  ⟨0xFCE00000#32, 0x6C800000#32, fun w => .xgetG (.ofWord w)⟩,
  ⟨0xFCE00000#32, 0x6CA00000#32, fun w => .xpermG (.ofWord w)⟩,
  ⟨0xFCE00000#32, 0x6CC00000#32, fun w => .xrotG (.ofWord w)⟩]

/-- The rows of primary opcode 0x1C. -/
noncomputable def rows1C : List Row := [
  ⟨0xFCE0007F#32, 0x70000000#32, fun w => .vsum (.ofWord w)⟩,
  ⟨0xFCE0007F#32, 0x70200000#32, fun w => .vfsum (.ofWord w)⟩,
  ⟨0xFCE0007E#32, 0x70400000#32, fun w => .vmin (.ofWord w)⟩,
  ⟨0xFCE0007E#32, 0x70600000#32, fun w => .vmax (.ofWord w)⟩,
  ⟨0xFCE0007F#32, 0x70800000#32, fun w => .vfmin (.ofWord w)⟩,
  ⟨0xFCE0007F#32, 0x70A00000#32, fun w => .vfmax (.ofWord w)⟩,
  ⟨0xFCE0007D#32, 0x70C00000#32, fun w => .vscan (.ofWord w)⟩,
  ⟨0xFCE0007D#32, 0x70E00000#32, fun w => .vfscan (.ofWord w)⟩]

/-- The rows of primary opcode 0x1D. -/
noncomputable def rows1D : List Row := [
  ⟨0xFFE00000#32, 0x74000000#32, fun w => .pand (.ofWord w)⟩,
  ⟨0xFFE00000#32, 0x74800000#32, fun w => .por (.ofWord w)⟩,
  ⟨0xFFE00000#32, 0x75000000#32, fun w => .pxor (.ofWord w)⟩,
  ⟨0xFFE00000#32, 0x75800000#32, fun w => .pandn (.ofWord w)⟩,
  ⟨0xFFE0007F#32, 0x76000000#32, fun w => .pnot (.ofWord w)⟩,
  ⟨0xFFE0007F#32, 0x76800000#32, fun w => .pmov (.ofWord w)⟩,
  ⟨0xFFE0007F#32, 0x77000000#32, fun w => .pany (.ofWord w)⟩,
  ⟨0xFFE0007F#32, 0x77800000#32, fun w => .pall (.ofWord w)⟩]

/-- The rows of primary opcode 0x1E. -/
noncomputable def rows1E : List Row := [
  ⟨0xFCE03FFF#32, 0x78000000#32, fun w => .pbal (.ofWord w)⟩,
  ⟨0xFCE00000#32, 0x78200000#32, fun w => .pset (.ofWord w)⟩,
  ⟨0xFCE03FFF#32, 0x78400000#32, fun w => .pget (.ofWord w)⟩,
  ⟨0xFCE03FFF#32, 0x78600000#32, fun w => .pcnt (.ofWord w)⟩]

/-- The rows of primary opcode 0x1F. -/
noncomputable def rows1F : List Row := [
  ⟨0xFC00C000#32, 0x7C000000#32, fun w => .sel (.ofWord w)⟩]

/-- The rows of primary opcode 0x20. -/
noncomputable def rows20 : List Row := [
  ⟨0xFFFFC07F#32, 0x80000000#32, fun w => .guard (.ofWord w)⟩,
  ⟨0xFFFFC07F#32, 0x80800000#32, fun w => .guardn (.ofWord w)⟩,
  ⟨0xFFFFFFFF#32, 0x81000000#32, fun _ => .guardoff⟩]

/-- The rows of primary opcode 0x21. -/
noncomputable def rows21 : List Row := [
  ⟨0xFCE001FF#32, 0x84000000#32, fun w => .madd (.ofWord w)⟩,
  ⟨0xFCE001FF#32, 0x84200000#32, fun w => .msub (.ofWord w)⟩,
  ⟨0xFCE001FF#32, 0x84400000#32, fun w => .mmul (.ofWord w)⟩,
  ⟨0xFCE01E03#32, 0x84600000#32, fun w => .mscl (.ofWord w)⟩,
  ⟨0xFCE01E03#32, 0x84800000#32, fun w => .mofs (.ofWord w)⟩,
  ⟨0xFCE01FFF#32, 0x84A00000#32, fun w => .mneg (.ofWord w)⟩,
  ⟨0xFCE01FFF#32, 0x84C00000#32, fun w => .mcpy (.ofWord w)⟩]

/-- The rows of primary opcode 0x22. -/
noncomputable def rows22 : List Row := [
  ⟨0xFCE01FFF#32, 0x88000000#32, fun w => .mrelu (.ofWord w)⟩,
  ⟨0xFCE01FFF#32, 0x88200000#32, fun w => .mexp (.ofWord w)⟩,
  ⟨0xFCE01FFF#32, 0x88400000#32, fun w => .msig (.ofWord w)⟩,
  ⟨0xFCE01FFF#32, 0x88600000#32, fun w => .mtanh (.ofWord w)⟩,
  ⟨0xFCE01FFF#32, 0x88800000#32, fun w => .mrcp (.ofWord w)⟩,
  ⟨0xFCE01FFF#32, 0x88A00000#32, fun w => .msqr (.ofWord w)⟩]

/-- The rows of primary opcode 0x23. -/
noncomputable def rows23 : List Row := [
  ⟨0xFCE1FE03#32, 0x8C000000#32, fun w => .mmake (.ofWord w)⟩,
  ⟨0xFCFE1FFF#32, 0x8C200000#32, fun w => .mcolMu (.ofWord w)⟩,
  ⟨0xFCFE1FFF#32, 0x8C400000#32, fun w => .mcolVar (.ofWord w)⟩,
  ⟨0xFCFE1FFF#32, 0x8C600000#32, fun w => .mcolSd (.ofWord w)⟩,
  ⟨0xFCFE1FFF#32, 0x8C800000#32, fun w => .mcolPair (.ofWord w)⟩,
  ⟨0xFCFE1E03#32, 0x8CA00000#32, fun w => .mcolSmp (.ofWord w)⟩]

/-- The rows of primary opcode 0x24. -/
noncomputable def rows24 : List Row := [
  ⟨0xFC000000#32, 0x90000000#32, fun w => .ldg (.ofWord w)⟩]

/-- The rows of primary opcode 0x25. -/
noncomputable def rows25 : List Row := [
  ⟨0xFC000000#32, 0x94000000#32, fun w => .ldgx (.ofWord w)⟩]

/-- The rows of primary opcode 0x26. -/
noncomputable def rows26 : List Row := [
  ⟨0xFC000000#32, 0x98000000#32, fun w => .stg (.ofWord w)⟩]

/-- The rows of primary opcode 0x27. -/
noncomputable def rows27 : List Row := [
  ⟨0xFC000000#32, 0x9C000000#32, fun w => .stgx (.ofWord w)⟩]

/-- The rows of primary opcode 0x28. -/
noncomputable def rows28 : List Row := [
  ⟨0xFC000000#32, 0xA0000000#32, fun w => .lds (.ofWord w)⟩]

/-- The rows of primary opcode 0x29. -/
noncomputable def rows29 : List Row := [
  ⟨0xFC000000#32, 0xA4000000#32, fun w => .ldsx (.ofWord w)⟩]

/-- The rows of primary opcode 0x2A. -/
noncomputable def rows2A : List Row := [
  ⟨0xFC000000#32, 0xA8000000#32, fun w => .sts (.ofWord w)⟩]

/-- The rows of primary opcode 0x2B. -/
noncomputable def rows2B : List Row := [
  ⟨0xFC000000#32, 0xAC000000#32, fun w => .stsx (.ofWord w)⟩]

/-- The rows of primary opcode 0x2C. -/
noncomputable def rows2C : List Row := [
  ⟨0xFC800000#32, 0xB0800000#32, fun w => .ldo (.ofWord w)⟩]

/-- The rows of primary opcode 0x2D. -/
noncomputable def rows2D : List Row := [
  ⟨0xFC800000#32, 0xB4800000#32, fun w => .sto (.ofWord w)⟩]

/-- The rows of primary opcode 0x2E. -/
noncomputable def rows2E : List Row := [
  ⟨0xFCF80001#32, 0xB8080000#32, fun w => .atmAdd (.ofWord w)⟩,
  ⟨0xFCF80001#32, 0xB8180000#32, fun w => .atmAnd (.ofWord w)⟩,
  ⟨0xFCF80001#32, 0xB8280000#32, fun w => .atmOr (.ofWord w)⟩,
  ⟨0xFCF80001#32, 0xB8380000#32, fun w => .atmXor (.ofWord w)⟩,
  ⟨0xFCF80001#32, 0xB8480000#32, fun w => .atmMin (.ofWord w)⟩,
  ⟨0xFCF80001#32, 0xB8580000#32, fun w => .atmMax (.ofWord w)⟩,
  ⟨0xFCF80001#32, 0xB8680000#32, fun w => .atmMinz (.ofWord w)⟩,
  ⟨0xFCF80001#32, 0xB8780000#32, fun w => .atmMaxz (.ofWord w)⟩,
  ⟨0xFCF80001#32, 0xB8880000#32, fun w => .atmXchg (.ofWord w)⟩,
  ⟨0xFCF80001#32, 0xB8980000#32, fun w => .atmCas (.ofWord w)⟩,
  ⟨0xFCF80001#32, 0xB8A80000#32, fun w => .atmFadd (.ofWord w)⟩]

/-- The rows of primary opcode 0x2F. -/
noncomputable def rows2F : List Row := [
  ⟨0xFCFC0001#32, 0xBC080000#32, fun w => .raddI32 (.ofWord w)⟩,
  ⟨0xFCFC0001#32, 0xBC1C0000#32, fun w => .raddI64 (.ofWord w)⟩,
  ⟨0xFCFC0001#32, 0xBC280000#32, fun w => .raddF32 (.ofWord w)⟩,
  ⟨0xFCFC0001#32, 0xBC3C0000#32, fun w => .raddF64 (.ofWord w)⟩,
  ⟨0xFCF80001#32, 0xBC480000#32, fun w => .rmin (.ofWord w)⟩,
  ⟨0xFCF80001#32, 0xBC580000#32, fun w => .rmax (.ofWord w)⟩,
  ⟨0xFCFFFFFF#32, 0xBC600000#32, fun w => .redfl (.ofWord w)⟩]

/-- The rows of primary opcode 0x30. -/
noncomputable def rows30 : List Row := [
  ⟨0xFCF00001#32, 0xC0000000#32, fun w => .prop (.ofWord w)⟩,
  ⟨0xFCF00001#32, 0xC0100000#32, fun w => .dread (.ofWord w)⟩,
  ⟨0xFCFC07F1#32, 0xC0200000#32, fun w => .recyc (.ofWord w)⟩,
  ⟨0xFCFC07F1#32, 0xC0300000#32, fun w => .dstat (.ofWord w)⟩]

/-- The rows of primary opcode 0x31. -/
noncomputable def rows31 : List Row := [
  ⟨0xFCFFFFF8#32, 0xC4000000#32, fun w => .fenceAcq (.ofWord w)⟩,
  ⟨0xFCFFFFF8#32, 0xC4010000#32, fun w => .fenceRel (.ofWord w)⟩,
  ⟨0xFCFFFFF8#32, 0xC4020000#32, fun w => .fenceFull (.ofWord w)⟩,
  ⟨0xFCFFFFF8#32, 0xC4030000#32, fun w => .fenceEng (.ofWord w)⟩]

/-- The rows of primary opcode 0x32. -/
noncomputable def rows32 : List Row := [
  ⟨0xFCF80001#32, 0xC8080000#32, fun w => .wsigSt (.ofWord w)⟩,
  ⟨0xFCF80001#32, 0xC8180000#32, fun w => .wsigAdd (.ofWord w)⟩]

/-- The rows of primary opcode 0x33. -/
noncomputable def rows33 : List Row := [
  ⟨0xFCFC07FF#32, 0xCC000000#32, fun w => .pref (.ofWord w)⟩,
  ⟨0xFCFC07FF#32, 0xCC100000#32, fun w => .evf (.ofWord w)⟩,
  ⟨0xFCFC000F#32, 0xCC200000#32, fun w => .pin (.ofWord w)⟩,
  ⟨0xFCFFF80F#32, 0xCC300000#32, fun w => .unpin (.ofWord w)⟩,
  ⟨0xFCFC000F#32, 0xCC400000#32, fun w => .lhint (.ofWord w)⟩]

/-- The rows of primary opcode 0x34. -/
noncomputable def rows34 : List Row := [
  ⟨0xFCFF0008#32, 0xD0000000#32, fun w => .binit (.ofWord w)⟩,
  ⟨0xFCFF03FF#32, 0xD0010000#32, fun w => .barr (.ofWord w)⟩,
  ⟨0xFCFF000F#32, 0xD0020000#32, fun w => .barrx (.ofWord w)⟩,
  ⟨0xFCFF03FC#32, 0xD0030000#32, fun w => .bwait (.ofWord w)⟩,
  ⟨0xFCFF0004#32, 0xD0040000#32, fun w => .btry (.ofWord w)⟩,
  ⟨0xFCFF03FF#32, 0xD0050000#32, fun w => .bdrop (.ofWord w)⟩,
  ⟨0xFCFF03FF#32, 0xD0050001#32, fun w => .bdropRel (.ofWord w)⟩]

/-- The rows of primary opcode 0x35. -/
noncomputable def rows35 : List Row := [
  ⟨0xFF000000#32, 0xD4000000#32, fun w => .brAny (.ofWord w)⟩,
  ⟨0xFF000000#32, 0xD5000000#32, fun w => .brAll (.ofWord w)⟩,
  ⟨0xFF000000#32, 0xD6000000#32, fun w => .brNone (.ofWord w)⟩,
  ⟨0xFF000000#32, 0xD7000000#32, fun w => .brUni (.ofWord w)⟩]

/-- The rows of primary opcode 0x36. -/
noncomputable def rows36 : List Row := [
  ⟨0xFF000000#32, 0xD8000000#32, fun w => .jmp (.ofWord w)⟩,
  ⟨0xFF000000#32, 0xD9000000#32, fun w => .call (.ofWord w)⟩,
  ⟨0xFFFFFFFF#32, 0xDA000000#32, fun _ => .ret⟩,
  ⟨0xFFFFFF80#32, 0xDB000000#32, fun w => .jmpi (.ofWord w)⟩,
  ⟨0xFFFFFF80#32, 0xDB800000#32, fun w => .calli (.ofWord w)⟩]

/-- The rows of primary opcode 0x37. -/
noncomputable def rows37 : List Row := [
  ⟨0xFCFFFFFF#32, 0xDC000000#32, fun w => .regang (.ofWord w)⟩,
  ⟨0xFCFFFFFF#32, 0xDC010000#32, fun w => .exit (.ofWord w)⟩,
  ⟨0xFCFF0000#32, 0xDC020000#32, fun w => .sleep (.ofWord w)⟩,
  ⟨0xFCFFFFFF#32, 0xDC030000#32, fun w => .yield (.ofWord w)⟩,
  ⟨0xFCFF0000#32, 0xDC040000#32, fun w => .yieldw (.ofWord w)⟩]

/-- The rows of primary opcode 0x38. -/
noncomputable def rows38 : List Row := [
  ⟨0xFCFFFFF8#32, 0xE0000000#32, fun w => .role (.ofWord w)⟩,
  ⟨0xFCFFFFC0#32, 0xE0010000#32, fun w => .region (.ofWord w)⟩,
  ⟨0xFCFF001F#32, 0xE0020000#32, fun w => .emit (.ofWord w)⟩,
  ⟨0xFCFF01C0#32, 0xE0030000#32, fun w => .lnch (.ofWord w)⟩]

/-- The rows of primary opcode 0x39. -/
noncomputable def rows39 : List Row := [
  ⟨0xFCF000FC#32, 0xE4000000#32, fun w => .fork (.ofWord w)⟩,
  ⟨0xFCF03FFE#32, 0xE4100000#32, fun w => .fkill (.ofWord w)⟩]

/-- The rows of primary opcode 0x3A. -/
noncomputable def rows3A : List Row := [
  ⟨0xFCFFC0D0#32, 0xE8000000#32, fun w => .park (.ofWord w)⟩,
  ⟨0xFCFFC0D0#32, 0xE8010000#32, fun w => .unpark (.ofWord w)⟩,
  ⟨0xFCFFC0FF#32, 0xE8020000#32, fun w => .spqOut (.ofWord w)⟩,
  ⟨0xFCFFC0FF#32, 0xE8020001#32, fun w => .spqIn (.ofWord w)⟩]

/-- The rows of primary opcode 0x3B. -/
noncomputable def rows3B : List Row := [
  ⟨0xFCF000FF#32, 0xEC000000#32, fun w => .mxcfgNf (.ofWord w)⟩,
  ⟨0xFCF000FF#32, 0xEC000001#32, fun w => .mxcfgTile (.ofWord w)⟩,
  ⟨0xFCF03FFF#32, 0xEC000002#32, fun w => .mxcfgFree (.ofWord w)⟩,
  ⟨0xFCF000FF#32, 0xEC100000#32, fun w => .mxres (.ofWord w)⟩,
  ⟨0xFCF03FFF#32, 0xEC200000#32, fun w => .mxrel (.ofWord w)⟩,
  ⟨0xFCF00000#32, 0xEC300000#32, fun w => .mxldb (.ofWord w)⟩,
  ⟨0xFCF000FF#32, 0xEC400000#32, fun w => .mxrake (.ofWord w)⟩,
  ⟨0xFCFFFFFF#32, 0xEC500000#32, fun w => .mxbegin (.ofWord w)⟩,
  ⟨0xFCF00003#32, 0xEC600000#32, fun w => .mxloop (.ofWord w)⟩,
  ⟨0xFCF03FFE#32, 0xEC700000#32, fun w => .mxend (.ofWord w)⟩,
  ⟨0xFCF03FFF#32, 0xEC800000#32, fun w => .mxzero (.ofWord w)⟩,
  ⟨0xFCF00003#32, 0xEC900000#32, fun w => .mxdrain (.ofWord w)⟩,
  ⟨0xFCF00003#32, 0xECA00000#32, fun w => .mxchk (.ofWord w)⟩]

/-- The rows of primary opcode 0x3C. -/
noncomputable def rows3C : List Row := [
  ⟨0xFCF00002#32, 0xF0000000#32, fun w => .sxcopy (.ofWord w)⟩,
  ⟨0xFCF00002#32, 0xF0100000#32, fun w => .sxgath (.ofWord w)⟩,
  ⟨0xFCF00002#32, 0xF0200000#32, fun w => .sxscat (.ofWord w)⟩,
  ⟨0xFCF00002#32, 0xF0300000#32, fun w => .sxfill (.ofWord w)⟩,
  ⟨0xFCF000FC#32, 0xF0400000#32, fun w => .sxflip (.ofWord w)⟩,
  ⟨0xFCF000FF#32, 0xF0500000#32, fun w => .sxflipT (.ofWord w)⟩,
  ⟨0xFCF03FFE#32, 0xF0600000#32, fun w => .sxcan (.ofWord w)⟩,
  ⟨0xFCF000FF#32, 0xF0700000#32, fun w => .sxstat (.ofWord w)⟩]

/-- The rows of primary opcode 0x3D. -/
noncomputable def rows3D : List Row := [
  ⟨0xFCFFFFFF#32, 0xF4030000#32, fun w => .eret (.ofWord w)⟩,
  ⟨0xFCFFFFE0#32, 0xF4040000#32, fun w => .clkCyc (.ofWord w)⟩,
  ⟨0xFCFFFFE0#32, 0xF4044000#32, fun w => .clkPts (.ofWord w)⟩,
  ⟨0xFCFFFFE0#32, 0xF4048000#32, fun w => .clkPtp (.ofWord w)⟩,
  ⟨0xFCFFFF80#32, 0xF4013C00#32, fun w => .csrwErrinj (.ofWord w)⟩,
  ⟨0xFCFFFF80#32, 0xF4014000#32, fun w => .csrwClktest (.ofWord w)⟩,
  ⟨0xFCFF03E0#32, 0xF4000000#32, fun w => .csrr (.ofWord w)⟩,
  ⟨0xFCFF0380#32, 0xF4010000#32, fun w => .csrw (.ofWord w)⟩,
  ⟨0xFCFF00E0#32, 0xF4050000#32, fun w => .devr (.ofWord w)⟩,
  ⟨0xFCFF0380#32, 0xF4070000#32, fun w => .gset (.ofWord w)⟩,
  ⟨0xFCFF0000#32, 0xF4020000#32, fun w => .trap (.ofWord w)⟩,
  ⟨0xFCFF0000#32, 0xF4060000#32, fun w => .bkpt (.ofWord w)⟩]

/-- The rows of a primary opcode (R68). -/
noncomputable def rowsOf : Nat → List Row
  | 0x00 => rows00
  | 0x01 => rows01
  | 0x02 => rows02
  | 0x03 => rows03
  | 0x04 => rows04
  | 0x05 => rows05
  | 0x06 => rows06
  | 0x07 => rows07
  | 0x08 => rows08
  | 0x09 => rows09
  | 0x0A => rows0A
  | 0x0C => rows0C
  | 0x0D => rows0D
  | 0x0E => rows0E
  | 0x0F => rows0F
  | 0x10 => rows10
  | 0x11 => rows11
  | 0x12 => rows12
  | 0x13 => rows13
  | 0x14 => rows14
  | 0x15 => rows15
  | 0x16 => rows16
  | 0x17 => rows17
  | 0x18 => rows18
  | 0x19 => rows19
  | 0x1A => rows1A
  | 0x1B => rows1B
  | 0x1C => rows1C
  | 0x1D => rows1D
  | 0x1E => rows1E
  | 0x1F => rows1F
  | 0x20 => rows20
  | 0x21 => rows21
  | 0x22 => rows22
  | 0x23 => rows23
  | 0x24 => rows24
  | 0x25 => rows25
  | 0x26 => rows26
  | 0x27 => rows27
  | 0x28 => rows28
  | 0x29 => rows29
  | 0x2A => rows2A
  | 0x2B => rows2B
  | 0x2C => rows2C
  | 0x2D => rows2D
  | 0x2E => rows2E
  | 0x2F => rows2F
  | 0x30 => rows30
  | 0x31 => rows31
  | 0x32 => rows32
  | 0x33 => rows33
  | 0x34 => rows34
  | 0x35 => rows35
  | 0x36 => rows36
  | 0x37 => rows37
  | 0x38 => rows38
  | 0x39 => rows39
  | 0x3A => rows3A
  | 0x3B => rows3B
  | 0x3C => rows3C
  | 0x3D => rows3D
  | _ => []

/-- The instruction of one word, or why there is none (R68 to R70). A word of a reserved primary is the
instruction that raises the illegal-instruction trap. -/
noncomputable def decodeWord (w : BitVec 32) : Except DecodeError Instr :=
  if reservedPrimary w then .ok (.illegalInstruction w)
  else match findRow w (rowsOf (w.extractLsb' 26 6).toNat) with
    | none => .error (.reservedForm w)
    | some r => if (r.instr w).wf then .ok (r.instr w) else .error (.reservedOperand w)

/-- The word of four bytes, the first at the lowest address (R46). -/
def wordOfBytes (b0 b1 b2 b3 : Byte) : BitVec 32 := b3 ++ b2 ++ b1 ++ b0

/-- Decode the first word of a byte sequence and give the bytes after it. -/
noncomputable def decode : List Byte → Except DecodeError (Instr × List Byte)
  | b0 :: b1 :: b2 :: b3 :: rest =>
    match decodeWord (wordOfBytes b0 b1 b2 b3) with
    | .ok i => .ok (i, rest)
    | .error e => .error e
  | _ => .error .truncated

/-- The word of an instruction; an event has none. -/
def encode : Instr → Option (BitVec 32)
  | .hnop => some 0x00000000#32
  | .hsched o => some (0x00000000#32 ||| o.toWord)
  | .himm o => some (0x04000000#32 ||| o.toWord)
  | .hdst o => some (0x08000000#32 ||| o.toWord)
  | .hmod o => some (0x0C000000#32 ||| o.toWord)
  | .iadd o => some (0x10000000#32 ||| o.toWord)
  | .isub o => some (0x10200000#32 ||| o.toWord)
  | .iadds o => some (0x10400000#32 ||| o.toWord)
  | .iaddu o => some (0x10600000#32 ||| o.toWord)
  | .isubs o => some (0x10800000#32 ||| o.toWord)
  | .isubu o => some (0x10A00000#32 ||| o.toWord)
  | .imul o => some (0x10C00000#32 ||| o.toWord)
  | .imulh o => some (0x10E00000#32 ||| o.toWord)
  | .iaddG o => some (0x20000000#32 ||| o.toWord)
  | .isubG o => some (0x20200000#32 ||| o.toWord)
  | .iaddsG o => some (0x20400000#32 ||| o.toWord)
  | .iadduG o => some (0x20600000#32 ||| o.toWord)
  | .isubsG o => some (0x20800000#32 ||| o.toWord)
  | .isubuG o => some (0x20A00000#32 ||| o.toWord)
  | .imulG o => some (0x20C00000#32 ||| o.toWord)
  | .imulhG o => some (0x20E00000#32 ||| o.toWord)
  | .and o => some (0x14000000#32 ||| o.toWord)
  | .or o => some (0x14200000#32 ||| o.toWord)
  | .xor o => some (0x14400000#32 ||| o.toWord)
  | .andn o => some (0x14600000#32 ||| o.toWord)
  | .shl o => some (0x14800000#32 ||| o.toWord)
  | .shr o => some (0x14A00000#32 ||| o.toWord)
  | .sar o => some (0x14C00000#32 ||| o.toWord)
  | .rotl o => some (0x14E00000#32 ||| o.toWord)
  | .andG o => some (0x24000000#32 ||| o.toWord)
  | .orG o => some (0x24200000#32 ||| o.toWord)
  | .xorG o => some (0x24400000#32 ||| o.toWord)
  | .andnG o => some (0x24600000#32 ||| o.toWord)
  | .shlG o => some (0x24800000#32 ||| o.toWord)
  | .shrG o => some (0x24A00000#32 ||| o.toWord)
  | .sarG o => some (0x24C00000#32 ||| o.toWord)
  | .rotlG o => some (0x24E00000#32 ||| o.toWord)
  | .imin o => some (0x18000000#32 ||| o.toWord)
  | .imax o => some (0x18200000#32 ||| o.toWord)
  | .umin o => some (0x18400000#32 ||| o.toWord)
  | .umax o => some (0x18600000#32 ||| o.toWord)
  | .imulhu o => some (0x18800000#32 ||| o.toWord)
  | .iabsd o => some (0x18A00000#32 ||| o.toWord)
  | .pklo o => some (0x18C00000#32 ||| o.toWord)
  | .pkhi o => some (0x18E00000#32 ||| o.toWord)
  | .iminG o => some (0x28000000#32 ||| o.toWord)
  | .imaxG o => some (0x28200000#32 ||| o.toWord)
  | .uminG o => some (0x28400000#32 ||| o.toWord)
  | .umaxG o => some (0x28600000#32 ||| o.toWord)
  | .imulhuG o => some (0x28800000#32 ||| o.toWord)
  | .iabsdG o => some (0x28A00000#32 ||| o.toWord)
  | .pkloG o => some (0x28C00000#32 ||| o.toWord)
  | .pkhiG o => some (0x28E00000#32 ||| o.toWord)
  | .clz o => some (0x1C000000#32 ||| o.toWord)
  | .ctz o => some (0x1C200000#32 ||| o.toWord)
  | .popc o => some (0x1C400000#32 ||| o.toWord)
  | .brev o => some (0x1C600000#32 ||| o.toWord)
  | .ineg o => some (0x1C800000#32 ||| o.toWord)
  | .inot o => some (0x1CA00000#32 ||| o.toWord)
  | .iabs o => some (0x1CC00000#32 ||| o.toWord)
  | .bswap o => some (0x1CE00000#32 ||| o.toWord)
  | .imad o => some (0x30000000#32 ||| o.toWord)
  | .imad64 o => some (0x30200000#32 ||| o.toWord)
  | .imadhs o => some (0x30400000#32 ||| o.toWord)
  | .imadhz o => some (0x30600000#32 ||| o.toWord)
  | .imadw o => some (0x30800000#32 ||| o.toWord)
  | .idot8 o => some (0x30A00000#32 ||| o.toWord)
  | .idot16 o => some (0x30C00000#32 ||| o.toWord)
  | .idivs o => some (0x34000000#32 ||| o.toWord)
  | .idivz o => some (0x34200000#32 ||| o.toWord)
  | .irems o => some (0x34400000#32 ||| o.toWord)
  | .iremz o => some (0x34600000#32 ||| o.toWord)
  | .icmpeq o => some (0x38000000#32 ||| o.toWord)
  | .icmpne o => some (0x38800000#32 ||| o.toWord)
  | .icmplt o => some (0x39000000#32 ||| o.toWord)
  | .icmple o => some (0x39800000#32 ||| o.toWord)
  | .icmpltz o => some (0x3A000000#32 ||| o.toWord)
  | .icmplez o => some (0x3A800000#32 ||| o.toWord)
  | .icmptst o => some (0x3B000000#32 ||| o.toWord)
  | .icmpeqG o => some (0x3C000000#32 ||| o.toWord)
  | .icmpneG o => some (0x3C800000#32 ||| o.toWord)
  | .icmpltG o => some (0x3D000000#32 ||| o.toWord)
  | .icmpleG o => some (0x3D800000#32 ||| o.toWord)
  | .icmpltzG o => some (0x3E000000#32 ||| o.toWord)
  | .icmplezG o => some (0x3E800000#32 ||| o.toWord)
  | .icmptstG o => some (0x3F000000#32 ||| o.toWord)
  | .fadd o => some (0x40000000#32 ||| o.toWord)
  | .fsub o => some (0x40200000#32 ||| o.toWord)
  | .fmul o => some (0x40400000#32 ||| o.toWord)
  | .fmin o => some (0x40600000#32 ||| o.toWord)
  | .fmax o => some (0x40800000#32 ||| o.toWord)
  | .fminn o => some (0x40A00000#32 ||| o.toWord)
  | .fmaxn o => some (0x40C00000#32 ||| o.toWord)
  | .fcpsg o => some (0x40E00000#32 ||| o.toWord)
  | .faddG o => some (0x44000000#32 ||| o.toWord)
  | .fsubG o => some (0x44200000#32 ||| o.toWord)
  | .fmulG o => some (0x44400000#32 ||| o.toWord)
  | .fminG o => some (0x44600000#32 ||| o.toWord)
  | .fmaxG o => some (0x44800000#32 ||| o.toWord)
  | .fminnG o => some (0x44A00000#32 ||| o.toWord)
  | .fmaxnG o => some (0x44C00000#32 ||| o.toWord)
  | .fcpsgG o => some (0x44E00000#32 ||| o.toWord)
  | .fma o => some (0x48000000#32 ||| o.toWord)
  | .fms o => some (0x48200000#32 ||| o.toWord)
  | .fnma o => some (0x48400000#32 ||| o.toWord)
  | .fnms o => some (0x48600000#32 ||| o.toWord)
  | .hdotBf16 o => some (0x4C000000#32 ||| o.toWord)
  | .hdotF16 o => some (0x4C200000#32 ||| o.toWord)
  | .ffmaBf16x4 o => some (0x4C400000#32 ||| o.toWord)
  | .ffmaF16x4 o => some (0x4C600000#32 ||| o.toWord)
  | .fabs o => some (0x50000000#32 ||| o.toWord)
  | .fneg o => some (0x50200000#32 ||| o.toWord)
  | .frnd o => some (0x50400000#32 ||| o.toWord)
  | .frndz o => some (0x50600000#32 ||| o.toWord)
  | .fclass o => some (0x50800000#32 ||| o.toWord)
  | .fgetexp o => some (0x50A00000#32 ||| o.toWord)
  | .fgetman o => some (0x50C00000#32 ||| o.toWord)
  | .fcvtwl o => some (0x54000000#32 ||| o.toWord)
  | .fcvtwh o => some (0x54200000#32 ||| o.toWord)
  | .fcvtn o => some (0x54400000#32 ||| o.toWord)
  | .fcvtfi o => some (0x54600000#32 ||| o.toWord)
  | .fcvtfu o => some (0x54800000#32 ||| o.toWord)
  | .fcvtif o => some (0x54A00000#32 ||| o.toWord)
  | .fcvtuf o => some (0x54C00000#32 ||| o.toWord)
  | .fenc o => some (0x54E00000#32 ||| o.toWord)
  | .fdec o => some (0x54E00040#32 ||| o.toWord)
  | .fcmpeq o => some (0x58000000#32 ||| o.toWord)
  | .fcmpne o => some (0x58800000#32 ||| o.toWord)
  | .fcmplt o => some (0x59000000#32 ||| o.toWord)
  | .fcmple o => some (0x59800000#32 ||| o.toWord)
  | .fcmpun o => some (0x5A000000#32 ||| o.toWord)
  | .fcmpor o => some (0x5A800000#32 ||| o.toWord)
  | .fcmpequ o => some (0x5B000000#32 ||| o.toWord)
  | .fcmpgt o => some (0x5B800000#32 ||| o.toWord)
  | .fdiv o => some (0x5C000000#32 ||| o.toWord)
  | .fsqrt o => some (0x5C200000#32 ||| o.toWord)
  | .cexp2 o => some (0x60000000#32 ||| o.toWord)
  | .clog2 o => some (0x60400000#32 ||| o.toWord)
  | .csin o => some (0x60800000#32 ||| o.toWord)
  | .ccos o => some (0x60C00000#32 ||| o.toWord)
  | .ctanh o => some (0x61000000#32 ||| o.toWord)
  | .csigm o => some (0x61400000#32 ||| o.toWord)
  | .crcp o => some (0x61800000#32 ||| o.toWord)
  | .crsqrt o => some (0x61C00000#32 ||| o.toWord)
  | .csqrt o => some (0x62000000#32 ||| o.toWord)
  | .catan o => some (0x62400000#32 ||| o.toWord)
  | .catan2 o => some (0x64000000#32 ||| o.toWord)
  | .csincos o => some (0x64400000#32 ||| o.toWord)
  | .chypot o => some (0x64800000#32 ||| o.toWord)
  | .xshf o => some (0x68000000#32 ||| o.toWord)
  | .xup o => some (0x68200000#32 ||| o.toWord)
  | .xdn o => some (0x68400000#32 ||| o.toWord)
  | .xbfly o => some (0x68600000#32 ||| o.toWord)
  | .xget o => some (0x68800000#32 ||| o.toWord)
  | .xperm o => some (0x68A00000#32 ||| o.toWord)
  | .xrot o => some (0x68C00000#32 ||| o.toWord)
  | .xshfG o => some (0x6C000000#32 ||| o.toWord)
  | .xupG o => some (0x6C200000#32 ||| o.toWord)
  | .xdnG o => some (0x6C400000#32 ||| o.toWord)
  | .xbflyG o => some (0x6C600000#32 ||| o.toWord)
  | .xgetG o => some (0x6C800000#32 ||| o.toWord)
  | .xpermG o => some (0x6CA00000#32 ||| o.toWord)
  | .xrotG o => some (0x6CC00000#32 ||| o.toWord)
  | .vsum o => some (0x70000000#32 ||| o.toWord)
  | .vfsum o => some (0x70200000#32 ||| o.toWord)
  | .vmin o => some (0x70400000#32 ||| o.toWord)
  | .vmax o => some (0x70600000#32 ||| o.toWord)
  | .vfmin o => some (0x70800000#32 ||| o.toWord)
  | .vfmax o => some (0x70A00000#32 ||| o.toWord)
  | .vscan o => some (0x70C00000#32 ||| o.toWord)
  | .vfscan o => some (0x70E00000#32 ||| o.toWord)
  | .pand o => some (0x74000000#32 ||| o.toWord)
  | .por o => some (0x74800000#32 ||| o.toWord)
  | .pxor o => some (0x75000000#32 ||| o.toWord)
  | .pandn o => some (0x75800000#32 ||| o.toWord)
  | .pnot o => some (0x76000000#32 ||| o.toWord)
  | .pmov o => some (0x76800000#32 ||| o.toWord)
  | .pany o => some (0x77000000#32 ||| o.toWord)
  | .pall o => some (0x77800000#32 ||| o.toWord)
  | .guard o => some (0x80000000#32 ||| o.toWord)
  | .guardn o => some (0x80800000#32 ||| o.toWord)
  | .guardoff => some 0x81000000#32
  | .pbal o => some (0x78000000#32 ||| o.toWord)
  | .pset o => some (0x78200000#32 ||| o.toWord)
  | .pget o => some (0x78400000#32 ||| o.toWord)
  | .pcnt o => some (0x78600000#32 ||| o.toWord)
  | .sel o => some (0x7C000000#32 ||| o.toWord)
  | .madd o => some (0x84000000#32 ||| o.toWord)
  | .msub o => some (0x84200000#32 ||| o.toWord)
  | .mmul o => some (0x84400000#32 ||| o.toWord)
  | .mscl o => some (0x84600000#32 ||| o.toWord)
  | .mofs o => some (0x84800000#32 ||| o.toWord)
  | .mneg o => some (0x84A00000#32 ||| o.toWord)
  | .mcpy o => some (0x84C00000#32 ||| o.toWord)
  | .mrelu o => some (0x88000000#32 ||| o.toWord)
  | .mexp o => some (0x88200000#32 ||| o.toWord)
  | .msig o => some (0x88400000#32 ||| o.toWord)
  | .mtanh o => some (0x88600000#32 ||| o.toWord)
  | .mrcp o => some (0x88800000#32 ||| o.toWord)
  | .msqr o => some (0x88A00000#32 ||| o.toWord)
  | .mmake o => some (0x8C000000#32 ||| o.toWord)
  | .mcolMu o => some (0x8C200000#32 ||| o.toWord)
  | .mcolVar o => some (0x8C400000#32 ||| o.toWord)
  | .mcolSd o => some (0x8C600000#32 ||| o.toWord)
  | .mcolPair o => some (0x8C800000#32 ||| o.toWord)
  | .mcolSmp o => some (0x8CA00000#32 ||| o.toWord)
  | .ldg o => some (0x90000000#32 ||| o.toWord)
  | .ldgx o => some (0x94000000#32 ||| o.toWord)
  | .stg o => some (0x98000000#32 ||| o.toWord)
  | .stgx o => some (0x9C000000#32 ||| o.toWord)
  | .lds o => some (0xA0000000#32 ||| o.toWord)
  | .ldsx o => some (0xA4000000#32 ||| o.toWord)
  | .sts o => some (0xA8000000#32 ||| o.toWord)
  | .stsx o => some (0xAC000000#32 ||| o.toWord)
  | .ldo o => some (0xB0800000#32 ||| o.toWord)
  | .sto o => some (0xB4800000#32 ||| o.toWord)
  | .atmAdd o => some (0xB8080000#32 ||| o.toWord)
  | .atmAnd o => some (0xB8180000#32 ||| o.toWord)
  | .atmOr o => some (0xB8280000#32 ||| o.toWord)
  | .atmXor o => some (0xB8380000#32 ||| o.toWord)
  | .atmMin o => some (0xB8480000#32 ||| o.toWord)
  | .atmMax o => some (0xB8580000#32 ||| o.toWord)
  | .atmMinz o => some (0xB8680000#32 ||| o.toWord)
  | .atmMaxz o => some (0xB8780000#32 ||| o.toWord)
  | .atmXchg o => some (0xB8880000#32 ||| o.toWord)
  | .atmCas o => some (0xB8980000#32 ||| o.toWord)
  | .atmFadd o => some (0xB8A80000#32 ||| o.toWord)
  | .raddI32 o => some (0xBC080000#32 ||| o.toWord)
  | .raddI64 o => some (0xBC1C0000#32 ||| o.toWord)
  | .raddF32 o => some (0xBC280000#32 ||| o.toWord)
  | .raddF64 o => some (0xBC3C0000#32 ||| o.toWord)
  | .rmin o => some (0xBC480000#32 ||| o.toWord)
  | .rmax o => some (0xBC580000#32 ||| o.toWord)
  | .redfl o => some (0xBC600000#32 ||| o.toWord)
  | .prop o => some (0xC0000000#32 ||| o.toWord)
  | .dread o => some (0xC0100000#32 ||| o.toWord)
  | .recyc o => some (0xC0200000#32 ||| o.toWord)
  | .dstat o => some (0xC0300000#32 ||| o.toWord)
  | .fenceAcq o => some (0xC4000000#32 ||| o.toWord)
  | .fenceRel o => some (0xC4010000#32 ||| o.toWord)
  | .fenceFull o => some (0xC4020000#32 ||| o.toWord)
  | .fenceEng o => some (0xC4030000#32 ||| o.toWord)
  | .wsigSt o => some (0xC8080000#32 ||| o.toWord)
  | .wsigAdd o => some (0xC8180000#32 ||| o.toWord)
  | .pref o => some (0xCC000000#32 ||| o.toWord)
  | .evf o => some (0xCC100000#32 ||| o.toWord)
  | .pin o => some (0xCC200000#32 ||| o.toWord)
  | .unpin o => some (0xCC300000#32 ||| o.toWord)
  | .lhint o => some (0xCC400000#32 ||| o.toWord)
  | .binit o => some (0xD0000000#32 ||| o.toWord)
  | .barr o => some (0xD0010000#32 ||| o.toWord)
  | .barrx o => some (0xD0020000#32 ||| o.toWord)
  | .bwait o => some (0xD0030000#32 ||| o.toWord)
  | .btry o => some (0xD0040000#32 ||| o.toWord)
  | .bdrop o => some (0xD0050000#32 ||| o.toWord)
  | .bdropRel o => some (0xD0050001#32 ||| o.toWord)
  | .brAny o => some (0xD4000000#32 ||| o.toWord)
  | .brAll o => some (0xD5000000#32 ||| o.toWord)
  | .brNone o => some (0xD6000000#32 ||| o.toWord)
  | .brUni o => some (0xD7000000#32 ||| o.toWord)
  | .jmp o => some (0xD8000000#32 ||| o.toWord)
  | .call o => some (0xD9000000#32 ||| o.toWord)
  | .ret => some 0xDA000000#32
  | .jmpi o => some (0xDB000000#32 ||| o.toWord)
  | .calli o => some (0xDB800000#32 ||| o.toWord)
  | .regang o => some (0xDC000000#32 ||| o.toWord)
  | .exit o => some (0xDC010000#32 ||| o.toWord)
  | .sleep o => some (0xDC020000#32 ||| o.toWord)
  | .yield o => some (0xDC030000#32 ||| o.toWord)
  | .yieldw o => some (0xDC040000#32 ||| o.toWord)
  | .role o => some (0xE0000000#32 ||| o.toWord)
  | .region o => some (0xE0010000#32 ||| o.toWord)
  | .emit o => some (0xE0020000#32 ||| o.toWord)
  | .lnch o => some (0xE0030000#32 ||| o.toWord)
  | .fork o => some (0xE4000000#32 ||| o.toWord)
  | .fkill o => some (0xE4100000#32 ||| o.toWord)
  | .park o => some (0xE8000000#32 ||| o.toWord)
  | .unpark o => some (0xE8010000#32 ||| o.toWord)
  | .spqOut o => some (0xE8020000#32 ||| o.toWord)
  | .spqIn o => some (0xE8020001#32 ||| o.toWord)
  | .mxcfgNf o => some (0xEC000000#32 ||| o.toWord)
  | .mxcfgTile o => some (0xEC000001#32 ||| o.toWord)
  | .mxcfgFree o => some (0xEC000002#32 ||| o.toWord)
  | .mxres o => some (0xEC100000#32 ||| o.toWord)
  | .mxrel o => some (0xEC200000#32 ||| o.toWord)
  | .mxldb o => some (0xEC300000#32 ||| o.toWord)
  | .mxrake o => some (0xEC400000#32 ||| o.toWord)
  | .mxbegin o => some (0xEC500000#32 ||| o.toWord)
  | .mxloop o => some (0xEC600000#32 ||| o.toWord)
  | .mxend o => some (0xEC700000#32 ||| o.toWord)
  | .mxzero o => some (0xEC800000#32 ||| o.toWord)
  | .mxdrain o => some (0xEC900000#32 ||| o.toWord)
  | .mxchk o => some (0xECA00000#32 ||| o.toWord)
  | .sxcopy o => some (0xF0000000#32 ||| o.toWord)
  | .sxgath o => some (0xF0100000#32 ||| o.toWord)
  | .sxscat o => some (0xF0200000#32 ||| o.toWord)
  | .sxfill o => some (0xF0300000#32 ||| o.toWord)
  | .sxflip o => some (0xF0400000#32 ||| o.toWord)
  | .sxflipT o => some (0xF0500000#32 ||| o.toWord)
  | .sxcan o => some (0xF0600000#32 ||| o.toWord)
  | .sxstat o => some (0xF0700000#32 ||| o.toWord)
  | .csrr o => some (0xF4000000#32 ||| o.toWord)
  | .csrw o => some (0xF4010000#32 ||| o.toWord)
  | .csrwErrinj o => some (0xF4013C00#32 ||| o.toWord)
  | .csrwClktest o => some (0xF4014000#32 ||| o.toWord)
  | .trap o => some (0xF4020000#32 ||| o.toWord)
  | .eret o => some (0xF4030000#32 ||| o.toWord)
  | .clkCyc o => some (0xF4040000#32 ||| o.toWord)
  | .clkPts o => some (0xF4044000#32 ||| o.toWord)
  | .clkPtp o => some (0xF4048000#32 ||| o.toWord)
  | .devr o => some (0xF4050000#32 ||| o.toWord)
  | .bkpt o => some (0xF4060000#32 ||| o.toWord)
  | .gset o => some (0xF4070000#32 ||| o.toWord)
  | .issueBeat => none
  | .sleepExpiry _ _ => none
  | .resultReturn _ => none
  | .homeRead _ => none
  | .homeWrite _ => none
  | .homeAtomic _ => none
  | .biResponse _ _ => none
  | .lazyReleaseDrain _ => none
  | .lazyReleaseTimeout _ => none
  | .regionMerge _ _ => none
  | .ccInterval => none
  | .clockReconcile => none
  | .sweeperVisit _ _ => none
  | .smbFlushTimeout _ _ => none
  | .smbFlushAck _ => none
  | .tlbFill _ _ _ _ => none
  | .faultResolve _ _ _ _ => none
  | .drainProcedure _ _ _ _ => none
  | .redDrain _ _ => none
  | .redEntryApply _ => none
  | .redDrainAck _ => none
  | .wsigSignal _ => none
  | .homeProp _ => none
  | .homeDread _ => none
  | .homeRecyc _ => none
  | .homeDstat _ => none
  | .docReply _ => none
  | .sxCommandStart _ => none
  | .sxElementLand _ _ => none
  | .sxResume _ => none
  | .sxAbort _ => none
  | .mxCommandStart _ => none
  | .mxldbLand _ => none
  | .mxKstep _ => none
  | .mxendComplete _ => none
  | .mxdrainLand _ => none
  | .mxchkComplete _ => none
  | .forkProgramRead _ => none
  | .forkProgramComplete _ => none
  | .doorbellWrite _ _ _ => none
  | .launchAccept _ _ => none
  | .placeTeam _ _ => none
  | .discardTeam _ => none
  | .preemptWatchdog _ => none
  | .groupEnd _ => none
  | .roleRestart _ => none
  | .launchComplete _ _ => none
  | .copyLaunch _ _ => none
  | .releaseLaunch _ _ => none
  | .gatherTimeout _ _ _ => none
  | .stageAllowance _ _ => none
  | .riddleReplay _ => none
  | .riddleCompare _ => none
  | .deviceReset => none
  | .partitionReset _ => none
  | .resourceRegisterWrite _ _ _ => none
  | .qcfgWrite _ _ _ => none
  | .ptrootWrite _ _ _ => none
  | .logcfgWrite _ _ => none
  | .biasFlip _ _ => none
  | .registerWrite _ _ _ => none
  | .hostRead _ _ _ _ _ => none
  | .hostWrite _ _ _ _ _ => none
  | .snpInv _ => none
  | .snpData _ => none
  | .snpCur _ => none
  | .bridgeDeviceRead _ => none
  | .hostGrant _ _ _ => none
  | .bridgeDeviceWrite _ => none
  | .bridgeWriteAck _ => none
  | .bridgeEvict _ => none
  | .bridgeWriteback _ => none
  | .ingestWrite _ _ _ _ => none
  | .ingestPiece _ => none
  | .ingestDoorbell _ _ _ => none
  | .pwrcapWrite _ => none
  | .powerCheck => none
  | .attest _ => none
  | .dbgctlWrite _ => none
  | .dbgselWrite _ => none
  | .debugResume _ => none
  | .dbgdataRead => none
  | .dbgdataWrite _ => none
  | .deviceNumberAssign _ => none
  | .ptpSync _ => none
  | .flitRetry _ => none
  | .fabricTimeout _ => none
  | .remoteRead _ _ _ _ _ => none
  | .remoteWrite _ _ _ _ _ => none
  | .heldWriteRelease _ => none
  | .repStore _ => none
  | .repUpdateApply _ _ => none
  | .repApplyAck _ _ _ => none
  | .repLock _ _ => none
  | .repLockTimeout _ _ _ => none
  | .repLoadTimeout _ => none
  | .repModeSwitch _ _ => none
  | .illegalInstruction w => some w
  | .fetchFill _ _ _ _ => none
  | .retentionRequest _ => none
  | .damagedBit _ _ _ => none
  | .ingestUnsupportedRequest _ => none

/-- The four bytes of a word in memory order (R46). -/
def bytesOfWord (w : BitVec 32) : List Byte :=
  [w.extractLsb' 0 8, w.extractLsb' 8 8, w.extractLsb' 16 8, w.extractLsb' 24 8]

/-- The instruction the decoder reads from a word of `nbits` bits numbered as the opcode table numbers
them; every word is 32 bits, so the bits above `nbits` are zero. -/
noncomputable def decodeTableWord (nbits w : Nat) : Option Instr :=
  match decode (bytesOfWord (BitVec.ofNat 32 (w % 2 ^ nbits))) with
  | .ok (i, _) => some i
  | .error _ => none

end Sys2Proof
end

