-- ==== Sys2Proof/Machine/Float.lean ====
section
/-!
DEFINITION. Binary floating point (R92 to R94, R97): formats, decoding, exact dyadic arithmetic,
one rounding function, NaN rules and flags. Values are exact: a finite value is a sign, a natural
significand and a power of two, and each operation rounds once.
-/

namespace Sys2Proof.Machine

/-- A binary format (R92): exponent width, fraction width. -/
structure Fmt where
  ew : Nat
  mw : Nat
  deriving DecidableEq, Repr

def fp64 : Fmt := ⟨11, 52⟩
def fp32 : Fmt := ⟨8, 23⟩
def bf16 : Fmt := ⟨8, 7⟩
def fp16 : Fmt := ⟨5, 10⟩

/-- The format a floating-point W field selects (R56). -/
def fmtOfW (w : BitVec 2) : Fmt :=
  match w.toNat with
  | 0 => fp64
  | 1 => fp32
  | 2 => bf16
  | _ => fp16

def Fmt.bias (f : Fmt) : Nat := 2 ^ (f.ew - 1) - 1
def Fmt.width (f : Fmt) : Nat := 1 + f.ew + f.mw
/-- Number of sub-elements of a register in this format. -/
def Fmt.count (f : Fmt) : Nat := 64 / f.width

/-- Rounding modes (R95). -/
inductive RM where
  | rne | rtz | rup | rdn
  deriving DecidableEq, Repr

/-- The mode of an RM code of FMODE (R95). -/
def rmOf : Nat → RM
  | 0 => .rne
  | 1 => .rtz
  | 2 => .rup
  | _ => .rdn

/-- The settings one word computes under: rounding (R96), flushing (R97), saturation (R96). -/
structure FMode where
  rm     : RM
  fluIn  : Bool
  fluOut : Bool
  sat    : Bool
  deriving DecidableEq, Repr

/-- Exception flags in the order of R98: NV, DZ, OF, UF, NX from bit 0 up. -/
abbrev FFlags := BitVec 5
def fNV : FFlags := 1#5
def fDZ : FFlags := 2#5
def fOF : FFlags := 4#5
def fUF : FFlags := 8#5
def fNX : FFlags := 16#5

/-- A decoded value (R92). `fin s m e` is (−1)^s · m · 2^e; a NaN carries its quiet bit and the
fraction below it. -/
inductive FVal where
  | nan (neg quiet : Bool) (payload : Nat)
  | inf (neg : Bool)
  | fin (neg : Bool) (m : Nat) (e : Int)
  deriving DecidableEq, Repr

/-- A result pattern with the exceptions it raises. -/
structure FRes where
  bits : Nat
  fl   : FFlags
  deriving DecidableEq, Repr

def Fmt.mk3 (f : Fmt) (neg : Bool) (e m : Nat) : Nat :=
  (if neg then 2 ^ (f.ew + f.mw) else 0) + e * 2 ^ f.mw + m

def Fmt.signOf (f : Fmt) (x : Nat) : Bool := x.testBit (f.ew + f.mw)
def Fmt.expOf (f : Fmt) (x : Nat) : Nat := x / 2 ^ f.mw % 2 ^ f.ew
def Fmt.fracOf (f : Fmt) (x : Nat) : Nat := x % 2 ^ f.mw

/-- Decode one sub-element (R92). -/
def Fmt.decode (f : Fmt) (x : Nat) : FVal :=
  let s := f.signOf x; let e := f.expOf x; let m := f.fracOf x
  if e = 2 ^ f.ew - 1 then
    if m = 0 then .inf s else .nan s (m.testBit (f.mw - 1)) (m % 2 ^ (f.mw - 1))
  else if e = 0 then .fin s m (1 - (f.bias : Int) - f.mw)
  else .fin s (2 ^ f.mw + m) ((e : Int) - f.bias - f.mw)

def Fmt.isSub (f : Fmt) (x : Nat) : Bool := f.expOf x == 0 && f.fracOf x != 0
def Fmt.isNaN (f : Fmt) (x : Nat) : Bool := f.expOf x == 2 ^ f.ew - 1 && f.fracOf x != 0
def Fmt.isSNaN (f : Fmt) (x : Nat) : Bool := f.isNaN x && !x.testBit (f.mw - 1)

/-- A subnormal source sub-element as a flushing word reads it (R97). -/
def Fmt.readFlushed (f : Fmt) (fm : FMode) (x : Nat) : Nat :=
  if fm.fluIn && f.isSub x then f.mk3 (f.signOf x) 0 0 else x

def Fmt.infBits (f : Fmt) (neg : Bool) : Nat := f.mk3 neg (2 ^ f.ew - 1) 0
def Fmt.maxBits (f : Fmt) (neg : Bool) : Nat := f.mk3 neg (2 ^ f.ew - 2) (2 ^ f.mw - 1)
/-- The canonical NaN (R94). -/
def Fmt.canonNaN (f : Fmt) : Nat := f.mk3 false (2 ^ f.ew - 1) (2 ^ (f.mw - 1))

/-- `n + part/2^k` made integral, where `rem` of `2^k` units lie below n (R93). -/
def roundInt (rm : RM) (neg : Bool) (n rem half2 : Nat) : Nat :=
  -- rem : remainder; half2 : 2 ^ k, the unit the remainder is measured in
  if rem = 0 then n else
  match rm with
  | .rne => if 2 * rem > half2 then n + 1 else if 2 * rem < half2 then n else n + n % 2
  | .rtz => n
  | .rup => if neg then n else n + 1
  | .rdn => if neg then n + 1 else n

/-- m · 2^t made integral under the mode, with whether it was exact. -/
def scaleRound (rm : RM) (neg : Bool) (m : Nat) (t : Int) : Nat × Bool :=
  match t with
  | .ofNat k => (m <<< k, true)
  | .negSucc k => let d := 2 ^ (k + 1); (roundInt rm neg (m / d) (m % d) d, m % d == 0)

/-- Overflowed result (R93's table). -/
def Fmt.overflowBits (f : Fmt) (rm : RM) (neg : Bool) : Nat :=
  match rm, neg with
  | .rne, _ => f.infBits neg
  | .rtz, _ => f.maxBits neg
  | .rup, false => f.infBits false
  | .rup, true => f.maxBits true
  | .rdn, false => f.maxBits false
  | .rdn, true => f.infBits true

/-- Encode the exact value (−1)^neg · m · 2^e (R93), flushing the output under R97 and, when `sat`,
delivering the largest finite value for an overflow (R106). -/
def Fmt.round (f : Fmt) (fm : FMode) (sat : Bool) (neg : Bool) (m : Nat) (e : Int) : FRes :=
  if m = 0 then ⟨f.mk3 neg 0 0, 0⟩ else
  let l : Int := (Nat.log2 m : Int) + e
  let emin : Int := 1 - (f.bias : Int)
  let q := max l emin
  let (n0, exact) := scaleRound fm.rm neg m (e - q + f.mw)
  let (n, q) := if n0 = 2 ^ (f.mw + 1) then (2 ^ f.mw, q + 1) else (n0, q)
  if q > (2 ^ f.ew : Int) - 2 - f.bias then
    ⟨if sat then f.maxBits neg else f.overflowBits fm.rm neg, fOF ||| fNX⟩
  else
    let (u0, _) := scaleRound fm.rm neg m (e - l + f.mw)
    let tiny := (if u0 = 2 ^ (f.mw + 1) then l + 1 else l) < emin
    let fl : FFlags := if exact then 0 else if tiny then fUF ||| fNX else fNX
    if n < 2 ^ f.mw then
      if fm.fluOut && n != 0 then ⟨f.mk3 neg 0 0, fUF ||| fNX⟩ else ⟨f.mk3 neg 0 n, fl⟩
    else ⟨f.mk3 neg (q + f.bias).toNat (n - 2 ^ f.mw), fl⟩

/-- A NaN operand of this format delivered in another: quieted, payload cut or extended (R94). -/
def Fmt.quietNaN (g : Fmt) (mw : Nat) (neg : Bool) (payload : Nat) : Nat :=
  -- payload: the mw − 1 fraction bits below the quiet bit of the source
  let p := if mw ≤ g.mw then payload <<< (g.mw - mw) else payload >>> (mw - g.mw)
  g.mk3 neg (2 ^ g.ew - 1) (2 ^ (g.mw - 1) + p)

/-- The first NaN of the operands, quieted, with NV if any operand signals (R94). `ops` are decoded
values with the fraction width of their format. -/
def firstNaN (g : Fmt) (ops : List (FVal × Nat)) : Option FRes :=
  let sig := ops.any fun o => match o.1 with | .nan _ q _ => !q | _ => false
  let rec go : List (FVal × Nat) → Option Nat
    | [] => none
    | (.nan s _ p, mw) :: _ => some (g.quietNaN mw s p)
    | _ :: r => go r
  (go ops).map fun b => ⟨b, if sig then fNV else 0⟩

def Fmt.invalid (f : Fmt) : FRes := ⟨f.canonNaN, fNV⟩

/-- An exact signed sum of dyadic terms: (negative, magnitude, exponent). -/
def addDy (a b : Bool × Nat × Int) : Bool × Nat × Int :=
  let e := min a.2.2 b.2.2
  let x := a.2.1 <<< (a.2.2 - e).toNat
  let y := b.2.1 <<< (b.2.2 - e).toNat
  if a.1 == b.1 then (a.1, x + y, e)
  else if x ≥ y then (a.1, x - y, e) else (b.1, y - x, e)

/-- The sign of an exact zero sum (R93): the common sign, or +0, in RDN −0. -/
def zeroSign (rm : RM) (signs : List Bool) : Bool :=
  if signs.all id then true else if signs.all (!·) then false else decide (rm = .rdn)

/-- Round the exact sum of finite terms. -/
def Fmt.roundSum (f : Fmt) (fm : FMode) (ts : List (Bool × Nat × Int)) : FRes :=
  match ts with
  | [] => ⟨0, 0⟩
  | t :: r =>
    let s := r.foldl addDy t
    if s.2.1 = 0 then ⟨f.mk3 (zeroSign fm.rm (ts.map (·.1))) 0 0, 0⟩
    else f.round fm false s.1 s.2.1 s.2.2

/-- a + b on decoded values of the result format (R101). -/
def Fmt.addV (f : Fmt) (fm : FMode) (a b : FVal) : FRes :=
  match firstNaN f [(a, f.mw), (b, f.mw)] with
  | some r => r
  | none =>
    match a, b with
    | .inf s, .inf t => if s == t then ⟨f.infBits s, 0⟩ else f.invalid
    | .inf s, _ => ⟨f.infBits s, 0⟩
    | _, .inf t => ⟨f.infBits t, 0⟩
    | .fin s m e, .fin t n g => f.roundSum fm [(s, m, e), (t, n, g)]
    | _, _ => f.invalid

/-- The negation of a decoded operand; a NaN keeps its sign (its payload passes as an operand). -/
def FVal.negate : FVal → FVal
  | .nan s q p => .nan s q p
  | .inf s => .inf (!s)
  | .fin s m e => .fin (!s) m e

/-- The exact product of two values that are not NaN; none when it is ∞ · 0. -/
def mulV (a b : FVal) : Option FVal :=
  match a, b with
  | .inf s, .fin t m _ => if m = 0 then none else some (.inf (s != t))
  | .fin s m _, .inf t => if m = 0 then none else some (.inf (s != t))
  | .inf s, .inf t => some (.inf (s != t))
  | .fin s m e, .fin t n g => some (.fin (s != t) (m * n) (e + g))
  | _, _ => none

def FVal.isNaN : FVal → Bool
  | .nan _ _ _ => true
  | _ => false

/-- Does ∞ · 0 stand in this product? -/
def prodInvalid (a b : FVal) : Bool :=
  !a.isNaN && !b.isNaN && (mulV a b).isNone

/-- Sum of exact products and addends with one rounding; the operands' NaNs come first in the order
given, and an invalid product raises NV even under a NaN (R103, R104). [DEDUCED: log entry 98] -/
def Fmt.dotV (f : Fmt) (fm : FMode) (ops : List (FVal × Nat)) (prods : List (FVal × FVal))
    (addends : List FVal) : FRes :=
  let inv := prods.any fun p => prodInvalid p.1 p.2
  match firstNaN f ops with
  | some r => ⟨r.bits, r.fl ||| (if inv then fNV else 0)⟩
  | none =>
    if inv then f.invalid else
    let terms := (prods.filterMap fun p => mulV p.1 p.2) ++ addends
    let infs := terms.filterMap fun t => match t with | .inf s => some s | _ => none
    match infs with
    | s :: r => if r.all (· == s) then ⟨f.infBits s, 0⟩ else f.invalid
    | [] => f.roundSum fm (terms.filterMap fun t => match t with | .fin s m e => some (s, m, e) | _ => none)

/-- a · b (R101). -/
def Fmt.mulR (f : Fmt) (fm : FMode) (a b : FVal) : FRes :=
  match firstNaN f [(a, f.mw), (b, f.mw)] with
  | some r => r
  | none =>
    match mulV a b with
    | none => f.invalid
    | some (.fin s m e) => f.round fm false s m e
    | some (.inf s) => ⟨f.infBits s, 0⟩
    | some _ => f.invalid

/-- Integer square root, built bit by bit from bit `k` down. -/
def isqrtFrom : Nat → Nat → Nat → Nat
  | 0, _, r => r
  | k + 1, n, r => let c := r + 2 ^ k; isqrtFrom k n (if c * c ≤ n then c else r)

def isqrt (n : Nat) : Nat := isqrtFrom (Nat.log2 n / 2 + 1) n 0

/-- An exact quotient of naturals as a dyadic whose last bit is sticky, precise to at least `p` bits. -/
def divDy (p m n : Nat) : Nat × Int :=
  let k := p + 2 + Nat.log2 n
  let q := (m <<< k) / n
  (2 * q + (if (m <<< k) % n = 0 then 0 else 1), -(k : Int) - 1)

/-- a / b (R110). -/
def Fmt.divR (f : Fmt) (fm : FMode) (a b : FVal) : FRes :=
  match firstNaN f [(a, f.mw), (b, f.mw)] with
  | some r => r
  | none =>
    match a, b with
    | .inf _, .inf _ => f.invalid
    | .inf s, .fin t _ _ => ⟨f.infBits (s != t), 0⟩
    | .fin s _ _, .inf t => ⟨f.mk3 (s != t) 0 0, 0⟩
    | .fin s m e, .fin t n g =>
      if n = 0 then (if m = 0 then f.invalid else ⟨f.infBits (s != t), fDZ⟩)
      else if m = 0 then ⟨f.mk3 (s != t) 0 0, 0⟩
      else let (q, k) := divDy (f.mw + 2) m n; f.round fm false (s != t) q (k + e - g)
    | _, _ => f.invalid

/-- The exact square root of m · 2^e as a dyadic with a sticky last bit, precise to `p` bits. -/
def sqrtDy (p m : Nat) (e : Int) : Nat × Int :=
  let k := 2 * p + (if (e % 2 = 0) then 0 else 1)
  let x := m <<< k
  let r := isqrt x
  (2 * r + (if r * r = x then 0 else 1), (e - k) / 2 - 1)

/-- √a (R110). -/
def Fmt.sqrtR (f : Fmt) (fm : FMode) (a : FVal) : FRes :=
  match firstNaN f [(a, f.mw)] with
  | some r => r
  | none =>
    match a with
    | .inf s => if s then f.invalid else ⟨f.infBits false, 0⟩
    | .fin s m e =>
      if m = 0 then ⟨f.mk3 s 0 0, 0⟩
      else if s then f.invalid
      else let (r, k) := sqrtDy (f.mw + 3) m e; f.round fm false false r k
    | _ => f.invalid

/-- Order of two values that are not NaN. -/
def FVal.ltV (a b : FVal) : Bool :=
  match a, b with
  | .inf s, .inf t => s && !t
  | .inf s, _ => s
  | _, .inf t => !t
  | .fin s m e, .fin t n g =>
    let d := addDy (s, m, e) (!t, n, g)
    d.1 && d.2.1 != 0
  | _, _ => false

/-- Equality of two values that are not NaN; −0 equals +0. -/
def FVal.eqV (a b : FVal) : Bool :=
  match a, b with
  | .inf s, .inf t => s == t
  | .fin s m e, .fin t n g => (addDy (s, m, e) (!t, n, g)).2.1 == 0
  | _, _ => false

/-- −0 below +0, otherwise by value: the order of IEEE minimum and maximum (R101). -/
def FVal.ltZ (a b : FVal) : Bool :=
  match a, b with
  | .fin s 0 _, .fin t 0 _ => s && !t
  | _, _ => a.ltV b

/-- A pattern one of the minimum and maximum forms returns: flushed when the mode flushes outputs. -/
def Fmt.deliver (f : Fmt) (fm : FMode) (x : Nat) : FRes :=
  if fm.fluOut && f.isSub x then ⟨f.mk3 (f.signOf x) 0 0, fUF ||| fNX⟩ else ⟨x, 0⟩

/-- IEEE minimum or maximum on patterns already read under R97; `num` selects minimumNumber and
maximumNumber (R101). -/
def Fmt.minmax (f : Fmt) (fm : FMode) (isMax num : Bool) (x y : Nat) : FRes :=
  let a := f.decode x; let b := f.decode y
  let nv : FFlags := if f.isSNaN x || f.isSNaN y then fNV else 0
  let pick := fun (p : Nat) => let r := f.deliver fm p; (⟨r.bits, r.fl ||| nv⟩ : FRes)
  if a.isNaN || b.isNaN then
    if num && !b.isNaN then pick y
    else if num && !a.isNaN then pick x
    else (firstNaN f [(a, f.mw), (b, f.mw)]).getD f.invalid
  else if isMax then pick (if a.ltZ b then y else x)
  else pick (if b.ltZ a then y else x)

/-- Round to an integral value, keeping the sign (R105): pattern and whether it differs. -/
def Fmt.integral (f : Fmt) (fm : FMode) (rm : RM) (s : Bool) (m : Nat) (e : Int) : FRes × Bool :=
  let (n, exact) := scaleRound rm s m e
  (f.round { fm with rm := .rtz } false s n 0, !exact)

/-- An exact integer as a pattern (used for immediates and indexes, which every format holds). -/
def Fmt.ofInt (f : Fmt) (v : Int) : Nat :=
  (f.round ⟨.rne, false, false, false⟩ false (decide (v < 0)) v.natAbs 0).bits

/-- The value of an operand decoded after input flushing. -/
def Fmt.rd (f : Fmt) (fm : FMode) (x : Nat) : FVal := f.decode (f.readFlushed fm x)

end Sys2Proof.Machine
end

