-- ==== Sys2Proof/Config.lean ====
section
/-!
DEFINITION. What the Lirrirus fixes once for the device (R5, R7, R27) and the free values: values the
spec leaves open, which are opaque constants, so that no proof can rest on one.
-/

namespace Sys2Proof.Config

/-- Logical core numbers 0 to 143 (R6, R136). -/
def cores : Nat := 144

/-- Memory chiplets MC0 to MC3 (R5). -/
def chiplets : Nat := 4

/-- Issue schedulers per core and pipes per scheduler (R7). -/
def schedulers : Nat := 4

/-- Pipes per issue scheduler (R7). -/
def pipes : Nat := 32

/-- Resident slices per pipe (R7). -/
def slotsPerPipe : Nat := 8

/-- Cycles per beat (R7). -/
def beatCycles : Nat := 4

/-- Partitions of the device (R136). -/
def partitions : Nat := 8

/-! ## Free values -/

/-- The n-th choice of timing that the spec leaves open (R59, R283). [DESIGN CHOICE: log entry 5] -/
opaque choice : Nat → Nat

/-- Module power in W as measured at a cycle (R433). [DESIGN CHOICE: log entry 6] -/
opaque modulePower : Nat → BitVec 16

/-- The hottest die in degrees Celsius, signed, as measured at a cycle (R433). [DESIGN CHOICE: log entry 6] -/
opaque hottestDie : Nat → BitVec 16

/-- SHA-256 of the hub firmware (R432). [DESIGN CHOICE: log entry 6] -/
opaque firmwareHash : Nat → BitVec 8

/-- SHA-256 of the compute dies' microcode, die 0 first (R432). [DESIGN CHOICE: log entry 6] -/
opaque microcodeHash : Nat → BitVec 8

/-- Is a shadow buffer that holds so many bytes full (R390, R393)? [DESIGN CHOICE: log entry 67] -/
opaque shadowFull : Nat → Bool

/-- MGCERT: the DER certificate with the public key, by byte (R432, R433). [DESIGN CHOICE: log entry 6] -/
opaque certificate : Nat → BitVec 8

/-- The signature of the n-th attestation report, by byte (R432). [DESIGN CHOICE: log entry 6] -/
opaque signature : Nat → Nat → BitVec 8

end Sys2Proof.Config
end

