-- ==== Sys2Proof/Machine/State.lean ====
section
/-!
DEFINITION. The state of the Lirrirus as plain data, and the machine after reset. Records follow the
levels of R26 (lane, slice, gang, group, team, launch), then the memory system, the engines, the hub,
the host bridge, the fabric and the platform. Records that come and go carry a number `id` and stand
in lists; a list that the spec keeps in an order keeps that order.
-/

namespace Sys2Proof.Machine

/-- Why the machine stops. -/
inductive Fault where
  /-- Raised by `exec` of an instruction word when no stream is granted issue, or the stream granted
  does not exist: no hardware is in this case, since a word issues only from a stream (R35). Safe. -/
  | noStream
  deriving DecidableEq, Repr

/-- Why an instruction has no meaning. -/
inductive Refusal where
  /-- Raised by an arm of `exec` that is not modelled, by mnemonic. Safe. -/
  | notModelled (mnemonic : String)
  deriving DecidableEq, Repr

/-- Bytes by address, in the canonical form of Memory.wf: addresses rise, and no entry equals what an
unlisted address reads as, which is zero (R349 for scratchpad). [DESIGN CHOICE for the rest: log entry 4] -/
abbrev Memory := List Host.Cell

/-! ## Lanes, slices, gangs -/

/-- How one result of a fixed-latency or scoreboarded producer stands: the producer's static clock
and beat, the latency of its class (R58; 0 when no check is due), and the scoreboarded operation it
waits for (R59). -/
structure Timing where
  stat : Nat
  beat : Nat
  lat  : Nat
  pend : Option Nat
  deriving DecidableEq, Repr

/-- A lane (R47): named file, result queue with q0 first, moment registers, predicates, dead mark.
`nOld` and `mOld` hold what a register held before its last write (R60). -/
structure Lane where
  n    : List Word
  nOld : List Word
  q    : List Word
  m    : List Word
  mOld : List Word
  p    : BitVec 128
  dead : Bool
  deriving DecidableEq, Repr

/-- The guard of a slice (R38, R114): a predicate, perhaps inverted. Off is p0 not inverted. -/
structure Guard where
  pred : BitVec 7
  inv  : Bool
  deriving DecidableEq, Repr

/-- Hints attached and waiting for their consumer (R63); `bad` marks a repeated hint. -/
structure Hints where
  addr  : Option Word
  lo    : Option (BitVec 24)
  mid   : Option (BitVec 24)
  hi    : Option (BitVec 24)
  dst   : Option (BitVec 5)
  mods  : Option OpHmod
  sched : Option OpHsched
  bad   : Bool
  deriving DecidableEq, Repr

/-- A barrier's place: the core whose window of the team holds it, and the offset in that window. -/
structure BarLoc where
  core : Nat
  off  : Nat
  deriving DecidableEq, Repr

/-- What a stream waits for (R20); `run` is no wait. -/
inductive RunState where
  | run
  | sleep (due : Nat)                                                       -- R121: the beat it ends
  | regang (addr : Word)                                                   -- R33
  | barrier (loc : BarLoc) (own : Bool) (resume : Word)                    -- R249, R123
  | ended                                                                  -- its gang has, by EXIT or ROLE
  | retired                                                                -- R122: parted, by EXIT
  deriving DecidableEq, Repr

/-- A slice (R26, R31): its pipe, four lanes and the registers held per slice (R134). -/
structure Slice where
  pipe      : Nat
  lanes     : List Lane
  pc        : Word
  guard     : Guard
  hints     : Hints
  rstack    : List Word
  fmode     : Word
  fflags    : Word
  mcov      : Word
  mrho      : Word
  status    : Word
  stallchk  : Word
  trappc    : Word
  trapcause : Word
  trapinfo  : Word
  clock     : Nat
  nT        : List Timing
  qT        : List Timing
  mT        : List Timing
  opc       : List Nat
  run       : RunState
  readyAt   : Nat
  since     : Nat
  sysAcq    : Nat
  deriving DecidableEq, Repr

/-- What one park slot holds (R128 to R130): the values by lane, and the rows it takes from the
accumulator share and from the park reserve. -/
structure ParkSlot where
  spq     : Bool
  vals    : List (Nat × List Word)
  accRows : Nat
  rsvRows : Nat
  deriving DecidableEq, Repr

/-- How a gang ended its program. -/
inductive GangEnd where
  | exit
  | role (k : Nat)
  | retired                    -- every lane dead (R41): no live gang under R42 and R43
  deriving DecidableEq, Repr

/-- A gang (R26): uniform registers, timestamp, parking, region state (R360), RED epoch (R239). -/
structure Gang where
  id      : Nat
  group   : Nat
  idx     : Nat
  sched   : Nat
  slices  : List Slice
  unified : Bool
  ended   : Option GangEnd
  g       : List Word
  pts     : TS
  park    : List (Option ParkSlot)
  region  : Option (Word × Word)
  epoch   : Nat
  deriving DecidableEq, Repr

/-- A stream (R35): a unified gang, or one parted slice of it. -/
structure StreamRef where
  gang  : Nat
  slice : Option Nat
  deriving DecidableEq, Repr

/-- A scoreboarded operation in flight (R59): where its result goes, the values that have come in, the
flags it sets on return (R98), how many answers it still waits for, and what it holds: `block` holds
the stream's next word (R99), `acq` its later accesses (R221). `dead` lists lanes that consumed an
error; `regs` are further register writes (pairs and decide-once values). For a decide-once word, `won`
lists the cells it decided; where it waits at its place for other devices, `marks` and `st` are its
source fields and its ST. `xc` is the trap 0x07 that a floating-point word takes at its return, with the
enabled exceptions it raised and their lanes (R99). `rel` marks the release before an EMIT or LNCH (R369): it holds
its stream until it is performed, and stands, with `block` off, until that word issues. -/
structure Op where
  id     : Nat
  gang   : Nat
  slices : List Nat
  reg    : Option Nat
  mreg   : Option Nat
  push   : Bool
  vals   : List (Nat × Word)
  regs   : List (Nat × Nat × Word)
  fl     : List (Nat × BitVec 5)
  flags  : Bool
  cf     : Option (Nat × Nat)
  born   : Nat
  waits  : Nat
  due    : Nat
  block  : Bool
  acq    : Option Nat
  doc    : Bool
  dead   : List Nat
  fabric : List Nat
  won    : List Nat
  marks  : List (BitVec 7)
  st     : Nat
  xc     : Option (BitVec 5 × Word)
  rel    : Bool
  deriving DecidableEq, Repr

/-- A scratchpad access whose last pass is still to come (R448): the beat it is performed in, the operation of a load
with the further named register that it fills, and for each lane its place (window, offset, size) and the bytes it
stores. -/
structure ScratchPass where
  id     : Nat
  gang   : Nat
  slices : List Nat
  due    : Nat
  op     : Option Nat
  more   : Option Nat
  accs   : List (Nat × Nat × Nat × Nat × List Byte)
  deriving DecidableEq, Repr

/-! ## Groups and the engines -/

/-- One registered barrier of a group (R246). `exp` lists the gangs whose EXP is 1, `drop` the dropped
slices, `cnt` the lanes counted per slice, `out` the outstanding commands that credit it. -/
structure BarReg where
  loc  : BarLoc
  nsl  : Bool
  exp  : List Nat
  drop : List (Nat × Nat)
  cnt  : List ((Nat × Nat) × Nat)
  out  : Nat
  deriving DecidableEq, Repr

/-- An accumulator tile (R312, R313): shape, mode (0 FP32, 1 FP64, 2 moment), border, elements in
row order, border column and row, the in-array sums of the open chain with its step count and
promotion interval, and the sticky flags. -/
structure ZTile where
  m    : Nat
  n    : Nat
  mode : Nat
  bord : Bool
  rows : Nat
  el   : List Word
  zc   : List Word
  zr   : List Word
  sEl  : List Word
  sC   : List Word
  sR   : List Word
  t    : Nat
  pInt : Option Nat
  nv   : Bool
  ovf  : Bool
  ni   : Bool
  deriving DecidableEq, Repr

/-- A reservation (R310, R311), with the value of the NFMT register its format names. -/
structure Resv where
  base : Nat
  len  : Nat
  klen : Nat
  cols : Nat
  cst  : Nat
  bfmt : Nat
  nf   : Nat
  bl   : Nat
  rs   : Nat
  scf  : Nat
  sxo  : Int
  spn  : Nat
  moff : Nat
  deriving DecidableEq, Repr

/-- A Rake slot (R314, R315), with the NFMT value read by MXRAKE. -/
structure Rake where
  idn    : Bool
  afmt   : Nat
  nfv    : Word
  base   : Nat
  c      : Nat
  pitchx : Nat
  pitchy : Nat
  w      : Nat
  h      : Nat
  sw     : Nat
  sh     : Nat
  kw     : Nat
  kh     : Nat
  pl     : Nat
  pt     : Nat
  dw     : Nat
  dh     : Nat
  oh     : Nat
  ow     : Nat
  deriving DecidableEq, Repr

/-- A group (R26): identity, core, pool shares, engine state (R47), barrier registry (R246), the
control registers held per group (R134), and its ends; `halting`, `halted` and `haltAt` are of its debug halt: from the next beat on, in force, and its PTP time (R435). `chain` is the open chain's number with the tiles
its loops name and their promotion intervals (R322, R323). -/
structure Group where
  id      : Nat
  part    : Nat
  lid     : Nat
  asn     : Nat
  team    : Nat
  teamIdx : Nat
  idx     : Nat
  core    : Nat
  width   : Nat
  nGangs  : Nat
  perTeam : Nat
  mom     : Bool
  role    : Nat
  nRoles  : Nat
  cls     : Nat
  accRows : Nat
  regU    : Nat
  accU    : Nat
  obu     : Nat
  stage   : Option Nat
  nfmt    : List Word
  z       : List (Option ZTile)
  handles : List (Option Resv)
  rakes   : List (Option Rake)
  chain   : Option (Nat × List (Nat × Nat))
  ob      : Memory
  bars    : List BarReg
  trapvec : Word
  fatal   : Option Nat
  fatalLn : Nat
  errinj  : Word
  inj6    : Bool
  halting : Bool
  halted  : Bool
  haltAt  : Nat
  ending  : Bool
  audit   : Option Nat
  replay  : Option Nat
  deriving DecidableEq, Repr

/-- A scratchpad tile (R14, R185, R282): owned by the engines or by threads, swizzle code, claims. -/
structure Tile where
  engine : Bool
  swz    : BitVec 2
  wclaim : Option Nat
  rclaim : List Nat
  deriving DecidableEq, Repr

/-- The scratchpad window of a team on a core (R180): size and park reserve in tiles, bytes keyed by
bank slot (R184, R186), tiles. `partner` is the other core of a pair team. -/
structure Window where
  id      : Nat
  team    : Nat
  core    : Nat
  partner : Option Nat
  tiles   : List Tile
  rsv     : Nat
  mem     : Memory
  deriving DecidableEq, Repr

/-- A stream pattern record (R275). -/
structure PatRec where
  cnt : List Nat
  sst : List Int
  dst : List Int
  esz : Nat
  ssp : Bool
  dsp : Bool
  ind : Nat
  ixs : Nat
  bar : Nat
  ixo : Nat
  ish : Nat
  deriving DecidableEq, Repr

/-- The state of a queued engine command (R288); `parked` says whether its fault is resolved. -/
inductive CmdState where
  | queued
  | running
  | parked (resolved : Bool)
  deriving DecidableEq, Repr

/-- A stream command (R279): what it captured at issue, its state, cursor and landed elements. A copy
launch's command has no group and names its launch. `cancel` is the cause of an abort under way, `page`
the element and page of the fault that parked it (R286), `acks` elements whose write request is still to be
acknowledged, `far` elements whose source is read by a request, with its bytes once they have come (none of
them when they are poisoned). -/
structure SxCmd where
  id     : Nat
  core   : Nat
  group  : Option Nat
  part   : Nat
  asn    : Nat
  kind   : Nat
  pat    : PatRec
  sb     : Word
  db     : Word
  ef     : Bool
  et     : TS
  bar    : Option BarLoc
  prog   : Option Nat
  launch : Option Nat
  st     : CmdState
  cursor : Nat
  landed : List Nat
  cancel : Option Nat
  page   : Option (Nat × Nat)
  acks   : List (Nat × Nat)
  far    : List (Nat × Nat × Option (List Byte))
  deriving DecidableEq, Repr

/-- What a queued matrix command does, with everything it captured at issue (R317). -/
inductive MxKind where
  | ldb (src : Word) (ssp : Bool) (len dst : Nat) (ef : Bool)                         -- R321
  | chainBegin                                                                      -- R322
  | loop (steps p zt : Nat) (rs : Resv) (nfv : Word) (rk : Rake) (m n : Nat)
      (i0 ka0 kai j0 kb0 kbi : Nat)                                                   -- R323
  | chainEnd (tiles : List Nat)                                                       -- R328
  | zero (zt : Nat)                                                                 -- R329
  | drain (dst pitch : Nat) (clr : Bool) (dfmt zt : Nat)                              -- R330
  | chk (dst zt texp : Nat) (corr : Bool)                                             -- R332
  deriving DecidableEq, Repr

/-- A matrix command in the queue of its core (R317): `chain` numbers the chain it was issued in, `pos` is
its progress in k-steps, elements or bytes, `page` the page of a fault that holds it (R334). `gidx` is the index of
the gang that issued it, `born` the beat; `far` is as in SxCmd, of the bytes at `pos`. -/
structure MxCmd where
  id    : Nat
  core  : Nat
  group : Nat
  kind  : MxKind
  et    : TS
  bar   : Option BarLoc
  prog  : Option Nat
  chain : Nat
  st    : CmdState
  pos   : Nat
  page  : Option Nat
  gidx  : Nat
  born  : Nat
  far   : Option (Nat × Option (List Byte))
  deriving DecidableEq, Repr

/-- A forked engine program (R371): engine (true: matrix), start, next word index, captured uniforms,
barrier, timestamp, the words of its own engine queued, and whether it stopped reading. -/
structure Prog where
  id    : Nat
  group : Nat
  gang  : Nat
  mx    : Bool
  addr  : Word
  next  : Nat
  g     : List Word
  bar   : BarLoc
  et0   : TS
  et    : TS
  done  : Bool
  deriving DecidableEq, Repr

/-! ## The memory system -/

/-- A leaf as an attribute TLB or translation cache holds it (R190, R192). -/
structure Leaf where
  va   : Nat
  size : Nat
  pa   : Nat
  mode : Nat
  bias : Bool
  ilv  : Nat
  hq   : Nat
  x    : Bool
  w    : Bool
  rd   : Bool
  rdev : Nat
  deriving DecidableEq, Repr

/-- An attribute TLB entry of a core (R192), or with `core := 144 + k` a translation cache entry of
chiplet k (R193). -/
structure TlbEntry where
  core : Nat
  part : Nat
  asn  : Nat
  leaf : Leaf
  deriving DecidableEq, Repr

/-- The lease of an L1 copy: in logical time (R200), until a PTP time in 8 ns units (R422), until a PTP
time in ns under a host grant (R404), or none for a decided cell of a generation, with its DTS where its home is a
chiplet of this device (R267, R222). -/
inductive Lease where
  | lt (wts rts : TS)
  | remote (lend : Nat)
  | host (lend grantedNs : Nat)
  | decided (gen : Nat) (dts : Option TS)
  deriving DecidableEq, Repr

/-- An L1 copy (R188, R201) in a way of its set. With `core := 144` it is a decided copy of another device's cell in the
device's L2 (R267). -/
structure L1Line where
  core  : Nat
  part  : Nat
  asn   : Nat
  va    : Nat
  data  : List Byte
  lease : Lease
  born  : Nat
  keep  : Bool
  lru   : Nat
  way   : Nat
  deriving DecidableEq, Repr

/-- A line in L2 (R188, R200): its chiplet, canonical address (R189), physical line, leases, and what
the home keeps beside it: DTS and DPT of its two cells (R260); its way. -/
structure L2Line where
  chip  : Nat
  part  : Nat
  asn   : Nat
  va    : Nat
  pa    : Nat
  wts   : TS
  rts   : TS
  dirty : Bool
  pin   : Option Nat
  lru   : Nat
  d0    : Option (TS × Nat)
  d1    : Option (TS × Nat)
  frame : Nat
  deriving DecidableEq, Repr

/-- A tracking region of a chiplet's directory slice (R204 to R207): base and log2 size of a block of
physical lines, level, recorded line, cycle of the last renewal, write or split. -/
structure Region where
  chip  : Nat
  base  : Nat
  k     : Nat
  level : Nat
  last  : Option Nat
  touch : Nat
  deriving DecidableEq, Repr

/-- A chiplet's clocks (R200, R209): CC, CC at the start of the interval, MTS, sweeper position. -/
structure Chip where
  cc    : TS
  ccInt : TS
  mts   : TS
  sweep : Nat
  deriving DecidableEq, Repr

/-- A retention register (R197, R254). -/
structure RetReg where
  part   : Nat
  k      : Nat
  chip   : Nat
  asn    : Nat
  va     : Nat
  len    : Nat
  quota  : Nat
  deriving DecidableEq, Repr

/-- A store merge buffer entry (R214). -/
structure SmbEntry where
  id    : Nat
  core  : Nat
  part  : Nat
  asn   : Nat
  va    : Nat
  dev   : Nat
  mask  : BitVec 128
  data  : List Byte
  t     : TS
  gangs : List Nat
  born  : Nat
  ef    : Bool
  deriving DecidableEq, Repr

/-- A lazily released flag line that a core owns (R216). `before` is the first free record number after
the STO: buffer entries taken before it are to be drained first, and `t` gathers the timestamps their writes
have returned. The first record of a line in the list is its owner. -/
structure Owned where
  id     : Nat
  line   : Nat
  core   : Nat
  gangs  : List Nat
  part   : Nat
  asn    : Nat
  va     : Nat
  dev    : Nat
  mask   : BitVec 128
  data   : List Byte
  t      : TS
  before : Nat
  deriving DecidableEq, Repr

/-- What a request asks of its home. -/
inductive ReqKind where
  | read (lanes : List (Nat × Nat × Nat)) (cwts : Option TS) (fill acq ef keep : Bool)
      (mask : BitVec 128) (data : List Byte)
      -- lanes: lane, byte in the line, size; mask and data: bytes of the core's buffers at issue
  | write (mask : BitVec 128) (data : List Byte) (gangs : List Nat) (ef bad : Bool)
  | atom (lane off size f : Nat) (b c : Word) (fm : Nat) (again : Bool)
      -- again: its word has looked the line up already (R273)
  | red (entry : Nat)
  | prop (lane g b n : Nat) (val : List Byte) (wid time : Nat)
      -- expected generation, first value register and their number, value, identity, time (R263)
  | dread (lane g b n : Nat)                                    -- n = 0 for the identity form
  | recyc (lane g own : Nat)
  | dstat (lane : Nat)
  | pin (k len quota : Nat)
  | unpin (k : Nat)
  | flag (owned : Nat) (mask : BitVec 128) (data : List Byte) (gangs : List Nat)
  | own                                                          -- brings in a line that a core now owns (R216)
  | rep (mask : BitVec 128) (data : List Byte) (gangs : List Nat) (ef bad : Bool)
  | report (data : List Byte)                                     -- a line of the attestation report (R432)
  | fetch (cmd elem off n : Nat) (ef : Bool)                       -- an engine's read that travels (R281)
  deriving DecidableEq, Repr

/-- What holds a request. -/
inductive Hold where
  | clock                 -- R209
  | recall (owned : Nat)  -- R216, R447
  | host (line : Nat) (inv : Bool)  -- R410: behind BISnpInv, or BISnpData
  | lease (ns : Nat)      -- R423
  | fault                 -- R194
  | fabric                -- R419
  | bridge                -- R404, R405
  | order (req : Nat)     -- R226: behind an earlier access of its gang to the line
  | granule (g : Nat)     -- R404: for a granule of host memory that a walk reads
  deriving DecidableEq, Repr

/-- What the device last answered a party outside it. -/
inductive Reply where
  | none
  | data (bytes : List Byte) (shared excl : Bool)
  | poisoned
  | unsupported
  | snoop (hit : Bool) (bytes : Option (List Byte))
  | remote (bytes : List Byte) (lend : Option Nat)
  | value (v : Word)
  | acked
  | refused (cause : Nat)
  | atomic (old : Word) (flags : BitVec 5)
  | doc (sts gen : Nat) (val : List Byte) (wid : Nat) (dts : TS)
  deriving DecidableEq, Repr

/-- A request on its way to, or held at, its home (R201, R214, R236, R263); once served it is on its way
back with its acknowledgement. `src` is the other device that sent it and the number of its word there, `ent`
the buffer entry whose flush it is (else its own number), `wts` the timestamp its acknowledgement brings; `again` says
that an earlier request of its word makes the word's one lookup of the line (R273). `pos` is its place in the issue order
of its core (R226): its own number, but for a signal that of the WSIG's record, and for a flag that of its last STO. `reply`
is what another device is told with the acknowledgement of a write at the bridge (R405). -/
structure Req where
  id   : Nat
  kind : ReqKind
  core : Nat
  gang : Nat
  op   : Option Nat
  part : Nat
  asn  : Nat
  va   : Nat
  dev  : Nat
  t    : TS
  held : Option Hold
  served : Bool
  src  : Option (Nat × Nat)
  ent  : Nat
  wts  : Option TS
  again : Bool
  pos  : Nat
  reply : Reply
  deriving DecidableEq, Repr

/-- An atomic buffer entry (R238). `drain` is its request once its drain began. -/
structure RedEntry where
  id    : Nat
  core  : Nat
  sched : Nat
  gang  : Nat
  group : Nat
  gidx  : Nat
  f     : Nat
  sz    : Nat
  part  : Nat
  asn   : Nat
  addr  : Word
  value : Word
  epoch : Nat
  ts    : TS
  drain : Option Nat
  deriving DecidableEq, Repr

/-- An arrival of a BARR word that follows its stream's earlier accesses (R247): the barrier, what BARRX adds to
XB, and the lanes counted in each issuing slice, named by gang index and slice. -/
structure Arrival where
  loc : BarLoc
  add : Nat
  cnt : List ((Nat × Nat) × Nat)
  deriving DecidableEq, Repr

/-- What waits for the acknowledgement of records `waits` (requests, operations, owned flags, RED
entries): the signal writes of a WSIG (R242), the flag write of a lazy release (R216), the return of an
operation (FENCE, R224), an arrival on a barrier (R247). `t` gathers the returned timestamps; `rel` marks the flag writes of a release (STO),
as against a WSIG's (R226). `done` lists the lines, by device and address, that its signals have gone to (R273). -/
structure Wsig where
  id    : Nat
  gang  : Nat
  core  : Nat
  part  : Nat
  asn   : Nat
  add   : Bool
  size  : Nat
  sigs  : List (Nat × Word × Word)
  t     : TS
  waits : List Nat
  flag  : Option Nat
  op    : Option Nat
  rel   : Bool
  arr   : Option Arrival
  done  : List (Nat × Nat)
  deriving DecidableEq, Repr

/-- Damage in protected storage (R379, R380): a correctable error with its bit (of HBM4 its device), or an
uncorrectable codeword with its good-byte mask. -/
structure Damage where
  loc     : Storage
  fixable : Bool
  good    : BitVec 8
  bit     : Nat
  deriving DecidableEq, Repr

/-! ## Launches -/

/-- A role of a launch (R347). -/
structure Role where
  entry : Word
  regU  : Nat
  accU  : Nat
  cls   : Nat
  deriving DecidableEq, Repr

/-- A continuation record in a stage's queue (R364): its words, the timestamp that its emitter's stores had
reached (R369), and the cycle it came in. -/
structure StageRec where
  words : List Word
  pts   : TS
  came  : Nat
  deriving DecidableEq, Repr

/-- A stage of a launch (R363) with its queue of records, its allowance, the stages its groups have emitted into
in this interval and in the last one (R365). `tail` counts the records ever appended. -/
structure Stage where
  qbase : Nat
  qcap  : Nat
  role  : Nat
  minc  : Nat
  maxc  : Nat
  recs  : List StageRec
  allow : Nat
  outs  : List Nat
  fed   : List Nat
  tail  : Nat
  deriving DecidableEq, Repr

/-- What a gang of a discarded team restarts with (R361): its group's index, its own index,
how it had ended if it had, the region entry and restart word, and its dead lanes. -/
structure Restart where
  grp   : Nat
  gang  : Nat
  ended : Option GangEnd
  entry : Word
  word  : Word
  dead  : List Nat
  deriving DecidableEq, Repr

/-- A team waiting for placement: its index, for a restarted team what its gangs restart with (R361), for a
gathered team its stage, records and the timestamp its gang starts past (R364, R369). -/
structure WaitTeam where
  idx     : Nat
  restart : List Restart
  stage   : Option Nat
  recs    : List (List Word)
  pts     : Option TS
  deriving DecidableEq, Repr

/-- The states of a launch (R351). -/
inductive LaunchState where
  | waiting | ready | running | placed
  deriving DecidableEq, Repr

/-- An accepted, incomplete launch (R343, R346) with what its acceptance captured. `fault` is the CAUSE its
completion carries, `block` the copy control block of a copy launch, `made` how many teams were gathered,
`pts` the latest timestamp of its writes, `done` the request of its completion word. `undo` holds the bytes
that memory held before stores made during the launch (R46). -/
structure Launch where
  part   : Nat
  lid    : Nat
  asn    : Nat
  order  : Nat
  queue  : Nat
  kaddr  : Word
  args   : List Word
  roles  : List Role
  nRoles : Nat
  stages : List Stage
  caddr  : Word
  cval   : Nat
  nteams : Nat
  pword  : BitVec 32
  kind   : Nat
  cls    : Nat
  aud    : Bool
  mom    : Bool
  width  : Nat
  gangs  : Nat
  pair   : Bool
  groups : Nat
  obu    : Nat
  intr   : Bool
  stk    : Bool
  vec    : Nat
  stkb   : Word
  stks   : Nat
  deps   : List Nat
  awin   : List (Nat × Nat × Bool)
  next   : Nat
  wait   : List WaitTeam
  st     : LaunchState
  fault  : Option Nat
  rej    : Bool
  copied : Bool
  block  : List Byte
  made   : Nat
  pts    : TS
  done   : Option Nat
  undo   : List Host.Cell
  deriving DecidableEq, Repr

/-- A resident team (R29, R359): its cores and, when it is marked for pre-emption, the PTP time of the
mark; `saved` is what its gangs restart with once it is discarded (R361). A gathered team keeps its stage and
records. -/
structure Team where
  id     : Nat
  part   : Nat
  lid    : Nat
  idx    : Nat
  cores  : List Nat
  mark   : Option Nat
  saved  : List Restart
  stage  : Option Nat
  recs   : List (List Word)
  pts    : Option TS
  deriving DecidableEq, Repr

/-- A captured persistent copy block (R350). -/
structure CopyBlock where
  part : Nat
  asn  : Nat
  addr : Word
  data : List Byte
  deriving DecidableEq, Repr

/-- An audit (R388 to R393): its group's identity, what it ran, and the shadow buffers. -/
structure Audit where
  id     : Nat
  part   : Nat
  lid    : Nat
  team   : Nat
  group  : Nat
  core   : Nat
  cores  : List Nat
  stage  : Nat
  launch : Option Launch
  s0     : Memory
  s1     : Memory
  s2     : Memory
  bad    : Bool
  deriving DecidableEq, Repr

/-! ## The host bridge, partitions, fabric and platform -/

/-- A memory window of a partition (R401) with the stamp SS of its ingest stream (R415). -/
structure MemWin where
  wva  : Word
  wlen : Word
  wctl : Word
  fca  : Word
  ss   : TS
  deriving DecidableEq, Repr

/-- A launch queue (R341, R402). -/
structure LQueue where
  qcfg : Word
  qcia : Word
  wi   : BitVec 32
  ci   : BitVec 32
  deriving DecidableEq, Repr

/-- A partition: resource registers (R400), operating registers (R402), fault queue (R194), RETSTAT
(R198), the address space and first page of the bias flip that runs (R412), the device queue's slots (R341), audit counter (R389), MSI-X table in words of 64 bits and pending bits (R399),
vectors whose message has been sent (R348). -/
structure Partition where
  pcfg    : Word
  l2sh    : Word
  cores   : List Word
  rst     : Bool
  rej     : Bool
  wins    : List MemWin
  ptroot  : List Word
  queues  : List LQueue
  devq    : List (Nat × List Byte × Nat)
  logcfg  : Word
  logNext : BitVec 32
  logDrop : BitVec 32
  logci   : BitVec 32
  bfa     : Word
  bfc     : Word
  flip    : Option (Nat × Nat)
  idrop   : Word
  faultq  : List (Nat × Nat)
  retstat : List Word
  clkrej  : Bool
  ac      : Nat
  msixTab : List Word
  pba     : Word
  msix    : List Nat
  deriving DecidableEq, Repr

/-- A host granule that the bridge holds or has asked for (R404): its line of host memory, state, latest
lease end in ns; `want` is a request sent to the host (for ownership or not), `evicting` a DirtyEvict whose
data has not been pulled (R408), `part` the partition that wrote it last. Its bytes stand in host memory's region of `mem`. -/
structure Granule where
  addr     : Nat
  part     : Nat
  st       : Option GranuleState
  le       : Nat
  want     : Option Bool
  evicting : Bool
  deriving DecidableEq, Repr

/-- A snoop filter entry (R409): the granule's physical line, E or S, the back-invalidation that is out:
BISnpInv (true) or BISnpData, and the address under which the host read or wrote it last. -/
structure SnoopEnt where
  line : Nat
  excl : Bool
  bi   : Option Bool
  part : Nat
  asn  : Nat
  va   : Nat
  deriving DecidableEq, Repr

/-- A piece of an ingest stream, or its doorbell (R415, R416), with the number of its TLP. `req` is a doorbell's
request that is on its way. -/
structure IngPiece where
  tlp  : Nat
  asn  : Nat
  va   : Nat
  off  : Nat
  data : List Byte
  bad  : Bool
  bell : Bool
  req  : Option Nat
  deriving DecidableEq, Repr

/-- The ingest stream of a window (R414): pieces not yet acknowledged. -/
structure IngStream where
  part   : Nat
  win    : Nat
  pieces : List IngPiece
  deriving DecidableEq, Repr

/-- An update of a replicated line (R424, R425); `ef` and `bad` are as its store had them. -/
structure RepUpd where
  seq    : Nat
  va     : Nat
  mask   : BitVec 128
  data   : List Byte
  src    : Option Nat
  locked : List Nat
  acked  : List Nat
  sent   : Bool
  ef     : Bool
  bad    : Bool
  deriving DecidableEq, Repr

/-- A replica set (R424): its devices with the home first, and at its home hub sequence, mode and updates in flight;
elsewhere `upds` are the updates that have come in. `locks` are lines locked on this device's replica, `applied` the
last update applied here. -/
structure RepSet where
  id      : Nat
  part    : Nat
  asn     : Nat
  va      : Nat
  size    : Nat
  devs    : List Nat
  seq     : Nat
  applied : Nat
  lock    : Bool
  toLock  : Option Bool
  upds    : List RepUpd
  locks   : List Nat
  dropped : List Nat
  deriving DecidableEq, Repr

/-! ## The whole machine -/

/-- A stream's turn in the issue selection of one beat (R35). -/
structure Turn where
  core  : Nat
  sched : Nat
  ref   : StreamRef
  deriving DecidableEq, Repr

/-- The state of one Lirrirus. Records with an `id` take it from `fresh`. `agenda` lists the steps of
agents that have arrived and are performed next; `timers` and `nsTimers` the steps due at a cycle or
at a PTP time; `turns`, `usedPipes` and `granted` are the issue selection of the present beat; `cur` is
the stream whose word is being performed, and `held` says that its word was held at issue. `choices`
counts the choices of timing that the spec leaves open: the n-th is the free value Config.choice n. `sxRr` names the
group that each core's stream engine served last (R280), `mxRr` the matrix engine (R326). `cells` holds the DPT of decided cells whose home is another device or the bridge (R260), `farWon` the cells
decided by a word of another device, with the device and the word (R264); `lwaits` lines whose write waits for
remote leases to lapse, with the PTP time it waits for (R423). -/
structure State where
  -- time and issue
  cycle     : Nat
  ptp       : Nat
  ptpRem    : Nat
  mhz       : Nat
  synced    : Bool
  slew      : Int
  cur       : Option StreamRef
  held      : Bool
  turns     : List Turn
  usedPipes : List (Nat × Nat × Nat)
  granted   : List (Nat × Nat)
  rr        : Nat
  agenda    : List Instr
  timers    : List (Nat × Instr)
  nsTimers  : List (Nat × Instr)
  choices   : Nat
  fresh     : Nat
  -- work resident on the cores
  gangs     : List Gang
  groups    : List Group
  teams     : List Team
  windows   : List Window
  ops       : List Op
  bankFree  : List (Nat × Nat)
  passes    : List ScratchPass
  -- engines
  sx        : List SxCmd
  mx        : List MxCmd
  progs     : List Prog
  sxRr      : List (Nat × Nat)
  mxRr      : List (Nat × Nat)
  -- memory
  mem       : Memory
  bad       : List Damage
  icache    : List (Nat × Nat × Nat × Nat)
  tlb       : List TlbEntry
  l1        : List L1Line
  smb       : List SmbEntry
  owned     : List Owned
  reds      : List RedEntry
  wsigs     : List Wsig
  reqs      : List Req
  chips     : List Chip
  l2        : List L2Line
  regions   : List Region
  rles      : List (Nat × Nat)
  lwaits    : List (Nat × Nat)
  cells     : List (Nat × Nat)
  farWon    : List (Nat × Nat × Nat)
  stamp     : Nat
  rets      : List RetReg
  dclk      : TS
  floors    : List TS
  dclkSeen  : List TS
  offFrames : List (Nat × Nat × Nat)
  offL1     : List (Nat × Nat × Nat)
  corrected : List (Nat × Nat × Nat × Nat)
  retired   : List (Nat × Nat)
  drains    : List (Nat × Nat × Nat)
  -- launch engine
  parts     : List Partition
  launches  : List Launch
  accepted  : Nat
  lastDie   : Nat
  copies    : List CopyBlock
  audits    : List Audit
  -- host bridge
  cxl       : Nat
  granules  : List Granule
  snoops    : List SnoopEnt
  ingest    : List IngStream
  reply     : Reply
  -- fabric
  devnum    : Nat
  ports     : Bool
  joined    : Bool
  sets      : List RepSet
  -- platform
  harvest   : List (BitVec 36)
  sigOk     : Bool
  stage     : Nat
  bootFail  : Bool
  pwrcap    : Nat
  pwr       : Nat
  tmax      : Nat
  thr       : Nat
  attctl    : Word
  attnonce  : Word
  attCount  : Nat
  dbgctl    : Word
  dbgsel    : Word
  deriving DecidableEq, Repr

/-- A partition after a device reset (R400, R402): WDOG reads 100,000; the vectors of the MSI-X table are masked, as
PCIe has them; everything else 0. [DESIGN CHOICE for what R400 and R402 do not state: log entry 2; PRESUMED for the
masks: log entry 71] -/
def Partition.reset : Partition where
  pcfg := 100000#64 <<< 32
  l2sh := 0
  cores := [0, 0, 0]
  rst := false
  rej := false
  wins := List.replicate 16 ⟨0, 0, 0, 0, 0⟩
  ptroot := List.replicate 16 0
  queues := List.replicate 16 ⟨0, 0, 0, 0⟩
  devq := []
  logcfg := 0
  logNext := 0
  logDrop := 0
  logci := 0
  bfa := 0
  bfc := 0
  flip := none
  idrop := 0
  faultq := []
  retstat := List.replicate 8 0
  clkrej := false
  ac := 0
  msixTab := (List.replicate 64 [0, 0x100000000#64]).flatten
  pba := 0
  msix := []

/-- The machine right after reset: the boot ROM's steps are still to come, BOOTST.STAGE reading 0 (R430), logical time as R213 lays
down, every partition register as R400 and R402 give it, PWRCAP 2,500 W (R433), the arithmetic clock at
1,750 MHz (R7), and nothing resident, cached, queued or stored. [DESIGN CHOICE: log entries 1, 2, 4, 9, 10] -/
def State.reset : State where
  cycle := 0
  ptp := 0
  ptpRem := 0
  mhz := 1750
  synced := false
  slew := 0
  cur := none
  held := false
  turns := []
  usedPipes := []
  granted := []
  rr := 0
  agenda := [.deviceReset]
  timers := []
  nsTimers := []
  choices := 0
  fresh := 1
  gangs := []
  groups := []
  teams := []
  windows := []
  ops := []
  bankFree := []
  passes := []
  sx := []
  mx := []
  progs := []
  sxRr := []
  mxRr := []
  mem := []
  bad := []
  icache := []
  tlb := []
  l1 := []
  smb := []
  owned := []
  reds := []
  wsigs := []
  reqs := []
  chips := List.replicate 4 ⟨0, 0, 0, 0⟩
  l2 := []
  regions := []
  rles := []
  lwaits := []
  cells := []
  farWon := []
  stamp := 1
  rets := []
  dclk := 0
  floors := List.replicate 144 0xC00000#24
  dclkSeen := List.replicate 144 0
  offFrames := []
  offL1 := []
  corrected := []
  retired := []
  drains := []
  parts := List.replicate 8 Partition.reset
  launches := []
  accepted := 0
  lastDie := 3
  copies := []
  audits := []
  cxl := 3
  granules := []
  snoops := []
  ingest := []
  reply := .none
  devnum := 0
  ports := false
  joined := false
  sets := []
  harvest := List.replicate 4 0xFFFFFFFFF#36
  sigOk := true
  stage := 0
  bootFail := false
  pwrcap := 2500
  pwr := 0
  tmax := 0
  thr := 0
  attctl := 0
  attnonce := 0
  attCount := 0
  dbgctl := 0
  dbgsel := 0

end Sys2Proof.Machine
end

