-- ==== Sys2Proof/Machine/Ops.lean ====
section
/-!
DEFINITION. The named operations over the state: memory, records by number, streams and their lanes,
time and the agenda, taking a precise fault (R138), the return from one, and group-fatal ends (R72).
-/

namespace Sys2Proof.Machine

/-! ## Memory -/

/-- The byte at an address; an unlisted address reads 0. -/
def Memory.get : Memory → Nat → Byte
  | [], _ => 0
  | (k, b) :: r, a => if a = k then b else if a < k then 0 else Memory.get r a

/-- Store a byte, keeping the canonical form: a zero removes the entry. -/
def Memory.set : Memory → Nat → Byte → Memory
  | [], a, v => if v = 0 then [] else [(a, v)]
  | (k, b) :: r, a, v =>
    if a < k then (if v = 0 then (k, b) :: r else (a, v) :: (k, b) :: r)
    else if a = k then (if v = 0 then r else (a, v) :: r)
    else (k, b) :: Memory.set r a v

/-- The canonical form from address `lo` up: addresses rise strictly and no entry is zero. -/
def Memory.wfFrom : Nat → Memory → Bool
  | _, [] => true
  | lo, (k, b) :: r => decide (lo ≤ k) && (b != 0) && Memory.wfFrom (k + 1) r

/-- The canonical form of a memory. [DESIGN CHOICE: log entry 4] -/
def Memory.wf (m : Memory) : Bool := Memory.wfFrom 0 m

/-- `n` bytes from an address up. [DESIGN CHOICE: log entry 4] -/
def Memory.read (m : Memory) (a n : Nat) : List Byte := (rangeFrom a n).map m.get

/-- Store bytes from an address up. [DESIGN CHOICE: log entry 4] -/
def Memory.write : Memory → Nat → List Byte → Memory
  | m, _, [] => m
  | m, a, b :: bs => Memory.write (m.set a b) (a + 1) bs

/-- The unsigned little-endian value of bytes. -/
def leNat : List Byte → Nat
  | [] => 0
  | b :: bs => b.toNat + 256 * leNat bs

/-- The `n` little-endian bytes of a value. -/
def leBytes : Nat → Nat → List Byte
  | 0, _ => []
  | n + 1, v => BitVec.ofNat 8 v :: leBytes n (v / 256)

/-- A register word of little-endian bytes, zero-extended (R230). -/
def leWord (bs : List Byte) : Word := BitVec.ofNat 64 (leNat bs)

/-- The signed value of the low `w` bits. -/
def sval (w v : Nat) : Int := if v % 2 ^ w < 2 ^ (w - 1) then (v % 2 ^ w : Nat) else (v % 2 ^ w : Nat) - (2 ^ w : Nat)

/-- A field of a word: `n` bits from bit `lo`. -/
def fld (x : Word) (lo n : Nat) : Nat := (x.toNat >>> lo) % 2 ^ n

/-! ## Timestamps (R199) -/

/-- a precedes b: (b − a) mod 2^24 lies in [1, 2^23). -/
def TS.precedes (a b : TS) : Bool := b - a != 0 && (b - a).toNat < 2 ^ 23

/-- The later of two timestamps. -/
def smax (a b : TS) : TS := if TS.precedes a b then b else a

/-- a = b or a precedes b. -/
def TS.le (a b : TS) : Bool := a == b || TS.precedes a b

/-! ## Records by number -/

def State.gang? (s : State) (id : Nat) : Option Gang := s.gangs.find? (·.id == id)
def State.group? (s : State) (id : Nat) : Option Group := s.groups.find? (·.id == id)
def State.team? (s : State) (id : Nat) : Option Team := s.teams.find? (·.id == id)
def State.req? (s : State) (id : Nat) : Option Req := s.reqs.find? (·.id == id)
def State.op? (s : State) (id : Nat) : Option Op := s.ops.find? (·.id == id)
def State.sx? (s : State) (id : Nat) : Option SxCmd := s.sx.find? (·.id == id)
def State.mx? (s : State) (id : Nat) : Option MxCmd := s.mx.find? (·.id == id)
def State.prog? (s : State) (id : Nat) : Option Prog := s.progs.find? (·.id == id)
def State.launch? (s : State) (part lid : Nat) : Option Launch :=
  s.launches.find? fun l => l.part == part && l.lid == lid
def State.part (s : State) (p : Nat) : Partition := at' Partition.reset s.parts p
def State.chip (s : State) (k : Nat) : Chip := at' ⟨0, 0, 0, 0⟩ s.chips k
def State.floor (s : State) (c : Nat) : TS := at' 0 s.floors c

def State.modGang (s : State) (id : Nat) (f : Gang → Gang) : State :=
  { s with gangs := s.gangs.map fun g => if g.id = id then f g else g }
def State.modGroup (s : State) (id : Nat) (f : Group → Group) : State :=
  { s with groups := s.groups.map fun g => if g.id = id then f g else g }
def State.modOp (s : State) (id : Nat) (f : Op → Op) : State :=
  { s with ops := s.ops.map fun o => if o.id = id then f o else o }
def State.modReq (s : State) (id : Nat) (f : Req → Req) : State :=
  { s with reqs := s.reqs.map fun r => if r.id = id then f r else r }
def State.modSx (s : State) (id : Nat) (f : SxCmd → SxCmd) : State :=
  { s with sx := s.sx.map fun c => if c.id = id then f c else c }
def State.modMx (s : State) (id : Nat) (f : MxCmd → MxCmd) : State :=
  { s with mx := s.mx.map fun c => if c.id = id then f c else c }
def State.modProg (s : State) (id : Nat) (f : Prog → Prog) : State :=
  { s with progs := s.progs.map fun c => if c.id = id then f c else c }
def State.modPart (s : State) (p : Nat) (f : Partition → Partition) : State :=
  { s with parts := modAt f p s.parts }
def State.modChip (s : State) (k : Nat) (f : Chip → Chip) : State :=
  { s with chips := modAt f k s.chips }
def State.modLaunch (s : State) (part lid : Nat) (f : Launch → Launch) : State :=
  { s with launches := s.launches.map fun l => if l.part == part && l.lid == lid then f l else l }
def State.modWindow (s : State) (id : Nat) (f : Window → Window) : State :=
  { s with windows := s.windows.map fun w => if w.id = id then f w else w }

/-- The gangs of a group, in ascending gang index. -/
def State.gangsOf (s : State) (grp : Nat) : List Gang := s.gangs.filter (·.group == grp)

/-! ## Time and the agenda -/

/-- The beat of a cycle (R7). -/
def State.beat (s : State) : Nat := s.cycle / 4

/-- A step that has arrived is performed after those before it. [DESIGN CHOICE: log entry 3] -/
def State.post (s : State) (i : Instr) : State := { s with agenda := s.agenda ++ [i] }

/-- Post a step unless it is posted already. -/
def State.postOnce (s : State) (i : Instr) : State := if s.agenda.contains i then s else s.post i

/-- A step falls due at a cycle. [DESIGN CHOICE: log entry 3] -/
def State.postAt (s : State) (cycle : Nat) (i : Instr) : State :=
  { s with timers := s.timers ++ [(cycle, i)] }

/-- A step falls due when PTPNOW reaches a time. [DESIGN CHOICE: log entry 3] -/
def State.postNs (s : State) (ns : Nat) (i : Instr) : State :=
  { s with nsTimers := s.nsTimers ++ [(ns, i)] }

/-- The next choice of timing the spec leaves open, one of 0 to n: a free value. [DESIGN CHOICE: log entry 5] -/
def State.choose (s : State) (n : Nat) : Nat × State :=
  (Config.choice s.choices % (n + 1), { s with choices := s.choices + 1 })

/-! ## Streams and lanes -/

/-- A slice is live while a lane of it is not dead (R31) and it has not ended by EXIT or ROLE (R122). -/
def Slice.live (sl : Slice) : Bool := sl.run != .ended && sl.run != .retired && sl.lanes.any (!·.dead)

/-- The slices of a gang that are live, by index. -/
def Gang.liveSlices (g : Gang) : List Nat :=
  (imap (fun i sl => if Slice.live sl then [i] else []) 0 g.slices).flatten

/-- A lane's predicate; p0 reads true (R47). -/
def Lane.pred (l : Lane) (i : Nat) : Bool := i == 0 || l.p.getLsbD i

/-- Write a predicate; a write to p0 is discarded (R47). -/
def Lane.setPred (l : Lane) (i : Nat) (b : Bool) : Lane :=
  if i = 0 ∨ 128 ≤ i then l
  else { l with p := if b then l.p ||| (1#128 <<< i) else l.p &&& ~~~(1#128 <<< i) }

/-- active(s) by position (R38): not dead, guard true. -/
def Slice.active (sl : Slice) (j : Nat) : Bool :=
  match sl.lanes[j]? with
  | none => false
  | some l => !l.dead && (l.pred sl.guard.pred.toNat != sl.guard.inv)

/-- An issuing stream: its gang, group and issuing slices. -/
structure Cx where
  g   : Gang
  grp : Group
  ss  : List Nat
  deriving DecidableEq, Repr

/-- The stream a reference names (R35): every live slice of a unified gang, or one slice. -/
def State.streamOf (s : State) (r : StreamRef) : Option Cx :=
  match s.gang? r.gang with
  | none => none
  | some g =>
    match s.group? g.group with
    | none => none
    | some grp =>
      match r.slice with
      | none => if g.unified && !g.liveSlices.isEmpty then some ⟨g, grp, g.liveSlices⟩ else none
      | some k =>
        if !g.unified && g.liveSlices.contains k then some ⟨g, grp, [k]⟩ else none

/-- The stream whose word is being performed. -/
def State.stream? (s : State) : Option Cx := s.cur.bind s.streamOf

/-- The issuing slice of index `i`. -/
def Gang.slice? (g : Gang) (i : Nat) : Option Slice := g.slices[i]?

/-- The lowest-numbered issuing slice's record. -/
def Cx.first? (x : Cx) : Option Slice := x.ss.head?.bind x.g.slice?

/-- The program counter of the stream. -/
def Cx.pc (x : Cx) : Word := match x.first? with | some sl => sl.pc | none => 0

/-- The hints attached in the stream. -/
def Cx.hints (x : Cx) : Hints :=
  match x.first? with | some sl => sl.hints | none => ⟨none, none, none, none, none, none, none, false⟩

/-- The lanes of active(s) of the issuing stream, ascending (R27). -/
def Cx.actives (x : Cx) : List Nat :=
  (x.ss.map fun i => match x.g.slice? i with
    | none => []
    | some sl => (rangeFrom 0 4).filterMap fun j => if sl.active j then some (4 * i + j) else none).flatten

/-- A lane of the gang by number. -/
def Gang.lane? (g : Gang) (L : Nat) : Option Lane := (g.slice? (L / 4)).bind fun sl => sl.lanes[L % 4]?

/-- Update the slices of a stream. -/
def Cx.mapSlices (x : Cx) (f : Nat → Slice → Slice) : Gang :=
  { x.g with slices := imap (fun i sl => if x.ss.contains i then f i sl else sl) 0 x.g.slices }

/-- Update a lane of a slice by position. -/
def Slice.mapLanes (sl : Slice) (f : Nat → Lane → Lane) : Slice :=
  { sl with lanes := imap f 0 sl.lanes }

def Hints.none : Hints := ⟨.none, .none, .none, .none, .none, .none, .none, false⟩

/-- Put a gang back. -/
def State.setGang (s : State) (g : Gang) : State := s.modGang g.id fun _ => g

/-- A word has issued with `st` extra beats (R57): hints are spent, the static clock moves, and the
stream may issue again after `wait` further beats. The slices go to the addresses `pcOf` gives. -/
def Cx.issued (x : Cx) (s : State) (st wait : Nat) (pcOf : Nat → Slice → Word) : Gang :=
  x.mapSlices fun i sl => { sl with
    pc := pcOf i sl, hints := Hints.none, clock := sl.clock + 1 + st,
    readyAt := s.beat + 1 + max st wait, since := s.beat + 1 + max st wait }

/-- The common case: every slice goes on at PC + 4 (R46). -/
def Cx.next (x : Cx) (s : State) (st : Nat) : Gang := x.issued s st 0 fun _ sl => sl.pc + 4

/-- The stream may not issue in this beat; it is ready again in the next (R35). -/
def stall (s : State) (x : Cx) : State :=
  s.setGang (x.mapSlices fun _ sl => { sl with readyAt := s.beat + 1, since := s.beat + 1 })

/-- Hold the stream at issue: its word is tried again in the next beat (R20, R35). -/
def hold (s : State) (x : Cx) : State := { stall s x with held := true }

/-- An operation of the stream holds its next word, whatever that word is (R99, R173, R224). -/
def Cx.blocked (x : Cx) (s : State) : Bool :=
  s.ops.any fun o => o.block && o.gang == x.g.id && o.slices.any (x.ss.contains ·)

/-! ## Faults -/

/-- A group-fatal fault (R72): every gang of the group stops; its end follows (GROUP_END). The first
cause stands, with the lowest-numbered faulting lane for the log (R384). [DEDUCED: log entry 83] -/
def groupFatal (s : State) (grp cause lane : Nat) : State :=
  match s.group? grp with
  | none => s
  | some G =>
    if G.fatal.isSome then s
    else (s.modGroup grp fun G => { G with fatal := some cause, fatalLn := lane }).post (.groupEnd grp)

/-- The lowest lane of a mask. -/
def lowLane (m : Word) : Nat := ((rangeFrom 0 64).find? fun i => m.getLsbD i).getD 0

/-- TRAPCAUSE as trap entry writes it (R137). -/
def trapCauseWord (cause code : Nat) (bk : Bool) : Word :=
  1#64 <<< 63 ||| (BitVec.ofNat 64 (code % 65536) <<< 16) ||| (if bk then 0x100#64 else 0) |||
    BitVec.ofNat 64 (cause % 256)

/-- TRAPCAUSE.H (R137). -/
def Slice.inHandler (sl : Slice) : Bool := sl.trapcause.getLsbD 63

def State.modAudit (s : State) (id : Nat) (f : Audit → Audit) : State :=
  { s with audits := s.audits.map fun a => if a.id = id then f a else a }

/-- A replay meets a fault: its audit is to be abandoned (R393). -/
def State.metFault (s : State) (G : Group) : State :=
  match G.replay with
  | some id => s.modAudit id fun a => { a with bad := true }
  | none => s

/-- Take a precise fault of the stream (R138): with no handler, or inside one, it is group-fatal;
otherwise TRAPPC, TRAPCAUSE and TRAPINFO are written in each slice of the stream and PC := TRAPVEC.
`ret` is the address TRAPPC takes when it is not the word's or its first hint's. [DEDUCED: log entry 87] -/
def takeTrap (s : State) (x : Cx) (cause code : Nat) (bk : Bool) (lanes : Word) (ret : Option Word) :
    State :=
  let s := s.metFault x.grp
  if x.grp.trapvec = 0 ∨ x.ss.any (fun i => match x.g.slice? i with
      | some sl => sl.inHandler | none => false) then
    groupFatal s x.grp.id cause (64 * x.g.idx + lowLane lanes)
  else s.setGang (x.mapSlices fun _ sl => { sl with
    trappc := ret.getD (sl.hints.addr.getD sl.pc)
    trapcause := trapCauseWord cause code bk
    trapinfo := lanes
    pc := x.grp.trapvec
    hints := Hints.none
    clock := sl.clock + 1
    readyAt := s.beat + 1
    since := s.beat + 1 })

/-- Return from a trap (R138): PC := TRAPPC and H := 0 in each slice of the stream. -/
def trapReturn (s : State) (x : Cx) (st : Nat) : State :=
  s.setGang { x.issued s st 0 (fun _ sl => sl.trappc) with
    slices := imap (fun i sl => if x.ss.contains i then
      { sl with trapcause := sl.trapcause &&& ~~~(1#64 <<< 63) } else sl) 0
      (x.issued s st 0 (fun _ sl => sl.trappc)).slices }

/-- The mask of the stream's active lanes: what TRAPINFO names when a fault is of the whole word. -/
def Cx.mask (x : Cx) : Word := maskOf x.actives

/-- An operation without results of the stream that holds its next word. -/
def blockOp (s : State) (x : Cx) (doc : Bool) (acq : Option Nat) (fabric : List Nat) : Op where
  id := s.fresh
  gang := x.g.id
  slices := x.ss
  reg := none
  mreg := none
  push := false
  vals := []
  regs := []
  fl := []
  flags := false
  cf := none
  born := s.beat
  waits := 1
  due := 0
  block := true
  acq := acq
  doc := doc
  dead := []
  fabric := fabric
  won := []
  marks := []
  st := 0
  xc := none
  rel := false

/-- Perform a word of the granted stream, once no operation holds its next word (R99, R173). [DESIGN CHOICE: log entry 8] -/
def withStream (s : State) (k : Cx → Host.Outcome State Fault Refusal) :
    Host.Outcome State Fault Refusal :=
  match s.stream? with
  | none => .fault .noStream
  | some x => if x.blocked s then .next (hold s x) else k x

/-- A partition's pre-emption watchdog in ns (R400). -/
def Partition.wdog (p : Partition) : Nat := fld p.pcfg 32 32
def Partition.en (p : Partition) : Bool := p.pcfg.getLsbD 0
def Partition.test (p : Partition) : Bool := p.pcfg.getLsbD 1
def Partition.debug (p : Partition) : Bool := p.pcfg.getLsbD 2
def Partition.minc (p : Partition) : Nat := fld p.pcfg 8 8

end Sys2Proof.Machine
end

