-- ==== Sys2Proof/Machine/Flags.lean ====
section
/-!
DEFINITION. The status and mode registers held per slice: STATUS (R135), FMODE (R95), FFLAGS (R98),
MCOV (R144), MRHO (R145), and the settings a word takes from them (R96, R97, R144).
-/

namespace Sys2Proof.Machine

/-! ## STATUS (R135) -/

def sPRD : Word := 0x01#64
def sPRE : Word := 0x02#64
def sISAT : Word := 0x04#64
def sIDZ : Word := 0x08#64
def sIDZE : Word := 0x10#64
def sREDOVF : Word := 0x20#64
def sMVCL : Word := 0x40#64
def sRSM : Word := 0x80#64

/-- A sticky bit of STATUS set when the event happened. -/
def Slice.stick (sl : Slice) (bit : Word) (b : Bool) : Slice :=
  if b then { sl with status := sl.status ||| bit } else sl

def Slice.hasStatus (sl : Slice) (bit : Word) : Bool := sl.status &&& bit != 0

/-! ## FMODE and FFLAGS -/

/-- The setting a word computes under (R96): FMODE with the RM and SAT of an attached HMOD. -/
def fmodeOf (fmode : Word) (hm : Option OpHmod) : FMode :=
  let r := match hm with | some h => h.r.toNat | none => 0
  let t := match hm with | some h => h.t == 1#1 | none => false
  { rm := if r = 0 then rmOf (fld fmode 0 2) else rmOf (r - 1)
    fluIn := fmode.getLsbD 2
    fluOut := fmode.getLsbD 3
    sat := fmode.getLsbD 4 || t }

def Slice.fm (sl : Slice) : FMode := fmodeOf sl.fmode sl.hints.mods

/-- The trap enables EN of FFLAGS (R98). -/
def Slice.fen (sl : Slice) : FFlags := sl.fflags.extractLsb' 8 5

/-- OR raised exceptions into the sticky bits (R98). -/
def Slice.raise (sl : Slice) (fl : FFlags) : Slice :=
  { sl with fflags := sl.fflags ||| fl.setWidth 64 }

/-- XC receives the enabled exceptions raised (R99). -/
def Slice.setXC (sl : Slice) (fl : FFlags) : Slice :=
  { sl with fflags := (sl.fflags &&& ~~~(0x1F#64 <<< 16)) ||| (fl.setWidth 64 <<< 16) }

/-! ## What a write to each register keeps (R95, R98, R135, R137, R144, R145) -/

def maskFMODE : Word := 0x1F#64
def maskFFLAGS : Word := 0x1F1F1F#64
def maskSTATUS : Word := 0xFF#64
def maskMCOV : Word := 0xF#64
def maskSTALLCHK : Word := 0x1#64
def maskTRAPCAUSE : Word := 0x80000000FFFF01FF#64
def maskADDR : Word := 0xFFFFFFFFFFFFFFFC#64

/-- A CSRW to MRHO (R145): clipped to [−1, +1]; a NaN or −0 is stored as +0. -/
def mrhoOf (v : Word) : Word :=
  let x := fld v 0 32
  match fp32.decode x with
  | .nan _ _ _ => 0
  | a =>
    if a.eqV (.fin false 0 0) then 0
    else if (FVal.fin false 1 0).ltV a then 0x3F800000#64
    else if a.ltV (.fin true 1 0) then 0xBF800000#64
    else BitVec.ofNat 64 x

/-! ## MCOV -/

def Slice.asm (sl : Slice) : Nat := fld sl.mcov 0 2
def Slice.mclamp (sl : Slice) : Bool := sl.mcov.getLsbD 2
def Slice.vrup (sl : Slice) : Bool := sl.mcov.getLsbD 3

end Sys2Proof.Machine
end

