-- ==== Sys2Proof/Machine/Space.lean ====
section
/-!
DEFINITION. Address spaces and translation (R179, R190 to R196, R446): global addresses, page-table
walks, leaves, home quadrants, attribute TLBs and translation caches, and physical memory. A memory
address of the state is region · 2^48 + physical address: regions 0 to 3 are the chiplets' HBM, region
4 host memory, region 8 + d the memory of device d by its virtual address.
-/

namespace Sys2Proof.Machine

/-- The state's memory address of a physical address in a region. [DEDUCED: log entry 11] -/
def memKey (region pa : Nat) : Nat := region * 2 ^ 48 + pa

/-! ## Physical memory -/

/-- A byte of memory as it stands. [DESIGN CHOICE: log entry 4] -/
def State.peek (s : State) (k : Nat) : Byte := s.mem.get k

/-- A byte as the fetches of a launch see it: as it stood before stores made during the launch (R46). [DEDUCED: log entries 13, 86] -/
def State.peekCode (s : State) (part lid k : Nat) : Byte :=
  match s.launch? part lid with
  | none => s.peek k
  | some l => match l.undo.find? (·.1 == k) with
    | some c => c.2
    | none => s.peek k

/-- Store a byte of memory. Every launch in progress keeps the byte its fetches see (R46). -/
def State.poke (s : State) (k : Nat) (b : Byte) : State :=
  let old := s.mem.get k
  { s with
    mem := s.mem.set k b
    launches := s.launches.map fun l =>
      if old = b ∨ l.undo.any (·.1 == k) then l else { l with undo := (k, old) :: l.undo } }

/-- Store bytes from an address up under a mask that starts at bit `i`. -/
def State.pokeMasked (s : State) (k i : Nat) (mask : BitVec 128) : List Byte → State
  | [] => s
  | b :: bs => State.pokeMasked (if mask.getLsbD i then s.poke k b else s) (k + 1) (i + 1) mask bs

/-- The 8-byte little-endian word at a memory address. -/
def State.peek64 (s : State) (k : Nat) : Nat := leNat (s.mem.read k 8)

/-- The whole-line mask of `n` bytes from byte `off`. -/
def maskAt (off n : Nat) : BitVec 128 := BitVec.ofNat 128 ((2 ^ n - 1) * 2 ^ off)

/-- Uncorrectable damage in a line: a codeword with its good-byte mask (R380). -/
def badMask (s : State) (line : Nat) : BitVec 128 :=
  s.bad.foldl (fun m d => match d.loc with
    | .mem cw => if cw / 16 = line && !d.fixable then
        m ||| (((~~~d.good).setWidth 128) <<< (8 * (cw % 16))) else m
    | _ => m) 0

/-- The same, with what the stack has detected in a line that is not in L2 (R379, R380). -/
def badBeneath (s : State) (line : Nat) : BitVec 128 :=
  if s.l2.any (·.pa == line) then badMask s line
  else s.bad.foldl (fun m d => match d.loc with
    | .hbm b => if b / 4 = line && !d.fixable then m ||| maskAt (32 * (b % 4)) 32 else m
    | _ => m) (badMask s line)

/-- The granule of a host line: its place in host memory. -/
def granuleOf (line : Nat) : Nat := line - memKey 4 0 / 128

/-! ## Global addresses (R179) -/

/-- The device and virtual address of a global address: none for an address fault (R179, R418). The
issuing device's own number is device 0. A device with ports that has not joined its domain faults on no DEV value. -/
def gaddr (s : State) (a : Word) : Option (Nat × Nat) :=
  let dev := fld a 48 13
  if fld a 61 3 ≠ 0 then none
  else if dev = 0 then some (0, fld a 0 48)
  else if !s.ports then none
  else if !s.joined then some (dev, fld a 0 48)
  else if 4609 ≤ dev then none
  else if dev = s.devnum then some (0, fld a 0 48)
  else some (dev, fld a 0 48)

/-! ## Page tables (R190) -/

/-- What a walk finds. -/
inductive Walk where
  | absent
  | malformed
  | leaf (l : Leaf)
  | held (h : Hold)                          -- a table's line is still to be recalled (R193)
  deriving DecidableEq, Repr

/-- The home quadrants that a leaf's HQ and ILV can give a line of its page (R191, R446): under ILV 11 a 64 KiB page,
whose v[17:16] is fixed, has one. -/
def quadsOf (hq ilv size va : Nat) : List Nat :=
  match ilv with
  | 0 => [hq]
  | 1 => [hq, hq ^^^ 1]
  | 2 => [hq, hq ^^^ 1, hq ^^^ 2, hq ^^^ 3]
  | _ => if size = 65536 then [hq ^^^ (va / 65536 % 4)] else [hq, hq ^^^ 1, hq ^^^ 2, hq ^^^ 3]

/-- The home quadrant of a virtual address under a leaf (R191). -/
def Leaf.quad (l : Leaf) (va : Nat) : Nat :=
  match l.ilv with
  | 0 => l.hq
  | 1 => l.hq ^^^ (va / 128 % 2)
  | 2 => l.hq ^^^ (va / 128 % 4)
  | _ => l.hq ^^^ (va / 65536 % 4)

/-- Does the leaf name host memory (PA[47])? -/
def Leaf.host (l : Leaf) : Bool := l.pa.testBit 47

/-- A page of another device is named by its device and virtual address together (R192). -/
def farKey (dev va : Nat) : Nat := dev * 2 ^ 48 + va

/-- A global address as its device and virtual address together (R179). -/
def State.farKeyOf (s : State) (a : Word) : Nat :=
  match gaddr s a with
  | some (dev, va) => farKey dev va
  | none => fld a 0 48

/-- Does the leaf stand for a page of another device? -/
def Leaf.far (l : Leaf) : Bool := decide (2 ^ 48 ≤ l.va)

/-- The memory address of a virtual address under a leaf. -/
def Leaf.key (l : Leaf) (va : Nat) : Nat :=
  if l.far then memKey (8 + l.va / 2 ^ 48) (va % 2 ^ 48)
  else if l.host then memKey 4 ((l.pa + (va - l.va)) % 2 ^ 47)
  else memKey (l.quad va) (l.pa + (va - l.va))

/-- EN bit of a partition's L2 share at a chiplet (R400). -/
def Partition.l2en (p : Partition) (k : Nat) : Bool := p.l2sh.getLsbD (16 + k)
/-- Log2 of the sets of the share (R400). -/
def Partition.l2sets (p : Partition) (k : Nat) : Nat := fld p.l2sh (4 * k) 4

/-- The replica set that covers an address, whose home device a REP leaf names (R424). -/
def State.repSet? (s : State) (part asn va : Nat) : Option RepSet :=
  s.sets.find? fun r => r.part == part && r.asn == asn && decide (r.va ≤ va) && decide (va < r.va + r.size)

/-- A leaf entry at a level (R190): malformed when it breaks a rule of the table, or would home a line
where the partition has no L2 share (R446). -/
def leafOf (s : State) (part asn lvl va e : Nat) : Walk :=
  let pa := e / 65536 % 2 ^ 32 * 65536
  let size := if lvl = 2 then 2 ^ 30 else if lvl = 3 then 2 ^ 21 else 65536
  let mode := e / 2 ^ 13 % 8
  let bias := e.testBit 12
  let ilv := e / 1024 % 4
  let hq := e / 256 % 4
  if e / 2 ^ 48 ≠ 0 ∨ e / 32 % 8 ≠ 0 ∨ 5 ≤ mode ∨ (bias ∧ pa.testBit 47) ∨ pa % size ≠ 0 ∨
      (quadsOf hq ilv size va).any (fun k => !(s.part part).l2en k) then .malformed
  else .leaf
    { va := va / size * size, size := size, pa := pa, mode := mode, bias := bias, ilv := ilv, hq := hq
      x := e.testBit 4, w := e.testBit 3, rd := e.testBit 2
      rdev := match s.repSet? part asn va with
        | some r => r.devs.headD 0
        | none => 0 }

/-- The memory address of a page-table entry: a non-leaf entry names a frame alone, held at the
chiplet of home quadrant 0, or host memory when PA[47] is 1. [DEDUCED: log entry 11] -/
def tableKey (pa idx : Nat) : Nat :=
  if pa.testBit 47 then memKey 4 (pa % 2 ^ 47 + 8 * idx) else memKey 0 (pa + 8 * idx)

/-- The index a level takes from the virtual address (R190). -/
def walkIndex (lvl va : Nat) : Nat :=
  match lvl with
  | 1 => va / 2 ^ 39 % 512
  | 2 => va / 2 ^ 30 % 512
  | 3 => va / 2 ^ 21 % 512
  | _ => va / 2 ^ 16 % 32

/-- Walk the levels of `lvls` from a table (R190). A poisoned entry is never used as data (R381): it counts as a
malformed one. [DEDUCED: log entry 11] -/
def walkFrom (s : State) (part asn va : Nat) : Nat → List Nat → Walk
  | _, [] => .malformed
  | table, lvl :: lvls =>
    let k := tableKey table (walkIndex lvl va)
    let e := s.peek64 k
    if badBeneath s (k / 128) &&& maskAt (k % 128) 8 ≠ 0 then .malformed
    else if e % 2 = 0 then .absent
    else if e.testBit 1 then (if lvl = 1 then .malformed else leafOf s part asn lvl va e)
    else if lvl = 4 ∨ e / 2 ^ 48 ≠ 0 ∨ e / 4 % 2 ^ 14 ≠ 0 then .malformed
    else walkFrom s part asn va (e / 65536 % 2 ^ 32 * 65536) lvls

/-- The walk of an address of (partition, ASN) from its root (R190, R402). -/
def walk (s : State) (part asn va : Nat) : Walk :=
  let r := at' 0 (s.part part).ptroot asn
  if !r.getLsbD 0 then .absent
  else walkFrom s part asn va (fld r 12 36 * 4096) [1, 2, 3, 4]

/-! ## Attribute TLBs and translation caches (R192, R193) -/

def TlbEntry.covers (e : TlbEntry) (core part asn va : Nat) : Bool :=
  e.core == core && e.part == part && e.asn == asn && decide (e.leaf.va ≤ va) &&
    decide (va < e.leaf.va + e.leaf.size)

/-- A core's attribute TLB entry for an address. -/
def State.tlb? (s : State) (core part asn va : Nat) : Option Leaf :=
  (s.tlb.find? fun e => e.covers core part asn va).map (·.leaf)

/-- Fill an entry; a core holds 192 and a chiplet's translation cache 8,192, and the oldest goes. [DEDUCED: log entry 13] -/
def State.fillTlb (s : State) (core part asn : Nat) (l : Leaf) : State :=
  let cap := if core < 144 then 192 else 8192
  let mine := s.tlb.filter (·.core == core)
  let tlb := if mine.length < cap then s.tlb else
    match mine.getLast? with
    | some e => s.tlb.erase e
    | none => s.tlb
  { s with tlb := ⟨core, part, asn, l⟩ :: tlb }

/-- Is the page inside a range that a drain procedure has stopped (R195)? -/
def State.draining (s : State) (part asn va : Nat) : Bool :=
  s.drains.contains (part, asn, va / 65536)

/-- The translation caches' entry for an address (R193). -/
def State.cached? (s : State) (part asn va : Nat) : Option Leaf :=
  (s.tlb.find? fun e => decide (144 ≤ e.core) && e.part == part && e.asn == asn &&
    decide (e.leaf.va ≤ va) && decide (va < e.leaf.va + e.leaf.size)).map (·.leaf)

/-- The memory addresses of the entries that a walk reads from a table down (R190). -/
def walkKeysFrom (s : State) (va : Nat) : Nat → List Nat → List Nat
  | _, [] => []
  | table, lvl :: lvls =>
    let k := tableKey table (walkIndex lvl va)
    let e := s.peek64 k
    k :: (if e % 2 = 0 ∨ e.testBit 1 ∨ lvl = 4 ∨ e / 2 ^ 48 ≠ 0 ∨ e / 4 % 2 ^ 14 ≠ 0 then []
      else walkKeysFrom s va (e / 65536 % 2 ^ 32 * 65536) lvls)

/-- The memory addresses of the entries that the walk of an address reads. -/
def State.walkKeys (s : State) (part asn va : Nat) : List Nat :=
  let r := at' 0 (s.part part).ptroot asn
  if !r.getLsbD 0 then [] else walkKeysFrom s va (fld r 12 36 * 4096) [1, 2, 3, 4]

/-- What another agent holds of a page-table entry's line, so that a read of it must wait: an owned line (R216), a
granule of host memory that the bridge does not hold (R404), a line that the host may hold dirty (R410). [DEDUCED: log entry 13] -/
def State.entryHold (s : State) (k : Nat) : Option Hold :=
  let line := k / 128
  if 4 ≤ k / 2 ^ 48 then
    (if s.granules.any fun g => g.addr == granuleOf line && g.st.isSome && !g.evicting then none
      else some (.granule (granuleOf line)))
  else match s.owned.find? (·.line == line) with
    | some o => some (.recall o.id)
    | none => if s.snoops.any fun e => e.line == line && e.excl then some (.host line false) else none

/-- What holds the walk of an address at the first of its entries that another agent holds (R193). [DEDUCED: log entries 13, 73] -/
def State.walkHold (s : State) (part asn va : Nat) : Option Hold :=
  (s.walkKeys part asn va).findSome? s.entryHold

/-- What the caches, or the tables as their homes hold them, say of an address (R193). [DEDUCED: log entry 13] -/
def State.look (s : State) (part asn va : Nat) : Walk :=
  match s.cached? part asn va with
  | some l => .leaf l
  | none => match s.walkHold part asn va with
    | some h => .held h
    | none => walk s part asn va

/-- What the caches or the tables say of an address as memory stands. -/
def State.lookPast (s : State) (part asn va : Nat) : Walk :=
  match s.cached? part asn va with
  | some l => .leaf l
  | none => walk s part asn va

/-- A page that holds an address of another device, as requests that are on their way to it see it. [DESIGN CHOICE: log entry 12] -/
def remoteLeaf (dev va : Nat) : Leaf :=
  { va := farKey dev (va / 65536 * 65536), size := 65536, pa := va / 65536 * 65536, mode := 0, bias := false
    ilv := 0, hq := 0, x := false, w := true, rd := true, rdev := dev }

/-- The leaf of a fabric-global page (R192): its tables stand in the other device, so that its mode and
permissions are free values. [DESIGN CHOICE: log entry 12] -/
def farLeaf (s : State) (dev va : Nat) : Leaf × State :=
  let c := s.choose 39
  ({ remoteLeaf dev va with mode := c.1 % 5, x := (c.1 / 5).testBit 0, w := (c.1 / 5).testBit 1
                            rd := (c.1 / 5).testBit 2 }, c.2)

/-- Bytes of a line or less at a virtual address of the issuing device under a leaf. -/
def State.peekVa (s : State) (l : Leaf) (va n : Nat) : List Byte :=
  (rangeFrom va n).map fun v => s.peek (l.key v)

end Sys2Proof.Machine
end

