-- ==== Sys2Proof/Machine/Lease.lean ====
section
/-!
DEFINITION. Homes and logical time (R200 to R208, R188, R197): L2 lines and their leases, the lease
predictors of the tracking regions, replacement and retention, and the read and write steps of a home.
A line is named by its memory address divided by 128.
-/

namespace Sys2Proof.Machine

/-- Where a line is homed: chiplet, canonical or requesting address, physical line. -/
structure LineRef where
  chip : Nat
  part : Nat
  asn  : Nat
  va   : Nat
  line : Nat
  deriving DecidableEq, Repr

/-- The line that holds a virtual address under a leaf. -/
def Leaf.lineRef (l : Leaf) (part asn va : Nat) : LineRef :=
  ⟨l.quad va, part, asn, va / 128 * 128, l.key (va / 128 * 128) / 128⟩

def State.l2? (s : State) (r : LineRef) : Option L2Line :=
  s.l2.find? fun x => x.chip == r.chip && x.pa == r.line

/-- A request re-tagged to the line's canonical address (R189): that under which L2 holds its physical line, else
the requester's own. -/
def State.canon (s : State) (r : LineRef) : LineRef :=
  match s.l2? r with
  | some x => { r with part := x.part, asn := x.asn, va := x.va }
  | none => r

def State.modL2 (s : State) (r : LineRef) (f : L2Line → L2Line) : State :=
  { s with l2 := s.l2.map fun x => if x.chip == r.chip && x.pa == r.line then f x else x }

/-! ## Lease predictors (R204 to R207) -/

def Region.holds (g : Region) (chip line : Nat) : Bool :=
  g.chip == chip && decide (g.base ≤ line * 128) && decide (line * 128 < g.base + 2 ^ g.k)

def State.region? (s : State) (r : LineRef) : Option Region := s.regions.find? (·.holds r.chip r.line)

/-- The line's region, tracked at the first access as its 64 KiB block at level 2 (R204). -/
def State.track (s : State) (r : LineRef) : State :=
  match s.region? r with
  | some _ => s
  | none =>
    if (s.regions.filter (·.chip == r.chip)).length < 65536 then
      { s with regions := ⟨r.chip, r.line * 128 / 65536 * 65536, 16, 2, none, s.cycle⟩ :: s.regions }
    else s

/-- The lease length's level of a line (R204); an untracked line is at level 2. -/
def State.levelOf (s : State) (r : LineRef) : Nat := match s.region? r with | some g => g.level | none => 2

def State.modRegion (s : State) (r : LineRef) (f : Region → Region) : State :=
  { s with regions := s.regions.map fun g => if g.holds r.chip r.line then f g else g }

/-- A renewal raises the level and is recorded when it did (R202, R205). -/
def State.renewed (s : State) (r : LineRef) : State :=
  s.modRegion r fun g => { g with
    level := min (g.level + 1) 9, touch := s.cycle
    last := if g.level < 9 then some r.line else g.last }

/-- A jumped write lowers the level; to a line other than the recorded one it is a conflict, which
splits the region and lowers the written half once more (R203, R205, R206). [DEDUCED: log entry 103] -/
def State.jumped (s : State) (r : LineRef) : State :=
  match s.region? r with
  | none => s
  | some g =>
    let lv := g.level - 1
    if g.last = some r.line then s.modRegion r fun g => { g with level := lv, touch := s.cycle }
    else if g.k ≤ 7 then s.modRegion r fun g => { g with level := lv, touch := s.cycle }
    else if (s.regions.filter (·.chip == r.chip)).length < 65536 then
      let h := 2 ^ (g.k - 1)
      let mk := fun (b : Nat) =>
        (⟨g.chip, b, g.k - 1, if b ≤ r.line * 128 ∧ r.line * 128 < b + h then lv - 1 else lv, none,
          s.cycle⟩ : Region)
      { s with regions := mk g.base :: mk (g.base + h) :: s.regions.filter fun x => !x.holds r.chip r.line }
    else s.modRegion r fun g => { g with level := lv - 1, touch := s.cycle }

/-- Two idle sibling halves merge (R207). -/
def State.mergeRegion (s : State) (chip base : Nat) : State :=
  match s.regions.find? fun g => g.chip == chip && g.base == base with
  | none => s
  | some g =>
    let sib := if base / 2 ^ g.k % 2 = 0 then base + 2 ^ g.k else base - 2 ^ g.k
    match s.regions.find? fun x => x.chip == chip && x.base == sib && x.k == g.k with
    | none => s
    | some x =>
      if g.k < 16 ∧ g.touch + 65536 ≤ s.cycle ∧ x.touch + 65536 ≤ s.cycle then
        { s with regions := ⟨chip, min g.base x.base, g.k + 1, min g.level x.level, none, max g.touch x.touch⟩ ::
            s.regions.filter fun y => y != g && y != x }
      else s

/-! ## L2 replacement and retention (R188, R197, R447) -/

/-- The set of a line in its partition's share (R188). -/
def State.setOf (s : State) (r : LineRef) : Nat := r.va / 128 % 2 ^ (s.part r.part).l2sets r.chip

/-- L2 slices of a chiplet in use: 16 but for the retired ones (R386). [DEDUCED: log entry 80] -/
def State.slices (s : State) (chip : Nat) : List Nat :=
  (rangeFrom 0 16).filter fun k => !s.retired.contains (chip, k)

/-- The set of the chiplet that a set of a share names: shares lie one after another in the slices in use. [DEDUCED: log entry 80] -/
def State.chipSet (s : State) (part chip set : Nat) : Nat :=
  let base := ((rangeFrom 0 part).map fun p =>
    if (s.part p).l2en chip then 2 ^ (s.part p).l2sets chip else 0).sum
  at' 0 (s.slices chip) ((base + set) / 2048) * 2048 + (base + set) % 2048

/-- The set of the chiplet that holds a line's frame. [DEDUCED: log entry 80] -/
def State.frameSet (s : State) (r : LineRef) : Nat := s.chipSet r.part r.chip (s.setOf r)

/-- The ways of a set that are not disabled (R385). -/
def State.usableWays (s : State) (chip set : Nat) : List Nat :=
  (rangeFrom 0 16).filter fun w => !s.offFrames.contains (chip, set, w)

def State.lineOwned (s : State) (line : Nat) : Bool := s.owned.any (·.line == line)

/-- The lines of a line's set. -/
def State.setLines (s : State) (r : LineRef) : List L2Line :=
  s.l2.filter fun x => x.chip == r.chip && x.part == r.part &&
    x.va / 128 % 2 ^ (s.part r.part).l2sets r.chip == s.setOf r

/-- The retention register whose range holds a line (R197). -/
def State.retFor (s : State) (r : LineRef) : Option RetReg :=
  s.rets.find? fun g => g.part == r.part && g.chip == r.chip && g.asn == r.asn &&
    decide (g.va ≤ r.va) && decide (r.va < g.va + 128 * g.len)

/-- Add 1 to a RETSTAT count, which saturates (R198): the field starts at bit `lo`. -/
def bumpStat (lo : Nat) (w : Word) : Word :=
  if fld w lo 16 = 65535 then w else w + (1#64 <<< lo)

def State.retBump (s : State) (part k lo : Nat) : State :=
  s.modPart part fun p => { p with retstat := modAt (bumpStat lo) k p.retstat }

/-- Count an L2 lookup of a range line (R198). -/
def State.retLookup (s : State) (r : LineRef) : State :=
  match s.retFor r with
  | none => s
  | some g => match s.l2? r with
    | some x => s.retBump r.part g.k (if x.pin = some g.k then 48 else 32)
    | none => s.retBump r.part g.k 16

def State.pinned (s : State) (part k : Nat) : Nat :=
  (s.l2.filter fun x => x.part == part && x.pin == some k).length

/-- May a line of the register be pinned: below the quota, and its set keeps 2 unpinned ways (R197). -/
def State.mayPin (s : State) (g : RetReg) (r : LineRef) : Bool :=
  decide (s.pinned g.part g.k < g.quota) &&
    decide ((((s.setLines r).filter (·.pin.isSome)).length + 1) + 2 ≤
      (s.usableWays r.chip (s.frameSet r)).length)

/-- The decided copies of other devices' cells that a way of L2 holds (R267): they stand in `l1` as of core
144, tagged with device and address. [DEDUCED: log entry 27] -/
def L2Line.farCopy (x : L2Line) (c : L1Line) : Bool :=
  c.core == 144 && c.part == x.part && memKey 8 0 + c.va / 128 * 128 == x.pa * 128

/-- A line leaves L2: its rts is kept in MTS (R200), and a dirty one is written over what HBM4 held. -/
def State.dropL2 (s : State) (x : L2Line) : State :=
  let beneath := fun (d : Damage) => match d.loc with
    | .hbm b => x.dirty && b / 4 == x.pa
    | _ => false
  { s with bad := s.bad.filter (!beneath ·), l2 := s.l2.erase x, l1 := s.l1.filter fun c => !x.farCopy c }.modChip x.chip fun c => { c with mts := smax c.mts x.rts }

/-- Bring a line into L2 (R200): wts = rts = MTS. None when every usable way holds a pinned or owned
line, so that a recall must come first (R447). `ef` fills at the LRU position (R188). -/
def State.fillL2 (s : State) (r : LineRef) (ef : Bool) : Option State :=
  let here := s.setLines r
  let ways := s.usableWays r.chip (s.frameSet r)
  let freeWay := ways.find? fun w => !here.any (·.frame == w)
  let victim := (here.filter fun x => x.pin.isNone && !s.lineOwned x.pa).foldl
    (fun (b : Option L2Line) x => match b with
      | none => some x
      | some y => if x.lru < y.lru then some x else some y) none
  let put := fun (s : State) (w : Nat) =>
    let g := s.retFor r
    let pin := match g with | some g => if s.mayPin g r then some g.k else none | none => none
    let s := match g, pin with | some g, none => s.retBump r.part g.k 0 | _, _ => s
    let m := (s.chip r.chip).mts
    { s with
      l2 := ⟨r.chip, r.part, r.asn, r.va, r.line, m, m, false, pin, if ef then 0 else s.stamp, none,
        none, w⟩ :: s.l2
      stamp := s.stamp + 1 }
  match freeWay, victim with
  | some w, _ => some ((put s w).track r)
  | none, some v => some ((put (s.dropL2 v) v.frame).track r)
  | none, none => none

/-- Find or bring in a line, under its canonical address (R189). The lookup is counted unless it belongs to
a request that made it already (`again`, R273); a hit promotes the line whatever its policy (R188). -/
def State.ensureL2 (s : State) (r : LineRef) (ef : Bool) (again : Bool := false) : Option State :=
  let r := s.canon r
  let s := if again then s else s.retLookup r
  match s.l2? r with
  | some _ => some (({ s with stamp := s.stamp + 1 }.modL2 r fun x => { x with lru := s.stamp }).track r)
  | none => s.fillL2 r ef

/-! ## The read and write steps of a home (R202, R203) -/

/-- The rts a read at timestamp t leaves. -/
def readRts (s : State) (r : LineRef) (x : L2Line) (t : TS) : TS :=
  smax x.rts (smax t x.wts + BitVec.ofNat 24 (8 <<< s.levelOf r))

/-- The wts a write at timestamp t takes. -/
def writeWts (x : L2Line) (t : TS) : TS := smax t (x.rts + 1)

/-- CC would move more than 2^14 lt inside one interval (R209). -/
def overInterval (c : Chip) (t : TS) : Bool := decide (2 ^ 14 < (smax c.cc t - c.ccInt).toNat)

/-- A home serves a read at timestamp t (R202) of a line present in L2: new state, wts, rts and whether
it was a renewal, which carries no data. -/
def homeRead (s : State) (r : LineRef) (t : TS) (cwts : Option TS) : State × TS × TS × Bool :=
  match s.l2? r with
  | none => (s, t, t, false)
  | some x =>
    let rts := readRts s r x t
    let s1 := (s.modL2 r fun x => { x with rts := rts }).modChip r.chip fun c => { c with cc := smax c.cc rts }
    if cwts = some x.wts then (s1.renewed r, x.wts, rts, true) else (s1, x.wts, rts, false)

/-- A home performs a masked write at timestamp t (R203) of a line present in L2, as one step: new
state and the returned wts. -/
def homeWrite (s : State) (r : LineRef) (t : TS) (mask : BitVec 128) (data : List Byte) : State × TS :=
  match s.l2? r with
  | none => (s, t)
  | some x =>
    let j := TS.le t x.rts && x.rts != x.wts
    let w := writeWts x t
    let s1 := s.modL2 r fun x => { x with wts := w, rts := w, dirty := true }
    let s2 := (s1.pokeMasked (r.line * 128) 0 mask data).modChip r.chip fun c => { c with cc := smax c.cc w }
    (if j then s2.jumped r else s2.modRegion r fun g => { g with touch := s.cycle }, w)

/-- The bytes of a line as memory holds them. -/
def State.lineData (s : State) (r : LineRef) : List Byte := s.mem.read (r.line * 128) 128

end Sys2Proof.Machine
end

