-- ==== Sys2Proof/Machine/Home.lean ====
section
/-!
DEFINITION. What stands around the read and write steps of a home: the error log (R384), corrected and
uncorrectable errors (R379 to R382, R385), what holds a request (R209, R216, R410, R423, R447), the audit's
shadow writes (R390, R391), the bytes a core sees ahead of its own copies (R214), and the requests.
-/

namespace Sys2Proof.Machine

/-! ## Bytes of a line -/

/-- Bytes placed at byte `off` of a line. -/
def lineAt (off : Nat) (bs : List Byte) : List Byte := List.replicate off 0 ++ bs

/-- What a write makes of a damaged codeword (R382): what is left of the damage, and the type of the event it
logs. The good-byte mask takes in the bytes written, and a codeword whose every bad byte is written is clean. A
correctable error is corrected when a write of part of the word reads the rest. -/
def Damage.write (d : Damage) (wr : BitVec 8) : Option Damage × Option Nat :=
  if wr = 0 then (some d, none)
  else if d.fixable then (none, if wr = 0xFF#8 then none else some 0x01)
  else if d.good ||| wr = 0xFF#8 then (none, none)
  else (some { d with good := d.good ||| wr }, some 0x02)

/-- A write meets damage in a line; also the events it logs, with the byte of the line where their codeword
begins. -/
def State.mend (s : State) (line : Nat) (mask : BitVec 128) : State × List (Nat × Nat) :=
  if s.bad.isEmpty then (s, []) else
  let f := fun (d : Damage) => match d.loc with
    | .mem cw =>
      if cw / 16 = line then
        let r := d.write ((mask >>> (8 * (cw % 16))).setWidth 8)
        (r.1, r.2.map fun t => (t, 8 * (cw % 16)))
      else (some d, none)
    | _ => (some d, none)
  ({ s with bad := s.bad.filterMap fun d => (f d).1 }, s.bad.filterMap fun d => (f d).2)

/-! ## Sending requests -/

/-- The step that serves a request of a kind. -/
def serveStep (id : Nat) : ReqKind → Instr
  | .read _ _ _ _ _ _ _ _ => .homeRead id
  | .write _ _ _ _ _ => .homeWrite id
  | .atom _ _ _ _ _ _ _ _ => .homeAtomic (.req id)
  | .red e => .redEntryApply e
  | .prop _ _ _ _ _ _ _ => .homeProp (.req id)
  | .dread _ _ _ _ => .homeDread (.req id)
  | .recyc _ _ _ => .homeRecyc (.req id)
  | .dstat _ => .homeDstat (.req id)
  | .pin _ _ _ => .retentionRequest id
  | .unpin _ => .retentionRequest id
  | .flag _ _ _ _ => .homeWrite id
  | .own => .homeRead id
  | .rep _ _ _ _ _ => .repStore (.req id)
  | .fetch _ _ _ _ _ => .homeRead id
  | .report _ => .bridgeDeviceWrite id

/-- Send a request to its home; a request to another device times out 1 ms later (R419). [DESIGN CHOICE: log entries 7, 85] -/
def State.send (s : State) (k : ReqKind) (core gang : Nat) (op : Option Nat) (part asn va dev : Nat)
    (t : TS) : State :=
  let id := s.fresh
  let q : Req := ⟨id, k, core, gang, op, part, asn, va, dev, t, none, false, none, id, none, false, id, .none⟩
  let s := { s with fresh := id + 1, reqs := s.reqs ++ [q] }
  let s := if dev ≠ 0 then s.postNs (s.ptp + 1000000) (.fabricTimeout id) else s
  if dev ≠ 0 ∧ !s.joined then s.modReq id fun q => { q with held := some .fabric }
  else s.post (serveStep id k)

/-! ## Writes of the hub -/

/-- A write of the hub's own to at most one line of a partition's address space, at DCLK: it goes to the line's
home as any write does (R203, R209, R216, R405, R410, R423). None when its translation faults; where the walk meets a
table that another agent holds, the write goes its way, and its translation is known at the home. -/
def hubWrite (s : State) (part asn va : Nat) (bs : List Byte) : Option State :=
  match s.look part asn va with
  | .absent => none
  | .malformed => none
  | _ => some (s.send (.write (maskAt (va % 128) bs.length)
      ((lineAt (va % 128) bs ++ List.replicate 128 0).take 128) [] false false) 144 0 none part asn
      (va / 128 * 128) 0 s.dclk)

/-! ## The error log (R384) -/

/-- One entry of 32 bytes. -/
def logBytes (s : State) (type cause unit sub lid loc info : Nat) : List Byte :=
  leBytes 8 s.ptp ++ [BitVec.ofNat 8 type, BitVec.ofNat 8 cause, BitVec.ofNat 8 unit, BitVec.ofNat 8 sub] ++
    leBytes 4 (lid % 65536) ++ leBytes 8 loc ++ leBytes 8 info

def Partition.dropLog (p : Partition) : Partition := { p with logDrop := p.logDrop + 1 }

/-- The hub writes an entry in the ring, or counts it as dropped: the log is off, the ring is full, or
the write meets a translation fault. -/
def logEntry (s : State) (part type cause unit sub lid loc info : Nat) : State :=
  let p := s.part part
  let i := p.logNext
  if !p.logcfg.getLsbD 0 ∨ 256 ≤ (i - p.logci).toNat then s.modPart part Partition.dropLog
  else
    let va := (fld p.logcfg 13 51 * 8192 + 32 * (i.toNat % 256)) % 2 ^ 48
    match hubWrite s part (fld p.logcfg 1 4) va (logBytes s type cause unit sub lid loc info) with
    | some s => s.modPart part fun p => { p with logNext := p.logNext + 1 }
    | none => s.modPart part Partition.dropLog

/-! ## Hub state (R379, R381, R396) -/

/-- Correctable errors in a partition's hub state are repaired and logged as its next use finds them (R379). [DEDUCED: log entry 39] -/
def hubRepair (s : State) (part : Nat) : State :=
  (s.bad.filter fun d => d.fixable && d.loc == .hubPartition part).foldl (fun s d =>
    logEntry { s with bad := s.bad.erase d } part 0x01 0 6 0 0 0 0) s

/-- Is the hub state of a partition poisoned (R381)? [DEDUCED: log entry 39] -/
def hubPoisoned (s : State) (part : Nat) : Bool := s.bad.any fun d => !d.fixable && d.loc == .hubPartition part

/-- A partition-fatal error is logged and resets the partition (R396); one that is on its way to its reset is past it. -/
def partitionFatal (s : State) (part cause : Nat) : State :=
  if s.agenda.contains (.partitionReset part) then s
  else (logEntry s part 0x06 cause 6 0 0 0 0).postOnce (.partitionReset part)

/-- A step that uses a partition's hub state: poisoned state resets the partition in its place, and corrected errors
are logged (R379, R381, R396). [DEDUCED: log entry 39] -/
def hubUse (s : State) (part : Nat) (f : State → Host.Outcome State Fault Refusal) : Host.Outcome State Fault Refusal :=
  if hubPoisoned s part then .next (partitionFatal s part 0x43) else f (hubRepair s part)

/-- Bits 31:0 of the winner identity of R259: group number, gang, lane. -/
def ident32 (G : Group) (gang lane : Nat) : Nat :=
  (G.teamIdx * G.perTeam + G.idx) * 1024 + gang * 64 + lane

/-! ## Corrected errors (R379, R385) -/

/-- Correct the correctable errors of a line in the codewords that a test picks, each logged; the fourth in one
frame within 2^32 ns disables the frame, whose line leaves L2 (R385). [DEDUCED: log entry 39] -/
def State.correctWhere (s : State) (r : LineRef) (p : Nat → Bool) : State :=
  let hits := s.bad.filter fun d => d.fixable && (match d.loc with | .mem cw => cw / 16 == r.line && p cw | _ => false)
  hits.foldl (fun s d =>
    let s := { s with bad := s.bad.erase d }
    let at0 := match d.loc with | .mem cw => 8 * (cw % 16) | _ => 0
    let s := logEntry s r.part 0x01 0 2 0 0 (r.va + at0) 0
    match s.l2? r with
    | none => s
    | some x =>
      let set := s.frameSet (s.canon r)
      let s := { s with corrected := (r.chip, set, x.frame, s.ptp) :: s.corrected }
      let n : Nat := (s.corrected.filter fun e => e.1 == r.chip && e.2.1 == set && e.2.2.1 == x.frame &&
        decide (s.ptp < e.2.2.2 + 2 ^ 32)).length
      if 4 ≤ n then
        let s := s.dropL2 x
        logEntry { s with offFrames := (r.chip, set, x.frame) :: s.offFrames } r.part 0x07 0 2 0 0 r.va
          (x.frame * 65536 + set)
      else s) s

/-- Correct every correctable error of a line that is read whole. -/
def State.correct (s : State) (r : LineRef) : State := s.correctWhere r fun _ => true

/-- A write of part of a codeword reads the rest, which is corrected (R379, R382). -/
def State.correctUnder (s : State) (r : LineRef) (mask : BitVec 128) : State :=
  s.correctWhere r fun cw => let m := (mask >>> (8 * (cw % 16))).setWidth 8; m != 0#8 && m != 0xFF#8

/-- A line comes into L2 from HBM4 (R379, R380): an error of one device is corrected and logged, and what the stack
has detected poisons the four codewords of its 32 bytes. [DEDUCED: log entry 39] -/
def State.fromHbm (s : State) (r : LineRef) : State :=
  if s.bad.isEmpty then s
  else
    let block := fun (d : Damage) => match d.loc with
      | .hbm b => if b / 4 = r.line then some b else none
      | _ => none
    let hits := s.bad.filterMap fun d => (block d).map fun b => (d, b)
    let s := { s with bad := s.bad.filter fun d => (block d).isNone }
    hits.foldl (fun s h =>
      if h.1.fixable then logEntry s r.part 0x01 0 3 0 0 (r.va + 32 * (h.2 % 4)) 0
      else
        let cws := rangeFrom (4 * h.2) 4
        { s with bad := (cws.map fun cw => (⟨.mem cw, false, 0, 0⟩ : Damage)) ++
            s.bad.filter fun d => match d.loc with | .mem cw => !cws.contains cw | _ => true }) s

/-- A line is found in L2 or brought in from its stack. -/
def State.bringIn (s : State) (r : LineRef) (ef : Bool) (again : Bool := false) : Option State :=
  match s.l2? (s.canon r) with
  | some _ => s.ensureL2 r ef again
  | none => (s.ensureL2 r ef again).map fun s => s.fromHbm r

/-! ## Host granules (R404, R405) -/

def State.granule? (s : State) (g : Nat) : Option Granule := s.granules.find? (·.addr == g)

def State.modGranule (s : State) (g : Nat) (f : Granule → Granule) : State :=
  { s with granules := s.granules.map fun x => if x.addr = g then f x else x }

/-- May the bridge serve a read of the granule? -/
def State.hostReadable (s : State) (g : Nat) : Bool :=
  match s.granule? g with
  | some x => x.st.isSome && !x.evicting
  | none => false

/-- May the bridge merge a write: held in E or M, and not given up by a DirtyEvict under way (R408)? -/
def State.hostWritable (s : State) (g : Nat) : Bool :=
  match s.granule? g with
  | some x => (x.st == some .e || x.st == some .m) && !x.evicting
  | none => false

/-- The bridge asks the host for a granule: RdOwn, or RdShared. A full bridge first evicts the oldest one whose data it
can write back (R413), and what needs the new one asks again once that has gone. [DEDUCED: log entry 68] -/
def State.askHost (s : State) (g : Nat) (own : Bool) : State :=
  match s.granule? g with
  | some x => if x.want.isSome && (!own || x.want == some true) then s
    else s.modGranule g fun x => { x with want := some own }
  | none =>
    if 65536 ≤ s.granules.length then
      match s.granules.find? fun x => badMask s (memKey 4 (x.addr * 128) / 128) == 0 with
      | some x => s.postOnce (.bridgeEvict x.addr)
      | none => s
    else { s with granules := s.granules ++ [⟨g, 0, none, 0, some own, false⟩] }

/-- A read of a line of host memory by the device itself: once no core owns a flag there (R216) and the bridge holds the
granule (R404); else what brings that about is set going. -/
def State.hostFree (s : State) (line : Nat) : Except State State :=
  match s.owned.find? (·.line == line) with
  | some o => .error (s.postOnce (.lazyReleaseDrain o.id))
  | none => if s.hostReadable (granuleOf line) then .ok s else .error (s.askHost (granuleOf line) false)

/-! ## What holds a request at its home -/

/-- RLE of a line (R422), as a PTP time in units of 8 ns. -/
def State.rle? (s : State) (line : Nat) : Option Nat := (s.rles.find? (·.1 == line)).map (·.2)

/-- a precedes b as serial numbers of 32 bits (R422). -/
def precedes32 (a b : Nat) : Bool :=
  let d := (b + 2 ^ 32 - a % 2 ^ 32) % 2 ^ 32
  decide (0 < d) && decide (d < 2 ^ 31)

/-- PTPNOW in units of 8 ns, modulo 2^32. -/
def State.ptp8 (s : State) : Nat := s.ptp / 8 % 2 ^ 32

/-- The ns by which a write must wait for a line's remote leases (R423); none when they have lapsed. -/
def State.leaseHold (s : State) (line : Nat) : Option Nat :=
  match s.rle? line with
  | none => none
  | some e =>
    let left : Int := if precedes32 s.ptp8 e then 8 * ((e + 2 ^ 32 - s.ptp8) % 2 ^ 32 : Nat) - s.ptp % 8
      else - (8 * ((s.ptp8 + 2 ^ 32 - e) % 2 ^ 32 : Nat) + s.ptp % 8 : Nat)
    if 0 < left + 80 then some (s.ptp + (left + 80).toNat) else none

/-- The snoop filter's entry of a line (R409). -/
def State.snoop? (s : State) (line : Nat) : Option SnoopEnt := s.snoops.find? (·.line == line)

/-- The owned record of a line (R216). -/
def State.owner? (s : State) (line : Nat) : Option Owned := s.owned.find? (·.line == line)

/-- A read or write that the home must hold, with the step that ends the hold (R209, R216, R410, R423,
R447). `core` is the requesting core, 144 for other agents; `write` marks a write. -/
def admission (s : State) (r : LineRef) (core : Nat) (write : Bool) (t : TS) : Option Hold :=
  match (s.owner? r.line).filter (·.core != core) with
  | some o => some (.recall o.id)
  | none =>
    match (s.snoop? r.line).filter fun e => write || e.excl with
    | some _ => some (.host r.line write)
    | none =>
      match if write then s.leaseHold r.line else none with
      | some ns => some (.lease ns)
      | none =>
        match s.l2? r with
        | some x => if overInterval (s.chip r.chip) (if write then writeWts x t else readRts s r x t) then
            some .clock else none
        | none => none

/-- A set without a victim (R447): the owned line to recall, the least recently used one. -/
def State.recallOf (s : State) (r : LineRef) : Option Nat :=
  let xs := (s.setLines r).filter fun x => s.lineOwned x.pa
  (xs.foldl (fun (b : Option L2Line) x => match b with
    | none => some x
    | some y => if x.lru < y.lru then some x else some y) none).bind fun x =>
      (s.owner? x.pa).map (·.id)

/-- A back-invalidation of a line goes to the host (R410). -/
def State.sendBi (s : State) (line : Nat) (inv : Bool) : State :=
  { s with snoops := s.snoops.map fun (e : SnoopEnt) =>
      if e.line = line then { e with bi := some (inv || e.bi == some true) } else e }

/-- The step that ends a hold is set going. -/
def State.onHold (s : State) (h : Hold) (req : Nat) : State :=
  match h with
  | .recall o => s.post (.lazyReleaseDrain o)
  | .host line inv => s.sendBi line inv
  | .lease ns => s.postNs ns (.heldWriteRelease req)
  | .granule g => s.askHost g false
  | _ => s

/-- What a read or write at a home comes to. -/
inductive HomeRes where
  | done (s : State) (wts rts : TS) (renewal : Bool)
  | held (s : State) (h : Hold)

/-- While a write of a line waits for its remote leases, no further lease is granted (R423). -/
def State.noteWait (s : State) (line : Nat) (h : Hold) : State :=
  match h with
  | .lease ns => { s with lwaits := (line, ns) :: s.lwaits.filter (·.1 != line) }
  | _ => s

/-- The write that waited for a line's leases has been performed. -/
def State.endWait (s : State) (line : Nat) : State :=
  if s.lwaits.isEmpty then s else { s with lwaits := s.lwaits.filter (·.1 != line) }

/-- What a set without a victim waits for (R447). -/
def State.roomHold (s : State) (r : LineRef) : Hold := match s.recallOf r with | some o => .recall o | none => .clock

/-- A line whose frame its corrections have just disabled is brought in again (R385); none where no way of its set is
left for it now. -/
def State.backIn (s : State) (r : LineRef) (ef : Bool) : Option State :=
  if (s.l2? r).isSome then some s else s.bringIn r ef true

/-- A read step at a line's home, or what holds it; a read that is held makes no lookup yet. -/
def readAt (s : State) (r : LineRef) (core : Nat) (t : TS) (cwts : Option TS) (ef : Bool) (again : Bool := false) :
    HomeRes :=
  match admission s r core false t with
  | some h => .held s h
  | none =>
    match s.bringIn r ef again with
    | none => .held s (s.roomHold r)
    | some s1 =>
      match admission s1 r core false t with
      | some h => .held s h
      | none => match (s1.correct r).backIn r ef with
        | none => .held (s1.correct r) ((s1.correct r).roomHold r)
        | some s2 =>
          let q := homeRead s2 r t cwts
          .done q.1 q.2.1 q.2.2.1 q.2.2.2

/-- A read that takes its lease in PTP time (R422): it extends no lease in logical time. [DEDUCED: log entry 36] -/
def lookAt (s : State) (r : LineRef) : HomeRes :=
  let hold := match s.owner? r.line, s.snoop? r.line with
    | some o, _ => some (Hold.recall o.id)
    | none, some e => if e.excl then some (Hold.host r.line false) else none
    | none, none => none
  match hold, s.bringIn r false with
  | some h, _ => .held s h
  | none, none => .held s (s.roomHold r)
  | none, some s1 => match (s1.correct r).backIn r false with
    | none => .held (s1.correct r) ((s1.correct r).roomHold r)
    | some s2 => match s2.l2? r with
      | some x => .done s2 x.wts x.rts false
      | none => .done s2 0 0 false

/-- A write step at a line's home (R203, R382), or what holds it. -/
def writeAt (s : State) (r : LineRef) (core : Nat) (t : TS) (mask : BitVec 128) (data : List Byte)
    (ef : Bool) (again : Bool := false) : HomeRes :=
  match admission s r core true t with
  | some h => .held (s.noteWait r.line h) h
  | none =>
    match s.bringIn r ef again with
    | none => .held s (s.roomHold r)
    | some s1 =>
      match admission s1 r core true t with
      | some h => .held s h
      | none => match (s1.correctUnder r mask).backIn r ef with
        | none => .held (s1.correctUnder r mask) ((s1.correctUnder r mask).roomHold r)
        | some s2 =>
          let m := s2.mend r.line mask
          let s3 := m.2.foldl (fun s e => logEntry s r.part e.1 0 2 0 0 (r.va + e.2) 0) (m.1.endWait r.line)
          let q := homeWrite s3 r t mask data
          .done q.1 q.2 q.2 false

/-- What a read made at once, not by a request, comes to: bytes with the timestamp its line returned, a wait, a page
that is not present, or a cause. -/
inductive NowRes where
  | ok (s : State) (bytes : List Byte) (wts : Option TS)
  | wait (s : State)
  | absent (s : State) (va : Nat)
  | bad (cause : Nat)

/-! ## Walks and translation (R191, R193) -/

/-- A walk reads the lines of its tables' entries as COH lines at their homes, at DCLK (R193, R202); one that another
agent holds is recalled first. A line of host memory is read through the bridge (R404); where the partition has no L2
share at the tables' chiplet (R446), the line is read where it lies. [DEDUCED: log entry 13] -/
def State.walkRead (s : State) (part asn va : Nat) : Except Hold State :=
  (s.walkKeys part asn va).foldl (fun acc k => match acc with
    | .error h => .error h
    | .ok s =>
      if 4 ≤ k / 2 ^ 48 then
        (if s.hostReadable (granuleOf (k / 128)) then .ok s else .error (.granule (granuleOf (k / 128))))
      else if !(s.part part).l2en (k / 2 ^ 48) then
        (match s.entryHold k with
        | some h => .error h
        | none => .ok s)
      else match readAt s ⟨k / 2 ^ 48, part, asn, k % 2 ^ 48 / 128 * 128, k / 128⟩ 144 s.dclk none false with
        | .held _ h => .error h
        | .done s _ _ _ => .ok s) (.ok s)

/-- Translation at the home chiplet (R191, R193): from a translation cache, else by a walk whose leaf
the cache then holds. [DEDUCED: log entry 13] -/
def translate (s : State) (part asn va : Nat) : Walk × State :=
  match s.cached? part asn va with
  | some l => (.leaf l, s)
  | none =>
    match s.walkRead part asn va with
    | .error h => (.held h, s)
    | .ok s => match walk s part asn va with
      | .leaf l => (.leaf l, s.fillTlb (144 + l.quad va) part asn l)
      | w => (w, s)

/-! ## Audits: what an audited or replayed group writes and reads (R390, R391) -/

def State.audit? (s : State) (id : Nat) : Option Audit := s.audits.find? (·.id == id)

/-- Is an address, its device over 48 bits, inside the audit's output window, which lies on the issuing device (R388)? -/
def Audit.inOut (a : Audit) (va : Nat) : Bool :=
  match a.launch with
  | none => false
  | some l => l.awin.any fun w => w.2.2 && decide (w.1 ≤ va) && decide (va < w.1 + w.2.1) && decide (va < 2 ^ 48)

/-- Is it inside any window of the audit? -/
def Audit.inAny (a : Audit) (va : Nat) : Bool :=
  match a.launch with
  | none => false
  | some l => l.awin.any fun w => decide (w.1 ≤ va) && decide (va < w.1 + w.2.1) && decide (va < 2 ^ 48)

/-- Shadow contents: an entry per written byte, most recent first. -/
def shadowPut (m : List Host.Cell) (va : Nat) (b : Byte) : List Host.Cell :=
  (va, b) :: m.filter (·.1 != va)

/-- A byte is put in the shadow buffer that a stage of the audit fills: 0 the original, 1 and 2 the replays. One that
overflows abandons the audit (R393). -/
def Audit.put (a : Audit) (n va : Nat) (b : Byte) : Audit :=
  let m := match n with | 0 => a.s0 | 1 => a.s1 | _ => a.s2
  if !a.inOut va then a
  else if !m.any (·.1 == va) && Config.shadowFull m.length then { a with bad := true }
  else match n with
    | 0 => { a with s0 := shadowPut a.s0 va b }
    | 1 => { a with s1 := shadowPut a.s1 va b }
    | _ => { a with s2 := shadowPut a.s2 va b }

/-- Note the bytes a group writes to a line in the shadow buffer of its audit. -/
def State.shadow (s : State) (grp va : Nat) (mask : BitVec 128) (data : List Byte) : State :=
  match s.group? grp with
  | none => s
  | some G =>
    let go := fun (id n : Nat) => s.modAudit id fun a =>
      (imap (fun i b => (i, b)) 0 data).foldl (fun a e =>
        if mask.getLsbD e.1 then a.put n (va + e.1) e.2 else a) a
    match G.replay, G.audit with
    | some id, _ => go id (match s.audit? id with | some a => a.stage | none => 1)
    | none, some id => go id 0
    | none, none => s

/-- The part of a write mask that a replay must not send to memory (R391). -/
def State.replayMask (s : State) (grp va : Nat) (mask : BitVec 128) : BitVec 128 :=
  match (s.group? grp).bind (·.replay) with
  | none => mask
  | some id => match s.audit? id with
    | none => mask
    | some a => (rangeFrom 0 128).foldl (fun m i =>
        if a.inOut (va + i) then m &&& ~~~(1#128 <<< i) else m) mask

/-- An audited or replayed group does what abandons its audit (R393). -/
def State.spoilAudit (s : State) (grp : Nat) : State :=
  match s.group? grp with
  | none => s
  | some G => match G.replay, G.audit with
    | some id, _ => s.modAudit id fun a => { a with bad := true }
    | none, some id => s.modAudit id fun a => { a with bad := true }
    | none, none => s

/-- A replay's read of global memory (R391, R393): from S1 when it holds every byte; it spoils the audit
outside every window, or of output bytes S1 does not hold. -/
def State.replayRead (s : State) (grp va : Nat) (bs : List Byte) : State × List Byte :=
  match (s.group? grp).bind (·.replay) with
  | none => (s, bs)
  | some id => match s.audit? id with
    | none => (s, bs)
    | some a =>
      let sh := if a.stage = 1 then a.s1 else a.s2
      let has := fun i => (sh.find? (·.1 == va + i)).map (·.2)
      let outs := (rangeFrom 0 bs.length).filter fun i => a.inOut (va + i)
      if !(rangeFrom 0 bs.length).all (fun i => a.inAny (va + i)) then (s.spoilAudit grp, bs)
      else if outs.isEmpty then (s, bs)
      else if outs.all fun i => (has i).isSome then (s, imap (fun i b => (has i).getD b) 0 bs)
      else (s.spoilAudit grp, bs)

/-! ## Bytes a core sees first (R214, R216) -/

/-- Lay masked bytes over a line. [DEDUCED: log entry 15] -/
def overlayBytes (mask : BitVec 128) (ahead base : List Byte) : List Byte :=
  imap (fun i b => if mask.getLsbD i then at' 0 ahead i else b) 0 base

/-- Does a core's request go to a line? -/
def Req.onLine (q : Req) (core part asn dev va : Nat) : Bool :=
  q.core == core && q.part == part && q.asn == asn && q.dev == dev && q.va / 128 == va / 128

/-- Has a WSIG word, or a release, still a signal to write in a line (R242)? -/
def Wsig.onLine (s : State) (w : Wsig) (core part asn dev va : Nat) : Bool :=
  w.core == core && w.part == part && w.asn == asn && w.op.isNone && w.flag.isNone && w.sigs.any fun g =>
    let a := (gaddr s g.2.1).getD (0, 0)
    a.1 == dev && a.2 / 128 == va / 128

/-- Does a request change its line from what stands there? -/
def ReqKind.alters : ReqKind → Bool
  | .atom _ _ _ _ _ _ _ _ => true
  | .red _ => true
  | .prop _ _ _ _ _ _ _ => true
  | .recyc _ _ _ => true
  | _ => false

/-- The latest place in a core's issue order of what is still to change a line at its home: atomics, drained terms and
decide-once words on their way, signals to be written. What the core's buffers held of the line before it does not serve
the loads after it (R226, R257); 0 for none. -/
def State.barOn (s : State) (core part asn dev va : Nat) : Nat :=
  s.wsigs.foldl (fun m w => if w.onLine s core part asn dev va then max m w.id else m)
    (s.reqs.foldl (fun m q => if q.kind.alters && !q.served && q.onLine core part asn dev va then max m q.pos else m) 0)

/-- The bytes of a core's buffers that its loads see of a line, oldest first: flushes on their way, buffered entries,
flag values it owns. -/
def State.buffered (s : State) (core part asn dev va : Nat) : List (BitVec 128 × List Byte) :=
  let bar := s.barOn core part asn dev va
  (s.reqs.filterMap fun q => match q.kind with
    | .rep m d _ _ _ => if q.onLine core part asn dev va && !q.served && decide (bar < q.pos) then some (m, d) else none
    | .write m d _ _ _ => if q.onLine core part asn dev va && !q.served && decide (bar < q.pos) then some (m, d) else none
    | _ => none) ++
  (s.smb.filterMap fun e => if e.core == core && e.part == part && e.asn == asn && e.dev == dev &&
      e.va == va && decide (bar < e.id) then some (e.mask, e.data) else none) ++
  (s.owned.filterMap fun o => if o.core == core && o.part == part && o.asn == asn && o.dev == dev &&
      o.va == va && decide (bar < o.before) then some (o.mask, o.data) else none)

/-- A line as a core's loads see it. [DEDUCED: log entry 15] -/
def State.seen (s : State) (core part asn dev va : Nat) (data : List Byte) : List Byte :=
  (s.buffered core part asn dev va).foldl (fun d b => overlayBytes b.1 b.2 d) data

/-- The bytes of a line that a core's buffers hold. [DEDUCED: log entry 15] -/
def State.seenMask (s : State) (core part asn dev va : Nat) : BitVec 128 :=
  (s.buffered core part asn dev va).foldl (fun m b => m ||| b.1) 0

/-! ## Requests -/

/-- A request of another device comes in: it is served at DCLK, as its writes are (R423). -/
def State.comeIn (s : State) (r : FarReq) (va : Nat) (k : ReqKind) : State :=
  let id := s.fresh
  let q : Req := ⟨id, k, 144, 0, none, r.part, r.asn, va, 0, s.dclk, none, false, some (r.dev, r.word), id, none, false,
    id, .none⟩
  if s.joined then { s with fresh := id + 1, reqs := s.reqs ++ [q] }.post (serveStep id k) else s

/-- The answer to a request of another device. -/
def State.tell (s : State) (q : Req) (r : Reply) : State := if q.src.isSome then { s with reply := r } else s

/-- Serve a held request again. -/
def State.retry (s : State) (q : Req) : State :=
  (s.modReq q.id fun q => { q with held := none }).post (serveStep q.id q.kind)

/-- A request is held. -/
def State.holdReq (s : State) (q : Req) (h : Hold) : State :=
  (s.modReq q.id fun q => { q with held := some h }).onHold h q.id

/-- A not-present page holds a request, and the partition's fault queue is told (R194). -/
def State.notPresent (s : State) (part asn va : Nat) : State :=
  s.modPart part fun p =>
    if p.faultq.contains (asn, va / 65536 * 65536) then p
    else { p with faultq := p.faultq ++ [(asn, va / 65536 * 65536)] }

/-- The gangs that a request acts for. -/
def Req.gangs (q : Req) : List Nat :=
  match q.kind with
  | .write _ _ gs _ _ => gs
  | .flag _ _ _ gs => gs
  | .rep _ _ gs _ _ => gs
  | _ => [q.gang]

/-- Do the matrices order a request with others of its stream to the line (R226, R257, R271): loads, stores, atomics,
drained terms, signals and decide-once words? -/
def ReqKind.ordered : ReqKind → Bool
  | .pin _ _ _ => false
  | .unpin _ => false
  | .own => false
  | .fetch _ _ _ _ _ => false
  | .report _ => false
  | _ => true

/-- What stands before a core's request to a line in the order of issue and has not been performed (R226, R257): another
of its requests, or a record whose signal in the line is still to be written. The order of a core's streams is kept
whichever of them issued the two. [DEDUCED: log entries 16, 26] -/
def State.earlier (s : State) (q : Req) : Option Nat :=
  if 144 ≤ q.core ∨ !q.kind.ordered then none
  else
    ((s.reqs.find? fun p => decide (p.pos < q.pos) && p.kind.ordered && !p.served &&
        p.onLine q.core q.part q.asn q.dev q.va).map (·.id)).or
      ((s.wsigs.find? fun w => decide (w.id < q.pos) && w.onLine s q.core q.part q.asn q.dev q.va).map (·.id))

/-- What stood behind a request goes on. -/
def State.afterReq (s : State) (id : Nat) : State :=
  (s.reqs.filter fun p => p.held == some (.order id)).foldl State.retry s

def State.dropReq (s : State) (id : Nat) : State := { s with reqs := s.reqs.filter (·.id != id) }.afterReq id

/-- The group a gang belongs to. -/
def State.groupOf (s : State) (gang : Nat) : Option Group := (s.gang? gang).bind fun g => s.group? g.group

/-- Raise a resident gang's PTS (R201, R203). [DEDUCED: log entry 82] -/
def State.raisePts (s : State) (gang : Nat) (t : TS) : State :=
  s.modGang gang fun g => { g with pts := smax g.pts t }

/-- One answer of an operation has come; the last one lets its result return (R59, R229). -/
def State.answer (s : State) (op : Option Nat) (f : Op → Op) : State :=
  match op with
  | none => s
  | some id =>
    match s.op? id with
    | none => s
    | some o =>
      let s := s.modOp id fun o => { f o with waits := o.waits - 1 }
      if o.waits ≤ 1 then s.post (if o.doc then .docReply id else .resultReturn id) else s

/-- A group-fatal fault of a group that may be ending already: then its launch is told, and the fault is
logged, at once, and its engine work is cancelled (R72, R334, R384). -/
def failGroup (s : State) (grp cause lane : Nat) : State :=
  match s.group? grp with
  | none => s
  | some G =>
    if !G.ending then groupFatal s grp cause lane
    else if G.fatal.isSome then s
    else
      let s := (s.modGroup grp fun G => { G with fatal := some cause }).postOnce (.groupEnd grp)
      let s := logEntry s G.part 0x05 cause 7 0 G.lid (ident32 G (lane / 64) (lane % 64)) 0
      if G.replay.isSome then s.spoilAudit grp
      else s.modLaunch G.part G.lid fun l => { l with fault := l.fault.or (some cause) }

/-- The same for the group of a gang. -/
def failGang (s : State) (gang cause lane : Nat) : State :=
  match s.gang? gang with
  | some g => failGroup s g.group cause (64 * g.idx + lane)
  | none => s

end Sys2Proof.Machine
end

