-- ==== Sys2Proof/Machine/Registry.lean ====
section
/-!
DEFINITION. Scratchpad windows (R180, R184 to R186) and the barriers that lie in them (R244 to R252):
banks and swizzles, the object's fields, carrying a timestamp, the phase test, the release of waiters,
aborted phases; the implicit barrier of REGANG (R33); the retirement of slices (R41, R383); and scratchpad accesses as
their passes are done (R223, R448).
-/

namespace Sys2Proof.Machine

/-! ## Windows and banks -/

/-- The bank of column c at tile offset o under a swizzle code (R185). -/
def swz (code : BitVec 2) (c o : Nat) : Nat :=
  match code.toNat with
  | 0 => c
  | 1 => c ^^^ (o / 256 % 16)
  | 2 => c ^^^ (o / 512 % 8)
  | _ => (c + o / 256 % 16) % 32

def Tile.zero : Tile := ⟨false, 0, none, []⟩

def Window.tile (w : Window) (t : Nat) : Tile := at' Tile.zero w.tiles t

/-- The bank slot that offset `off` names (R184): tile, row, bank, byte. -/
def Window.slot (w : Window) (off : Nat) : Nat :=
  let t := off / 4096
  let o := off % 4096
  t * 4096 + o / 256 * 256 + swz (w.tile t).swz (o / 8 % 32) o * 8 + off % 8

def Window.get (w : Window) (off : Nat) : Byte := w.mem.get (w.slot off)
def Window.set (w : Window) (off : Nat) (b : Byte) : Window := { w with mem := w.mem.set (w.slot off) b }
def Window.read (w : Window) (off n : Nat) : List Byte := (rangeFrom off n).map w.get
def Window.write : Window → Nat → List Byte → Window
  | w, _, [] => w
  | w, off, b :: bs => Window.write (w.set off b) (off + 1) bs

/-- Bytes that a window's offsets may name: the share less the park reserve (R180). -/
def Window.size (w : Window) : Nat := (w.tiles.length - w.rsv) * 4096

def State.winAt (s : State) (team core : Nat) : Option Window :=
  s.windows.find? fun w => w.team == team && w.core == core

/-- The window and offset of a scratchpad address (R180); none for an address fault. -/
def scratchAt (s : State) (G : Group) (a : Word) : Option (Window × Nat) :=
  let off := fld a 0 21
  if fld a 24 40 ≠ 0 ∨ fld a 21 2 ≠ 0 then none
  else match s.winAt G.team G.core with
    | none => none
    | some w =>
      let w' := if a.getLsbD 23 then w.partner.bind fun c => s.winAt G.team c else some w
      match w' with
      | none => none
      | some w => if off < w.size then some (w, off) else none

def State.winWrite (s : State) (id off : Nat) (bs : List Byte) : State :=
  s.modWindow id fun w => w.write off bs

def State.modTile (s : State) (id t : Nat) (f : Tile → Tile) : State :=
  s.modWindow id fun w => { w with tiles := modAt f t w.tiles }

/-! ## Barrier objects (R244) -/

structure BarObj where
  expa  : Nat
  cnta  : Nat
  expb  : Nat
  xb    : Nat
  cntb  : Nat
  abt   : Bool
  ovr   : Bool
  tv    : Bool
  ts    : TS
  phase : Nat
  ainf  : Nat
  deriving DecidableEq, Repr

def BarObj.ofBytes (b : List Byte) : BarObj :=
  let w := fun i => leNat ((b.drop (4 * i)).take 4)
  { expa := w 0, cnta := w 1, expb := w 2, xb := w 3, cntb := w 4
    abt := (w 5).testBit 31, ovr := (w 5).testBit 30, tv := (w 5).testBit 29
    ts := BitVec.ofNat 24 (w 5), phase := w 6, ainf := w 7 }

def BarObj.bytes (o : BarObj) : List Byte :=
  leBytes 4 o.expa ++ leBytes 4 o.cnta ++ leBytes 4 o.expb ++ leBytes 4 o.xb ++ leBytes 4 o.cntb ++
    leBytes 4 (o.ts.toNat + (if o.tv then 2 ^ 29 else 0) + (if o.ovr then 2 ^ 30 else 0) +
      (if o.abt then 2 ^ 31 else 0)) ++ leBytes 4 o.phase ++ leBytes 4 o.ainf

def State.bar (s : State) (team : Nat) (l : BarLoc) : BarObj :=
  match s.winAt team l.core with
  | some w => BarObj.ofBytes (w.read l.off 32)
  | none => BarObj.ofBytes []

def State.setBar (s : State) (team : Nat) (l : BarLoc) (o : BarObj) : State :=
  match s.winAt team l.core with
  | some w => s.winWrite w.id l.off o.bytes
  | none => s

/-- Carry a timestamp into a barrier (R247). -/
def BarObj.carry (o : BarObj) (t : TS) : BarObj :=
  { o with ts := if o.tv then smax o.ts t else t, tv := true }

/-- The open phase has what it expects (R248). -/
def BarObj.full (o : BarObj) : Bool := decide (o.expa ≤ o.cnta) && decide (o.expb + o.xb ≤ o.cntb)

/-- A phase completes (R248), aborted or not (R250); TS and TV are kept, and OVR once set stays. -/
def BarObj.complete (o : BarObj) (abt : Bool) : BarObj :=
  { o with
    ovr := o.ovr || decide (o.expa < o.cnta) || decide (o.expb + o.xb < o.cntb)
    abt := abt, phase := (o.phase + 1) % 2 ^ 32, cnta := 0, cntb := 0, xb := 0 }

/-! ## The registry (R246) -/

def Group.bar? (G : Group) (l : BarLoc) : Option BarReg := G.bars.find? (·.loc == l)

def Group.modBar (G : Group) (l : BarLoc) (f : BarReg → BarReg) : Group :=
  { G with bars := G.bars.map fun b => if b.loc = l then f b else b }

/-- A barrier counts as recorded when a group of the team that sees its window records it (R252). -/
def State.recorded (s : State) (team : Nat) (l : BarLoc) : Bool :=
  s.groups.any fun G => G.team == team && (G.bar? l).isSome

/-- The recorded barriers of a team whose 32-byte objects meet `n` bytes at an offset of a window. -/
def State.touchesBar (s : State) (team core off n : Nat) : Bool :=
  s.groups.any fun G => G.team == team && G.bars.any fun b =>
    b.loc.core == core && decide (b.loc.off < off + n) && decide (off < b.loc.off + 32)

/-- Is a stream waiting on the barrier (R246, R251)? -/
def State.waitedOn (s : State) (team : Nat) (l : BarLoc) : Bool :=
  s.gangs.any fun g => (match s.group? g.group with | some G => G.team == team | none => false) &&
    g.slices.any fun sl => match sl.run with | .barrier m _ _ => m == l | _ => false

/-- Change the count of outstanding commands crediting a barrier in a group's registry (R246). -/
def State.bumpOut (s : State) (grp : Nat) (l : BarLoc) (up : Bool) : State :=
  s.modGroup grp fun G => G.modBar l fun b => { b with out := if up then b.out + 1 else b.out - 1 }

/-! ## Success and the release of waiters (R249) -/

/-- A success raises PTS to TS when TV = 1 and TS does not precede the core floor (R249). -/
def successPts (floor : TS) (o : BarObj) (pts : TS) : TS :=
  if o.tv && decide ((o.ts - floor).toNat < 2 ^ 23) then smax pts o.ts else pts

/-- A success of a stream on a barrier: EXP is inverted under MODE 00, PTS is raised (R249). -/
def State.succeed (s : State) (g : Gang) (grp : Nat) (l : BarLoc) (own : Bool) (o : BarObj) : State :=
  match s.group? grp with
  | none => s
  | some G =>
    let s := s.modGang g.id fun g => { g with pts := successPts (s.floor G.core) o g.pts }
    if !own then s
    else s.modGroup grp fun G => G.modBar l fun b =>
      { b with exp := if b.exp.contains g.idx then b.exp.filter (· != g.idx) else g.idx :: b.exp }

/-- The streams of a gang that wait on a barrier: (slices, MODE 00, resume address). -/
def Gang.waiters (g : Gang) (l : BarLoc) : List (List Nat × Bool × Word) :=
  let xs := (imap (fun i sl => match Slice.run sl with
    | .barrier m own pc => if m == l && sl.live then [(i, own, pc)] else []
    | _ => []) 0 g.slices).flatten
  if g.unified then
    match xs with
    | [] => []
    | (_, own, pc) :: _ => [(xs.map (·.1), own, pc)]
  else xs.map fun x => ([x.1], x.2.1, x.2.2)

/-- Release one waiting stream: it goes on at its resume address; after an aborted phase it takes the
barrier fault with TRAPPC there, once its success has taken effect (R249, R123). -/
def State.releaseOne (s : State) (gid : Nat) (l : BarLoc) (o : BarObj) (w : List Nat × Bool × Word) : State :=
  match s.gang? gid with
  | none => s
  | some g =>
    let s := s.succeed g g.group l w.2.1 o
    let wake := fun (i : Nat) (sl : Slice) =>
      if w.1.contains i then
        let r := max sl.readyAt (s.beat + 1)
        { sl with run := .run, pc := w.2.2, readyAt := r, since := r }
      else sl
    let s := s.modGang gid fun g => { g with slices := imap wake 0 g.slices }
    if !o.abt then s
    else match s.gang? gid, s.group? g.group with
      | some g, some G => takeTrap s ⟨g, G, w.1⟩ 0x16 0 false (maskOf (Cx.actives ⟨g, G, w.1⟩)) (some w.2.2)
      | _, _ => s

/-- A phase completes: lane counts are cleared in every registry of the team, and every waiter of the
phase is released (R247, R248). -/
def State.completePhase (s : State) (team : Nat) (l : BarLoc) (o : BarObj) : State :=
  let s := s.setBar team l o
  let clear := fun (G : Group) => if G.team = team then G.modBar l fun b => { b with cnt := [] } else G
  let s := { s with groups := s.groups.map clear }
  let mine := s.gangs.filter fun g => match s.group? g.group with
    | some G => G.team == team
    | none => false
  mine.foldl (fun (s : State) (g : Gang) => (g.waiters l).foldl (fun s w => s.releaseOne g.id l o w) s) s

/-- The phase test (R248), run after every change to the object. -/
def State.phaseTest (s : State) (team : Nat) (l : BarLoc) : State :=
  let o := s.bar team l
  if o.full then s.completePhase team l (o.complete false) else s

/-- Credit landed bytes and a timestamp, then run the phase test (R284). -/
def State.credit (s : State) (team : Nat) (l : BarLoc) (n : Nat) (t : TS) : State :=
  let o := s.bar team l
  (s.setBar team l { o.carry t with cntb := o.cntb + n }).phaseTest team l

/-- One arrival without a lane: MXEND and forked programs (R328, R371). -/
def State.arrive (s : State) (team : Nat) (l : BarLoc) (t : TS) : State :=
  let o := s.bar team l
  (s.setBar team l { o.carry t with cnta := o.cnta + 1 }).phaseTest team l

/-- The open phase as it completes aborted, with AINF written (R250, R287). -/
def BarObj.aborted (o : BarObj) (cause cursor : Nat) : BarObj :=
  { o.complete true with ainf := cause % 256 * 2 ^ 24 + cursor % 2 ^ 24 }

/-- The open phase completes aborted (R250, R287). -/
def State.abortPhase (s : State) (team : Nat) (l : BarLoc) (cause cursor : Nat) : State :=
  s.completePhase team l ((s.bar team l).aborted cause cursor)

/-- An arrival of a killed program, with the phase completed aborted (R372). -/
def State.arriveAborted (s : State) (team : Nat) (l : BarLoc) (t : TS) (cause cursor : Nat) : State :=
  let o := s.bar team l
  s.completePhase team l (BarObj.aborted { o.carry t with cnta := o.cnta + 1 } cause cursor)

/-! ## The implicit barrier of a gang (R33, R120) -/

/-- Slices that rejoin take the return stack of the lowest-numbered live slice; RSM is set in every
slice when they differ (R120). [DEDUCED: log entry 81] -/
def Gang.mergeStacks (g : Gang) : Gang :=
  match g.liveSlices.head?.bind g.slice? with
  | none => g
  | some f =>
    let differ := g.liveSlices.any fun i => match g.slice? i with
      | some sl => sl.rstack != f.rstack | none => false
    let take := fun (sl : Slice) =>
      { sl with rstack := if sl.live then f.rstack else sl.rstack, status := sl.status ||| 0x80#64 }
    if !differ then g else { g with slices := g.slices.map take }

/-- The phase of the implicit barrier completes once every live slice has arrived (R33). -/
def Gang.regangTest (beat : Nat) (g : Gang) : Gang :=
  let live := g.liveSlices
  let addrs := live.filterMap fun i => match g.slice? i with
    | some sl => match sl.run with | .regang a => some a | _ => none
    | none => none
  match addrs with
  | [] => g
  | a :: r =>
    if addrs.length < live.length then g
    else
      let go := fun (sl : Slice) => match sl.run with
        | .regang _ => if sl.live then
            { sl with run := .run, readyAt := max sl.readyAt (beat + 1), since := max sl.readyAt (beat + 1) } else sl
        | _ => sl
      let g' := { g with slices := g.slices.map go }
      if r.all (· == a) then { g'.mergeStacks with unified := true } else g'

/-! ## Slices and lanes that go -/

/-- A number that no launch has: PLACE_TEAM with it only offers the cores anew. -/
def noLaunch : Nat := 65536

/-- Room has come free on a core: it is offered to the waiting teams in the next beat (R28, R354). -/
def State.kickSoon (s : State) : State :=
  if s.launches.isEmpty then s else s.postAt (s.cycle + 4) (.placeTeam 0 noLaunch)

/-- A barrier without one slice (R41): EXPA falls by 4 and CNTA by the lanes it had counted, neither below 0. -/
def State.lowerFor (s : State) (grp team : Nat) (l : BarLoc) (key : Nat × Nat) : State :=
  match (s.group? grp).bind (·.bar? l) with
  | none => s
  | some b =>
    if b.nsl then s
    else
      let c := ((b.cnt.find? (·.1 == key)).map (·.2)).getD 0
      let o := s.bar team l
      let s := s.setBar team l { o with expa := o.expa - 4, cnta := o.cnta - c }
      s.modGroup grp fun G => G.modBar l fun b => { b with cnt := b.cnt.filter (·.1 != key) }

/-- A retired slice leaves a barrier that counts slices (R41), and the phase is tested (R248). [DEDUCED: log entry 23] -/
def State.dropFrom (s : State) (grp team : Nat) (l : BarLoc) (key : Nat × Nat) : State :=
  if ((s.group? grp).bind (·.bar? l)).any (!·.nsl) then (s.lowerFor grp team l key).phaseTest team l else s

/-- Arrivals are counted (R247): in the registry by slice, in the object, and the timestamp is carried. -/
def State.arriveLanes (s : State) (grp team : Nat) (a : Arrival) (t : TS) : State :=
  let s := s.modGroup grp fun G => G.modBar a.loc fun b =>
    { b with cnt := a.cnt.foldl (fun cs c => match cs.find? (·.1 == c.1) with
        | some old => (c.1, old.2 + c.2) :: cs.filter (·.1 != c.1)
        | none => c :: cs) b.cnt }
  let ob := s.bar team a.loc
  (s.setBar team a.loc { (ob.carry t) with
    cnta := ob.cnta + (a.cnt.map (·.2)).sum, xb := (ob.xb + a.add) % 2 ^ 32 }).phaseTest team a.loc

/-- The gangs of a team that run on: not ended, of a group that has not failed. -/
def State.teamGangs (s : State) (team : Nat) : List Gang :=
  s.gangs.filter fun g => g.ended.isNone && (match s.group? g.group with
    | some G => G.team == team && G.fatal.isNone && !G.ending
    | none => false)

/-- A team is inside a region when every gang of it that has not ended is (R360). -/
def State.teamInside (s : State) (team : Nat) : Bool :=
  !(s.teamGangs team).isEmpty && (s.teamGangs team).all (·.region.isSome)

/-- A marked team that is now inside a region is discarded (R361, R362). -/
def State.regionTest (s : State) (team : Nat) : State :=
  match s.team? team with
  | some T => if T.mark.isSome && T.saved.isEmpty && s.teamInside team then s.post (.discardTeam team) else s
  | none => s

/-- When the last gang of a group has ended, its end, or its restart under a role, follows. [DEDUCED: log entry 50] -/
def State.checkGroup (s : State) (grp : Nat) : State :=
  let gs := s.gangsOf grp
  let s := match s.group? grp with
    | some G => s.regionTest G.team
    | none => s
  if gs.all (·.ended.isSome) then
    s.post (if gs.any (fun g => match g.ended with | some (.role _) => true | _ => false)
      then .roleRestart grp else .groupEnd grp)
  else s

/-- With one gang fewer to wait for, sealed epochs of a group may drain (R240). -/
def State.epochTest (s : State) (grp : Nat) : State :=
  if s.reds.any fun e => e.group == grp && e.drain.isNone then
    s.post (.redDrain grp (.epoch (s.reds.foldl (fun m e => max m e.epoch) 0)))
  else s

/-- A gang without a live slice has ended, as if by EXIT (R41, R122). [DEDUCED: log entry 50] -/
def State.checkGang (s : State) (gid : Nat) : State :=
  match s.gang? gid with
  | none => s
  | some g =>
    if g.ended.isSome ∨ !g.liveSlices.isEmpty then s
    else
      let how := if g.slices.all fun sl => sl.lanes.all (·.dead) then GangEnd.retired else .exit
      ((s.modGang gid fun g => { g with ended := some how, region := none }).epochTest g.group).checkGroup g.group

/-- A slice retires (R41): it leaves every registered barrier with NSL = 0, unless it was dropped
already, and the gang's implicit barrier; a gang left without slices has ended. Its pipe slot frees (R28). It
retires once. [DEDUCED: log entry 23] -/
def State.retireSlice (s : State) (gid i : Nat) : State :=
  match s.gang? gid with
  | none => s
  | some g =>
    match s.group? g.group with
    | none => s
    | some G =>
      let s := s.modGang gid fun g => { g with slices := modAt (fun sl => { sl with run := .retired }) i g.slices }
      let s := G.bars.foldl (fun s b =>
        if b.drop.contains (g.idx, i) then s else s.dropFrom G.id G.team b.loc (g.idx, i)) s
      ((s.modGang gid (Gang.regangTest s.beat)).checkGang gid).kickSoon

/-- The lanes of one word that died enter the log as one entry of type 0x03 (R383). -/
def State.logDeaths (s : State) (gid : Nat) (dead : List Nat) : State :=
  match s.gang? gid, dead with
  | some g, L :: _ =>
    match s.group? g.group with
    | none => s
    | some G => (logEntry s G.part 0x03 0x40 0 0 G.lid (ident32 G g.idx L) (maskOf dead).toNat).spoilAudit G.id
  | _, _ => s

/-- Lanes of a gang with a death mark (R40). -/
def Gang.deaden (g : Gang) (dead : List Nat) : Gang :=
  { g with slices := imap (fun i sl => Slice.mapLanes sl fun j l =>
      if dead.contains (4 * i + j) then { l with dead := true } else l) 0 g.slices }

/-- Mark lanes of a gang dead; a slice that thereby has no live lane, and has not retired before, retires (R40, R41).
The lanes may bear their marks already, from the word in which they died. -/
def State.markDead (s : State) (gid : Nat) (dead : List Nat) : State :=
  match s.gang? gid with
  | none => s
  | some g =>
    let g' := g.deaden dead
    let gone := (rangeFrom 0 g.slices.length).filter fun i => match g'.slice? i with
      | some sl => sl.run != .retired && sl.lanes.all (·.dead) && dead.any (fun L => L / 4 == i)
      | none => false
    gone.foldl (fun s i => s.retireSlice gid i) (s.modGang gid fun g => g.deaden dead)

/-- The lanes `new` die in a word, `all` being every lane that died in it: the lanes are marked, the word's
one log entry is made, and slices whose last lane died retire (R40, R41, R383). -/
def killMore (s : State) (gid : Nat) (new all : List Nat) : State :=
  if all.isEmpty then s else (s.markDead gid new).logDeaths gid all

/-- Lanes of a gang die in a word. -/
def killLanes (s : State) (gid : Nat) (dead : List Nat) : State := killMore s gid dead dead

/-! ## Damage in scratchpad (R379, R381, R382, R384) -/

/-- LOC of a scratchpad event. -/
def scratchLoc (core : Nat) (G : Group) (off : Nat) : Nat :=
  2 ^ 63 + core % 256 * 2 ^ 48 + (G.teamIdx * G.perTeam + G.idx) % 2 ^ 22 * 2 ^ 24 + off

/-- Does a read touch a bad byte of an uncorrectable word? -/
def scratchBad (s : State) (w : Window) (off n : Nat) : Bool :=
  s.bad.any fun d => !d.fixable && (match d.loc with
    | .scratch id word => id == w.id && (rangeFrom off n).any fun o =>
        w.slot o / 8 == word && !d.good.getLsbD (o % 8)
    | _ => false)

/-- Correctable errors that a read meets are repaired and logged. -/
def scratchRepair (s : State) (G : Group) (w : Window) (off n : Nat) : State :=
  let hit := fun (d : Damage) => d.fixable && (match d.loc with
    | .scratch id word => id == w.id && (rangeFrom off n).any fun o => w.slot o / 8 == word
    | _ => false)
  (s.bad.filter hit).foldl (fun s d =>
    logEntry { s with bad := s.bad.erase d } G.part 0x01 0 0 0 G.lid (scratchLoc w.core G off) 0) s

/-- A write meets damage: what it leaves, and what it logs (R379, R382). -/
def scratchMend (s : State) (G : Group) (w : Window) (off n : Nat) : State :=
  if s.bad.isEmpty then s
  else
    let f := fun (d : Damage) => match d.loc with
      | .scratch id word =>
        let wr := (rangeFrom off n).foldl (fun (m : BitVec 8) o =>
          if w.slot o / 8 = word then m ||| (1#8 <<< (o % 8)) else m) 0
        if id ≠ w.id then (some d, none) else d.write wr
      | _ => (some d, none)
    (s.bad.filterMap fun d => (f d).2).foldl (fun s type =>
      logEntry s G.part type 0 0 0 G.lid (scratchLoc w.core G off) 0) { s with bad := s.bad.filterMap fun d => (f d).1 }

/-! ## Scratchpad accesses when their passes are done (R223, R448) -/

/-- One lane of a load reads its bytes; a bad one among them is not used (R381). -/
def passLoad (G : Group) (p : ScratchPass) (op : Nat) (s : State) (a : Nat × Nat × Nat × Nat × List Byte) : State :=
  match s.windows.find? (·.id == a.2.1) with
  | none => s
  | some w =>
    let off := a.2.2.1
    let n := a.2.2.2.1
    let got := if scratchBad s w off n then s.modOp op fun o => { o with dead := o.dead ++ [a.1] }
      else s.modOp op fun o => { o with
        vals := o.vals ++ [(a.1, leWord (w.read off (min n 8)))]
        regs := match p.more with
          | some r => o.regs ++ [(r, a.1, leWord (w.read (off + 8) 8))]
          | none => o.regs }
    scratchRepair got G w off n

/-- One lane of a store writes its bytes. -/
def passStore (G : Group) (s : State) (a : Nat × Nat × Nat × Nat × List Byte) : State :=
  match s.windows.find? (·.id == a.2.1) with
  | none => s
  | some w => (scratchMend s G w a.2.2.1 a.2.2.2.2.length).winWrite w.id a.2.2.1 a.2.2.2.2

/-- Lanes whose bytes of a load are bad. -/
def passHurt (s : State) (p : ScratchPass) : List Nat :=
  if p.op.isNone then []
  else p.accs.filterMap fun a => match s.windows.find? (·.id == a.2.1) with
    | some w => if scratchBad s w a.2.2.1 a.2.2.2.1 then some a.1 else none
    | none => none

/-- A scratchpad access is performed as at one point (R223); a lane that reads a bad word dies (R40, R381). [DEDUCED: log entry 24] -/
def State.performPass (s : State) (p : ScratchPass) : State :=
  let s := { s with passes := s.passes.filter (·.id != p.id) }
  match (s.gang? p.gang).bind fun g => s.group? g.group with
  | none => s
  | some G => match p.op with
    | some op => (p.accs.foldl (passLoad G p op) s).markDead p.gang (passHurt s p)
    | none => p.accs.foldl (passStore G) s

/-- Do two accesses belong to one stream? -/
def ScratchPass.sameStream (p q : ScratchPass) : Bool := p.gang == q.gang && p.slices.any (q.slices.contains ·)

/-- The accesses of a stream that are still to be performed are performed, in the order of their issue. [DEDUCED: log entry 24] -/
def State.settlePasses (s : State) (gang : Nat) (ss : List Nat) : State :=
  (s.passes.filter fun p => p.gang == gang && p.slices.any (ss.contains ·)).foldl State.performPass s

/-- The same for the stream of a word, with the stream as it then stands: none when all its lanes have died. -/
def settled (s : State) (x : Cx) : State × Option Cx :=
  if s.passes.any fun p => p.gang == x.g.id && p.slices.any (x.ss.contains ·) then
    let s := s.settlePasses x.g.id x.ss
    (s, s.streamOf ⟨x.g.id, if x.g.unified then none else x.ss.head?⟩)
  else (s, some x)

/-- The same for every stream of a group. [DEDUCED: log entry 24] -/
def State.settleGroup (s : State) (grp : Nat) : State :=
  (s.passes.filter fun p => (s.gangsOf grp).any (·.id == p.gang)).foldl State.performPass s

/-- The accesses whose last pass falls in this beat are performed, each after the earlier ones of its stream (R448). -/
def State.passesDue (s : State) : State :=
  (s.passes.filter fun p => s.passes.any fun q => decide (q.due ≤ s.beat) && decide (p.id ≤ q.id) && p.sameStream q).foldl
    State.performPass s

/-- An access begins its passes: one whose last pass is done in the beat of issue is performed at once. [DEDUCED: log entry 24] -/
def State.startPass (s : State) (p : ScratchPass) : State :=
  let p := { p with id := s.fresh }
  let s := { s with fresh := s.fresh + 1 }
  if p.due ≤ s.beat then (s.settlePasses p.gang p.slices).performPass p else { s with passes := s.passes ++ [p] }

end Sys2Proof.Machine
end

