-- ==== Sys2Proof/Machine/Operands.lean ====
section
/-!
DEFINITION. Operand forms and the life of a lane word: S7, G7 and moment sources (R50, R53, R76, R101),
destinations (R54), hints (R63 to R67), the interlocks (R59), the stall check (R60), poison reads (R62),
last-use marks (R52), the queue push (R48), and lane participation (R39). A meaning of a lane word
gives its shape and a function from its source values to the result in one lane.
-/

namespace Sys2Proof.Machine

/-! ## Sub-elements (R75) -/

/-- The unsigned sub-elements of width `w`, lowest first. -/
def elems (w : Nat) (x : Word) : List Nat := (rangeFrom 0 (64 / w)).map fun i => fld x (i * w) w

/-- A register of sub-elements of width `w`, each taken modulo 2^w. -/
def packElems (w : Nat) : List Nat → Word
  | [] => 0
  | e :: es => BitVec.ofNat 64 (e % 2 ^ w) ||| (packElems w es <<< w)

/-- The width an integer W field selects (R56). -/
def widthOf (w : BitVec 2) : Nat := 8 * 2 ^ w.toNat

/-- One value in every sub-element of width `w`. -/
def replicateElem (w v : Nat) : Word := packElems w (List.replicate (64 / w) v)

/-! ## Sources and destinations -/

/-- How the immediate codes of a G7 field are read (R53): into integer sub-elements (R76), into
floating-point ones (R101), or as one 64-bit value (R228). -/
inductive ImmKind where
  | int (w : Nat)
  | flt (f : Fmt)
  | whole
  deriving DecidableEq, Repr

/-- A source operand: S7 (R50), G7 (R53), a moment register (R151). -/
inductive Src where
  | s7 (c : BitVec 7)
  | g7 (c : BitVec 7) (k : ImmKind)
  | mom (i : Nat)
  deriving DecidableEq, Repr

/-- A destination: a D5 field (R54), the queue unless HDST is attached (R56), a predicate, a moment
register, or none. -/
inductive Dst where
  | d5 (d : Nat)
  | push
  | pred (p : Nat)
  | mom (i : Nat)
  | none
  deriving DecidableEq, Repr

/-- The register number of an S7 field, and its last-use and keep codes (R50). -/
def s7reg (c : BitVec 7) : Nat := c.toNat % 32
def s7last (c : BitVec 7) : Bool := c.getLsbD 6
def s7keep (c : BitVec 7) : Bool := c.getLsbD 5 && !c.getLsbD 6

/-- What a word's hints give it: the 64-bit immediate of the attached HIMM slots (R65). -/
def Hints.imm (h : Hints) : Option Word :=
  match h.hi, h.mid, h.lo with
  | some d, m, l =>
    some (((d.extractLsb' 0 16).setWidth 64 <<< 48) ||| ((m.getD 0).setWidth 64 <<< 24) |||
      (l.getD 0).setWidth 64)
  | .none, some m, l =>
    some (((m.signExtend 64) <<< 24) ||| (l.getD 0).setWidth 64)
  | .none, .none, some l => some (l.signExtend 64)
  | .none, .none, .none => .none

/-- A G7 operand in lane L of a gang (R53, R76, R101). Code 60 without an immediate does not reach
here: it is a reserved operand code. -/
def g7val (g : Gang) (h : Hints) (c : BitVec 7) (k : ImmKind) (L : Nat) : Word :=
  let n := c.toNat
  if n < 60 then at' 0 g.g n
  else if n = 60 then h.imm.getD 0
  else if n < 64 then
    let v := if n = 61 then L else if n = 62 then L / 4 else g.idx
    match k with
    | .flt f => replicateElem f.width (f.ofInt v)
    | _ => BitVec.ofNat 64 v
  else
    let v : Int := (n : Int) - 96
    match k with
    | .int w => replicateElem w (v % (2 ^ w : Nat)).toNat
    | .flt f => replicateElem f.width (f.ofInt v)
    | .whole => BitVec.ofInt 64 v

def Timing.zero : Timing := ⟨0, 0, 0, .none⟩

/-- The timing record of an S7 or moment source in a slice; a G7 source has none. -/
def Slice.timing (sl : Slice) : Src → Timing
  | .s7 c => if s7reg c < 16 then at' Timing.zero sl.nT (s7reg c) else at' Timing.zero sl.qT (s7reg c - 16)
  | .mom i => at' Timing.zero sl.mT i
  | .g7 _ _ => Timing.zero

/-- The source was produced at a static distance below its producer's latency (R60). -/
def Slice.underrun (sl : Slice) (src : Src) : Bool :=
  decide (sl.clock - (sl.timing src).stat < (sl.timing src).lat)

/-- The producer's result is not there yet at the actual beat distance (R60). [DEDUCED: log entry 88] -/
def Slice.early (beat : Nat) (sl : Slice) (src : Src) : Bool :=
  decide (beat - (sl.timing src).beat < (sl.timing src).lat)

/-- The value a lane reads. A result read before its latency has run out yields the register's prior
content, or poison for a queue entry (R60). [DEDUCED: log entry 88] -/
def Lane.read (l : Lane) (early : Bool) (g : Gang) (h : Hints) (L : Nat) : Src → Word
  | .s7 c =>
    let r := s7reg c
    if r < 16 then at' 0 (if early then l.nOld else l.n) r
    else if early then poison else at' 0 l.q (r - 16)
  | .mom i => at' 0 (if early then l.mOld else l.m) i
  | .g7 c k => g7val g h c k L

/-- The source values of one lane of the gang. -/
def srcVals (beat : Nat) (g : Gang) (srcs : List Src) (L : Nat) : List Word :=
  match g.slice? (L / 4), g.lane? L with
  | some sl, some l => srcs.map fun src => l.read (sl.early beat src) g sl.hints L src
  | _, _ => srcs.map fun _ => poison

/-- The source values of every lane of the gang; a dead lane supplies poison to others (R39). -/
def allVals (beat : Nat) (g : Gang) (srcs : List Src) : List (List Word) :=
  (rangeFrom 0 (4 * g.slices.length)).map (srcVals beat g srcs)

/-! ## Hints a word accepts -/

/-- An HMOD with RM only (R100, R161, R174). -/
def hmRM (h : OpHmod) : Bool := h.v == 0#1 && h.p == 0#3 && h.t == 0#1
/-- An HMOD with RM and SAT (R100). -/
def hmRMSAT (h : OpHmod) : Bool := h.v == 0#1 && h.p == 0#3
/-- An HMOD with POL only, of values 000 to 011 (R232). -/
def hmPOL (h : OpHmod) : Bool := h.v == 0#1 && h.t == 0#1 && h.r == 0#3
def hmNone (_ : OpHmod) : Bool := false

/-- Does the source list hold G7 code 60? -/
def usesImm (srcs : List Src) : Bool :=
  srcs.any fun s => match s with | .g7 c _ => c == 60#7 | _ => false

/-- The hints attached are ones the word accepts (R63): HIMM only, and always, with G7 code 60; HDST
and HMOD as the family states; every word accepts HSCHED. [DEDUCED: log entry 41] -/
def hintsOk (h : Hints) (srcs : List Src) (hdst : Bool) (hm : OpHmod → Bool) : Bool :=
  !h.bad && (h.imm.isSome == usesImm srcs) && (hdst || h.dst.isNone) &&
    (match h.mods with | .none => true | some m => hm m)

/-! ## The shape of a lane word -/

/-- The operand fields of a lane word and how it is issued: extra beats, sources, destination, latency
of its class (R58) or the bounds in beats of its scoreboarded return (R445, R173), the predicates it
reads, the hints it accepts, whether its own fields are legal, whether it is one of the scoreboarded
floating-point words that set flags at return and hold under enabled traps (R99), whether it raises the
stall-underrun trap (R60), and whether every live lane reads the sources, whatever the guard: a lane whose value
others read (R39), a parked register (R129); `cf` marks a function-unit word (R165). [DEDUCED for `chk`: log entry 53] -/
structure Shape where
  st    : Nat
  srcs  : List Src
  dst   : Dst
  lat   : Nat
  sb    : Option (Nat × Nat) := none
  preds : List Nat := []
  hdst  : Bool := false
  hm    : OpHmod → Bool := hmNone
  legal : Bool := true
  fp    : Bool := false
  chk   : Bool := true
  wide  : Bool := false
  cf    : Bool := false

/-- What a lane word gives one lane: result, exceptions, sticky marks, and a cause of its own. -/
structure LaneOut where
  val   : Word
  fl    : FFlags := 0
  isat  : Bool := false
  idz   : Bool := false
  mvcl  : Bool := false
  cause : Option Nat := none
  deriving DecidableEq, Repr

/-- The destination after HDST (R56, R66, R166). -/
def Shape.dest (W : Shape) (h : Hints) : Dst :=
  match W.dst, h.dst with
  | .push, some d => .d5 d.toNat
  | .d5 16, some d => if W.hdst then .d5 d.toNat else .d5 16
  | d, _ => d

def Dst.pushes : Dst → Bool
  | .d5 d => d ≤ 16
  | .push => true
  | _ => false

def Dst.named : Dst → Option Nat
  | .d5 d => if d < 16 then some d else Option.none
  | _ => Option.none

/-- The stream waits for a scoreboarded result that the word reads or writes (R59), or for an operation
that holds its next word (R99). Predicates are written as their words issue, so their interlock never
waits. -/
def Cx.pending (x : Cx) (s : State) (srcs : List Src) (dst : Dst) : Bool :=
  (x.ss.any fun i => match x.g.slice? i with
    | .none => false
    | some sl =>
      srcs.any (fun src => (sl.timing src).pend.isSome) ||
      (match dst with
        | .d5 d => decide (d < 16) && (at' Timing.zero sl.nT d).pend.isSome
        | .mom m => (at' Timing.zero sl.mT m).pend.isSome
        | _ => false)) || x.blocked s

/-- The active lanes that satisfy a test, as a mask. -/
def Cx.maskOfP (x : Cx) (p : Nat → Bool) : Word := maskOf (x.actives.filter p)

/-- The slice record a lane belongs to. -/
def Cx.sliceOf (x : Cx) (L : Nat) : Option Slice := x.g.slice? (L / 4)

/-- The faults common to lane words: stall underrun (R60) and the poison-read trap (R62). A lane reads poison
when one of its own sources is poison. [DEDUCED: log entries 41, 53, 87, 91] -/
def commonCauses (x : Cx) (chk : Bool) (srcs : List Src) (vals : List (List Word)) : List (Nat × Word) :=
  let ur := chk && x.ss.any fun i => match x.g.slice? i with
    | some sl => sl.stallchk.getLsbD 0 && srcs.any sl.underrun
    | .none => false
  let pm := x.maskOfP fun L => (at' [] vals L).contains poison &&
    (match x.sliceOf L with | some sl => sl.hasStatus sPRE | .none => false)
  (if ur then [(0x03, x.mask)] else []) ++ (if pm != 0 then [(0x04, pm)] else [])

/-- The lowest cause of a list, with its lanes (R111, R140, R229). [DEDUCED: log entry 87] -/
def lowest : List (Nat × Word) → Option (Nat × Word)
  | [] => none
  | (c, m) :: r =>
    match lowest r with
    | none => some (c, m)
    | some (c', m') => if c < c' then some (c, m) else if c = c' then some (c, m ||| m') else some (c', m')

/-! ## Committing -/

/-- Sticky PRD in the slices whose active lanes read poison among their own sources (R62). [DEDUCED: log entry 91] -/
def Cx.notePoison (x : Cx) (vals : List (List Word)) : Cx :=
  let read := fun (i : Nat) (sl : Slice) =>
    (rangeFrom 0 4).any fun j => sl.active j && (at' [] vals (4 * i + j)).contains poison
  { x with g := x.mapSlices fun i sl => sl.stick sPRD (read i sl) }

/-- The operand-cache code and last-use mark of one source in a slice (R51, R52). [DEDUCED: log entry 88] -/
def Slice.mark (sl : Slice) : Src → Slice
  | .s7 c =>
    let r := s7reg c
    if s7last c then
      if r < 16 then
        { sl.mapLanes (fun _ l => { l with n := modAt (fun _ => poison) r l.n }) with
          nT := modAt (fun _ => Timing.zero) r sl.nT, opc := sl.opc.filter (· != r) }
      else sl.mapLanes fun _ l => { l with q := modAt (fun _ => poison) (r - 16) l.q }
    else if s7keep c then { sl with opc := (r :: sl.opc.filter (· != r)).take 4 }
    else sl
  | _ => sl

/-- Write a named register in the lanes where `v` gives a value, with its producer's timing. -/
def Slice.writeNamed (sl : Slice) (r : Nat) (t : Timing) (v : Nat → Option Word) : Slice :=
  { sl.mapLanes (fun j l => match v j with
      | some x => { l with nOld := modAt (fun _ => at' 0 l.n r) r l.nOld, n := modAt (fun _ => x) r l.n }
      | .none => { l with nOld := modAt (fun _ => at' 0 l.n r) r l.nOld }) with
    nT := modAt (fun _ => t) r sl.nT }

/-- Push one entry into every lane's queue (R48): the value where there is one, poison elsewhere. -/
def Slice.pushQ (sl : Slice) (t : Timing) (v : Nat → Option Word) : Slice :=
  { sl.mapLanes (fun j l => { l with q := ((v j).getD poison :: l.q).take 16 }) with
    qT := (t :: sl.qT).take 16 }

/-- Write a moment register. -/
def Slice.writeMom (sl : Slice) (r : Nat) (t : Timing) (v : Nat → Option Word) : Slice :=
  { sl.mapLanes (fun j l => match v j with
      | some x => { l with mOld := modAt (fun _ => at' 0 l.m r) r l.mOld, m := modAt (fun _ => x) r l.m }
      | .none => { l with mOld := modAt (fun _ => at' 0 l.m r) r l.mOld }) with
    mT := modAt (fun _ => t) r sl.mT }

/-- Deliver results to a destination in one slice (R54, R39): `v` gives the value of each active lane. -/
def Slice.deliver (sl : Slice) (d : Dst) (t : Timing) (v : Nat → Option Word) : Slice :=
  match d with
  | .d5 n =>
    let sl := if n < 16 then sl.writeNamed n t v else sl
    if n ≤ 16 then sl.pushQ t v else sl
  | .push => sl.pushQ t v
  | .pred p => sl.mapLanes fun j l => match v j with | some x => l.setPred p (x != 0) | .none => l
  | .mom m => sl.writeMom m t v
  | .none => sl

/-- Reserve the destination of a scoreboarded word (R48, R59). -/
def Slice.reserve (sl : Slice) (d : Dst) (op : Nat) : Slice :=
  let t : Timing := ⟨sl.clock, 0, 0, some op⟩
  match d with
  | .d5 n =>
    let sl := if n < 16 then { sl with nT := modAt (fun _ => t) n sl.nT } else sl
    if n ≤ 16 then sl.pushQ t fun _ => .none else sl
  | .push => sl.pushQ t fun _ => .none
  | .mom m => { sl with mT := modAt (fun _ => t) m sl.mT }
  | _ => sl

/-- The lanes of a gang and their slice positions: lane L holds position L mod 4 (R27). -/
def outAt (outs : Nat → LaneOut) (sl : Slice) (i j : Nat) : Option Word :=
  if sl.active j then some (outs (4 * i + j)).val else .none

/-- The exceptions of a slice's active lanes. -/
def slFlags (outs : Nat → LaneOut) (i : Nat) (sl : Slice) : FFlags :=
  (rangeFrom 0 4).foldl (fun f j => if sl.active j then f ||| (outs (4 * i + j)).fl else f) 0

/-- Does some active lane of the slice carry a mark? -/
def slAny (p : LaneOut → Bool) (outs : Nat → LaneOut) (i : Nat) (sl : Slice) : Bool :=
  (rangeFrom 0 4).any fun j => sl.active j && p (outs (4 * i + j))

/-- Damage a lane's own register reads would consume (R381): the source places of one lane. -/
def laneDamaged (s : State) (g L : Nat) (src : Src) : Bool :=
  s.bad.any fun d => !d.fixable && (match src, d.loc with
    | .s7 c, .named g' L' r => g == g' && L == L' && r == s7reg c
    | .s7 c, .queue g' L' r => g == g' && L == L' && r + 16 == s7reg c
    | .mom i, .moment g' L' r => g == g' && L == L' && r == i
    | _, _ => false)

/-- A place that the word reads for its whole stream: a uniform source, the predicates of an issuing slice
when it names one or is guarded, and its control registers, which every word of a stream consults (R60, R62,
R137). [DEDUCED: log entry 92] -/
def Cx.readsWhole (x : Cx) (srcs : List Src) (preds : List Nat) : Storage → Bool
  | .uniform g r => g == x.g.id &&
      srcs.any fun src => match src with | .g7 c _ => c.toNat == r | _ => false
  | .predicates g k => g == x.g.id && x.ss.contains k &&
      (!preds.isEmpty || (match x.g.slice? k with
        | some sl => sl.guard.pred != 0#7
        | .none => false))
  | .control g k => g == x.g.id && x.ss.contains k
  | _ => false

/-- An uncorrectable error in such a place is read by the word (R381): its group ends with cause 0x42. -/
def groupDamaged (s : State) (x : Cx) (srcs : List Src) (preds : List Nat) : Bool :=
  s.bad.any fun d => !d.fixable && x.readsWhole srcs preds d.loc

/-- The live lanes of the issuing slices, ascending. -/
def Cx.lives (x : Cx) : List Nat :=
  (x.ss.map fun i => match x.g.slice? i with
    | .none => []
    | some sl => (rangeFrom 0 4).filterMap fun j =>
        if (sl.lanes[j]?).any (fun l => !l.dead) then some (4 * i + j) else .none).flatten

/-- A lane that consumes an uncorrectable error dies (R381, R40): its destination stays unchanged and its queue
entry is poison. A live lane whose value others read, or whose register is parked, reads it too, whatever its
guard. [DEDUCED: log entry 92] -/
def dyingLanes (s : State) (x : Cx) (W : Shape) : List Nat :=
  if s.bad.isEmpty then [] else
    (if W.wide then x.lives else x.actives).filter fun L =>
      (if x.actives.contains L then W.srcs else W.srcs.take 1).any (laneDamaged s x.g.id L)

/-- The stream as the word sees it: the lanes that die of it are dead from it on (R40). -/
def Cx.without (x : Cx) (dead : List Nat) : Cx :=
  if dead.isEmpty then x else { x with g := x.g.deaden dead }

/-- The source values as the word sees them: a lane that dies gives nothing but poison (R39, R381). [DEDUCED: log entry 43] -/
def hush (dead : List Nat) (vals : List (List Word)) : List (List Word) :=
  if dead.isEmpty then vals
  else imap (fun L vs => if dead.contains L then vs.map fun _ => poison else vs) 0 vals

/-- The gang of the stream after a lane word commits: marks, sticky bits, flags, then the writes, and
the stream goes on (R52, R54, R98). [DEDUCED: log entry 94] -/
def Cx.commit (x : Cx) (s : State) (W : Shape) (allFl : Bool) (outs : Nat → LaneOut)
    (dead : List Nat) (op : Option Nat) : Gang :=
  let all : FFlags := x.ss.foldl (fun f i => match x.g.slice? i with
    | some sl => f ||| slFlags outs i sl | .none => f) 0
  x.mapSlices fun i sl0 =>
    let v := fun j => if dead.contains (4 * i + j) then .none else outAt outs sl0 i j
    let d := W.dest sl0.hints
    let sl := W.srcs.foldl Slice.mark sl0
    let sl := sl.stick sISAT (slAny LaneOut.isat outs i sl0)
    let sl := sl.stick sIDZ (slAny LaneOut.idz outs i sl0)
    let sl := sl.stick sMVCL (slAny LaneOut.mvcl outs i sl0)
    let sl := match op with
      | some id => sl.reserve d id
      | .none => (sl.raise (if allFl then all else slFlags outs i sl0)).deliver d
          ⟨sl0.clock, s.beat, W.lat, .none⟩ v
    { sl with
        pc := sl.pc + 4
        hints := Hints.none
        clock := sl0.clock + 1 + W.st
        readyAt := s.beat + 1 + W.st
        since := s.beat + 1 + W.st }

/-- Causes that a lane's own result carries: an enabled floating-point exception (R99), a zero divisor
under IDZE (R88), a negative variance (R149). -/
def laneCauses (x : Cx) (outs : Nat → LaneOut) (en : Nat → FFlags) : List (Nat × Word) :=
  let m7 := x.maskOfP fun L => (outs L).fl &&& en L != 0
  (if m7 != 0 then [(0x07, m7)] else []) ++
    (x.actives.filterMap fun L => (outs L).cause.map fun c => (c, maskOf [L]))

/-- The enabled exceptions raised by the word, over its active lanes (R99). -/
def enabledRaised (x : Cx) (outs : Nat → LaneOut) (en : Nat → FFlags) : FFlags :=
  x.actives.foldl (fun f L => f ||| ((outs L).fl &&& en L)) 0

/-- XC in every slice of the stream receives the enabled exceptions raised (R99). [DEDUCED: log entry 52] -/
def Cx.withXC (x : Cx) (fl : FFlags) : Cx := { x with g := x.mapSlices fun _ sl => sl.setXC fl }

/-- EN of the slice a lane belongs to. -/
def Cx.enOf (x : Cx) (L : Nat) : FFlags := match x.sliceOf L with | some sl => sl.fen | .none => 0

/-- The earliest and latest return of a scoreboarded word, in beats after issue, a choice of Config.choice:
the number added to the earliest (R445). [DESIGN CHOICE: log entry 5] -/
def State.returnBeat (s : State) (b : Nat × Nat) : Nat × State :=
  let r := s.choose (b.2 - b.1)
  (s.beat + b.1 + r.1, r.2)

/-- Registers written whole become clean, and a push moves the damage of queue entries down (R382, R48).
`act` are the lanes written. -/
def State.rewritten (s : State) (gang : Nat) (slices act : List Nat) (d : Dst) : State :=
  if s.bad.isEmpty then s
  else
    let f := fun (e : Damage) => match e.loc with
      | .named g L r => if g == gang && act.contains L && d.named == some r then none else some e
      | .moment g L r =>
        if g == gang && act.contains L && (match d with | .mom m => m == r | _ => false) then none else some e
      | .queue g L r =>
        if g == gang && slices.contains (L / 4) && d.pushes then
          (if r < 15 then some { e with loc := .queue g L (r + 1) } else none)
        else some e
      | _ => some e
    { s with bad := s.bad.filterMap f }

/-- Places written whole or emptied become clean (R382). -/
def State.clean (s : State) (p : Storage → Bool) : State :=
  if s.bad.isEmpty then s else { s with bad := s.bad.filter fun d => !p d.loc }

/-- The lane that a place belongs to; 0 for a place of a slice or a gang. -/
def laneOfPlace : Storage → Nat
  | .named _ L _ => L
  | .queue _ L _ => L
  | .moment _ L _ => L
  | .parked _ _ L => L
  | _ => 0

/-- Correctable errors in places that a test picks are corrected as a word of the stream reads them, each with
its log entry (R379, R384). -/
def State.repairWhere (s : State) (x : Cx) (hit : Storage → Bool) : State :=
  if s.bad.isEmpty then s
  else
    (s.bad.filter fun d => d.fixable && hit d.loc).foldl (fun s d =>
      logEntry { s with bad := s.bad.erase d } x.grp.part 0x01 0 0 0 x.grp.lid
        (ident32 x.grp x.g.idx (laneOfPlace d.loc)) 0) s

/-- A place that the word's lanes read, or that it reads for the whole stream. -/
def Cx.reads (x : Cx) (W : Shape) (loc : Storage) : Bool :=
  x.readsWhole W.srcs W.preds loc ||
    ((if W.wide then x.lives else x.actives).any fun L => W.srcs.any fun src => (match src, loc with
      | .s7 c, .named g L' r => g == x.g.id && L == L' && r == s7reg c
      | .s7 c, .queue g L' r => g == x.g.id && L == L' && r + 16 == s7reg c
      | .mom i, .moment g L' r => g == x.g.id && L == L' && r == i
      | _, _ => false))

/-- Correctable errors in what a word reads are corrected and logged (R379). -/
def State.repairReads (s : State) (x : Cx) (W : Shape) : State := s.repairWhere x (x.reads W)

/-- A scoreboarded floating-point word raised an enabled exception: it is issued, writes and reserves nothing,
holds the stream's next word, and its trap is taken when it returns (R99, R173). [DEDUCED: log entry 52] -/
def trapAtReturn (s : State) (W : Shape) (x : Cx) (b : Nat × Nat) (fl : FFlags) (m : Word) : State :=
  let (due, s1) := s.returnBeat b
  let op : Op :=
    { id := s1.fresh, gang := x.g.id, slices := x.ss, reg := none, mreg := none, push := false, vals := []
      regs := [], fl := [], flags := true, cf := if W.cf then some (x.grp.core, x.g.sched) else none
      born := s1.beat, waits := 0, due := 4 * due, block := true, acq := none, doc := false, dead := []
      fabric := [], won := [], marks := [], st := W.st, xc := some (fl, m), rel := false }
  (stall { s1 with fresh := op.id + 1, ops := s1.ops ++ [op] } x).postAt (4 * due) (.resultReturn op.id)

/-- A precise fault of a lane word, once it is the lowest cause: an enabled exception is noted in XC (R99). -/
def raiseCause (s : State) (W : Shape) (x : Cx) (fl : FFlags) (c : Nat) (m : Word) : State :=
  if c = 0x07 then
    match W.sb with
    | some b => trapAtReturn s W x b fl m
    | none => takeTrap s (x.withXC fl) c 0 false m none
  else takeTrap s x c 0 false m none

/-- What every lane word passes before it commits: legality (0x01), interlocks, damage of what the word
reads for the whole stream, the stall check and poison trap, and the family's own causes, the lowest of
which is raised (R140). `pre` gives the word's own causes from its source values, `f` its result in a
lane, `en` the trap enables that apply to a lane; `wait` holds the word with the state it gives; `k` goes
on with the stream and the source values as the word sees them, the results and the lanes that die. Lanes that
die of the word raise nothing (R40). [DEDUCED: log entries 52, 92, 94] -/
def laneGateW (s : State) (W : Shape) (wait : Cx → List (List Word) → Option State)
    (pre : Cx → List (List Word) → List (Nat × Word))
    (en : Cx → Nat → FFlags) (f : Cx → List (List Word) → Nat → LaneOut)
    (k : Cx → List (List Word) → (Nat → LaneOut) → List Nat → State) : Host.Outcome State Fault Refusal :=
  withStream s fun x =>
    if !(W.legal && hintsOk x.hints W.srcs W.hdst W.hm) then
      .next (takeTrap s x 0x01 0 false x.mask none)
    else if x.pending s W.srcs (W.dest x.hints) then .next (hold s x)
    else if groupDamaged s x W.srcs W.preds then .next (groupFatal s x.grp.id 0x42 (64 * x.g.idx))
    else
      let dead := dyingLanes s x W
      let y := x.without dead
      let vals := hush dead (allVals s.beat x.g W.srcs)
      match wait y vals with
      | some s1 => .next (hold s1 x)
      | none =>
        let outs := f y vals
        match lowest (commonCauses y W.chk W.srcs vals ++ pre y vals ++ laneCauses y outs (en y)) with
        | some (c, m) => .next (raiseCause s W x (enabledRaised y outs (en y)) c m)
        | none => .next (k y vals outs dead)

/-- A lane word that nothing holds but its interlocks. -/
def laneGate (s : State) (W : Shape) (pre : Cx → List (List Word) → List (Nat × Word))
    (en : Cx → Nat → FFlags) (f : Cx → List (List Word) → Nat → LaneOut)
    (k : Cx → List (List Word) → (Nat → LaneOut) → List Nat → State) : Host.Outcome State Fault Refusal :=
  laneGateW s W (fun _ _ => none) pre en f k

/-- The operation of a scoreboarded word whose results are known at issue. -/
def newOp (s : State) (x : Cx) (W : Shape) (outs : Nat → LaneOut) (dead : List Nat) (due : Nat) :
    Op :=
  let d := W.dest x.hints
  let blk := x.ss.any fun i => match x.g.slice? i with | some sl => sl.fen != 0 | .none => false
  { id := s.fresh, gang := x.g.id, slices := x.ss, reg := d.named
    mreg := match d with | .mom m => some m | _ => none
    push := d.pushes
    vals := (x.actives.filter (!dead.contains ·)).map fun L => (L, (outs L).val)
    regs := []
    fl := x.ss.filterMap fun i => (x.g.slice? i).map fun sl => (i, slFlags outs i sl)
    flags := W.fp
    cf := if W.cf then some (x.grp.core, x.g.sched) else none
    born := s.beat, waits := 0, due := 4 * due
    block := blk && W.fp, acq := none, doc := false, dead := []
    fabric := [], won := [], marks := [], st := W.st, xc := none, rel := false }

/-- The word commits: at once with its results, or scoreboarded, with its return set for a beat within its
bounds. [DEDUCED: log entry 52] -/
def finishLane (s : State) (W : Shape) (allFl : Bool) (x : Cx) (vals : List (List Word))
    (outs : Nat → LaneOut) (dead : List Nat) : State :=
  let y := x.notePoison vals
  let s := (s.repairReads x W).rewritten x.g.id x.ss
    (if W.sb.isSome then [] else x.actives.filter (!dead.contains ·)) (W.dest x.hints)
  match W.sb with
  | none => killLanes (s.setGang (y.commit s W allFl outs dead none)) x.g.id dead
  | some b =>
    let (due, s1) := s.returnBeat b
    let op := newOp s1 x W outs dead due
    let s2 := { s1 with fresh := op.id + 1, ops := s1.ops ++ [op] }
    killLanes ((s2.setGang (y.commit s W allFl outs dead (some op.id))).postAt
      (4 * due) (.resultReturn op.id)) x.g.id dead

/-- Run a lane word. `allFl` gives every issuing slice the exceptions of the whole word (R127). -/
def runLaneWith (s : State) (W : Shape) (allFl : Bool)
    (pre : Cx → List (List Word) → List (Nat × Word))
    (en : Cx → Nat → FFlags) (f : Cx → List (List Word) → Nat → LaneOut) :
    Host.Outcome State Fault Refusal :=
  laneGate s W pre en f (finishLane s W allFl)

/-- A lane word of the plain kind: exceptions trap under each slice's own enables. -/
def runLane (s : State) (W : Shape) (pre : Cx → List (List Word) → List (Nat × Word))
    (f : Cx → List (List Word) → Nat → LaneOut) : Host.Outcome State Fault Refusal :=
  runLaneWith s W false pre Cx.enOf f

def noCauses (_ : Cx) (_ : List (List Word)) : List (Nat × Word) := []

/-- A gang parts when its live slices no longer hold one program counter (R31, R32). [DEDUCED: log entry 37] -/
def Gang.partTest (g : Gang) : Gang :=
  match g.liveSlices.filterMap g.slice? with
  | [] => g
  | a :: r => if r.all fun b => b.pc == a.pc then g else { g with unified := false }

/-- A lane word with an effect of its own on each issuing slice: `post` gets the slice before and after
the common effects. The gang parts if the slices' counters then differ. -/
def runLanePost (s : State) (W : Shape) (pre : Cx → List (List Word) → List (Nat × Word))
    (f : Cx → List (List Word) → Nat → LaneOut)
    (post : Cx → List (List Word) → Nat → Slice → Slice → Slice) : Host.Outcome State Fault Refusal :=
  laneGate s W pre Cx.enOf f fun x vals outs dead =>
    let y := x.notePoison vals
    let s := (s.repairReads x W).rewritten x.g.id x.ss (x.actives.filter (!dead.contains ·))
      (W.dest x.hints)
    let g := y.commit s W false outs dead none
    let after := fun (i : Nat) (sl : Slice) => match x.g.slice? i with
      | some old => post x vals i old sl
      | none => sl
    killLanes (s.setGang (Cx.mapSlices ⟨g, x.grp, x.ss⟩ after).partTest) x.g.id dead

/-- The value of source `k` in lane L. -/
def val (vals : List (List Word)) (L k : Nat) : Word := at' 0 (at' [] vals L) k

end Sys2Proof.Machine
end

