-- ==== Sys2Proof/Machine/Start.lean ====
section
/-!
DEFINITION. What starts: lanes, slices and gangs as at group start (R349, R42, R118, R135), and the
inherited and effective classes of launches and groups (R355 to R357).
-/

namespace Sys2Proof.Machine

/-- A lane at group start (R349): registers 0, queue entries poison, predicates false. [DESIGN CHOICE: log entry 90] -/
def Lane.start (dead : Bool) : Lane where
  n := List.replicate 16 0
  nOld := List.replicate 16 0
  q := List.replicate 16 poison
  m := List.replicate 16 0
  mOld := List.replicate 16 0
  p := 0
  dead := dead

/-- A slice at group start, on a pipe, at an entry address, with the dead lanes `dead` by position. [DESIGN CHOICE: log entry 90] -/
def Slice.start (pipe : Nat) (entry : Word) (beat : Nat) (dead : List Nat) : Slice where
  pipe := pipe
  lanes := (rangeFrom 0 4).map fun j => Lane.start (dead.contains j)
  pc := entry
  guard := ⟨0, false⟩
  hints := Hints.none
  rstack := []
  fmode := 0
  fflags := 0
  mcov := 0
  mrho := 0
  status := 0
  stallchk := 0
  trappc := 0
  trapcause := 0
  trapinfo := 0
  clock := 0
  nT := List.replicate 16 Timing.zero
  qT := List.replicate 16 Timing.zero
  mT := List.replicate 16 Timing.zero
  opc := []
  run := .run
  readyAt := beat
  since := beat
  sysAcq := 0

/-- Dead lanes of a gang, by position in slice `k`. -/
def deadIn (dead : List Nat) (k : Nat) : List Nat :=
  (rangeFrom 0 4).filter fun j => dead.contains (4 * k + j)

/-- The slices of a gang on the given pipes. -/
def slicesOn (pipes : List Nat) (entry : Word) (beat : Nat) (dead : List Nat) : List Slice :=
  imap (fun k p => Slice.start p entry beat (deadIn dead k)) 0 pipes

/-- The identity and start of a gang. -/
structure GangInit where
  id    : Nat
  group : Nat
  idx   : Nat
  sched : Nat
  pipes : List Nat
  entry : Word
  dead  : List Nat
  g     : List Word
  pts   : TS
  deriving DecidableEq, Repr

/-- A gang at group start. -/
def Gang.start (i : GangInit) (beat : Nat) : Gang where
  id := i.id
  group := i.group
  idx := i.idx
  sched := i.sched
  slices := slicesOn i.pipes i.entry beat i.dead
  unified := true
  ended := none
  g := (i.g ++ List.replicate 60 0).take 60
  pts := i.pts
  park := List.replicate 64 none
  region := none
  epoch := 0

/-- The inherited class of a launch (R357), following dependents to a depth. -/
def inherited (s : State) : Nat → Launch → Nat
  | 0, l => l.cls
  | n + 1, l =>
    (s.launches.filter fun d => d.part == l.part && d.deps.contains l.lid).foldl
      (fun c d => max c (inherited s n d)) l.cls

/-- The inherited class of a launch: chains of dependences are no longer than the launches. -/
def Launch.inherited (s : State) (l : Launch) : Nat := Machine.inherited s s.launches.length l

/-- The effective class of a group (R355); a replay runs under Slate (R391). -/
def effClass (s : State) (G : Group) : Nat :=
  if G.replay.isSome then 0 else match s.launch? G.part G.lid with
  | some l => max G.cls (l.inherited s)
  | none => G.cls

end Sys2Proof.Machine
end

