-- ==== Sys2Proof/Machine/Issue.lean ====
section
/-!
DEFINITION. Issue (R35, R36) and fetch (R46, R192): which streams are candidates in a beat and in what
order, the word at a stream's program counter, and the passing of a beat: clocks, timers and the steps
that fall due by themselves.
-/

namespace Sys2Proof.Machine

/-! ## Fetch -/

/-- What a fetch comes to. -/
inductive Fetched where
  | word (w : BitVec 32)
  | tlbMiss (va : Nat)
  | lineMiss (va : Nat)
  | fault (cause : Nat)
  | unresolved
  | unjoined
  deriving DecidableEq, Repr

/-- The 32-bit word at four bytes. -/
def word32 (bs : List Byte) : BitVec 32 := BitVec.ofNat 32 (leNat bs)

/-- The word at the stream's program counter (R46): fetched through the attribute TLB, whose page must
allow it (R192, R194), and through the instruction cache. A device that has not joined its domain holds a fetch
from another device (R418, R419). -/
def fetch (s : State) (x : Cx) : Fetched :=
  match gaddr s x.pc with
  | none => .fault 0x10
  | some (dev, va) =>
    let key := farKey dev va
    if dev ≠ 0 ∧ !s.joined then .unjoined
    else match s.tlb? x.grp.core x.grp.part x.grp.asn key with
    | none =>
      if dev = 0 ∧ !s.draining x.grp.part x.grp.asn va ∧ s.walkHold x.grp.part x.grp.asn va = none ∧ walk s x.grp.part x.grp.asn va = .malformed then .unresolved
      else .tlbMiss key
    | some l =>
      if !l.x then .fault 0x11
      else if !s.icache.contains (x.grp.core, x.grp.part, x.grp.asn, key / 128) then .lineMiss key
      else .word (word32 ((rangeFrom va 4).map fun v => s.peekCode x.grp.part x.grp.lid (l.key v)))

/-! ## Candidates -/

/-- May the streams of a group issue: it has not ended, failed or been halted (R72, R435). [DEDUCED: log entry 46] -/
def Group.runs (G : Group) : Bool := G.fatal.isNone && !G.halted && !G.ending

/-- A slice may issue its next word in a beat. -/
def Slice.readyIn (sl : Slice) (beat : Nat) : Bool := sl.run == .run && decide (sl.readyAt ≤ beat)

/-- Its sleep ends no later than a beat (R121). -/
def Slice.wakesBy (sl : Slice) (beat : Nat) : Bool :=
  match sl.run with
  | .sleep due => decide (due ≤ beat)
  | _ => false

/-- Will every issuing slice of the stream be ready in this beat, once sleeps that end now have ended? -/
def Cx.comes (x : Cx) (s : State) : Bool :=
  x.grp.runs && x.ss.all fun i => match x.g.slice? i with
    | some sl => sl.readyIn s.beat || sl.wakesBy s.beat
    | none => false

/-- Is every issuing slice of the stream ready? -/
def Cx.ready (x : Cx) (s : State) : Bool :=
  x.grp.runs && x.ss.all fun i => match x.g.slice? i with
    | some sl => sl.readyIn s.beat
    | none => false

/-- The streams of a gang (R31, R35). -/
def Gang.refs (g : Gang) : List StreamRef :=
  if g.ended.isSome then []
  else if g.unified then [⟨g.id, none⟩]
  else g.liveSlices.map fun k => ⟨g.id, some k⟩

/-- What orders a candidate (R35): class, whether DEFER puts it last, the beat it became ready, its
place in the round-robin. -/
structure Rank where
  cls   : Nat
  defer : Bool
  since : Nat
  rr    : Nat
  deriving DecidableEq, Repr

def Rank.before (a b : Rank) : Bool :=
  if a.cls ≠ b.cls then decide (b.cls < a.cls)
  else if a.defer ≠ b.defer then b.defer
  else if a.since ≠ b.since then decide (a.since < b.since)
  else decide (a.rr < b.rr)

/-- Insert a turn at its rank. -/
def insertTurn (r : Rank) (t : Turn) : List (Rank × Turn) → List (Rank × Turn)
  | [] => [(r, t)]
  | (q, u) :: rest => if r.before q then (r, t) :: (q, u) :: rest else (q, u) :: insertTurn r t rest

/-- DEFER takes effect at the consumer's issue (R64): is the next word no hint? -/
def Cx.deferred (x : Cx) (s : State) : Bool :=
  match x.hints.sched with
  | some h => h.d == 1#1 && (match fetch s x with | .word w => decide (4 ≤ w.toNat / 2 ^ 26) | _ => false)
  | none => false

/-- The candidates of the whole device in this beat, in order within each scheduler; schedulers of all
cores in ascending order. The round-robin turns by one place over all streams each beat. [DESIGN CHOICE: log entry 95] -/
def candidates (s : State) : List Turn :=
  let refs := (s.gangs.map Gang.refs).flatten
  let n := refs.length
  let items : List (Rank × Turn) := (imap (fun k (r : StreamRef) => match s.streamOf r with
    | some x => if x.comes s then
        let since := x.ss.foldl (fun b i => match x.g.slice? i with
          | some sl => max b sl.since | none => b) 0
        [((⟨effClass s x.grp, x.deferred s, since, (k + n - s.rr % (n + 1)) % (n + 1)⟩ : Rank),
          (⟨x.grp.core, x.g.sched, r⟩ : Turn))]
      else []
    | none => []) 0 refs).flatten
  let cores := (s.groups.map Group.core).eraseDups
  let keys := (cores.map fun c => (rangeFrom 0 Config.schedulers).map fun q => (c, q)).flatten
  (keys.map fun (k : Nat × Nat) =>
    ((items.filter fun e => e.2.core == k.1 && e.2.sched == k.2).foldl
      (fun (acc : List (Rank × Turn)) e => insertTurn e.1 e.2 acc) []).map (·.2)).flatten

/-! ## Grants -/

/-- Home pipes of a stream. -/
def Cx.pipes (x : Cx) : List (Nat × Nat × Nat) :=
  x.ss.filterMap fun i => (x.g.slice? i).map fun sl => (x.grp.core, x.g.sched, sl.pipe)

/-- Grants of a scheduler in this beat. -/
def State.grantsOf (s : State) (core sched : Nat) : Nat :=
  match s.granted.find? (fun g => g.1 == 4 * core + sched) with
  | some g => g.2
  | none => 0

/-- Count a grant and its pipes. -/
def State.charge (s : State) (x : Cx) : State :=
  let k := 4 * x.grp.core + x.g.sched
  { s with
    usedPipes := x.pipes ++ s.usedPipes
    granted := (k, s.grantsOf x.grp.core x.g.sched + 1) :: s.granted.filter (·.1 != k) }

/-- What a turn comes to: nothing issues; the stream `cur` names is passed over, its word known; or that word is to be
performed by it. -/
inductive TurnRes where
  | pass (s : State)
  | over (s : State) (w : BitVec 32)
  | word (s : State) (w : BitVec 32)
  deriving DecidableEq, Repr

/-- A fetch that brings no word and waits for no fill: its fault is taken once nothing holds the stream's next
word (R99), a malformed leaf ends the group (R446), and a fetch from another device waits for this one to join
its domain, for at most 1 ms (R419). -/
def fetchFails (s : State) (x : Cx) : Fetched → State
  | .fault c => (takeTrap s x c 0 false x.mask none).charge x
  | .unresolved => groupFatal s x.grp.id 0x14 (64 * x.g.idx + lowLane x.mask)
  | .unjoined =>
    let op := blockOp s x false none (if x.actives.isEmpty then [4 * x.ss.headD 0] else x.actives)
    { s with fresh := s.fresh + 1, ops := s.ops ++ [op] }.postNs (s.ptp + 1000000) (.fabricTimeout op.id)
  | _ => s

/-- Is there no grant left for the stream: 8 streams of its scheduler have been granted, or one of its home pipes is
used (R35)? -/
def Cx.shutOut (x : Cx) (s : State) : Bool :=
  decide (8 ≤ s.grantsOf x.grp.core x.g.sched) || x.pipes.any (s.usedPipes.contains ·)

/-- A turn of the selection (R35): the stream is granted when it is still ready, fewer than 8 streams
of its scheduler have been granted and all its home pipes are unused; its word is fetched, granted or not, and a miss
sets its fill going: the stream is ready again, and ranks, from the next beat on. [DESIGN CHOICE: log entry 7] -/
def takeTurn (s : State) (t : Turn) : TurnRes :=
  match s.streamOf t.ref with
  | none => .pass s
  | some x =>
    if !x.ready s then .pass s
    else match fetch s x with
      | .word w =>
        let s := { s with cur := some t.ref, held := false }
        if x.shutOut s then .over s w else .word s w
      | .tlbMiss va => .pass ((stall s x).postOnce (.tlbFill x.grp.core x.grp.part x.grp.asn va))
      | .lineMiss va => .pass ((stall s x).postOnce (.fetchFill x.grp.core x.grp.part x.grp.asn va))
      | f => .pass (if x.shutOut s then s else if x.blocked s then stall s x else fetchFails s x f)

/-- IPF on a consumer fetches the 512 bytes after it (R64). -/
def State.prefetch (s : State) (x : Cx) (w : BitVec 32) : State :=
  match x.hints.sched with
  | some h =>
    if h.i = 1#1 ∧ 4 ≤ w.toNat / 2 ^ 26 then
      let va := (match gaddr s x.pc with | some (d, va) => farKey d va | none => 0) + 4
      let lines := rangeFrom (va / 128) ((va + 511) / 128 - va / 128 + 1)
      lines.foldl (fun s n => s.postOnce (.fetchFill x.grp.core x.grp.part x.grp.asn (n * 128))) s
    else s
  | none => s

/-- The end of a turn whose word was performed: a word held at issue is not charged. -/
def endTurn (t : Turn) (w : BitVec 32) (before : State) : Host.Outcome State Fault Refusal →
    Host.Outcome State Fault Refusal
  | .next s =>
    let s1 := { s with cur := none, held := false }
    .next (if s.held then s1 else match before.streamOf t.ref with
      | some x => (s1.charge x).prefetch x w
      | none => s1)
  | o => o

/-- The end of a turn that passes a stream over: where its word would be held at issue, as for an operand that is
pending, the stream is not ready, and is looked at again in the next beat; nothing of the word is performed (R35). [DESIGN CHOICE: log entry 95] -/
def passOver (t : Turn) (before : State) : Host.Outcome State Fault Refusal → Host.Outcome State Fault Refusal
  | .next s =>
    let s1 := { before with cur := none, held := false }
    .next (match before.streamOf t.ref with
      | some x => if s.held then stall s1 x else s1
      | none => s1)
  | o => o

/-! ## The passing of a beat -/

/-- PTPNOW moves by the arithmetic clock, and a pending correction by 1 ns every 438 beats, which last more than a µs
(R421). [DEDUCED: log entry 48; DESIGN CHOICE: log entry 85] -/
def State.tick (s : State) : State :=
  let t := s.ptpRem + 1000 * Config.beatCycles
  let now := s.ptp + t / s.mhz
  let slew : Int := if s.beat % 438 ≠ 0 then 0 else if 0 < s.slew then 1 else if s.slew < 0 then -1 else 0
  { s with
    cycle := s.cycle + Config.beatCycles
    ptp := ((now : Int) + slew).toNat
    ptpRem := t % s.mhz
    slew := s.slew - slew }

/-- Timers that are due become steps of the agenda, in the order they were set. [DESIGN CHOICE: log entry 3] -/
def State.fireTimers (s : State) : State :=
  { s with
    agenda := s.agenda ++ (s.timers.filter fun t => decide (t.1 ≤ s.cycle)).map (·.2) ++
      (s.nsTimers.filter fun t => decide (t.1 ≤ s.ptp)).map (·.2)
    timers := s.timers.filter fun t => !decide (t.1 ≤ s.cycle)
    nsTimers := s.nsTimers.filter fun t => !decide (t.1 ≤ s.ptp) }

/-- Pairs of idle halves that may merge (R207). -/
def State.mergeable (s : State) : List (Nat × Nat) :=
  s.regions.filterMap fun g =>
    let ok := s.regions.any fun x => x.chip == g.chip && x.k == g.k && x.base == g.base + 2 ^ g.k &&
      decide (x.touch + 65536 ≤ s.cycle)
    if g.k < 16 && g.base / 2 ^ g.k % 2 == 0 && decide (g.touch + 65536 ≤ s.cycle) && ok then
      some (g.chip, g.base)
    else none

/-- The steps that fall due by the clock alone: sweepers each beat (R211), reconciliation and the next
interval each 1,024 cycles (R209, R210), merges (R207), stage allowances each 4,096 cycles (R365), the
power check each 10,000 ns (R434). `ptp0` is PTPNOW before the beat. [DEDUCED: log entry 49] -/
def State.periodic (s : State) (ptp0 : Nat) : State :=
  let sweeps := (rangeFrom 0 Config.chiplets).map fun k => Instr.sweeperVisit k 2
  let rec1024 := if s.cycle % 1024 = 0 then [Instr.clockReconcile, Instr.ccInterval] else []
  let merges := s.mergeable.map fun m => Instr.regionMerge m.1 m.2
  let allow := if s.cycle % 4096 = 0 then
      (s.launches.filter fun l => !l.stages.isEmpty).map fun l => Instr.stageAllowance l.part l.lid
    else []
  let power := if ptp0 / 10000 ≠ s.ptp / 10000 then [Instr.powerCheck] else []
  { s with agenda := s.agenda ++ sweeps ++ rec1024 ++ merges ++ allow ++ power }

/-- Where a stream goes on (R138): at its first attached hint or its next word; one that waits, past its wait. [DEDUCED: log entry 46] -/
def Slice.goesOn (sl : Slice) : Word :=
  match sl.run with
  | .barrier _ _ a => a
  | _ => sl.hints.addr.getD sl.pc

/-- The groups whose BKPT issued in the last beat stop (R435): TRAPPC of every stream is where it goes on, H stays 0. [DEDUCED: log entry 46] -/
def State.haltGroups (s : State) : State :=
  let ids := (s.groups.filter (·.halting)).map (·.id)
  if ids.isEmpty then s
  else { s with
    gangs := s.gangs.map fun (g : Gang) => if ids.contains g.group then
      { g with slices := g.slices.map fun (sl : Slice) => { sl with trappc := sl.goesOn } } else g
    groups := s.groups.map fun (G : Group) =>
      if G.halting then { G with halting := false, halted := true, haltAt := s.ptp } else G }

/-- A beat passes: what BKPT has halted stops (R435), the scratchpad accesses whose last pass it serves are performed (R448), and its issue selection is
laid out (R35). -/
def passBeat (s : State) : State :=
  let s1 := (((s.haltGroups.tick).fireTimers).periodic s.ptp).passesDue
  { s1 with
    cur := none, held := false, usedPipes := [], granted := [], rr := s.rr + 1
    turns := candidates s1 }

/-! ## A program in place -/

/-- A group of one gang as it stands right after its placement on core 0, for a launch that is gone. [DESIGN CHOICE: log entry 1] -/
def soloGroup : Group where
  id := 1
  part := 0
  lid := 0
  asn := 0
  team := 1
  teamIdx := 0
  idx := 0
  core := 0
  width := 16
  nGangs := 1
  perTeam := 1
  mom := true
  role := 0
  nRoles := 1
  cls := 0
  accRows := 32
  regU := 1
  accU := 1
  obu := 1
  stage := none
  nfmt := List.replicate 16 0
  z := List.replicate 16 none
  handles := List.replicate 8 none
  rakes := List.replicate 4 none
  chain := none
  ob := []
  bars := []
  trapvec := 0
  fatal := none
  fatalLn := 0
  errinj := 0
  inj6 := false
  halting := false
  halted := false
  haltAt := 0
  ending := false
  audit := none
  replay := none

/-- The page of the program: 64 KiB at address 0, readable, writable and executable, homed at MC0. [DESIGN CHOICE: log entry 1] -/
def soloLeaf : Leaf where
  va := 0
  size := 65536
  pa := 0
  mode := 0
  bias := false
  ilv := 0
  hq := 0
  x := true
  w := true
  rd := true
  rdev := 0

/-- The state with a word of the program at address 0 and its gang's turn come. [DESIGN CHOICE: log entry 1] -/
def fetchReady (s : State) (w : Nat) : State :=
  { s with
    stage := 5
    agenda := []
    cur := none
    held := false
    turns := [⟨0, 0, ⟨1, none⟩⟩]
    usedPipes := []
    granted := []
    gangs := [Gang.start ⟨1, 1, 0, 0, [0, 1, 2, 3], 0, [], [], 0⟩ s.beat]
    groups := [soloGroup]
    launches := []
    tlb := [⟨0, 0, 0, soloLeaf⟩]
    icache := [(0, 0, 0, 0)]
    mem := s.mem.write 0 (leBytes 4 w) }

/-- ISSUE_BEAT: the next beat (R35). -/
def execIssueBeat (s : State) : Host.Outcome State Fault Refusal := .next (passBeat s)

/-- ILLEGAL_INSTRUCTION: a word that is no instruction traps with cause 0x01 (R70). -/
def execIllegalInstruction (_ : BitVec 32) (s : State) : Host.Outcome State Fault Refusal :=
  withStream s fun x => .next (takeTrap s x 0x01 0 false x.mask none)

/-- TLB_FILL: a walk of the hub fills a core's entry from a valid leaf (R192, R193). A page inside a
drain procedure waits for its end (R195), and a walk for the lines of its tables; an absent entry is told to
system software (R194); a malformed leaf is not cached, and the access that meets it faults (R446). An entry for
a page of another device is filled from there (R192). [DESIGN CHOICE: log entry 12; DEDUCED: log entry 13] -/
def execTlbFill (core part asn va : Nat) (s : State) : Host.Outcome State Fault Refusal :=
  if s.draining part asn va then .next (s.postAt (s.cycle + 4) (.tlbFill core part asn va))
  else if (s.tlb? core part asn va).isSome then .next s
  else if 2 ^ 48 ≤ va then
    .next (if s.joined then
      let l := farLeaf s (va / 2 ^ 48) (va % 2 ^ 48)
      l.2.fillTlb core part asn l.1 else s)
  else match s.walkRead part asn va with
    | .error h => .next ((s.onHold h 0).postAt (s.cycle + 4) (.tlbFill core part asn va))
    | .ok s => match walk s part asn va with
      | .leaf l => .next (s.fillTlb core part asn l)
      | .absent => .next (s.notPresent part asn va)
      | _ => .next s

/-- A line under its leaf as its home or the bridge gives it to a reader without a timestamp: what another agent holds
of it is recalled first (R216, R404, R410). -/
def lineLook (s : State) (l : Leaf) (part asn va : Nat) : Except State State :=
  if l.far then .ok s
  else if l.host then s.hostFree (l.key va / 128)
  else match lookAt s (l.lineRef part asn (va / 128 * 128)) with
    | .held s h => .error (s.onHold h 0)
    | .done s _ _ _ => .ok s

/-- The line of a fetch of a core. -/
def fetchLook (s : State) (core part asn va : Nat) : Except State State :=
  match s.tlb? core part asn va with
  | none => .ok s
  | some l => lineLook s l part asn va

/-- FETCH_FILL: an instruction-cache line of a core comes in (R46); the cache holds 1,024 lines. [DEDUCED: log entry 13; DESIGN CHOICE: log entry 85] -/
def execFetchFill (core part asn va : Nat) (s : State) : Host.Outcome State Fault Refusal :=
  let tag := (core, part, asn, va / 128)
  if s.icache.contains tag then .next s
  else match fetchLook s core part asn va with
  | .error s => .next (s.postAt (s.cycle + 4) (.fetchFill core part asn va))
  | .ok s =>
    let mine := s.icache.filter (·.1 == core)
    let rest := if mine.length < 1024 then s.icache else
      match mine.getLast? with
      | some e => s.icache.erase e
      | none => s.icache
    .next { s with icache := tag :: rest }

/-- A slice whose sleep has run out is ready from the beat in which it ended. -/
def Slice.wake (sl : Slice) (beat : Nat) : Slice :=
  match sl.run with
  | .sleep due => if due ≤ beat then { sl with run := .run, readyAt := due, since := due } else sl
  | _ => sl

/-- SLEEP_EXPIRY: the sleep of a stream has run out, and it is ready (R121). A unified gang's slices wake
together. [DEDUCED: log entry 40] -/
def execSleepExpiry (gang slice : Nat) (s : State) : Host.Outcome State Fault Refusal :=
  .next (s.modGang gang fun g =>
    if g.unified then { g with slices := g.slices.map (Slice.wake · s.beat) }
    else { g with slices := modAt (Slice.wake · s.beat) slice g.slices })

end Sys2Proof.Machine
end

