-- ==== Sys2Proof/Machine/Cores.lean ====
section
/-!
DEFINITION. Physical and logical cores (R352, R353): HARVEST and LPT registers and what placement reads
from them.
-/

namespace Sys2Proof.Machine

/-- The physical cores of a die that form complete pairs, ascending (R353). -/
def pairedCores (h : BitVec 36) : List Nat :=
  ((rangeFrom 0 18).map fun m => if h.getLsbD (2 * m) && h.getLsbD (2 * m + 1) then [2 * m, 2 * m + 1] else []).flatten

/-- Its present cores without a partner, ascending. -/
def loneCores (h : BitVec 36) : List Nat :=
  (rangeFrom 0 36).filter fun p => h.getLsbD p && !h.getLsbD (p ^^^ 1)

/-- HARVEST of a die. -/
def State.harvestOf (s : State) (die : Nat) : BitVec 36 := at' 0 s.harvest die

/-- The physical core of a logical core; none when it does not exist. [DESIGN CHOICE: log entry 9] -/
def State.physical (s : State) (n : Nat) : Option Nat :=
  let h := s.harvestOf (n / 36)
  (pairedCores h ++ loneCores h)[n % 36]?

/-- Is a logical core one of a complete pair? -/
def State.paired (s : State) (n : Nat) : Bool := decide (n % 36 < (pairedCores (s.harvestOf (n / 36))).length)

/-- LPTn (R353). [DESIGN CHOICE: log entry 9] -/
def State.lpt (s : State) (n : Nat) : Word :=
  match s.physical n with
  | none => 0
  | some p =>
    BitVec.ofNat 64 (2 ^ 31 + (if s.paired n then 0 else 2 ^ 30) +
      (if s.paired n then n ^^^ 1 else 255) * 2 ^ 16 + n / 36 * 256 + p)

end Sys2Proof.Machine
end

