-- ==== Sys2Proof/Machine/LaneInt.lean ====
section
/-!
DEFINITION. Integer, logic, multiply-add, division and compare words (R75 to R91): the rule of each form
on one sub-element, and one meaning per word over the shared lane-word operation.
-/

namespace Sys2Proof.Machine

/-! ## Sub-element rules (R79 to R81). A rule gives the result at width w and whether it was clipped. -/

/-- A two-source rule: width, a, b as unsigned sub-elements. -/
abbrev Rule2 := Nat → Nat → Nat → Nat × Bool

/-- A signed result modulo 2^w. -/
def wrapI (w : Nat) (v : Int) : Nat := (v % (2 ^ w : Nat)).toNat
/-- sats (R75), with whether it clipped. -/
def satS (w : Nat) (v : Int) : Nat × Bool :=
  let hi : Int := (2 ^ (w - 1) : Nat) - 1
  let lo : Int := -(2 ^ (w - 1) : Nat)
  if hi < v then (wrapI w hi, true) else if v < lo then (wrapI w lo, true) else (wrapI w v, false)
/-- satu (R75), with whether it clipped. -/
def satU (w : Nat) (v : Int) : Nat × Bool :=
  if v < 0 then (0, true) else if (2 ^ w : Nat) ≤ v then (2 ^ w - 1, true) else (v.toNat, false)

def rIadd : Rule2 := fun w a b => ((a + b) % 2 ^ w, false)
def rIsub : Rule2 := fun w a b => ((a + 2 ^ w - b) % 2 ^ w, false)
def rIadds : Rule2 := fun w a b => satS w (sval w a + sval w b)
def rIaddu : Rule2 := fun w a b => satU w ((a : Int) + b)
def rIsubs : Rule2 := fun w a b => satS w (sval w a - sval w b)
def rIsubu : Rule2 := fun w a b => satU w ((a : Int) - b)
def rImul : Rule2 := fun w a b => (wrapI w (sval w a * sval w b), false)
def rImulh : Rule2 := fun w a b => (wrapI w (sval w a * sval w b / (2 ^ w : Nat)), false)
def rAnd : Rule2 := fun _ a b => (a &&& b, false)
def rOr : Rule2 := fun _ a b => (a ||| b, false)
def rXor : Rule2 := fun _ a b => (a ^^^ b, false)
def rAndn : Rule2 := fun w a b => (a &&& (2 ^ w - 1 - b), false)
def rShl : Rule2 := fun w a k => (if w ≤ k then 0 else a * 2 ^ k % 2 ^ w, false)
def rShr : Rule2 := fun w a k => (if w ≤ k then 0 else a / 2 ^ k, false)
def rSar : Rule2 := fun w a b => (wrapI w (sval w a / (2 ^ min b (w - 1) : Nat)), false)
def rRotl : Rule2 := fun w a b => ((a * 2 ^ (b % w) + a / 2 ^ (w - b % w)) % 2 ^ w, false)
def rImin : Rule2 := fun w a b => (if sval w b < sval w a then b else a, false)
def rImax : Rule2 := fun w a b => (if sval w a < sval w b then b else a, false)
def rUmin : Rule2 := fun _ a b => (if b < a then b else a, false)
def rUmax : Rule2 := fun _ a b => (if a < b then b else a, false)
def rImulhu : Rule2 := fun w a b => (a * b / 2 ^ w, false)
def rIabsd : Rule2 := fun w a b => ((sval w a - sval w b).natAbs, false)

/-- A one-source rule: width, a. -/
abbrev Rule1 := Nat → Nat → Nat

def rClz : Rule1 := fun w a => if a = 0 then w else w - 1 - Nat.log2 a
def rCtz : Rule1 := fun w a => ((rangeFrom 0 w).find? a.testBit).getD w
def rPopc : Rule1 := fun w a => ((rangeFrom 0 w).filter a.testBit).length
def rBrev : Rule1 := fun w a => (rangeFrom 0 w).foldl (fun r j => 2 * r + (a.testBit j).toNat) 0
def rIneg : Rule1 := fun w a => (2 ^ w - a) % 2 ^ w
def rInot : Rule1 := fun w a => 2 ^ w - 1 - a
def rIabs : Rule1 := fun w a => (sval w a).natAbs % 2 ^ w
def rBswap : Rule1 := fun w a => (rangeFrom 0 (w / 8)).foldl (fun r j => 256 * r + a / 2 ^ (8 * j) % 256) 0

/-! ## Words -/

/-- The sub-elements of two registers under a rule, packed, and whether one was clipped. -/
def zipElems (w : Nat) (r : Rule2) (a b : Word) : LaneOut :=
  let es := List.zipWith (r w) (elems w a) (elems w b)
  { val := packElems w (es.map (·.1)), isat := es.any (·.2) }

/-- The second source of a two-source integer word. -/
def srcB (g : Bool) (w : Nat) (b : BitVec 7) : Src := if g then .g7 b (.int w) else .s7 b

/-- The shape of a two-source integer word (R82). -/
def shapeInt (o : OpAB) (g : Bool) : Shape where
  st := o.s.toNat
  srcs := [.s7 o.a, srcB g (widthOf o.w) o.b]
  dst := .d5 o.d.toNat
  lat := 1

/-- A two-source integer word by the rule of its form (R82). -/
def intWord (s : State) (o : OpAB) (g : Bool) (r : Rule2) : Host.Outcome State Fault Refusal :=
  runLane s (shapeInt o g) noCauses fun _ v L => zipElems (widthOf o.w) r (val v L 0) (val v L 1)

/-- PKLO and PKHI (R80): the chosen halves of A below those of B. -/
def packHalves (w : Nat) (high : Bool) (a b : Word) : Word :=
  let h := w / 2
  let half := fun (e : Nat) => if high then e / 2 ^ h else e % 2 ^ h
  packElems h ((elems w a).map half ++ (elems w b).map half)

/-- A PKLO or PKHI word: W = 00 is reserved (R80). -/
def packWord (s : State) (o : OpAB) (g high : Bool) : Host.Outcome State Fault Refusal :=
  runLane s { shapeInt o g with legal := o.w != 0#2 } noCauses fun _ v L =>
    { val := packHalves (widthOf o.w) high (val v L 0) (val v L 1) }

/-- The shape of a one-source integer word (R81). -/
def shapeUn (o : OpA) : Shape where
  st := o.s.toNat
  srcs := [.s7 o.a]
  dst := .d5 o.d.toNat
  lat := 1

/-- A unary integer word by the rule of its form (R81, R82). -/
def unaryWord (s : State) (o : OpA) (legal : Bool) (r : Rule1) : Host.Outcome State Fault Refusal :=
  runLane s { shapeUn o with legal := legal } noCauses fun _ v L =>
    { val := packElems (widthOf o.w) ((elems (widthOf o.w) (val v L 0)).map (r (widthOf o.w))) }

/-- IADD, B a lane source (R79). -/
def execIadd (o : OpAB) (s : State) := intWord s o false rIadd

/-- ISUB, B a lane source (R79). -/
def execIsub (o : OpAB) (s : State) := intWord s o false rIsub

/-- IADDS, B a lane source (R79). -/
def execIadds (o : OpAB) (s : State) := intWord s o false rIadds

/-- IADDU, B a lane source (R79). -/
def execIaddu (o : OpAB) (s : State) := intWord s o false rIaddu

/-- ISUBS, B a lane source (R79). -/
def execIsubs (o : OpAB) (s : State) := intWord s o false rIsubs

/-- ISUBU, B a lane source (R79). -/
def execIsubu (o : OpAB) (s : State) := intWord s o false rIsubu

/-- IMUL, B a lane source (R79). -/
def execImul (o : OpAB) (s : State) := intWord s o false rImul

/-- IMULH, B a lane source (R79). -/
def execImulh (o : OpAB) (s : State) := intWord s o false rImulh

/-- AND, B a lane source (R79). -/
def execAnd (o : OpAB) (s : State) := intWord s o false rAnd

/-- OR, B a lane source (R79). -/
def execOr (o : OpAB) (s : State) := intWord s o false rOr

/-- XOR, B a lane source (R79). -/
def execXor (o : OpAB) (s : State) := intWord s o false rXor

/-- ANDN, B a lane source (R79). -/
def execAndn (o : OpAB) (s : State) := intWord s o false rAndn

/-- SHL, B a lane source (R79). -/
def execShl (o : OpAB) (s : State) := intWord s o false rShl

/-- SHR, B a lane source (R79). -/
def execShr (o : OpAB) (s : State) := intWord s o false rShr

/-- SAR, B a lane source (R79). -/
def execSar (o : OpAB) (s : State) := intWord s o false rSar

/-- ROTL, B a lane source (R79). -/
def execRotl (o : OpAB) (s : State) := intWord s o false rRotl

/-- IMIN, B a lane source (R79). -/
def execImin (o : OpAB) (s : State) := intWord s o false rImin

/-- IMAX, B a lane source (R79). -/
def execImax (o : OpAB) (s : State) := intWord s o false rImax

/-- UMIN, B a lane source (R79). -/
def execUmin (o : OpAB) (s : State) := intWord s o false rUmin

/-- UMAX, B a lane source (R79). -/
def execUmax (o : OpAB) (s : State) := intWord s o false rUmax

/-- IMULHU, B a lane source (R79). -/
def execImulhu (o : OpAB) (s : State) := intWord s o false rImulhu

/-- IABSD, B a lane source (R79). -/
def execIabsd (o : OpAB) (s : State) := intWord s o false rIabsd

/-- IADD, B a uniform or immediate source (R79). -/
def execIaddG (o : OpAB) (s : State) := intWord s o true rIadd

/-- ISUB, B a uniform or immediate source (R79). -/
def execIsubG (o : OpAB) (s : State) := intWord s o true rIsub

/-- IADDS, B a uniform or immediate source (R79). -/
def execIaddsG (o : OpAB) (s : State) := intWord s o true rIadds

/-- IADDU, B a uniform or immediate source (R79). -/
def execIadduG (o : OpAB) (s : State) := intWord s o true rIaddu

/-- ISUBS, B a uniform or immediate source (R79). -/
def execIsubsG (o : OpAB) (s : State) := intWord s o true rIsubs

/-- ISUBU, B a uniform or immediate source (R79). -/
def execIsubuG (o : OpAB) (s : State) := intWord s o true rIsubu

/-- IMUL, B a uniform or immediate source (R79). -/
def execImulG (o : OpAB) (s : State) := intWord s o true rImul

/-- IMULH, B a uniform or immediate source (R79). -/
def execImulhG (o : OpAB) (s : State) := intWord s o true rImulh

/-- AND, B a uniform or immediate source (R79). -/
def execAndG (o : OpAB) (s : State) := intWord s o true rAnd

/-- OR, B a uniform or immediate source (R79). -/
def execOrG (o : OpAB) (s : State) := intWord s o true rOr

/-- XOR, B a uniform or immediate source (R79). -/
def execXorG (o : OpAB) (s : State) := intWord s o true rXor

/-- ANDN, B a uniform or immediate source (R79). -/
def execAndnG (o : OpAB) (s : State) := intWord s o true rAndn

/-- SHL, B a uniform or immediate source (R79). -/
def execShlG (o : OpAB) (s : State) := intWord s o true rShl

/-- SHR, B a uniform or immediate source (R79). -/
def execShrG (o : OpAB) (s : State) := intWord s o true rShr

/-- SAR, B a uniform or immediate source (R79). -/
def execSarG (o : OpAB) (s : State) := intWord s o true rSar

/-- ROTL, B a uniform or immediate source (R79). -/
def execRotlG (o : OpAB) (s : State) := intWord s o true rRotl

/-- IMIN, B a uniform or immediate source (R79). -/
def execIminG (o : OpAB) (s : State) := intWord s o true rImin

/-- IMAX, B a uniform or immediate source (R79). -/
def execImaxG (o : OpAB) (s : State) := intWord s o true rImax

/-- UMIN, B a uniform or immediate source (R79). -/
def execUminG (o : OpAB) (s : State) := intWord s o true rUmin

/-- UMAX, B a uniform or immediate source (R79). -/
def execUmaxG (o : OpAB) (s : State) := intWord s o true rUmax

/-- IMULHU, B a uniform or immediate source (R79). -/
def execImulhuG (o : OpAB) (s : State) := intWord s o true rImulhu

/-- IABSD, B a uniform or immediate source (R79). -/
def execIabsdG (o : OpAB) (s : State) := intWord s o true rIabsd

/-- PKLO (R80). -/
def execPklo (o : OpAB) (s : State) := packWord s o false false

/-- PKLO, B a uniform or immediate source (R80). -/
def execPkloG (o : OpAB) (s : State) := packWord s o true false

/-- PKHI (R80). -/
def execPkhi (o : OpAB) (s : State) := packWord s o false true

/-- PKHI, B a uniform or immediate source (R80). -/
def execPkhiG (o : OpAB) (s : State) := packWord s o true true

/-- CLZ (R81). -/
def execClz (o : OpA) (s : State) := unaryWord s o true rClz

/-- CTZ (R81). -/
def execCtz (o : OpA) (s : State) := unaryWord s o true rCtz

/-- POPC (R81). -/
def execPopc (o : OpA) (s : State) := unaryWord s o true rPopc

/-- BREV (R81). -/
def execBrev (o : OpA) (s : State) := unaryWord s o true rBrev

/-- INEG (R81). -/
def execIneg (o : OpA) (s : State) := unaryWord s o true rIneg

/-- INOT (R81). -/
def execInot (o : OpA) (s : State) := unaryWord s o true rInot

/-- IABS (R81). -/
def execIabs (o : OpA) (s : State) := unaryWord s o true rIabs

/-- BSWAP: W = 00 is reserved (R81). -/
def execBswap (o : OpA) (s : State) := unaryWord s o (o.w != 0#2) rBswap

/-! ## Multiply-add and dot (R84, R85) -/

/-- The shape of an IMAD-family word: the queue, or the HDST destination. -/
def shapeMad (o : OpABC) : Shape where
  st := o.s.toNat
  srcs := [.s7 o.a, .s7 o.b, .s7 o.c]
  dst := .push
  lat := 1
  hdst := true

/-- An IMAD-family word by its rule on three registers. -/
def madWord (s : State) (o : OpABC) (r : Word → Word → Word → Word) : Host.Outcome State Fault Refusal :=
  runLane s (shapeMad o) noCauses fun _ v L => { val := r (val v L 0) (val v L 1) (val v L 2) }

/-- Sub-element i of width w. -/
def el (w : Nat) (x : Word) (i : Nat) : Nat := fld x (w * i) w
/-- Its signed value. -/
def sel' (w : Nat) (x : Word) (i : Nat) : Int := sval w (el w x i)

def rImad (a b c : Word) : Word :=
  packElems 32 ((rangeFrom 0 2).map fun j => (el 32 a j * el 32 b j + el 32 c j) % 2 ^ 32)
def rImad64 (a b c : Word) : Word := a * b + c
def rImadhs (a b c : Word) : Word := BitVec.ofInt 64 ((a.toInt * b.toInt + c.toInt) / (2 ^ 64 : Nat))
def rImadhz (a b c : Word) : Word := BitVec.ofNat 64 ((a.toNat * b.toNat + c.toNat) / 2 ^ 64)
def rImadw (a b c : Word) : Word := BitVec.ofInt 64 (sel' 32 a 0 * sel' 32 b 0 + c.toInt)
/-- A dot of `n` products of width w per 32-bit result (R84). -/
def rDot (w n : Nat) (a b c : Word) : Word :=
  packElems 32 ((rangeFrom 0 2).map fun j => wrapI 32 ((rangeFrom 0 n).foldl
    (fun (t : Int) k => t + sel' w a (n * j + k) * sel' w b (n * j + k)) (sel' 32 c j)))

/-- IMAD (R84). -/
def execImad (o : OpABC) (s : State) := madWord s o rImad

/-- IMAD64 (R84). -/
def execImad64 (o : OpABC) (s : State) := madWord s o rImad64

/-- IMADHS (R84). -/
def execImadhs (o : OpABC) (s : State) := madWord s o rImadhs

/-- IMADHZ (R84). -/
def execImadhz (o : OpABC) (s : State) := madWord s o rImadhz

/-- IMADW (R84). -/
def execImadw (o : OpABC) (s : State) := madWord s o rImadw

/-- IDOT8 (R84). -/
def execIdot8 (o : OpABC) (s : State) := madWord s o (rDot 8 4)

/-- IDOT16 (R84). -/
def execIdot16 (o : OpABC) (s : State) := madWord s o (rDot 16 2)

/-! ## Division (R87, R88) -/

/-- Quotient and remainder of one pair of sub-elements. -/
def divElem (w : Nat) (sg : Bool) (x y : Nat) : Nat × Nat :=
  if y = 0 then (2 ^ w - 1, x)
  else if sg then
    if x = 2 ^ (w - 1) ∧ y = 2 ^ w - 1 then (2 ^ (w - 1), 0)
    else
      let q := Int.tdiv (sval w x) (sval w y)
      (wrapI w q, wrapI w (sval w x - sval w y * q))
  else (x / y, x % y)

/-- Does a register hold a zero sub-element of width w? -/
def hasZero (w : Nat) (b : Word) : Bool := (elems w b).contains 0

/-- The bounds of the return of an IDIV word (R445). -/
def idivBounds (w : BitVec 2) : Nat × Nat := (3, if w.toNat ≤ 1 then 10 else if w.toNat = 2 then 14 else 22)

/-- An IDIV word (R87): zero divisors trap under IDZE of their own slice, and set IDZ otherwise (R88). [DEDUCED: log entry 94] -/
def divWord (s : State) (o : OpAB) (sg rem : Bool) : Host.Outcome State Fault Refusal :=
  let w := widthOf o.w
  runLane s { shapeInt o false with sb := some (idivBounds o.w), lat := 0 } noCauses fun x v L =>
    let qr := List.zipWith (divElem w sg) (elems w (val v L 0)) (elems w (val v L 1))
    let z := hasZero w (val v L 1)
    let en := match x.sliceOf L with | some sl => sl.hasStatus sIDZE | none => false
    { val := packElems w (qr.map fun e => if rem then e.2 else e.1), idz := z
      cause := if z && en then some 0x06 else none }

/-- IDIVS (R87). -/
def execIdivs (o : OpAB) (s : State) := divWord s o true false
/-- IDIVZ (R87). -/
def execIdivz (o : OpAB) (s : State) := divWord s o false false
/-- IREMS (R87). -/
def execIrems (o : OpAB) (s : State) := divWord s o true true
/-- IREMZ (R87). -/
def execIremz (o : OpAB) (s : State) := divWord s o false true

/-! ## Compares (R89, R90) -/

/-- A relation on a pair of sub-elements of width w. -/
abbrev Rel2 := Nat → Nat → Nat → Bool

def cEq : Rel2 := fun _ a b => a == b
def cNe : Rel2 := fun _ a b => a != b
def cLt : Rel2 := fun w a b => decide (sval w a < sval w b)
def cLe : Rel2 := fun w a b => decide (sval w a ≤ sval w b)
def cLtz : Rel2 := fun _ a b => decide (a < b)
def cLez : Rel2 := fun _ a b => decide (a ≤ b)
def cTst : Rel2 := fun _ a b => a &&& b != 0

/-- The shape of a compare: a predicate destination, no ST (R57, R89). -/
def shapeCmp (o : OpCmp) (b : Src) : Shape where
  st := 0
  srcs := [.s7 o.a, b]
  dst := .pred o.p.toNat
  lat := 0

/-- A predicate value as a lane result. -/
def bit (b : Bool) : Word := if b then 1 else 0

/-- An integer compare (R89): true when the relation holds for every sub-element. -/
def cmpWord (s : State) (o : OpCmp) (g : Bool) (r : Rel2) : Host.Outcome State Fault Refusal :=
  let w := widthOf o.w
  runLane s (shapeCmp o (srcB g w o.b)) noCauses fun _ v L =>
    { val := bit ((List.zipWith (r w) (elems w (val v L 0)) (elems w (val v L 1))).all id) }

/-- ICMPEQ (R89). -/
def execIcmpeq (o : OpCmp) (s : State) := cmpWord s o false cEq

/-- ICMPNE (R89). -/
def execIcmpne (o : OpCmp) (s : State) := cmpWord s o false cNe

/-- ICMPLT (R89). -/
def execIcmplt (o : OpCmp) (s : State) := cmpWord s o false cLt

/-- ICMPLE (R89). -/
def execIcmple (o : OpCmp) (s : State) := cmpWord s o false cLe

/-- ICMPLTZ (R89). -/
def execIcmpltz (o : OpCmp) (s : State) := cmpWord s o false cLtz

/-- ICMPLEZ (R89). -/
def execIcmplez (o : OpCmp) (s : State) := cmpWord s o false cLez

/-- ICMPTST (R89). -/
def execIcmptst (o : OpCmp) (s : State) := cmpWord s o false cTst

/-- ICMPEQ, B a uniform or immediate source (R89). -/
def execIcmpeqG (o : OpCmp) (s : State) := cmpWord s o true cEq

/-- ICMPNE, B a uniform or immediate source (R89). -/
def execIcmpneG (o : OpCmp) (s : State) := cmpWord s o true cNe

/-- ICMPLT, B a uniform or immediate source (R89). -/
def execIcmpltG (o : OpCmp) (s : State) := cmpWord s o true cLt

/-- ICMPLE, B a uniform or immediate source (R89). -/
def execIcmpleG (o : OpCmp) (s : State) := cmpWord s o true cLe

/-- ICMPLTZ, B a uniform or immediate source (R89). -/
def execIcmpltzG (o : OpCmp) (s : State) := cmpWord s o true cLtz

/-- ICMPLEZ, B a uniform or immediate source (R89). -/
def execIcmplezG (o : OpCmp) (s : State) := cmpWord s o true cLez

/-- ICMPTST, B a uniform or immediate source (R89). -/
def execIcmptstG (o : OpCmp) (s : State) := cmpWord s o true cTst

end Sys2Proof.Machine
end

