-- ==== Sys2Proof/Machine/LaneControl.lean ====
section
/-!
DEFINITION. Hint words (R63 to R67), predicate logic and the guard (R113, R114), predicate transfer and
select (R115, R116), branches, calls and returns (R117 to R120), and the gang control words that do not
touch a barrier object (R121, R122).
-/

namespace Sys2Proof.Machine

/-! ## Hints -/

/-- A hint word takes one beat and attaches what `f` adds (R63); the first hint's address is kept. [DEDUCED: log entry 41] -/
def hintWord (s : State) (f : Hints → Hints) : Host.Outcome State Fault Refusal :=
  withStream s fun x => .next (s.setGang (x.mapSlices fun _ sl =>
    let h := f sl.hints
    { sl with
      hints := { h with addr := some (h.addr.getD sl.pc) }
      pc := sl.pc + 4
      clock := sl.clock + 1
      readyAt := s.beat + 1
      since := s.beat + 1 }))

/-- HNOP takes a beat and attaches nothing (R64). -/
def execHnop (s : State) : Host.Outcome State Fault Refusal :=
  withStream s fun x => .next (s.setGang (x.mapSlices fun _ sl =>
    { sl with pc := sl.pc + 4, clock := sl.clock + 1, readyAt := s.beat + 1, since := s.beat + 1 }))

/-- HSCHED (R64). -/
def execHsched (o : OpHsched) (s : State) := hintWord s fun h =>
  { h with sched := some o, bad := h.bad || h.sched.isSome }

/-- HIMM (R65): SLOT 00 bits 23:0, 01 bits 47:24, 10 bits 63:48. -/
def execHimm (o : OpHimm) (s : State) := hintWord s fun h =>
  match o.l.toNat with
  | 0 => { h with lo := some o.d, bad := h.bad || h.lo.isSome }
  | 1 => { h with mid := some o.d, bad := h.bad || h.mid.isSome }
  | _ => { h with hi := some o.d, bad := h.bad || h.hi.isSome }

/-- HDST (R66). -/
def execHdst (o : OpHdst) (s : State) := hintWord s fun h =>
  { h with dst := some o.d, bad := h.bad || h.dst.isSome }

/-- HMOD (R67). -/
def execHmod (o : OpHmod) (s : State) := hintWord s fun h =>
  { h with mods := some o, bad := h.bad || h.mods.isSome }

/-! ## Predicate logic (R113) -/

/-- The shape of a PLOG word. -/
def shapePlog (d a b : BitVec 7) : Shape where
  st := 0
  srcs := []
  dst := .pred d.toNat
  lat := 0
  preds := [a.toNat, b.toNat]

/-- A predicate of a lane of the stream's gang. -/
def Cx.predOf (x : Cx) (p : BitVec 7) (L : Nat) : Bool :=
  match x.g.lane? L with
  | some l => l.pred p.toNat
  | none => false

/-- A two-source PLOG word. -/
def plog2 (s : State) (o : OpPred2) (f : Bool → Bool → Bool) : Host.Outcome State Fault Refusal :=
  runLane s (shapePlog o.d o.a o.b) noCauses fun x _ L => { val := bit (f (x.predOf o.a L) (x.predOf o.b L)) }

/-- A one-source PLOG word; `f` also sees the stream. -/
def plog1 (s : State) (o : OpPred1) (f : Cx → Nat → Bool) : Host.Outcome State Fault Refusal :=
  runLane s (shapePlog o.d o.a o.a) noCauses fun x _ L => { val := bit (f x L) }

/-- PAND (R113). -/
def execPand (o : OpPred2) (s : State) := plog2 s o fun a b => a && b
/-- POR (R113). -/
def execPor (o : OpPred2) (s : State) := plog2 s o fun a b => a || b
/-- PXOR (R113). -/
def execPxor (o : OpPred2) (s : State) := plog2 s o fun a b => a != b
/-- PANDN (R113). -/
def execPandn (o : OpPred2) (s : State) := plog2 s o fun a b => a && !b
/-- PNOT (R113). -/
def execPnot (o : OpPred1) (s : State) := plog1 s o fun x L => !x.predOf o.a L
/-- PMOV (R113). -/
def execPmov (o : OpPred1) (s : State) := plog1 s o fun x L => x.predOf o.a L
/-- PANY (R113): over the active lanes of the issuing stream. -/
def execPany (o : OpPred1) (s : State) := plog1 s o fun x _ => x.actives.any (x.predOf o.a)
/-- PALL (R113). -/
def execPall (o : OpPred1) (s : State) := plog1 s o fun x _ => x.actives.all (x.predOf o.a)

/-! ## The guard (R114) -/

/-- A word without lane operands: legal, with no hint but HSCHED, once nothing holds the stream. Correctable errors
in what it reads are repaired first (R379). -/
def streamWord (s : State) (legal : Bool) (preds : List Nat) (k : State → Cx → Host.Outcome State Fault Refusal) :
    Host.Outcome State Fault Refusal :=
  withStream s fun x =>
    if !(legal && hintsOk x.hints [] false hmNone) then .next (takeTrap s x 0x01 0 false x.mask none)
    else if x.pending s [] .none then .next (hold s x)
    else if groupDamaged s x [] preds then .next (groupFatal s x.grp.id 0x42 (64 * x.g.idx))
    else k (s.repairWhere x (x.readsWhole [] preds)) x

/-- Set the guard of every issuing slice; the stream goes on. -/
def guardWord (s : State) (g : Guard) : Host.Outcome State Fault Refusal :=
  streamWord s true [] fun s x =>
    .next (s.setGang (Cx.mapSlices ⟨x.next s 0, x.grp, x.ss⟩ fun _ sl => { sl with guard := g }))

/-- GUARD (R114). -/
def execGuard (o : OpGuard) (s : State) := guardWord s ⟨o.a, false⟩
/-- GUARDN (R114). -/
def execGuardn (o : OpGuard) (s : State) := guardWord s ⟨o.a, true⟩
/-- GUARDOFF (R114): every live lane is active. -/
def execGuardoff (s : State) := guardWord s ⟨0, false⟩

/-! ## Predicate transfer and select (R115, R116) -/

/-- The active lanes of the stream whose predicate is 1. -/
def Cx.ballot (x : Cx) (p : BitVec 7) : List Nat := x.actives.filter (x.predOf p)

/-- The shape of a PXF word that pushes. -/
def shapePx (st : BitVec 2) (lat : Nat) (preds : List Nat) : Shape where
  st := st.toNat
  srcs := []
  dst := .push
  lat := lat
  preds := preds

/-- PBAL (R115). -/
def execPbal (o : OpPx1) (s : State) : Host.Outcome State Fault Refusal :=
  runLane s (shapePx o.s 2 [o.p.toNat]) noCauses fun x _ _ => { val := maskOf (x.ballot o.p) }

/-- PCNT (R115). -/
def execPcnt (o : OpPx1) (s : State) : Host.Outcome State Fault Refusal :=
  runLane s (shapePx o.s 2 [o.p.toNat]) noCauses fun x _ _ =>
    { val := BitVec.ofNat 64 (x.ballot o.p).length }

/-- The predicates p to p + 63 of a lane as a word; beyond p127 they read 0. -/
def Lane.predWord (l : Lane) (p : Nat) : Word :=
  maskOf ((rangeFrom 0 64).filter fun j => decide (p + j ≤ 127) && l.pred (p + j))

/-- PGET (R115). -/
def execPget (o : OpPx1) (s : State) : Host.Outcome State Fault Refusal :=
  runLane s (shapePx o.s 1 (rangeFrom o.p.toNat 64)) noCauses fun x _ L =>
    { val := match x.g.lane? L with | some l => l.predWord o.p.toNat | none => 0 }

/-- The predicates p to p + 63 of a lane written from a where b has 1 bits. [DEDUCED: log entry 34] -/
def Lane.setPreds (l : Lane) (p : Nat) (a b : Word) : Lane :=
  (rangeFrom 0 64).foldl (fun l j => if b.getLsbD j then l.setPred (p + j) (a.getLsbD j) else l) l

/-- PSET (R115). -/
def execPset (o : OpPset) (s : State) : Host.Outcome State Fault Refusal :=
  runLanePost s { st := o.s.toNat, srcs := [.s7 o.a, .s7 o.b], dst := .none, lat := 0 } noCauses
    (fun _ _ _ => { val := 0 })
    fun _ vals i old sl => sl.mapLanes fun j l =>
      if old.active j then l.setPreds o.p.toNat (val vals (4 * i + j) 0) (val vals (4 * i + j) 1) else l

/-- SEL (R116). -/
def execSel (o : OpSel) (s : State) : Host.Outcome State Fault Refusal :=
  runLane s { st := o.s.toNat, srcs := [.s7 o.a, .s7 o.b], dst := .push, lat := 1, preds := [o.p.toNat],
              hdst := true } noCauses fun x v L =>
    { val := if x.predOf o.p L != (o.i == 1#1) then val v L 0 else val v L 1 }

/-! ## Branches, calls and returns (R117 to R120) -/

/-- The address a displacement in words names from a word's own address. -/
def target (pc : Word) (n : Nat) (d : BitVec n) : Word := pc + (d.signExtend 64 <<< 2)

/-- Each issuing slice goes to the address `to` gives; the gang parts when they differ (R32). -/
def goWord (s : State) (x : Cx) (dest : Nat → Slice → Word) : State :=
  s.setGang (x.issued s 0 0 dest).partTest

/-- The active positions of a slice. -/
def Slice.activePos (sl : Slice) : List Nat := (rangeFrom 0 4).filter sl.active

/-- A BR word in modes 00 to 10: `dec` decides for each slice from its active lanes' predicate values. Slices
that decide differently part the gang, wherever they go on (R32). [DEDUCED: log entry 37] -/
def brWord (s : State) (o : OpBr) (dec : List Bool → Bool) : Host.Outcome State Fault Refusal :=
  streamWord s true [o.p.toNat] fun s x =>
    let taken := fun (i : Nat) (sl : Slice) => dec (sl.activePos.map fun j => x.predOf o.p (4 * i + j))
    let outs := x.ss.filterMap fun i => (x.g.slice? i).map (taken i)
    let s1 := goWord s x fun i sl => if taken i sl then target sl.pc _ o.d else sl.pc + 4
    .next (if outs.any id && outs.any (!·) then s1.modGang x.g.id fun g => { g with unified := false } else s1)

/-- BR.any (R117). -/
def execBrAny (o : OpBr) (s : State) := brWord s o fun ps => ps.any id
/-- BR.all (R117). -/
def execBrAll (o : OpBr) (s : State) := brWord s o fun ps => ps.all id
/-- BR.none (R117). -/
def execBrNone (o : OpBr) (s : State) := brWord s o fun ps => !ps.any id
/-- BR.uni (R117): decided over the whole stream, and never parts it. -/
def execBrUni (o : OpBr) (s : State) : Host.Outcome State Fault Refusal :=
  streamWord s true [o.p.toNat] fun s x => .next (goWord s x fun _ sl =>
    if x.actives.any (x.predOf o.p) then target sl.pc _ o.d else sl.pc + 4)

/-- JMP (R118). -/
def execJmp (o : OpJump) (s : State) : Host.Outcome State Fault Refusal :=
  streamWord s true [] fun s x => .next (goWord s x fun _ sl => target sl.pc _ o.d)

/-- Some issuing slice satisfies a test: the whole stream faults (R120). -/
def stackCause (p : Slice → Bool) (x : Cx) : List (Nat × Word) :=
  if x.ss.any fun i => match x.g.slice? i with | some sl => p sl | none => false then [(0x0B, x.mask)] else []

/-- The return stack is full (R120). -/
def Slice.stackFull (sl : Slice) : Bool := decide (16 ≤ sl.rstack.length)

/-- CALL (R118): the return address on the stack and in the queue, then as JMP. -/
def execCall (o : OpJump) (s : State) : Host.Outcome State Fault Refusal :=
  runLanePost s { st := 0, srcs := [], dst := .push, lat := 1 } (fun x _ => stackCause Slice.stackFull x)
    (fun x _ L => { val := match x.sliceOf L with | some sl => sl.pc + 4 | none => 0 })
    fun _ _ _ old sl => { sl with pc := target old.pc _ o.d, rstack := (old.pc + 4) :: old.rstack }

/-- RET (R118, R120). -/
def execRet (s : State) : Host.Outcome State Fault Refusal :=
  streamWord s true [] fun s x =>
    match lowest (stackCause (fun sl => sl.rstack.isEmpty) x) with
    | some (c, m) => .next (takeTrap s x c 0 false m none)
    | none => .next (s.setGang (Cx.mapSlices ⟨x.issued s 0 0 fun _ sl => sl.rstack.headD 0, x.grp, x.ss⟩
        fun _ sl => { sl with rstack := sl.rstack.tail }).partTest)

/-- The targets that the active lanes of a slice read (R119). [DEDUCED: log entry 47] -/
def sliceTargets (vals : List (List Word)) (i : Nat) (sl : Slice) : List Word :=
  sl.activePos.map fun j => val vals (4 * i + j) 0

/-- The faults of an indirect transfer (R70, R119): a misaligned target, and disagreeing lanes. [DEDUCED: log entry 47] -/
def indirectCauses (x : Cx) (vals : List (List Word)) : List (Nat × Word) :=
  let mis := x.maskOfP fun L => (val vals L 0).toNat % 4 != 0
  let div := (x.ss.map fun i => match x.g.slice? i with
    | some sl => match sliceTargets vals i sl with
      | [] => []
      | t :: ts => if ts.all (· == t) then [] else sl.activePos.map fun j => 4 * i + j
    | none => []).flatten
  (if mis != 0 then [(0x02, mis)] else []) ++ (if div.isEmpty then [] else [(0x0A, maskOf div)])

/-- JMPI (R118, R119). [DEDUCED: log entry 37] -/
def execJmpi (o : OpJumpI) (s : State) : Host.Outcome State Fault Refusal :=
  runLanePost s { st := 0, srcs := [.s7 o.a], dst := .none, lat := 0 } indirectCauses
    (fun _ _ _ => { val := 0 })
    fun _ vals i old sl => { sl with pc := (sliceTargets vals i old).headD (old.pc + 4) }

/-- CALLI (R118 to R120): it faults when an issuing slice's stack is full; a slice with no active lane goes on,
with nothing on its stack. -/
def execCalli (o : OpJumpI) (s : State) : Host.Outcome State Fault Refusal :=
  runLanePost s { st := 0, srcs := [.s7 o.a], dst := .push, lat := 1 }
    (fun x vals => indirectCauses x vals ++ stackCause Slice.stackFull x)
    (fun x _ L => { val := match x.sliceOf L with | some sl => sl.pc + 4 | none => 0 })
    fun _ vals i old sl => match sliceTargets vals i old with
      | [] => sl
      | t :: _ => { sl with pc := t, rstack := (old.pc + 4) :: old.rstack }

/-! ## Gang control (R121, R122) -/

/-- Scoreboarded words of the stream that have not returned. -/
def Cx.outstanding (x : Cx) (s : State) : Bool :=
  s.ops.any fun o => o.gang == x.g.id && o.slices.any (x.ss.contains ·)

/-- REGANG (R33): at once in a unified gang; else an arrival and a wait on the implicit barrier. -/
def execRegang (o : OpSt) (s : State) : Host.Outcome State Fault Refusal :=
  streamWord s true [] fun s x =>
    if x.g.unified then .next (s.setGang (x.next s o.s.toNat))
    else
      let addr := x.pc
      let g := Cx.mapSlices ⟨x.next s o.s.toNat, x.grp, x.ss⟩ fun _ sl => { sl with run := .regang addr }
      .next (s.setGang (g.regangTest s.beat))

/-- The stream of a unified gang ends: every issuing slice ends and the gang has ended. -/
def endGang (s : State) (x : Cx) (how : GangEnd) : State :=
  (((s.setGang { Cx.mapSlices ⟨x.next s 0, x.grp, x.ss⟩ (fun _ sl => { sl with run := .ended }) with
    ended := some how, region := none }).epochTest x.grp.id).checkGroup x.grp.id).kickSoon

/-- EXIT (R122): once the stream's scoreboarded words have returned, the gang ends, or the parted slice
retires as R41 lays down. -/
def execExit (_ : OpSt) (s : State) : Host.Outcome State Fault Refusal :=
  streamWord s true [] fun s x =>
    if x.outstanding s then .next (hold s x)
    else match settled s x with
    | (s, none) => .next s
    | (s, some x) => if x.g.unified then .next (endGang s x .exit)
    else
      let s1 := s.setGang (Cx.mapSlices ⟨x.next s 0, x.grp, x.ss⟩ fun _ sl => { sl with run := .retired })
      .next (x.ss.foldl (fun (s : State) i => s.retireSlice x.g.id i) s1)

/-- SLEEP (R121): not ready for max(IMM, ST, 1) beats after issue. [DEDUCED: log entry 40] -/
def execSleep (o : OpSleep) (s : State) : Host.Outcome State Fault Refusal :=
  streamWord s true [] fun s x =>
    let n := max (max o.i.toNat o.s.toNat) 1
    let due := s.beat + 1 + n
    let g := Cx.mapSlices ⟨x.issued s o.s.toNat n fun _ sl => sl.pc + 4, x.grp, x.ss⟩
      fun _ sl => { sl with run := .sleep due }
    .next ((s.setGang g).postAt (4 * due) (.sleepExpiry x.g.id (x.ss.headD 0)))

/-- YIELD (R121): not ready in the next beat. [DEDUCED: log entry 40] -/
def execYield (o : OpSt) (s : State) : Host.Outcome State Fault Refusal :=
  streamWord s true [] fun s x => .next (s.setGang (x.issued s o.s.toNat 1 fun _ sl => sl.pc + 4))

end Sys2Proof.Machine
end

