-- ==== Sys2Proof/Machine/Narrow.lean ====
section
/-!
DEFINITION. Narrow formats (R295 to R298), their decoding and encoding (R108), shared scales (R299) and
scaled elements (R300).
-/

namespace Sys2Proof.Machine

/-- A narrow format (R295). -/
structure NFmt where
  spec : Nat
  sgn  : Bool
  ew   : Nat
  mw   : Nat
  bias : Int
  deriving DecidableEq, Repr

/-- The fields of an NFMT value. -/
def nfmtOf (v : Nat) : NFmt where
  spec := v / 2 ^ 12 % 4
  sgn := v.testBit 8
  ew := v / 16 % 16
  mw := v % 16
  bias := if v / 2 ^ 16 % 256 < 128 then (v / 2 ^ 16 % 256 : Nat) else (v / 2 ^ 16 % 256 : Nat) - 256

/-- The code width T. -/
def NFmt.t (n : NFmt) : Nat := (if n.sgn then 1 else 0) + n.ew + n.mw

/-- Is an NFMT value valid (R295, R296)? -/
def nfmtValid (v : Nat) : Bool :=
  let n := nfmtOf v
  v / 2 ^ 24 == 0 && v / 2 ^ 14 % 4 == 0 && v / 2 ^ 9 % 8 == 0 && decide (n.ew ≤ 8) && decide (n.mw ≤ 8) &&
    decide (0 < n.t) && decide (n.t ≤ 8) && n.spec != 3 && !(n.ew == 0 && n.spec != 0) &&
    !(n.spec == 1 && (decide (n.ew < 2) || n.mw == 0))

/-- Decode a code (R297); a NaN carries no payload. -/
def NFmt.decode (n : NFmt) (c : Nat) : FVal :=
  let s := n.sgn && c.testBit (n.t - 1)
  let e := c / 2 ^ n.mw % 2 ^ n.ew
  let f := c % 2 ^ n.mw
  if n.spec = 1 ∧ e = 2 ^ n.ew - 1 then (if f = 0 then .inf s else .nan false true 0)
  else if n.spec = 2 ∧ e = 2 ^ n.ew - 1 ∧ f = 2 ^ n.mw - 1 then .nan false true 0
  else if n.ew = 0 then .fin s f (-n.bias)
  else if e = 0 then .fin s f (1 - n.bias - n.mw)
  else .fin s (2 ^ n.mw + f) ((e : Int) - n.bias - n.mw)

/-- The bits of a code below its sign, all ones. -/
def NFmt.ones (n : NFmt) : Nat := 2 ^ (n.ew + n.mw) - 1

/-- The largest finite magnitude code. -/
def NFmt.largest (n : NFmt) : Nat :=
  if n.ew = 0 then 2 ^ n.mw - 1
  else match n.spec with
    | 0 => n.ones
    | 1 => (2 ^ n.ew - 1) * 2 ^ n.mw - 1
    | _ => n.ones - 1

/-- A magnitude code with its sign. -/
def NFmt.signed (n : NFmt) (neg : Bool) (c : Nat) : Nat := if neg then 2 ^ (n.ew + n.mw) + c else c

/-- The infinity code of an IEEE-like format. -/
def NFmt.infCode (n : NFmt) (neg : Bool) : Nat := n.signed neg ((2 ^ n.ew - 1) * 2 ^ n.mw)

/-- The code a finite overflow takes (R108). -/
def NFmt.overflow (n : NFmt) (fm : FMode) (neg : Bool) : Nat :=
  match n.spec with
  | 0 => n.signed neg n.largest
  | 1 =>
    if fm.sat then n.signed neg n.largest
    else match fm.rm, neg with
      | .rne, _ => n.infCode neg
      | .rtz, _ => n.signed neg n.largest
      | .rup, false => n.infCode false
      | .rup, true => n.signed true n.largest
      | .rdn, false => n.signed false n.largest
      | .rdn, true => n.infCode true
  | _ => if fm.sat then n.signed neg n.largest else n.ones

/-- Encode a finite value (−1)^neg · m · 2^e on the narrow grid, with its flags (R108, R298). -/
def NFmt.encodeFin (n : NFmt) (fm : FMode) (neg : Bool) (m : Nat) (e : Int) : FRes :=
  if m = 0 then ⟨if n.sgn then n.signed neg 0 else 0, 0⟩
  else if neg && !n.sgn then ⟨0, fNV⟩
  else if n.ew = 0 then
    let (c, exact) := scaleRound fm.rm neg m (e + n.bias)
    if n.largest < c then ⟨n.overflow fm neg, fOF ||| fNX⟩
    else ⟨n.signed neg c, if exact then 0 else if c = 0 then fUF ||| fNX else fNX⟩
  else
    let l : Int := (Nat.log2 m : Int) + e
    let emin : Int := 1 - n.bias
    let q := max l emin
    let (c0, exact) := scaleRound fm.rm neg m (e - q + n.mw)
    let (c, q) := if c0 = 2 ^ (n.mw + 1) then (2 ^ n.mw, q + 1) else (c0, q)
    let code := if c < 2 ^ n.mw then c else (q + n.bias).toNat * 2 ^ n.mw + (c - 2 ^ n.mw)
    if n.largest < code then ⟨n.overflow fm neg, fOF ||| fNX⟩
    else
      let (u0, _) := scaleRound fm.rm neg m (e - l + n.mw)
      let tiny := (if u0 = 2 ^ (n.mw + 1) then l + 1 else l) < emin
      ⟨n.signed neg code, if exact then 0 else if tiny then fUF ||| fNX else fNX⟩

/-- FENC of one value (R108, R298). -/
def NFmt.encode (n : NFmt) (fm : FMode) : FVal → FRes
  | .fin neg m e => n.encodeFin fm neg m e
  | .inf neg =>
    if neg && !n.sgn then ⟨0, fNV⟩
    else match n.spec with
      | 0 => ⟨n.signed neg n.largest, fNV⟩
      | 1 => ⟨n.infCode neg, 0⟩
      | _ => ⟨if fm.sat then n.signed neg n.largest else n.ones, 0⟩
  | .nan _ q _ =>
    if n.spec = 0 then ⟨0, fNV⟩ else ⟨n.ones, if q then 0 else fNV⟩

/-- FDEC of one code into a format (R108). -/
def NFmt.decodeTo (n : NFmt) (f : Fmt) (fm : FMode) (byte : Nat) : FRes :=
  match n.decode (byte % 2 ^ n.t) with
  | .nan _ _ _ => ⟨f.canonNaN, 0⟩
  | .inf s => ⟨f.infBits s, 0⟩
  | .fin s m e => f.round fm fm.sat s m e

/-! ## Scales -/

/-- A shared scale (R299): none for a NaN scale. -/
def sdecode (x : Nat) : Option (Nat × Int) :=
  if x / 256 = 255 then none
  else if x / 256 = 0 then some (x % 256, -134)
  else some (256 + x % 256, (x / 256 : Nat) - 135)

/-- The exact value of an element under a scale (R300). -/
def scaled (v : FVal) (x : Nat) : FVal :=
  match sdecode x with
  | none => .nan false true 0
  | some (m, e) =>
    match v with
    | .fin s n g => .fin s (n * m) (g + e)
    | .inf s => if m = 0 then .nan false true 0 else .inf s
    | v => v

end Sys2Proof.Machine
end

