-- ==== Sys2Proof/Machine/LaneFloat.lean ====
section
/-!
DEFINITION. Floating-point words (R92 to R112): two-source, fused, dot, unary, conversion, compare,
divide and square-root forms, each computed under the setting of its lane's slice.
-/

namespace Sys2Proof.Machine

/-- The setting of the slice a lane belongs to (R96). -/
def Cx.fmOf (x : Cx) (L : Nat) : FMode :=
  match x.sliceOf L with
  | some sl => sl.fm
  | none => ⟨.rne, false, false, false⟩

/-- Results of sub-elements of width w as a lane result. -/
def fpOut (w : Nat) (rs : List FRes) : LaneOut :=
  { val := packElems w (rs.map (·.bits)), fl := rs.foldl (fun f r => f ||| r.fl) 0 }

/-! ## Two-source forms (R101, R102) -/

/-- A rule on two patterns of a format. -/
abbrev FRule2 := Fmt → FMode → Nat → Nat → FRes

def fAdd : FRule2 := fun f fm a b => f.addV fm (f.rd fm a) (f.rd fm b)
def fSub : FRule2 := fun f fm a b => f.addV fm (f.rd fm a) (f.rd fm b).negate
def fMul : FRule2 := fun f fm a b => f.mulR fm (f.rd fm a) (f.rd fm b)
def fMin : FRule2 := fun f fm a b => f.minmax fm false false (f.readFlushed fm a) (f.readFlushed fm b)
def fMax : FRule2 := fun f fm a b => f.minmax fm true false (f.readFlushed fm a) (f.readFlushed fm b)
def fMinn : FRule2 := fun f fm a b => f.minmax fm false true (f.readFlushed fm a) (f.readFlushed fm b)
def fMaxn : FRule2 := fun f fm a b => f.minmax fm true true (f.readFlushed fm a) (f.readFlushed fm b)
def fCpsg : FRule2 := fun f _ a b => ⟨f.mk3 (f.signOf b) (f.expOf a) (f.fracOf a), 0⟩

/-- The shape of a two-source floating-point word. -/
def shapeFlt (o : OpAB) (g : Bool) : Shape where
  st := o.s.toNat
  srcs := [.s7 o.a, if g then .g7 o.b (.flt (fmtOfW o.w)) else .s7 o.b]
  dst := .d5 o.d.toNat
  lat := 2
  hm := hmRM

/-- A two-source floating-point word by the rule of its form. -/
def fltWord (s : State) (o : OpAB) (g : Bool) (r : FRule2) : Host.Outcome State Fault Refusal :=
  let f := fmtOfW o.w
  runLane s (shapeFlt o g) noCauses fun x v L =>
    fpOut f.width (List.zipWith (r f (x.fmOf L)) (elems f.width (val v L 0)) (elems f.width (val v L 1)))

/-- FADD (R101). -/
def execFadd (o : OpAB) (s : State) := fltWord s o false fAdd

/-- FSUB (R101). -/
def execFsub (o : OpAB) (s : State) := fltWord s o false fSub

/-- FMUL (R101). -/
def execFmul (o : OpAB) (s : State) := fltWord s o false fMul

/-- FMIN (R101). -/
def execFmin (o : OpAB) (s : State) := fltWord s o false fMin

/-- FMAX (R101). -/
def execFmax (o : OpAB) (s : State) := fltWord s o false fMax

/-- FMINN (R101). -/
def execFminn (o : OpAB) (s : State) := fltWord s o false fMinn

/-- FMAXN (R101). -/
def execFmaxn (o : OpAB) (s : State) := fltWord s o false fMaxn

/-- FCPSG (R101). -/
def execFcpsg (o : OpAB) (s : State) := fltWord s o false fCpsg

/-- FADD, B a uniform or immediate source (R101). -/
def execFaddG (o : OpAB) (s : State) := fltWord s o true fAdd

/-- FSUB, B a uniform or immediate source (R101). -/
def execFsubG (o : OpAB) (s : State) := fltWord s o true fSub

/-- FMUL, B a uniform or immediate source (R101). -/
def execFmulG (o : OpAB) (s : State) := fltWord s o true fMul

/-- FMIN, B a uniform or immediate source (R101). -/
def execFminG (o : OpAB) (s : State) := fltWord s o true fMin

/-- FMAX, B a uniform or immediate source (R101). -/
def execFmaxG (o : OpAB) (s : State) := fltWord s o true fMax

/-- FMINN, B a uniform or immediate source (R101). -/
def execFminnG (o : OpAB) (s : State) := fltWord s o true fMinn

/-- FMAXN, B a uniform or immediate source (R101). -/
def execFmaxnG (o : OpAB) (s : State) := fltWord s o true fMaxn

/-- FCPSG, B a uniform or immediate source (R101). -/
def execFcpsgG (o : OpAB) (s : State) := fltWord s o true fCpsg

/-! ## Fused multiply-add and dot (R103, R104) -/

/-- ±(a · b) ± c with one rounding. -/
def fmaR (f : Fmt) (fm : FMode) (negP negC : Bool) (a b c : Nat) : FRes :=
  let x := f.rd fm a; let y := f.rd fm b; let z := f.rd fm c
  f.dotV fm [(x, f.mw), (y, f.mw), (z, f.mw)] [(if negP then x.negate else x, y)]
    [if negC then z.negate else z]

/-- The shape of an FFMA or FDOT word: the queue, or the HDST destination. -/
def shapeFma (st : BitVec 2) (a b c : BitVec 7) : Shape where
  st := st.toNat
  srcs := [.s7 a, .s7 b, .s7 c]
  dst := .push
  lat := 2
  hdst := true
  hm := hmRM

/-- Three lists of sub-elements under a rule. -/
def zip3 (r : Nat → Nat → Nat → FRes) : List Nat → List Nat → List Nat → List FRes
  | a :: as, b :: bs, c :: cs => r a b c :: zip3 r as bs cs
  | _, _, _ => []

/-- An FFMA word: FP64, or FP32×2 when the top bit of F is 1. -/
def fmaWord (s : State) (o : OpFma) (negP negC : Bool) : Host.Outcome State Fault Refusal :=
  let f := if o.f = 1#1 then fp32 else fp64
  runLane s (shapeFma o.s o.a o.b o.c) noCauses fun x v L =>
    fpOut f.width (zip3 (fmaR f (x.fmOf L) negP negC) (elems f.width (val v L 0))
      (elems f.width (val v L 1)) (elems f.width (val v L 2)))

/-- FMA (R103). -/
def execFma (o : OpFma) (s : State) := fmaWord s o false false
/-- FMS (R103). -/
def execFms (o : OpFma) (s : State) := fmaWord s o false true
/-- FNMA (R103). -/
def execFnma (o : OpFma) (s : State) := fmaWord s o true false
/-- FNMS (R103). -/
def execFnms (o : OpFma) (s : State) := fmaWord s o true true

/-- An HDOT result: two products of 16-bit values and an FP32 addend, one rounding. -/
def hdotR (f : Fmt) (fm : FMode) (a b : List Nat) (c : Nat) : FRes :=
  let v := fun (l : List Nat) i => f.rd fm (at' 0 l i)
  let z := fp32.rd fm c
  fp32.dotV fm [(v a 0, f.mw), (v b 0, f.mw), (v a 1, f.mw), (v b 1, f.mw), (z, 23)]
    [(v a 0, v b 0), (v a 1, v b 1)] [z]

/-- An HDOT word on a 16-bit format. -/
def hdotWord (s : State) (o : OpABC) (f : Fmt) : Host.Outcome State Fault Refusal :=
  runLane s (shapeFma o.s o.a o.b o.c) noCauses fun x v L =>
    let a := elems 16 (val v L 0); let b := elems 16 (val v L 1); let c := elems 32 (val v L 2)
    fpOut 32 ((rangeFrom 0 2).map fun j =>
      hdotR f (x.fmOf L) (a.drop (2 * j)) (b.drop (2 * j)) (at' 0 c j))

/-- A narrow fused multiply-add word on a 16-bit format. -/
def ffma4Word (s : State) (o : OpABC) (f : Fmt) : Host.Outcome State Fault Refusal :=
  runLane s (shapeFma o.s o.a o.b o.c) noCauses fun x v L =>
    fpOut 16 (zip3 (fmaR f (x.fmOf L) false false) (elems 16 (val v L 0)) (elems 16 (val v L 1))
      (elems 16 (val v L 2)))

/-- HDOT.BF16 (R104). -/
def execHdotBf16 (o : OpABC) (s : State) := hdotWord s o bf16
/-- HDOT.F16 (R104). -/
def execHdotF16 (o : OpABC) (s : State) := hdotWord s o fp16
/-- FFMA.BF16X4 (R104). -/
def execFfmaBf16x4 (o : OpABC) (s : State) := ffma4Word s o bf16
/-- FFMA.F16X4 (R104). -/
def execFfmaF16x4 (o : OpABC) (s : State) := ffma4Word s o fp16

/-! ## Unary forms (R105) -/

/-- A rule on one pattern of a format. -/
abbrev FRule1 := Fmt → FMode → Nat → FRes

def fAbs : FRule1 := fun f _ a => ⟨f.mk3 false (f.expOf a) (f.fracOf a), 0⟩
def fNeg : FRule1 := fun f _ a => ⟨f.mk3 (!f.signOf a) (f.expOf a) (f.fracOf a), 0⟩
/-- Rounding to an integral value; `nx` says whether a changed value raises NX. -/
def fInt (rmOver : Option RM) (nx : Bool) : FRule1 := fun f fm a =>
  let v := f.rd fm a
  match firstNaN f [(v, f.mw)] with
  | some r => r
  | none => match v with
    | .fin s m e =>
      let r := f.integral fm (rmOver.getD fm.rm) s m e
      ⟨r.1.bits, if r.2 && nx then fNX else 0⟩
    | .inf s => ⟨f.infBits s, 0⟩
    | _ => f.invalid
/-- The class of a pattern, one bit set. -/
def fClass : FRule1 := fun f _ a =>
  let s := f.signOf a
  let k := if f.isNaN a then (if f.isSNaN a then 8 else 9)
    else if f.expOf a = 2 ^ f.ew - 1 then (if s then 0 else 7)
    else if f.isSub a then (if s then 2 else 5)
    else if f.expOf a = 0 then (if s then 3 else 4)
    else if s then 1 else 6
  ⟨2 ^ k, 0⟩
def fGetexp : FRule1 := fun f fm a =>
  let v := f.rd fm a
  match firstNaN f [(v, f.mw)] with
  | some r => r
  | none => match v with
    | .fin _ m e => if m = 0 then ⟨f.infBits true, fDZ⟩ else ⟨f.ofInt ((Nat.log2 m : Int) + e), 0⟩
    | _ => ⟨f.infBits false, 0⟩
def fGetman : FRule1 := fun f fm a =>
  let v := f.rd fm a
  match firstNaN f [(v, f.mw)] with
  | some r => r
  | none => match v with
    | .fin s m _ => if m = 0 then ⟨f.mk3 s 0 0, 0⟩ else f.round fm false s m (-(Nat.log2 m : Int))
    | _ => f.invalid

/-- The shape of a one-source floating-point word. -/
def shapeFun (o : OpA) : Shape where
  st := o.s.toNat
  srcs := [.s7 o.a]
  dst := .d5 o.d.toNat
  lat := 2
  hm := hmRM

/-- A unary floating-point word by the rule of its form. -/
def funWord (s : State) (o : OpA) (r : FRule1) : Host.Outcome State Fault Refusal :=
  let f := fmtOfW o.w
  runLane s (shapeFun o) noCauses fun x v L =>
    fpOut f.width ((elems f.width (val v L 0)).map (r f (x.fmOf L)))

/-- FABS (R105). -/
def execFabs (o : OpA) (s : State) := funWord s o fAbs
/-- FNEG (R105). -/
def execFneg (o : OpA) (s : State) := funWord s o fNeg
/-- FRND (R105). -/
def execFrnd (o : OpA) (s : State) := funWord s o (fInt none true)
/-- FRNDZ (R105). -/
def execFrndz (o : OpA) (s : State) := funWord s o (fInt (some .rtz) false)
/-- FCLASS (R105). -/
def execFclass (o : OpA) (s : State) := funWord s o fClass
/-- FGETEXP (R105). -/
def execFgetexp (o : OpA) (s : State) := funWord s o fGetexp
/-- FGETMAN (R105). -/
def execFgetman (o : OpA) (s : State) := funWord s o fGetman

/-! ## Conversions (R106 to R108) -/

/-- A decoded value of format f delivered in format g. -/
def convert (f g : Fmt) (fm : FMode) (v : FVal) : FRes :=
  match v with
  | .nan s q p => ⟨g.quietNaN f.mw s p, if q then 0 else fNV⟩
  | .inf s => ⟨g.infBits s, 0⟩
  | .fin s m e => g.round fm fm.sat s m e

/-- The shape of a conversion with one source. -/
def shapeCvt (o : OpA) (legal : Bool) : Shape :=
  { shapeFun o with hm := hmRMSAT, legal := legal }

/-- FCVTWL and FCVTWH (R106): the chosen half, widened. -/
def widenWord (s : State) (o : OpA) (high : Bool) : Host.Outcome State Fault Refusal :=
  let f := fmtOfW o.w
  let g := if o.w = 1#2 then fp64 else fp32
  runLane s (shapeCvt o (o.w != 0#2)) noCauses fun x v L =>
    let es := elems f.width (val v L 0)
    let half := if high then es.drop (es.length / 2) else es.take (es.length / 2)
    fpOut g.width (half.map fun e => convert f g (x.fmOf L) (f.rd (x.fmOf L) e))

/-- FCVTWL (R106). -/
def execFcvtwl (o : OpA) (s : State) := widenWord s o false
/-- FCVTWH (R106). -/
def execFcvtwh (o : OpA) (s : State) := widenWord s o true

/-- FCVTN (R106): A's values give the low results, B's the rest. -/
def execFcvtn (o : OpAB) (s : State) : Host.Outcome State Fault Refusal :=
  let g := fmtOfW o.w
  let f := if o.w = 1#2 then fp64 else fp32
  runLane s { shapeFlt o false with hm := hmRMSAT, legal := o.w != 0#2 } noCauses fun x v L =>
    fpOut g.width ((elems f.width (val v L 0) ++ elems f.width (val v L 1)).map fun e =>
      convert f g (x.fmOf L) (f.rd (x.fmOf L) e))

/-- A value outside the range of the result, or a NaN (R107). -/
def cvtBad (w : Nat) (sg sat : Bool) (nan below : Bool) : Nat :=
  if sat then
    if nan then 0
    else if sg then (if below then 2 ^ (w - 1) else 2 ^ (w - 1) - 1)
    else if below then 0 else 2 ^ w - 1
  else if sg then 2 ^ (w - 1) else 2 ^ w - 1

/-- FCVTFI and FCVTFU of one value (R107). -/
def toInt (w : Nat) (sg : Bool) (fm : FMode) (v : FVal) : FRes :=
  match v with
  | .nan _ _ _ => ⟨cvtBad w sg fm.sat true false, fNV⟩
  | .inf s => ⟨cvtBad w sg fm.sat false s, fNV⟩
  | .fin s m e =>
    let (n, exact) := scaleRound fm.rm s m e
    let i : Int := if s then -(n : Int) else n
    let hi : Int := if sg then (2 ^ (w - 1) : Nat) - 1 else (2 ^ w : Nat) - 1
    let lo : Int := if sg then -(2 ^ (w - 1) : Nat) else 0
    if i < lo then ⟨cvtBad w sg fm.sat false true, fNV⟩
    else if hi < i then ⟨cvtBad w sg fm.sat false false, fNV⟩
    else ⟨wrapI w i, if exact then 0 else fNX⟩

/-- A float-to-integer word. -/
def toIntWord (s : State) (o : OpA) (sg : Bool) : Host.Outcome State Fault Refusal :=
  let f := fmtOfW o.w
  runLane s (shapeCvt o true) noCauses fun x v L =>
    fpOut f.width ((elems f.width (val v L 0)).map fun e =>
      toInt f.width sg (x.fmOf L) (f.rd (x.fmOf L) e))

/-- FCVTFI (R107). -/
def execFcvtfi (o : OpA) (s : State) := toIntWord s o true
/-- FCVTFU (R107). -/
def execFcvtfu (o : OpA) (s : State) := toIntWord s o false

/-- An integer-to-float word (R106). -/
def ofIntWord (s : State) (o : OpA) (sg : Bool) : Host.Outcome State Fault Refusal :=
  let f := fmtOfW o.w
  runLane s (shapeCvt o true) noCauses fun x v L =>
    fpOut f.width ((elems f.width (val v L 0)).map fun e =>
      let i : Int := if sg then sval f.width e else e
      f.round (x.fmOf L) (x.fmOf L).sat (decide (i < 0)) i.natAbs 0)

/-- FCVTIF (R106). -/
def execFcvtif (o : OpA) (s : State) := ofIntWord s o true
/-- FCVTUF (R106). -/
def execFcvtuf (o : OpA) (s : State) := ofIntWord s o false

/-- The value of a narrow format register of the stream's group. -/
def Cx.nfmt (x : Cx) (k : BitVec 4) : Nat := (at' 0 x.grp.nfmt k.toNat).toNat

/-- The shape of FENC and FDEC. -/
def shapeNarrow (o : OpNarrow) : Shape where
  st := o.s.toNat
  srcs := [.s7 o.a]
  dst := .d5 o.d.toNat
  lat := 2
  hm := hmRMSAT

/-- An invalid narrow format register faults with cause 0x08 (R108). -/
def narrowCauses (o : OpNarrow) (x : Cx) (_ : List (List Word)) : List (Nat × Word) :=
  if nfmtValid (x.nfmt o.n) then [] else [(0x08, x.mask)]

/-- The sources that FENC and FDEC convert: under an invalid format register nothing is converted, and so
no floating-point exception stands beside cause 0x08. [DEDUCED: log entry 56] -/
def Cx.narrowElems (x : Cx) (k : BitVec 4) (l : List Nat) : List Nat := if nfmtValid (x.nfmt k) then l else []

/-- FENC (R108). -/
def execFenc (o : OpNarrow) (s : State) : Host.Outcome State Fault Refusal :=
  let f := fmtOfW o.w
  runLane s (shapeNarrow o) (narrowCauses o) fun x v L =>
    fpOut 8 ((x.narrowElems o.n (elems f.width (val v L 0))).map fun e =>
      (nfmtOf (x.nfmt o.n)).encode (x.fmOf L) (f.rd (x.fmOf L) e))

/-- FDEC (R108). -/
def execFdec (o : OpNarrow) (s : State) : Host.Outcome State Fault Refusal :=
  let f := fmtOfW o.w
  runLane s (shapeNarrow o) (narrowCauses o) fun x v L =>
    fpOut f.width ((x.narrowElems o.n ((elems 8 (val v L 0)).take f.count)).map fun e =>
      (nfmtOf (x.nfmt o.n)).decodeTo f (x.fmOf L) e)

/-! ## Compares (R109) -/

/-- A relation on two patterns: outcome for unordered operands, test of ordered values, and whether a
quiet NaN raises NV. -/
structure FRel where
  unord : Bool
  test  : FVal → FVal → Bool
  quiet : Bool

def relEq : FRel := ⟨false, FVal.eqV, false⟩
def relNe : FRel := ⟨true, fun a b => !a.eqV b, false⟩
def relLt : FRel := ⟨false, FVal.ltV, true⟩
def relLe : FRel := ⟨false, fun a b => a.ltV b || a.eqV b, true⟩
def relUn : FRel := ⟨true, fun _ _ => false, false⟩
def relOr : FRel := ⟨false, fun _ _ => true, false⟩
def relEqu : FRel := ⟨true, FVal.eqV, false⟩
def relGt : FRel := ⟨false, fun a b => b.ltV a, true⟩

/-- One pair of sub-elements: the outcome, and NV. -/
def fcmpElem (f : Fmt) (fm : FMode) (r : FRel) (a b : Nat) : Bool × FFlags :=
  let x := f.rd fm a; let y := f.rd fm b
  let un := x.isNaN || y.isNaN
  let nv := f.isSNaN a || f.isSNaN b || (un && r.quiet)
  (if un then r.unord else r.test x y, if nv then fNV else 0)

/-- A floating-point compare (R109). -/
def fcmpWord (s : State) (o : OpCmp) (r : FRel) : Host.Outcome State Fault Refusal :=
  let f := fmtOfW o.w
  runLane s (shapeCmp o (.s7 o.b)) noCauses fun x v L =>
    let es := List.zipWith (fcmpElem f (x.fmOf L) r) (elems f.width (val v L 0)) (elems f.width (val v L 1))
    { val := bit (es.all (·.1)), fl := es.foldl (fun f e => f ||| e.2) 0 }

/-- FCMPEQ (R109). -/
def execFcmpeq (o : OpCmp) (s : State) := fcmpWord s o relEq

/-- FCMPNE (R109). -/
def execFcmpne (o : OpCmp) (s : State) := fcmpWord s o relNe

/-- FCMPLT (R109). -/
def execFcmplt (o : OpCmp) (s : State) := fcmpWord s o relLt

/-- FCMPLE (R109). -/
def execFcmple (o : OpCmp) (s : State) := fcmpWord s o relLe

/-- FCMPUN (R109). -/
def execFcmpun (o : OpCmp) (s : State) := fcmpWord s o relUn

/-- FCMPOR (R109). -/
def execFcmpor (o : OpCmp) (s : State) := fcmpWord s o relOr

/-- FCMPEQU (R109). -/
def execFcmpequ (o : OpCmp) (s : State) := fcmpWord s o relEqu

/-- FCMPGT (R109). -/
def execFcmpgt (o : OpCmp) (s : State) := fcmpWord s o relGt

/-! ## Divide and square root (R110) -/

/-- The bounds of the return of an FDIVQ word (R445). -/
def fdivBounds (w : BitVec 2) : Nat × Nat := (3, if w = 0#2 then 20 else 12)

/-- FDIV (R110). -/
def execFdiv (o : OpAB) (s : State) : Host.Outcome State Fault Refusal :=
  let f := fmtOfW o.w
  runLane s { shapeFlt o false with lat := 0, sb := some (fdivBounds o.w), fp := true } noCauses fun x v L =>
    fpOut f.width (List.zipWith (fun a b => f.divR (x.fmOf L) (f.rd (x.fmOf L) a) (f.rd (x.fmOf L) b))
      (elems f.width (val v L 0)) (elems f.width (val v L 1)))

/-- FSQRT (R110). -/
def execFsqrt (o : OpA) (s : State) : Host.Outcome State Fault Refusal :=
  let f := fmtOfW o.w
  runLane s { shapeFun o with lat := 0, sb := some (fdivBounds o.w), fp := true } noCauses fun x v L =>
    fpOut f.width ((elems f.width (val v L 0)).map fun a => f.sqrtR (x.fmOf L) (f.rd (x.fmOf L) a))

end Sys2Proof.Machine
end

