-- ==== Sys2Proof/Machine/LaneCross.lean ====
section
/-!
DEFINITION. Cross-lane words (R124, R125), reductions and scans (R126, R127).
-/

namespace Sys2Proof.Machine

/-! ## Cross-lane words -/

/-- A parted slice may not issue a gang-wide word (R125, R127, R129). -/
def partedCause (x : Cx) : List (Nat × Word) := if x.g.unified then [] else [(0x09, x.mask)]

/-- A source element rule (R124): E, n, lane L, sub-element i, and the sub-elements of b. -/
abbrev XRule := Nat → Nat → Nat → Nat → List Nat → Nat

def xShf : XRule := fun E _ _ i b => at' 0 b i % E
def xUp : XRule := fun _ n L i b =>
  let e := L * n + i; let k := at' 0 b 0
  if e < k then e else e - k
def xDn : XRule := fun E n L i b =>
  let e := L * n + i; let k := at' 0 b 0
  if E ≤ e + k then e else e + k
def xBfly : XRule := fun E n L i b => (L * n + i) ^^^ (at' 0 b 0 % E)
def xGet : XRule := fun E _ _ _ b => at' 0 b 0 % E
def xPerm : XRule := fun _ n L i b => L * n + at' 0 b i % n
def xRot : XRule := fun E n L i b => (L * n + i + at' 0 b 0) % E

/-- Does lane j supply its value: its slice is live and it is not dead (R39, R125)? [DEDUCED: log entry 43] -/
def Cx.supplies (x : Cx) (j : Nat) : Bool :=
  match x.g.slice? (j / 4), x.g.lane? j with
  | some sl, some l => sl.live && !l.dead
  | _, _ => false

/-- A cross-lane word (R125); `gang` words fault in a parted slice. -/
def crossWord (s : State) (o : OpAB) (g gang : Bool) (r : XRule) : Host.Outcome State Fault Refusal :=
  let w := widthOf o.w
  let n := 64 / w
  runLane s { st := o.s.toNat, srcs := [.s7 o.a, srcB g w o.b], dst := .d5 o.d.toNat, lat := 2, wide := true }
    (fun x _ => if gang then partedCause x else []) fun x v L =>
      let E := 4 * x.g.slices.length * n
      let b := elems w (val v L 1)
      { val := packElems w ((rangeFrom 0 n).map fun i =>
          let e := r E n L i b
          fld (if x.supplies (e / n) then val v (e / n) 0 else poison) (e % n * w) w) }

/-- XSHF (R124). -/
def execXshf (o : OpAB) (s : State) := crossWord s o false true xShf

/-- XUP (R124). -/
def execXup (o : OpAB) (s : State) := crossWord s o false true xUp

/-- XDN (R124). -/
def execXdn (o : OpAB) (s : State) := crossWord s o false true xDn

/-- XBFLY (R124). -/
def execXbfly (o : OpAB) (s : State) := crossWord s o false true xBfly

/-- XGET (R124). -/
def execXget (o : OpAB) (s : State) := crossWord s o false true xGet

/-- XPERM (R124). -/
def execXperm (o : OpAB) (s : State) := crossWord s o false false xPerm

/-- XROT (R124). -/
def execXrot (o : OpAB) (s : State) := crossWord s o false true xRot

/-- XSHF, B a uniform or immediate source (R124). -/
def execXshfG (o : OpAB) (s : State) := crossWord s o true true xShf

/-- XUP, B a uniform or immediate source (R124). -/
def execXupG (o : OpAB) (s : State) := crossWord s o true true xUp

/-- XDN, B a uniform or immediate source (R124). -/
def execXdnG (o : OpAB) (s : State) := crossWord s o true true xDn

/-- XBFLY, B a uniform or immediate source (R124). -/
def execXbflyG (o : OpAB) (s : State) := crossWord s o true true xBfly

/-- XGET, B a uniform or immediate source (R124). -/
def execXgetG (o : OpAB) (s : State) := crossWord s o true true xGet

/-- XPERM, B a uniform or immediate source (R124). -/
def execXpermG (o : OpAB) (s : State) := crossWord s o true false xPerm

/-- XROT, B a uniform or immediate source (R124). -/
def execXrotG (o : OpAB) (s : State) := crossWord s o true true xRot

/-! ## Reductions and scans (R126, R127) -/

/-- A value of the tree: its pattern and the exceptions each lane's term met in the nodes it entered. -/
structure RNode where
  bits  : Nat
  lanes : List Nat
  marks : List (Nat × FFlags)
  deriving DecidableEq, Repr

/-- Two values meet in a node (R127): the left one as A; an absent half passes the other on. -/
def combine (node : Nat → Nat → FRes) : Option RNode → Option RNode → Option RNode
  | none, y => y
  | x, none => x
  | some x, some y =>
    let r := node x.bits y.bits
    let ls := x.lanes ++ y.lanes
    some ⟨r.bits, ls, x.marks ++ y.marks ++ (if r.fl = 0 then [] else ls.map fun L => (L, r.fl))⟩

/-- tree(lo, 2^k) of R127. [DEDUCED: log entry 44] -/
def redTree (node : Nat → Nat → FRes) (term : Nat → Option Nat) : Nat → Nat → Option RNode
  | 0, lo => (term lo).map fun b => ⟨b, [lo], []⟩
  | k + 1, lo => combine node (redTree node term k lo) (redTree node term k (lo + 2 ^ k))

/-- prefix(m) of R127: blocks of the set bits of m, from high to low. [DEDUCED: log entry 44] -/
def redPrefix (node : Nat → Nat → FRes) (term : Nat → Option Nat) (m : Nat) : Option RNode :=
  ((rangeFrom 0 7).reverse.foldl (fun (acc : Option RNode × Nat) k =>
    if m.testBit k then (combine node acc.1 (redTree node term k acc.2), acc.2 + 2 ^ k) else acc)
    (none, 0)).1

/-- What a VRED word is: element width, its node, how a term is read, the identity, and whether it scans
or scans exclusively. -/
structure Red where
  w    : Nat
  node : FMode → Nat → Nat → FRes
  term : FMode → Nat → Nat
  unit : Nat
  scan : Bool := false
  excl : Bool := false

/-- The setting that governs a floating-point VRED word: that of the lowest-numbered live slice. -/
def Cx.redMode (x : Cx) : FMode :=
  match x.g.liveSlices.head?.bind x.g.slice? with
  | some sl => sl.fm
  | none => ⟨.rne, false, false, false⟩

/-- EN of the lowest-numbered live slice. -/
def Cx.redEn (x : Cx) (_ : Nat) : FFlags :=
  match x.g.liveSlices.head?.bind x.g.slice? with
  | some sl => sl.fen
  | none => 0

/-- The result of sub-element i in lane L. -/
def Red.at (R : Red) (x : Cx) (v : List (List Word)) (L i : Nat) : Option RNode :=
  let fm := x.redMode
  let acts := x.actives
  let term := fun (j : Nat) => if acts.contains j then some (R.term fm (fld (val v j 0) (i * R.w) R.w)) else none
  if R.scan then redPrefix (R.node fm) term (if R.excl then L else L + 1)
  else redTree (R.node fm) term (Nat.log2 (4 * x.g.slices.length)) 0

/-- The exceptions that the nodes of the whole word raised, by lane whose term entered them. -/
def Red.marks (R : Red) (x : Cx) (v : List (List Word)) : List (Nat × FFlags) :=
  let outs := if R.scan then x.actives else x.actives.take 1
  (outs.map fun L => ((rangeFrom 0 (64 / R.w)).map fun i => match R.at x v L i with
    | some n => n.marks
    | none => []).flatten).flatten

/-- A VRED word (R127); in a parted slice it faults before any node is evaluated. -/
def redWord (s : State) (st : BitVec 2) (d : BitVec 5) (a : BitVec 7) (hm : OpHmod → Bool) (R : Red) :
    Host.Outcome State Fault Refusal :=
  runLaneWith s { st := st.toNat, srcs := [.s7 a], dst := .d5 d.toNat, lat := 2, hm := hm } true
    (fun x _ => partedCause x) Cx.redEn fun x v =>
      let marks := if x.g.unified then R.marks x v else []
      fun L =>
        { val := packElems R.w ((rangeFrom 0 (64 / R.w)).map fun i => match R.at x v L i with
            | some n => n.bits
            | none => R.unit)
          fl := (marks.filter (·.1 == L)).foldl (fun f m => f ||| m.2) 0 }

/-- An integer node. -/
def intNode (w : Nat) (r : Rule2) : FMode → Nat → Nat → FRes := fun _ a b => ⟨(r w a b).1, 0⟩
/-- An integer reduction of width w. -/
def intRed (w : Nat) (r : Rule2) (unit : Nat) : Red := { w := w, node := intNode w r, term := fun _ a => a, unit := unit }
/-- A floating-point reduction: terms are flushed as inputs once, nodes flush their outputs. [DEDUCED: log entry 44] -/
def fltRed (f : Fmt) (r : FRule2) (unit : Nat) : Red where
  w := f.width
  node := fun fm a b => r f { fm with fluIn := false } a b
  term := fun fm a => f.readFlushed fm a
  unit := unit

/-- VSUM (R126). -/
def execVsum (o : OpA) (s : State) := redWord s o.s o.d o.a hmNone (intRed (widthOf o.w) rIadd 0)
/-- VFSUM (R126). -/
def execVfsum (o : OpA) (s : State) := redWord s o.s o.d o.a hmRM (fltRed (fmtOfW o.w) fAdd 0)
/-- VMIN (R126): signed, or unsigned when U is 1. -/
def execVmin (o : OpRedU) (s : State) :=
  let w := widthOf o.w
  redWord s o.s o.d o.a hmNone (if o.u = 1#1 then intRed w rUmin (2 ^ w - 1) else intRed w rImin (2 ^ (w - 1) - 1))
/-- VMAX (R126). -/
def execVmax (o : OpRedU) (s : State) :=
  let w := widthOf o.w
  redWord s o.s o.d o.a hmNone (if o.u = 1#1 then intRed w rUmax 0 else intRed w rImax (2 ^ (w - 1)))
/-- VFMIN (R126). -/
def execVfmin (o : OpA) (s : State) :=
  redWord s o.s o.d o.a hmRM (fltRed (fmtOfW o.w) fMin ((fmtOfW o.w).infBits false))
/-- VFMAX (R126). -/
def execVfmax (o : OpA) (s : State) :=
  redWord s o.s o.d o.a hmRM (fltRed (fmtOfW o.w) fMax ((fmtOfW o.w).infBits true))
/-- VSCAN (R126): exclusive when X is 1. -/
def execVscan (o : OpRedX) (s : State) :=
  redWord s o.s o.d o.a hmNone { intRed (widthOf o.w) rIadd 0 with scan := true, excl := o.x == 1#1 }
/-- VFSCAN (R126). -/
def execVfscan (o : OpRedX) (s : State) :=
  redWord s o.s o.d o.a hmRM { fltRed (fmtOfW o.w) fAdd 0 with scan := true, excl := o.x == 1#1 }

end Sys2Proof.Machine
end

