-- ==== Sys2Proof/Machine/Return.lean ====
section
/-!
DEFINITION. The return of a scoreboarded result (R48, R59, R98, R99).
-/

namespace Sys2Proof.Machine

/-- A timing record whose producer has returned. -/
def Timing.clear (id : Nat) (t : Timing) : Timing := if t.pend = some id then Timing.zero else t

/-- Fill the queue entries reserved for an operation in one lane. -/
def fillQ (id : Nat) (v : Option Word) : List Timing → List Word → List Word
  | t :: ts, q :: qs => (if t.pend = some id then v.getD q else q) :: fillQ id v ts qs
  | _, qs => qs

/-- The value an operation brings a lane; a lane that died with it gets none. -/
def Op.valueAt (o : Op) (L : Nat) : Option Word :=
  if o.dead.contains L then none else (o.vals.find? (·.1 == L)).map (·.2)

/-- A result comes back to one slice: reserved queue entries that are still there, the named or moment
register that waits for it, further registers, and flags. -/
def Slice.fill (o : Op) (i : Nat) (sl : Slice) : Slice :=
  let v := fun (j : Nat) => o.valueAt (4 * i + j)
  let put := fun (r : Nat) (j : Nat) (rs : List Word) => match v j with
    | some x => modAt (fun _ => x) r rs
    | none => rs
  let named := match o.reg with
    | some r => if (at' Timing.zero sl.nT r).pend = some o.id then some r else none
    | none => none
  let mom := match o.mreg with
    | some r => if (at' Timing.zero sl.mT r).pend = some o.id then some r else none
    | none => none
  let lane := fun (j : Nat) (l : Lane) =>
    let l := { l with q := fillQ o.id (v j) sl.qT l.q }
    let l := match named with | some r => { l with n := put r j l.n } | none => l
    let l := match mom with | some r => { l with m := put r j l.m } | none => l
    (o.regs.filter fun e => e.2.1 == 4 * i + j && !o.dead.contains e.2.1).foldl
      (fun (l : Lane) e => { l with n := modAt (fun _ => e.2.2) e.1 l.n }) l
  let fl := (o.fl.filter (·.1 == i)).foldl (fun (f : FFlags) e => f ||| e.2) 0
  { (sl.mapLanes lane).raise fl with
    nT := sl.nT.map (Timing.clear o.id)
    qT := sl.qT.map (Timing.clear o.id)
    mT := sl.mT.map (Timing.clear o.id) }

/-- The registers an operation writes whole become clean (R382). -/
def State.opRewritten (s : State) (o : Op) : State :=
  let lanes := (o.vals.map (·.1)).filter (!o.dead.contains ·)
  let s := match o.reg with | some r => s.rewritten o.gang [] lanes (.d5 r) | none => s
  match o.mreg with | some m => s.rewritten o.gang [] lanes (.mom m) | none => s

/-- A floating-point word raised an enabled exception: at its return the trap 0x07 is taken, before any
lane has written (R99, R173). -/
def returnTrap (s : State) (o : Op) (fl : FFlags) (m : Word) : State :=
  let s := { s with ops := s.ops.filter (·.id != o.id) }
  match s.gang? o.gang with
  | none => s
  | some g => match s.group? g.group with
    | none => s
    | some G => takeTrap s (Cx.withXC ⟨g, G, o.slices⟩ fl) 0x07 0 false m none

/-- A result returns: its slices are filled, lanes that consumed an error die, and an access that met a
fabric fault ends the group (R419). The word's deaths are logged together (R383). -/
def returnOp (s : State) (o : Op) : State :=
  let s := (s.opRewritten o).modGang o.gang fun g =>
    { g with slices := imap (fun i sl => if o.slices.contains i then Slice.fill o i sl else sl) 0 g.slices }
  let s := { s with ops := s.ops.filter (·.id != o.id) }
  let s := killMore s o.gang o.dead o.dead
  if o.fabric.isEmpty then s
  else failGang s o.gang 0x1C (o.fabric.foldl min 63)

/-- RESULT_RETURN: the result of an operation that waits for no further answer returns (R59); what the word that holds its
stream has read stands for it (R370). -/
def execResultReturn (op : Nat) (s : State) : Host.Outcome State Fault Refusal :=
  match s.op? op with
  | some o => if o.waits = 0 ∧ !o.doc then
      .next (if o.rel && o.fabric.isEmpty then s.modOp op fun o => { o with block := false }
        else match o.xc with | some e => returnTrap s o e.1 e.2 | none => returnOp s o) else .next s
  | none => .next s

end Sys2Proof.Machine
end

