-- ==== Sys2Proof/Machine/LaneSystem.lean ====
section
/-!
DEFINITION. Register parking (R128 to R131) and the system words (R132 to R138), but for the writes of
ERRINJ and CLKTEST, which stand with error injection and with the clocks.
-/

namespace Sys2Proof.Machine

/-! ## Rows (R130) -/

/-- Rows of the accumulator share that gangs of a group hold parked values in. -/
def State.parkedAcc (s : State) (grp : Nat) : Nat :=
  ((s.gangsOf grp).map fun g => (g.park.map fun p => match p with | some p => p.accRows | none => 0).sum).sum

/-- Rows of the park reserve of a team's window on a core that are taken. -/
def State.parkedRsv (s : State) (team core : Nat) : Nat :=
  ((s.gangs.filter fun g => match s.group? g.group with
    | some G => G.team == team && G.core == core
    | none => false).map fun g =>
      (g.park.map fun p => match p with | some p => p.rsvRows | none => 0).sum).sum

/-- Rows held by allocated tiles. -/
def Group.tileRows (G : Group) : Nat := (G.z.map fun z => match z with | some z => z.rows | none => 0).sum

/-- Free accumulator rows of a group. -/
def State.freeAcc (s : State) (G : Group) : Nat := G.accRows - G.tileRows - s.parkedAcc G.id

/-- Free reserve rows of a group's window: a tile is 8 rows. -/
def State.freeRsv (s : State) (G : Group) : Nat :=
  match s.winAt G.team G.core with
  | some w => 8 * w.rsv - s.parkedRsv G.team G.core
  | none => 0

/-! ## Parking (R128, R129, R131) -/

def Gang.slot (g : Gang) (k : Nat) : Option ParkSlot := (at' none g.park k)

/-- The lanes of a gang that are live. -/
def Gang.liveLanes (g : Gang) : List Nat :=
  (g.liveSlices.map fun i => match g.slice? i with
    | some sl => (rangeFrom 0 4).filterMap fun j =>
        if (sl.lanes[j]?).any (fun l => !l.dead) then some (4 * i + j) else none
    | none => []).flatten

/-- The places of a parking slot. -/
def parkedAt (gang k : Nat) : Storage → Bool
  | .parked g j _ => g == gang && j == k
  | _ => false

/-- Fill a slot with `rows` rows, first from the accumulator share, then from the reserve. -/
def State.fillSlot (s : State) (x : Cx) (k rows : Nat) (spq : Bool) (vals : List (Nat × List Word)) : State :=
  let a := min rows (s.freeAcc x.grp)
  (s.clean (parkedAt x.g.id k)).modGang x.g.id fun g => { g with park := modAt (fun _ => some ⟨spq, vals, a, rows - a⟩) k g.park }

/-- Empty a slot. -/
def State.emptySlot (s : State) (gang k : Nat) : State :=
  (s.clean (parkedAt gang k)).modGang gang fun g => { g with park := modAt (fun _ => none) k g.park }

/-- The faults of a word that fills a slot: parted, slot full, too few rows (R129, R131). -/
def fillCauses (s : State) (k rows : Nat) (x : Cx) (_ : List (List Word)) : List (Nat × Word) :=
  partedCause x ++ (if (x.g.slot k).isSome then [(0x0C, x.mask)] else []) ++
    (if s.freeAcc x.grp + s.freeRsv x.grp < rows then [(0x0D, x.mask)] else [])

/-- The faults of a word that empties a slot: parted, empty, or filled by the other kind of word (R129). -/
def emptyCauses (k : Nat) (spq : Bool) (x : Cx) (_ : List (List Word)) : List (Nat × Word) :=
  partedCause x ++ (match x.g.slot k with
    | some p => if p.spq == spq then [] else [(0x0C, x.mask)]
    | none => [(0x0C, x.mask)])

/-- MOM = 1 is reserved in a launch without moments (R128, R142). -/
def momLegal (s : State) (m : BitVec 1) : Bool :=
  m == 0#1 || (match s.stream? with | some x => x.grp.mom | none => false)

/-- The register a PARK names, as a source. -/
def parkSrc (o : OpPark) : Src := if o.m = 1#1 then .mom o.r.toNat else .s7 (o.r.setWidth 7)

/-- PARK (R129): the register of every live lane. [DEDUCED: log entry 42] -/
def execPark (o : OpPark) (s : State) : Host.Outcome State Fault Refusal :=
  let W : Shape := { st := o.s.toNat, srcs := [parkSrc o], dst := .none, lat := 0, legal := momLegal s o.m
                     wide := true }
  laneGate s W (fillCauses s o.l.toNat 1) Cx.enOf (fun _ _ _ => { val := 0 }) fun x vals outs dead =>
    (finishLane s W false x vals outs dead).fillSlot x o.l.toNat 1 false
      (x.g.liveLanes.map fun L => (L, [val vals L 0]))

/-- The bounds of the return of UNPARK and SPQ.in: the spec gives none; no earlier than the next beat. [DEDUCED: log entry 42] -/
def parkBounds : Nat × Nat := (1, 64)

/-- The parked value of a lane. -/
def ParkSlot.valueAt (p : ParkSlot) (L : Nat) : Word :=
  match p.vals.find? (·.1 == L) with
  | some e => e.2.headD 0
  | none => 0

/-- Lanes whose value in a slot has an uncorrectable error (R381). -/
def State.parkedHurt (s : State) (gang k : Nat) (lanes : List Nat) : List Nat :=
  if s.bad.isEmpty then []
  else lanes.filter fun L => s.bad.any fun d => !d.fixable && d.loc == .parked gang k L

/-- UNPARK (R129): the slot's values to the register in each active lane. [DEDUCED: log entry 42] -/
def execUnpark (o : OpPark) (s : State) : Host.Outcome State Fault Refusal :=
  let W : Shape := { st := o.s.toNat, srcs := []
                     dst := if o.m = 1#1 then .mom o.r.toNat else .d5 o.r.toNat
                     lat := 0, sb := some parkBounds, legal := momLegal s o.m }
  laneGate s W (emptyCauses o.l.toNat false) Cx.enOf (fun x _ L =>
      { val := match x.g.slot o.l.toNat with | some p => p.valueAt L | none => 0 })
    fun x vals outs dead =>
      let s := s.repairWhere x (parkedAt x.g.id o.l.toNat)
      (finishLane s W false x vals outs (dead ++ s.parkedHurt x.g.id o.l.toNat x.actives)).emptySlot x.g.id o.l.toNat

/-- Does a queue entry of the stream wait for a scoreboarded result? -/
def Cx.queuePending (x : Cx) : Bool :=
  x.ss.any fun i => match x.g.slice? i with
    | some sl => sl.qT.any (·.pend.isSome)
    | none => false

/-- The queue entries of a lane as sources (R50). -/
def queueSrcs : List Src := (rangeFrom 16 16).map fun n => .s7 (BitVec.ofNat 7 n)

/-- A queue entry that SPQ.out copies stands below its producer's latency under the stall check (R60). [DEDUCED: log entry 93] -/
def queueUnderrun (x : Cx) : List (Nat × Word) :=
  if x.ss.any fun i => match x.g.slice? i with
    | some sl => sl.stallchk.getLsbD 0 && queueSrcs.any sl.underrun
    | none => false
  then [(0x03, x.mask)] else []

/-- The places of the queues of some lanes. -/
def queuesOf (gang : Nat) (lanes : List Nat) : Storage → Bool
  | .queue g L _ => g == gang && lanes.contains L
  | _ => false

/-- SPQ.out (R129): all 16 entries of every live lane; an entry whose result is not there yet is copied as poison
(R60, R61). A lane with a damaged entry dies (R381). Poison among the entries is copied, not read as an operand. [DEDUCED: log entry 93] -/
def execSpqOut (o : OpSpq) (s : State) : Host.Outcome State Fault Refusal :=
  let W : Shape := { st := o.s.toNat, srcs := [], dst := .none, lat := 0 }
  withStream s fun x0 =>
    let rows := x0.g.slices.length
    if x0.queuePending then .next (hold s x0)
    else laneGate s W (fun x v => queueUnderrun x ++ fillCauses s o.l.toNat rows x v) Cx.enOf
      (fun _ _ _ => { val := 0 }) fun x vals outs dead =>
        let s1 := s.repairWhere x (queuesOf x.g.id x.g.liveLanes)
        let hurt := if s1.bad.isEmpty then [] else x.g.liveLanes.filter fun L => queueSrcs.any (laneDamaged s1 x.g.id L)
        killLanes ((finishLane s1 W false x vals outs dead).fillSlot x o.l.toNat rows true
          (x.g.liveLanes.map fun L => (L, srcVals s.beat x.g queueSrcs L))) x.g.id hurt

/-- SPQ.in (R129): the slot's copy replaces the queue of every live lane, whatever the guard; readers wait
for its return, which brings nothing more. [DEDUCED: log entry 42] -/
def execSpqIn (o : OpSpq) (s : State) : Host.Outcome State Fault Refusal :=
  let W : Shape := { st := o.s.toNat, srcs := [], dst := .none, lat := 0, sb := some parkBounds }
  withStream s fun x0 =>
    if x0.queuePending then .next (hold s x0)
    else laneGate s W (emptyCauses o.l.toNat true) Cx.enOf (fun _ _ _ => { val := 0 })
      fun x vals outs dead =>
        let qs := match x.g.slot o.l.toNat with | some p => p.vals | none => []
        let s := s.repairWhere x (parkedAt x.g.id o.l.toNat)
        let hurt := s.parkedHurt x.g.id o.l.toNat x.g.liveLanes
        let s0 := finishLane s W false x vals outs dead
        let id := match s0.ops.getLast? with | some o => o.id | none => 0
        let put := fun (i : Nat) (sl : Slice) =>
          { sl.mapLanes (fun j l => if l.dead then l else
              match qs.find? (·.1 == 4 * i + j) with
              | some e => { l with q := if hurt.contains (4 * i + j) then List.replicate 16 poison else e.2 }
              | none => l) with
            qT := sl.qT.map fun _ => ⟨sl.clock, 0, 0, some id⟩ }
        let s1 := (s0.modOp id fun op => { op with vals := [] }).modGang
          x.g.id fun g => { g with slices := imap (fun i sl => if x.ss.contains i then put i sl else sl) 0 g.slices }
        killLanes ((s1.clean (queuesOf x.g.id x.g.liveLanes)).emptySlot x.g.id o.l.toNat) x.g.id hurt

/-! ## Control registers (R134 to R137) -/

/-- IDS (R136). -/
def Group.ids (G : Group) : Word :=
  BitVec.ofNat 64 (G.teamIdx * 2 ^ 32 + G.core * 2 ^ 16 + G.idx * 2 ^ 8 + G.part)

/-- DEADMASK (R40): bit L for a dead lane. -/
def Gang.deadMask (g : Gang) : Word :=
  maskOf ((rangeFrom 0 (4 * g.slices.length)).filter fun L => (g.lane? L).any (·.dead))

/-- SPILLFREE (R134). -/
def State.spillFree (s : State) (G : Group) : Word :=
  BitVec.ofNat 64 (s.freeRsv G % 65536 * 65536 + s.freeAcc G % 65536)

/-- CLKTEST as read (R219). -/
def State.clktest (s : State) (p : Nat) : Word :=
  (if (s.part p).clkrej then 0x100000000#64 else 0) ||| s.dclk.setWidth 64

/-- Is a control register number readable in a partition (R134)? -/
def csrReadable (p : Partition) (n : Nat) : Bool :=
  decide (n ≤ 14) || (n == 15 && p.debug) || (n == 16 && p.test) || (decide (24 ≤ n) && decide (n ≤ 31))

/-- The value of a control register as a slice of the stream reads it. -/
def csrValue (s : State) (x : Cx) (sl : Slice) (n : Nat) : Word :=
  match n with
  | 0 => sl.fmode
  | 1 => sl.fflags
  | 2 => sl.mcov
  | 3 => sl.mrho
  | 4 => sl.status
  | 5 => sl.stallchk
  | 6 => x.g.deadMask
  | 7 => s.spillFree x.grp
  | 8 => x.g.pts.setWidth 64
  | 9 => BitVec.ofNat 64 s.ptp
  | 10 => x.grp.ids
  | 11 => sl.trappc
  | 12 => sl.trapcause
  | 13 => sl.trapinfo
  | 14 => x.grp.trapvec
  | 15 => x.grp.errinj
  | 16 => s.clktest x.grp.part
  | _ => at' 0 (s.part x.grp.part).retstat (n - 24)

/-- A flag-setting word of the stream is still to set its flags (R98). -/
def Cx.flagsPending (x : Cx) (s : State) : Bool :=
  s.ops.any fun o => o.flags && o.gang == x.g.id && o.slices.any (x.ss.contains ·)

/-- CSRR (R132, R134). -/
def execCsrr (o : OpCsrr) (s : State) : Host.Outcome State Fault Refusal :=
  withStream s fun x0 =>
    let W : Shape := { st := o.s.toNat, srcs := [], dst := .d5 o.d.toNat, lat := 1
                       legal := csrReadable (s.part x0.grp.part) o.c.toNat }
    if W.legal && o.c == 1#6 && x0.flagsPending s then .next (hold s x0)
    else runLane s W noCauses fun x _ L =>
      { val := match x.sliceOf L with | some sl => csrValue s x sl o.c.toNat | none => 0 }

/-- Write a register held per slice. -/
def Slice.writeCsr (sl : Slice) (n : Nat) (v : Word) : Slice :=
  match n with
  | 0 => { sl with fmode := v &&& maskFMODE }
  | 1 => { sl with fflags := v &&& maskFFLAGS }
  | 2 => { sl with mcov := v &&& maskMCOV }
  | 3 => { sl with mrho := mrhoOf v }
  | 4 => { sl with status := v &&& maskSTATUS }
  | 5 => { sl with stallchk := v &&& maskSTALLCHK }
  | 11 => { sl with trappc := v &&& maskADDR }
  | 12 => { sl with trapcause := v &&& maskTRAPCAUSE }
  | _ => sl

/-- Is a control register number written by the general CSRW? -/
def csrWritable (n : Nat) : Bool := decide (n ≤ 5) || n == 11 || n == 12 || n == 14

/-- CSRW (R132): a slice-held register from the lowest active lane of each slice, TRAPVEC from the lowest
active lane of the stream. -/
def execCsrw (o : OpCsrw) (s : State) : Host.Outcome State Fault Refusal :=
  let n := o.c.toNat
  let W : Shape := { st := o.s.toNat, srcs := [.s7 o.x], dst := .none, lat := 0, legal := csrWritable n }
  withStream s fun x0 =>
    if W.legal && n == 1 && x0.flagsPending s then .next (hold s x0)
    else laneGate s W noCauses Cx.enOf (fun _ _ _ => { val := 0 }) fun x vals outs dead =>
      let s1 := finishLane s W false x vals outs dead
      if n = 14 then
        match x.actives with
        | [] => s1
        | L :: _ => s1.modGroup x.grp.id fun G => { G with trapvec := val vals L 0 &&& maskADDR }
      else s1.modGang x.g.id fun g =>
        { g with slices := imap (fun i sl => match x.g.slice? i with
            | some old => if x.ss.contains i then (match old.activePos with
                | [] => sl
                | j :: _ => sl.writeCsr n (val vals (4 * i + j) 0)) else sl
            | none => sl) 0 g.slices }

/-! ## Traps and clocks (R132, R138) -/

/-- TRAP (R132, R138): cause 0x0E with its code, and TRAPPC at the word after. -/
def execTrap (o : OpCode) (s : State) : Host.Outcome State Fault Refusal :=
  streamWord s true [] fun s x => .next (takeTrap s x 0x0E o.c.toNat false x.mask (some (x.pc + 4)))

/-- BKPT (R132, R435): a breakpoint trap; where debug halt is enabled, every stream of the group stops in the beat after,
this one past the word. [DEDUCED: log entry 46] -/
def execBkpt (o : OpCode) (s : State) : Host.Outcome State Fault Refusal :=
  streamWord s true [] fun s x =>
    if s.dbgctl.getLsbD x.grp.part && (s.part x.grp.part).debug then
      .next ((s.setGang (x.next s 0)).modGroup x.grp.id fun G => { G with halting := true })
    else .next (takeTrap s x 0x0E o.c.toNat true x.mask (some (x.pc + 4)))

/-- ERET (R138): illegal in a slice whose H is 0. -/
def execEret (o : OpSt) (s : State) : Host.Outcome State Fault Refusal :=
  withStream s fun x0 =>
    let inH := x0.ss.all fun i => match x0.g.slice? i with | some sl => sl.inHandler | none => false
    streamWord s inH [] fun s x =>
      let s1 := trapReturn s x o.s.toNat
      .next (s1.modGang x.g.id Gang.partTest)

/-- A CLK word (R132). -/
def clkWord (s : State) (o : OpClk) (v : Cx → Word) : Host.Outcome State Fault Refusal :=
  runLane s { st := o.s.toNat, srcs := [], dst := .d5 o.d.toNat, lat := 1 } noCauses fun x _ _ => { val := v x }

/-- CLK.cyc: cycles since core reset (R132). -/
def execClkCyc (o : OpClk) (s : State) := clkWord s o fun _ => BitVec.ofNat 64 s.cycle
/-- CLK.pts (R132). -/
def execClkPts (o : OpClk) (s : State) := clkWord s o fun x => x.g.pts.setWidth 64
/-- CLK.ptp (R132, R421). -/
def execClkPtp (o : OpClk) (s : State) := clkWord s o fun _ => BitVec.ofNat 64 s.ptp

/-- DEVR (R132, R352, R353). -/
def execDevr (o : OpDevr) (s : State) : Host.Outcome State Fault Refusal :=
  let r := o.r.toNat
  runLane s { st := o.s.toNat, srcs := [], dst := .d5 o.d.toNat, lat := 1
              legal := decide (r ≤ 3) || (decide (16 ≤ r) && decide (r ≤ 159)) } noCauses fun _ _ _ =>
    { val := if r ≤ 3 then (s.harvestOf r).setWidth 64 else s.lpt (r - 16) }

/-- GSET (R133): a uniform register from the lowest active lane. -/
def execGset (o : OpGset) (s : State) : Host.Outcome State Fault Refusal :=
  let W : Shape := { st := o.s.toNat, srcs := [.s7 o.x], dst := .none, lat := 0 }
  laneGate s W (fun x _ => if x.g.unified then [] else [(0x05, x.mask)]) Cx.enOf (fun _ _ _ => { val := 0 })
    fun x vals outs dead =>
      let s1 := finishLane s W false x vals outs dead
      match x.actives.filter (!dead.contains ·) with
      | [] => s1
      | L :: _ => s1.modGang x.g.id fun g => { g with g := modAt (fun _ => val vals L 0) o.g.toNat g.g }

end Sys2Proof.Machine
end

