-- ==== Sys2Proof/Machine/Access.lean ====
section
/-!
DEFINITION. Lane accesses to global memory: their checks (R179, R227, R194, R234, R229), L1 copies (R188,
R201, R404, R407, R422), the store merge buffer (R214), and what waits for acknowledgements (R216, R224,
R242).
-/

namespace Sys2Proof.Machine

/-! ## Checks (R229) -/

/-- What a lane access asks for: load, store, decide-once, ATM or RED, alignment in bytes, and the scope
a word names. -/
structure AccRule where
  rd    : Bool := false
  wr    : Bool := false
  doc   : Bool := false
  atom  : Bool := false
  align : Nat := 1
  scope : Option Nat := none
  deriving DecidableEq, Repr

/-- What the checks of one lane come to. -/
inductive Checked where
  | ok (dev va : Nat)
  | miss (va : Nat)
  | bad (cause : Nat)
  deriving DecidableEq, Repr

/-- Permission, mode and scope against a leaf (R194, R234): scope 4 for host memory and for a page whose home is
another device, `own` being this device's number. -/
def leafCause (own : Nat) (R : AccRule) (l : Leaf) : Option Nat :=
  if (R.rd && !l.rd) || (R.wr && !l.w) then some 0x11
  else if (R.doc != (l.mode == 3)) || (R.wr && l.mode == 2) || (R.atom && l.mode == 4) then some 0x12
  else match R.scope with
    | some k => if k != 4 && (l.host || (l.rdev != 0 && l.rdev != own)) then some 0x1A else none
    | none => none

/-- The checks of one lane in the order of R229, against the core's attribute TLB (R192). A page whose leaf is not
valid is not cached, and its access goes on to the home. Until the device has joined its domain, an access to
another device is held before its page is known (R419). -/
def accCheck (s : State) (G : Group) (R : AccRule) (ea : Word) : Checked :=
  match gaddr s ea with
  | none => .bad 0x10
  | some (dev, va) =>
    if va % R.align ≠ 0 then .bad 0x15
    else if dev ≠ 0 ∧ !s.joined then .ok dev va
    else match s.tlb? G.core G.part G.asn (farKey dev va) with
      | some l => (match leafCause s.devnum R l with | some c => .bad c | none => .ok dev va)
      | none =>
        if dev ≠ 0 ∨ s.draining G.part G.asn va ∨ (s.walkHold G.part G.asn va).isSome then .miss (farKey dev va)
        else match walk s G.part G.asn va with
          | .leaf _ => .miss (farKey dev va)
          | _ => .ok dev va

/-- A lane access that passed its checks. -/
structure LaneAcc where
  lane : Nat
  dev  : Nat
  va   : Nat
  deriving DecidableEq, Repr

/-- The accesses of the active lanes: lane, rule and address. -/
abbrev Accs := Cx → List (List Word) → List (Nat × AccRule × Word)

/-- Faults of the lanes' checks. -/
def accCauses (s : State) (A : Accs) (x : Cx) (vals : List (List Word)) : List (Nat × Word) :=
  (A x vals).filterMap fun a => match accCheck s x.grp a.2.1 a.2.2 with
    | .bad c => some (c, maskOf [a.1])
    | _ => none

/-- The accesses that passed. -/
def accOk (s : State) (A : Accs) (x : Cx) (vals : List (List Word)) (dead : List Nat) : List LaneAcc :=
  (A x vals).filterMap fun a => match accCheck s x.grp a.2.1 a.2.2 with
    | .ok dev va => if dead.contains a.1 then none else some ⟨a.1, dev, va⟩
    | _ => none

/-- An LDO of the stream has not returned, so that its later memory and engine words are held (R221). [DEDUCED: log entry 25] -/
def Cx.acqHeld (x : Cx) (s : State) : Bool :=
  s.ops.any fun o => o.acq.isSome && o.gang == x.g.id && o.slices.any (x.ss.contains ·)

/-- A word waits for the device to join its domain, for at most 1 ms (R419). -/
def farHold (s : State) (x : Cx) (doc : Bool) (far : List Nat) : State :=
  let op := blockOp s x doc none far
  { s with fresh := s.fresh + 1, ops := s.ops ++ [op] }.postNs (s.ptp + 1000000) (.fabricTimeout op.id)

/-- What holds a memory word at issue: an LDO before it (R221), a TLB miss, whose walk is set going
(R192), or a device that has not joined its domain, for at most 1 ms (R419). -/
def accWait (s : State) (doc : Bool) (A : Accs) (x : Cx) (vals : List (List Word)) : Option State :=
  if x.acqHeld s then some s
  else
    let as := A x vals
    let misses := as.filterMap fun a => match accCheck s x.grp a.2.1 a.2.2 with
      | .miss va => some (Instr.tlbFill x.grp.core x.grp.part x.grp.asn va)
      | _ => none
    let far := as.filterMap fun a => match accCheck s x.grp a.2.1 a.2.2 with
      | .ok dev _ => if dev = 0 then none else some a.1
      | _ => none
    if !misses.isEmpty then some (misses.foldl State.postOnce s)
    else if !far.isEmpty && !s.joined && (accCauses s A x vals).isEmpty then some (farHold s x doc far)
    else none

/-- Run a memory word: its checks, then `k` with the accesses of the lanes that act. -/
def memGate (s : State) (W : Shape) (doc : Bool) (A : Accs) (pre : Cx → List (List Word) → List (Nat × Word))
    (k : Cx → List (List Word) → List Nat → List LaneAcc → State) : Host.Outcome State Fault Refusal :=
  laneGateW s W (accWait s doc A) (fun x v => pre x v ++ accCauses s A x v) Cx.enOf (fun _ _ _ => { val := 0 })
    fun x vals _ dead => k x vals dead (accOk s A x vals dead)

/-! ## L1 copies -/

/-- The tag of a line in L1: its virtual address with its device. -/
def l1Key (dev va : Nat) : Nat := dev * 2 ^ 48 + va / 128 * 128

def State.l1? (s : State) (core part asn key : Nat) : Option L1Line :=
  s.l1.find? fun c => c.core == core && c.part == part && c.asn == asn && c.va == key

/-- May a load at PTS use the copy (R201, R404, R407, R422)? -/
def L1Line.usable (c : L1Line) (s : State) (pts : TS) (sysAcq : Nat) : Bool :=
  decide (s.cycle < c.born + 8192) && (match c.lease with
    | .lt _ rts => TS.le pts rts && TS.le (s.floor c.core) rts
    | .remote lend => precedes32 s.ptp8 lend
    | .host lend granted => decide (s.ptp < lend) && decide (sysAcq ≤ granted)
    | .decided _ _ => false)

/-- The wts of a copy under a logical lease. -/
def L1Line.wts? (c : L1Line) : Option TS := match c.lease with | .lt w _ => some w | _ => none

/-- Ways of a set that are not disabled; one always stays (R385). -/
def State.l1Ways (s : State) (core set : Nat) : Nat :=
  max 1 (8 - (s.offL1.filter fun e => e.1 == core && e.2.1 == set).length)

/-- Place a copy in a free way of its set of L1, or in that of a line which goes (R188): the least recently used one
without keep goes first (R232). A copy that renews one which was to be kept is to be kept. [DEDUCED: log entry 14] -/
def State.fillL1 (s : State) (c : L1Line) : State :=
  let set := fun (va : Nat) => va / 128 % 256
  let same := fun (d : L1Line) => d.core == c.core && d.part == c.part && d.asn == c.asn && d.va == c.va
  let c := { c with keep := c.keep || s.l1.any fun d => same d && d.keep }
  let rest := s.l1.filter (!same ·)
  let mine := rest.filter fun d => d.core == c.core && set d.va == set c.va
  let oldest := fun (ds : List L1Line) => ds.foldl (fun (b : Option L1Line) d => match b with
    | none => some d
    | some y => if d.lru < y.lru then some d else some y) none
  let usable := (rangeFrom 0 8).filter fun w => !s.offL1.contains (c.core, set c.va, w)
  let l1 := match usable.find? fun w => !mine.any (·.way == w) with
    | some w => { c with way := w } :: rest
    | none => match (oldest (mine.filter (!·.keep))).or (oldest mine) with
      | some v => { c with way := v.way } :: rest.erase v
      | none => c :: rest
  { s with l1 := l1, stamp := s.stamp + 1 }

/-- A hit promotes its line, and a keep hit keeps it (R188, R232). -/
def State.hitL1 (s : State) (c : L1Line) (keep : Bool) : State :=
  { s with
    l1 := s.l1.map fun d => if d.core == c.core && d.part == c.part && d.asn == c.asn && d.va == c.va then
      { d with lru := s.stamp, keep := d.keep || keep } else d
    stamp := s.stamp + 1 }

/-- Lay bytes over a core's own copy of a line (R214). -/
def State.overL1 (s : State) (core part asn key : Nat) (mask : BitVec 128) (data : List Byte) : State :=
  { s with l1 := s.l1.map fun d => if d.core == core && d.part == part && d.asn == asn && d.va == key then
      { d with data := overlayBytes mask data d.data } else d }

/-! ## What waits for acknowledgements -/

/-- A record is acknowledged, perhaps with a returned timestamp: what waited for nothing else goes on. -/
def State.settle (s : State) (id : Nat) (t : Option TS) : State :=
  let f := fun (w : Wsig) => if w.waits.contains id then
      { w with waits := w.waits.filter (· != id), t := match t with | some t => smax w.t t | none => w.t }
    else w
  let go := s.wsigs.filter fun w => w.waits.contains id && (f w).waits.isEmpty
  go.foldl (fun s w => s.post (.wsigSignal w.id)) { s with wsigs := s.wsigs.map f }

/-- Add what waits. -/
def State.addWsig (s : State) (w : Wsig) : State :=
  let s := { s with fresh := s.fresh + 1, wsigs := s.wsigs ++ [{ w with id := s.fresh }] }
  if w.waits.isEmpty then s.post (.wsigSignal (s.fresh - 1)) else s

/-! ## The store merge buffer (R214) -/

/-- Is the next flush of one of the gangs' groups to be written poisoned (R387, target 6)? -/
def State.inj6For (s : State) (gangs : List Nat) : Option Nat :=
  (s.gangs.find? fun g => gangs.contains g.id &&
    (match s.group? g.group with | some G => G.inj6 | none => false)).map (·.group)

/-- Flush an entry: its write goes to its home, and its bytes to the core's own copy. `more` are gangs
whose PTS the acknowledgement raises beside those that stored. -/
def State.flushEntry (s : State) (e : SmbEntry) (more : List Nat) : State :=
  let gangs := e.gangs ++ more.filter (!e.gangs.contains ·)
  let s := { s with smb := s.smb.filter (·.id != e.id) }
  let inj := s.inj6For e.gangs
  let s := match inj with | some grp => s.modGroup grp fun G => { G with inj6 := false } | none => s
  let id := s.fresh
  ((s.overL1 e.core e.part e.asn (l1Key e.dev e.va) e.mask e.data).send
    (.write e.mask e.data gangs e.ef inj.isSome) e.core (gangs.headD 0) none e.part e.asn e.va e.dev e.t).modReq id
    fun q => { q with ent := e.id }

/-- Flush the entries of a core that satisfy a test, oldest first. -/
def State.flushWhere (s : State) (core : Nat) (p : SmbEntry → Bool) (more : List Nat) : State :=
  (s.smb.filter fun e => e.core == core && p e).foldl (fun s e => s.flushEntry e more) s

/-- Flush the entry of one line. [DEDUCED: log entry 16] -/
def State.flushLine (s : State) (core part asn dev va : Nat) : State :=
  s.flushWhere core (fun e => e.part == part && e.asn == asn && e.dev == dev && e.va == va / 128 * 128) []

/-- A store merges into the entry of its line or takes a new one; a full buffer flushes its oldest
entry. Bytes of a flag line that the core owns follow. -/
def State.smbPut (s : State) (core part asn dev va : Nat) (mask : BitVec 128) (data : List Byte)
    (t : TS) (gang : Nat) (ef : Bool) : State :=
  let line := fun (e : SmbEntry) => e.core == core && e.part == part && e.asn == asn && e.dev == dev && e.va == va
  let s := { s with owned := s.owned.map fun (o : Owned) =>
    if o.core == core && o.part == part && o.asn == asn && o.va == va && o.dev == dev then
      { o with data := overlayBytes (mask &&& o.mask) data o.data } else o }
  if s.smb.any line then
    { s with smb := s.smb.map fun e => if line e then
        { e with
          mask := e.mask ||| mask, data := overlayBytes mask data e.data, t := smax e.t t
          gangs := if e.gangs.contains gang then e.gangs else e.gangs ++ [gang], ef := e.ef || ef }
      else e }
  else
    let mine := s.smb.filter (·.core == core)
    let s := if mine.length < 64 then s else match mine.head? with
      | some e => s.flushEntry e []
      | none => s
    let id := s.fresh
    let e : SmbEntry := ⟨id, core, part, asn, va, dev, mask,
      overlayBytes mask data (List.replicate 128 0), t, [gang], s.cycle, ef⟩
    let s := { s with fresh := id + 1, smb := s.smb ++ [e] }
    s.postAt (s.cycle + 4096) (.smbFlushTimeout core id)

/-- The records of writes of a core, unacknowledged, that satisfy a test on their gangs and the number of the
buffer entry they flush. -/
def State.writesOut (s : State) (core : Nat) (p : List Nat → Nat → Bool) : List Nat :=
  s.reqs.filterMap fun q => match q.kind with
    | .write _ _ gangs _ _ => if q.core == core && p gangs q.ent then some q.id else none
    | .rep _ _ gs _ _ => if q.core == core && p gs q.ent then some q.id else none
    | _ => none

/-- Signals of a gang that are still to be written: those of WSIG words, and with `rel` the flag writes of its
releases too (R226, R242). [DEDUCED: log entry 16] -/
def State.signalsOut (s : State) (gang : Nat) (rel : Bool) : List Nat :=
  s.wsigs.filterMap fun w => if w.gang == gang && w.op.isNone && w.flag.isNone && (rel || !w.rel) then some w.id else none

/-- Terms of a gang on their way from a flush point (R224). [DEDUCED: log entry 17] -/
def State.redsOut (s : State) (gang : Nat) : List Nat :=
  s.reds.filterMap fun e => if e.gang == gang && e.drain.isSome then some e.id else none

/-- Flags that a core owns by releases of a gang (R216). -/
def State.flagsOut (s : State) (core gang : Nat) : List Nat :=
  s.owned.filterMap fun w => if w.core == core && w.gangs.contains gang then some w.id else none

/-- Owned flags are to be written now (R217). -/
def State.drainOwned (s : State) (flags : List Nat) : State :=
  flags.foldl (fun s i => s.postOnce (.lazyReleaseDrain i)) s

/-- Operations of a stream that are still to be performed: loads, atomics and decide-once words. -/
def Cx.opsOut (x : Cx) (s : State) : List Nat :=
  s.ops.filterMap fun o => if o.gang == x.g.id && o.slices.any (x.ss.contains ·) && o.waits != 0 &&
    !o.block then some o.id else none

end Sys2Proof.Machine
end

