-- ==== Sys2Proof/Machine/Memory.lean ====
section
/-!
DEFINITION. Words on global memory: loads and stores (R227 to R232), LDO and STO (R233, R216), ATM
(R235, R236), RED (R237 to R240), WSIG (R242), FENCE (R243, R224) and cache control (R253, R254).
-/

namespace Sys2Proof.Machine

/-! ## Addresses (R228) -/

/-- A lane source plus a signed offset in units of the access. -/
def addrB (a : Word) (off : Int) (size : Nat) : Word := a + BitVec.ofInt 64 (off * size)

/-- A base plus a shifted index. -/
def addrX (g x : Word) (sh : Nat) : Word := g + (x <<< sh)

/-- The same rule and one address per active lane. -/
def accAll (R : AccRule) (addr : Cx → List (List Word) → Nat → Word) : Accs :=
  fun x v => x.actives.map fun L => (L, R, addr x v L)

/-! ## Loads (R230, R232, R201) -/

/-- How a load reads: size, always at the home, whether it tests and fills L1, evict-first, keep, and for
an acquire its scope and whether it takes DCLK (R218, R221). -/
structure LoadMode where
  size : Nat
  home : Bool := false
  fill : Bool := true
  ef   : Bool := false
  keep : Bool := false
  acq  : Option Nat := none
  dclk : Bool := false

/-- POL of an attached HMOD (R67). -/
def Hints.pol (h : Hints) : Nat := match h.mods with | some m => m.p.toNat | .none => 0

/-- The bytes that a lane reads, as the results of its group's words see them (R391). -/
def State.putVal (s : State) (op grp L va : Nat) (bs : List Byte) : State :=
  let r := s.replayRead grp va bs
  r.1.modOp op fun o => { o with vals := o.vals ++ [(L, leWord r.2)] }

/-- Is a page one whose lines L1 does not hold: URM, or host memory behind a port without CXL.cache
(R398)? [DEDUCED: log entry 14] -/
def uncached (s : State) (l : Leaf) : Bool := l.mode == 1 || (l.host && decide (3 < s.cxl))

/-- Lines that a load must read at their homes: (device, line address, (lane, byte, size) …). -/
abbrev LineReads := List (Nat × Nat × List (Nat × Nat × Nat))

def addRead (dev va : Nat) (r : Nat × Nat × Nat) : LineReads → LineReads
  | [] => [(dev, va, [r])]
  | (d, v, rs) :: rest => if d = dev ∧ v = va then (d, v, rs ++ [r]) :: rest else (d, v, rs) :: addRead dev va r rest

/-- Something of the core is still to change the line at its home, so that no copy of it serves a load (R226, R257). -/
def State.atomOnLine (s : State) (core part asn dev va : Nat) : Bool := s.barOn core part asn dev va != 0

/-- One lane of a load: from the core's buffers, from a usable L1 copy, or put down for its home. -/
def loadLane (m : LoadMode) (x : Cx) (op : Nat) (st : State × LineReads) (a : LaneAcc) : State × LineReads :=
  let (s, rs) := st
  let G := x.grp
  let line := a.va / 128 * 128
  let off := a.va % 128
  let seen := s.seenMask G.core G.part G.asn a.dev line
  let need := maskAt off m.size
  let bytes := fun (d : List Byte) => (s.seen G.core G.part G.asn a.dev line d |>.drop off).take m.size
  let away := (s, addRead a.dev line (a.lane, off, m.size) rs)
  if m.home then away
  else if need &&& ~~~seen = 0 then
    (s.putVal op G.id a.lane (farKey a.dev a.va) (bytes (List.replicate 128 0)), rs)
  else if !m.fill || s.atomOnLine G.core G.part G.asn a.dev line then away
  else match s.l1? G.core G.part G.asn (l1Key a.dev a.va), s.gang? x.g.id with
    | some c, some g =>
      let sysAcq := match x.sliceOf a.lane with | some sl => sl.sysAcq | none => 0
      if c.usable s g.pts sysAcq then
        let s := s.hitL1 c m.keep
        let s := match c.wts? with | some w => s.raisePts g.id w | none => s
        (s.putVal op G.id a.lane (farKey a.dev a.va) (bytes c.data), rs)
      else away
    | _, _ => away

/-- Send the reads that a load puts down for its homes; one that bypasses L1 renews no copy (R232). [DEDUCED: log entry 15] -/
def sendReads (s : State) (m : LoadMode) (x : Cx) (op : Nat) (rs : LineReads) : State :=
  rs.foldl (fun s r =>
    let G := x.grp
    let t := match s.gang? x.g.id with | some g => g.pts | none => 0
    let cold := match s.tlb? G.core G.part G.asn (farKey r.1 r.2.1) with
      | some l => uncached s l
      | none => false
    let cwts := if m.home && !m.fill then none else (s.l1? G.core G.part G.asn (l1Key r.1 r.2.1)).bind L1Line.wts?
    let buf := s.buffered G.core G.part G.asn r.1 r.2.1
    let mask := buf.foldl (fun (k : BitVec 128) b => k ||| b.1) 0
    let data := buf.foldl (fun d b => overlayBytes b.1 b.2 d) (List.replicate 128 0)
    s.send (.read r.2.2 cwts (m.fill && !cold) m.dclk m.ef m.keep mask data) G.core x.g.id (some op)
      G.part G.asn r.2.1 r.1 t) s

/-- The operation of a scoreboarded word that waits for `waits` answers. Lanes that die of its sources are logged
at its return, together with those that die at a home (R383). -/
def openOp (s : State) (x : Cx) (W : Shape) (waits : Nat) (dead : List Nat) : Op :=
  { newOp s x W (fun _ => { val := 0 }) dead 0 with vals := [], fl := [], waits := waits, block := false, dead := dead }

/-- An operation that waits for nothing returns a number of beats from now that the spec leaves open. -/
def State.returnSoon (s : State) (op : Nat) : State :=
  let r := s.choose 63
  r.2.postAt (4 * (s.beat + 1 + r.1)) (.resultReturn op)

/-- A scoreboarded word has issued with its operation. -/
def issueOp (s : State) (x : Cx) (W : Shape) (vals : List (List Word)) (dead : List Nat) (op : Op) : State :=
  let y := x.notePoison vals
  let s := { s with fresh := op.id + 1, ops := s.ops ++ [op] }
  let s := (s.repairReads x W).rewritten x.g.id x.ss [] (W.dest x.hints)
  s.setGang (y.commit s W false (fun _ => { val := 0 }) dead (some op.id))

/-- An acquire of system scope records its time: later loads of the stream reject older copies of host
lines (R407). [DEDUCED: log entry 25] -/
def Cx.noteSysAcq (x : Cx) (s : State) : State :=
  s.modGang x.g.id fun g =>
    { g with slices := imap (fun i (sl : Slice) => if x.ss.contains i then { sl with sysAcq := s.ptp } else sl) 0 g.slices }

/-- A global load (R230). -/
def loadWord (s : State) (W : Shape) (R : AccRule) (m : Cx → LoadMode)
    (addr : Cx → List (List Word) → Nat → Word) : Host.Outcome State Fault Refusal :=
  memGate s W false (accAll R addr) noCauses fun x vals dead accs =>
    let m := m x
    let op := { openOp s x W 0 dead with acq := m.acq }
    let s0 := issueOp s x W vals dead op
    let (s1, rs) := accs.foldl (loadLane m x op.id) (if m.acq = some 4 then x.noteSysAcq s0 else s0, [])
    let s2 := sendReads (s1.modOp op.id fun o => { o with waits := rs.length }) m x op.id rs
    (if rs.isEmpty then s2.returnSoon op.id else s2).markDead x.g.id dead

/-- The load that POL asks for (R232). -/
def polLoad (size : Nat) (x : Cx) : LoadMode :=
  match x.hints.pol with
  | 1 => { size := size, ef := true }
  | 2 => { size := size, keep := true }
  | 3 => { size := size, home := true, fill := false }
  | _ => { size := size }

/-- The shape of a load into D. -/
def shapeLoad (st : BitVec 2) (d : Nat) (srcs : List Src) (hm : OpHmod → Bool) : Shape where
  st := st.toNat
  srcs := srcs
  dst := .d5 d
  lat := 0
  sb := some (1, 1)
  hm := hm

/-- LDG (R227 to R230). -/
def execLdg (o : OpLB) (s : State) : Host.Outcome State Fault Refusal :=
  let n := 2 ^ o.z.toNat
  loadWord s (shapeLoad o.s o.d.toNat [.s7 o.a] hmPOL) { rd := true, align := n } (polLoad n)
    fun _ v L => addrB (val v L 0) o.o.toInt n

/-- LDGX (R228). -/
def execLdgx (o : OpLX) (s : State) : Host.Outcome State Fault Refusal :=
  let n := 2 ^ o.z.toNat
  loadWord s (shapeLoad o.s o.d.toNat [.g7 o.g .whole, .s7 o.x] hmPOL) { rd := true, align := n } (polLoad n)
    fun _ v L => addrX (val v L 0) (val v L 1) o.h.toNat

/-! ## Stores (R231, R232, R214) -/

/-- A word without a result has issued. -/
def issuePlain (s : State) (x : Cx) (W : Shape) (vals : List (List Word)) (dead : List Nat) : State :=
  finishLane s W false x vals (fun _ => { val := 0 }) dead

/-- A store of bytes by a lane, as its group's memory sees it: noted for its audit (R390), kept from
memory where a replay writes its output window (R391). -/
def storeLane (s : State) (x : Cx) (dev va : Nat) (bs : List Byte) (ef : Bool) : State :=
  let G := x.grp
  let line := va / 128 * 128
  let data := (lineAt (va % 128) bs ++ List.replicate 128 0).take 128
  let mask := maskAt (va % 128) bs.length
  let s := s.shadow G.id (farKey dev line) mask data
  let mask := s.replayMask G.id (farKey dev line) mask
  if mask = 0 then s
  else
    let t := match s.gang? x.g.id with | some g => g.pts | none => 0
    s.smbPut G.core G.part G.asn dev line mask data t x.g.id ef

/-- A global store: `put` performs the accesses once the word has issued. -/
def storeWord (s : State) (W : Shape) (R : AccRule) (addr : Cx → List (List Word) → Nat → Word)
    (put : State → Cx → List (List Word) → List LaneAcc → State) : Host.Outcome State Fault Refusal :=
  memGate s W false (accAll R addr) noCauses fun x vals dead accs =>
    put (issuePlain s x W vals dead) x vals accs

/-- Merge each lane's bytes in ascending lane order; bypass flushes the entries at once (R232). -/
def putStores (size : Nat) (v : List (List Word) → Nat → Word) (s : State) (x : Cx)
    (vals : List (List Word)) (accs : List LaneAcc) : State :=
  let pol := x.hints.pol
  let s := accs.foldl (fun s a => storeLane s x a.dev a.va (leBytes size (v vals a.lane).toNat) (pol == 1)) s
  if pol = 3 then accs.foldl (fun s a => s.flushLine x.grp.core x.grp.part x.grp.asn a.dev a.va) s else s

/-- The shape of a store. -/
def shapeStore (st : BitVec 2) (srcs : List Src) (hm : OpHmod → Bool) : Shape where
  st := st.toNat
  srcs := srcs
  dst := .none
  lat := 0
  hm := hm

/-- POL values of a store: keep is reserved (R232). -/
def hmStore (h : OpHmod) : Bool := hmPOL h && h.p != 2#3

/-- STG (R231). -/
def execStg (o : OpSB) (s : State) : Host.Outcome State Fault Refusal :=
  let n := 2 ^ o.z.toNat
  storeWord s (shapeStore o.s [.s7 o.a, .s7 o.v] hmStore) { wr := true, align := n }
    (fun _ v L => addrB (val v L 0) o.o.toInt n) (putStores n fun v L => val v L 1)

/-- STGX (R231). -/
def execStgx (o : OpSX) (s : State) : Host.Outcome State Fault Refusal :=
  let n := 2 ^ o.z.toNat
  storeWord s (shapeStore o.s [.g7 (o.g.setWidth 7) .whole, .s7 o.x, .s7 o.v] hmStore)
    { wr := true, align := n }
    (fun _ v L => addrX (val v L 0) (val v L 1) o.h.toNat) (putStores n fun v L => val v L 2)

/-! ## Acquire and release (R233, R216, R218, R221) -/

/-- HMOD with POL 011 only (R233). -/
def hmBypass (h : OpHmod) : Bool := hmPOL h && h.p == 3#3

/-- Does the team of a group span a pair? -/
def State.pairTeam (s : State) (G : Group) : Bool :=
  match s.winAt G.team G.core with
  | some w => w.partner.isSome
  | none => false

/-- LDO (R233): at device and system scope, and at team scope of a pair, it reads at the home. [DEDUCED: log entry 20] -/
def execLdo (o : OpLdo) (s : State) : Host.Outcome State Fault Refusal :=
  let n := if o.z = 0#1 then 4 else 8
  let k := o.k.toNat
  loadWord s { shapeLoad o.s o.d.toNat [.s7 o.a] hmBypass with legal := decide (k ≤ 4) }
    { rd := true, align := n, scope := some k }
    (fun x => { size := n, home := decide (3 ≤ k) || (k == 2 && s.pairTeam x.grp) || x.hints.pol == 3
                fill := x.hints.pol != 3, acq := some k, dclk := decide (3 ≤ k) })
    fun _ v L => addrB (val v L 0) o.o.toInt n

/-- Everything earlier that a release of the stream must see performed (R226): its own operations, the writes of its
core after the core's buffer has been drained, its gang's terms on their way from a flush point, signals and earlier
releases, lazy ones too. [DEDUCED: log entry 18] -/
def drainCore (s : State) (x : Cx) : State × List Nat :=
  let s := (s.settlePasses x.g.id x.ss).flushWhere x.grp.core (fun _ => true) [x.g.id]
  let flags := s.flagsOut x.grp.core x.g.id
  let s := s.drainOwned flags
  (s, x.opsOut s ++ s.writesOut x.grp.core (fun _ _ => true) ++ flags ++ s.redsOut x.g.id ++ s.signalsOut x.g.id true)

/-- A release whose flag write follows the acknowledgement of everything earlier (R226). [DEDUCED: log entry 18] -/
def eagerRelease (s : State) (x : Cx) (size : Nat) (sigs : List (Nat × Word × Word)) : State :=
  let d := drainCore s x
  let t := match d.1.gang? x.g.id with | some g => g.pts | none => 0
  d.1.addWsig ⟨0, x.g.id, x.grp.core, x.grp.part, x.grp.asn, false, size, sigs, t, d.2, none, none, true, none, []⟩

/-- One lane of a lazy STO (R216): the core owns the flag line, and keeps the value. The line is brought into L2 at
its home, which may have to recall another owned line first (R447). A flag whose writing has begun, or is awaited, is
joined no more. [DEDUCED: log entry 18] -/
def lazyLane (x : Cx) (l : Leaf) (s : State) (a : LaneAcc) (bs : List Byte) : State :=
  let G := x.grp
  let r := l.lineRef G.part G.asn a.va
  let mask := maskAt (a.va % 128) bs.length
  let data := (lineAt (a.va % 128) bs ++ List.replicate 128 0).take 128
  let t := match s.gang? x.g.id with | some g => g.pts | none => 0
  let mine := fun (o : Owned) => o.line == r.line && o.core == G.core &&
    !(s.wsigs.any fun w => w.flag == some o.id || w.waits.contains o.id) && !(s.reqs.any fun q => match q.kind with
      | .flag i _ _ _ => i == o.id
      | _ => false)
  if s.owned.any mine then
    { s with
      fresh := s.fresh + 1
      owned := s.owned.map fun o => if mine o then
        { o with mask := o.mask ||| mask, data := overlayBytes mask data o.data, t := smax o.t t
                 before := s.fresh
                 gangs := if o.gangs.contains x.g.id then o.gangs else o.gangs ++ [x.g.id] } else o }
  else
    let first := s.owned.find? (·.line == r.line)
    let id := s.fresh
    let o : Owned := ⟨id, r.line, G.core, [x.g.id], G.part, G.asn, a.va / 128 * 128, a.dev, mask, data, t, id⟩
    let s := { s with fresh := id + 1, owned := s.owned ++ [o] }
    let s := match first with
      | some p => s.postOnce (.lazyReleaseDrain p.id)
      | none => if a.dev ≠ 0 ∨ l.host then s
        else s.send .own G.core x.g.id none G.part G.asn (a.va / 128 * 128) 0 t
    s.postAt (s.cycle + 4096) (.lazyReleaseTimeout id)

/-- The owned flags of a core that a test picks are to be written now (R217). -/
def State.drainFlags (s : State) (p : Owned → Bool) : State :=
  s.drainOwned ((s.owned.filter p).map (·.id))

/-- STO (R233): a plain store within a core, a drain and a write at team scope of a pair, lazy at device
and system scope (R221), where bypass has the flag written at once (R232). [DEDUCED: log entry 18] -/
def execSto (o : OpSto) (s : State) : Host.Outcome State Fault Refusal :=
  let n := if o.z = 0#1 then 4 else 8
  let k := o.k.toNat
  storeWord s { shapeStore o.s [.s7 o.a, .s7 o.v] hmBypass with legal := decide (k ≤ 4) }
    { wr := true, align := n, scope := some k } (fun _ v L => addrB (val v L 0) o.o.toInt n)
    fun s x v accs =>
      let s := s.settlePasses x.g.id x.ss
      if k < 2 ∨ (k = 2 ∧ !s.pairTeam x.grp) then putStores n (fun v L => val v L 1) s x v accs
      else
        let leaf := fun (a : LaneAcc) => s.tlb? x.grp.core x.grp.part x.grp.asn (farKey a.dev a.va)
        let ea := fun (a : LaneAcc) => (BitVec.ofNat 64 (a.dev * 2 ^ 48 + a.va))
        let bytes := fun (a : LaneAcc) => leBytes n (val v a.lane 1).toNat
        let noted := accs.foldl (fun s a => s.shadow x.grp.id (farKey a.dev (a.va / 128 * 128)) (maskAt (a.va % 128) n)
          (lineAt (a.va % 128) (bytes a))) s
        let real := accs.filter fun a => noted.replayMask x.grp.id (farKey a.dev (a.va / 128 * 128)) (maskAt (a.va % 128) n) != 0
        if decide (3 ≤ k) && real.all fun a => (leaf a).isSome then
          let lazy := real.foldl (fun s a => match leaf a with
            | some l => lazyLane x l s a (bytes a)
            | none => s) noted
          if x.hints.pol = 3 then lazy.drainFlags fun o => o.core == x.grp.core && real.any fun a =>
            a.dev == o.dev && a.va / 128 * 128 == o.va && o.part == x.grp.part && o.asn == x.grp.asn
          else lazy
        else if real.isEmpty then noted
        else eagerRelease noted x n (real.map fun a => (a.lane, ea a, val v a.lane 1))

/-! ## Region commits and RED drains (R360, R240) -/

/-- Begin the drain of RED entries (R240): by epoch, then scheduler, then gang number; each entry's
request goes to its home at the timestamp of its gang's flush point. [DEDUCED: log entry 16] -/
def startDrain (s : State) (p : RedEntry → Bool) : State :=
  let mine := s.reds.filter fun e => e.drain.isNone && p e
  let key := fun (e : RedEntry) => (e.epoch * 4 + e.sched) * 16 + e.gidx
  let rec ins (e : RedEntry) : List RedEntry → List RedEntry
    | [] => [e]
    | f :: r => if key e < key f then e :: f :: r else f :: ins e r
  let sorted := mine.foldl (fun acc e => ins e acc) []
  sorted.foldl (fun s e =>
    let dv := match gaddr s e.addr with | some d => d | none => (0, 0)
    let s := s.flushLine e.core e.part e.asn dv.1 dv.2
    let s := { s with reds := s.reds.map fun (f : RedEntry) => if f.id = e.id then { f with drain := some s.fresh } else f }
    s.send (.red e.id) e.core e.gang none e.part e.asn dv.2 dv.1 e.ts) s

/-- The entries of a gang reach a flush point now: those not sealed take its PTS. -/
def sealNow (s : State) (gang : Nat) : State :=
  match s.gang? gang with
  | none => s
  | some g => { s with reds := s.reds.map fun e =>
      if e.gang = gang ∧ e.drain.isNone ∧ e.epoch = g.epoch then { e with ts := g.pts } else e }

/-- A commit word ends the region its gang is inside, and drains its entries (R360, R240). -/
def commitRegion (s : State) (gang : Nat) : State :=
  match s.gang? gang with
  | none => s
  | some g =>
    if g.region.isNone then s
    else startDrain ((sealNow s gang).modGang gang fun g => { g with region := none }) fun e => e.gang == gang

/-! ## Atomics (R235, R236) -/

/-- A rounding setting as a number, for a request that carries it. -/
def FMode.code (m : FMode) : Nat :=
  (match m.rm with | .rne => 0 | .rtz => 1 | .rup => 2 | .rdn => 3) + (if m.fluIn then 4 else 0) +
    (if m.fluOut then 8 else 0)

def FMode.ofCode (c : Nat) : FMode := ⟨rmOf (c % 4), c.testBit 2, c.testBit 3, false⟩

/-- SC of a word that works at device or system scope only (R235). -/
def wideScope (k : BitVec 3) : Bool := k == 3#3 || k == 4#3

/-- Is an S7 code an even register n0 to n14? -/
def evenN (c : BitVec 7) : Bool := decide (s7reg c < 16) && s7reg c % 2 == 0

/-- The code of the register after, with the same operand-cache code. -/
def nextReg (c : BitVec 7) : BitVec 7 := c + 1#7

/-- An ATM word (R236): one request per lane to the home, in ascending lane order; those of one line look it up
once (R273). [DEDUCED: log entry 16] -/
def atmWord (s : State) (o : OpAT) (f : Nat) (srcs : List Src) (hm : OpHmod → Bool) (legal : Bool) :
    Host.Outcome State Fault Refusal :=
  let n := if o.z = 0#1 then 4 else 8
  let W : Shape := { st := o.s.toNat, srcs := srcs, dst := .push, lat := 0, sb := some (1, 1), hdst := true
                     hm := hm, legal := wideScope o.k && legal }
  memGate s W false (accAll { wr := true, atom := true, align := n, scope := some o.k.toNat } fun _ v L => val v L 0)
    noCauses fun x vals dead accs =>
      let s0 := commitRegion (s.spoilAudit x.grp.id) x.g.id
      let op := { openOp s0 x W accs.length dead with flags := f == 10 }
      let x := match s0.streamOf ⟨x.g.id, if x.g.unified then none else x.ss.head?⟩ with
        | some y => y.without dead
        | none => x
      let s1 := issueOp s0 x W vals dead op
      let first := fun (a : LaneAcc) => accs.find? fun b => b.dev == a.dev && b.va / 128 == a.va / 128
      let s2 := accs.foldl (fun s a =>
        let s := s.flushLine x.grp.core x.grp.part x.grp.asn a.dev a.va
        let t := match s.gang? x.g.id with | some g => g.pts | none => 0
        let fm := match x.sliceOf a.lane with | some sl => sl.fm.code | none => 0
        s.send (.atom a.lane (a.va % 128) n f (val vals a.lane 1) (val vals a.lane 2) fm
          (first a != some a)) x.grp.core x.g.id
          (some op.id) x.grp.part x.grp.asn (a.va / 128 * 128) a.dev t) s1
      (if accs.isEmpty then s2.returnSoon op.id else s2).markDead x.g.id dead

/-- An ATM form with one operand. -/
def atm1 (s : State) (o : OpAT) (f : Nat) : Host.Outcome State Fault Refusal :=
  atmWord s o f [.s7 o.a, .s7 o.b] hmNone true

/-- ATM.ADD (R235). -/
def execAtmAdd (o : OpAT) (s : State) := atm1 s o 0
/-- ATM.AND (R235). -/
def execAtmAnd (o : OpAT) (s : State) := atm1 s o 1
/-- ATM.OR (R235). -/
def execAtmOr (o : OpAT) (s : State) := atm1 s o 2
/-- ATM.XOR (R235). -/
def execAtmXor (o : OpAT) (s : State) := atm1 s o 3
/-- ATM.MIN (R235). -/
def execAtmMin (o : OpAT) (s : State) := atm1 s o 4
/-- ATM.MAX (R235). -/
def execAtmMax (o : OpAT) (s : State) := atm1 s o 5
/-- ATM.MINZ (R235). -/
def execAtmMinz (o : OpAT) (s : State) := atm1 s o 6
/-- ATM.MAXZ (R235). -/
def execAtmMaxz (o : OpAT) (s : State) := atm1 s o 7
/-- ATM.XCHG (R235). -/
def execAtmXchg (o : OpAT) (s : State) := atm1 s o 8
/-- ATM.CAS (R235): B is an even register, the new value in the next. -/
def execAtmCas (o : OpAT) (s : State) : Host.Outcome State Fault Refusal :=
  atmWord s o 9 [.s7 o.a, .s7 o.b, .s7 (nextReg o.b)] hmNone (evenN o.b)
/-- ATM.FADD (R235, R255). -/
def execAtmFadd (o : OpAT) (s : State) : Host.Outcome State Fault Refusal :=
  atmWord s o 10 [.s7 o.a, .s7 o.b] hmRM true

/-! ## Buffered reductions (R237 to R239) -/

/-- FP rounding of RED: RNE, subnormals kept (R237). -/
def fmRed : FMode := ⟨.rne, false, false, false⟩

/-- Combine two 8-byte values under a RED function: F 0 to 5, and the element size in bytes. -/
def redCombine (f sz : Nat) (a b : Word) : Word :=
  let w := 8 * sz
  let op := fun (x y : Nat) => match f with
    | 0 => x + y
    | 1 => x + y
    | 2 => (fp32.addV fmRed (fp32.decode x) (fp32.decode y)).bits
    | 3 => (fp64.addV fmRed (fp64.decode x) (fp64.decode y)).bits
    | 4 => if sval w x ≤ sval w y then x else y
    | _ => if sval w x ≤ sval w y then y else x
  packElems w (List.zipWith op (elems w a) (elems w b))

/-- One lane of a RED word: into its entry, into a new one, or at once to the home (R238). Also the lanes that
found the buffer full, whose terms in one line look it up once (R273). [DEDUCED: log entry 19] -/
def redLane (x : Cx) (f sz : Nat) (st : State × List LaneAcc) (a : LaneAcc) (term : Word) : State × List LaneAcc :=
  let (s, ovf) := st
  let G := x.grp
  let epoch := match s.gang? x.g.id with | some g => g.epoch | none => 0
  let addr : Word := BitVec.ofNat 64 (a.dev * 2 ^ 48 + a.va)
  let mine := fun (e : RedEntry) => e.gang == x.g.id && e.addr == addr && e.epoch == epoch && e.drain.isNone
  if s.reds.any fun e => mine e && e.f == f && e.sz == sz then
    ({ s with reds := s.reds.map fun e => if mine e then { e with value := redCombine f sz e.value term } else e }, ovf)
  else
    let pts := match s.gang? x.g.id with | some g => g.pts | none => 0
    let e : RedEntry := ⟨s.fresh, G.core, x.g.sched, x.g.id, G.id, x.g.idx, f, sz, G.part, G.asn, addr, term,
      epoch, pts, none⟩
    let full := decide (256 ≤ (s.reds.filter fun r => r.core == G.core && r.sched == x.g.sched).length)
    let clash := s.reds.any mine
    let s := if clash then startDrain (sealNow s x.g.id) mine else s
    let s := { s with fresh := s.fresh + 1, reds := s.reds ++ [{ e with id := s.fresh }] }
    if full then
      let s := startDrain s fun r => r.id == s.fresh - 1
      (s.modReq (s.fresh - 1) fun q => { q with again := ovf.any fun b => b.dev == a.dev && b.va / 128 == a.va / 128 },
        ovf ++ [a])
    else (s, ovf)

/-- A RED word (R237, R238): REDOVF in the slices whose lanes found the buffer full. [DEDUCED: log entry 19] -/
def raddWord (s : State) (st : BitVec 2) (a b : BitVec 7) (k : BitVec 3) (f sz : Nat) :
    Host.Outcome State Fault Refusal :=
  let W : Shape := { st := st.toNat, srcs := [.s7 a, .s7 b], dst := .none, lat := 0, legal := wideScope k }
  memGate s W false (accAll { wr := true, atom := true, align := 8, scope := some k.toNat } fun _ v L => val v L 0)
    (fun x _ => if x.g.unified then [] else [(0x09, x.mask)]) fun x vals dead accs =>
      let s1 := commitRegion (issuePlain (s.spoilAudit x.grp.id) x W vals dead) x.g.id
      let r := accs.foldl (fun st ac => redLane x f sz st ac (val vals ac.lane 1)) (s1, [])
      if r.2.isEmpty then r.1
      else r.1.modGang x.g.id fun g => { g with slices := imap (fun i (sl : Slice) =>
        sl.stick sREDOVF (r.2.any (·.lane / 4 == i))) 0 g.slices }

/-- RADD.I32 (R237). -/
def execRaddI32 (o : OpRed) (s : State) := raddWord s o.s o.a o.b o.k 0 4
/-- RADD.I64 (R237). -/
def execRaddI64 (o : OpRed) (s : State) := raddWord s o.s o.a o.b o.k 1 8
/-- RADD.F32 (R237). -/
def execRaddF32 (o : OpRed) (s : State) := raddWord s o.s o.a o.b o.k 2 4
/-- RADD.F64 (R237). -/
def execRaddF64 (o : OpRed) (s : State) := raddWord s o.s o.a o.b o.k 3 8
/-- RMIN (R237): SZ 10 is two 32-bit halves. -/
def execRmin (o : OpAT) (s : State) := raddWord s o.s o.a o.b o.k 4 (if o.z = 0#1 then 4 else 8)
/-- RMAX (R237). -/
def execRmax (o : OpAT) (s : State) := raddWord s o.s o.a o.b o.k 5 (if o.z = 0#1 then 4 else 8)

/-- REDFL (R239): the gang's entries of the current epoch are sealed, and the epoch advances. -/
def execRedfl (o : OpSt) (s : State) : Host.Outcome State Fault Refusal :=
  let W : Shape := { st := o.s.toNat, srcs := [], dst := .none, lat := 0 }
  laneGateW s W (fun x _ => if x.acqHeld s then some s else none)
    (fun x _ => if x.g.unified then [] else [(0x09, x.mask)]) Cx.enOf (fun _ _ _ => { val := 0 })
    fun x vals _ dead =>
      let s1 := commitRegion (issuePlain (s.spoilAudit x.grp.id) x W vals dead) x.g.id
      let s2 := sealNow s1 x.g.id
      let e := match s2.gang? x.g.id with | some g => g.epoch | none => 0
      (s2.modGang x.g.id fun g => { g with epoch := g.epoch + 1 }).post (.redDrain x.grp.id (.epoch e))

/-! ## Write then signal (R242) -/

/-- A WSIG word: it waits for the stream's earlier stores, ATM words, terms of flush points, releases and signals (R226,
R257). What the core's buffer holds of the lines it signals in leaves it first. [DEDUCED: log entry 16] -/
def wsigWord (s : State) (o : OpAT) (add : Bool) : Host.Outcome State Fault Refusal :=
  let n := if o.z = 0#1 then 4 else 8
  let W : Shape := { st := o.s.toNat, srcs := [.s7 o.a, .s7 o.b], dst := .none, lat := 0, legal := wideScope o.k }
  memGate s W false (accAll { wr := true, align := n, scope := some o.k.toNat } fun _ v L => val v L 0)
    noCauses fun x vals dead accs =>
      let s1 := (commitRegion (issuePlain (s.spoilAudit x.grp.id) x W vals dead) x.g.id).settlePasses x.g.id x.ss
      let s1 := accs.foldl (fun s a => s.flushLine x.grp.core x.grp.part x.grp.asn a.dev a.va) s1
      let s2 := s1.flushWhere x.grp.core (fun e => e.gangs.contains x.g.id) []
      let flags := s2.flagsOut x.grp.core x.g.id
      let s3 := s2.drainOwned flags
      let t := match s3.gang? x.g.id with | some g => g.pts | none => 0
      let waits := x.opsOut s3 ++ s3.writesOut x.grp.core (fun gs _ => gs.contains x.g.id) ++ flags ++
        s3.redsOut x.g.id ++ s3.signalsOut x.g.id true
      s3.addWsig ⟨0, x.g.id, x.grp.core, x.grp.part, x.grp.asn, add, n,
        accs.map fun a => (a.lane, BitVec.ofNat 64 (a.dev * 2 ^ 48 + a.va), val vals a.lane 1), t, waits,
        none, none, false, none, []⟩

/-- WSIG.ST (R242). -/
def execWsigSt (o : OpAT) (s : State) := wsigWord s o false
/-- WSIG.ADD (R242). -/
def execWsigAdd (o : OpAT) (s : State) := wsigWord s o true

/-! ## Fences (R224, R243) -/

/-- A FENCE: `acq`, `rel` and `eng` say what its kind does; the stream goes on once the earlier set is
performed. [DEDUCED: log entry 17] -/
def fenceWord (s : State) (o : OpFence) (acq rel eng full : Bool) : Host.Outcome State Fault Refusal :=
  let k := o.k.toNat
  let W : Shape := { st := o.s.toNat, srcs := [], dst := .none, lat := 0
                     legal := decide (k ≤ 4) && !(eng && k == 0) }
  laneGate s W noCauses Cx.enOf (fun _ _ _ => { val := 0 }) fun x vals _ dead =>
    let wide := decide (3 ≤ k)
    let s := s.settlePasses x.g.id x.ss
    let s := if acq && k == 4 then x.noteSysAcq s else s
    let drains := eng || (rel && (wide || (k == 2 && s.pairTeam x.grp)))
    let s := if drains then s.flushWhere x.grp.core (fun _ => true) [x.g.id] else s
    let flags := if rel && wide then (s.owned.filter (·.core == x.grp.core)).map (·.id) else []
    let s := s.drainOwned flags
    let s := if full && wide then startDrain (sealNow s x.g.id) fun e => e.gang == x.g.id else s
    let writes := if drains then s.writesOut x.grp.core fun _ _ => true else []
    let reds := if eng then [] else s.redsOut x.g.id
    let sigs := s.signalsOut x.g.id rel
    let op := blockOp s x false (if acq && wide then some k else none) []
    let x := match s.streamOf ⟨x.g.id, if x.g.unified then none else x.ss.head?⟩ with
      | some y => y.without dead
      | none => x
    let s1 := issuePlain { s with fresh := op.id + 1, ops := s.ops ++ [op] } x W vals dead
    s1.addWsig ⟨0, x.g.id, x.grp.core, x.grp.part, x.grp.asn, false, 0, [], 0,
      x.opsOut s1 ++ writes ++ flags ++ reds ++ sigs, none, some op.id, false, none, []⟩

/-- FENCE.acq (R224). -/
def execFenceAcq (o : OpFence) (s : State) := fenceWord s o true false false false
/-- FENCE.rel (R224). -/
def execFenceRel (o : OpFence) (s : State) := fenceWord s o false true false false
/-- FENCE.full (R224). -/
def execFenceFull (o : OpFence) (s : State) := fenceWord s o true true false true
/-- FENCE.eng (R224, R243). -/
def execFenceEng (o : OpFence) (s : State) := fenceWord s o false false true false

/-! ## Cache control (R253, R254) -/

/-- A CACHE word on the lines its lanes name; `f` is told whether the lane is the first of its line. -/
def cacheWord (s : State) (st : BitVec 2) (srcs : List Src)
    (f : State → Cx → List (List Word) → LaneAcc → Leaf → Bool → State) : Host.Outcome State Fault Refusal :=
  let W : Shape := { st := st.toNat, srcs := srcs, dst := .none, lat := 0 }
  memGate s W false (accAll { rd := true } fun _ v L => val v L 0) noCauses fun x vals dead accs =>
    accs.foldl (fun s a => match s.tlb? x.grp.core x.grp.part x.grp.asn (farKey a.dev a.va) with
      | some l => f s x vals a l ((accs.find? fun b => b.dev == a.dev && b.va / 128 == a.va / 128) == some a)
      | none => s) (issuePlain s x W vals dead)

/-- PREF (R253): renews or fills the L1 copies of its lanes' lines without changing PTS; lanes of one line send
one request (R273). -/
def execPref (o : OpCa) (s : State) : Host.Outcome State Fault Refusal :=
  cacheWord s o.s [.s7 o.a] fun s x _ a l first =>
    let key := l1Key a.dev a.va
    let c := s.l1? x.grp.core x.grp.part x.grp.asn key
    let sysAcq := match x.sliceOf a.lane with | some sl => sl.sysAcq | none => 0
    let hit := match c with | some c => c.usable s x.g.pts sysAcq | none => false
    if hit || !first || uncached s l then s
    else s.send (.read [] (c.bind L1Line.wts?) true false false false 0 []) x.grp.core x.g.id none x.grp.part
      x.grp.asn (a.va / 128 * 128) a.dev x.g.pts

/-- EVF (R253): the line's L1 and L2 entries move to the LRU position. [DEDUCED: log entry 20] -/
def execEvf (o : OpCa) (s : State) : Host.Outcome State Fault Refusal :=
  cacheWord s o.s [.s7 o.a] fun s x _ a l _ =>
    let key := l1Key a.dev a.va
    let s := { s with l1 := s.l1.map fun c => if c.core == x.grp.core && c.part == x.grp.part &&
      c.asn == x.grp.asn && c.va == key then { c with lru := 0 } else c }
    if a.dev ≠ 0 ∨ l.host then s
    else s.modL2 (l.lineRef x.grp.part x.grp.asn a.va) fun y => { y with lru := 0 }

/-- LHINT (R253): sets the predictor level of the line's region. [DEDUCED: log entry 20] -/
def execLhint (o : OpCab) (s : State) : Host.Outcome State Fault Refusal :=
  cacheWord s o.s [.s7 o.a, .s7 o.b] fun s x v a l _ =>
    if a.dev ≠ 0 ∨ l.host then s
    else
      let r := l.lineRef x.grp.part x.grp.asn a.va
      (s.track r).modRegion r fun g => { g with level := min (val v a.lane 1).toNat 9 }

/-- The chiplet that homes a PIN's base, as far as the hub's tables say. -/
def pinChip (s : State) (G : Group) (base : Word) : Option Nat :=
  match gaddr s base with
  | some (0, va) => match walk s G.part G.asn va with
    | .leaf l => some (l.quad va)
    | _ => none
  | _ => none

/-- Hold the stream's next word until a request of the retention registers has been served (R254). -/
def retRequest (s : State) (x : Cx) (k : ReqKind) (va : Nat) : State :=
  let op := blockOp s x false none []
  let s := { s with fresh := op.id + 1, ops := s.ops ++ [op] }
  s.send k x.grp.core x.g.id (some op.id) x.grp.part x.grp.asn va 0 0

/-- The release, or the request, that stands before the word has been performed, and what is left is the word's. -/
def relDone (s : State) (x : Cx) : Option Op :=
  s.ops.find? fun o => o.rel && !o.block && o.gang == x.g.id && o.slices == x.ss

/-- PIN (R254), from the lowest active lane: misaligned 0x15, no free register 0x19, known at issue or once its home has
the request. It stands at issue until the register is set. [DEDUCED: log entry 20] -/
def execPin (o : OpCab) (s : State) : Host.Outcome State Fault Refusal :=
  let W : Shape := { st := o.s.toNat, srcs := [.s7 o.a, .s7 o.b], dst := .none, lat := 0 }
  let pre := fun (x : Cx) (v : List (List Word)) => match x.actives with
    | [] => []
    | L :: _ =>
      let base := val v L 0
      let k := fld (val v L 1) 0 3
      if (gaddr s base).isNone then [(0x10, maskOf [L])]
      else if fld base 0 7 ≠ 0 then [(0x15, maskOf [L])]
      else match pinChip s x.grp base with
        | some c => if 8 ≤ (s.rets.filter fun r => r.chip == c && !(r.part == x.grp.part && r.k == k)).length
            then [(0x19, maskOf [L])] else []
        | none => []
  let wait := fun (x : Cx) (v : List (List Word)) => match x.actives with
    | [] => none
    | L :: _ => match gaddr s (val v L 0), (relDone s x).isNone && (pre x v).isEmpty with
      | some (0, va), true =>
        let d := val v L 1
        some ((retRequest s x (.pin (fld d 0 3) (fld d 40 24) (fld d 16 24)) va).modOp s.fresh fun o => { o with vals := [(L, 0)] })
      | some (_ + 1, _), true => if s.joined then none else some (farHold s x false [L])
      | _, _ => none
  laneGateW s W wait pre Cx.enOf (fun _ _ _ => { val := 0 }) fun x vals _ dead =>
    issuePlain (match relDone s x with
      | some o => { s with ops := s.ops.filter (·.id != o.id) }
      | none => s) x W vals dead

/-- UNPIN (R254). -/
def execUnpin (o : OpCb) (s : State) : Host.Outcome State Fault Refusal :=
  let W : Shape := { st := o.s.toNat, srcs := [.s7 o.b], dst := .none, lat := 0 }
  laneGate s W noCauses Cx.enOf (fun _ _ _ => { val := 0 }) fun x vals _ dead =>
    let s1 := issuePlain s x W vals dead
    match x.actives.filter (!dead.contains ·) with
    | [] => s1
    | L :: _ => retRequest s1 x (.unpin (fld (val vals L 0) 0 3)) 0

end Sys2Proof.Machine
end

