-- ==== Sys2Proof/Machine/HomeSteps.lean ====
section
/-!
DEFINITION. The steps of memory homes and of the hub's clocks: reads, writes and atomics at their homes
(R202, R203, R236), lazy releases (R216, R217), RED drains (R240), signals (R242), store merge buffer
timeouts and acknowledgements (R214), retention requests (R254), clock intervals, reconciliation and
sweeps (R209 to R211), region merges (R207).
-/

namespace Sys2Proof.Machine

/-- A group whose end or restart has begun looks again at what it still waits for, and so does a launch whose
completion word is on its way. -/
def State.endPoke (s : State) : State :=
  let s := (s.groups.filter (·.ending)).foldl (fun s G => s.postOnce (.groupEnd G.id)) s
  let s := (s.groups.filter fun G => !G.ending && (s.gangsOf G.id).all (·.ended.isSome)).foldl
    (fun s G => s.postOnce (.roleRestart G.id)) s
  (s.launches.filter (·.done.isSome)).foldl (fun s l => s.postOnce (.launchComplete l.part l.lid)) s

/-- A flag line is written: it is no longer owned, and what was redirected goes on (R216). -/
def State.unown (s : State) (o : Nat) : State :=
  let s := { s with owned := s.owned.filter (·.id != o) }
  (s.reqs.filter fun q => q.held == some (.recall o)).foldl State.retry s

/-- The line number of memory of another device. -/
def remoteLine (dev va : Nat) : Nat := memKey (8 + dev) va / 128

/-- A write that waits for its line's remote leases is cancelled: unless another one waits there, leases are granted again
(R423). -/
def State.cancelWait (s : State) (q : Req) : State :=
  let waits := fun (p : Req) => p.id != q.id && p.part == q.part && p.asn == q.asn && p.dev == q.dev &&
    p.va / 128 == q.va / 128 && (match p.held with | some (.lease _) => true | _ => false)
  match q.held with
  | some (.lease _) =>
    if s.reqs.any waits then s
    else if q.dev ≠ 0 then s.endWait (remoteLine q.dev q.va)
    else (match s.lookPast q.part q.asn q.va with
      | .leaf l => s.endWait (l.key (q.va / 128 * 128) / 128)
      | _ => s)
  | _ => s

/-- A request that is not performed is gone: its answer counts as come, and what waited for it goes on. -/
def dropFailed (s : State) (q : Req) : State :=
  let s := s.cancelWait q
  let s := ((s.answer q.op id).dropReq q.id).tell q (.refused 0x14)
  let s := match q.kind with
    | .red e => ({ s with reds := s.reds.filter (·.id != e) }).settle e none
    | .flag o _ _ _ => (s.unown o).settle o none
    | _ => s
  (s.settle q.id none).endPoke

/-- An access whose translation cannot be resolved ends its group (R194); without a group it is dropped. -/
def State.unresolved (s : State) (q : Req) : State :=
  q.gangs.foldl (fun s g => failGang s g 0x14 0) (dropFailed s q)

/-- A request reaches its home: of this device through its page, which may be absent (R194) or malformed,
or of another device. It stands behind what its core has issued to the line before. A page that was absent at issue and is
valid now is not checked again for permission, mode or scope. [DESIGN CHOICE: log entry 102] -/
def atHome (s : State) (q : Req) (k : State → Leaf → State) : State :=
  if q.held.isSome ∨ q.served then s
  else match s.earlier q with
  | some p => s.holdReq q (.order p)
  | none =>
  if q.dev ≠ 0 then
    (if s.joined then k s (remoteLeaf q.dev q.va) else s.holdReq q .fabric)
  else match translate s q.part q.asn q.va with
    | (.absent, s) => (s.notPresent q.part q.asn q.va).holdReq q .fault
    | (.malformed, s) => s.unresolved q
    | (.held h, s) => s.holdReq q h
    | (.leaf l, s) => k s l

/-- A lane's answer is a bad word: the lane is dead from now on (R40, R381), but for the read of a word that holds its
stream, which sees to it itself. [DEDUCED: log entry 92] -/
def State.killAnswered (s : State) (q : Req) (lanes : List Nat) : State :=
  if lanes.isEmpty || (q.op.bind s.op?).any (·.rel) then s else s.markDead q.gang lanes

/-- Give the lanes of a read their bytes: those captured from the core's buffers at issue, the others from
the line. A lane that touches a bad byte dies (R381). -/
def deliver (s : State) (q : Req) (lanes : List (Nat × Nat × Nat)) (mask : BitVec 128) (ahead base : List Byte)
    (bad : BitVec 128) : State :=
  let grp := match s.groupOf q.gang with | some G => G.id | none => 0
  let bytes := overlayBytes mask ahead base
  let r := lanes.foldl (fun (st : State × List (Nat × Word) × List Nat) l =>
    if maskAt l.2.1 l.2.2 &&& ~~~mask &&& bad ≠ 0 then
      (st.1.spoilAudit grp, st.2.1, st.2.2 ++ [l.1])
    else
      let v := st.1.replayRead grp (farKey q.dev q.va + l.2.1) ((bytes.drop l.2.1).take l.2.2)
      (v.1, st.2.1 ++ [(l.1, leWord v.2)], st.2.2)) (s, [], [])
  ((r.1.answer q.op fun o => { o with vals := o.vals ++ r.2.1, dead := o.dead ++ r.2.2 }).dropReq q.id).killAnswered q r.2.2

/-- Leave a copy of a line in the reader's L1. -/
def leaveCopy (s : State) (q : Req) (fill ef keep : Bool) (data : List Byte) (bad : BitVec 128) (l : Lease) : State :=
  if !fill || bad != 0 then s
  else s.fillL1 ⟨q.core, q.part, q.asn, l1Key q.dev q.va, data, l, s.cycle, keep, if ef then 0 else s.stamp, 0⟩

/-! ## Cells (R258 to R260) -/

/-- A cell's fields. -/
structure Cell where
  val : List Byte
  wid : Nat
  gen : Nat
  st  : Nat
  deriving DecidableEq, Repr

/-- The cell in 64 bytes; none when it is malformed. -/
def cellOf (bs : List Byte) : Option Cell :=
  let gen := leNat ((bs.drop 40).take 4)
  let st := (at' 0 bs 44).toNat
  if 2 ^ 22 ≤ gen ∨ 2 ≤ st ∨ (bs.drop 45).any (· != 0) then none
  else some ⟨bs.take 32, leNat ((bs.drop 32).take 8), gen, st⟩

/-- A cell's 64 bytes. -/
def Cell.bytes (c : Cell) : List Byte :=
  (c.val ++ List.replicate 32 0).take 32 ++ leBytes 8 c.wid ++ leBytes 4 c.gen ++ leBytes 1 c.st ++
    List.replicate 19 0

/-! ## Lines of other devices (R422) -/

/-- The later of two LEND values (R422). -/
def later32 (a b : Nat) : Nat := if precedes32 a b then b else a

/-- Raise RLE of a line (R422). -/
def State.raiseRle (s : State) (line lend : Nat) : State :=
  match s.rle? line with
  | none => { s with rles := (line, lend) :: s.rles }
  | some e => { s with rles := (line, later32 e lend) :: s.rles.filter (·.1 != line) }

/-- Is a write to a line held for its remote leases (R423)? One that is not performed as they lapse has been given up. -/
def heldFor (s : State) (line : Nat) : Bool := s.lwaits.any fun w => w.1 == line && decide (s.ptp ≤ w.2 + 8)

/-- A lease granted by a home in PTP time to a reader of another device (R422); while a write is held none
is granted (R423). -/
def grantRemote (s : State) (line level : Nat) : State × Option Nat :=
  if heldFor s line then (s, none)
  else
    let lend := (s.ptp / 8 + 8 * 2 ^ level) % 2 ^ 32
    (s.raiseRle line lend, some lend)

/-- Half a line of another device as a request finds it. Where this device knows the cell there, it is of that generation
or, fewer than 2^21 recyclings later, of another: a decision stands within its generation, and one of this device's own
words until they recycle it (R264, R268). Elsewhere it holds `raw`; `when` is the free time of a decision, which lies in
the past. -/
def farHalf (s : State) (k : Nat) (raw : List Byte) (when' : Nat) : State :=
  match s.cells.find? (·.1 == k), cellOf (s.mem.read k 64) with
  | some _, some c =>
    let n := leNat ((raw.drop 40).take 4) % 2 ^ 21
    let st := (at' 0 raw 44).toNat % 2
    if c.st = 1 ∧ (n = 0 ∨ c.wid / 2 ^ 51 = s.devnum) then s
    else
      let d : Cell := if st = 1 then ⟨raw.take 32, leNat ((raw.drop 32).take 8), (c.gen + n) % 2 ^ 22, 1⟩
        else ⟨List.replicate 32 0, 0, (c.gen + n) % 2 ^ 22, 0⟩
      { s.pokeMasked k 0 (maskAt 0 64) d.bytes with
        cells := (k, min when' s.ptp) :: s.cells.filter (·.1 != k) }
  | _, _ => { s.pokeMasked k 0 (maskAt 0 64) raw with cells := s.cells.filter (·.1 != k) }

/-- A line of another device as a request finds it at its home: that device's own agents write it too, so that it
holds what this device last saw of it, or free bytes. [DESIGN CHOICE: log entry 101] -/
def farLine (s : State) (line : Nat) : State :=
  let c := Config.choice s.choices
  let s := { s with choices := s.choices + 1 }
  if c = 0 then s
  else
    let k := line * 128
    let raw := leBytes 128 (c - 1)
    let d := (c - 1) / 2 ^ 1024
    farHalf (farHalf s k (raw.take 64) (d % 2 ^ 64)) (k + 64) (raw.drop 64) (d / 2 ^ 64)

/-- The bytes of an engine's read that travelled, none when they are poisoned, go to its command with the line's
timestamp (R202, R281). -/
def engineGot (s : State) (q : Req) (cmd : Nat) (bytes : List Byte) (wts : Option TS) : State :=
  let up := fun (t : TS) => match wts with | some w => smax t w | none => t
  ({ s with
    sx := s.sx.map fun (c : SxCmd) => if c.id = cmd then { c with
        et := up c.et
        far := c.far.map fun (f : Nat × Nat × Option (List Byte)) =>
          if f.2.1 = q.id then (f.1, f.2.1, some bytes) else f } else c
    mx := s.mx.map fun (c : MxCmd) => if c.id = cmd then { c with
        et := up c.et
        far := c.far.map fun (f : Nat × Option (List Byte)) =>
          if f.1 = q.id then (f.1, some bytes) else f } else c }.dropReq
    q.id).endPoke

/-- The bytes of a line that an engine's read takes; none when one is bad. -/
def engineBytes (s : State) (line off n : Nat) : List Byte :=
  if badMask s line &&& maskAt off n ≠ 0 then [] else s.mem.read (line * 128 + off) n

/-- A read of a line of another device (R422): level 0 to 9 of its region is the other home's. -/
def remoteServe (s : State) (q : Req) (lanes : List (Nat × Nat × Nat)) (fill ef keep : Bool)
    (mask : BitVec 128) (ahead : List Byte) : State :=
  let line := remoteLine q.dev q.va
  match (s.owner? line).filter (·.core != q.core) with
  | some o => s.holdReq q (.recall o.id)
  | none =>
    let c := (farLine s line).choose 9
    let g := grantRemote c.2 line c.1
    let data := g.1.mem.read (line * 128) 128
    let bad := badMask g.1 line
    let s := match g.2 with
      | some lend => leaveCopy g.1 q fill ef keep data bad (.remote lend)
      | none => g.1
    deliver s q lanes mask ahead data bad

/-- Is a line of a replicated page locked (R425)? -/
def State.lockedLine (s : State) (part asn va : Nat) (l : Leaf) : Bool :=
  l.mode == 4 && s.sets.any fun r => r.part == part && r.asn == asn && r.locks.contains (va / 128 * 128)

/-- Is a request's line of a replicated page locked (R425)? -/
def State.repLocked (s : State) (q : Req) (l : Leaf) : Bool := s.lockedLine q.part q.asn q.va l

/-- A read that meets a locked line stalls until the update lands, for at most 10 µs (R425). -/
def State.repStall (s : State) (q : Req) : State :=
  (s.postNs (s.ptp + 10000) (.repLoadTimeout q.id)).modReq q.id fun q => { q with held := some (.lease 0) }

/-- What a reader without a request of its own finds of a line of a replicated page: it may read; the line is locked, and it
waits for the update; or it has waited for 10 µs, and reads the home copy (R425). -/
inductive RepRead where
  | free
  | wait (s : State)
  | home (s : State)

/-- Does a request only stand for such a reader? [DESIGN CHOICE: log entry 75] -/
def Req.standsIn (q : Req) : Bool :=
  q.kind == .read [] none false false false false 0 [] && q.core == 144 && q.op.isNone && q.dev == 0

/-- The line as such a reader finds it: a request that stands in for it stalls on the locked line. -/
def State.repRead (s : State) (part asn va : Nat) (l : Leaf) : RepRead :=
  if !s.lockedLine part asn va l then .free
  else match s.reqs.find? fun q => q.standsIn && q.part == part && q.asn == asn && q.va / 128 == va / 128 with
    | some q => if q.served then .home (s.dropReq q.id) else .wait s
    | none => .wait (s.send (.read [] none false false false false 0 []) 144 0 none part asn (va / 128 * 128) 0 s.dclk)

/-- The home device of the replica set that covers an address: this one where there is none (R424). -/
def State.homeOf (s : State) (part asn va : Nat) : Nat :=
  match s.repSet? part asn va with
  | some g => g.devs.headD s.devnum
  | none => s.devnum

/-- HOME_READ (R202), an engine's read that travels (R281), or the fill of a line that a core now owns (R216, R447). -/
def execHomeRead (req : Nat) (s : State) : Host.Outcome State Fault Refusal :=
  match s.req? req with
  | none => .next s
  | some q =>
    match q.kind with
    | .read lanes cwts fill acq ef keep mask ahead =>
      .next (atHome s q fun s l =>
        if q.dev ≠ 0 then
          let s := if acq then s.raisePts q.gang (at' 0 s.dclkSeen q.core) else s
          remoteServe s q lanes fill ef keep mask ahead
        else if l.host then s.post (.bridgeDeviceRead q.id)
        else if s.repLocked q l then s.repStall q
        else
          let r := l.lineRef q.part q.asn q.va
          match readAt s r q.core q.t cwts ef with
          | .held s h => s.holdReq q h
          | .done s wts rts _ =>
            let data := s.lineData r
            let bad := badMask s r.line
            let s := leaveCopy s q fill ef keep data bad (.lt wts rts)
            let s := if lanes.isEmpty then s else s.raisePts q.gang wts
            let s := if acq then s.raisePts q.gang (at' 0 s.dclkSeen q.core) else s
            deliver s q lanes mask ahead data bad)
    | .fetch cmd _ off n ef => .next (atHome s q fun s l =>
        if q.dev ≠ 0 then
          let line := remoteLine q.dev q.va
          match s.owner? line with
          | some o => s.holdReq q (.recall o.id)
          | none =>
            let s := farLine s line
            engineGot s q cmd (engineBytes s line off n) none
        else if l.host then s.post (.bridgeDeviceRead q.id)
        else if s.repLocked q l then s.repStall q
        else
          let r := l.lineRef q.part q.asn q.va
          match readAt s r 144 q.t none ef with
          | .held s h => s.holdReq q h
          | .done s wts _ _ => engineGot s q cmd (engineBytes s r.line off n) (some wts))
    | .own => .next (atHome s q fun s l =>
        let r := l.lineRef q.part q.asn q.va
        match s.bringIn r false with
        | some s1 => s1.dropReq q.id
        | none => s.holdReq q (match s.recallOf r with | some o => .recall o | none => .clock))
    | _ => .next s

/-- Write bytes of another device's memory; held until the leases this device holds have lapsed (R423), and while
another core owns the line (R216). Damage the write meets is logged (R382). -/
def remotePoke (s : State) (q : Req) (mask : BitVec 128) (data : List Byte) (k : State → State) : State :=
  let line := remoteLine q.dev q.va
  match (s.owner? line).filter (·.core != q.core), s.leaseHold line with
  | some o, _ => s.holdReq q (.recall o.id)
  | none, some ns => (s.noteWait line (.lease ns)).holdReq q (.lease ns)
  | none, none =>
    let m := s.mend line mask
    let s := m.2.foldl (fun s e => logEntry s q.part e.1 0 2 0 0 (farKey q.dev (q.va / 128 * 128 + e.2)) 0)
      (m.1.endWait line)
    k (s.pokeMasked (line * 128) 0 mask data)

/-- Bytes that a request of a core has written at their home stand in the core's own copy of the line too (R214). [DEDUCED: log entry 15] -/
def State.ownCopy (s : State) (q : Req) (mask : BitVec 128) (data : List Byte) : State :=
  if q.core < 144 then s.overL1 q.core q.part q.asn (l1Key q.dev q.va) mask data else s

/-- The same for a request that carries its bytes. -/
def State.ownBytes (s : State) (q : Req) : State :=
  match q.kind with
  | .write mask data _ _ _ => s.ownCopy q mask data
  | .flag _ mask data _ => s.ownCopy q mask data
  | _ => s

/-- A write has been performed: its acknowledgement is on its way with the returned wts, if its home gives one. -/
def State.served (s : State) (q : Req) (wts : Option TS) : State :=
  ((s.modReq q.id fun q => { q with served := true, t := wts.getD q.t, wts := wts }).afterReq q.id).post (.smbFlushAck q.id)

/-- The timestamp at which a home performs a write: that of the request, or DCLK for another device's (R423). [DEDUCED: log entry 28] -/
def State.writeTime (s : State) (q : Req) : TS := if q.src.isSome then s.dclk else q.t

/-- Poison the lowest written word of a line, with a good-byte mask of 0 (R387, target 6). -/
def poisonLowest (s : State) (line : Nat) (mask : BitVec 128) : State :=
  match (rangeFrom 0 16).find? fun w => (mask >>> (8 * w)).setWidth 8 != 0#8 with
  | none => s
  | some w =>
    let cw := line * 16 + w
    { s with bad := ⟨.mem cw, false, 0, 0⟩ :: s.bad.filter fun d => d.loc != .mem cw }

/-- HOME_WRITE (R203): a flush, a signal or a flag write as one indivisible step; that of a replicated page goes to its
sequencer (R424). [DEDUCED: log entry 82] -/
def execHomeWrite (req : Nat) (s : State) : Host.Outcome State Fault Refusal :=
  match s.req? req with
  | none => .next s
  | some q =>
    let go := fun (mask : BitVec 128) (data : List Byte) (ef bad : Bool) (after : State → State) =>
      atHome s q fun s l =>
        if q.dev ≠ 0 then remotePoke s q mask data fun s =>
          after (((if bad then poisonLowest s (remoteLine q.dev q.va) mask else s).ownBytes q).served q none)
        else if l.host then s.post (.bridgeDeviceWrite q.id)
        else if l.mode == 4 then
          (s.modReq q.id fun q => { q with kind := match q.kind with
            | .write _ _ gs _ _ => .rep mask data gs ef bad
            | k => k }).post (.repStore (.req q.id))
        else
          let r := l.lineRef q.part q.asn q.va
          match writeAt s r q.core (s.writeTime q) mask data ef with
          | .held s h => s.holdReq q h
          | .done s wts _ _ => after (((if bad then poisonLowest s r.line mask else s).ownBytes q).served q (some wts))
    match q.kind with
    | .write mask data _ ef bad => .next (go mask data ef bad id)
    | .flag o mask data _ => .next (go mask data false false fun s => s.unown o)
    | _ => .next s

/-- A returned timestamp joins W of the core's flags whose STO came after the entry was taken (R216). -/
def State.gatherW (s : State) (q : Req) (t : TS) : State :=
  { s with owned := s.owned.map fun o => if o.core = q.core ∧ q.ent < o.before then { o with t := smax o.t t } else o }

/-- SMB_FLUSH_ACK (R203, R214): the acknowledgement raises the PTS of every gang that stored and is still
resident, or the ET of the engine command (R281); that of a write to another device or to the host brings no
timestamp (R222). -/
def execSmbFlushAck (req : Nat) (s : State) : Host.Outcome State Fault Refusal :=
  match s.req? req with
  | none => .next s
  | some q =>
    if !q.served then .next s
    else
      let s1 := match q.wts with
        | some t => (q.gangs.foldl (fun (s : State) g => s.raisePts g t) s).gatherW q t
        | none => s
      let s1 := match q.wts with
        | some t => { s1 with
            sx := s1.sx.map fun (c : SxCmd) =>
              if c.acks.any (·.2 == q.id) then { c with et := smax c.et t } else c }
        | none => s1
      let s2 := ((s1.dropReq q.id).settle q.id q.wts).tell q .acked
      let s3 := match q.kind with
        | .flag o _ _ _ => s2.settle o q.wts
        | .atom _ _ _ _ _ _ _ _ => s2.answer q.op id
        | _ => s2
      .next s3.endPoke

/-! ## Atomics (R235, R236) -/

/-- The new value of an atomic and the exceptions of FADD: function, width, old, operands, setting. -/
def atomVal (f w : Nat) (old b c : Nat) (m : FMode) : Nat × FFlags :=
  match f with
  | 0 => ((old + b) % 2 ^ w, 0)
  | 1 => (old &&& b, 0)
  | 2 => (old ||| b, 0)
  | 3 => (old ^^^ b, 0)
  | 4 => (if sval w b < sval w old then b else old, 0)
  | 5 => (if sval w old < sval w b then b else old, 0)
  | 6 => (min old b, 0)
  | 7 => (max old b, 0)
  | 8 => (b, 0)
  | 9 => (if old = b then c else old, 0)
  | _ =>
    let F := if w = 32 then fp32 else fp64
    let r := F.addV m (F.rd m old) (F.decode b)
    (r.bits, r.fl)

/-- An atomic has been performed, or its lane consumed a bad byte: old value, exceptions. -/
def atomDone (s : State) (q : Req) (lane : Nat) (old : Option Nat) (fl : FFlags) (wts : Option TS) : State :=
  let s := match wts with | some t => s.raisePts q.gang t | none => s
  let s := s.tell q (match old with | some v => .atomic (BitVec.ofNat 64 v) fl | none => .poisoned)
  let s := s.answer q.op fun o => match old with
    | some v => { o with vals := o.vals ++ [(lane, BitVec.ofNat 64 v)], fl := o.fl ++ [(lane / 4, fl)] }
    | none => { o with dead := o.dead ++ [lane] }
  (((s.dropReq q.id).settle q.id wts).killAnswered q (if old.isNone then [lane] else [])).endPoke

/-- A sum at the sequencer of a replicated page comes to every replica as the bytes that it makes (R424); any other
atomic has no meaning there (R194). [DESIGN CHOICE: log entries 75, 102] -/
def repAtomic (s : State) (q : Req) (lane f : Nat) : State :=
  if q.op.isNone && f == 0 then s.post (.repStore (.req q.id))
  else if q.src.isSome then ((s.dropReq q.id).tell q (.refused 0x12)).endPoke
  else failGang (dropFailed s q) q.gang 0x12 lane

/-- An atomic reaches its home (R236): read, combine and write in one step. Another device's is checked against the
page (R194). -/
def homeAtomic (req : Nat) (s : State) : State :=
  match s.req? req with
  | none => s
  | some q =>
    match q.kind with
    | .atom lane off n f b c fm again =>
      let mask := maskAt off n
      let comp := fun (line : List Byte) =>
        let old := leNat ((line.drop off).take n)
        (old, atomVal f (8 * n) old (b.toNat % 2 ^ (8 * n)) (c.toNat % 2 ^ (8 * n)) (FMode.ofCode fm))
      atHome s q fun s l =>
        if q.dev ≠ 0 then
          let line := remoteLine q.dev q.va
          let s := farLine s line
          if badMask s line &&& mask ≠ 0 then atomDone s q lane none 0 none
          else
            let v := comp (s.mem.read (line * 128) 128)
            let new := lineAt off (leBytes n v.2.1)
            remotePoke s { q with core := 144 } mask new fun s => atomDone (s.ownCopy q mask new) q lane (some v.1) v.2.2 none
        else if l.host then s.post (.bridgeDeviceWrite q.id)
        else if q.src.isSome && (leafCause s.devnum { wr := true, atom := f != 0 } l).isSome then
          ((s.dropReq q.id).tell q (.refused ((leafCause s.devnum { wr := true, atom := f != 0 } l).getD 0))).endPoke
        else if l.mode = 4 then repAtomic s q lane f
        else
          let r := l.lineRef q.part q.asn q.va
          if badBeneath s r.line &&& mask ≠ 0 then atomDone s q lane none 0 none
          else
            let s := s.correct r
            let v := comp (s.lineData r)
            let new := lineAt off (leBytes n v.2.1)
            match writeAt s r 144 (s.writeTime q) mask new false (again || q.again) with
            | .held s h => s.holdReq q h
            | .done s wts _ _ => atomDone (s.ownCopy q mask new) q lane (some v.1) v.2.2 (some wts)
    | _ => s

/-- HOME_ATOMIC (R236): one lane's atomic, or a term that another device adds (R237). -/
def execHomeAtomic (req : Ask) (s : State) : Host.Outcome State Fault Refusal :=
  match req with
  | .req id => .next (homeAtomic id s)
  | .far r => .next (s.comeIn r (r.va / 128 * 128) (.atom 0 (r.va % 128) r.n r.f r.b r.c r.fm false))

/-! ## Lazy release (R216, R217) -/

/-- LAZY_RELEASE_DRAIN (R216): the owner drains every entry of its buffer taken before the STO; the flag
write follows once all is acknowledged, with the gangs' earlier releases, signals and terms of flush points (R226, R233). An owner that stands behind another of the line waits for it. [DEDUCED: log entry 18] -/
def execLazyReleaseDrain (flag : Nat) (s : State) : Host.Outcome State Fault Refusal :=
  match s.owned.find? (·.id == flag) with
  | none => .next s
  | some o =>
    let first := (s.owner? o.line).getD o
    if first.id ≠ o.id then .next (s.postOnce (.lazyReleaseDrain first.id))
    else if s.wsigs.any (fun w => w.flag == some o.id) || s.reqs.any (fun q => match q.kind with
        | .flag i _ _ _ => i == o.id
        | _ => false) then .next s
    else
      let s1 := s.flushWhere o.core (fun e => decide (e.id < o.before)) o.gangs
      let older := (s1.owned.filter fun p => p.core == o.core && decide (p.before < o.before)).map (·.id)
      let s2 := older.foldl (fun s i => s.postOnce (.lazyReleaseDrain i)) s1
      let writes := s2.writesOut o.core fun _ ent => decide (ent < o.before)
      let ops := s2.ops.filterMap fun p => if o.gangs.contains p.gang && decide (p.id < o.before) && p.waits != 0 &&
        !p.block then some p.id else none
      let sigs := ((o.gangs.map fun g => s2.signalsOut g true).flatten).filter fun i => decide (i < o.before)
      let reds := s2.reds.filterMap fun e => if o.gangs.contains e.gang && e.drain.any fun d => decide (d < o.before)
        then some e.id else none
      .next (s2.addWsig ⟨0, o.gangs.headD 0, o.core, o.part, o.asn, false, 0, [], o.t, writes ++ older ++ ops ++ reds ++ sigs,
        some o.id, none, true, none, []⟩)

/-- LAZY_RELEASE_TIMEOUT (R217): 4,096 cycles after the STO. -/
def execLazyReleaseTimeout (flag : Nat) (s : State) : Host.Outcome State Fault Refusal :=
  match s.owned.find? (·.id == flag) with
  | none => .next s
  | some o =>
    let s1 := s.postOnce (.lazyReleaseDrain flag)
    .next (if ((s.owner? o.line).getD o).id = o.id then s1
      else s1.postAt (s.cycle + 4) (.lazyReleaseTimeout flag))

/-- SMB_FLUSH_TIMEOUT (R214): 4,096 cycles after the entry was taken. -/
def execSmbFlushTimeout (core entry : Nat) (s : State) : Host.Outcome State Fault Refusal :=
  .next (s.flushWhere core (fun e => e.id == entry) [])

/-! ## Signals (R242, R225) -/

/-- An arrival that waited for its stream's earlier accesses (R247), less the slices that have been dropped or have
retired since (R41). -/
def lateArrival (s : State) (w : Wsig) (a : Arrival) : State :=
  match s.gang? w.gang with
  | none => s
  | some g => match s.group? g.group with
    | none => s
    | some G =>
      let out := match G.bar? a.loc with | some b => b.drop | none => []
      let here := fun (c : (Nat × Nat) × Nat) => !out.contains c.1 &&
        ((g.slice? c.1.2).any fun sl => sl.lanes.any (!·.dead))
      ((s.settle w.id (some w.t)).arriveLanes G.id G.team { a with cnt := a.cnt.filter here } (smax g.pts w.t)).endPoke

/-- WSIG_SIGNAL: what a record waited for is acknowledged. A flag is written at smax(t, W) (R216); the
signals of a WSIG follow one after another past every returned wts, and those in one line look it up once (R273); a FENCE
lets its stream go on (R224). [DEDUCED: log entry 82] -/
def execWsigSignal (op : Nat) (s : State) : Host.Outcome State Fault Refusal :=
  match s.wsigs.find? (·.id == op) with
  | none => .next s
  | some w =>
    if !w.waits.isEmpty then .next s
    else
      let s0 := { s with wsigs := s.wsigs.filter (·.id != w.id) }
      match w.arr with
      | some a => .next (lateArrival s0 w a)
      | none => match w.flag with
      | some f =>
        match s.owned.find? (·.id == f) with
        | none => .next s0
        | some o =>
          let s1 := s0.overL1 o.core o.part o.asn (l1Key o.dev o.va) o.mask o.data
          .next ((s1.send (.flag o.id o.mask o.data o.gangs) o.core (o.gangs.headD 0) none o.part o.asn o.va o.dev
            (smax o.t w.t)).modReq s1.fresh fun q => { q with pos := o.before })
      | none =>
        match w.sigs with
        | (lane, ea, v) :: rest =>
          let a := (gaddr s ea).getD (0, 0)
          let line := a.2 / 128 * 128
          let bs := leBytes w.size v.toNat
          let mask := maskAt (a.2 % 128) w.size
          let data := (lineAt (a.2 % 128) bs ++ List.replicate 128 0).take 128
          let k := if w.add then ReqKind.atom lane (a.2 % 128) w.size 0 v 0 0 false
            else .write mask data [w.gang] false false
          let s1 := if w.add then s0 else s0.overL1 w.core w.part w.asn (l1Key a.1 a.2) mask data
          let id := s1.fresh
          let s2 := (s1.send k w.core w.gang none w.part w.asn line a.1 (w.t + 1)).modReq id fun q => { q with
            pos := w.id, again := w.done.contains (a.1, line) }
          .next (State.afterReq { s2 with wsigs := s2.wsigs ++ [{ w with
            sigs := rest, waits := [id], done := w.done ++ [(a.1, line)] }] } w.id)
        | [] =>
          let s1 := s0.settle w.id (some w.t)
          match w.op with
          | none => .next s1.endPoke
          | some f => match s1.op? f with
            | none => .next s1
            | some o =>
              if o.rel then .next (s1.modOp f fun o => { o with block := false, waits := 0 }) else
              let s2 := if o.acq.isSome then s1.raisePts o.gang (match s1.groupOf o.gang with
                | some G => at' 0 s1.dclkSeen G.core
                | none => 0) else s1
              .next ({ s2 with ops := s2.ops.filter (·.id != f) }.settle f none).endPoke

/-! ## RED drains (R240, R241, R381) -/

/-- RED_DRAIN (R240): the entries that a flush point selects go to their homes. -/
def execRedDrain (group : Nat) (sel : DrainSel) (s : State) : Host.Outcome State Fault Refusal :=
  let epochOf := fun (g : Nat) => match s.gang? g with | some g => g.epoch | none => 0
  match sel with
  | .epoch e =>
    let live := (s.gangsOf group).filter (·.ended.isNone)
    .next (startDrain s fun r => r.group == group && decide (r.epoch ≤ e) && decide (r.epoch < epochOf r.gang) &&
      live.all fun g => decide (r.epoch < g.epoch))
  | .groupEnd =>
    .next (startDrain ((s.gangsOf group).foldl (fun s g => sealNow s g.id) s) fun r => r.group == group)
  | .gang g => .next (startDrain (sealNow s g) fun r => r.gang == g && r.group == group)

/-- A drained entry met a bad byte: it is discarded, and its group ends; after its end its launch completes
as faulted (R381). -/
def redPoisoned (s : State) (e : RedEntry) : State := failGroup s e.group 0x41 (64 * e.gidx)

/-- RED_ENTRY_APPLY (R240): mem := combine(mem, e.value) in one step at the home. A page that has become a replicated one
takes no terms (R194). [DESIGN CHOICE: log entry 102] -/
def execRedEntryApply (entry : Nat) (s : State) : Host.Outcome State Fault Refusal :=
  match s.reds.find? (·.id == entry), s.reqs.find? fun q => q.kind == .red entry with
  | some e, some q =>
    let off := q.va % 128
    let line := q.va / 128 * 128
    let mask := maskAt off 8
    let new := fun (bytes : List Byte) => lineAt off (leBytes 8 (redCombine e.f e.sz
      (leWord ((bytes.drop off).take 8)) e.value).toNat)
    let ack := fun (s : State) (t : Option TS) =>
      (({ s with reds := s.reds.map fun (r : RedEntry) => if r.id = e.id then { r with ts := t.getD r.ts } else r }.modReq q.id
        fun q => { q with served := true, wts := t }).afterReq q.id).post (.redDrainAck e.id)
    let done := fun (s : State) (bytes : List Byte) (t : Option TS) => ack (s.ownCopy { q with va := line } mask bytes) t
    .next (atHome s q fun s l =>
      if q.dev ≠ 0 then
        let ln := remoteLine q.dev line
        let s := farLine s ln
        if badMask s ln &&& mask ≠ 0 then ack (redPoisoned s e) none
        else
          let bytes := new (s.mem.read (ln * 128) 128)
          remotePoke s { q with va := line, core := 144 } mask bytes fun s => done s bytes none
      else if l.host then s.post (.bridgeDeviceWrite q.id)
      else if l.mode = 4 then ack (failGroup s e.group 0x12 (64 * e.gidx)) none
      else
        let r := l.lineRef q.part q.asn line
        if badBeneath s r.line &&& mask ≠ 0 then ack (redPoisoned s e) none
        else
          let s := s.correct r
          let bytes := new (s.lineData r)
          match writeAt s r 144 q.t mask bytes false q.again with
          | .held s h => s.holdReq q h
          | .done s wts _ _ => done s bytes (some wts))
  | _, _ => .next s

/-- RED_DRAIN_ACK (R240): raises the gang's PTS when it is still resident. -/
def execRedDrainAck (entry : Nat) (s : State) : Host.Outcome State Fault Refusal :=
  match s.reds.find? (·.id == entry), s.reqs.find? fun q => q.kind == .red entry with
  | some e, some q =>
    if !q.served then .next s
    else
      let s1 := if q.wts.isSome then s.raisePts e.gang e.ts else s
      .next ((({ s1 with reds := s1.reds.filter (·.id != entry) }.dropReq q.id).settle entry q.wts).endPoke)
  | _, _ => .next s

/-! ## Retention registers (R197, R198, R254) -/

/-- UNPIN (R197): the register's lines become ordinary at their present positions. -/
def State.unpin (s : State) (part k : Nat) : State :=
  { s with
    rets := s.rets.filter fun r => !(r.part == part && r.k == k)
    l2 := s.l2.map fun x => if x.part == part && x.pin == some k then { x with pin := none } else x }

/-- Insert a line by address. -/
def insertVa (x : L2Line) : List L2Line → List L2Line
  | [] => [x]
  | y :: r => if x.va < y.va then x :: y :: r else y :: insertVa x r

/-- PIN (R197): the range's resident lines in ascending order, while the quota and their sets allow. -/
def State.pinRange (s : State) (g : RetReg) : State :=
  let mine := (s.l2.filter fun x => x.part == g.part && x.chip == g.chip && x.asn == g.asn &&
    decide (g.va ≤ x.va) && decide (x.va < g.va + 128 * g.len)).foldl (fun acc x => insertVa x acc) []
  mine.foldl (fun s x =>
    let r : LineRef := ⟨x.chip, x.part, x.asn, x.va, x.pa⟩
    if s.mayPin g r then s.modL2 r fun y => { y with pin := some g.k } else s) s

/-- A PIN may issue now: what holds its stream stands aside until it does. -/
def pinServed (s : State) (q : Req) : State :=
  (match q.op with
    | some op => s.modOp op fun o => { o with rel := true, block := false, waits := 0 }
    | none => s).dropReq q.id

/-- A PIN finds no free register at the chiplet that homes its base: it traps with nothing changed (R254). -/
def pinUnavailable (s : State) (q : Req) : State :=
  match q.op.bind s.op? with
  | none => s.dropReq q.id
  | some o =>
    let s := { s with ops := s.ops.filter (·.id != o.id) }.dropReq q.id
    match s.gang? o.gang with
    | none => s
    | some g => match s.group? g.group with
      | none => s
      | some G => takeTrap s ⟨g, G, o.slices⟩ 0x19 0 false (maskOf (o.vals.map (·.1))) none

/-- RETENTION_REQUEST (R254): sets or clears a register, and lets the stream go on. [DEDUCED: log entry 20] -/
def execRetentionRequest (req : Nat) (s : State) : Host.Outcome State Fault Refusal :=
  match s.req? req with
  | none => .next s
  | some q =>
    match q.kind with
    | .unpin k => .next (((s.unpin q.part k).answer q.op id).dropReq q.id)
    | .pin k len quota =>
      .next (atHome s q fun s l =>
        if l.host then pinServed s q
        else
          let s1 := s.unpin q.part k
          let chip := l.quad q.va
          if 8 ≤ (s1.rets.filter (·.chip == chip)).length then pinUnavailable s q
          else
            let g : RetReg := ⟨q.part, k, chip, q.asn, q.va, len, quota⟩
            let s2 := { s1 with rets := s1.rets ++ [g] }.modPart q.part fun p =>
              { p with retstat := modAt (fun _ => 0) k p.retstat }
            pinServed (s2.pinRange g) q)
    | _ => .next s

/-! ## Clocks (R209 to R211, R207) -/

/-- CC_INTERVAL (R209): a new interval begins, and what was held for it goes on. -/
def execCcInterval (s : State) : Host.Outcome State Fault Refusal :=
  let s1 := { s with chips := s.chips.map fun (c : Chip) => { c with ccInt := c.cc } }
  .next ((s1.reqs.filter fun q => q.held == some .clock).foldl State.retry s1)

/-- The barriers recorded by resident groups. -/
def State.recordedBars (s : State) : List (Nat × BarLoc) :=
  ((s.groups.map fun G => G.bars.map fun b => (G.team, b.loc)).flatten).eraseDups

/-- CLOCK_RECONCILE (R210). -/
def execClockReconcile (s : State) : Host.Outcome State Fault Refusal :=
  let d := s.chips.foldl (fun t c => smax t c.cc) s.dclk
  let floor := d - 0x400000#24
  let s1 := { s with
    dclk := d
    chips := s.chips.map fun (c : Chip) => { c with cc := smax c.cc d }
    dclkSeen := s.dclkSeen.map fun _ => d
    floors := s.floors.map fun _ => floor
    gangs := s.gangs.map fun (g : Gang) => { g with pts := smax g.pts floor }
    sx := s.sx.map fun (c : SxCmd) => { c with et := smax c.et floor }
    mx := s.mx.map fun (c : MxCmd) => { c with et := smax c.et floor }
    progs := s.progs.map fun (p : Prog) => { p with et := smax p.et floor } }
  .next (s1.recordedBars.foldl (fun (s : State) (b : Nat × BarLoc) =>
    let o := s.bar b.1 b.2
    if o.tv then s.setBar b.1 b.2 { o with ts := smax o.ts floor } else s) s1)

/-- The sweeper raises a timestamp that precedes F. -/
def sweepTs (F t : TS) : TS := if TS.precedes t F then F else t

/-- SWEEPER_VISIT (R211, R260): the next sets of a chiplet; MTS once per pass of 32,768 sets. [DEDUCED: log entry 49] -/
def execSweeperVisit (chip sets : Nat) (s : State) : Host.Outcome State Fault Refusal :=
  let c := s.chip chip
  let F := c.cc - 0x400000#24
  let here := fun (x : L2Line) => x.chip == chip &&
    (rangeFrom c.sweep sets).any fun i => i % 32768 == s.chipSet x.part chip (x.va / 128 % 2 ^ (s.part x.part).l2sets chip)
  let up := fun (x : L2Line) =>
    let dts := fun (d : Option (TS × Nat)) => d.map fun e => (sweepTs F e.1, e.2)
    if TS.precedes x.rts F then { x with wts := F, rts := F, d0 := dts x.d0, d1 := dts x.d1 }
    else { x with d0 := dts x.d0, d1 := dts x.d1 }
  let next := (c.sweep + sets) % 32768
  let wrap := decide (32768 ≤ c.sweep + sets)
  .next ({ s with l2 := s.l2.map fun x => if here x then up x else x }.modChip chip fun c =>
    { c with sweep := next, mts := if wrap then sweepTs F c.mts else c.mts })

/-- REGION_MERGE (R207). [DEDUCED: log entry 49] -/
def execRegionMerge (chip region : Nat) (s : State) : Host.Outcome State Fault Refusal :=
  .next (s.mergeRegion chip region)

/-- CSRW to CLKTEST (R219): with another partition enabled only REJ changes; else every clock, stamp and
lease of the device is preset at once. -/
def execCsrwClktest (o : OpCsrwK) (s : State) : Host.Outcome State Fault Refusal :=
  withStream s fun x0 =>
    let W : Shape := { st := o.s.toNat, srcs := [.s7 o.x], dst := .none, lat := 0
                       legal := (s.part x0.grp.part).test }
    let preset := fun (x : Cx) (v : List (List Word)) => match x.actives with
      | [] => none
      | L :: _ => some (at' 0 (at' [] v L) 0)
    laneGate s W (fun x v => match preset x v with
        | some w => if fld w 24 8 ≠ 0 then [(0x01, x.mask)] else []
        | none => []) Cx.enOf (fun _ _ _ => { val := 0 }) fun x vals outs dead =>
      let s1 := finishLane s W false x vals outs dead
      match preset x vals with
      | none => s1
      | some w =>
        let p := x.grp.part
        let others := (rangeFrom 0 8).any fun i => i != p && (s.part i).en
        if others then s1.modPart p fun q => { q with clkrej := true }
        else
          let v : TS := w.setWidth 24
          { s1.modPart p fun q => { q with clkrej := false } with
            dclk := v
            chips := s1.chips.map fun (c : Chip) => { c with cc := v, ccInt := v, mts := v }
            dclkSeen := s1.dclkSeen.map fun _ => v
            floors := s1.floors.map fun _ => v - 0x400000#24
            l2 := s1.l2.map fun (y : L2Line) => { y with wts := v, rts := v }
            l1 := s1.l1.filter fun (c : L1Line) => match c.lease with | .decided _ _ => true | _ => false
            gangs := s1.gangs.map fun (g : Gang) => { g with pts := v }
            sx := s1.sx.map fun (c : SxCmd) => { c with et := v }
            mx := s1.mx.map fun (c : MxCmd) => { c with et := v }
            progs := s1.progs.map fun (q : Prog) => { q with et := v } }

end Sys2Proof.Machine
end

