-- ==== Sys2Proof/Machine/Scratch.lean ====
section
/-!
DEFINITION. Words on scratchpad (R227 to R231, R184, R223, R448) and on the barriers that lie in it (R244
to R252, R123).
-/

namespace Sys2Proof.Machine

/-! ## Accesses -/

/-- What the checks of one lane's scratchpad access come to. -/
inductive Scratched where
  | ok (w : Window) (off : Nat)
  | bad (cause : Nat)
  deriving DecidableEq, Repr

/-- The checks of a scratchpad access of `size` bytes in the order of R229. -/
def scratchCheck (s : State) (G : Group) (store : Bool) (size : Nat) (a : Word) : Scratched :=
  match scratchAt s G a with
  | none => .bad 0x10
  | some (w, off) =>
    if off % size ≠ 0 then .bad 0x15
    else if (w.tile (off / 4096)).engine then .bad 0x20
    else if store && s.touchesBar G.team w.core off size then .bad 0x18
    else .ok w off

/-- A scratchpad access that passed its checks. -/
structure ScratchAcc where
  lane : Nat
  win  : Window
  off  : Nat
  deriving DecidableEq, Repr

/-- Faults of the lanes' scratchpad checks. -/
def scratchCauses (s : State) (store : Bool) (size : Nat) (addr : List (List Word) → Nat → Word) (x : Cx)
    (vals : List (List Word)) : List (Nat × Word) :=
  x.actives.filterMap fun L => match scratchCheck s x.grp store size (addr vals L) with
    | .bad c => some (c, maskOf [L])
    | _ => none

/-- The accesses that passed. -/
def scratchOk (s : State) (store : Bool) (size : Nat) (addr : List (List Word) → Nat → Word) (x : Cx)
    (vals : List (List Word)) (dead : List Nat) : List ScratchAcc :=
  x.actives.filterMap fun L => match scratchCheck s x.grp store size (addr vals L) with
    | .ok w off => if dead.contains L then none else some ⟨L, w, off⟩
    | _ => none

/-! ## Banks (R184, R448) -/

/-- The bank words that an access of `size` bytes touches: slot number divided by 8. [DEDUCED: log entry 24] -/
def bankWords (w : Window) (off size : Nat) : List Nat :=
  if size ≤ 8 then [w.slot off / 8] else [w.slot off / 8, w.slot (off + 8) / 8]

/-- Serve the bank words of one core: the beats until the last pass is done, less one, and the banks'
new times. [DEDUCED: log entry 24] -/
def servePasses (s : State) (core : Nat) (words : List Nat) : State × Nat :=
  let ws := words.eraseDups
  let banks := (ws.map (· % 32)).eraseDups
  let count := fun (b : Nat) => (ws.filter fun w => w % 32 == b).length
  let free := fun (b : Nat) => match s.bankFree.find? (·.1 == core * 32 + b) with
    | some e => e.2
    | none => 0
  let start := banks.foldl (fun m b => max m (free b)) s.beat
  let p := banks.foldl (fun m b => max m (count b)) 1
  let old := s.bankFree.filter fun e => decide (s.beat < e.2) && !(banks.any fun b => e.1 == core * 32 + b)
  ({ s with bankFree := old ++ banks.map fun b => (core * 32 + b, start + count b) }, start - s.beat + (p - 1))

/-- Does an engine of a core run a command, whose accesses take passes of the banks too (R448)? [DEDUCED: log entry 24] -/
def State.engineRuns (s : State) (core : Nat) : Bool :=
  s.sx.any (fun c => c.core == core && c.st == .running) || s.mx.any fun c => c.core == core && c.st == .running

/-- Serve the passes of a word's accesses; accesses through the pair link count against the partner's banks. The
transit of the link, and the beats that the banks serve a running engine, are open (R448). [DESIGN CHOICE: log entry 5] -/
def serveAccs (s : State) (G : Group) (size : Nat) (as : List ScratchAcc) : State × Nat :=
  let words := fun (c : Nat) => ((as.filter (·.win.core == c)).map fun a => bankWords a.win a.off size).flatten
  let cores := (as.map (·.win.core)).eraseDups
  let r := cores.foldl (fun (st : State × Nat) c =>
    let q := servePasses st.1 c (words c)
    (q.1, max st.2 q.2)) (s, 0)
  if cores.any (fun c => c != G.core || s.engineRuns c) then
    let c := r.1.choose 63
    (c.2, r.2 + c.1)
  else r

/-! ## Loads and stores -/

/-- Size of a scratchpad access (R227). -/
def scratchSize (z : BitVec 2) : Nat := if z = 0#2 then 16 else 2 ^ z.toNat

/-- Reserve a further named register for an operation. -/
def State.reserveMore (s : State) (x : Cx) (r op : Nat) : State :=
  s.modGang x.g.id fun g => { g with slices := imap (fun i (sl : Slice) =>
    if x.ss.contains i then { sl with nT := modAt (fun _ => ⟨sl.clock, 0, 0, some op⟩) r sl.nT } else sl) 0 g.slices }

/-- A further named register of the word waits for a result. -/
def Cx.morePending (x : Cx) (r : Nat) : Bool :=
  x.ss.any fun i => match x.g.slice? i with
    | some sl => (at' Timing.zero sl.nT r).pend.isSome
    | none => false

/-- A scratchpad load (R230): read at one point once its last pass is done (R448); its result returns 3 beats later. -/
def ldsWord (s : State) (W : Shape) (z : BitVec 2) (d : Nat) (addr : List (List Word) → Nat → Word) :
    Host.Outcome State Fault Refusal :=
  let size := scratchSize z
  let pair := size == 16
  let W := { W with legal := W.legal && (!pair || (decide (d < 16) && d % 2 == 0)) }
  laneGateW s W (fun x _ => if x.acqHeld s || (pair && x.morePending (d + 1)) then some s else none)
    (scratchCauses s false size addr) Cx.enOf (fun _ _ _ => { val := 0 }) fun x vals _ dead =>
      let as := scratchOk s false size addr x vals dead
      let op := openOp s x W 0 dead
      let s1 := issueOp s x W vals dead op
      let s2 := if pair then s1.reserveMore x (d + 1) op.id else s1
      let r := serveAccs s2 x.grp size as
      let p : ScratchPass := ⟨0, x.g.id, x.ss, s.beat + r.2, some op.id, if pair then some (d + 1) else none,
        as.map fun a => (a.lane, a.win.id, a.off, size, [])⟩
      ((r.1.postAt (4 * (s.beat + 3 + r.2)) (.resultReturn op.id)).markDead x.g.id dead).startPass p

/-- LDS (R227, R228). [DEDUCED: log entry 24] -/
def execLds (o : OpLB) (s : State) : Host.Outcome State Fault Refusal :=
  ldsWord s (shapeLoad o.s o.d.toNat [.s7 o.a] hmNone) o.z o.d.toNat
    fun v L => addrB (val v L 0) o.o.toInt (scratchSize o.z)

/-- LDSX (R228). -/
def execLdsx (o : OpLX) (s : State) : Host.Outcome State Fault Refusal :=
  ldsWord s (shapeLoad o.s o.d.toNat [.g7 o.g .whole, .s7 o.x] hmNone) o.z o.d.toNat
    fun v L => addrX (val v L 0) (val v L 1) o.h.toNat

/-- A scratchpad store (R231), performed once its last pass is done (R448): `k` is the place of the value among the
sources. -/
def stsWord (s : State) (W : Shape) (z : BitVec 2) (v : BitVec 7) (k : Nat)
    (addr : List (List Word) → Nat → Word) : Host.Outcome State Fault Refusal :=
  let size := scratchSize z
  let pair := size == 16
  let W := { W with srcs := if pair then W.srcs ++ [.s7 (nextReg v)] else W.srcs
                    legal := W.legal && (!pair || evenN v) }
  laneGateW s W (fun x _ => if x.acqHeld s then some s else none)
    (scratchCauses s true size addr) Cx.enOf (fun _ _ _ => { val := 0 }) fun x vals _ dead =>
      let as := scratchOk s true size addr x vals dead
      let r := serveAccs (issuePlain s x W vals dead) x.grp size as
      r.1.startPass ⟨0, x.g.id, x.ss, s.beat + r.2, none, none, as.map fun a => (a.lane, a.win.id, a.off, size,
        leBytes (min size 8) (val vals a.lane k).toNat ++
          (if pair then leBytes 8 (val vals a.lane (k + 1)).toNat else []))⟩

/-- STS (R231). [DEDUCED: log entry 24] -/
def execSts (o : OpSB) (s : State) : Host.Outcome State Fault Refusal :=
  stsWord s (shapeStore o.s [.s7 o.a, .s7 o.v] hmNone) o.z o.v 1
    fun v L => addrB (val v L 0) o.o.toInt (scratchSize o.z)

/-- STSX (R231). -/
def execStsx (o : OpSX) (s : State) : Host.Outcome State Fault Refusal :=
  stsWord s (shapeStore o.s [.g7 (o.g.setWidth 7) .whole, .s7 o.x, .s7 o.v] hmNone) o.z o.v 2
    fun v L => addrX (val v L 0) (val v L 1) o.h.toNat

/-! ## Barrier words (R245) -/

/-- The barrier at an offset: its place, or the cause of the fault (R245, R180, R227, R15). [DEDUCED: log entry 21] -/
def barAt (s : State) (G : Group) (a : Word) : Except Nat BarLoc :=
  match scratchCheck s G false 32 a with
  | .ok w off => .ok ⟨w.core, off⟩
  | .bad c => .error c

/-- The object's words are damaged (R381). -/
def barDamaged (s : State) (G : Group) (l : BarLoc) : Bool :=
  match s.winAt G.team l.core with
  | some w => scratchBad s w l.off 32
  | none => false

/-- Correctable errors of the object's words are repaired (R379). -/
def barRepair (s : State) (G : Group) (l : BarLoc) : State :=
  match s.winAt G.team l.core with
  | some w => scratchRepair s G w l.off 32
  | none => s

/-- A BAR word on the barrier whose offset is in uniform g, behind the scratchpad accesses of its stream (R223); `regs`
are the uniforms it reads. [DEDUCED: log entries 21, 25] -/
def barWord (s : State) (legal : Bool) (g : BitVec 6) (regs : List (BitVec 6))
    (k : State → Cx → BarLoc → Host.Outcome State Fault Refusal) : Host.Outcome State Fault Refusal :=
  streamWord s (legal && regs.all fun r => decide (r.toNat < 60)) [] fun s x =>
    if x.acqHeld s then .next (hold s x)
    else match settled s x with
    | (s, none) => .next s
    | (s, some x) => if groupDamaged s x (regs.map fun r => .g7 (r.setWidth 7) .whole) [] then
      .next (groupFatal s x.grp.id 0x42 (64 * x.g.idx))
    else match barAt s x.grp (at' 0 x.g.g g.toNat) with
      | .error c => .next (takeTrap s x c 0 false x.mask none)
      | .ok l =>
        if barDamaged s x.grp l then .next (groupFatal s x.grp.id 0x42 (64 * x.g.idx))
        else k (barRepair (s.repairWhere x (x.readsWhole (regs.map fun r => .g7 (r.setWidth 7) .whole) [])) x.grp l) x l

/-- The stream goes on at the word after. -/
def goOn (s : State) (x : Cx) (st : BitVec 2) : State := s.setGang (x.next s st.toNat)

/-- A barrier-registry fault. -/
def regFault (s : State) (x : Cx) : Host.Outcome State Fault Refusal :=
  .next (takeTrap s x 0x17 0 false x.mask none)

/-- The slices of a group that have retired (R41, R122), as seen by a barrier recorded now. -/
def State.retiredSlices (s : State) (grp : Nat) : Nat :=
  ((s.gangsOf grp).map fun g => (g.slices.filter fun sl =>
    sl.lanes.all (·.dead) || sl.run == .retired).length).sum

/-- Record a barrier in a group's registry (R246). -/
def State.record (s : State) (G : Group) (l : BarLoc) (nsl : Bool) : State :=
  let out := match G.bar? l with | some b => b.out | none => 0
  let s := s.modGroup G.id fun G => { G with bars := G.bars.filter (·.loc != l) ++ [⟨l, nsl, [], [], [], out⟩] }
  if nsl then s
  else
    let o := s.bar G.team l
    s.setBar G.team l { o with expa := o.expa - 4 * s.retiredSlices G.id }

/-- BINIT (R246); the phase is tested when the object has changed (R248). [DEDUCED: log entry 22] -/
def execBinit (o : OpBinit) (s : State) : Host.Outcome State Fault Refusal :=
  let att := o.t == 1#1
  let rec' := att || o.r == 1#1
  let legal := if att then o.e == 0#6 && o.r == 0#1 else o.r == 1#1 || o.n == 0#1
  barWord s legal o.g (if att then [o.g] else [o.g, o.e]) fun s x l =>
    let G := x.grp
    let known := G.bar? l
    let busy := s.waitedOn G.team l ||
      s.groups.any fun H => H.team == G.team && (match H.bar? l with | some b => b.out != 0 | none => false)
    if (rec' && known.isNone && decide (16 ≤ G.bars.length)) || (!att && busy) then regFault s x
    else
      let e := at' 0 x.g.g o.e.toNat
      let s := goOn s x o.s
      let s := if att then s else
        match s.winAt G.team l.core with
        | some w => scratchMend s G w l.off 28
        | none => s
      let old := s.bar G.team l
      let s := if att then s else
        s.setBar G.team l ⟨fld e 0 32, 0, fld e 32 32, 0, 0, false, false, false, 0, 0, old.ainf⟩
      let s := if rec' then s.record G l (o.n == 1#1) else s
      .next (if att && s.bar G.team l == old then s else s.phaseTest G.team l)

/-- Arrivals of one issuing slice (R247, R39): its active lanes, and its dead ones when there is one. -/
def Slice.arrivals (sl : Slice) : Nat :=
  let n := ((rangeFrom 0 4).filter sl.active).length
  if n = 0 then 0 else n + (sl.lanes.filter (·.dead)).length

/-- BARR and BARRX (R247): a release at team scope, then one arrival per lane. In a team of a pair the core's buffer
is drained, the stream goes on (R20), and the arrival follows once everything earlier is acknowledged, as the flag
write of an STO of team scope does (R221). [DEDUCED: log entry 97] -/
def barrWord (s : State) (st : BitVec 2) (g : BitVec 6) (e : Option (BitVec 6)) :
    Host.Outcome State Fault Refusal :=
  barWord s true g (g :: e.toList) fun s x l =>
    let G := x.grp
    let dropped := match G.bar? l with
      | some b => x.ss.any fun i => b.drop.contains (x.g.idx, i)
      | none => false
    if dropped then regFault s x
    else
      let a : Arrival := ⟨l, match e with | some r => fld (at' 0 x.g.g r.toNat) 0 32 | none => 0,
        x.ss.map fun i => ((x.g.idx, i), match x.g.slice? i with | some sl => sl.arrivals | none => 0)⟩
      let d := if s.pairTeam G then drainCore s x else (s, [])
      let waits := d.2
      let s1 := goOn d.1 x st
      .next (if waits.isEmpty then s1.arriveLanes G.id G.team a x.g.pts
        else s1.addWsig ⟨0, x.g.id, G.core, G.part, G.asn, false, 0, [], x.g.pts, waits, none, none, true, some a, []⟩)

/-- BARR (R247). -/
def execBarr (o : OpBarG) (s : State) := barrWord s o.s o.g none
/-- BARRX (R247): g[E] bits 31:0 are added to XB first. -/
def execBarrx (o : OpBarGE) (s : State) := barrWord s o.s o.g (some o.e)

/-- The parity that a MODE tests for a gang (R249); none where the barrier must be recorded and is not. -/
def parityOf (G : Group) (g : Gang) (l : BarLoc) (mode : Nat) : Option Nat :=
  match mode with
  | 0 => match G.bar? l with
    | some b => some (if b.exp.contains g.idx then 1 else 0)
    | none => none
  | 1 => some 0
  | _ => some 1

/-- A success at issue: PTS and EXP move, then an aborted phase faults (R249). -/
def succeedNow (s : State) (x : Cx) (l : BarLoc) (own : Bool) (o : BarObj) (resume : Word) : State :=
  let s := s.succeed x.g x.grp.id l own o
  if !o.abt then s
  else match s.gang? x.g.id, s.group? x.grp.id with
    | some g, some G => takeTrap s ⟨g, G, x.ss⟩ 0x16 0 false x.mask (some resume)
    | _, _ => s

/-- A wait on a barrier's phase (R249, R123): at once when it has completed, else until it does; the
stream goes on at `resume`. -/
def waitWord (s : State) (legal : Bool) (st : BitVec 2) (g : BitVec 6) (mode : Nat) (resume : Cx → Word) :
    Host.Outcome State Fault Refusal :=
  barWord s legal g [g] fun s x l =>
    match parityOf x.grp x.g l mode with
    | none => regFault s x
    | some p =>
      let o := s.bar x.grp.team l
      let dest := resume x
      let s1 := s.setGang (x.issued s st.toNat 0 fun _ _ => dest)
      if o.phase % 2 ≠ p then .next (succeedNow s1 x l (mode == 0) o dest)
      else .next (s1.modGang x.g.id fun g => { g with slices := imap (fun i (sl : Slice) =>
        if x.ss.contains i then { sl with run := .barrier l (mode == 0) dest } else sl) 0 g.slices })

/-- BWAIT, and RDV (R249, R13). -/
def execBwait (o : OpBwait) (s : State) : Host.Outcome State Fault Refusal :=
  waitWord s (o.m != 3#2) o.s o.g o.m.toNat fun x => x.pc + 4

/-- YIELDW (R123): waits as BWAIT with MODE 00, and goes on at its continuation address. -/
def execYieldw (o : OpYieldw) (s : State) : Host.Outcome State Fault Refusal :=
  waitWord s true o.s o.g 0 fun x => x.pc + 4 * o.d.signExtend 64

/-- BTRY (R249): PD := 1 where the phase has completed, else 0. [DEDUCED: log entry 34] -/
def execBtry (o : OpBtry) (s : State) : Host.Outcome State Fault Refusal :=
  barWord s (o.m != 3#2) o.g [o.g] fun s x l =>
    match parityOf x.grp x.g l o.m.toNat with
    | none => regFault s x
    | some p =>
      let ob := s.bar x.grp.team l
      let ok := ob.phase % 2 != p
      let put := fun (_ : Nat) (sl : Slice) => sl.mapLanes fun j ln => match x.first? with
        | some _ => if sl.active j then ln.setPred o.p.toNat ok else ln
        | none => ln
      let s1 := s.setGang (Cx.mapSlices ⟨x.next s o.s.toNat, x.grp, x.ss⟩ put)
      .next (if ok then succeedNow s1 x l (o.m == 0#2) ob (x.pc + 4) else s1)

/-- BDROP (R251): the stream's live slices are dropped from a recorded barrier; one that counts no slice keeps its
counts. The dropped flags are kept per slice. [DEDUCED: log entry 23] -/
def execBdrop (o : OpBarG) (s : State) : Host.Outcome State Fault Refusal :=
  barWord s true o.g [o.g] fun s x l =>
    let s1 := goOn s x o.s
    match x.grp.bar? l with
    | none => .next s1
    | some b =>
      let keys := x.ss.map fun i => (x.g.idx, i)
      let s2 := s1.modGroup x.grp.id fun G => G.modBar l fun b =>
        { b with drop := b.drop ++ keys.filter fun k => !b.drop.contains k }
      .next (if b.nsl then s2
        else (keys.foldl (fun s k => s.lowerFor x.grp.id x.grp.team l k) s2).phaseTest x.grp.team l)

/-- BDROP.rel (R251): the offset leaves the registry. -/
def execBdropRel (o : OpBarG) (s : State) : Host.Outcome State Fault Refusal :=
  barWord s true o.g [o.g] fun s x l =>
    match x.grp.bar? l with
    | none => .next (goOn s x o.s)
    | some b =>
      if s.waitedOn x.grp.team l || b.out != 0 then regFault s x
      else .next ((goOn s x o.s).modGroup x.grp.id fun G => { G with bars := G.bars.filter (·.loc != l) })

end Sys2Proof.Machine
end

