-- ==== Sys2Proof/Machine/Doc.lean ====
section
/-!
DEFINITION. Decide-once words (R258 to R271): PROP, DREAD, RECYC and DSTAT, what the home of a cell does
with each, decided copies, and the reply.
-/

namespace Sys2Proof.Machine

/-! ## Identities and results (R259, R262) -/

/-- The winner identity of a lane (R259). -/
def identity (s : State) (G : Group) (gang lane : Nat) : Nat :=
  s.devnum * 2 ^ 51 + G.part * 2 ^ 48 + G.lid * 2 ^ 32 + ident32 G gang lane

/-- The result word (R262). -/
def docResult (gen sts : Nat) : Word := BitVec.ofNat 64 (gen % 2 ^ 22 * 256 + sts)

/-! ## At the home -/

/-- What homes a cell: a line of this device, the bridge, or another device. -/
inductive DocHome where
  | here (r : LineRef)
  | bridge
  | far
  deriving DecidableEq, Repr

/-- The memory address of the cell that a request names. -/
def docKey (q : Req) (l : Leaf) (h : DocHome) : Nat :=
  match h with
  | .far => remoteLine q.dev q.va * 128 + q.va % 128
  | _ => l.key q.va

/-- A read of the cell's line at its home (R202); outside this device no timestamp is kept. -/
def docRead (s : State) (q : Req) (h : DocHome) (k : State → TS → State) : State :=
  match h with
  | .here r => (match readAt s r q.core q.t none false q.again with
    | .held s h => s.holdReq q h
    | .done s wts _ _ => k s wts)
  | _ => k s 0

/-- A write of the whole cell at its home (R203, R423). [DEDUCED: log entry 28] -/
def docWrite (s : State) (q : Req) (h : DocHome) (key : Nat) (c : Cell) (k : State → TS → State) : State :=
  let mask := maskAt (q.va % 128) 64
  let data := lineAt (q.va % 128) c.bytes
  match h with
  | .here r => (match writeAt s r q.core (s.writeTime q) mask data false q.again with
    | .held s h => s.holdReq q h
    | .done s wts _ _ => k s wts)
  | .far => remotePoke s q mask data fun s => k s 0
  | .bridge => k (s.pokeMasked (key / 128 * 128) 0 mask data) 0

/-- DTS and DPT of a decided cell; a cell without them takes them now (R260). The bridge keeps a DPT for good. [DESIGN CHOICE: log entry 104] -/
def decidedAt (s : State) (h : DocHome) (key : Nat) (wts : TS) : State × TS × Nat :=
  match h with
  | .here r =>
    let up := key / 64 % 2 == 1
    match (s.l2? r).bind fun x => if up then x.d1 else x.d0 with
    | some d => (s, d)
    | none =>
      let d := some (wts, s.ptp)
      (s.modL2 r fun x => if up then { x with d1 := d } else { x with d0 := d }, wts, s.ptp)
  | _ => match s.cells.find? (·.1 == key) with
    | some d => (s, 0, d.2)
    | none => ({ s with cells := (key, s.ptp) :: s.cells }, 0, s.ptp)

/-- A DOC word has reached a cell: a DECIDED one without DTS and DPT takes them now (R260). -/
def docSeen (s : State) (h : DocHome) (key : Nat) (c : Cell) (wts : TS) : State :=
  if c.st = 1 then (decidedAt s h key wts).1 else s

/-- A decision, or its recycling, was written: what the home keeps beside the cell, and no word's earlier decision of the
cell counts any more. [DEDUCED: log entry 26] -/
def decidedNow (s : State) (h : DocHome) (key : Nat) (d : Option TS) : State :=
  let s := { s with
    farWon := s.farWon.filter (·.1 != key)
    ops := s.ops.map fun (o : Op) => { o with won := o.won.filter (· != key) } }
  match h with
  | .here r => s.modL2 r fun x =>
      if key / 64 % 2 = 1 then { x with d1 := d.map fun t => (t, s.ptp) }
      else { x with d0 := d.map fun t => (t, s.ptp) }
  | .far => { s with cells := (key, s.ptp) :: s.cells.filter (·.1 != key) }
  | .bridge => { s with cells := (if d.isSome then [(key, s.ptp)] else []) ++ s.cells.filter (·.1 != key) }

/-- The words of VAL that a lane's value registers take. -/
def docRegs (lane b n : Nat) (val : List Byte) : List (Nat × Nat × Word) :=
  (rangeFrom 0 n).map fun i => (b + i, lane, leWord ((val.drop (8 * i)).take 8))

/-- Reply to a lane: result word, register writes, and the PTS it raises for a local cell (R264, R222). -/
def docAnswer (s : State) (q : Req) (h : DocHome) (lane sts : Nat) (c : Cell)
    (regs : List (Nat × Nat × Word)) (pts : TS) : State :=
  let s := match h with | .here _ => s.raisePts q.gang pts | _ => s
  let s := s.tell q (.doc sts c.gen c.val c.wid pts)
  ((s.answer q.op fun o => { o with vals := o.vals ++ [(lane, docResult c.gen sts)], regs := o.regs ++ regs }).dropReq
    q.id).endPoke

/-- A lane of a request. -/
def ReqKind.docLane : ReqKind → Nat
  | .prop l _ _ _ _ _ _ => l
  | .dread l _ _ _ => l
  | .recyc l _ _ => l
  | .dstat l => l
  | _ => 0

/-- Does the request's word hold a proposal that decided the cell? [DEDUCED: log entry 26] -/
def docWonBy (s : State) (q : Req) (key : Nat) : Bool :=
  match q.src with
  | some w => s.farWon.contains (key, w)
  | none => match q.op.bind s.op? with
    | some o => o.won.contains key
    | none => false

/-- The request's word has decided the cell. -/
def docNote (s : State) (q : Req) (key : Nat) : State :=
  match q.src with
  | some w => { s with farWon := (key, w) :: s.farWon }
  | none => match q.op with
    | some o => s.modOp o fun o => { o with won := key :: o.won }
    | none => s

/-- A decided copy of a cell in the core's L1, and for a cell of another device in this device's L2 too,
where a way of its set holds it (R267). [DEDUCED: log entry 27] -/
def docCopy (s : State) (q : Req) (h : DocHome) (gen : Nat) (dts : TS) (bs : List Byte) : State :=
  let kept := match h with | .here _ => some dts | _ => none
  let copy := fun (core : Nat) (stamp : Nat) =>
    (⟨core, q.part, q.asn, q.dev * 2 ^ 48 + q.va, bs, .decided gen kept, s.cycle, false, stamp, 0⟩ : L1Line)
  let s1 := s.fillL1 (copy q.core s.stamp)
  match h with
  | .far => (match (rangeFrom 0 Config.chiplets).find? fun k => (s.part q.part).l2en k with
    | none => s1
    | some k =>
      match s1.ensureL2 ⟨k, q.part, 16, q.va / 128 * 128, remoteLine q.dev q.va⟩ false with
      | none => s1
      | some s2 =>
        let c := copy 144 s2.stamp
        { s2 with l1 := c :: s2.l1.filter fun d => !(d.core == 144 && d.part == q.part && d.asn == q.asn && d.va == c.va) })
  | _ => s1

/-- What a DREAD's copy of another device's cell waits for: a way of its set in this device's L2 (R267, R447). -/
def docRoom (s : State) (q : Req) : Option Hold :=
  match (rangeFrom 0 Config.chiplets).find? fun k => (s.part q.part).l2en k with
  | none => none
  | some k =>
    let r : LineRef := ⟨k, q.part, 16, q.va / 128 * 128, remoteLine q.dev q.va⟩
    if (s.ensureL2 r false).isSome then none else some (s.roomHold r)

/-- Another device's cell is known to this device from now on, with the free time of a decision that it may hold. -/
def farSeen (s : State) (key : Nat) : State :=
  if s.cells.any (·.1 == key) then s
  else
    let c := s.choose (2 ^ 64 - 1)
    { c.2 with cells := (key, min c.1 s.ptp) :: c.2.cells }

/-- A cell is malformed (R270): another device is told, and a group of this device ends. -/
def docMalformed (s : State) (q : Req) (lane : Nat) : State :=
  if q.src.isSome then ((s.dropReq q.id).tell q (.refused 0x1B)).endPoke
  else failGang (dropFailed s q) q.gang 0x1B lane

/-- Serve a decide-once request at the home of its cell (R264, R267, R268). [DEDUCED: log entry 26; DESIGN CHOICE: log entry 101] -/
def docServe (s : State) (q : Req) (l : Leaf) (h : DocHome) : State :=
  let key := docKey q l h
  let lane := q.kind.docLane
  let s := match h with
    | .here r => s.correct r
    | .far => farSeen (farLine s (key / 128)) key
    | .bridge => s
  let bs := s.mem.read key 64
  if badBeneath s (key / 128) &&& maskAt (key % 128) 64 ≠ 0 then
    ((((s.answer q.op fun o => { o with dead := o.dead ++ [lane] }).dropReq q.id).killAnswered q [lane]).tell q
      .poisoned).endPoke
  else match cellOf bs with
  | none => docMalformed s q lane
  | some c =>
    match q.kind with
    | .prop _ g b n val wid time =>
      if g ≠ c.gen then docRead s q h fun s wts => docAnswer (docSeen s h key c wts) q h lane 4 c [] wts
      else if c.st = 0 then
        let c : Cell := { c with val := val, wid := wid, st := 1 }
        docWrite s q h key c fun s wts =>
          let s := decidedNow s h key (some wts)
          docAnswer (docNote s q key) q h lane 0 c (docRegs lane b n val) wts
      else docRead s q h fun s wts =>
        let d := decidedAt s h key wts
        let late := match h, q.src with
          | .here _, none => TS.le d.2.1 q.t
          | _, _ => decide (d.2.2 ≤ time)
        let sts := if c.wid = wid then 1 else if docWonBy s q key then 2 else if late then 3 else 2
        docAnswer d.1 q h lane sts c (docRegs lane b n c.val) d.2.1
    | .dread _ g b n =>
      match (if h == .far && q.src.isNone && g == c.gen && c.st == 1 then docRoom s q else none) with
      | some w => s.holdReq q w
      | none => docRead s q h fun s wts =>
        let grp := match s.groupOf q.gang with | some G => G.id | none => 0
        let s := (s.replayRead grp (farKey q.dev q.va) bs).1
        if g ≠ c.gen then docAnswer (docSeen s h key c wts) q h lane 4 c [] wts
        else if c.st = 0 then docAnswer s q h lane 6 c [] wts
        else
          let d := decidedAt s h key wts
          let regs := if n = 0 then [(b, lane, BitVec.ofNat 64 c.wid)] else docRegs lane b n c.val
          docAnswer (if q.src.isSome then d.1 else docCopy d.1 q h c.gen d.2.1 bs) q h lane 5 c regs d.2.1
    | .recyc _ g own =>
      if g = c.gen ∧ c.st = 1 ∧ c.wid / 2 ^ 32 = own then
        let c : Cell := ⟨List.replicate 32 0, 0, (g + 1) % 2 ^ 22, 0⟩
        docWrite s q h key c fun s wts =>
          docAnswer (decidedNow s h key none) q h lane 6 c [] wts
      else docRead s q h fun s wts =>
        docAnswer (docSeen s h key c wts) q h lane (if g ≠ c.gen then 4 else if c.st = 0 then 6 else 7) c [] wts
    | _ =>
      docRead s q h fun s wts =>
        let grp := match s.groupOf q.gang with | some G => G.id | none => 0
        docAnswer (docSeen (s.replayRead grp (farKey q.dev q.va) bs).1 h key c wts) q h lane (if c.st = 0 then 6 else 5) c [] wts

/-- Is the request a RECYC? -/
def ReqKind.recycles : ReqKind → Bool
  | .recyc _ _ _ => true
  | _ => false

/-- A decide-once request arrives at its home; a cell in host memory is homed at the bridge (R261, R404). Another
device's is checked against the page here too (R194, R270); this device's own is not, where its page was absent at issue. [DESIGN CHOICE: log entry 102] -/
def docHome (req : Nat) (write : Bool) (s : State) : State :=
  match s.req? req with
  | none => s
  | some q => atHome s q fun s l =>
    let R : AccRule := { rd := !q.kind.recycles, wr := write, doc := true }
    if q.dev ≠ 0 then docServe s q l .far
    else if q.src.isSome && (leafCause s.devnum R l).isSome then
      ((s.dropReq q.id).tell q (.refused ((leafCause s.devnum R l).getD 0))).endPoke
    else if l.host then s.post (if write then .bridgeDeviceWrite q.id else .bridgeDeviceRead q.id)
    else docServe s q l (.here (l.lineRef q.part q.asn q.va))

/-- A decide-once request of this device, or of another with its kind (R426). -/
def docAsk (write : Bool) (k : FarReq → ReqKind) (a : Ask) (s : State) : State :=
  match a with
  | .req id => docHome id write s
  | .far r => s.comeIn r r.va (k r)

/-- HOME_PROP (R264). -/
def execHomeProp (req : Ask) (s : State) : Host.Outcome State Fault Refusal :=
  .next (docAsk true (fun r => .prop 0 r.gen 0 4 ((r.val ++ List.replicate 32 0).take 32) r.wid r.time) req s)
/-- HOME_DREAD (R267). -/
def execHomeDread (req : Ask) (s : State) : Host.Outcome State Fault Refusal :=
  .next (docAsk false (fun r => .dread 0 r.gen 0 4) req s)
/-- HOME_RECYC (R268). -/
def execHomeRecyc (req : Ask) (s : State) : Host.Outcome State Fault Refusal :=
  .next (docAsk true (fun r => .recyc 0 r.gen (r.wid / 2 ^ 32)) req s)
/-- HOME_DSTAT (R267). -/
def execHomeDstat (req : Ask) (s : State) : Host.Outcome State Fault Refusal :=
  .next (docAsk false (fun _ => .dstat 0) req s)

/-! ## The words (R261 to R263) -/

/-- The decided copy that serves a DREAD with generation g (R267). -/
def State.decidedCopy? (s : State) (G : Group) (dev va g : Nat) : Option (L1Line × Option TS) :=
  (s.l1.filterMap fun c => match c.lease with
    | .decided gen dts => if (c.core == G.core || (c.core == 144 && dev != 0)) && c.part == G.part &&
        c.asn == G.asn && c.va == dev * 2 ^ 48 + va && gen == g then some (c, dts) else none
    | _ => none).head?

/-- A promotion of a decided copy that served a read. -/
def State.hitDecided (s : State) (c : L1Line) : State :=
  if c.core < 144 then s.hitL1 c false
  else { s with
    l2 := s.l2.map fun x => if x.farCopy c then { x with lru := s.stamp } else x
    stamp := s.stamp + 1 }

/-- One lane of a DREAD: from a copy, or a request. -/
def dreadLane (x : Cx) (op b n g : Nat) (s : State) (a : LaneAcc) : State :=
  match s.decidedCopy? x.grp a.dev a.va g with
  | some (c, dts) =>
    let regs := match cellOf c.data with
      | some d => if n = 0 then [(b, a.lane, BitVec.ofNat 64 d.wid)] else docRegs a.lane b n d.val
      | none => []
    let s := s.hitDecided c
    let s := match dts with | some t => s.raisePts x.g.id t | none => s
    let s := (s.replayRead x.grp.id (farKey a.dev a.va) c.data).1
    s.modOp op fun o => { o with
      vals := o.vals ++ [(a.lane, docResult g 5)], regs := o.regs ++ regs, waits := o.waits - 1 }
  | none =>
    let t := match s.gang? x.g.id with | some g => g.pts | none => 0
    s.send (.dread a.lane g b n) x.grp.core x.g.id (some op) x.grp.part x.grp.asn a.va a.dev t

/-- The reply of an operation of which nothing is outstanding comes a number of beats later that the spec
leaves open. -/
def State.replySoon (s : State) (op : Nat) : State :=
  let r := s.choose 63
  r.2.postAt (4 * (s.beat + 1 + r.1)) (.docReply op)

/-- A DOC word: its checks, its operation, and one request per lane in ascending order, those of one line looking it up
once (R273). `regs` are the
value registers it writes; `lane` sends one lane's request. A word with a cell on another device stands
at issue until every reply is there, since its fabric fault is precise (R419). [DEDUCED: log entry 26] -/
def docWord (s : State) (st : BitVec 2) (a : BitVec 7) (more : List (BitVec 7)) (regs : List Nat)
    (k : BitVec 3) (legal write reads bad : Bool)
    (lane : Cx → List (List Word) → Nat → State → LaneAcc → State) : Host.Outcome State Fault Refusal :=
  let srcs := Src.s7 a :: more.map Src.s7
  let W : Shape := { st := st.toNat, srcs := srcs, dst := .push, lat := 0, sb := some (1, 1), hdst := true
                     legal := (k == 3#3 || k == 4#3) && legal }
  let R : AccRule := { rd := reads, wr := write, doc := true, align := 64, scope := some k.toNat }
  let A : Accs := accAll R fun _ v L => val v L 0
  laneGateW s W (fun x v => if regs.any fun r => x.morePending r then some s else accWait s true A x v)
    (fun x v => accCauses s A x v) Cx.enOf (fun _ _ _ => { val := 0 }) fun x vals _ dead =>
      let accs := accOk s A x vals dead
      let far := accs.any fun c => c.dev != 0
      let s0 := if bad then s.spoilAudit x.grp.id else s
      let op := { openOp s0 x W accs.length (if far then [] else dead) with
        doc := true, block := far, marks := a :: more, dead := dead }
      let s1 := if far then hold { s0 with fresh := op.id + 1, ops := s0.ops ++ [op] } x
        else regs.foldl (fun s r => s.reserveMore x r op.id) (issueOp s0 x W vals dead op)
      let s2 := accs.foldl (fun s a => (lane x vals op.id s a).modReq s.fresh fun q => { q with
        again := s.reqs.any fun p => p.op == some op.id && p.onLine q.core q.part q.asn q.dev q.va }) s1
      match s2.op? op.id with
      | some o => if o.waits = 0 then s2.replySoon op.id else s2
      | none => s2

/-- The number of value registers that SZ gives (R261): 0 for the identity form. -/
def docCount (z : BitVec 2) : Nat := if z = 3#2 then 0 else 2 ^ z.toNat

/-- The value registers. -/
def docValueRegs (b : BitVec 7) (n : Nat) : List Nat := rangeFrom (s7reg b) (max n 1)

/-- B is a register that SZ allows (R261). -/
def docBok (b : BitVec 7) (n : Nat) : Bool := decide (s7reg b < 16) && s7reg b % (max n 1) == 0

/-- The expected generation of a lane (R261). -/
def docGen (v : List (List Word)) (L : Nat) : Nat := fld (val v L 1) 0 22

/-- PROP (R263). The proposal carries both times, the gang's PTS as the request's own timestamp and PTPNOW; the home
compares the one that its place asks for. -/
def execProp (o : OpDoc) (s : State) : Host.Outcome State Fault Refusal :=
  let n := docCount o.z
  docWord s o.s o.a (nextReg o.a :: (rangeFrom 0 (max n 1)).map fun i => o.b + BitVec.ofNat 7 i) (docValueRegs o.b n)
    o.k (o.z != 3#2 && evenN o.a && docBok o.b n) true true true fun x v op s a =>
      let bytes := ((rangeFrom 0 n).map fun i => leBytes 8 (val v a.lane (2 + i)).toNat).flatten
      let t := match s.gang? x.g.id with | some g => g.pts | none => 0
      s.send (.prop a.lane (docGen v a.lane) (s7reg o.b) n ((bytes ++ List.replicate 32 0).take 32)
        (identity s x.grp x.g.idx a.lane) s.ptp) x.grp.core x.g.id (some op) x.grp.part x.grp.asn a.va a.dev t

/-- DREAD (R267). -/
def execDread (o : OpDoc) (s : State) : Host.Outcome State Fault Refusal :=
  let n := docCount o.z
  docWord s o.s o.a [nextReg o.a] (docValueRegs o.b n) o.k (evenN o.a && docBok o.b n) false true false
    fun x v op s a => dreadLane x op (s7reg o.b) n (docGen v a.lane) s a

/-- RECYC (R268). -/
def execRecyc (o : OpDoc1) (s : State) : Host.Outcome State Fault Refusal :=
  docWord s o.s o.a [nextReg o.a] [] o.k (evenN o.a) true false true fun x v op s a =>
    let t := match s.gang? x.g.id with | some g => g.pts | none => 0
    s.send (.recyc a.lane (docGen v a.lane) (identity s x.grp 0 0 / 2 ^ 32)) x.grp.core x.g.id (some op)
      x.grp.part x.grp.asn a.va a.dev t

/-- DSTAT (R267). -/
def execDstat (o : OpDoc1) (s : State) : Host.Outcome State Fault Refusal :=
  docWord s o.s o.a [] [] o.k true false true false fun x _ op s a =>
    let t := match s.gang? x.g.id with | some g => g.pts | none => 0
    s.send (.dstat a.lane) x.grp.core x.g.id (some op) x.grp.part x.grp.asn a.va a.dev t

/-! ## The reply (R262, R264, R419) -/

/-- Write further named registers at once. -/
def State.writeRegs (s : State) (o : Op) : State :=
  let val := fun (r L : Nat) => if o.dead.contains L then none
    else (o.regs.find? fun e => e.1 == r && e.2.1 == L).map (·.2.2)
  let put := fun (i : Nat) (sl : Slice) => if o.slices.contains i then
      (o.regs.map (·.1)).eraseDups.foldl (fun (sl : Slice) r =>
        sl.writeNamed r ⟨sl.clock, 0, 0, none⟩ fun j => val r (4 * i + j)) sl
    else sl
  s.modGang o.gang fun g => { g with slices := imap put 0 g.slices }

/-- A word that stood at issue for replies of other devices commits, or takes its fabric fault with the
lanes whose replies did not come; then no lane has written anything (R419). [DEDUCED: log entry 26] -/
def docCommit (s : State) (o : Op) : State :=
  match s.gang? o.gang with
  | none => s
  | some g => match s.group? g.group with
    | none => s
    | some G =>
      let x : Cx := ⟨g, G, o.slices⟩
      if !o.fabric.isEmpty then takeTrap s x 0x1C 0 false (maskOf o.fabric) none
      else
        let dst : Dst := match o.reg with
          | some r => .d5 r
          | none => if o.push then .d5 16 else .none
        let W : Shape := { st := o.st, srcs := o.marks.map Src.s7, dst := dst, lat := 0 }
        let outs := fun (L : Nat) => ({ val := (o.valueAt L).getD 0 } : LaneOut)
        (finishLane s W false x (allVals s.beat g W.srcs) outs o.dead).writeRegs o

/-- DOC_REPLY: every lane of a decide-once word has its reply. -/
def execDocReply (op : Nat) (s : State) : Host.Outcome State Fault Refusal :=
  match s.op? op with
  | none => .next s
  | some o =>
    if o.waits ≠ 0 ∨ !o.doc then .next s
    else if o.block then .next (docCommit { s with ops := s.ops.filter (·.id != o.id) } o)
    else .next (returnOp s o)

end Sys2Proof.Machine
end

