-- ==== Sys2Proof/Machine/Engine.lean ====
section
/-!
DEFINITION. What the stream and matrix engines share: reads and writes of global memory at an engine
timestamp (R22, R281), host granules as the bridge holds them (R404), claims of scratchpad tiles (R282,
R326), and the words of both engines as a gang issues them (R9, R10).
-/

namespace Sys2Proof.Machine

/-! ## Global memory (R281) -/

/-- Where an engine's access goes. -/
inductive EngPage where
  | leaf (s : State) (va : Nat) (l : Leaf)
  | far (s : State) (dev va : Nat)
  | wait (s : State)
  | fabric
  | absent (s : State) (va : Nat)
  | bad (cause : Nat)

/-- The checks of an engine's access (R194, R281); a page of another device is checked against the core's attribute
TLB (R192). A page inside a drain procedure waits (R195). -/
def engPage (s : State) (core part asn : Nat) (R : AccRule) (a : Word) : EngPage :=
  match gaddr s a with
  | none => .bad 0x10
  | some (dev, va) =>
    if va % R.align ≠ 0 then .bad 0x15
    else if dev ≠ 0 then
      if !s.joined then .fabric
      else
        let f := match s.tlb? core part asn (farKey dev va) with
          | some l => (l, s)
          | none => let f := farLeaf s dev va
            (f.1, f.2.fillTlb core part asn f.1)
        match leafCause s.devnum R f.1 with
        | some c => .bad c
        | none => .far f.2 dev va
    else if s.draining part asn va then .wait s
    else match translate s part asn va with
      | (.absent, s) => .absent (s.notPresent part asn va) va
      | (.malformed, _) => .bad 0x14
      | (.held h, s) => .wait (s.onHold h 0)
      | (.leaf l, s) => match leafCause s.devnum R l with
        | some c => .bad c
        | none => .leaf s va l

/-- What an engine's access comes to: done with bytes and a timestamp, sent as a request, tried again, at
a device that has not joined, at a page that is not present, or refused with a cause. -/
inductive EngRes where
  | ok (s : State) (bytes : List Byte) (wts : Option TS)
  | sent (s : State) (req : Nat)
  | wait (s : State)
  | fabric
  | absent (s : State) (va : Nat)
  | bad (cause : Nat)

/-- A read made at once of `n` bytes inside one line, at its home under R202 at timestamp `t`: by the hub, or by a
word that holds its stream meanwhile. A line of another device is read as its home holds it. [DEDUCED: log entry 63] -/
def readNow (s : State) (core part asn : Nat) (t : TS) (R : AccRule) (a : Word) (n : Nat) : NowRes :=
  let from' := fun (s : State) (line off : Nat) (w : Option TS) =>
    if badMask s line &&& maskAt off n ≠ 0 then NowRes.bad 0x41 else .ok s (s.mem.read (line * 128 + off) n) w
  match engPage s core part asn R a with
  | .wait s => .wait s
  | .fabric => .wait s
  | .absent s va => .absent s va
  | .bad c => .bad c
  | .far s dev va => let line := remoteLine dev va
    from' (farLine s line) line (va % 128) none
  | .leaf s va l =>
    let line := l.key (va / 128 * 128) / 128
    match s.repRead part asn va l with
    | .wait s => .wait s
    | .home s =>
      let home := s.homeOf part asn va
      if home = s.devnum then from' s line (va % 128) none
      else
        let ln := remoteLine home va
        from' (farLine s ln) ln (va % 128) none
    | .free =>
    if l.host then
      (match s.hostFree line with
      | .ok s => from' s line (va % 128) none
      | .error s => .wait s)
    else match readAt s (l.lineRef part asn va) 144 t none false with
      | .held s h => .wait (s.onHold h 0)
      | .done s wts _ _ => from' s line (va % 128) (some wts)

/-- A run of bytes cut at lines: address and number. [DESIGN CHOICE: log entry 69] -/
def linePieces (va n : Nat) : List (Nat × Nat) :=
  if n = 0 then []
  else (rangeFrom (va / 128) ((va + n - 1) / 128 - va / 128 + 1)).map fun k =>
    (max va (k * 128), min (va + n) (k * 128 + 128) - max va (k * 128))

/-- The same for a run of bytes of several lines. -/
def readRun (s : State) (core part asn : Nat) (t : TS) (R : AccRule) (a : Word) (n : Nat) : NowRes :=
  (linePieces (a.toNat) n).foldl (fun acc c => match acc with
    | .ok s bs w => match readNow s core part asn t R (BitVec.ofNat 64 c.1) c.2 with
      | .ok s more v => .ok s (bs ++ more) (match w, v with
        | some x, some y => some (smax x y)
        | x, none => x
        | none, y => y)
      | r => r
    | r => r) (.ok s [] none)

/-- Who reads or writes for an engine: its core, the space it works in, its group (0: none), and the command and the
element (or place) it works at. -/
structure EngBy where
  core : Nat
  part : Nat
  asn  : Nat
  grp  : Nat
  cmd  : Nat
  elem : Nat
  et   : TS
  ef   : Bool
  deriving DecidableEq, Repr

/-- A read of `n` bytes inside one line at its home under R202 at timestamp `et`. A line of another device, and a
replica's locked line (R425), is read by a request, whose answer is awaited. [DEDUCED: log entry 35] -/
def engRead (s : State) (b : EngBy) (n : Nat) (align : Nat) (a : Word) : EngRes :=
  let ask := fun (s : State) (dev va : Nat) =>
    EngRes.sent (s.send (.fetch b.cmd b.elem (va % 128) n b.ef) 144 0 none b.part b.asn (va / 128 * 128) dev b.et) s.fresh
  match engPage s b.core b.part b.asn { rd := true, align := align } a with
  | .wait s => .wait s
  | .fabric => .fabric
  | .absent s va => .absent s va
  | .bad c => .bad c
  | .far s dev va => ask s dev va
  | .leaf s va l =>
    let line := l.key (va / 128 * 128) / 128
    let got := fun (s : State) => s.replayRead b.grp va (s.mem.read (l.key va) n)
    if s.lockedLine b.part b.asn va l then ask s 0 va
    else if badBeneath s line &&& maskAt (va % 128) n ≠ 0 then .bad 0x41
    else if l.host then
        (match s.hostFree line with
        | .ok s =>
          let r := got s
          .ok r.1 r.2 none
        | .error s => .wait s)
      else match readAt s (l.lineRef b.part b.asn va) 144 b.et none b.ef with
        | .held s h => .wait (s.onHold h 0)
        | .done s wts _ _ =>
          let r := got s
          .ok r.1 r.2 (some wts)

/-- A write inside one line at timestamp `et` (R203), noted for the audit of its group. A line of another
device, of host memory or of a replicated page is written by a request, whose acknowledgement is awaited. -/
def engWrite (s : State) (b : EngBy) (align : Nat) (a : Word) (bytes : List Byte) : EngRes :=
  let go := fun (s : State) (dev va : Nat) (k : State → BitVec 128 → List Byte → EngRes) =>
    let line := farKey dev (va / 128 * 128)
    let mask := maskAt (va % 128) bytes.length
    let data := (lineAt (va % 128) bytes ++ List.replicate 128 0).take 128
    let s := s.shadow b.grp line mask data
    let mask := s.replayMask b.grp line mask
    if mask = 0 then EngRes.ok s [] none else k s mask data
  match engPage s b.core b.part b.asn { wr := true, align := align } a with
  | .wait s => .wait s
  | .fabric => .fabric
  | .absent s va => .absent s va
  | .bad c => .bad c
  | .far s dev va => go s dev va fun s mask data =>
      .sent (s.send (.write mask data [] b.ef false) 144 0 none b.part b.asn (va / 128 * 128) dev b.et) s.fresh
  | .leaf s va l => go s 0 va fun s mask data =>
      if l.host || l.mode == 4 then
        .sent (s.send (.write mask data [] b.ef false) 144 0 none b.part b.asn (va / 128 * 128) 0 b.et) s.fresh
      else match writeAt s (l.lineRef b.part b.asn va) 144 b.et mask data b.ef with
        | .held s h => .wait (s.onHold h 0)
        | .done s wts _ _ => .ok s [] (some wts)

/-! ## Tiles and claims (R282) -/

/-- A claim of a tile by a command; none where it conflicts, or where the tile is owned T: a write claim conflicts
with every other claim of the tile, the command's own read claim too, a read claim with another command's write
claim (R282). -/
def claimTile (s : State) (win t cmd : Nat) (write : Bool) : Option State :=
  match s.windows.find? (·.id == win) with
  | none => none
  | some w =>
    let tile := w.tile t
    if !tile.engine then none
    else if write then
      (if tile.wclaim == some cmd then some s
      else if tile.wclaim.isSome || !tile.rclaim.isEmpty then none
      else some (s.modTile win t fun x => { x with wclaim := some cmd }))
    else if tile.wclaim == some cmd then some s
    else if tile.wclaim.isSome then none
    else if tile.rclaim.contains cmd then some s
    else some (s.modTile win t fun x => { x with rclaim := x.rclaim ++ [cmd] })

/-- Drop a command's claim of a tile; a tile whose last claim goes becomes owned T. Also: did it? -/
def dropClaim (s : State) (win t cmd : Nat) : State × Bool :=
  match s.windows.find? (·.id == win) with
  | none => (s, false)
  | some w =>
    let tile := w.tile t
    if tile.wclaim == some cmd || tile.rclaim.contains cmd then
      let x := { tile with
        wclaim := if tile.wclaim == some cmd then none else tile.wclaim
        rclaim := tile.rclaim.filter (· != cmd) }
      let idle := x.wclaim.isNone && x.rclaim.isEmpty
      (s.modTile win t fun _ => { x with engine := !idle }, idle)
    else (s, false)

/-- Every tile that a command claims: window and tile. -/
def State.claimsOf (s : State) (cmd : Nat) : List (Nat × Nat) :=
  (s.windows.map fun w => (imap (fun t (x : Tile) =>
    if x.wclaim == some cmd || x.rclaim.contains cmd then [(w.id, t)] else []) 0 w.tiles).flatten).flatten

/-! ## Engine words (R9, R10) -/

/-- Is a field a uniform register? -/
def uniOk (r : BitVec 6) : Bool := decide (r.toNat < 60)

/-- Parting (R10). -/
def partedEngine (x : Cx) : List (Nat × Word) := if x.g.unified then [] else [(0x21, x.mask)]

/-- A word of an engine: its fields, hints, the hold behind an acquire or where `wait` says so, and the scratchpad
accesses of its stream before it (R223); its checks `causes`, the lowest of which is raised; then what it does. -/
def engineWordW (s : State) (legal : Bool) (regs : List (BitVec 6)) (wait : Cx → Bool)
    (causes : State → Cx → List Nat)
    (k : State → Cx → Host.Outcome State Fault Refusal) : Host.Outcome State Fault Refusal :=
  streamWord s (legal && regs.all uniOk) [] fun s x =>
    if x.acqHeld s || wait x then .next (hold s x)
    else match settled s x with
    | (s, none) => .next s
    | (s, some x) => if groupDamaged s x (regs.map fun r => .g7 (r.setWidth 7) .whole) [] then
      .next (groupFatal s x.grp.id 0x42 (64 * x.g.idx))
    else match lowest (partedEngine x ++ (causes s x).map fun c => (c, x.mask)) with
      | some (c, m) => .next (takeTrap s x c 0 false m none)
      | none => k (s.repairWhere x (x.readsWhole (regs.map fun r => .g7 (r.setWidth 7) .whole) [])) x

/-- A word of an engine that waits for nothing more. [DEDUCED: log entry 24] -/
def engineWord (s : State) (legal : Bool) (regs : List (BitVec 6)) (causes : State → Cx → List Nat)
    (k : State → Cx → Host.Outcome State Fault Refusal) : Host.Outcome State Fault Refusal :=
  engineWordW s legal regs (fun _ => false) causes k

/-- The value of a uniform register. -/
def Cx.uni (x : Cx) (r : BitVec 6) : Word := at' 0 x.g.g r.toNat

/-- The barrier that an engine command credits (R279, step 3): in a tile owned by threads and recorded in the
group's registry. An unrecorded one in a tile owned E fails both checks, and the lower cause counts. -/
def engineBar (s : State) (G : Group) (a : Word) : Except Nat BarLoc :=
  match scratchAt s G a with
  | none => .error 0x10
  | some (w, off) =>
    if off % 32 ≠ 0 then .error 0x15
    else if (G.bar? ⟨w.core, off⟩).isNone then .error 0x17
    else if (w.tile (off / 4096)).engine then .error 0x20
    else .ok ⟨w.core, off⟩

/-- A forked program all of whose words are queued and completed has completed (R371). -/
def State.progTest (s : State) (prog : Option Nat) : State :=
  match prog.bind s.prog? with
  | none => s
  | some p =>
    if p.done && !(s.sx.any (·.prog == some p.id)) && !(s.mx.any (·.prog == some p.id)) then
      s.postOnce (.forkProgramComplete p.id)
    else s

/-- A program's timestamp takes in that of a command it queued. -/
def State.progTime (s : State) (prog : Option Nat) (t : TS) : State :=
  match prog with
  | some p => s.modProg p fun p => { p with et := smax p.et t }
  | none => s

end Sys2Proof.Machine
end

