-- ==== Sys2Proof/Machine/Stream.lean ====
section
/-!
DEFINITION. The stream engine (R275 to R294): pattern records, the data commands as they issue, start,
land their elements, park, resume and abort, and the words that act at issue.
-/

namespace Sys2Proof.Machine

/-! ## Pattern records (R275 to R277) -/

/-- A field of a record: `n` bytes from byte `i`. -/
def recNat (bs : List Byte) (i n : Nat) : Nat := leNat ((bs.drop i).take n)

/-- The record in 64 bytes. -/
def patOf (bs : List Byte) : PatRec where
  cnt := (rangeFrom 0 4).map fun d => recNat bs (4 * d) 4
  sst := (rangeFrom 0 4).map fun d => sval 32 (recNat bs (16 + 4 * d) 4)
  dst := (rangeFrom 0 4).map fun d => sval 32 (recNat bs (32 + 4 * d) 4)
  esz := recNat bs 48 1 % 8
  ssp := (recNat bs 49 1).testBit 0
  dsp := (recNat bs 49 1).testBit 1
  ind := recNat bs 49 1 / 4 % 4
  ixs := recNat bs 49 1 / 16 % 4
  bar := recNat bs 52 3
  ixo := recNat bs 56 3
  ish := recNat bs 60 4 % 64

/-- The number of elements (R276). -/
def PatRec.count (p : PatRec) : Nat := p.cnt.foldl (· * ·) 1

/-- The element size. -/
def PatRec.size (p : PatRec) : Nat := 2 ^ p.esz

/-- Is a record malformed for a data command of SUB `kind` (R277)? -/
def patBad (bs : List Byte) (kind : Nat) : Bool :=
  let p := patOf bs
  recNat bs 48 1 / 8 != 0 || recNat bs 49 1 / 64 != 0 || p.ind == 3 || decide (2 ≤ p.ixs) ||
    recNat bs 50 2 != 0 || recNat bs 55 1 != 0 || recNat bs 59 1 != 0 || recNat bs 60 4 / 64 != 0 ||
    (p.ind == 0 && (p.ixo != 0 || p.ish != 0)) ||
    p.cnt.any (· == 0) || decide (2 ^ 24 < p.count) || decide (2 ^ 31 < p.count * p.size) ||
    p.ind != (if kind = 1 then 1 else if kind = 2 then 2 else 0) ||
    (kind == 3 && (p.ssp || p.sst.any (· != 0)))

/-- The digits of an element (R276). -/
def PatRec.digits (p : PatRec) (e : Nat) : List Nat :=
  (p.cnt.foldl (fun (r : List Nat × Nat) c => (r.1 ++ [r.2 % c], r.2 / c)) ([], e)).1

/-- The offset of an element under strides. -/
def PatRec.offset (p : PatRec) (strides : List Int) (e : Nat) : Int :=
  (List.zipWith (fun (d : Nat) (st : Int) => (d : Int) * st) (p.digits e) strides).foldl (· + ·) 0

/-! ## Issue (R279) -/

/-- A scratchpad window and offset that an engine's scratchpad operand names; none for an address fault. -/
def State.scratchOf (s : State) (group : Option Nat) (a : Word) : Option (Window × Nat) :=
  (group.bind s.group?).bind fun G => scratchAt s G a

/-- Reading a 64-byte record at issue (R279, step 1). -/
def readRecord (s : State) (G : Group) (a : Word) : Except Nat (Window × Nat × List Byte) :=
  match scratchAt s G a with
  | none => .error 0x10
  | some (w, off) =>
    if off % 64 ≠ 0 then .error 0x15
    else if (w.tile (off / 4096)).engine then .error 0x20
    else .ok (w, off, w.read off 64)

/-- The faults of a data command's checks (R279). -/
def sxCauses (s : State) (G : Group) (kind : Nat) (rec' : Word) : List Nat :=
  match readRecord s G rec' with
  | .error c => [c]
  | .ok (_, _, bs) =>
    (if patBad bs kind then [0x23] else []) ++
      (match engineBar s G (BitVec.ofNat 64 (patOf bs).bar) with
        | .error c => [c]
        | .ok _ => [])

/-- Correctable errors of a record that a word reads are repaired (R379). -/
def recordRepair (s : State) (G : Group) (a : Word) (n : Nat) : State :=
  match scratchAt s G a with
  | some (w, off) => scratchRepair s G w off n
  | none => s

/-- Is the record damaged (R381)? -/
def recordBad (s : State) (G : Group) (a : Word) : Bool :=
  match readRecord s G a with
  | .ok (w, off, _) => scratchBad s w off 64
  | .error _ => false

/-- Is a core's stream queue full (R9)? -/
def State.sxFull (s : State) (core : Nat) : Bool := decide (32 ≤ (s.sx.filter (·.core == core)).length)

/-- Queue a data command (R279, step 4). -/
def sxQueue (s : State) (G : Group) (kind : Nat) (rec' sb db : Word) (ef : Bool) (et : TS) (prog : Option Nat) :
    State :=
  match readRecord s G rec' with
  | .error _ => s
  | .ok (_, _, bs) =>
    let p := patOf bs
    match engineBar s G (BitVec.ofNat 64 p.bar) with
    | .error _ => s
    | .ok l =>
      let c : SxCmd := ⟨s.fresh, G.core, some G.id, G.part, G.asn, kind, p, sb, db, ef, et, some l, prog,
        none, .queued, 0, [], none, none, [], []⟩
      barRepair (recordRepair (({ s with fresh := s.fresh + 1, sx := s.sx ++ [c] }.bumpOut G.id l true).postOnce
        (.sxCommandStart G.core)) G rec' 64) G l

/-- A data command word. -/
def sxWord (s : State) (o : OpSx) (kind : Nat) : Host.Outcome State Fault Refusal :=
  engineWord s true [o.a, o.b, o.c] (fun s x => sxCauses s x.grp kind (x.uni o.a)) fun s x =>
    if recordBad s x.grp (x.uni o.a) then .next (groupFatal s x.grp.id 0x42 (64 * x.g.idx))
    else if s.sxFull x.grp.core then .next (hold s x)
    else .next (sxQueue (goOn s x o.s) x.grp kind (x.uni o.a) (x.uni o.b) (x.uni o.c) (o.e == 1#1) x.g.pts none)

/-- SXCOPY (R278, R279). -/
def execSxcopy (o : OpSx) (s : State) := sxWord s o 0
/-- SXGATH (R278, R279). -/
def execSxgath (o : OpSx) (s : State) := sxWord s o 1
/-- SXSCAT (R278, R279). -/
def execSxscat (o : OpSx) (s : State) := sxWord s o 2
/-- SXFILL (R278, R279, R285). -/
def execSxfill (o : OpSx) (s : State) := sxWord s o 3


/-! ## Elements and their places (R276, R280) -/

/-- The elements that may be in flight are sent off; each lands a number of cycles later that the spec
leaves open. [DESIGN CHOICE: log entry 29] -/
def sxIssue (s : State) (cmd : Nat) (es : List Nat) : State :=
  es.foldl (fun s e =>
    let r := s.choose 63
    r.2.postAt (s.cycle + 4 + 4 * r.1) (.sxElementLand cmd e)) s

/-- The elements at and beyond a cursor that may be in flight. -/
def SxCmd.window (c : SxCmd) : List Nat := rangeFrom c.cursor (min 64 (c.pat.count - c.cursor))

/-- The number of a command's group in the round-robin; a copy launch counts as 0 (R280). [DEDUCED: log entry 33] -/
def SxCmd.groupKey (c : SxCmd) : Nat := c.group.getD 0

/-- The running commands of a core. -/
def State.sxRunning (s : State) (core : Nat) : Nat :=
  (s.sx.filter fun c => c.core == core && c.st == .running).length


/-! ## Aborts (R287, R291) -/

/-- An abort is under way: no further element is sent off. The first cause stands. -/
def sxCancel (s : State) (cmd cause : Nat) : State :=
  match s.sx? cmd with
  | none => s
  | some c =>
    if c.cancel.isSome then s
    else (s.modSx cmd fun c => { c with cancel := some cause }).post (.sxAbort cmd)

/-- A command leaves the queue: its barrier's count falls, its program and group look again, and a copy
launch completes. -/
def sxLeave (s : State) (c : SxCmd) (cause : Option Nat) : State :=
  let s := { s with sx := s.sx.filter (·.id != c.id) }
  let lid := match c.group.bind s.group? with | some G => some G.lid | none => c.launch
  let s := match lid with
    | some lid => s.modLaunch c.part lid fun l => { l with pts := smax l.pts c.et }
    | none => s
  let s := match c.group, c.bar with
    | some g, some l => s.bumpOut g l false
    | _, _ => s
  let s := match c.launch with
    | some lid => (s.modLaunch c.part lid fun l => { l with copied := true, fault := l.fault.or cause }).post
        (.launchComplete c.part lid)
    | none => s
  ((s.progTest c.prog).postOnce (.sxCommandStart c.core)).endPoke

/-- The team of a command. -/
def State.teamOf (s : State) (group : Option Nat) : Nat :=
  match group.bind s.group? with
  | some G => G.team
  | none => 0

/-- SX_ABORT (R287): once no element is in flight, each acknowledged one landed (R281), claims drop, the open phase completes aborted with AINF,
and the command leaves. [DEDUCED: log entry 33] -/
def execSxAbort (cmd : Nat) (s : State) : Host.Outcome State Fault Refusal :=
  match s.sx? cmd with
  | none => .next s
  | some c => match c.cancel with
    | none => .next s
    | some cause =>
      if !c.acks.isEmpty then .next (s.postAt (s.cycle + 4) (.sxAbort cmd))
      else
        let s1 := (s.claimsOf cmd).foldl (fun s t => (dropClaim s t.1 t.2 cmd).1) s
        let s2 := match c.bar with
          | some l => s1.abortPhase (s.teamOf c.group) l cause c.cursor
          | none => s1
        .next (sxLeave (s2.progTime c.prog c.et) c (some cause))

/-! ## Sides and tiles (R276, R282) -/

/-- The index of an element (R276), from scratchpad. -/
def sxIndex (s : State) (c : SxCmd) (e : Nat) : Option (Window × Nat × Int) :=
  let n := if c.pat.ixs = 0 then 4 else 8
  (s.scratchOf c.group (BitVec.ofNat 64 (c.pat.ixo + n * e))).map fun w =>
    (w.1, w.2, sval (8 * n) (leNat (w.1.read w.2 n)))

/-- The side addresses of an element under an index. -/
def SxCmd.src (c : SxCmd) (e : Nat) (v : Int) : Word :=
  c.sb + BitVec.ofInt 64 (c.pat.offset c.pat.sst e) + (if c.pat.ind = 1 then BitVec.ofInt 64 v <<< c.pat.ish else 0)
def SxCmd.dst (c : SxCmd) (e : Nat) (v : Int) : Word :=
  c.db + BitVec.ofInt 64 (c.pat.offset c.pat.dst e) + (if c.pat.ind = 2 then BitVec.ofInt 64 v <<< c.pat.ish else 0)

/-- The index value of an element; 0 without an index. -/
def sxValue (s : State) (c : SxCmd) (e : Nat) : Int :=
  if c.pat.ind = 0 then 0
  else match sxIndex s c e with
    | some r => r.2.2
    | none => 0

/-- The tile that a scratchpad side of an element touches: window and tile. -/
def sxTile (s : State) (c : SxCmd) (a : Word) : Option (Nat × Nat) :=
  (s.scratchOf c.group a).map fun w => (w.1.id, w.2 / 4096)

/-- The elements whose destination lies in a tile. -/
def sxInTile (s : State) (c : SxCmd) (t : Nat × Nat) (dst : Bool) : List Nat :=
  (rangeFrom 0 c.pat.count).filter fun e =>
    sxTile s c (if dst then c.dst e (sxValue s c e) else c.src e (sxValue s c e)) == some t

/-- Has an element landed? -/
def SxCmd.hasLanded (c : SxCmd) (e : Nat) : Bool := decide (e < c.cursor) || c.landed.contains e

/-- Credit bytes with the command's ET (R284). -/
def sxCredit (s : State) (c : SxCmd) (n : Nat) : State :=
  match c.bar with
  | some l => s.credit (s.teamOf c.group) l n c.et
  | none => s

/-- A command finishes with a tile; a destination tile that returns to T credits its bytes (R282, R284,
R18). -/
def sxRelease (s : State) (c : SxCmd) (t : Nat × Nat) (bytes : Nat) : State :=
  let r := dropClaim s t.1 t.2 c.id
  if r.2 && bytes != 0 then sxCredit r.1 c bytes else r.1

/-- The tiles that the scratchpad sides of an element touch, without its index. -/
def sxSides (s : State) (c : SxCmd) (e : Nat) : List (Nat × Nat) :=
  let v := sxValue s c e
  (if c.pat.ssp && c.kind != 3 then (sxTile s c (c.src e v)).toList else []) ++
    (if c.pat.dsp then (sxTile s c (c.dst e v)).toList else [])

/-- Does the index array or an indirect side reach a tile? Such a tile is finished at the command's end (R282). [DEDUCED: log entry 30] -/
def sxLate (s : State) (c : SxCmd) (t : Nat × Nat) : Bool :=
  c.pat.ind != 0 && (rangeFrom 0 c.pat.count).any fun e =>
    (sxIndex s c e).any (fun r => r.1.id == t.1 && r.2.1 / 4096 == t.2) ||
    (c.pat.ind == 1 && c.pat.ssp && sxTile s c (c.src e (sxValue s c e)) == some t) ||
    (c.pat.ind == 2 && c.pat.dsp && sxTile s c (c.dst e (sxValue s c e)) == some t)

/-- The bytes that the command's elements have in a destination tile. -/
def sxBytes (s : State) (c : SxCmd) (t : Nat × Nat) : Nat :=
  if c.pat.dsp then (sxInTile s c t true).length * c.pat.size else 0

/-- After an element has landed: a tile is finished when every element that touches it, as source or as
destination, has landed in it or been read from it (R282). [DEDUCED: log entry 30] -/
def sxFinish (s : State) (c : SxCmd) (e : Nat) : State :=
  (sxSides s c e).eraseDups.foldl (fun s t =>
    if sxLate s c t || (rangeFrom 0 c.pat.count).any (fun i => !c.hasLanded i && (sxSides s c i).contains t) then s
    else sxRelease s c t (sxBytes s c t)) s

/-- The last element has landed (R288): the tiles still claimed, those that an indirect side or the index array
reached, are finished, and the command is done. [DEDUCED: log entry 30] -/
def sxDone (s : State) (c : SxCmd) : State :=
  let left := (s.claimsOf c.id).map fun t => (t, sxBytes s c t)
  let s := left.foldl (fun s t => sxRelease s c t.1 t.2) s
  sxLeave (s.progTime c.prog c.et) c none

/-- Advance a cursor past the landed elements. -/
def sxAdvance : Nat → Nat → List Nat → Nat
  | 0, cur, _ => cur
  | n + 1, cur, landed => if landed.contains cur then sxAdvance n (cur + 1) landed else cur

/-- Where an element's destination lies: the place in a window, the physical place in this device, or the address in
another one (R179, R189); none for an address that stands for none. [DEDUCED: log entry 33] -/
def sxPlace (s : State) (c : SxCmd) (a : Word) : Option (Nat × Nat) :=
  if c.pat.dsp then (s.scratchOf c.group a).map fun w => (w.1.id, w.2)
  else match gaddr s a with
    | none => none
    | some (dev, va) => if dev ≠ 0 then some (0, farKey dev va) else match s.lookPast c.part c.asn va with
      | .leaf l => some (0, l.key va)
      | _ => some (0, va)

/-! ## Start (R280, R288) -/

/-- A command runs from its cursor: elements at and beyond it are read and landed again (R286). An element whose
tile the command has finished with stays landed, since that tile is T again (R282), and so do the elements before it,
or before one whose write is out, that landed at the same place: the later bytes stay (R283). [DEDUCED: log entry 33] -/
def sxRun (s : State) (c : SxCmd) : State :=
  let claims := s.claimsOf c.id
  let done := c.landed.filter fun e => (sxSides s c e).any (!claims.contains ·)
  let place := fun (e : Nat) => sxPlace s c (c.dst e (sxValue s c e))
  let kept := c.landed.filter fun e => done.contains e ||
    (done ++ c.acks.map (·.1)).any fun i => decide (e < i) && place i == place e
  sxIssue (s.modSx c.id fun c => { c with
    st := .running, landed := kept, page := none, far := c.far.filter (·.2.2.isNone) }) c.id
    (c.window.filter (!kept.contains ·))

/-- The next command of a core (R280): a parked one whose fault is resolved first; else the first queued
command of the group after the one served last. [DEDUCED: log entry 33] -/
def sxNext (s : State) (core : Nat) : Option SxCmd :=
  let mine := s.sx.filter fun c => c.core == core && c.cancel.isNone
  match mine.find? fun c => c.st == .parked true with
  | some c => some c
  | none =>
    let queued := mine.filter fun c => c.st == .queued
    let last := match s.sxRr.find? (·.1 == core) with | some e => e.2 | none => 0
    let least := fun (cs : List SxCmd) => cs.foldl (fun (b : Option SxCmd) c => match b with
      | none => some c
      | some y => if c.groupKey < y.groupKey then some c else some y) none
    match least (queued.filter fun c => decide (last < c.groupKey)) with
    | some c => some c
    | none => least queued

/-- SX_COMMAND_START: the core's engine takes its next command while fewer than 8 run. -/
def execSxCommandStart (core : Nat) (s : State) : Host.Outcome State Fault Refusal :=
  if 8 ≤ s.sxRunning core then .next s
  else match sxNext s core with
    | none => .next s
    | some c =>
      let s1 := if c.st = .queued then
          { s with sxRr := (core, c.groupKey) :: s.sxRr.filter (·.1 != core) }
        else s
      .next ((sxRun s1 c).postOnce (.sxCommandStart core))

/-- SX_RESUME: a parked command's fault is resolved; it runs as soon as it has a slot (R286). -/
def execSxResume (cmd : Nat) (s : State) : Host.Outcome State Fault Refusal :=
  match s.sx? cmd with
  | none => .next s
  | some c => match c.st with
    | .parked _ =>
      .next ((s.modSx cmd fun c => { c with st := .parked true }).postOnce (.sxCommandStart c.core))
    | _ => .next s

/-! ## Landing (R281 to R286) -/

/-- An element has landed: cursor, credits, tiles, and the elements that may now be sent off. A command that is
being cancelled is never done (R288). -/
def sxLanded (s : State) (cmd e : Nat) : State :=
  match s.sx? cmd with
  | none => s
  | some c0 =>
    let landed := e :: c0.landed
    let cur := sxAdvance landed.length c0.cursor landed
    let c := { c0 with landed := landed.filter fun i => decide (cur ≤ i), cursor := cur
                       acks := c0.acks.filter (·.1 != e), far := c0.far.filter (·.1 != e) }
    let s := s.modSx cmd fun _ => c
    let s := if c.pat.dsp then s
      else (rangeFrom c0.cursor (cur - c0.cursor)).foldl (fun s _ => sxCredit s c c.pat.size) s
    let s := sxFinish s c e
    if c.cancel.isSome then s
    else if cur = c.pat.count then sxDone s c
    else if c.st = .running then
      sxIssue s cmd ((rangeFrom (c0.cursor + 64) (cur - c0.cursor)).filter fun i => decide (i < c.pat.count))
    else s

/-- A fault met at an element (R286). [DEDUCED: log entry 83] -/
def sxFault (s : State) (c : SxCmd) (cause : Nat) : State :=
  let s := sxCancel s c.id cause
  match c.group with
  | some g => if cause = 0x22 then failGroup s g 0x22 0 else s
  | none => s

/-- A page that is not present parks the command at the first element that meets one. One whose fault is resolved
already reads the element again when it resumes. -/
def sxPark (s : State) (c : SxCmd) (e va : Nat) : State :=
  if c.cancel.isSome || c.st == .parked true then s
  else
    let first := match c.page with
      | some p => decide (e < p.1)
      | none => true
    (s.modSx c.id fun c => { c with
      st := .parked false, page := if first then some (e, va / 65536 * 65536) else c.page }).postOnce
      (.sxCommandStart c.core)

/-- Raise a command's ET. -/
def sxTime (s : State) (cmd : Nat) (t : Option TS) : State :=
  match t with
  | some t => s.modSx cmd fun c => { c with et := smax c.et t }
  | none => s

/-- A scratchpad side of an element: address, alignment, owner and claim. -/
def sxScratch (s : State) (c : SxCmd) (a : Word) (write : Bool) : Except Nat (State × Window × Nat) :=
  match s.scratchOf c.group a with
  | none => .error 0x10
  | some (w, off) =>
    if off % c.pat.size ≠ 0 then .error 0x15
    else match claimTile s w.id (off / 4096) c.id write with
      | none => .error 0x22
      | some s => .ok (s, w, off)

/-- An element that must be tried again. -/
def sxAgain (s : State) (cmd e : Nat) : State := s.postAt (s.cycle + 4) (.sxElementLand cmd e)

/-- An element at a device that has not joined its domain waits for at most 1 ms (R419). -/
def sxFabric (s : State) (c : SxCmd) (e : Nat) : State :=
  let s := if s.nsTimers.any fun t => t.2 == .fabricTimeout c.id then s
    else s.postNs (s.ptp + 1000000) (.fabricTimeout c.id)
  sxAgain s c.id e

/-- The launch that a command works for. -/
def SxCmd.lid (s : State) (c : SxCmd) : Nat :=
  match c.group.bind s.group? with
  | some G => G.lid
  | none => c.launch.getD 0

/-- A command that reads a poisoned source aborts, and the abort is logged with the place (R381, R384). -/
def sxPoison (s : State) (c : SxCmd) (unit loc : Nat) : State :=
  sxFault (logEntry s c.part 0x04 0x41 unit 0 (c.lid s) loc 0) c 0x41

/-- The same of a place in scratchpad. -/
def sxPoisonAt (s : State) (c : SxCmd) (w : Window) (off : Nat) : State :=
  sxPoison s c 0 (match c.group.bind s.group? with | some G => scratchLoc w.core G off | none => off)

/-- Correctable errors that a read of scratchpad meets are repaired (R379). -/
def sxRepair (s : State) (c : SxCmd) (w : Window) (off n : Nat) : State :=
  match c.group.bind s.group? with
  | some G => scratchRepair s G w off n
  | none => s

/-- What the engine's access to global memory means for an element. -/
def sxTake (r : EngRes) (s0 : State) (c : SxCmd) (e : Nat) (sent : State → Nat → State) (k : State → List Byte → State) :
    State :=
  match r with
  | .ok s bytes wts => k (sxTime s c.id wts) bytes
  | .sent s id => sent s id
  | .wait s => sxAgain s c.id e
  | .fabric => sxFabric s0 c e
  | .absent s va => sxPark s c e va
  | .bad cause => if cause = 0x41 then sxPoison s0 c 2 (fld (c.src e (sxValue s0 c e)) 0 61) else sxFault s0 c cause

/-- What an element of a command reads and writes global memory as. -/
def SxCmd.by (c : SxCmd) (e : Nat) (et : TS) : EngBy := ⟨c.core, c.part, c.asn, c.groupKey, c.id, e, et, c.ef⟩

/-- Land the bytes of an element at its destination. -/
def sxPut (s : State) (c : SxCmd) (e : Nat) (v : Int) (bytes : List Byte) : State :=
  let a := c.dst e v
  if c.pat.dsp then
    match sxScratch s c a true with
    | .error cause => sxFault s c cause
    | .ok (s, w, off) =>
      let s := match c.group.bind s.group? with
        | some G => scratchMend s G w off bytes.length
        | none => s
      sxLanded (s.winWrite w.id off bytes) c.id e
  else
    let et := match s.sx? c.id with | some c => c.et | none => c.et
    sxTake (engWrite s (c.by e et) c.pat.size a bytes) s c e
      (fun s id => sxAgain (s.modSx c.id fun c => { c with acks := (e, id) :: c.acks }) c.id e)
      fun s _ => sxLanded s c.id e

/-- Read an element's source, or make its fill (R285), and land it. -/
def sxGet (s : State) (c : SxCmd) (e : Nat) (v : Int) : State :=
  if c.kind = 3 then
    sxPut s c e v ((rangeFrom 0 c.pat.size).map fun j => c.sb.extractLsb' (8 * (j % 8)) 8)
  else
    let a := c.src e v
    if c.pat.ssp then
      match sxScratch s c a false with
      | .error cause => sxFault s c cause
      | .ok (s, w, off) =>
        if scratchBad s w off c.pat.size then sxPoisonAt s c w off
        else sxPut (sxRepair s c w off c.pat.size) c e v (w.read off c.pat.size)
    else match c.far.find? (·.1 == e) with
      | some (_, id, none) => sxAgain (if (s.req? id).isSome then s
          else s.modSx c.id fun c => { c with far := c.far.filter (·.1 != e) }) c.id e
      | some (_, _, some bytes) =>
        if bytes.isEmpty then sxPoison s c 2 (fld a 0 61)
        else
          let r := s.replayRead c.groupKey (s.farKeyOf a) bytes
          sxPut r.1 c e v r.2
      | none => sxTake (engRead s (c.by e c.et) c.pat.size c.pat.size a) s c e
        (fun s id => sxAgain (s.modSx c.id fun c => { c with far := (e, id, none) :: c.far }) c.id e)
        fun s bytes => sxPut s c e v bytes

/-- Does an earlier element still to land write a byte of the same destination (R283)? Elements are aligned to their
size. [DEDUCED: log entry 33] -/
def sxBehind (s : State) (c : SxCmd) (e : Nat) (v : Int) : Bool :=
  let here := sxPlace s c (c.dst e v)
  (rangeFrom c.cursor (e - c.cursor)).any fun i => !c.landed.contains i && sxPlace s c (c.dst i (sxValue s c i)) == here

/-- SX_ELEMENT_LAND: an element in flight is read and lands, unless its command is being aborted. [DESIGN CHOICE: log entry 29; DEDUCED: log entry 31] -/
def execSxElementLand (cmd elem : Nat) (s : State) : Host.Outcome State Fault Refusal :=
  match s.sx? cmd with
  | none => .next s
  | some c =>
    if c.hasLanded elem || decide (c.pat.count ≤ elem) || c.st == .queued then .next s
    else match c.acks.find? (·.1 == elem) with
      | some a => .next (if (s.req? a.2).isSome then sxAgain s cmd elem else sxLanded s cmd elem)
      | none =>
        if c.cancel.isSome then .next s
        else if c.pat.ind = 0 then
          .next (if sxBehind s c elem 0 then sxAgain s cmd elem else sxGet s c elem 0)
        else match sxIndex s c elem with
          | none => .next (sxFault s c 0x10)
          | some (w, off, v) =>
            if off % (if c.pat.ixs = 0 then 4 else 8) ≠ 0 then .next (sxFault s c 0x15)
            else match claimTile s w.id (off / 4096) c.id false with
            | none => .next (sxFault s c 0x22)
            | some s1 =>
              if scratchBad s w off (if c.pat.ixs = 0 then 4 else 8) then .next (sxPoisonAt s1 c w off)
              else
                let s2 := sxRepair s1 c w off (if c.pat.ixs = 0 then 4 else 8)
                .next (if sxBehind s2 c elem v then sxAgain s2 cmd elem else sxGet s2 c elem v)

/-! ## Words that act at issue (R289 to R292) -/

/-- The tiles that an owner flip names, or its faults (R289, R290): `ok` says whether a tile may flip. -/
def flipTiles (s : State) (G : Group) (a n : Word) (ok : Window → Nat → Bool) : List Nat × Option (Window × List Nat) :=
  let count := n.toNat
  let good := decide (1 ≤ count) && decide (count ≤ 512)
  match scratchAt s G a with
  | none => ([0x10], none)
  | some (w, off) =>
    let first := off / 4096
    let tiles := rangeFrom first (if good then count else 0)
    let out := a.getLsbD 23 || (good && decide (w.size < (first + count) * 4096))
    let c1 := if out then [0x10] else []
    let c2 := if off % 4096 ≠ 0 then [0x15] else []
    let c3 := if !good || (!out && tiles.any fun t => !ok w t) then [0x24] else []
    (c1 ++ c2 ++ c3, if good && !out then some (w, tiles) else none)

/-- An owner flip. -/
def flipWord (s : State) (st : BitVec 2) (a b : BitVec 6) (ok : Cx → Window → Nat → Bool) (f : Tile → Tile) :
    Host.Outcome State Fault Refusal :=
  engineWord s true [a, b] (fun s x => (flipTiles s x.grp (x.uni a) (x.uni b) (ok x)).1) fun s x =>
    let s1 := goOn s x st
    match (flipTiles s x.grp (x.uni a) (x.uni b) (ok x)).2 with
    | none => .next s1
    | some (w, tiles) => .next (tiles.foldl (fun s t => s.modTile w.id t f) s1)

/-- SXFLIP (R289): to the engines, under the swizzle code FL. -/
def execSxflip (o : OpEnF) (s : State) : Host.Outcome State Fault Refusal :=
  flipWord s o.s o.a o.b
    (fun x w t => !(w.tile t).engine && !s.touchesBar x.grp.team w.core (t * 4096) 4096)
    fun t => { t with engine := true, swz := o.f }

/-- SXFLIP.t (R290): back to threads without an engine. -/
def execSxflipT (o : OpEn2) (s : State) : Host.Outcome State Fault Refusal :=
  flipWord s o.s o.a o.b
    (fun x w t => let y := w.tile t
      y.engine && y.wclaim.isNone && y.rclaim.isEmpty && !s.touchesBar x.grp.team w.core (t * 4096) 4096)
    fun t => { t with engine := false }

/-- The barrier that an SXCAN or an SXSTAT names; SXCAN's offset is checked for address and alignment (R291, R293). [DEDUCED: log entry 32] -/
def statBar (s : State) (G : Group) (a : Word) : Except Nat BarLoc :=
  match scratchAt s G a with
  | none => .error 0x10
  | some (w, off) => if off % 32 ≠ 0 then .error 0x15 else .ok ⟨w.core, off⟩

/-- Cancel every outstanding data command of a group that satisfies a test (R291). -/
def sxCancelAll (s : State) (grp : Nat) (p : SxCmd → Bool) : State :=
  (s.sx.filter fun c => c.group == some grp && p c).foldl (fun s c => sxCancel s c.id 0x25) s

/-- SXCAN (R291): FL bit 0 selects every command of the group. [DEDUCED: log entry 32] -/
def execSxcan (o : OpEnA) (s : State) : Host.Outcome State Fault Refusal :=
  let all := o.f == 1#1
  engineWord s (!all || o.a == 0#6) (if all then [] else [o.a])
    (fun s x => if all then [] else match statBar s x.grp (x.uni o.a) with
      | .error c => [c]
      | .ok _ => [])
    fun s x =>
      let s1 := goOn s x o.s
      if all then .next (sxCancelAll s1 x.grp.id fun _ => true)
      else match statBar s x.grp (x.uni o.a) with
        | .ok l => .next (sxCancelAll s1 x.grp.id fun c => c.bar == some l)
        | .error _ => .next s1

/-- The report of SXSTAT (R292). -/
def sxReport (s : State) (grp : Nat) (l : BarLoc) : Word :=
  let cs := s.sx.filter fun c => c.group == some grp && c.bar == some l
  match cs with
  | [] => 0
  | c :: _ =>
    let st := match c.st with | .queued => 1 | .running => 2 | .parked _ => 3
    let pc := match c.st with | .parked false => 0x13 | _ => 0
    BitVec.ofNat 64 (st * 2 ^ 60 + pc * 2 ^ 48 + cs.length * 2 ^ 32 + c.cursor % 2 ^ 32)

/-- What SXSTAT reports of the barrier at an offset. R293 lists no cause for the offset of an SXSTAT; an offset that
names no barrier has no command outstanding (STATE 0). [DEDUCED: log entry 32] -/
def statReport (s : State) (G : Group) (a : Word) : Word :=
  match statBar s G a with
  | .error _ => 0
  | .ok l => sxReport s G.id l

/-- SXSTAT (R292, R49): the report goes to a uniform register before the stream's next word. [DEDUCED: log entry 32] -/
def execSxstat (o : OpEn2) (s : State) : Host.Outcome State Fault Refusal :=
  engineWord s (uniOk o.a) [o.b] (fun _ _ => []) fun s x =>
    let v := statReport s x.grp (x.uni o.b)
    .next ((goOn s x o.s).modGang x.g.id fun g => { g with g := modAt (fun _ => v) o.a.toNat g.g })

end Sys2Proof.Machine
end

