-- ==== Sys2Proof/Machine/MatrixSums.lean ====
section
/-!
DEFINITION. The arithmetic of the matrix engine (R295 to R308, R311, R315, R324, R331, R332): elements of A
and B, exact sums, in-array sums and promotion, borders, and the check of a tile against its border.
-/

namespace Sys2Proof.Machine

/-! ## Exact sums (R306, R313) -/

/-- The in-array sum format (R304). -/
def e8m15 : Fmt := ⟨8, 15⟩

/-- What a sum marks in its tile (R313). -/
structure MxFlags where
  nv  : Bool
  ovf : Bool
  ni  : Bool
  deriving DecidableEq, Repr

def MxFlags.none : MxFlags := ⟨false, false, false⟩
def MxFlags.or (a b : MxFlags) : MxFlags := ⟨a.nv || b.nv, a.ovf || b.ovf, a.ni || b.ni⟩

/-- An operand's NaN, and a NaN that arose from operands without one. -/
def nanOperand : FVal := .nan false true 0
def nanArisen : FVal := .nan false true 1

/-- A decoded operand: its NaN carries no payload (R306). -/
def FVal.operand : FVal → FVal
  | .nan _ _ _ => nanOperand
  | v => v

/-- The exact product of two elements, and what it marks. -/
def mxMul (a b : FVal) : FVal × MxFlags :=
  let kind := fun (v : FVal) => match v with
    | .nan _ _ p => if p = 1 then MxFlags.mk true false false else ⟨false, false, true⟩
    | _ => .none
  if a.isNaN || b.isNaN then (nanArisen, (kind a).or (kind b))
  else match mulV a b with
    | some v => (v, .none)
    | none => (nanArisen, ⟨true, false, false⟩)

/-- The square of an element (R308): a NaN stays what it is. -/
def mxSquare (a : FVal) : FVal := if a.isNaN then a else (mxMul a a).1

/-- An exact sum: an exact zero of opposite signs is +0, opposite infinities give a NaN. -/
def mxSum (vs : List FVal) : FVal × MxFlags :=
  if vs.any FVal.isNaN then
    (if vs.any (· == nanOperand) then nanOperand else nanArisen, .none)
  else
    let infs := vs.filterMap fun v => match v with | .inf s => some s | _ => none
    match infs with
    | s :: r => if r.all (· == s) then (.inf s, .none) else (nanArisen, ⟨true, false, false⟩)
    | [] =>
      let ts := vs.filterMap fun v => match v with | .fin s m e => some (s, m, e) | _ => none
      match ts with
      | [] => (.fin false 0 0, .none)
      | t :: r =>
        let x := r.foldl addDy t
        if x.2.1 = 0 then (.fin (ts.all (·.1)) 0 0, .none) else (.fin x.1 x.2.1 x.2.2, .none)

/-- One RNE rounding to a format; a NaN becomes the canonical one. -/
def mxRound (f : Fmt) (v : FVal) : Nat × MxFlags :=
  match v with
  | .nan _ _ _ => (f.canonNaN, .none)
  | .inf s => (f.infBits s, .none)
  | .fin s m e =>
    let r := f.round fmRed false s m e
    (r.bits, ⟨false, r.fl &&& fOF != 0, false⟩)

/-- acc := round(acc + x) in a format. -/
def mxAcc (f : Fmt) (acc : Nat) (x : FVal) : Nat × MxFlags :=
  let v := mxSum [(f.decode acc).operand, x]
  let r := mxRound f v.1
  (r.1, v.2.or r.2)

/-! ## Elements of B (R297 to R303, R311) -/

/-- Bytes of an operand-buffer window. -/
def obNat (ob : Memory) (off n : Nat) : Nat := leNat (ob.read off n)

/-- A code of `t` bits, `i` codes into an area (R301). -/
def obCode (ob : Memory) (area i t : Nat) : Nat :=
  obNat ob (area + i * t / 8) 2 / 2 ^ (i * t % 8) % 2 ^ t

/-- Element size in bytes of BFMT 0, 1, 3, 4, 5 (R311), and of AFMT 0 to 4 (R315). -/
def bSize (fmt : Nat) : Nat := match fmt with | 0 => 2 | 1 => 2 | 3 => 4 | 4 => 8 | _ => 4
def aSize (fmt : Nat) : Nat := match fmt with | 0 => 2 | 1 => 2 | 2 => 1 | 3 => 4 | _ => 8

/-- The IEEE format of a format code. -/
def mxFmt (code : Nat) : Fmt := match code with | 0 => bf16 | 1 => fp16 | 3 => fp32 | _ => fp64

/-- The value of an element under a shared scale (R300, R311); a zero scale makes an infinity a NaN that
arose. -/
def scaledBy (v : FVal) (x : Nat) (sxo : Int) : FVal :=
  match sdecode x, v with
  | some (m, _), .inf s => if m = 0 then nanArisen else .inf s
  | _, _ => match scaled v x with
    | .fin s m e => .fin s m (e + sxo)
    | w => w.operand

/-- Kept elements of a column (R311). -/
def Resv.kept (r : Resv) : Nat := if r.spn = 0 then r.klen else r.klen / 48 * r.spn

/-- Kept element k of column j; `nfv` is the narrow format. -/
def bElem (ob : Memory) (r : Resv) (nfv k j : Nat) : FVal :=
  let col := r.base + j * r.cst
  let n := nfmtOf nfv
  if r.bfmt = 2 then
    if r.bl = 0 then (n.decode (obCode ob col k n.t)).operand
    else
      let at0 := col + k / r.bl * r.rs
      scaledBy (n.decode (obCode ob (at0 + 2) (k % r.bl) n.t)).operand (obNat ob at0 2) r.sxo
  else ((mxFmt r.bfmt).decode (obNat ob (col + k * bSize r.bfmt) (bSize r.bfmt))).operand

/-- The planes of a moment pair: mean in bits 31:16, variance in bits 15:0 (R308). -/
def bPair (ob : Memory) (r : Resv) (k j : Nat) : FVal × FVal :=
  let w := obNat ob (r.base + j * r.cst + k * 4) 4
  ((bf16.decode (w / 2 ^ 16)).operand, (bf16.decode (w % 2 ^ 16)).operand)

/-- The positions of group g of column j (R302). -/
def sparsePos (ob : Memory) (r : Resv) (g j : Nat) : List Nat :=
  let n := 6 * r.spn / 8
  let at0 := r.moff + j * (r.klen / 48) * n + g * n
  let v := obNat ob at0 n
  (rangeFrom 0 r.spn).map fun i => v / 2 ^ (6 * i) % 64

/-- Positions rise strictly and lie below 48 (R302). -/
def sparseOk : List Nat → Bool
  | [] => true
  | [a] => decide (a < 48)
  | a :: b :: r => decide (a < b) && sparseOk (b :: r)

/-! ## Elements of A (R315) -/

def Rake.rows (k : Rake) : Nat := if k.idn then k.oh else k.oh * k.ow
def Rake.cols (k : Rake) : Nat := if k.idn then k.c else k.kh * k.kw * k.c

/-- The scratchpad offset of element (r, c) of a slot; none for a padding element. -/
def Rake.offset (k : Rake) (r c : Nat) : Option Nat :=
  let es := aSize k.afmt
  if k.idn then some (k.base + r * k.pitchy + c * es)
  else
    let ch := c % k.c
    let kx := c / k.c % k.kw
    let ky := c / k.c / k.kw
    let y : Int := ((r / k.ow * k.sh + ky * k.dh : Nat) : Int) - k.pt
    let x : Int := ((r % k.ow * k.sw + kx * k.dw : Nat) : Int) - k.pl
    if 0 ≤ y ∧ y < k.h ∧ 0 ≤ x ∧ x < k.w then some (k.base + y.toNat * k.pitchy + x.toNat * k.pitchx + ch * es)
    else none

/-- The value of an element's bits. -/
def Rake.value (k : Rake) (bits : Nat) : FVal :=
  FVal.operand (if k.afmt = 2 then (nfmtOf k.nfv.toNat).decode (bits % 2 ^ (nfmtOf k.nfv.toNat).t)
    else (mxFmt k.afmt).decode bits)

/-! ## k-steps (R305, R324, R325) -/

/-- The k-step length of a tile mode and its operands; none where R325 does not allow them. -/
def kLen (mode : Nat) (rk : Rake) (r : Resv) (nfv : Nat) : Option Nat :=
  match mode with
  | 0 =>
    if rk.afmt = 3 ∨ r.bfmt = 3 then (if rk.afmt = 3 ∧ r.bfmt = 3 then some 4 else none)
    else if 2 < rk.afmt ∨ 2 < r.bfmt then none
    else if rk.afmt < 2 ∨ r.bfmt < 2 then some 16
    else if max (nfmtOf rk.nfv.toNat).t (nfmtOf nfv).t ≤ 4 then some 64 else some 32
  | 1 => if rk.afmt = 4 ∧ r.bfmt = 4 then some 1 else none
  | _ => if rk.afmt < 2 ∧ r.bfmt = 5 then some 16 else none

/-- What one k-step of a loop is: the A rows, for each column of the tile the kept elements and the A
column each takes. -/
structure KStep where
  i0   : Nat
  j0   : Nat
  m    : Nat
  n    : Nat
  kept : List Nat
  acol : List (List Nat)
  deriving DecidableEq, Repr

/-- The columns of A that the kept elements of column j take (R324); none for malformed metadata. -/
def aCols (ob : Memory) (r : Resv) (ka0 kai kb0 u j : Nat) (kept : List Nat) : Option (List Nat) :=
  if r.spn = 0 then some (imap (fun v _ => ka0 + u * kai + v) 0 kept)
  else
    let gs := (kept.map (· / r.spn)).eraseDups
    if gs.all fun g => sparseOk (sparsePos ob r g j) then
      some (kept.map fun e =>
        ka0 + 48 * (e / r.spn) + at' 0 (sparsePos ob r (e / r.spn) j) (e % r.spn) - 48 * (kb0 / r.spn))
    else none

/-- A step's columns, or none for malformed metadata. -/
def kStep (ob : Memory) (r : Resv) (K m n i0 ka0 kai j0 kb0 kbi u : Nat) : Option KStep :=
  let kept := rangeFrom (kb0 + u * kbi) K
  let cols := (rangeFrom j0 n).map fun j => aCols ob r ka0 kai kb0 u j kept
  if cols.any (·.isNone) then none else some ⟨i0, j0, m, n, kept, cols.filterMap id⟩

/-- The A columns of a step, each once. -/
def KStep.columns (k : KStep) : List Nat := k.acol.flatten.eraseDups

/-- A value from a table by its key. -/
def keyed {α : Type} (d : α) (t : List (Nat × α)) (k : Nat) : α :=
  match t.find? (·.1 == k) with
  | some e => e.2
  | none => d

/-- The sums of one k-step: for every element, and with a border for its row and column, the exact sum of
its terms (R324, R331). `A` gives for each A column the values of the tile's rows, `B` for each tile column
the values of its kept elements. -/
structure StepSums where
  el : List FVal
  zc : List FVal
  zr : List FVal
  fl : MxFlags
  deriving DecidableEq, Repr

/-- The exact sum of products, and what it marks. -/
def mxDot (ps : List (FVal × FVal)) : FVal × MxFlags :=
  let ms := ps.map fun p => mxMul p.1 p.2
  let s := mxSum (ms.map (·.1))
  (s.1, ms.foldl (fun f m => f.or m.2) s.2)

def stepSums (k : KStep) (bord : Bool) (A : List (Nat × List FVal)) (B : List (List FVal)) : StepSums :=
  let zero : FVal := .fin false 0 0
  let colA := fun (c : Nat) => keyed [] A c
  let el := ((rangeFrom 0 k.m).map fun i => List.zipWith (fun cs bs =>
    mxDot (List.zipWith (fun c b => (at' zero (colA c) i, b)) cs bs)) k.acol B).flatten
  let fl := el.foldl (fun f e => f.or e.2) MxFlags.none
  if !bord then ⟨el.map (·.1), [], [], fl⟩
  else
    let as := A.map fun e => (e.1, mxSum e.2)
    let zr := List.zipWith (fun cs bs =>
      mxDot (List.zipWith (fun c b => ((keyed (zero, MxFlags.none) as c).1, b)) cs bs)) k.acol B
    let pairs := (List.zipWith List.zip k.acol B).flatten
    let bs := k.columns.map fun c => (c, mxSum ((pairs.filter (·.1 == c)).map (·.2)))
    let zc := (rangeFrom 0 k.m).map fun i => mxDot (bs.map fun b => (at' zero (colA b.1) i, b.2.1))
    let fl := (as.map (·.2.2) ++ bs.map (·.2.2) ++ zr.map (·.2) ++ zc.map (·.2)).foldl MxFlags.or fl
    ⟨el.map (·.1), zc.map (·.1), zr.map (·.1), fl⟩

/-! ## Accumulation (R306 to R308) -/

/-- Accumulate a list of terms into a list of bit patterns. -/
def accAllW (f : Fmt) (zs : List Word) (xs : List FVal) : List Word × MxFlags :=
  let rs := List.zipWith (fun (z : Word) x => mxAcc f z.toNat x) zs xs
  (rs.map fun r => BitVec.ofNat 64 r.1, rs.foldl (fun f r => f.or r.2) .none)

def ZTile.mark (z : ZTile) (f : MxFlags) : ZTile :=
  { z with nv := z.nv || f.nv, ovf := z.ovf || f.ovf, ni := z.ni || f.ni }

/-- Sums to promote into FP32 elements: S is added to Z, and starts again at +0. -/
def promoteW (zs ss : List Word) : List Word × MxFlags :=
  accAllW fp32 zs (ss.map fun s => (e8m15.decode s.toNat).operand)

/-- The two planes of moment elements. -/
def planes (zs : List Word) : List Word × List Word :=
  (zs.map fun (z : Word) => z >>> 32, zs.map fun (z : Word) => z &&& 0xFFFFFFFF#64)
def unplanes (p : List Word × List Word) : List Word := List.zipWith (fun (m v : Word) => (m <<< 32) ||| v) p.1 p.2

/-- Promote a tile's in-array sums (R306). -/
def ZTile.promote (z : ZTile) : ZTile :=
  if z.mode = 2 then
    let e := planes z.el
    let s := planes z.sEl
    let mu := promoteW e.1 s.1
    let va := promoteW e.2 s.2
    { z with el := unplanes (mu.1, va.1), sEl := z.sEl.map fun _ => 0 }.mark (mu.2.or va.2)
  else
    let e := promoteW z.el z.sEl
    let c := promoteW z.zc z.sC
    let r := promoteW z.zr z.sR
    { z with
      el := e.1, zc := c.1, zr := r.1
      sEl := z.sEl.map fun _ => 0, sC := z.sC.map fun _ => 0, sR := z.sR.map fun _ => 0 }.mark
      (e.2.or (c.2.or r.2))

/-- One more staged k-step was summed: at each P-th the tile is promoted. -/
def ZTile.stepped (z : ZTile) (P : Nat) : ZTile :=
  let t := z.t + 1
  if t % P = 0 then { z.promote with t := 0, pInt := some P } else { z with t := t, pInt := some P }

/-- A k-step of FP32 mode or FP64 mode (R307): straight into the elements. -/
def ZTile.direct (z : ZTile) (f : Fmt) (x : StepSums) : ZTile :=
  let e := accAllW f z.el x.el
  let c := accAllW f z.zc x.zc
  let r := accAllW f z.zr x.zr
  { z with el := e.1, zc := c.1, zr := r.1 }.mark (x.fl.or (e.2.or (c.2.or r.2)))

/-- A k-step through in-array sums (R306). -/
def ZTile.staged (z : ZTile) (P : Nat) (x : StepSums) : ZTile :=
  let e := accAllW e8m15 z.sEl x.el
  let c := accAllW e8m15 z.sC x.zc
  let r := accAllW e8m15 z.sR x.zr
  ({ z with sEl := e.1, sC := c.1, sR := r.1 }.mark (x.fl.or (e.2.or (c.2.or r.2)))).stepped P

/-- A k-step of moment mode (R308): the sums of both planes. -/
def ZTile.moment (z : ZTile) (P : Nat) (mu va : StepSums) : ZTile :=
  let s := planes z.sEl
  let a := accAllW e8m15 s.1 mu.el
  let b := accAllW e8m15 s.2 va.el
  ({ z with sEl := unplanes (a.1, b.1) }.mark ((mu.fl.or va.fl).or (a.2.or b.2))).stepped P

/-- The chain's last k-step for the tile: what is still summed is promoted (R306). -/
def ZTile.lastStep (z : ZTile) : ZTile :=
  { (if z.t = 0 then z else z.promote) with t := 0, pInt := none }

/-! ## Tiles (R312, R329) -/

/-- Border cells of a shape. -/
def rowsOf (m n mode : Nat) (bord : Bool) : Nat :=
  let b := if bord then 1 else 0
  let d := if mode = 0 then 1 else 2
  ((m + b) * (n + b) * 4 * d + 511) / 512

/-- An allocated tile: zero, with its flags clear. -/
def ZTile.zero (m n mode : Nat) (bord : Bool) : ZTile where
  m := m
  n := n
  mode := mode
  bord := bord
  rows := rowsOf m n mode bord
  el := List.replicate (m * n) 0
  zc := List.replicate (if bord then m else 0) 0
  zr := List.replicate (if bord then n else 0) 0
  sEl := List.replicate (m * n) 0
  sC := List.replicate (if bord then m else 0) 0
  sR := List.replicate (if bord then n else 0) 0
  t := 0
  pInt := none
  nv := false
  ovf := false
  ni := false

/-- MXZERO of a tile. -/
def ZTile.cleared (z : ZTile) : ZTile := ZTile.zero z.m z.n z.mode z.bord

/-! ## Drained elements (R330) -/

/-- The format of a tile's elements. -/
def ZTile.fmt (z : ZTile) : Fmt := if z.mode = 1 then fp64 else fp32

/-- Element size in bytes under DFMT. -/
def ZTile.drainSize (z : ZTile) (dfmt : Nat) : Nat :=
  if dfmt = 1 ∨ dfmt = 2 then 2 else if z.mode = 0 then 4 else 8

/-- Rows and columns drained. -/
def ZTile.drainShape (z : ZTile) (dfmt : Nat) : Nat × Nat := if dfmt = 3 then (z.m + 1, z.n + 1) else (z.m, z.n)

/-- A cell of the tile with its border; the corner holds +0. -/
def ZTile.cell (z : ZTile) (i j : Nat) : Word :=
  if i < z.m ∧ j < z.n then at' 0 z.el (i * z.n + j)
  else if i < z.m then at' 0 z.zc i
  else if j < z.n then at' 0 z.zr j
  else 0

/-- The bits of element (i, j) as drained. -/
def ZTile.drained (z : ZTile) (dfmt i j : Nat) : Nat :=
  let w := (z.cell i j).toNat
  match dfmt with
  | 1 => (mxRound bf16 (fp32.decode w)).1
  | 2 => (mxRound fp16 (fp32.decode w)).1
  | _ => w

/-! ## The check of a tile (R332, R333) -/

def FVal.absV : FVal → FVal
  | .nan s q p => .nan s q p
  | .inf _ => .inf false
  | .fin _ m e => .fin false m e

/-- |a| > b · 2^−k for exact values that are not NaN, b not negative. -/
def exceeds (a b : FVal) (k : Nat) : Bool :=
  match a, b with
  | _, .inf _ => false
  | .inf _, _ => true
  | .fin _ m e, .fin _ n f =>
    let g := f - k
    let lo := min e g
    decide (n <<< (g - lo).toNat < m <<< (e - lo).toNat)
  | _, _ => false

/-- The residue of a line of values against its border value, and whether it is flagged. -/
def residue (vs : List FVal) (b : FVal) (texp : Nat) : FVal × Bool :=
  let rho := (mxSum (vs ++ [b.negate])).1
  let ra := (mxSum ((vs ++ [b]).map FVal.absV)).1
  (rho, rho.isNaN || exceeds rho ra texp)

/-- The positions flagged among residues. -/
def flagged (rs : List (FVal × Bool)) : List Nat := (imap (fun i (r : FVal × Bool) => if r.2 then [i] else []) 0 rs).flatten

/-- The tile after its check, and the report's 32 bytes. -/
def ZTile.check (z : ZTile) (texp : Nat) (corr : Bool) : ZTile × List Byte :=
  let fl := (if z.nv then 1 else 0) + (if z.ovf then 2 else 0) + (if z.ni then 4 else 0)
  let report := fun (sts nr nc ir jc rho gam : Nat) =>
    leBytes 4 sts ++ leBytes 2 nr ++ leBytes 2 nc ++ leBytes 2 ir ++ leBytes 2 jc ++ leBytes 4 fl ++
      leBytes 8 rho ++ leBytes 8 gam
  if !z.bord then (z, report 5 0 0 0xFFFF 0xFFFF 0 0)
  else
    let v := fun (i j : Nat) => (z.fmt.decode (z.cell i j).toNat).operand
    let rows := (rangeFrom 0 z.m).map fun i => residue ((rangeFrom 0 z.n).map fun j => v i j) (v i z.n) texp
    let cols := (rangeFrom 0 z.n).map fun j => residue ((rangeFrom 0 z.m).map fun i => v i j) (v z.m j) texp
    let fr := flagged rows
    let fc := flagged cols
    let zero : FVal := .fin false 0 0
    let rho := (at' (zero, false) rows (fr.headD z.m)).1
    let gam := (at' (zero, false) cols (fc.headD z.n)).1
    let sts := if fr.isEmpty ∧ fc.isEmpty then 0
      else if fr.length = 1 ∧ fc.length = 1 ∧ !rho.isNaN ∧ !gam.isNaN then 2
      else if fr.isEmpty ∨ fc.isEmpty then 3
      else 4
    let bits := fun (b : Bool) (x : FVal) => if b then (mxRound fp64 x).1 else 0
    let out := fun (sts : Nat) => report sts fr.length fc.length (fr.headD 0xFFFF) (fc.headD 0xFFFF)
      (bits (!fr.isEmpty) rho) (bits (!fc.isEmpty) gam)
    if sts = 2 ∧ corr then
      let i := fr.headD 0
      let j := fc.headD 0
      let new := (mxRound z.fmt (mxSum [v i j, rho.negate]).1).1
      ({ z with el := modAt (fun _ => BitVec.ofNat 64 new) (i * z.n + j) z.el }, out 1)
    else (z, out sts)

end Sys2Proof.Machine
end

