-- ==== Sys2Proof/Machine/Matrix.lean ====
section
/-!
DEFINITION. The matrix engine (R309 to R334): its words at issue, the queue of each group, and the steps
of the engine: loads of the operand buffer, k-steps of a chain, the end of a chain, drains and checks.
-/

namespace Sys2Proof.Machine

/-! ## What a word of the engine does at issue -/

/-- For whom a matrix word acts: the timestamp it captures (R22), its program (R371), the index of its gang. -/
structure MxBy where
  et   : TS
  prog : Option Nat
  gidx : Nat

/-- A matrix word with its operands: the causes its checks raise (R335), whether a record it reads holds a
poisoned word (R381), whether it takes a queue entry, and its effect for a gang or a program. -/
structure MxAct where
  causes : List Nat
  bad    : Bool
  queued : Bool
  go     : State → MxBy → State

/-- Is a core's matrix queue full (R9)? -/
def State.mxFull (s : State) (core : Nat) : Bool := decide (32 ≤ (s.mx.filter (·.core == core)).length)

/-- Does a word have to wait for the next beat, so that the queue's order is that in which the chain state was tracked
(R317, R322): a gang of a greater index has queued in this beat, and one of the two words is a chain marker? -/
def mxBehind (s : State) (x : Cx) (marker : Bool) : Bool :=
  s.mx.any fun c => c.group == x.grp.id && c.born == s.beat && decide (x.g.idx < c.gidx) && (marker || match c.kind with
    | .chainBegin => true
    | .chainEnd _ => true
    | _ => false)

/-- A matrix word as a gang issues it (R316, R317). -/
def mxWord (s : State) (st : BitVec 2) (legal : Bool) (regs : List (BitVec 6)) (act : State → Cx → MxAct)
    (marker : Bool := false) : Host.Outcome State Fault Refusal :=
  engineWordW s legal regs (fun x => mxBehind s x marker) (fun s x => (act s x).causes) fun s x =>
    let a := act s x
    if a.bad then .next (groupFatal s x.grp.id 0x42 (64 * x.g.idx))
    else if a.queued && s.mxFull x.grp.core then .next (hold s x)
    else .next (a.go (goOn s x st) ⟨x.g.pts, none, x.g.idx⟩)

/-- Cause 0x27 where an unused high bit of a handle, slot or tile value is set (R316). -/
def highBits (v : Word) (n : Nat) : List Nat := if v.toNat / 2 ^ n = 0 then [] else [0x27]

/-! ## The queue (R317, R326) -/

/-- The tiles that a command uses. -/
def MxKind.tiles : MxKind → List Nat
  | .loop _ _ zt _ _ _ _ _ _ _ _ _ _ _ => [zt]
  | .chainEnd ts => ts
  | .zero zt => [zt]
  | .drain _ _ _ _ zt => [zt]
  | .chk _ zt _ _ => [zt]
  | _ => []

/-- Does a queued or running command use a tile of the group (R318)? -/
def State.tileBusy (s : State) (grp zt : Nat) : Bool := s.mx.any fun c => c.group == grp && c.kind.tiles.contains zt

/-- The tiles that the open chain uses. -/
def Group.chainTiles (G : Group) : List Nat :=
  match G.chain with
  | some c => c.2.map (·.1)
  | none => []

/-- The next group a core's engine serves: round-robin over the groups whose first command waits (R326). [DESIGN CHOICE: log entry 58] -/
def mxNext (s : State) (core : Nat) : Option Nat :=
  if s.mx.any fun c => c.core == core && c.st == .running then none
  else
    let heads := (s.groups.filter (·.core == core)).filterMap fun G => match s.mx.find? (·.group == G.id) with
      | some c => if c.st == .queued || c.st == .parked true then some G.id else none
      | none => none
    let last := match s.mxRr.find? (·.1 == core) with | some e => e.2 | none => 0
    let least := fun (l : List Nat) => l.foldl (fun (b : Option Nat) g => some (min (b.getD g) g)) none
    (least (heads.filter fun g => decide (last < g))).or (least heads)

/-- The engine of a core starts the group whose turn it is (R326). [DESIGN CHOICE: log entry 58] -/
def mxPoke (s : State) (core : Nat) : State :=
  match mxNext s core with
  | some g => s.postOnce (.mxCommandStart g)
  | none => s

/-- A command enters its group's part of the queue: last, but before what gangs of a greater index queued in the same
beat (R317). [DESIGN CHOICE: log entry 58] -/
def mxInsert (c : MxCmd) : List MxCmd → List MxCmd
  | [] => [c]
  | d :: ds =>
    if d.group = c.group ∧ d.born = c.born ∧ c.gidx < d.gidx ∧ d.st = .queued then c :: d :: ds else d :: mxInsert c ds

/-- A command enters the queue. The engine looks at it once the words of its beat have issued. -/
def mxQueue (s : State) (grp : Nat) (kind : MxKind) (bar : Option BarLoc) (w : MxBy) : State :=
  match s.group? grp with
  | none => s
  | some G =>
    let chain := match G.chain with | some c => c.1 | none => 0
    let c : MxCmd := ⟨s.fresh, G.core, grp, kind, w.et, bar, w.prog, chain, .queued, 0, none, w.gidx, s.beat, none⟩
    let s := { s with fresh := s.fresh + 1, mx := mxInsert c s.mx }
    let s := match bar with | some l => s.bumpOut grp l true | none => s
    s.postAt (4 * (s.beat + 1)) (.mxCommandStart grp)

/-! ## Tiles (R312, R318, R329) -/

/-- An allocated tile. -/
def Group.tile (G : Group) (zt : Nat) : Option ZTile := at' none G.z zt

def State.setTile (s : State) (grp zt : Nat) (z : Option ZTile) : State :=
  s.modGroup grp fun G => { G with z := modAt (fun _ => z) zt G.z }

/-- Damage of a tile's words goes when every element is written. -/
def State.cleanTile (s : State) (grp zt : Nat) : State :=
  { s with bad := s.bad.filter fun d => match d.loc with
      | .tile g t _ => !(g == grp && t == zt)
      | _ => true }

/-- Does a tile hold a poisoned word (R381)? -/
def State.tileBad (s : State) (grp zt : Nat) : Bool :=
  s.bad.any fun d => !d.fixable && (match d.loc with
    | .tile g t _ => g == grp && t == zt
    | _ => false)

/-- Correctable errors of a group's own storage are repaired and logged (R379). -/
def groupRepair (s : State) (G : Group) (unit : Nat) (p : Storage → Bool) : State :=
  (s.bad.filter fun d => d.fixable && p d.loc).foldl (fun s d =>
    logEntry { s with bad := s.bad.erase d } G.part 0x01 0 unit 0 G.lid (ident32 G 0 0) 0) s

def tileRepair (s : State) (G : Group) (zt : Nat) : State :=
  groupRepair s G 0 fun l => match l with
    | .tile g t _ => g == G.id && t == zt
    | _ => false

/-- M or N of a code (R318). -/
def mxShape (c : Nat) : Nat := 16 * 2 ^ c

/-- MXCFG.nf (R318): the register is written unchecked. [DEDUCED: log entry 59] -/
def mxNf (G : Group) (a b : Word) : MxAct where
  causes := []
  bad := false
  queued := false
  go := fun s _ => s.modGroup G.id fun G => { G with nfmt := modAt (fun _ => b) (fld a 0 4) G.nfmt }

/-- Causes of either tile form that names a tile in use (R318, R322). -/
def tileCauses (s : State) (G : Group) (a : Word) : List Nat :=
  let zt := fld a 0 4
  highBits a 4 ++ (if s.tileBusy G.id zt then [0x28] else []) ++
    (if G.chainTiles.contains zt then [0x2A] else [])

/-- MXCFG.tile (R312, R318). -/
def mxTile (s : State) (G : Group) (a b : Word) : MxAct :=
  let zt := fld a 0 4
  let m := mxShape (fld b 0 2)
  let n := mxShape (fld b 2 2)
  let mode := fld b 4 2
  let bord := b.getLsbD 6
  let z := ZTile.zero m n mode bord
  { causes := tileCauses s G a ++ highBits b 7 ++
      (if mode = 3 ∨ (mode = 2 ∧ bord) then [0x27] else []) ++
      (if (G.tile zt).isSome || decide (s.freeAcc G < z.rows) then [0x28] else [])
    bad := false
    queued := false
    go := fun s _ => (s.setTile G.id zt (some z)).cleanTile G.id zt }

/-- MXCFG.free (R318). -/
def mxFree (s : State) (G : Group) (a : Word) : MxAct where
  causes := tileCauses s G a
  bad := false
  queued := false
  go := fun s _ => (s.setTile G.id (fld a 0 4) none).cleanTile G.id (fld a 0 4)

/-! ## Reservations (R310, R311, R319) -/

/-- A 32-byte record at issue (R317). -/
def mxRecord (s : State) (G : Group) (a : Word) : Except Nat (Window × Nat × List Byte) :=
  match scratchAt s G a with
  | none => .error 0x10
  | some (w, off) =>
    if off % 32 ≠ 0 then .error 0x15
    else if (w.tile (off / 4096)).engine then .error 0x20
    else .ok (w, off, w.read off 32)

/-- Does a word of the record that a word reads hold an uncorrectable error (R381)? -/
def mxRecordBad (s : State) (G : Group) (a : Word) : Bool :=
  match mxRecord s G a with
  | .ok (w, off, _) => scratchBad s w off 32
  | .error _ => false

/-- The record that a word has read is repaired where an error of it is correctable (R379). -/
def mxRecordRead (s : State) (G : Group) (a : Word) : State := recordRepair s G a 32

/-- The reservation in 32 bytes. -/
def resvOf (bs : List Byte) : Resv where
  base := recNat bs 0 4 % 2 ^ 18
  len := recNat bs 4 4 % 2 ^ 19
  klen := recNat bs 8 2
  cols := recNat bs 10 2
  cst := recNat bs 12 4 % 2 ^ 18
  bfmt := recNat bs 16 1 % 8
  nf := recNat bs 17 1 % 16
  bl := recNat bs 18 1
  rs := recNat bs 19 1
  scf := recNat bs 20 1 % 4
  sxo := sval 8 (recNat bs 21 1)
  spn := recNat bs 22 1
  moff := recNat bs 24 4 % 2 ^ 18

/-- Bytes of one column under a code width (R311). -/
def Resv.colBytes (r : Resv) (t : Nat) : Nat :=
  if r.bl ≠ 0 then r.kept / r.bl * r.rs
  else if r.bfmt = 2 then (r.kept * t + 7) / 8
  else r.kept * bSize r.bfmt

/-- Is a record refused (R310, R311)? `win` is the window's bytes, `t` the code width. [DEDUCED: log entry 59] -/
def resvBad (bs : List Byte) (win t : Nat) : Bool :=
  let r := resvOf bs
  decide (2 ^ 18 ≤ recNat bs 0 4) || decide (2 ^ 19 ≤ recNat bs 4 4) || decide (2 ^ 18 ≤ recNat bs 12 4) ||
    decide (6 ≤ recNat bs 16 1) || decide (16 ≤ recNat bs 17 1) || !([0, 16, 32].contains r.bl) ||
    decide (2 ≤ recNat bs 20 1) || !([0, 8, 12, 16, 24].contains r.spn) || recNat bs 23 1 != 0 ||
    decide (2 ^ 18 ≤ recNat bs 24 4) || recNat bs 28 4 != 0 ||
    r.base % 128 != 0 || r.len == 0 || r.klen == 0 || r.cols == 0 || decide (win < r.base + r.len) ||
    decide (r.len < (r.cols - 1) * r.cst + r.colBytes t) || (r.scf == 1) != (r.bl != 0) ||
    (r.bl == 0 && r.rs != 0) || (r.spn == 0 && r.moff != 0) ||
    (r.bl != 0 && (r.bfmt != 2 || decide (t < 4) || decide (8 < t) || r.rs != 2 + r.bl * t / 8 ||
      r.kept % r.bl != 0)) ||
    (r.spn != 0 && (decide (3 ≤ r.bfmt) || r.klen % 48 != 0 ||
      decide (win < r.moff + r.cols * (r.klen / 48) * (6 * r.spn / 8))))

/-- Is NFMT register `nf` of the group invalid (R296)? -/
def Group.nfBad (G : Group) (nf : Nat) : Bool := !nfmtValid (at' 0 G.nfmt nf).toNat

/-- MXRES (R319). -/
def mxRes (s : State) (G : Group) (a b : Word) : MxAct :=
  match mxRecord s G a with
  | .error c => ⟨c :: highBits b 3, false, false, fun s _ => s⟩
  | .ok (_, _, bs) =>
    let r := resvOf bs
    let t := (nfmtOf (at' 0 G.nfmt r.nf).toNat).t
    { causes := highBits b 3 ++ (if r.bfmt = 2 ∧ G.nfBad r.nf then [0x27] else []) ++
        (if resvBad bs (G.obu * 16384) t then [0x29] else [])
      bad := mxRecordBad s G a
      queued := false
      go := fun s _ => (mxRecordRead s G a).modGroup G.id fun G =>
        { G with handles := modAt (fun _ => some r) (fld b 0 3) G.handles } }

/-- MXREL (R319): on a free handle it does nothing. -/
def mxRel (G : Group) (a : Word) : MxAct where
  causes := highBits a 3
  bad := false
  queued := false
  go := fun s _ => s.modGroup G.id fun G => { G with handles := modAt (fun _ => none) (fld a 0 3) G.handles }

/-! ## The Rake (R314, R315, R320) -/

/-- The slot in 32 bytes. -/
def rakeOf (bs : List Byte) (nfv : Word) : Rake where
  idn := (recNat bs 0 4).testBit 31
  afmt := recNat bs 0 4 / 2 ^ 28 % 8
  nfv := nfv
  base := recNat bs 0 3
  c := recNat bs 6 2
  pitchx := recNat bs 4 2
  pitchy := recNat bs 8 3
  w := recNat bs 14 2
  h := recNat bs 12 2
  sw := recNat bs 19 1
  sh := recNat bs 18 1
  kw := recNat bs 17 1
  kh := recNat bs 16 1
  pl := recNat bs 23 1
  pt := recNat bs 22 1
  dw := recNat bs 21 1
  dh := recNat bs 20 1
  oh := recNat bs 26 2
  ow := recNat bs 24 2

/-- Is a record refused (R314, R315)? `bad` says that its NFMT register is invalid. [DEDUCED: log entry 59] -/
def rakeBad (k : Rake) (bs : List Byte) (bad : Bool) : Bool :=
  let es := aSize k.afmt
  let geo := [k.w, k.h, k.sw, k.sh, k.kw, k.kh, k.dw, k.dh, k.ow]
  decide (5 ≤ k.afmt) || recNat bs 11 1 != 0 || recNat bs 28 4 != 0 || k.c == 0 || k.oh == 0 ||
    (if k.idn then k.pitchx != 0 || geo.any (· != 0) || k.pt != 0 || k.pl != 0
      else geo.any (· == 0) || [k.sw, k.sh, k.kw, k.kh, k.dw, k.dh].any (fun v => decide (16 < v)) ||
        decide (15 < k.pt) || decide (15 < k.pl)) ||
    k.base % es != 0 || k.pitchx % es != 0 || k.pitchy % es != 0 || (k.afmt == 2 && bad)

/-- MXRAKE (R320). -/
def mxRake (s : State) (G : Group) (a b : Word) : MxAct :=
  match mxRecord s G a with
  | .error c => ⟨c :: highBits b 2, false, false, fun s _ => s⟩
  | .ok (_, _, bs) =>
    let nf := recNat bs 3 1 % 16
    let k := rakeOf bs (at' 0 G.nfmt nf)
    { causes := highBits b 2 ++ (if rakeBad k bs (G.nfBad nf) then [0x27] else [])
      bad := mxRecordBad s G a
      queued := false
      go := fun s _ => (mxRecordRead s G a).modGroup G.id fun G =>
        { G with rakes := modAt (fun _ => some k) (fld b 0 2) G.rakes } }

/-! ## Queued words -/

/-- A queued word with a barrier: its checks and its command. -/
def mxCmdAct (s : State) (G : Group) (causes : List Nat) (c : Word) (kind : Option MxKind) : MxAct :=
  match engineBar s G c with
  | .error e => ⟨causes ++ [e], false, true, fun s _ => s⟩
  | .ok l =>
    { causes := causes
      bad := barDamaged s G l
      queued := true
      go := fun s w => match kind with
        | some k => mxQueue (barRepair s G l) G.id k (some l) w
        | none => s }

/-- MXLDB (R321). -/
def mxLdb (s : State) (G : Group) (a b c : Word) (ssp ef : Bool) : MxAct :=
  let len := fld b 40 24
  let off := fld b 16 24
  let h := at' none G.handles (fld b 0 3)
  let src := if ssp && (scratchAt s G a).isNone then [0x10] else []
  let bad := match h with
    | none => true
    | some r => decide (len < 8) || len % 8 != 0 || off % 8 != 0 || decide (r.len < off + len)
  mxCmdAct s G (src ++ (if a.toNat % 8 = 0 then [] else [0x15]) ++ (if fld b 3 13 = 0 then [] else [0x27]) ++
      (if bad then [0x29] else [])) c
    (h.map fun r => MxKind.ldb a ssp len (r.base + off) ef)

/-- MXBEGIN (R322). -/
def mxBegin (G : Group) : MxAct where
  causes := if G.chain.isSome then [0x2A] else []
  bad := false
  queued := true
  go := fun s w =>
    let id := s.fresh
    mxQueue (s.modGroup G.id fun G => { G with chain := some (id, []) }) G.id .chainBegin none w

/-- The greatest A column that a loop may reach (R324). -/
def lastColumn (r : Resv) (steps K ka0 kai kb0 kbi : Nat) : Nat :=
  if r.spn = 0 then ka0 + (steps - 1) * kai + K - 1
  else
    let e := kb0 + (steps - 1) * kbi + K - 1
    ka0 + 48 * (e / r.spn) + (48 - r.spn + e % r.spn) - 48 * (kb0 / r.spn)

/-- MXLOOP (R323). The formats of its operands are checked, and give K, under any mode where its tile is not
allocated (R335). [DEDUCED: log entry 59] -/
def mxLoop (G : Group) (a b c : Word) : MxAct :=
  let steps := fld a 48 16
  let p := fld a 40 8
  let zt := fld a 36 4
  let m := mxShape (fld a 26 2)
  let n := mxShape (fld a 24 2)
  let i0 := fld b 40 24
  let ka0 := fld b 16 24
  let j0 := fld c 48 16
  let kb0 := fld c 24 24
  let z? := G.tile zt
  let r? := at' none G.handles (fld a 33 3)
  let k? := at' none G.rakes (fld a 28 2)
  let fields := steps = 0 ∨ p = 0 ∨ 64 < p ∨ fld a 30 3 ≠ 0 ∨ fld a 0 24 ≠ 0 ∨ fld c 16 8 ≠ 0 ∨ k?.isNone
  let chain := match G.chain with
    | none => true
    | some ch => ch.2.any fun e => e.1 == zt && e.2 != p
  let nfv := match r? with | some r => at' 0 G.nfmt r.nf | none => 0
  let len := match r?, k? with
    | some r, some k => (match z? with
      | some z => kLen z.mode k r nfv.toNat
      | none => (rangeFrom 0 3).findSome? fun mode => kLen mode k r nfv.toNat)
    | _, _ => none
  let kOf := len.getD 1
  let kai := if fld b 0 16 = 0 then kOf else fld b 0 16
  let kbi := if fld c 0 16 = 0 then kOf else fld c 0 16
  let shape := match z? with
    | some z => decide (z.m ≠ m) || decide (z.n ≠ n)
    | none => false
  let reach := match k?, r?, len with
    | some k, some r, some K =>
      decide (k.rows < i0 + m) || decide (k.cols ≤ lastColumn r steps K ka0 kai kb0 kbi)
    | some k, _, _ => decide (k.rows < i0 + m)
    | _, _, _ => false
  let format := match r?, k? with
    | some r, some _ => len.isNone || (r.bfmt == 2 && !nfmtValid nfv.toNat)
    | _, _ => false
  let beyond := match r?, len with
    | some r, some K => decide (r.cols < j0 + n) || decide (r.kept < kb0 + (steps - 1) * kbi + K) ||
        (r.spn != 0 && (r.kept % K != 0 || kb0 % r.spn != 0 || kbi % K != 0))
    | some r, none => decide (r.cols < j0 + n)
    | none, _ => true
  { causes := (if z?.isNone then [0x28] else []) ++ (if beyond then [0x29] else []) ++
      (if fields || shape || reach || format then [0x27] else []) ++ (if chain then [0x2A] else [])
    bad := false
    queued := true
    go := fun s w => match r?, k? with
      | some r, some k =>
        let s := s.modGroup G.id fun G => { G with chain := G.chain.map fun ch =>
          (ch.1, if ch.2.any (·.1 == zt) then ch.2 else ch.2 ++ [(zt, p)]) }
        mxQueue s G.id (.loop steps p zt r nfv k m n i0 ka0 kai j0 kb0 kbi) none w
      | _, _ => s }

/-- MXEND (R322, R328); `c` is its barrier. -/
def mxEnd (s : State) (G : Group) (c : Option Word) : MxAct :=
  let causes := if G.chain.isNone then [0x2A] else []
  let go := fun (l : Option BarLoc) (s : State) (w : MxBy) =>
    (mxQueue s G.id (.chainEnd G.chainTiles) l w).modGroup G.id fun G => { G with chain := none }
  match c with
  | none => ⟨causes, false, true, go none⟩
  | some c => match engineBar s G c with
    | .error e => ⟨causes ++ [e], false, true, fun s _ => s⟩
    | .ok l => ⟨causes, barDamaged s G l, true, fun s => go (some l) (barRepair s G l)⟩

/-- Inside a chain some words may not issue (R322). -/
def chainCauses (G : Group) : List Nat := if G.chain.isSome then [0x2A] else []

/-- Cause 0x28 for a tile that is not allocated. -/
def noTile (G : Group) (zt : Nat) : List Nat := if (G.tile zt).isNone then [0x28] else []

/-- MXZERO (R329). -/
def mxZero (G : Group) (a : Word) : MxAct where
  causes := highBits a 4 ++ noTile G (fld a 0 4) ++ chainCauses G
  bad := false
  queued := true
  go := fun s w => mxQueue s G.id (.zero (fld a 0 4)) none w

/-- MXDRAIN (R330). Where its tile is not allocated, its place and PITCH meet the checks that they meet whatever the tile
(R335). [DEDUCED: log entry 59] -/
def mxDrain (s : State) (G : Group) (a b c : Word) : MxAct :=
  let zt := fld b 0 4
  let dfmt := fld b 4 2
  let pitch := fld b 8 24
  let form := match G.tile zt with
    | none =>
      let es := if dfmt = 1 ∨ dfmt = 2 then 2 else 4
      (if a.toNat % es = 0 then [] else [0x15]) ++
        (if pitch % es ≠ 0 ∨ pitch < (if dfmt = 3 then 17 else 16) * es then [0x27] else [])
    | some z =>
      let es := z.drainSize dfmt
      (if a.toNat % es = 0 then [] else [0x15]) ++
        (if pitch % es ≠ 0 ∨ pitch < (z.drainShape dfmt).2 * es ∨ ((dfmt = 1 ∨ dfmt = 2) ∧ z.mode ≠ 0) ∨
          (dfmt = 3 ∧ !z.bord) then [0x27] else [])
  mxCmdAct s G ((if (scratchAt s G a).isNone then [0x10] else []) ++ form ++
      (if fld b 32 32 ≠ 0 ∨ b.getLsbD 7 then [0x27] else []) ++ noTile G zt ++ chainCauses G) c
    (some (.drain (fld a 0 24) pitch (b.getLsbD 6) dfmt zt))

/-- MXCHK (R332, R333). -/
def mxChk (s : State) (G : Group) (a b c : Word) : MxAct :=
  let zt := fld b 0 4
  mxCmdAct s G ((if (scratchAt s G a).isNone then [0x10] else []) ++
      (if a.toNat % 32 = 0 then [] else [0x15]) ++
      (if b &&& ~~~0x11F0F#64 = 0 then [] else [0x27]) ++ noTile G zt ++ chainCauses G) c
    (some (.chk (fld a 0 24) zt (fld b 8 5) (b.getLsbD 16)))

/-! ## The words -/

/-- MXCFG.nf (R318). -/
def execMxcfgNf (o : OpEn2) (s : State) := mxWord s o.s true [o.a, o.b] fun _ x => mxNf x.grp (x.uni o.a) (x.uni o.b)
/-- MXCFG.tile (R318). -/
def execMxcfgTile (o : OpEn2) (s : State) :=
  mxWord s o.s true [o.a, o.b] fun s x => mxTile s x.grp (x.uni o.a) (x.uni o.b)
/-- MXCFG.free (R318). -/
def execMxcfgFree (o : OpEn1) (s : State) := mxWord s o.s true [o.a] fun s x => mxFree s x.grp (x.uni o.a)
/-- MXRES (R319). -/
def execMxres (o : OpEn2) (s : State) := mxWord s o.s true [o.a, o.b] fun s x => mxRes s x.grp (x.uni o.a) (x.uni o.b)
/-- MXREL (R319). -/
def execMxrel (o : OpEn1) (s : State) := mxWord s o.s true [o.a] fun _ x => mxRel x.grp (x.uni o.a)
/-- MXRAKE (R320). -/
def execMxrake (o : OpEn2) (s : State) :=
  mxWord s o.s true [o.a, o.b] fun s x => mxRake s x.grp (x.uni o.a) (x.uni o.b)
/-- MXLDB (R321): FL bit 0 is SSP, bit 1 EF. -/
def execMxldb (o : OpMxldb) (s : State) :=
  mxWord s o.s (o.f != 3#2) [o.a, o.b, o.c] fun s x =>
    mxLdb s x.grp (x.uni o.a) (x.uni o.b) (x.uni o.c) (o.f.getLsbD 0) (o.f.getLsbD 1)
/-- MXBEGIN (R322). -/
def execMxbegin (o : OpSt) (s : State) := mxWord s o.s true [] (fun _ x => mxBegin x.grp) true
/-- MXLOOP (R323). -/
def execMxloop (o : OpEn3) (s : State) :=
  mxWord s o.s true [o.a, o.b, o.c] fun _ x => mxLoop x.grp (x.uni o.a) (x.uni o.b) (x.uni o.c)
/-- MXEND (R322, R328): with FL = 1 it arrives at its barrier. -/
def execMxend (o : OpEnA) (s : State) :=
  mxWord s o.s (o.f == 1#1 || o.a == 0#6) (if o.f = 1#1 then [o.a] else []) (fun s x =>
    mxEnd s x.grp (if o.f = 1#1 then some (x.uni o.a) else none)) true
/-- MXZERO (R329). -/
def execMxzero (o : OpEn1) (s : State) := mxWord s o.s true [o.a] fun _ x => mxZero x.grp (x.uni o.a)
/-- MXDRAIN (R330). -/
def execMxdrain (o : OpEn3) (s : State) :=
  mxWord s o.s true [o.a, o.b, o.c] fun s x => mxDrain s x.grp (x.uni o.a) (x.uni o.b) (x.uni o.c)
/-- MXCHK (R332, R333). -/
def execMxchk (o : OpEn3) (s : State) :=
  mxWord s o.s true [o.a, o.b, o.c] fun s x => mxChk s x.grp (x.uni o.a) (x.uni o.b) (x.uni o.c)

/-! ## The engine runs a command -/

/-- The step that carries a running command on, and the cycles to it: a k-step takes 4 beats (R324). -/
def MxCmd.step (c : MxCmd) : Nat × Instr :=
  match c.kind with
  | .ldb _ _ _ _ _ => (4, .mxldbLand c.id)
  | .loop _ _ _ _ _ _ _ _ _ _ _ _ _ _ => (16, .mxKstep c.id)
  | .drain _ _ _ _ _ => (4, .mxdrainLand c.id)
  | .chk _ _ _ _ => (4, .mxchkComplete c.id)
  | _ => (4, .mxendComplete c.id)

/-- A running command takes its next step after the cycles that the step lasts (R324, R326). [DESIGN CHOICE: log entry 58] -/
def mxOn (s : State) (c : MxCmd) : State := s.postAt (s.cycle + c.step.1) c.step.2

/-- Drop every claim of a command. -/
def mxDropClaims (s : State) (cmd : Nat) : State :=
  (s.claimsOf cmd).foldl (fun s t => (dropClaim s t.1 t.2 cmd).1) s

/-- A command leaves the queue. -/
def mxLeave (s : State) (c : MxCmd) : State :=
  let s := { s with mx := s.mx.filter (·.id != c.id) }
  let s := match c.bar with | some l => s.bumpOut c.group l false | none => s
  ((mxPoke ((s.progTime c.prog c.et).progTest c.prog) c.core)).endPoke

/-- MX_COMMAND_START: the engine takes the group's next command when it is its turn (R326). A chain's start
completes at once; MXZERO clears its tile. -/
def execMxCommandStart (group : Nat) (s : State) : Host.Outcome State Fault Refusal :=
  match s.mx.find? (·.group == group) with
  | none => .next s
  | some c =>
    let waiting := c.st == .queued || c.st == .parked true
    if !waiting || (s.mx.any fun d => d.core == c.core && d.st == .running) then .next s
    else if mxNext s c.core ≠ some group then .next (mxPoke s c.core)
    else
      let s := { s with mxRr := (c.core, group) :: s.mxRr.filter (·.1 != c.core) }
      let s := s.modMx c.id fun c => { c with st := .running, page := none }
      match c.kind with
      | .chainBegin => .next (mxLeave s c)
      | .zero zt => match (s.group? group).bind (·.tile zt) with
        | none => .next (mxLeave s c)
        | some z => .next (mxLeave ((s.setTile group zt (some z.cleared)).cleanTile group zt) c)
      | _ => .next (mxOn s c)

/-- A running command with its group. -/
def mxRunning (s : State) (cmd : Nat) (k : MxCmd → Group → State) : Host.Outcome State Fault Refusal :=
  match s.mx? cmd with
  | none => .next s
  | some c => match s.group? c.group with
    | none => .next s
    | some G => .next (if c.st = .running && G.fatal.isNone then k c G else s)

/-- A command's fault while running is group-fatal (R334); by an owner fault the open phase of its barrier completes
aborted (R15, R19), with the progress of the command in AINF (R250). [DEDUCED: log entry 83] -/
def mxFault (s : State) (c : MxCmd) (cause : Nat) : State :=
  let s := failGroup s c.group cause 0
  match c.bar, s.group? c.group with
    | some l, some G => if cause = 0x22 then s.abortPhase G.team l cause c.pos else s
    | _, _ => s

/-- What the engine's access to global memory means for a command (R334, R281). -/
def mxTake (r : EngRes) (s0 : State) (c : MxCmd) (k : State → List Byte → State) : State :=
  match r with
  | .ok s bytes wts => k (match wts with
      | some t => s.modMx c.id fun c => { c with et := smax c.et t }
      | none => s) bytes
  | .sent s id => mxOn (s.modMx c.id fun c => { c with far := some (id, none) }) c
  | .wait s => mxOn s c
  | .fabric =>
    let s := if s0.nsTimers.any fun t => t.2 == .fabricTimeout c.id then s0
      else s0.postNs (s0.ptp + 1000000) (.fabricTimeout c.id)
    mxOn s c
  | .absent s va =>
    mxPoke (s.modMx c.id fun c => { c with st := .parked false, page := some (va / 65536 * 65536) }) c.core
  | .bad cause => mxFault s0 c cause

/-- A scratchpad access of the engine at an offset: its place and the claim. -/
def mxScratch (s : State) (G : Group) (off align claimer : Nat) (write : Bool) : Except Nat (State × Window × Nat) :=
  match scratchAt s G (BitVec.ofNat 64 off) with
  | none => .error 0x10
  | some (w, o) =>
    if o % align ≠ 0 then .error 0x15
    else match claimTile s w.id (o / 4096) claimer write with
      | none => .error 0x22
      | some s => .ok (s, w, o)

/-- Bytes of an operand-buffer window that are poisoned. -/
def obBad (s : State) (grp off n : Nat) : Bool :=
  s.bad.any fun d => !d.fixable && (match d.loc with
    | .operandBuffer g w => g == grp && (rangeFrom off n).any fun o => o / 8 == w && !d.good.getLsbD (o % 8)
    | _ => false)

/-- MXLDB lands the next bytes, at most up to the end of a line (R321). -/
def mxLand (s : State) (c : MxCmd) (G : Group) (src : Word) (ssp : Bool) (len dst : Nat) (ef : Bool) : State :=
  let a := src + BitVec.ofNat 64 c.pos
  let n := min (len - c.pos) (128 - a.toNat % 128)
  let put := fun (s : State) (bytes : List Byte) =>
    let s := { s with bad := s.bad.filter fun d => match d.loc with
      | .operandBuffer g w => !(g == G.id && decide (dst + c.pos ≤ 8 * w) && decide (8 * w < dst + c.pos + n))
      | _ => true }
    let s := s.modGroup G.id fun G => { G with ob := G.ob.write (dst + c.pos) bytes }
    let s := s.modMx c.id fun c => { c with pos := c.pos + n }
    if c.pos + n < len then mxOn s c
    else
      let s := mxDropClaims s c.id
      match s.mx? c.id with
      | none => s
      | some c =>
        let s := match c.bar with | some l => s.credit G.team l len c.et | none => s
        mxLeave s c
  if ssp then match mxScratch s G a.toNat 8 c.id false with
    | .error e => mxFault s c e
    | .ok (s, w, o) =>
      if scratchBad s w o n then mxFault s c 0x41
      else put (scratchRepair s G w o n) (w.read o n)
  else match c.far with
    | some (id, none) => if (s.req? id).isSome then mxOn s c
      else mxOn (s.modMx c.id fun c => { c with far := none }) c
    | some (_, some bytes) =>
      let s := s.modMx c.id fun c => { c with far := none }
      if bytes.isEmpty then mxFault s c 0x41
      else
        let r := s.replayRead G.id (s.farKeyOf a) bytes
        put r.1 r.2
    | none => mxTake (engRead s ⟨G.core, G.part, G.asn, G.id, c.id, c.pos, c.et, ef⟩ n 8 a) s c put

/-- MXLDB_LAND. -/
def execMxldbLand (cmd : Nat) (s : State) : Host.Outcome State Fault Refusal :=
  mxRunning s cmd fun c G => match c.kind with
    | .ldb src ssp len dst ef => mxLand s c G src ssp len dst ef
    | _ => s

/-- The A operands of a k-step under read claims of the chain (R327): for each column the values of the
tile's rows; or the cause of a fault. -/
def readA (s : State) (G : Group) (claimer : Nat) (rk : Rake) (k : KStep) :
    Except Nat (State × List (Nat × List FVal)) :=
  let es := aSize rk.afmt
  k.columns.foldl (fun (acc : Except Nat (State × List (Nat × List FVal))) col => match acc with
    | .error e => .error e
    | .ok (s, tab) =>
      let r := (rangeFrom k.i0 k.m).foldl (fun (acc : Except Nat (State × List FVal)) i => match acc with
        | .error e => .error e
        | .ok (s, vs) => match rk.offset i col with
          | none => .ok (s, vs ++ [.fin false 0 0])
          | some off => match mxScratch s G off es claimer false with
            | .error e => .error e
            | .ok (s, w, o) =>
              if scratchBad s w o es then .error 0x41
              else .ok (scratchRepair s G w o es, vs ++ [rk.value (leNat (w.read o es))])) (.ok (s, []))
      match r with
      | .error e => .error e
      | .ok (s, vs) => .ok (s, tab ++ [(col, vs)])) (.ok (s, []))

/-- Does a k-step read a poisoned byte of the operand buffer? -/
def bBad (s : State) (grp : Nat) (r : Resv) (t : Nat) (k : KStep) : Bool :=
  (rangeFrom k.j0 k.n).any fun j => k.kept.any fun e =>
    let col := r.base + j * r.cst
    if r.bl ≠ 0 then obBad s grp (col + e / r.bl * r.rs) r.rs
    else if r.bfmt = 2 then obBad s grp (col + e * t / 8) ((e * t % 8 + t + 7) / 8)
    else obBad s grp (col + e * bSize r.bfmt) (bSize r.bfmt)

/-- Does a k-step read a poisoned byte of sparsity metadata (R302)? `kept` are its kept elements. -/
def metaBad (s : State) (grp : Nat) (r : Resv) (j0 n : Nat) (kept : List Nat) : Bool :=
  let size := 6 * r.spn / 8
  r.spn != 0 && (rangeFrom j0 n).any fun j => ((kept.map (· / r.spn)).eraseDups).any fun g =>
    obBad s grp (r.moff + j * (r.klen / 48) * size + g * size) size

/-- One k-step's sums enter the tile (R306 to R308). -/
def ZTile.enter (z : ZTile) (p : Nat) (rk : Rake) (ob : Memory) (r : Resv) (nfv : Nat) (k : KStep)
    (A : List (Nat × List FVal)) : ZTile :=
  let js := rangeFrom k.j0 k.n
  if z.mode = 2 then
    let B := js.map fun j => k.kept.map fun e => bPair ob r e j
    let A2 := A.map fun c => (c.1, c.2.map mxSquare)
    z.moment p (stepSums k false A (B.map fun c => c.map (·.1))) (stepSums k false A2 (B.map fun c => c.map (·.2)))
  else
    let x := stepSums k z.bord A (js.map fun j => k.kept.map fun e => bElem ob r nfv e j)
    if z.mode = 1 then z.direct fp64 x
    else if rk.afmt = 3 then z.direct fp32 x
    else z.staged p x

/-- MX_KSTEP: the engine performs the next k-step of a loop (R324). -/
def execMxKstep (cmd : Nat) (s : State) : Host.Outcome State Fault Refusal :=
  mxRunning s cmd fun c G => match c.kind with
    | .loop steps p zt r nfv rk m n i0 ka0 kai j0 kb0 kbi => match G.tile zt with
      | none => mxLeave s c
      | some z => match kLen z.mode rk r nfv.toNat with
        | none => mxLeave s c
        | some K =>
          if metaBad s G.id r j0 n (rangeFrom (kb0 + c.pos * kbi) K) then mxFault s c 0x41
          else match kStep G.ob r K m n i0 ka0 kai j0 kb0 kbi c.pos with
          | none => mxFault s c 0x26
          | some k =>
            if s.tileBad G.id zt || bBad s G.id r (nfmtOf nfv.toNat).t k then mxFault s c 0x41
            else
              let s := tileRepair s G zt
              let s := groupRepair s G 4 fun l => match l with
                | .operandBuffer g _ => g == G.id
                | _ => false
              match readA s G c.chain rk k with
              | .error e => mxFault s c e
              | .ok (s, A) =>
                let s := s.setTile G.id zt (some (z.enter p rk G.ob r nfv.toNat k A))
                let s := s.modMx c.id fun c => { c with pos := c.pos + 1 }
                if c.pos + 1 < steps then mxOn s c else mxLeave s c
    | _ => s

/-- The tiles of a chain take their last promotion (R306). -/
def lastSteps (s : State) (grp : Nat) (tiles : List Nat) : State :=
  tiles.foldl (fun s zt => match (s.group? grp).bind (·.tile zt) with
    | some z => s.setTile grp zt (some z.lastStep)
    | none => s) s

/-- MXEND_COMPLETE (R328): every step is promoted, the chain's claims drop, and the barrier has one arrival
more. -/
def execMxendComplete (cmd : Nat) (s : State) : Host.Outcome State Fault Refusal :=
  mxRunning s cmd fun c G => match c.kind with
    | .chainEnd tiles =>
      let s := mxDropClaims (lastSteps s G.id tiles) c.chain
      let s := match c.bar with | some l => s.arrive G.team l c.et | none => s
      mxLeave s c
    | _ => s

/-- Write bytes to scratchpad at an engine's offset under a write claim of the command. -/
def mxStore (s : State) (G : Group) (cmd off align : Nat) (bytes : List Byte) : Except Nat (State × Nat × Nat) :=
  match mxScratch s G off align cmd true with
  | .error e => .error e
  | .ok (s, w, o) => .ok ((scratchMend s G w o bytes.length).winWrite w.id o bytes, w.id, o / 4096)

/-- The command finishes with a destination tile, whose bytes are credited (R18, R284). -/
def mxRelease (s : State) (c : MxCmd) (team : Nat) (t : Nat × Nat) (bytes : Nat) : State :=
  let r := dropClaim s t.1 t.2 c.id
  match c.bar with
  | some l => if r.2 then r.1.credit team l bytes c.et else r.1
  | none => r.1

/-- The place in the window of element `e` of a drain. -/
def drainOff (dst pitch cols es e : Nat) : Nat := dst + e / cols * pitch + e % cols * es

/-- The tile that an element of a drain lands in. -/
def drainTile (s : State) (G : Group) (off : Nat) : Option (Nat × Nat) :=
  (scratchAt s G (BitVec.ofNat 64 off)).map fun w => (w.1.id, w.2 / 4096)

/-- MXDRAIN lands at most 512 bytes in a beat (R330); tiles that no later element reaches are finished. -/
def mxDrainBeat (s : State) (c : MxCmd) (G : Group) (z : ZTile) (dst pitch : Nat) (clr : Bool) (dfmt zt : Nat) :
    State :=
  let es := z.drainSize dfmt
  let rows := (z.drainShape dfmt).1
  let cols := (z.drainShape dfmt).2
  let total := rows * cols
  let n := min (512 / es) (total - c.pos)
  let r := (rangeFrom c.pos n).foldl (fun (acc : Except Nat State) e => match acc with
    | .error x => .error x
    | .ok s => match mxStore s G c.id (drainOff dst pitch cols es e) es
          (leBytes es (z.drained dfmt (e / cols) (e % cols))) with
      | .error x => .error x
      | .ok (s, _, _) => .ok s) (.ok s)
  match r with
  | .error x => mxFault s c x
  | .ok s =>
    let tileOf := fun (e : Nat) => drainTile s G (drainOff dst pitch cols es e)
    let next := if c.pos + n < total then tileOf (c.pos + n) else none
    let done := (((rangeFrom c.pos n).filterMap tileOf).eraseDups).filter fun t => next != some t
    let s := done.foldl (fun s t =>
      mxRelease s c G.team t (es * ((rangeFrom 0 total).filter fun e => tileOf e == some t).length)) s
    if c.pos + n < total then mxOn (s.modMx c.id fun c => { c with pos := c.pos + n }) c
    else mxLeave (if clr then (s.setTile G.id zt (some z.cleared)).cleanTile G.id zt else s) c

/-- MXDRAIN_LAND. -/
def execMxdrainLand (cmd : Nat) (s : State) : Host.Outcome State Fault Refusal :=
  mxRunning s cmd fun c G => match c.kind with
    | .drain dst pitch clr dfmt zt => match G.tile zt with
      | none => mxLeave s c
      | some z => if s.tileBad G.id zt then mxFault s c 0x41
        else mxDrainBeat (tileRepair s G zt) c G z dst pitch clr dfmt zt
    | _ => s

/-- MXCHK_COMPLETE (R332, R333). -/
def execMxchkComplete (cmd : Nat) (s : State) : Host.Outcome State Fault Refusal :=
  mxRunning s cmd fun c G => match c.kind with
    | .chk dst zt texp corr => match G.tile zt with
      | none => mxLeave s c
      | some z =>
        if s.tileBad G.id zt then mxFault s c 0x41
        else
          let r := z.check texp corr
          match mxStore (tileRepair s G zt) G c.id dst 32 r.2 with
          | .error e => mxFault s c e
          | .ok (s, w, t) => mxLeave (mxRelease (s.setTile G.id zt (some r.1)) c G.team (w, t) 32) c
    | _ => s

/-! ## Ends (R334) -/

/-- The matrix commands of a group are cancelled: claims drop, and nothing is credited. -/
def mxCancelAll (s : State) (grp : Nat) : State :=
  let cs := s.mx.filter (·.group == grp)
  let s := cs.foldl (fun s c => mxDropClaims (mxDropClaims s c.id) c.chain) s
  let s := match (s.group? grp).bind (·.chain) with | some ch => mxDropClaims s ch.1 | none => s
  cs.foldl (fun s c => mxLeave s c) s

/-- A chain still open when a group ends completes without an arrival (R334). -/
def mxCloseChain (s : State) (grp : Nat) : State :=
  match (s.group? grp).bind (·.chain) with
  | none => s
  | some ch => (mxDropClaims (lastSteps s grp (ch.2.map (·.1))) ch.1).modGroup grp fun G => { G with chain := none }

/-- Every tile is freed, every handle and Rake slot emptied, every NFMT register 0 (R42, R295, R334). -/
def State.clearMatrix (s : State) (grp : Nat) : State :=
  let s := s.modGroup grp fun G => { G with
    nfmt := List.replicate 16 0, z := List.replicate 16 none
    handles := List.replicate 8 none, rakes := List.replicate 4 none, chain := none }
  { s with bad := s.bad.filter fun d => match d.loc with
      | .tile g _ _ => g != grp
      | _ => true }

end Sys2Proof.Machine
end

