-- ==== Sys2Proof/Machine/Teams.lean ====
section
/-!
DEFINITION. Where teams go and how they end (R28, R29, R183, R196, R354, R358 to R362): the room on a core,
the offer of cores, the start of a team, pre-emption, discards, and the end of groups (R214, R240, R288,
R334, R349).
-/

namespace Sys2Proof.Machine

/-! ## What a launch asks for -/

def Launch.reg (l : Launch) : Nat := fld (l.pword.setWidth 64) 0 8
def Launch.scr (l : Launch) : Nat := fld (l.pword.setWidth 64) 8 8
def Launch.acc (l : Launch) : Nat := fld (l.pword.setWidth 64) 16 8
def Launch.rsv (l : Launch) : Nat := fld (l.pword.setWidth 64) 24 4

/-- The groups of a waiting team that are placed, each with its number of gangs: those of a restarted team
that had not ended, one group of one gang for a gathered team (R361, R364). -/
def WaitTeam.shape (l : Launch) (t : WaitTeam) : List (Nat × Nat) :=
  if !t.restart.isEmpty then ((t.restart.map (·.grp)).eraseDups).map fun g =>
    (g, (t.restart.filter (·.grp == g)).length)
  else if t.stage.isSome then [(0, 1)]
  else (rangeFrom 0 l.groups).map fun g => (g, l.gangs)

/-- Is the team one of a pair? -/
def WaitTeam.pairs (l : Launch) (t : WaitTeam) : Bool := l.pair && t.stage.isNone

/-- The core of a group of a team offered core `c` (R29). -/
def WaitTeam.coreOf (l : Launch) (t : WaitTeam) (c g : Nat) : Nat :=
  if t.pairs l && decide ((l.groups + 1) / 2 ≤ g) then c + 1 else c

/-! ## Room on a core (R28, R183, R309) -/

/-- Does a slice keep its pipe slot: it has not retired, nor has its gang exited (R28, R41, R122)? -/
def Gang.keepsSlot (g : Gang) (sl : Slice) : Bool :=
  sl.lanes.any (!·.dead) && sl.run != .retired && g.ended != some .exit

/-- Slices resident per pipe of a core: entry 32 · scheduler + pipe; teams of `gone` do not count. [DESIGN CHOICE: log entry 60] -/
def coreSlots (s : State) (core : Nat) (gone : List Nat) : List Nat :=
  let gs := s.gangs.filter fun g => match s.group? g.group with
    | some G => G.core == core && !gone.contains G.team
    | none => false
  gs.foldl (fun t g => g.slices.foldl (fun t sl =>
    if g.keepsSlot sl then modAt (· + 1) (32 * g.sched + sl.pipe) t else t) t) (List.replicate 128 0)

/-- Insert a pipe by its load. -/
def insertPipe (x : Nat × Nat) : List (Nat × Nat) → List (Nat × Nat)
  | [] => [x]
  | y :: r => if x.1 < y.1 then x :: y :: r else y :: insertPipe x r

/-- The `w` least loaded pipes of a scheduler with a free slot. [DESIGN CHOICE: log entry 60] -/
def pipesOf (slots : List Nat) (q w : Nat) : Option (List Nat) :=
  let free := ((rangeFrom 0 Config.pipes).map fun p => (at' 8 slots (32 * q + p), p)).filter fun x =>
    decide (x.1 < Config.slotsPerPipe)
  let ps := ((free.foldl (fun acc x => insertPipe x acc) []).map (·.2)).take w
  if ps.length = w then some ps else none

/-- The pipes for one more gang: the scheduler with most room that has `w` pipes. -/
def gangPipes (slots : List Nat) (w : Nat) : Option (Nat × List Nat) :=
  let load := fun (q : Nat) => (((rangeFrom 0 Config.pipes).map fun p => at' 0 slots (32 * q + p))).sum
  (rangeFrom 0 Config.schedulers).foldl (fun (b : Option (Nat × List Nat)) q => match pipesOf slots q w, b with
    | some ps, none => some (q, ps)
    | some ps, some c => if load q < load c.1 then some (q, ps) else b
    | none, _ => b) none

def useSlots (slots : List Nat) (q : Nat) (ps : List Nat) : List Nat :=
  ps.foldl (fun t p => modAt (· + 1) (32 * q + p) t) slots

/-- Pipes for a number of gangs. [DESIGN CHOICE: log entry 60] -/
def placeGangs (w : Nat) : Nat → List Nat → Option (List (Nat × List Nat))
  | 0, _ => some []
  | n + 1, slots => match gangPipes slots w with
    | none => none
    | some c => (placeGangs w n (useSlots slots c.1 c.2)).map (c :: ·)

/-- Pool units and operand-buffer units in use on a core (R183, R309). -/
def coreUnits (s : State) (core : Nat) (gone : List Nat) : Nat × Nat :=
  let gs := s.groups.filter fun G => G.core == core && !gone.contains G.team
  let ws := s.windows.filter fun w => w.core == core && !gone.contains w.team
  ((gs.map fun G => G.regU + G.accU).sum + (ws.map fun w => w.tiles.length / 4).sum, (gs.map (·.obu)).sum)

/-- Does a waiting team fit when core `c` is offered? -/
def fitsTeam (s : State) (l : Launch) (t : WaitTeam) (c : Nat) (gone : List Nat) : Bool :=
  let cores := if t.pairs l then [c, c + 1] else [c]
  cores.all fun k =>
    let gs := (t.shape l).filter fun g => t.coreOf l c g.1 == k
    let u := coreUnits s k gone
    decide (u.1 + gs.length * (l.reg + l.acc) + l.scr ≤ 128) && decide (u.2 + gs.length * l.obu ≤ 16) &&
      (placeGangs (l.width / 4) ((gs.map (·.2)).sum) (coreSlots s k gone)).isSome

/-! ## The offer of cores (R196, R354) -/

/-- Does a partition own a logical core that exists? -/
def State.ownsCore (s : State) (part n : Nat) : Bool :=
  (at' 0 (s.part part).cores (n / 64)).getLsbD (n % 64) && (s.physical n).isSome

/-- The cores of a partition. -/
def State.ownCores (s : State) (part : Nat) : List Nat := (rangeFrom 0 Config.cores).filter (s.ownsCore part)

/-- The order in which dies are offered (R196). -/
def dieOrder (s : State) (l : Launch) : List Nat :=
  let first := match l.args.head?.bind (gaddr s) with
    | some (0, va) => match s.lookPast l.part l.asn va with
      | .leaf f => some (f.quad va)
      | _ => none
    | _ => none
  (rangeFrom (first.getD (s.lastDie + 1)) 4).map (· % 4)

/-- Cores, or even cores of pairs, that a team may be offered, in order. -/
def offers (s : State) (l : Launch) (t : WaitTeam) : List Nat :=
  let on := ((dieOrder s l).map fun d => rangeFrom (36 * d) 36).flatten
  on.filter fun c => s.ownsCore l.part c &&
    (!t.pairs l || (c % 2 == 0 && s.paired c && s.ownsCore l.part (c + 1)))

/-- The cores that a stage's groups run on. -/
def stageCores (s : State) (l : Launch) (st : Nat) : List Nat :=
  ((s.groups.filter fun G => G.part == l.part && G.lid == l.lid && G.stage == some st && G.replay.isNone).map
    (·.core)).eraseDups

/-- Is a stage held: is a queue of another stage that it emitted into during the last interval at least 7/8 full
(R365)? -/
def Launch.stageHeld (l : Launch) (k : Nat) (g : Stage) : Bool :=
  g.fed.any fun j => j != k && (l.stages[j]?).any fun f => decide (7 * f.qcap ≤ 8 * f.recs.length)

/-- The cores that stages other than `k` still lack of those kept for them while they hold records (R363, R365). -/
def keptFor (s : State) (l : Launch) (k : Option Nat) : Nat :=
  (imap (fun j (g : Stage) =>
    let holds := !g.recs.isEmpty || l.wait.any (·.stage == some j)
    if k == some j || !holds then 0 else g.minc - (stageCores s l j).length) 0 l.stages).sum

/-- Does a team leave the cores that are kept for stages: it goes where groups run already, or enough idle cores
remain? [DESIGN CHOICE: log entry 62] -/
def keepsMinc (s : State) (l : Launch) (t : WaitTeam) (c : Nat) : Bool :=
  let kept := keptFor s l t.stage
  let idle := if kept = 0 then [] else (s.ownCores l.part).filter fun n => !s.groups.any (·.core == n)
  let takes := (idle.filter fun n => n == c || (t.pairs l && n == c + 1)).length
  kept == 0 || takes == 0 || decide (kept + takes ≤ idle.length)

/-- May a team go on this core: a gathered one under its stage's allowance, any beside the cores kept for stages
(R365)? -/
def stageAllows (s : State) (l : Launch) (t : WaitTeam) (c : Nat) : Bool :=
  keepsMinc s l t c && match t.stage with
  | none => true
  | some k => match l.stages[k]? with
    | none => true
    | some g =>
      let on := stageCores s l k
      !l.stageHeld k g && (on.contains c || decide (on.length < max 1 g.allow))

/-- Teams that replay finished groups (R391). -/
def State.replayTeams (s : State) : List Nat := (s.groups.filter (·.replay.isSome)).map (·.team)

/-- Those that give way to any other team: one that is ending keeps its units until it has ended (R183). [DESIGN CHOICE: log entry 67] -/
def State.yieldingTeams (s : State) : List Nat := (s.groups.filter fun G => G.replay.isSome && !G.ending).map (·.team)

/-- The core that a waiting team goes on. [DEDUCED: log entry 89] -/
def findCore (s : State) (l : Launch) (t : WaitTeam) : Option Nat :=
  (offers s l t).find? fun c => stageAllows s l t c && fitsTeam s l t c s.yieldingTeams

/-! ## Which team is next (R354, R358) -/

/-- The team a launch would place next: a discarded one first, then its own in team order where a core is not kept
for a stage, then gathered ones whose stage is not held. -/
def Launch.nextTeam (s : State) (l : Launch) : Option WaitTeam :=
  match l.wait.find? fun t => !t.restart.isEmpty with
  | some t => some t
  | none =>
    let own : WaitTeam := ⟨l.next, [], none, [], none⟩
    if l.next < l.nteams ∧ (keptFor s l none = 0 ∨ (offers s l own).any (stageAllows s l own)) then some own
    else l.wait.find? fun t => (offers s l t).any (stageAllows s l t)

/-- May a launch's teams be placed: a kernel launch, accepted, whose dependences are satisfied (R351)? -/
def Launch.canPlace (l : Launch) : Bool :=
  l.kind == 0 && !l.rej && l.done.isNone && l.deps.isEmpty && (l.st == .ready || l.st == .running)

/-- The cores a partition holds. [DEDUCED: log entry 38] -/
def State.heldCores (s : State) (part : Nat) : Nat :=
  (((s.groups.filter fun G => G.part == part && G.replay.isNone).map (·.core)).eraseDups).length

/-- Does the partition hold fewer cores than its minimum share? -/
def State.short (s : State) (part : Nat) : Bool := decide (s.heldCores part < (s.part part).minc)

/-- The launch of a partition that is offered a core next, with its team: by inherited class, then in order
of acceptance. [DEDUCED: log entry 89] -/
def bestLaunch (s : State) (part : Nat) : Option (Launch × WaitTeam) :=
  (s.launches.filter fun l => l.part == part && l.canPlace && !(s.part part).rst).foldl
    (fun (b : Option (Launch × WaitTeam)) l => match l.nextTeam s, b with
      | none, _ => b
      | some t, none => some (l, t)
      | some t, some c =>
        if c.1.inherited s < l.inherited s ∨ (c.1.inherited s = l.inherited s ∧ l.order < c.1.order)
        then some (l, t) else b) none

/-- Offer free cores to waiting teams: a partition below its minimum share first, then by class and order. Offers that
stand already are made anew, in the order that now holds. [DEDUCED: log entry 38] -/
def State.kick (s : State) : State :=
  let cs := (rangeFrom 0 Config.partitions).filterMap fun p => bestLaunch s p
  let before := fun (a b : Launch × WaitTeam) =>
    if s.short a.1.part != s.short b.1.part then s.short a.1.part
    else if a.1.inherited s ≠ b.1.inherited s then decide (b.1.inherited s < a.1.inherited s)
    else decide (a.1.order < b.1.order)
  let rec ins (a : Launch × WaitTeam) : List (Launch × WaitTeam) → List (Launch × WaitTeam)
    | [] => [a]
    | b :: r => if before a b then a :: b :: r else b :: ins a r
  let old := s.agenda.filter fun i => match i with | .placeTeam _ _ => false | _ => true
  (cs.foldl (fun acc c => ins c acc) []).foldl (fun s c => s.postOnce (.placeTeam c.1.part c.1.lid)) { s with agenda := old }

/-! ## The start of a team (R349, R361, R364, R389) -/

/-- The uniform registers of a gang at group start (R349). -/
def startUniforms (l : Launch) (teamIdx grp gang : Nat) : List Word :=
  l.args ++ (if !l.stk then [] else
    [l.stkb + BitVec.ofNat 64 (l.stks * l.width * ((teamIdx * l.groups + grp) * l.gangs + gang)),
      BitVec.ofNat 64 l.stks])

/-- A role of the launch. -/
def Launch.role (l : Launch) (k : Nat) : Role := at' ⟨l.kaddr, l.reg, l.acc, l.cls⟩ l.roles k

/-- Lay a gathered gang's records over its lanes: n0 to n7 of lane L (R364). -/
def withRecords (recs : List (List Word)) (g : Gang) : Gang :=
  { g with slices := imap (fun i (sl : Slice) => sl.mapLanes fun j ln => match recs[4 * i + j]? with
    | some r => { ln with n := r.take 8 ++ ln.n.drop 8 }
    | none => ln) 0 g.slices }

/-- Audit selection at a group's first placement (R389): the counter advances. [DESIGN CHOICE: log entry 67] -/
def selectAudit (s : State) (l : Launch) (t : WaitTeam) (grp core : Nat) : State × Option Nat :=
  if !l.aud then (s, none)
  else
    let p := s.part l.part
    let ac := p.ac + 1
    let s := s.modPart l.part fun p => { p with ac := ac }
    if p.pcfg.getLsbD 21 && ac % 2 ^ fld p.pcfg 16 5 == 0 then
      ({ s with fresh := s.fresh + 1
                audits := s.audits ++ [⟨s.fresh, l.part, l.lid, t.idx, grp, core, [core], 0, some { l with wait := [t] }, [], [], [], false⟩] },
        some s.fresh)
    else (s, none)

/-- What one group of a starting team needs. -/
structure GroupStart where
  team  : Nat
  idx   : Nat
  core  : Nat
  pipes : List (Nat × List Nat)
  audit : Option Nat
  replay : Option Nat
  deriving DecidableEq, Repr

/-- Start a group of a waiting team on its core. [DESIGN CHOICE: log entries 60, 90] -/
def startGroup (s : State) (l : Launch) (t : WaitTeam) (a : GroupStart) : State :=
  let rs := t.restart.filter (·.grp == a.idx)
  let k := match t.stage.bind (l.stages[·]?) with | some g => g.role | none => 0
  let role := l.role k
  let id := s.fresh
  let n := if t.stage.isSome then 1 else l.gangs
  let G : Group := {
    id := id, part := l.part, lid := l.lid, asn := l.asn, team := a.team, teamIdx := t.idx, idx := a.idx
    core := a.core, width := l.width, nGangs := n, perTeam := l.groups, mom := l.mom, role := k
    nRoles := max l.nRoles 1, cls := role.cls, accRows := 32 * l.acc, regU := l.reg, accU := l.acc
    obu := l.obu, stage := t.stage, nfmt := List.replicate 16 0, z := List.replicate 16 none
    handles := List.replicate 8 none, rakes := List.replicate 4 none, chain := none, ob := [], bars := []
    trapvec := 0, fatal := none, fatalLn := 0, errinj := 0, inj6 := false, halting := false, halted := false, haltAt := 0, ending := false
    audit := a.audit, replay := a.replay }
  let pts := match t.pts with | some p => smax (at' 0 s.dclkSeen a.core) p | none => at' 0 s.dclkSeen a.core
  let spare := (rangeFrom t.recs.length (l.width - t.recs.length))
  let gang := fun (i : Nat) (p : Nat × List Nat) =>
    let r := rs[i]?
    let idx := match r with | some r => r.gang | none => i
    let u := startUniforms l t.idx a.idx idx
    let entry := match r, t.recs with
      | some r, _ => if r.ended.isSome then role.entry else r.entry
      | none, w :: _ => at' 0 w 0
      | none, [] => role.entry
    let dead := match r with | some r => r.dead | none => if t.recs.isEmpty then [] else spare
    let words := match r with
      | some r => if r.ended.isSome then u else modAt (fun _ => r.word) 0 (u ++ List.replicate 60 0)
      | none => u
    let g := withRecords t.recs (Gang.start ⟨id + 1 + i, id, idx, p.1, p.2, entry, dead, words, pts⟩ s.beat)
    { g with ended := r.bind (·.ended) }
  { s with fresh := id + 1 + a.pipes.length, groups := s.groups ++ [G], gangs := s.gangs ++ imap gang 0 a.pipes }

/-- A team starts on its cores: every group at the same moment (R29). -/
def startTeam (s : State) (l : Launch) (t : WaitTeam) (c : Nat) (replay : Option Nat) (shape : List (Nat × Nat)) :
    State :=
  let cores := if t.pairs l then [c, c + 1] else [c]
  let team := s.fresh
  let win := fun (k : Nat) => Window.mk (team + 1 + (k - c)) team k
    (if t.pairs l then some (if k = c then c + 1 else c) else none) (List.replicate (4 * l.scr) Tile.zero) l.rsv []
  let s := { s with
    fresh := team + 1 + cores.length
    windows := s.windows ++ cores.map win
    teams := s.teams ++ [⟨team, l.part, l.lid, t.idx, cores, none, [], t.stage, t.recs, t.pts⟩]
    lastDie := c / 36 }
  shape.foldl (fun s g =>
    let core := t.coreOf l c g.1
    let pipes := (placeGangs (l.width / 4) g.2 (coreSlots s core [])).getD []
    let sel := if replay.isSome then (s, none)
      else if !t.restart.isEmpty then (s, (s.audits.find? fun a => a.part == l.part && a.lid == l.lid &&
        a.team == t.idx && a.group == g.1 && a.stage == 0).map (·.id))
      else selectAudit s l t g.1 core
    startGroup sel.1 l t ⟨team, g.1, core, pipes, sel.2, replay⟩) s

/-! ## The end of a group -/

/-- The gangs' numbers of a group. -/
def State.gangIds (s : State) (grp : Nat) : List Nat := (s.gangsOf grp).map (·.id)

/-- Work of the group in flight that its end waits for: writes, drains, flags, signals, engine commands,
forked programs and operations. -/
def State.groupBusy (s : State) (grp : Nat) : Bool :=
  let ids := s.gangIds grp
  (s.smb.any fun e => e.gangs.any (ids.contains ·)) ||
    (s.reqs.any fun q => match q.kind with
      | .read _ _ _ _ _ _ _ _ => false
      | .own => false
      | _ => q.gangs.any (ids.contains ·)) ||
    (s.reds.any (·.group == grp)) || (s.owned.any fun o => o.gangs.any (ids.contains ·)) ||
    (s.wsigs.any fun w => ids.contains w.gang) || (s.sx.any (·.group == some grp)) || (s.mx.any (·.group == grp)) ||
    (s.progs.any (·.group == grp)) || (s.ops.any fun o => ids.contains o.gang)

/-- The group's streams stop and its engine work is cancelled without arrivals (R361, R334, R291). -/
def State.cancelWork (s : State) (grp : Nat) : State :=
  let ids := s.gangIds grp
  let s := { s with
    gangs := s.gangs.map fun (g : Gang) =>
      if g.group = grp then { g with slices := g.slices.map fun (sl : Slice) => { sl with run := .ended } } else g
    progs := s.progs.filter (·.group != grp) }
  let reads := s.reqs.filter fun q => match q.kind with
    | .read _ _ _ _ _ _ _ _ => ids.contains q.gang
    | _ => false
  let s := reads.foldl (fun s q => s.dropReq q.id) s
  let dead := (s.ops.filter fun o => ids.contains o.gang).map (·.id)
  let s := { s with ops := s.ops.filter fun o => !ids.contains o.gang }
  let s := dead.foldl (fun s i => s.settle i none) s
  mxCancelAll (sxCancelAll s grp fun _ => true) grp

/-- Stores, flags and RED entries of the group go to memory (R214, R216, R240). -/
def State.drainGroup (s : State) (G : Group) : State :=
  let ids := s.gangIds G.id
  let s := s.flushWhere G.core (fun e => e.gangs.any (ids.contains ·)) []
  let s := ((s.owned.filter fun o => o.gangs.any (ids.contains ·)).map (·.id)).foldl
    (fun s i => s.postOnce (.lazyReleaseDrain i)) s
  s.post (.redDrain G.id .groupEnd)

/-- A group's end begins. A failed group is logged (R384), and its launch keeps the first cause (R348). [DEDUCED: log entry 66] -/
def beginEnd (s : State) (G : Group) (kill : Bool) : State :=
  let s := s.modGroup G.id fun G => { G with ending := true }
  let s := match G.fatal with
    | some c =>
      let s := logEntry s G.part 0x05 c 7 0 G.lid (ident32 G (G.fatalLn / 64) (G.fatalLn % 64)) 0
      let s := if G.replay.isSome then s.spoilAudit G.id
        else s.modLaunch G.part G.lid fun l => { l with fault := l.fault.or (some c) }
      s
    | none => s
  let s := if kill then s.cancelWork G.id else s
  ((s.settleGroup G.id).drainGroup G).postOnce (.groupEnd G.id)

/-- The audit of a group that has ended (R390, R393): queued, or abandoned and logged. -/
def endAudit (s : State) (G : Group) : State :=
  match G.audit.bind s.audit? with
  | none => s
  | some a =>
    let hurt := (s.gangsOf G.id).any fun g => g.slices.any fun sl => sl.lanes.any (·.dead)
    let queued := (s.audits.filter fun b => b.part == a.part && b.stage != 0).length
    if a.bad || hurt || 64 ≤ queued then
      logEntry { s with audits := s.audits.filter (·.id != a.id) } G.part 0x0A 0 7 0 G.lid (ident32 G 0 0) 0
    else
      (s.modAudit a.id fun a => { a with stage := 1, cores := [G.core], core := G.core }).post (.riddleReplay a.id)

/-- A team has ended: its window and, unless it is discarded, its place in the launch are gone. A discarded
one returns to the front of its launch's waiting teams (R361). Its cores are offered in the next beat, past the
completion of a launch that it was the last team of. -/
def endTeam (s : State) (T : Team) (replay : Bool) : State :=
  let wins := (s.windows.filter (·.team == T.id)).map (·.id)
  let s := { s with
    windows := s.windows.filter (·.team != T.id)
    teams := s.teams.filter (·.id != T.id)
    bad := s.bad.filter fun d => match d.loc with
      | .scratch w _ => !wins.contains w
      | _ => true }
  let s := if replay || T.saved.isEmpty then s
    else s.modLaunch T.part T.lid fun l => { l with
      wait := ⟨T.idx, T.saved, T.stage, T.recs, T.pts⟩ :: l.wait, st := .running }
  (s.postOnce (.launchComplete T.part T.lid)).postAt (s.cycle + 4) (.placeTeam T.part noLaunch)

/-- Damage of a group's own storage goes with the group. -/
def State.dropDamage (s : State) (grp : Nat) : State :=
  let ids := s.gangIds grp
  { s with bad := s.bad.filter fun d => match d.loc with
      | .named g _ _ => !ids.contains g
      | .queue g _ _ => !ids.contains g
      | .moment g _ _ => !ids.contains g
      | .parked g _ _ => !ids.contains g
      | .uniform g _ => !ids.contains g
      | .predicates g _ => !ids.contains g
      | .control g _ => !ids.contains g
      | .tile g _ _ => g != grp
      | .operandBuffer g _ => g != grp
      | _ => true }

/-- Damage of the storage that a role restart writes anew goes (R42, R381). -/
def State.dropRoleDamage (s : State) (grp : Nat) : State :=
  let ids := s.gangIds grp
  { s with bad := s.bad.filter fun d => match d.loc with
      | .named g _ _ => !ids.contains g
      | .queue g _ _ => !ids.contains g
      | .moment g _ _ => !ids.contains g
      | .parked g _ _ => !ids.contains g
      | .predicates g _ => !ids.contains g
      | _ => true }

/-- Stages of a launch whose records may now be gathered as partial gangs (R45). -/
def State.gatherPoke (s : State) (part lid : Nat) : State :=
  match s.launch? part lid with
  | none => s
  | some l => (imap (fun k (g : Stage) => if g.recs.isEmpty then [] else [k]) 0 l.stages).flatten.foldl
      (fun s k => s.postOnce (.gatherTimeout part lid k)) s

/-- Everything of a group is done: it leaves its core, and its team with the last one. The audit of a group that its
discarded team brings back goes on with it (R390). -/
def finishGroup (s : State) (G : Group) : State :=
  let gs := s.gangsOf G.id
  let up := fun (t : TS) => gs.foldl (fun t (g : Gang) => smax t g.pts) t
  let s := mxCloseChain s G.id
  let saved := match s.team? G.team with | some T => !T.saved.isEmpty | none => false
  let back := match s.team? G.team with | some T => T.saved.any (·.grp == G.idx) | none => false
  let s := if G.replay.isSome then s
    else (if back then s else endAudit s G).modLaunch G.part G.lid fun l => { l with pts := up l.pts }
  let s := s.dropDamage G.id
  let s := { s with
    gangs := s.gangs.filter (·.group != G.id)
    groups := s.groups.filter (·.id != G.id) }
  let s := match G.replay with
    | some a => s.post (if saved then .riddleReplay a else .riddleCompare a)
    | none => s
  match s.team? G.team with
  | none => s.kick
  | some T =>
    let s := if s.groups.any (·.team == T.id) then s.kick else endTeam s T G.replay.isSome
    s.gatherPoke G.part G.lid

/-- Has the group engine commands or programs that are not being cancelled? -/
def State.engineWork (s : State) (grp : Nat) : Bool :=
  s.sx.any (fun c => c.group == some grp && c.cancel.isNone) || s.mx.any (·.group == grp) || s.progs.any (·.group == grp)

/-- GROUP_END: the group's gangs have ended or it failed; its end begins, and once nothing of it is in
flight it leaves. A fault of its engine commands that comes after its gangs' end cancels them (R334, R293). [DEDUCED: log entry 38] -/
def execGroupEnd (group : Nat) (s : State) : Host.Outcome State Fault Refusal :=
  match s.group? group with
  | none => .next s
  | some G =>
    let ended := (s.gangsOf group).all (·.ended.isSome)
    if !G.ending && !ended && G.fatal.isNone then .next s
    else if !G.ending then .next (beginEnd s G (G.fatal.isSome))
    else if G.fatal.isSome && s.engineWork group then .next ((s.cancelWork group).postOnce (.groupEnd group))
    else if s.groupBusy group then .next s
    else .next (finishGroup s G)

/-- The restart of a slice under a role (R42); one that retired by EXIT while it was parted stays retired, as its pipe
slot is free and no barrier counts it (R28, R41, R122). [DEDUCED: log entries 45, 96] -/
def Slice.restart (entry : Word) (beat : Nat) (sl : Slice) : Slice :=
  let f := Slice.start sl.pipe entry beat ((rangeFrom 0 4).filter fun j => match sl.lanes[j]? with
    | some l => l.dead
    | none => true)
  { f with fmode := sl.fmode, fflags := sl.fflags, mcov := sl.mcov, mrho := sl.mrho, status := sl.status
           stallchk := sl.stallchk, trappc := sl.trappc, trapcause := sl.trapcause, trapinfo := sl.trapinfo
           sysAcq := sl.sysAcq, run := if sl.run = .retired then .retired else f.run }

/-- The launch that a group belongs to; that of a replay is the one its audit kept (R391), which may have completed. -/
def State.launchOf (s : State) (G : Group) : Option Launch :=
  match G.replay with
  | some a => (s.audit? a).bind (·.launch)
  | none => s.launch? G.part G.lid

/-- ROLE_RESTART (R42, R43, R367): once its gangs have ended by ROLE with one index and its engine commands
are done, the group restarts in place under the role. Its class may let a waiting team pre-empt it now (R359). [DEDUCED: log entry 45] -/
def execRoleRestart (group : Nat) (s : State) : Host.Outcome State Fault Refusal :=
  match s.group? group with
  | none => .next s
  | some G =>
    let gs := s.gangsOf group
    let ks := gs.filterMap fun g => match g.ended with | some (.role k) => some k | _ => none
    if G.ending || G.fatal.isSome || !gs.all (·.ended.isSome) then .next s
    else match ks with
      | [] => .next s
      | k :: r =>
        if r.any (· != k) || gs.any (fun g => g.ended == some .exit) || G.nRoles ≤ k then
          .next (groupFatal s group 0x30 0)
        else if s.sx.any (·.group == some group) || s.mx.any (·.group == group) then .next s
        else
          let role := match s.launchOf G with | some l => l.role k | none => ⟨0, 0, 0, 0⟩
          let s := ((mxCloseChain (s.settleGroup group) group).clearMatrix group).dropRoleDamage group
          let s := s.modGroup group fun G => { G with role := k, cls := role.cls }
          .next (State.kick { s with gangs := s.gangs.map fun (g : Gang) =>
            if g.group = group then { g with
              slices := g.slices.map (Slice.restart role.entry s.beat), unified := true
              ended := if g.ended = some .retired then g.ended else none
              region := none, park := List.replicate 64 none } else g })

/-! ## Discards (R361) -/

/-- What a team's gangs restart with. -/
def savedOf (s : State) (team : Nat) : List Restart :=
  ((s.groups.filter fun G => G.team == team && G.fatal.isNone && !G.ending).map fun G =>
    (s.gangsOf G.id).map fun g =>
      let dead := (imap (fun i (sl : Slice) => (imap (fun j (l : Lane) => if l.dead then [4 * i + j] else [])
        0 sl.lanes).flatten) 0 g.slices).flatten
      (⟨G.idx, g.idx, g.ended, (g.region.getD (0, 0)).1, (g.region.getD (0, 0)).2, dead⟩ : Restart)).flatten

/-- A replay that must give way, or fails, stops; its audit is replayed again (R391). -/
def stopReplays (s : State) (cores : List Nat) : State :=
  let gs := s.groups.filter fun G => G.replay.isSome && cores.contains G.core && !G.ending
  let give := fun (T : Team) => if gs.any (·.team == T.id) then
    { T with saved := [⟨0, 0, none, 0, 0, []⟩] } else T
  let s := { s with teams := s.teams.map give }
  let s := gs.foldl (fun s G => match G.replay with
    | some a => s.modAudit a fun a => { a with cores := a.cores.erase G.core }
    | none => s) s
  gs.foldl (fun s G => finishGroup ((s.cancelWork G.id).modGroup G.id fun G => { G with ending := true }) G) s

/-- Is a group of the team halted by the debug path (R435)? -/
def State.teamHalted (s : State) (team : Nat) : Bool := s.groups.any fun G => G.team == team && G.halted

/-- DISCARD_TEAM (R361): a marked team inside a region, no group of it halted (R435), stops, its work is cancelled, its stores and RED
entries drain, and its resources free as its groups leave. -/
def execDiscardTeam (team : Nat) (s : State) : Host.Outcome State Fault Refusal :=
  match s.team? team with
  | none => .next s
  | some T =>
    if T.mark.isNone || !T.saved.isEmpty || !s.teamInside team || s.teamHalted team then .next s
    else
      let saved := savedOf s team
      let gs := s.groups.filter fun G => G.team == team && G.fatal.isNone && !G.ending
      let s := { s with teams := s.teams.map fun (T : Team) => if T.id = team then { T with saved := saved } else T }
      .next (gs.foldl (fun s G => beginEnd s G true) s)

/-- PREEMPT_WATCHDOG (R362): the partition's time, as it stands now, has run out from the mark, and the groups of the
team are killed. While a group of the team is halted it does not run (R435). -/
def execPreemptWatchdog (team : Nat) (s : State) : Host.Outcome State Fault Refusal :=
  match s.team? team with
  | none => .next s
  | some T => match T.mark with
    | none => .next s
    | some m =>
      let due := m + (s.part T.part).wdog
      if !T.saved.isEmpty || s.teamHalted team then .next s
      else if s.ptp < due then .next (if s.nsTimers.contains (due, .preemptWatchdog team) then s
        else s.postNs due (.preemptWatchdog team))
      else .next ((s.groups.filter (·.team == team)).foldl (fun s G => failGroup s G.id 0x31 0) s)

/-! ## Pre-emption (R359) -/

/-- The effective class of a team: the highest of its groups. -/
def teamClass (s : State) (team : Nat) : Nat :=
  (s.groups.filter (·.team == team)).foldl (fun c G => max c (effClass s G)) 0

/-- May a waiting team of class `c` of a partition pre-empt this team? -/
def mayPreempt (s : State) (part c : Nat) (T : Team) : Bool :=
  decide (teamClass s T.id < c) || (s.short part && T.part != part &&
    decide ((s.part T.part).minc < s.heldCores T.part))

/-- The first choice of `k` elements, in order, that satisfies a test. -/
def firstChoice {α : Type} (ok : List α → Bool) : Nat → List α → List α → Option (List α)
  | 0, _, acc => if ok acc then some acc else none
  | _ + 1, [], _ => none
  | k + 1, t :: r, acc => (firstChoice ok k r (acc ++ [t])).orElse fun _ => firstChoice ok (k + 1) r acc

/-- The fewest teams whose release makes room, among candidates in order. [DEDUCED: log entry 89] -/
def fewestTeams (ok : List Team → Bool) (cand : List Team) : Option (List Team) :=
  (rangeFrom 1 cand.length).findSome? fun k => firstChoice ok k cand []

/-- Insert a candidate: lowest class first, then most recently placed. -/
def insertCand (s : State) (t : Team) : List Team → List Team
  | [] => [t]
  | u :: r => if teamClass s t.id < teamClass s u.id ∨ (teamClass s t.id = teamClass s u.id ∧ u.id < t.id)
    then t :: u :: r else u :: insertCand s t r

/-- The teams to mark on one core or pair, with the key that chooses among cores: highest class marked, then
most recent placement. -/
def preemptOn (s : State) (l : Launch) (t : WaitTeam) (c core : Nat) : Option (List Team) :=
  let on := if t.pairs l then [core, core + 1] else [core]
  let here := s.teams.filter fun T => T.cores.any (on.contains ·) && !s.replayTeams.contains T.id
  let going := here.filter fun T => !T.saved.isEmpty || (T.mark.isSome && mayPreempt s l.part c T)
  let room := fun (ts : List Team) => fitsTeam s l t core (s.replayTeams ++ (going ++ ts).map (·.id))
  if room [] then some []
  else
    let cand := (here.filter fun T => T.mark.isNone && T.saved.isEmpty && mayPreempt s l.part c T).foldl
      (fun acc T => insertCand s T acc) []
    fewestTeams room cand

/-- Mark a team (R359): it is discarded at once when it is inside a region, and its watchdog starts. -/
def markTeam (s : State) (T : Team) : State :=
  let s := { s with teams := s.teams.map fun (U : Team) => if U.id = T.id then { U with mark := some s.ptp } else U }
  (s.postNs (s.ptp + (s.part T.part).wdog) (.preemptWatchdog T.id)).regionTest T.id

/-- A waiting team that cannot be placed pre-empts (R359), unless teams on their way out make room already. [DEDUCED: log entry 89] -/
def preempt (s : State) (l : Launch) (t : WaitTeam) : State :=
  let c := l.inherited s
  let all := ((offers s l t).filter (stageAllows s l t)).filterMap fun k => preemptOn s l t c k
  if all.any (·.isEmpty) then s
  else
    let key := fun (ts : List Team) =>
      (ts.foldl (fun m T => max m (teamClass s T.id)) 0, ts.foldl (fun m (T : Team) => max m T.id) 0)
    let best := all.foldl (fun (b : Option (List Team)) ts => match b with
      | none => some ts
      | some o => if (key ts).1 < (key o).1 ∨ ((key ts).1 = (key o).1 ∧ (key o).2 < (key ts).2)
        then some ts else b) none
    (best.getD []).foldl markTeam s

/-- The launch's record of a team that starts. -/
def Launch.started (l : Launch) (t : WaitTeam) : Launch :=
  let l := if l.wait.contains t then { l with wait := l.wait.erase t } else { l with next := l.next + 1 }
  { l with st := if l.next < l.nteams ∨ !l.wait.isEmpty then .running else .placed }

/-- PLACE_TEAM (R354, R358): the partition's next team starts where it fits, or pre-empts. -/
def execPlaceTeam (part lid : Nat) (s : State) : Host.Outcome State Fault Refusal :=
  hubUse s part fun s =>
  match bestLaunch s part with
  | none => .next s.kick
  | some (l, t) =>
    if l.lid ≠ lid then .next s.kick
    else match findCore s l t with
      | none => .next (preempt s l t)
      | some c =>
        let s := stopReplays s (if t.pairs l then [c, c + 1] else [c])
        let s := startTeam s l t c none (t.shape l)
        .next ((s.modLaunch part lid fun l => l.started t).kick)

end Sys2Proof.Machine
end

