-- ==== Sys2Proof/Machine/Launches.lean ====
section
/-!
DEFINITION. Launches (R341 to R351, R356): doorbells, acceptance and the checks of a descriptor, copy and
release launches, completion words; stages of a pipeline: gathering and allowances (R44, R45, R363 to R365).
-/

namespace Sys2Proof.Machine

/-! ## Reads by the hub -/

/-- What holds the hub's translation of an address: a table's line that another agent has (R193). [DEDUCED: log entry 63] -/
def hubHold (s : State) (part asn : Nat) (a : Word) : Option Hold :=
  match gaddr s a with
  | some (0, va) => (match s.look part asn va with
    | .held h => some h
    | _ => none)
  | _ => none

/-- Is an address readable by the partition in an address space: a present leaf with R on this device, or
another device's memory (R346)? [DEDUCED: log entry 63] -/
def hubReadable (s : State) (part asn : Nat) (a : Word) : Bool :=
  match gaddr s a with
  | none => false
  | some (dev, va) => if dev ≠ 0 then s.joined else match s.look part asn va with
    | .leaf l => l.rd
    | _ => false

/-- What the hub's reads of a submission come to: the objects' bytes, none of one that the partition cannot read; a
wait; or a poisoned word, which would stand in the hub's state (R381). [DEDUCED: log entry 63] -/
inductive HubRes where
  | ok (s : State) (objs : List (Option (List Byte)))
  | wait (s : State)
  | poisoned

/-- The hub reads objects at DCLK, each line at its home (R202, R404, R410). [DEDUCED: log entries 28, 63] -/
def hubGet (s : State) (part asn : Nat) (objs : List (Word × Nat)) : HubRes :=
  objs.foldl (fun acc o => match acc with
    | .ok s got => match if o.2 = 0 then none else hubHold s part asn o.1 with
      | some h => .wait (s.onHold h 0)
      | none =>
      if !hubReadable s part asn o.1 && o.2 != 0 then .ok s (got ++ [none])
      else match readRun s 144 part asn s.dclk { rd := true } o.1 o.2 with
        | .ok s bs _ => .ok s (got ++ [some bs])
        | .wait s => .wait s
        | .absent _ _ => .ok s (got ++ [none])
        | .bad c => if c = 0x41 then .poisoned else .ok s (got ++ [none])
    | r => r) (.ok s [])

/-! ## The descriptor (R346, R347, R363, R388, R350) -/

/-- A word of bytes, `n` bytes from byte `i`. -/
def descWord (d : List Byte) (i : Nat) : Word := BitVec.ofNat 64 (recNat d i 8)

/-- The role in 16 bytes. -/
def roleOf (b : List Byte) : Role := ⟨descWord b 0, recNat b 8 1, recNat b 9 1, recNat b 10 1 % 4⟩

/-- The stage in 32 bytes. -/
def stageOf (b : List Byte) : Stage :=
  ⟨recNat b 0 8, recNat b 8 4, recNat b 12 1, recNat b 13 1, recNat b 14 1, [], 0, [], [], 0⟩

/-- Cut a table into entries of `n` bytes. -/
def entries (b : List Byte) (n k : Nat) : List (List Byte) := (rangeFrom 0 k).map fun i => (b.drop (n * i)).take n

/-- The windows of an audit list, up to the entry marked LAST; none when 8 entries carry no LAST. -/
def awinList : Nat → List Byte → Option (List (List Byte))
  | 0, _ => none
  | n + 1, b =>
    let e := b.take 16
    if (recNat e 12 1).testBit 7 then some [e] else (awinList n (b.drop 16)).map (e :: ·)

/-- The virtual address of an audit window's base on the issuing device; none elsewhere (R388, R179). -/
def awinBase (s : State) (e : List Byte) : Option Nat :=
  match gaddr s (descWord e 0) with
  | some (0, va) => some va
  | _ => none

/-- Is an entry of the audit list well formed (R388)? -/
def awinOk (s : State) (e : List Byte) : Bool :=
  (awinBase s e).isSome && recNat e 0 8 % 128 == 0 && recNat e 8 4 % 128 == 0 && recNat e 8 4 != 0 &&
    recNat e 12 1 / 2 % 64 == 0 && recNat e 13 3 == 0

/-- The audit list an address names: windows as (base, length, output). -/
def awinOf (s : State) (b : List Byte) : Option (List (Nat × Nat × Bool)) :=
  match awinList 8 b with
  | none => none
  | some es =>
    if es.all (awinOk s) && (es.filter fun e => (recNat e 12 1).testBit 0).length == 1 then
      some (es.map fun e => ((awinBase s e).getD 0, recNat e 8 4, (recNat e 12 1).testBit 0))
    else none

/-- Is a copy control block well formed (R350)? [DEDUCED: log entry 63] -/
def copyOk (b : List Byte) : Bool :=
  let p := patOf b
  !patBad b 0 && !p.ssp && !p.dsp && p.bar == 0 && recNat b 80 1 / 4 == 0 && (b.drop 81).all (· == 0)

/-- A descriptor with the tables the hub read beside it; one that it could not read is empty, and `unread` says so. -/
structure Desc where
  d      : List Byte
  roles  : List (List Byte)
  stages : List (List Byte)
  args   : List Byte
  awin   : List Byte
  block  : List Byte
  unread : Bool
  deriving DecidableEq, Repr

def Desc.kind (x : Desc) : Nat := recNat x.d 56 1 / 64
def Desc.nroles (x : Desc) : Nat := recNat x.d 58 1 / 16
def Desc.nstages (x : Desc) : Nat := recNat x.d 58 1 % 16
def Desc.nargs (x : Desc) : Nat := recNat x.d 60 1
def Desc.stk (x : Desc) : Bool := (recNat x.d 61 1).testBit 0
def Desc.aud (x : Desc) : Bool := (recNat x.d 56 1).testBit 3
def Desc.groups (x : Desc) : Nat := recNat x.d 57 1 % 8 + 1
def Desc.ndep (x : Desc) : Nat := recNat x.d 76 4 % 8

/-- CAUSE 0x01 (R346): a reserved value, or a nonzero field named 0. -/
def Desc.reserved (x : Desc) : Bool :=
  let d := x.d
  recNat d 44 4 != 0 || recNat d 59 1 / 32 != 0 || recNat d 61 1 / 4 != 0 || recNat d 62 1 / 64 != 0 ||
    recNat d 63 1 != 0 || recNat d 76 4 / 8 != 0 || decide (4 < x.ndep) || recNat d 96 32 != 0 || x.kind == 3 ||
    recNat d 56 1 % 4 == 3 || decide (8 < x.nroles) || decide (8 < x.nstages) || recNat d 48 4 == 0 ||
    (!x.aud && recNat d 88 8 != 0) || (x.nroles == 0 && recNat d 16 8 != 0) ||
    (x.nstages == 0 && recNat d 24 8 != 0) || (x.kind == 0 && x.nroles != 0 && recNat d 0 8 != 0) ||
    recNat d 52 4 / 2 ^ 28 != 0 || (x.kind == 1 && !x.block.isEmpty && !copyOk x.block)

/-- CAUSE 0x02 (R183): the partition word, or OBU above 16. -/
def Desc.pool (x : Desc) : Bool :=
  let p := recNat x.d 52 4
  let reg := p % 256
  let scr := p / 256 % 256
  let acc := p / 65536 % 256
  let n := if (recNat x.d 57 1).testBit 3 then (x.groups + 1) / 2 else x.groups
  reg == 0 || decide (128 < reg) || decide (128 < acc) || decide (128 < scr) || decide (4 * scr < p / 2 ^ 24 % 16) ||
    decide (128 < n * (reg + acc) + scr) || decide (16 < recNat x.d 59 1 % 32) ||
    x.roles.any fun r => decide (reg < recNat r 8 1)

/-- CAUSE 0x03 (R347): the role table. -/
def Desc.rolesBad (x : Desc) : Bool :=
  x.roles.any fun r => recNat r 0 8 % 4 != 0 || recNat r 8 1 == 0 || decide (recNat x.d 54 1 < recNat r 9 1) ||
    recNat r 10 1 / 4 != 0 || recNat r 11 5 != 0

/-- The addresses of the pages of `n` bytes from an address. -/
def pagesOf (a : Word) (n : Nat) : List Word :=
  let off := a.toNat % 65536
  (rangeFrom 0 ((off + n + 65535) / 65536)).map fun k => a + BitVec.ofNat 64 (65536 * k - (if k = 0 then 0 else off))

/-- Does a stage queue of `n` bytes lie whole in device memory (R363)? -/
def queueHere (s : State) (part asn : Nat) (a : Word) (n : Nat) : Bool :=
  decide (a.toNat % 2 ^ 48 + n ≤ 2 ^ 48) && (pagesOf a n).all fun a => match gaddr s a with
    | some (0, va) => (match s.look part asn va with
      | .leaf l => !l.host
      | _ => false)
    | _ => false

/-- A capacity that a stage may have. -/
def capOk (cap : Nat) : Bool := (rangeFrom 6 11).any fun k => cap == 2 ^ k

/-- CAUSE 0x04 (R363): the stage table. -/
def Desc.stagesBad (s : State) (part asn : Nat) (x : Desc) : Bool :=
  x.stages.any fun g =>
    let cap := recNat g 8 4
    recNat g 0 8 % 64 != 0 || !capOk cap || !queueHere s part asn (descWord g 0) (64 * cap) ||
      decide (max x.nroles 1 ≤ recNat g 12 1) || decide (144 < recNat g 13 1) || recNat g 15 17 != 0

/-- The address fields in use, each with its alignment. -/
def Desc.fields (x : Desc) : List (Nat × Nat) :=
  ([(x.kind != 0 || x.nroles == 0, 0, 4), (x.nargs != 0, 8, 8), (x.nroles != 0, 16, 16), (x.nstages != 0, 24, 32),
    (recNat x.d 32 8 != 0, 32, 8), (x.stk, 64, 16), (x.aud, 88, 1)].filter (·.1)).map (·.2)

/-- CAUSE 0x05: an address field misaligned or not readable, or the audit list (R388). -/
def Desc.addresses (s : State) (part asn : Nat) (x : Desc) : Bool :=
  (x.fields.any fun f => recNat x.d f.1 8 % f.2 != 0 || !hubReadable s part asn (descWord x.d f.1)) ||
    recNat x.d 8 8 % 8 != 0 || (x.stk && recNat x.d 72 4 % 16 != 0) || (x.aud && (awinOf s x.awin).isNone) || x.unread

/-- What the translations that the checks of a descriptor need wait for: those of its addresses, and of its stages'
queues (R193). -/
def Desc.hold (s : State) (part asn : Nat) (x : Desc) : Option Hold :=
  (x.fields.map (fun f => descWord x.d f.1) ++ (x.stages.map fun g =>
    if capOk (recNat g 8 4) then pagesOf (descWord g 0) (64 * recNat g 8 4) else []).flatten).findSome? (hubHold s part asn)

/-- The lowest CAUSE of the checks a descriptor fails; none when it passes (R346). [DEDUCED: log entry 63] -/
def Desc.cause (s : State) (part asn : Nat) (x : Desc) : Option Nat :=
  if x.reserved then some 0x01
  else if x.pool then some 0x02
  else if x.rolesBad then some 0x03
  else if x.stagesBad s part asn then some 0x04
  else if x.addresses s part asn then some 0x05
  else if (if x.stk then 58 else 60) < x.nargs then some 0x06
  else if 2 ^ 22 < recNat x.d 48 4 * x.groups then some 0x07
  else none

/-- The hub reads a descriptor's tables into its argument cache (R343). A persistent copy block that was
captured before stands for the bytes in memory (R350). -/
def keptBlock (s : State) (part asn : Nat) (d : List Byte) : Option (List Byte) :=
  (s.copies.find? fun c => c.part == part && c.asn == asn && c.addr == descWord d 0).map (·.data)

/-- The objects that a descriptor names, but for its audit list: role table, stage table, arguments, copy block. -/
def descObjs (kept : Bool) (d : List Byte) : List (Word × Nat) :=
  let x : Desc := ⟨d, [], [], [], [], [], false⟩
  [(descWord d 16, if 8 < x.nroles then 0 else 16 * x.nroles), (descWord d 24, if 8 < x.nstages then 0 else 32 * x.nstages),
    (descWord d 8, 8 * x.nargs), (descWord d 0, if x.kind = 1 ∧ !kept then 128 else 0)]

/-- The hub reads an audit list entry by entry, up to the one marked LAST or to eight (R388). -/
def hubAwin (part asn : Nat) : Nat → State → Word → List Byte → HubRes
  | 0, s, _, got => .ok s [some got]
  | n + 1, s, a, got => match hubGet s part asn [(a, 16)] with
    | .ok s [some e] =>
      if (recNat e 12 1).testBit 7 then .ok s [some (got ++ e)] else hubAwin part asn n s (a + 16) (got ++ e)
    | .ok s _ => .ok s [none]
    | r => r

/-- The descriptor with the objects as they were read, its audit list last. -/
def descOf (kept : Option (List Byte)) (d : List Byte) (objs : List (Option (List Byte))) : Desc :=
  let x : Desc := ⟨d, [], [], [], [], [], false⟩
  let o := fun (i : Nat) => (at' none objs i).getD []
  { d := d
    roles := if (o 0).isEmpty then [] else entries (o 0) 16 x.nroles
    stages := if (o 1).isEmpty then [] else entries (o 1) 32 x.nstages
    args := o 2
    awin := o 4
    block := if x.kind = 1 then kept.getD (o 3) else []
    unread := objs.any (·.isNone) }

/-- The launch record of a descriptor. -/
def launchOf (s : State) (part asn q lid : Nat) (x : Desc) (cause : Option Nat) : Launch :=
  let d := x.d
  let deps := ((rangeFrom 0 x.ndep).map fun i => recNat d (80 + 2 * i) 2).filter fun i => (s.launch? part i).isSome
  { part := part, lid := lid, asn := asn, order := s.accepted, queue := q
    kaddr := descWord d 0
    args := (entries x.args 8 (min x.nargs 60)).map leWord
    roles := if x.nroles = 0 then
        [⟨descWord d 0, recNat d 52 1, recNat d 54 1, recNat d 56 1 / 16 % 4⟩] else x.roles.map roleOf
    nRoles := x.nroles
    stages := x.stages.map stageOf
    caddr := descWord d 32
    cval := recNat d 40 4
    nteams := recNat d 48 4
    pword := BitVec.ofNat 32 (recNat d 52 4)
    kind := x.kind
    cls := recNat d 56 1 / 16 % 4
    aud := x.aud
    mom := (recNat d 56 1).testBit 2
    width := 16 * 2 ^ (recNat d 56 1 % 4)
    gangs := recNat d 57 1 / 16 + 1
    pair := (recNat d 57 1).testBit 3
    groups := x.groups
    obu := recNat d 59 1 % 32
    intr := (recNat d 61 1).testBit 1
    stk := x.stk
    vec := recNat d 62 1 % 64
    stkb := descWord d 64
    stks := recNat d 72 4
    deps := if cause.isSome then [] else deps.eraseDups
    awin := (awinOf s x.awin).getD []
    next := 0
    wait := []
    st := if cause.isNone && !deps.isEmpty then .waiting else .ready
    fault := cause
    rej := cause.isSome
    copied := false
    block := x.block
    made := 0
    pts := s.dclk
    done := none
    undo := [] }

/-- A launch whose dependences are satisfied goes on (R351, R356); one that waits may raise the class of those it
depends on (R357). -/
def goLaunch (s : State) (l : Launch) : State :=
  if l.rej then s.postOnce (.launchComplete l.part l.lid)
  else if !l.deps.isEmpty then s.kick
  else match l.kind with
    | 1 => s.postOnce (.copyLaunch l.part l.lid)
    | 2 => s.postOnce (.releaseLaunch l.part l.lid)
    | _ => s.kick

/-! ## Queues (R341 to R343) -/

/-- The slots of a queue: 64 of the device queue, 2^SZ of a host queue. -/
def LQueue.slots (q : Nat) (x : LQueue) : Nat := if q = 15 then 64 else 2 ^ fld x.qcfg 0 5

/-- May a queue be served: the device queue always, a host queue once SZ is 4 to 16? -/
def LQueue.open (q : Nat) (x : LQueue) : Bool := q == 15 || (decide (4 ≤ fld x.qcfg 0 5) && decide (fld x.qcfg 0 5 ≤ 16))

def Partition.queue (p : Partition) (q : Nat) : LQueue := at' ⟨0, 0, 0, 0⟩ p.queues q

def State.modQueue (s : State) (part q : Nat) (f : LQueue → LQueue) : State :=
  s.modPart part fun p => { p with queues := modAt f q p.queues }

/-- DOORBELL_WRITE (R342): a value that moves WI back, or more than the slots past CI, is ignored and logged;
a write to queue 15 is ignored. [DEDUCED: log entry 65] -/
def execDoorbellWrite (part queue wi : Nat) (s : State) : Host.Outcome State Fault Refusal :=
  hubUse s part fun s =>
  let p := s.part part
  let q := p.queue queue
  let w := BitVec.ofNat 32 wi
  if !p.en || p.rst || s.stage ≠ 5 || 15 ≤ queue || !q.open queue then .next s
  else if (w - q.ci).toNat < (q.wi - q.ci).toNat || q.slots queue < (w - q.ci).toNat then
    .next (logEntry s part 0x0B 0 7 0 0 0 0)
  else .next ((s.modQueue part queue fun q => { q with wi := w }).postOnce (.launchAccept part queue))

/-- The hub's write of a word at an address of an address space at system scope, through its home, the bridge
or the fabric as for any store; its request. [DEDUCED: log entry 64] -/
def hubSend (s : State) (part asn : Nat) (a : Word) (bytes : List Byte) (t : TS) : State × Option Nat :=
  match gaddr s a with
  | none => (s, none)
  | some (dev, va) =>
    let data := (lineAt (va % 128) bytes ++ List.replicate 128 0).take 128
    (s.send (.write (maskAt (va % 128) bytes.length) data [] false false) 144 0 none part asn (va / 128 * 128) dev t,
      some s.fresh)

/-- The address space of the launch in the slot that CI names. [DEDUCED: log entry 63] -/
def slotAsn (s : State) (part q : Nat) (x : LQueue) : Nat :=
  if q = 15 then match (s.part part).devq.find? (·.1 == x.ci.toNat) with
    | some e => e.2.2
    | none => 0
  else fld x.qcfg 8 4

/-- The object that the slot is: the device queue's stand in the hub. -/
def slotObj (q : Nat) (x : LQueue) : Word × Nat :=
  (BitVec.ofNat 64 (fld x.qcfg 12 52 * 4096 + 128 * (x.ci.toNat % x.slots q)), if q = 15 then 0 else 128)

/-- The descriptor in the slot; one that cannot be read reads 0. [DEDUCED: log entry 63] -/
def slotDesc (s : State) (part q : Nat) (x : LQueue) (got : Option (List Byte)) : List Byte :=
  if q = 15 then match (s.part part).devq.find? (·.1 == x.ci.toNat) with
    | some e => e.2.1
    | none => List.replicate 128 0
  else got.getD (List.replicate 128 0)

/-- What the hub's read of a slot and of what it names comes to. -/
inductive SlotRes where
  | ok (s : State) (desc : Desc)
  | wait (s : State)
  | poisoned

/-- The hub reads the slot at CI, then the objects that its descriptor names (R343). -/
def readSlot (s : State) (part queue : Nat) (x : LQueue) : SlotRes :=
  let asn := slotAsn s part queue x
  match hubGet s part asn [slotObj queue x] with
  | .wait s => .wait s
  | .poisoned => .poisoned
  | .ok s got =>
    let d := slotDesc s part queue x (got.headD none)
    let kept := keptBlock s part asn d
    match hubGet s part asn (descObjs kept.isSome d) with
    | .wait s => .wait s
    | .poisoned => .poisoned
    | .ok s objs => match if (recNat d 56 1).testBit 3 then hubAwin part asn 8 s (descWord d 88) [] else .ok s [some []] with
      | .wait s => .wait s
      | .poisoned => .poisoned
      | .ok s w => let x := descOf kept d (objs ++ w)
        match x.hold s part asn with
        | some h => .wait (s.onHold h 0)
        | none => .ok s x

/-- LAUNCH_ACCEPT (R343): the slot at CI is read and checked, takes its number unless an earlier launch
still holds it, CI moves on and is written to memory, and the launch goes on. [DEDUCED: log entry 64] -/
def execLaunchAccept (part queue : Nat) (s : State) : Host.Outcome State Fault Refusal :=
  hubUse s part fun s =>
  let x := (s.part part).queue queue
  let i := x.ci.toNat
  let lid := 4096 * queue + i % 4096
  if x.ci = x.wi || !x.open queue || 15 < queue || (s.part part).rst then .next s
  else if (s.launch? part lid).isSome then .next s
  else
    let asn := slotAsn s part queue x
    match readSlot s part queue x with
    | .wait s => .next (s.postAt (s.cycle + 4) (.launchAccept part queue))
    | .poisoned => .next (partitionFatal s part 0x43)
    | .ok s desc =>
      let l := launchOf s part asn queue lid desc (desc.cause s part asn)
      let ci := x.ci + 1#32
      let s := s.modQueue part queue fun q => { q with ci := ci }
      let s := s.modPart part fun p => { p with devq := if queue = 15 then p.devq.filter (·.1 != i) else p.devq }
      let s := if queue = 15 then s
        else (hubSend s part asn (x.qcia &&& ~~~7#64) (leBytes 8 ci.toNat) (s.dclk + 1)).1
      let s := { s with launches := s.launches ++ [l], accepted := s.accepted + 1 }
      let s := if ci = x.wi then s else s.postOnce (.launchAccept part queue)
      .next (goLaunch s l)

/-! ## Copy and release launches (R350) -/

/-- COPY_LAUNCH: the copy runs on the stream engine of a core of the partition, at DCLK. -/
def execCopyLaunch (part lid : Nat) (s : State) : Host.Outcome State Fault Refusal :=
  hubUse s part fun s =>
  match s.launch? part lid with
  | none => .next s
  | some l =>
    if l.kind ≠ 1 || l.copied || l.rej || !l.deps.isEmpty || (s.part part).rst || s.sx.any (fun c => c.part == part && c.launch == some lid)
    then .next s
    else match (s.ownCores part).find? fun c => !s.sxFull c with
      | none => .next (s.postAt (s.cycle + 4) (.copyLaunch part lid))
      | some core =>
        let b := l.block
        let c : SxCmd := ⟨s.fresh, core, none, part, l.asn, 0, patOf b, descWord b 64, descWord b 72,
          (recNat b 80 1).testBit 1, s.dclk, none, none, some lid, .queued, 0, [], none, none, [], []⟩
        let keep := (recNat b 80 1).testBit 0
        let known := s.copies.any fun k => k.part == part && k.asn == l.asn && k.addr == l.kaddr
        let s := if keep && !known then { s with copies := s.copies ++ [⟨part, l.asn, l.kaddr, b⟩] } else s
        let s := s.modLaunch part lid fun l => { l with st := .placed }
        .next ({ s with fresh := s.fresh + 1, sx := s.sx ++ [c] }.postOnce (.sxCommandStart core))

/-- RELEASE_LAUNCH: the captured copy of the block is dropped, and the launch completes. -/
def execReleaseLaunch (part lid : Nat) (s : State) : Host.Outcome State Fault Refusal :=
  hubUse s part fun s =>
  match s.launch? part lid with
  | none => .next s
  | some l =>
    if l.kind ≠ 2 || l.rej || !l.deps.isEmpty || (s.part part).rst then .next s
    else
      let s := { s with copies := s.copies.filter fun c => !(c.part == part && c.asn == l.asn && c.addr == l.kaddr) }
      .next ((s.modLaunch part lid fun l => { l with copied := true, st := .placed }).postOnce (.launchComplete part lid))

/-! ## Completion (R348, R349) -/

/-- The completion word. -/
def Launch.word (l : Launch) (status : Nat) : Nat :=
  status * 2 ^ 56 + (l.fault.getD 0) % 256 * 2 ^ 48 + l.lid % 65536 * 2 ^ 32 + l.cval % 2 ^ 32

def Launch.status (l : Launch) : Nat := if l.rej then 2 else if l.fault.isSome then 3 else 1

/-- Has everything of the launch been done (R349, R350)? -/
def launchOver (s : State) (l : Launch) : Bool :=
  if l.rej then true
  else if l.kind ≠ 0 then l.copied
  else l.deps.isEmpty && decide (l.nteams ≤ l.next) && l.wait.isEmpty &&
    l.stages.all (·.recs.isEmpty) &&
    !(s.teams.any fun T => T.part == l.part && T.lid == l.lid && !s.replayTeams.contains T.id) &&
    !(s.groups.any fun G => G.part == l.part && G.lid == l.lid && G.replay.isNone)

/-- Bit 0 of a vector's control word masks it, as PCIe lays the table out (R399). -/
def Partition.vecMasked (p : Partition) (v : Nat) : Bool := (at' 0 p.msixTab (2 * v + 1)).getLsbD 32

/-- A vector's message is sent, or waits as a pending bit while the vector is masked (R399). -/
def Partition.raiseVec (p : Partition) (v : Nat) : Partition :=
  if p.vecMasked v then { p with pba := p.pba ||| (1#64 <<< v) }
  else { p with msix := if p.msix.contains v then p.msix else p.msix ++ [v] }

/-- The launch is complete: its vector is raised, dependences on it are satisfied, and slots that waited for
its number go on. -/
def retireLaunch (s : State) (l : Launch) : State :=
  let s := { s with launches := s.launches.filter fun m => !(m.part == l.part && m.lid == l.lid) }
  let s := if l.intr then s.modPart l.part fun p => p.raiseVec l.vec else s
  let waiting := s.launches.filter fun m => m.part == l.part && m.deps.contains l.lid
  let s := waiting.foldl (fun (s : State) (m : Launch) => s.modLaunch m.part m.lid fun m =>
    let ds := m.deps.filter (· != l.lid)
    { m with deps := ds, st := if ds.isEmpty && m.st == .waiting then .ready else m.st }) s
  let s := waiting.foldl (fun (s : State) (m : Launch) => match s.launch? m.part m.lid with
    | some m => goLaunch s m
    | none => s) s
  let p : Partition := s.part l.part
  let s := (rangeFrom 0 16).foldl (fun (s : State) (q : Nat) => if (p.queue q).ci = (p.queue q).wi then s
    else s.postOnce (.launchAccept l.part q)) s
  s.kick

/-- LAUNCH_COMPLETE (R348): the completion word is written past every write of the launch; once it is
acknowledged the launch is complete. [DEDUCED: log entry 64; PRESUMED: log entry 71] -/
def execLaunchComplete (part lid : Nat) (s : State) : Host.Outcome State Fault Refusal :=
  hubUse s part fun s =>
  match s.launch? part lid with
  | none => .next s
  | some l => match l.done with
    | some id => .next (if (s.req? id).isSome then s else retireLaunch s l)
    | none =>
      if !launchOver s l || (s.part part).rst then .next s
      else if l.caddr = 0 || l.caddr.toNat % 8 ≠ 0 then .next (retireLaunch s l)
      else match hubSend s part l.asn l.caddr (leBytes 8 (l.word l.status)) (smax l.pts s.dclk + 1) with
        | (s, none) => .next (retireLaunch s l)
        | (s, some id) => .next (s.modLaunch part lid fun l => { l with done := some id })

/-! ## Pipelines (R45, R363 to R365) -/

def Launch.modStage (l : Launch) (k : Nat) (f : Stage → Stage) : Launch := { l with stages := modAt f k l.stages }

/-- Records of a stage that name an entry point, in order. -/
def Stage.naming (g : Stage) (e : Word) : List StageRec := g.recs.filter fun r => at' 0 r.words 0 == e

/-- The entry points that a stage's records name, in order. -/
def Stage.entries (g : Stage) : List Word := (g.recs.map fun r => at' 0 r.words 0).eraseDups

/-- Gather the first records of an entry point into a waiting team of one gang (R364). [DESIGN CHOICE: log entries 61, 62] -/
def Launch.gather (l : Launch) (k : Nat) (e : Word) (n : Nat) : Launch :=
  match l.stages[k]? with
  | none => l
  | some g =>
    let take := (g.naming e).take n
    match take with
    | [] => l
    | r :: rs =>
      let pts := rs.foldl (fun t (x : StageRec) => smax t x.pts) r.pts
      let left := take.foldl (fun (q : List StageRec) x => q.erase x) g.recs
      let l := l.modStage k fun g => { g with recs := left }
      { l with
        wait := l.wait ++ [⟨l.nteams + l.made, [], some k, take.map (·.words), some pts⟩]
        made := l.made + 1, st := .running }

/-- Release full gangs of a stage (R45). -/
def Launch.gatherFull (l : Launch) (k : Nat) : Nat → Launch
  | 0 => l
  | n + 1 => match l.stages[k]? with
    | none => l
    | some g => match g.entries.find? fun e => decide (l.width ≤ (g.naming e).length) with
      | some e => (l.gather k e l.width).gatherFull k n
      | none => l

/-- Does a group of an earlier stage, or of the launch's own teams, remain resident or queued (R45)? [DESIGN CHOICE: log entry 62] -/
def earlierWork (s : State) (l : Launch) (k : Nat) : Bool :=
  let before := fun (st : Option Nat) => match st with | none => true | some j => decide (j < k)
  decide (l.next < l.nteams) || (l.wait.any fun t => before t.stage) ||
    s.teams.any fun T => T.part == l.part && T.lid == l.lid && before T.stage && !s.replayTeams.contains T.id

/-- GATHER_TIMEOUT (R45): partial gangs are released when 2,048 cycles have passed without a matching record,
or no earlier group remains. -/
def execGatherTimeout (part lid stage : Nat) (s : State) : Host.Outcome State Fault Refusal :=
  hubUse s part fun s =>
  match s.launch? part lid with
  | none => .next s
  | some l => match l.stages[stage]? with
    | none => .next s
    | some g =>
      let alone := !earlierWork s l stage
      let ready := g.entries.filter fun e =>
        alone || decide ((g.naming e).foldl (fun m r => max m r.came) 0 + 2048 ≤ s.cycle)
      .next ((s.modLaunch part lid fun l => ready.foldl (fun l e => l.gather stage e l.width) l).kick)

/-- STAGE_ALLOWANCE (R365): each stage's core allowance for the next interval, and what it emitted into in the last. [DESIGN CHOICE: log entry 62] -/
def execStageAllowance (part lid : Nat) (s : State) : Host.Outcome State Fault Refusal :=
  hubUse s part fun s =>
  match s.launch? part lid with
  | none => .next s
  | some l =>
    let own := (s.ownCores part).length
    let next := fun (k : Nat) (g : Stage) =>
      let held := g.recs.length + ((l.wait.filter (·.stage == some k)).map (·.recs.length)).sum
      let part := (own * held + g.qcap - 1) / g.qcap
      let low := if held = 0 then 0 else max g.minc part
      { g with
        allow := if g.maxc = 0 then low else min g.maxc low
        fed := g.outs
        outs := [] }
    .next ((s.modLaunch part lid fun l => { l with stages := imap next 0 l.stages }).kick)

end Sys2Proof.Machine
end

