-- ==== Sys2Proof/Machine/Bridge.lean ====
section
/-!
DEFINITION. The host bridge: host memory that the device caches (R404 to R408, R413), and device memory that
the host caches (R409 to R411).
-/

namespace Sys2Proof.Machine

/-- Does the host port run CXL (R398)? `cxl` is the version of CXL, 2 or 3, or of PCIe, 5 to 7. [DESIGN CHOICE: log entry 10] -/
def State.cxlMode (s : State) : Bool := decide (s.cxl ≤ 3)

/-! ## Requests for host memory (R404, R405) -/

/-- A request at the bridge: its page is one of host memory, or it goes back to its home. -/
def atBridge (s : State) (q : Req) (k : State → Leaf → State) : State :=
  if q.held.isSome || q.served then s
  else match translate s q.part q.asn q.va with
    | (.leaf l, s) => if l.host then k s l else s.post (serveStep q.id q.kind)
    | (_, s) => s.post (serveStep q.id q.kind)

/-- The line of host memory that a request names under its leaf. -/
def Leaf.hostLine (l : Leaf) (q : Req) : Nat := l.key (q.va / 128 * 128) / 128

/-- The granule that a request waits for. -/
def reqGranule (s : State) (q : Req) : Option Nat :=
  match q.kind with
  | .report _ => some (q.va / 128)
  | _ => match (translate s q.part q.asn q.va).1 with
  | .leaf l => if l.host then some (granuleOf (l.hostLine q)) else none
  | _ => none

/-- The flag that another core owns in the line of a request (R216); an atomic or a drained term waits for that of its
own core too. [DEDUCED: log entries 18, 68] -/
def State.hostOwner (s : State) (q : Req) (line : Nat) : Option Owned :=
  (s.owner? line).filter fun o => q.kind.alters || o.core != q.core

/-- A read of host memory (R404): served while the granule is held, with a lease of 512 ns for the copy it
leaves; else the host is asked. An access to a line that a core owns is redirected first (R216). [DESIGN CHOICE: log entry 10; DEDUCED: log entry 68] -/
def bridgeRead (s : State) (q : Req) (l : Leaf) : State :=
  let line := l.hostLine q
  let g := granuleOf line
  match s.hostOwner q line with
  | some o => s.holdReq q (.recall o.id)
  | none =>
  if !s.hostReadable g then (s.askHost g false).holdReq q .bridge
  else match q.kind with
    | .read lanes _ fill acq ef keep mask ahead =>
      let lend := s.ptp + 512
      let data := s.mem.read (line * 128) 128
      let bad := badMask s line
      let copy := fill && s.cxlMode && bad == 0
      let s := if copy then s.modGranule g fun x => { x with le := max x.le lend } else s
      let s := leaveCopy s q copy ef keep data bad (.host lend s.ptp)
      let s := if acq then s.raisePts q.gang (at' 0 s.dclkSeen q.core) else s
      deliver s q lanes mask ahead data bad
    | .fetch cmd _ off n _ => engineGot s q cmd (engineBytes s line off n) none
    | .dread _ _ _ _ => docServe s q l .bridge
    | .dstat _ => docServe s q l .bridge
    | _ => s

/-- BRIDGE_DEVICE_READ (R404). [DEDUCED: log entry 35] -/
def execBridgeDeviceRead (req : Nat) (s : State) : Host.Outcome State Fault Refusal :=
  match s.req? req with
  | none => .next s
  | some q => .next (atBridge s q fun s l => bridgeRead s q l)

/-- Bytes merge in a line at the bridge; a word left poisoned is logged (R382). -/
def pokeLine (s : State) (part va line : Nat) (mask : BitVec 128) (data : List Byte) : State :=
  let m := s.mend line mask
  let s := m.2.foldl (fun s e => logEntry s part e.1 0 6 0 0 (va + e.2) 0) m.1
  s.pokeMasked (line * 128) 0 mask data

/-- The same for a request. -/
def pokeHost (s : State) (q : Req) (line : Nat) (mask : BitVec 128) (data : List Byte) : State :=
  pokeLine s q.part (q.va / 128 * 128) line mask data

/-- A write has merged at the bridge: its granule is M, and it is acknowledged once PTPNOW passes LE + 80 ns
(R405). -/
def bridgeMerged (s : State) (q : Req) (g : Nat) (wrote : Bool) : State :=
  let s := s.ownBytes q
  let s := if wrote && s.cxlMode then s.modGranule g fun x => { x with st := some .m, part := q.part } else s
  let le := match s.granule? g with | some x => if wrote then x.le else 0 | none => 0
  let s := (s.modReq q.id fun q => { q with served := true }).afterReq q.id
  if le = 0 ∨ le + 80 < s.ptp then s.post (.bridgeWriteAck q.id) else s.postNs (le + 81) (.bridgeWriteAck q.id)

/-- An operation whose answer stands at the bridge waits for one thing more. -/
def waitMore (s : State) (q : Req) : State :=
  match q.op with
  | some o => s.modOp o fun o => { o with waits := o.waits + 1 }
  | none => s

/-- What another device is told of its request goes with the acknowledgement (R405). -/
def withhold (s : State) (q : Req) (f : State → State) : State :=
  if q.src.isNone then f s
  else
    let t := f { s with reply := .none }
    ({ t with reply := s.reply }).modReq q.id fun r => { r with reply := t.reply }

/-- An atomic at the bridge. [DEDUCED: log entry 68] -/
def bridgeAtomic (s : State) (q : Req) (line g lane off n f : Nat) (b c : Word) (fm : Nat) : State :=
  let q0 := { q with id := 0 }
  let mask := maskAt off n
  if badMask s line &&& mask ≠ 0 then
    bridgeMerged (withhold s q fun s => atomDone (waitMore s q) q0 lane none 0 none) q g false
  else
    let old := leNat (s.mem.read (line * 128 + off) n)
    let v := atomVal f (8 * n) old (b.toNat % 2 ^ (8 * n)) (c.toNat % 2 ^ (8 * n)) (FMode.ofCode fm)
    let new := lineAt off (leBytes n v.1)
    let s := (pokeHost s q line mask new).ownCopy q mask new
    bridgeMerged (withhold s q fun s => atomDone (waitMore s q) q0 lane (some old) v.2 none) q g true

/-- A drained RED entry at the bridge (R240). -/
def bridgeRed (s : State) (q : Req) (line g entry : Nat) : State :=
  match s.reds.find? (·.id == entry) with
  | none => bridgeMerged s q g false
  | some e =>
    let off := q.va % 128
    let mask := maskAt off 8
    if badMask s line &&& mask ≠ 0 then bridgeMerged (redPoisoned s e) q g false
    else
      let new := lineAt off (leBytes 8 (redCombine e.f e.sz (leWord (s.mem.read (line * 128 + off) 8)) e.value).toNat)
      bridgeMerged ((pokeHost s q line mask new).ownCopy q mask new) q g true

/-- A decide-once request that may write, at the bridge. [DEDUCED: log entry 27] -/
def bridgeDoc (s : State) (q : Req) (l : Leaf) (line g : Nat) : State :=
  let r := withhold s q fun s => docServe (waitMore s q) { q with id := 0 } l .bridge
  bridgeMerged r q g (r.mem.read (line * 128) 128 != s.mem.read (line * 128) 128)

/-- A write of host memory (R405): merged once the granule is held in E or M; under PCIe a store is sent as
a posted write. [DESIGN CHOICE: log entry 10; DEDUCED: log entry 68] -/
def bridgeWrite (s : State) (q : Req) (l : Leaf) : State :=
  let line := l.hostLine q
  let g := granuleOf line
  let posted := !s.cxlMode && (match q.kind with | .write _ _ _ _ _ => true | .flag _ _ _ _ => true | _ => false)
  match s.hostOwner q line with
  | some o => s.holdReq q (.recall o.id)
  | none =>
  if !posted && !s.hostWritable g then (s.askHost g true).holdReq q .bridge
  else match q.kind with
    | .write mask data _ _ bad =>
      let s := pokeHost s q line mask data
      bridgeMerged (if bad then poisonLowest s line mask else s) q g true
    | .flag o mask data _ => bridgeMerged ((pokeHost s q line mask data).unown o) q g true
    | .red e => bridgeRed s q line g e
    | .atom lane off n f b c fm _ => bridgeAtomic s q line g lane off n f b c fm
    | .prop _ _ _ _ _ _ _ => bridgeDoc s q l line g
    | .recyc _ _ _ => bridgeDoc s q l line g
    | _ => s

/-- A line of the attestation report merges in the host buffer as a device write of it (R432, R405). -/
def bridgeReport (s : State) (q : Req) (data : List Byte) : State :=
  let g := q.va / 128
  if q.held.isSome || q.served then s
  else if s.cxlMode && !s.hostWritable g then (s.askHost g true).holdReq q .bridge
  else bridgeMerged (pokeHost s q (memKey 4 q.va / 128) (maskAt 0 128) data) q g true

/-- BRIDGE_DEVICE_WRITE (R405). -/
def execBridgeDeviceWrite (req : Nat) (s : State) : Host.Outcome State Fault Refusal :=
  match s.req? req with
  | none => .next s
  | some q => .next (match q.kind with
    | .report data => bridgeReport s q data
    | _ => atBridge s q fun s l => bridgeWrite s q l)

/-- The report has been written once none of its lines is on its way: GO reads 0 (R432), and boot's last step ends (R430). [DESIGN CHOICE: log entries 1, 77] -/
def reportDone (s : State) : State :=
  if s.reqs.any fun q => match q.kind with | .report _ => true | _ => false then s
  else { s with attctl := s.attctl &&& ~~~1#64, stage := if s.stage = 4 then 5 else s.stage }

/-- BRIDGE_WRITE_ACK (R405): the acknowledgement of a write that has merged. -/
def execBridgeWriteAck (req : Nat) (s : State) : Host.Outcome State Fault Refusal :=
  match s.req? req with
  | none => .next s
  | some q =>
    if !q.served then .next s
    else match q.kind with
      | .write _ _ _ _ _ => .next (s.post (.smbFlushAck req))
      | .flag _ _ _ _ => .next (s.post (.smbFlushAck req))
      | .red e => .next (s.post (.redDrainAck e))
      | .report _ => .next (reportDone (s.dropReq req))
      | _ =>
        let s := if q.reply = .none then s else { s with reply := q.reply }
        .next ((((s.answer q.op id).dropReq req).settle req none).endPoke)

/-! ## Granules (R404, R408, R413) -/

/-- Damage in a line is gone. -/
def State.cleanLine (s : State) (line : Nat) : State :=
  { s with bad := s.bad.filter fun d => match d.loc with
      | .mem cw => cw / 16 != line
      | _ => true }

/-- What waits for a granule goes on. -/
def State.granuleReady (s : State) (g : Nat) : State :=
  (s.reqs.filter fun q => q.held == some (.granule g) || (q.held == some .bridge && reqGranule s q == some g)).foldl
    State.retry s

/-- HOST_GRANT (R404): the host grants a granule that the bridge asked for, with its bytes. What waited for it
goes on. Under PCIe nothing is cached: the granule is given up at once. -/
def execHostGrant (granule : Nat) (grant : GranuleState) (bytes : List (BitVec 8)) (s : State) :
    Host.Outcome State Fault Refusal :=
  match s.granule? granule with
  | none => .next s
  | some x =>
    if x.want.isNone || x.evicting then .next s
    else
      let key := memKey 4 (granule * 128)
      let s := if x.st ≠ some .m ∧ bytes.length = 128 then
          (s.pokeMasked key 0 (maskAt 0 128) bytes).cleanLine (key / 128)
        else s
      let s := s.modGranule granule fun x => { x with st := some grant, want := none }
      let s := s.granuleReady granule
      .next (if s.cxlMode then s else s.postAt (s.cycle + 8) (.bridgeEvict granule))

/-- The bridge holds a granule no more: what waited at a full bridge asks again. -/
def State.dropGranule (s : State) (g : Nat) : State :=
  let s := { s with granules := s.granules.filter (·.addr != g) }
  let asked := fun (x : Option Nat) => match x with | some g => (s.granule? g).isSome | none => true
  (s.reqs.filter fun q => match q.held with
    | some (.granule h) => !asked (some h)
    | some .bridge => !asked (reqGranule s q)
    | _ => false).foldl State.retry s

/-- BRIDGE_EVICT (R404, R408): once PTPNOW has passed LE the granule goes; a modified one by a DirtyEvict, whose
data the host then pulls. -/
def execBridgeEvict (granule : Nat) (s : State) : Host.Outcome State Fault Refusal :=
  match s.granule? granule with
  | none => .next s
  | some x =>
    if x.want.isSome || x.evicting then .next s
    else if x.le ≠ 0 ∧ s.ptp ≤ x.le then .next (s.postNs (x.le + 1) (.bridgeEvict granule))
    else if x.st = some .m ∧ s.cxlMode then .next (s.modGranule granule fun x => { x with evicting := true })
    else .next (s.dropGranule granule)

/-- Is the bridge's copy of a granule damaged (R413)? -/
def State.granuleBad (s : State) (g : Nat) : Bool := badMask s (memKey 4 (g * 128) / 128) != 0

/-- BRIDGE_WRITEBACK (R408, R413): the data of a modified granule has been pulled, and the bridge holds it no
more. A damaged copy cannot be written back: it stays, and answers snoops with poison. [DEDUCED: log entry 68] -/
def execBridgeWriteback (granule : Nat) (s : State) : Host.Outcome State Fault Refusal :=
  match s.granule? granule with
  | none => .next s
  | some x =>
    if x.st ≠ some .m then .next s
    else if s.granuleBad granule then .next (s.modGranule granule fun x => { x with evicting := false })
    else if x.want.isSome then .next (s.modGranule granule fun x => { x with st := none, evicting := false })
    else .next (s.dropGranule granule)

/-! ## Host snoops (R406, R408) -/

/-- The bytes of a granule as the bridge forwards them. -/
def State.granuleBytes (s : State) (g : Nat) : List Byte := s.mem.read (memKey 4 (g * 128)) 128

/-- The answer to a snoop of a granule: data when it was M, with poison when the bridge's copy is damaged
(R413); RspIHitI while its write-back is under way, or when it is not held. -/
def snoopAnswer (s : State) (x : Granule) : Reply :=
  if x.st.isNone || x.evicting then .snoop false none
  else if x.st ≠ some .m then .snoop true none
  else if s.granuleBad x.addr then .poisoned
  else .snoop true (some (s.granuleBytes x.addr))

/-- A snoop: its answer, and the granule afterwards when the snoop finds it. A write-back of the granule that is
still queued is dropped (R413). -/
def snoop (s : State) (g : Nat) (f : Granule → Granule) : State :=
  match s.granule? g with
  | none => { s with reply := .snoop false none }
  | some x =>
    let a := snoopAnswer s x
    let s := if x.st.isNone || x.evicting then s else
      { s.modGranule g f with agenda := s.agenda.filter (· != .bridgeWriteback g) }
    { s with reply := a }

/-- SNP_INV (R406): the granule is I at once, and LE is the time of arrival. [DEDUCED: log entry 68] -/
def execSnpInv (granule : Nat) (s : State) : Host.Outcome State Fault Refusal :=
  .next (snoop s granule fun x => { x with st := none, le := s.ptp })

/-- SNP_DATA (R406): the granule is S; leases continue. -/
def execSnpData (granule : Nat) (s : State) : Host.Outcome State Fault Refusal :=
  .next (snoop s granule fun x => { x with st := some .s })

/-- SNP_CUR (R406): the granule stays as it is. -/
def execSnpCur (granule : Nat) (s : State) : Host.Outcome State Fault Refusal :=
  .next (snoop s granule id)

/-! ## Device memory that the host caches (R409 to R411) -/

/-- Record a granule in the snoop filter. -/
def State.setSnoop (s : State) (r : LineRef) (excl : Bool) : State :=
  if s.snoops.any (·.line == r.line) then
    { s with snoops := s.snoops.map fun (e : SnoopEnt) => if e.line = r.line then
        { e with excl := excl, part := r.part, asn := r.asn, va := r.va } else e }
  else { s with snoops := s.snoops ++ [⟨r.line, excl, none, r.part, r.asn, r.va⟩] }

def State.dropSnoop (s : State) (line : Nat) : State := { s with snoops := s.snoops.filter (·.line != line) }

/-- A step of the host's own at a home is not held for the host's own copy. [DEDUCED: log entry 28] -/
def asHost (s : State) (line : Nat) (f : State → HomeRes) : HomeRes :=
  match f (s.dropSnoop line) with
  | .done s' w r b => .done { s' with snoops := s.snoops } w r b
  | .held s' h => .held { s' with snoops := s.snoops } h

/-- The request that a back-invalidate response names, or the line of one that no request waits for. -/
def biLine (s : State) (req : Nat) : Option Nat :=
  match (s.req? req).bind (·.held) with
  | some (.host line _) => some line
  | _ => (s.snoops.find? (·.bi.isSome)).map (·.line)

/-- The home of a line that the filter records: under the address by which L2 holds it, else that of the host's last access. -/
def biHome (s : State) (e : SnoopEnt) : LineRef :=
  s.canon ⟨e.line * 128 / 2 ^ 48, e.part, e.asn, e.va, e.line⟩

/-- BI_RESPONSE (R410): dirty data is applied through R203 at DCLK, the entry is removed, or left S after
BISnpData, and what was held goes on. [DESIGN CHOICE: log entry 69] -/
def execBiResponse (req : Nat) (dirty : List (BitVec 8)) (s : State) : Host.Outcome State Fault Refusal :=
  match biLine s req with
  | none => .next s
  | some line =>
    match s.snoop? line with
    | none => .next s
    | some e =>
      let ahead := fun (s : State) =>
        let s := if e.bi = some false then { s with snoops := s.snoops.map fun (x : SnoopEnt) =>
            if x.line = line then { x with excl := false, bi := none } else x }
          else s.dropSnoop line
        (s.reqs.filter fun q => match q.held with
          | some (.host n _) => n == line
          | _ => false).foldl State.retry s
      if dirty.length ≠ 128 then .next (ahead s)
      else match asHost s line fun s => writeAt s (biHome s e) 144 s.dclk (maskAt 0 128) dirty false with
        | .done s _ _ _ => .next (ahead s)
        | .held s h => .next ((s.onHold h 0).postAt (s.cycle + 4) (.biResponse req dirty))

/-- The place in a partition's address space that an access to a window names; none where it is refused
(R401, R403). `bit` is the access bit of WCTL. -/
def winAddr (s : State) (part win off n bit : Nat) : Option (Nat × Nat) :=
  let p := s.part part
  let w := at' ⟨0, 0, 0, 0, 0⟩ p.wins win
  let va := fld w.wva 16 32 * 65536 + off
  if part < 8 ∧ win < 16 ∧ s.stage = 5 ∧ p.en ∧ w.wctl.getLsbD bit ∧ fld w.wlen 0 32 ≠ 0 ∧
      off + n ≤ fld w.wlen 0 32 * 65536 ∧ va + n ≤ 2 ^ 48 then some (fld w.wva 0 4, va)
  else none

/-- What the page of a host access comes to. -/
inductive HostPage where
  | ok (s : State) (l : Leaf)
  | wait (s : State)
  | refused

/-- A page as a host access meets it (R409, R412, R446): held while a drain procedure, a reset or a page that
is not present stands in its way; refused where it is malformed or no device memory. -/
def hostPage (s : State) (part asn va : Nat) : HostPage :=
  if s.draining part asn va || (s.part part).rst then .wait s
  else match translate s part asn va with
    | (.absent, s) => .wait (s.notPresent part asn va)
    | (.malformed, _) => .refused
    | (.held h, s) => .wait (s.onHold h 0)
    | (.leaf l, s) => if l.host then .refused else .ok s l

/-- A host read under way: bytes so far, whether one of them is poisoned, and the meta-state answered. -/
structure HostAcc where
  s      : State
  bytes  : List Byte
  bad    : Bool
  shared : Bool
  excl   : Bool
  wait   : Bool
  stop   : Bool

/-- Is the filter full, so that its oldest entry goes first (R409)? [DESIGN CHOICE: log entry 69] -/
def State.filterFull (s : State) (line : Nat) : Bool :=
  !s.snoops.any (·.line == line) && decide (262144 ≤ s.snoops.length)

/-- One line of a host read (R409, R411); a locked line of a replicated page stalls it, for at most 10 µs (R425). -/
def hostReadLine (part asn : Nat) (mv : HostMeta) (a : HostAcc) (c : Nat × Nat) : HostAcc :=
  if a.wait || a.stop then a
  else match hostPage a.s part asn c.1 with
    | .wait s => { a with s := s, wait := true }
    | .refused => { a with stop := true }
    | .ok s l =>
      match s.repRead part asn c.1 l with
      | .wait s => { a with s := s, wait := true }
      | .home s =>
        let home := s.homeOf part asn c.1
        let ln := if home = s.devnum then l.key c.1 / 128 else remoteLine home c.1
        let s := if home = s.devnum then s else farLine s ln
        { a with
          s := s
          bytes := a.bytes ++ s.mem.read (ln * 128 + c.1 % 128) c.2
          bad := a.bad || badMask s ln &&& maskAt (c.1 % 128) c.2 != 0 }
      | .free =>
      let r := l.lineRef part asn c.1
      let track := l.bias && s.cxlMode && (mv == .shared || mv == .anyState)
      if track && s.filterFull r.line then
        { a with s := s.sendBi ((s.snoops.head?.map (·.line)).getD 0) true, wait := true }
      else match asHost s r.line fun s => readAt s r 144 s.dclk none false with
        | .held s h => { a with s := s.onHold h 0, wait := true }
        | .done s _ _ _ =>
          { a with
            s := if track then s.setSnoop r (mv == .anyState) else s
            bytes := a.bytes ++ s.mem.read (l.key c.1) c.2
            bad := a.bad || badMask s r.line &&& maskAt (c.1 % 128) c.2 != 0
            shared := track && mv == .shared
            excl := track && mv == .anyState }

/-- A device that is being reset holds host accesses to its memory, for at most 300 ms (R413, R395). -/
def State.resetting (s : State) : Bool := s.stage != 5 && !s.bootFail && decide (s.ptp < 300000000)

/-- HOST_READ (R409, R411, R381). [DEDUCED: log entry 28; DESIGN CHOICE: log entry 69] -/
def execHostRead (part win off len : Nat) (mv : HostMeta) (s : State) : Host.Outcome State Fault Refusal :=
  match winAddr s part win off len 0 with
  | none => .next (if s.resetting then s.postNs 300000000 (.hostRead part win off len mv)
      else { s with reply := .unsupported })
  | some (asn, va) =>
    let a := (linePieces va len).foldl (hostReadLine part asn mv) ⟨s, [], false, false, false, false, false⟩
    if a.stop then .next { s with reply := .unsupported }
    else if a.wait then .next (a.s.postAt (s.cycle + 4) (.hostRead part win off len mv))
    else .next { a.s with reply := if a.bad then .poisoned else .data a.bytes a.shared a.excl }

/-- What the filter records after a host write (R409). [DESIGN CHOICE: log entry 69] -/
def hostMeta (s : State) (l : Leaf) (r : LineRef) (mv : HostMeta) : State :=
  if !(l.bias && s.cxlMode) then s
  else match mv with
    | .invalid => s.dropSnoop r.line
    | .shared => s.setSnoop r false
    | .anyState => s.setSnoop r true
    | .noOp => s

/-- HOST_WRITE (R409): its first line is performed at the home through R203 at DCLK; the rest follows. A line of
a replicated page goes to the sequencer (R424). [DEDUCED: log entry 28; DESIGN CHOICE: log entry 69] -/
def execHostWrite (part win off : Nat) (bytes : List (BitVec 8)) (mv : HostMeta) (s : State) :
    Host.Outcome State Fault Refusal :=
  match winAddr s part win off bytes.length 0, bytes with
  | none, _ => .next (if s.resetting then s.postNs 300000000 (.hostWrite part win off bytes mv) else s)
  | _, [] => .next s
  | some (asn, va), _ =>
    let n := min bytes.length (128 - va % 128)
    let again := fun (s : State) => s.postAt (s.cycle + 4) (.hostWrite part win off bytes mv)
    let rest := fun (s : State) => if n < bytes.length then
      s.post (.hostWrite part win (off + n) (bytes.drop n) mv) else s
    match hostPage s part asn va with
    | .wait s => .next (again s)
    | .refused => .next s
    | .ok s l =>
      let r := l.lineRef part asn va
      let mask := maskAt (va % 128) n
      let data := (lineAt (va % 128) (bytes.take n) ++ List.replicate 128 0).take 128
      let want := l.bias && s.cxlMode && (mv == .shared || mv == .anyState)
      if want && s.filterFull r.line then
        .next (again (s.sendBi ((s.snoops.head?.map (·.line)).getD 0) true))
      else if l.mode = 4 then .next (rest (hostMeta (s.send (.rep mask data [] false false) 144 0 none part asn
        (va / 128 * 128) 0 s.dclk) l r mv))
      else match asHost s r.line fun s => writeAt s r 144 s.dclk mask data false with
        | .held s h => .next (again (s.onHold h 0))
        | .done s _ _ _ => .next (rest (hostMeta s l r mv))

end Sys2Proof.Machine
end

