-- ==== Sys2Proof/Machine/Transcend.lean ====
section
/-!
DEFINITION. The transcendental values that the moment unit rounds correctly (R153 to R156): e^x,
e^x − 1, the logistic sigmoid, the standard normal distribution and density, and 1/√x, each as a dyadic
whose last bit is sticky. They are computed to 640 fractional bits, and a value that is irrational always
carries a sticky bit.
-/

namespace Sys2Proof.Machine

/-- Fractional bits of the fixed-point computations. [UNVERIFIED: log entry 51] -/
def fixBits : Nat := 640

/-- π · 2^640, cut. -/
def fixPi : Nat := 0x3243f6a8885a308d313198a2e03707344a4093822299f31d0082efa98ec4e6c89452821e638d01377be5466cf34e90c6cc0ac29b7c97c50dd3f84d5b5b54709179216d5d98979fb1bd1310ba698dfb5ac
/-- ln 2 · 2^640, cut. -/
def fixLn2 : Nat := 0xb17217f7d1cf79abc9e3b39803f2f6af40f343267298b62d8a0d175b8baafa2be7b876206debac98559552fb4afa1b10ed2eae35c138214427573b291169b8253e96ca16224ae8c51acbda11317c387e

/-- A signed dyadic (negative, magnitude, exponent) in fixed point. -/
def toFix (x : Bool × Nat × Int) : Int :=
  let sh : Int := x.2.2 + fixBits
  let m : Int := if 0 ≤ sh then ((x.2.1 <<< sh.toNat : Nat) : Int) else ((x.2.1 >>> (-sh).toNat : Nat) : Int)
  if x.1 then -m else m

/-- Σ r^n / n! from n on, with the present term and sum, in fixed point. -/
def expTerms : Nat → Nat → Int → Int → Int → Int
  | 0, _, _, _, sum => sum
  | k + 1, n, r, t, sum =>
    let t1 := t * r / ((n : Int) * (2 ^ fixBits : Nat))
    expTerms k (n + 1) r t1 (sum + t1)

/-- e^r in fixed point, for 0 ≤ r < 1. -/
def expFix (r : Int) : Int := expTerms 160 1 r (2 ^ fixBits : Nat) (2 ^ fixBits : Nat)

/-- Mark a magnitude as inexact. -/
def stickyDy (m : Nat) (e : Int) : Nat × Int := (2 * m + 1, e - 1)

/-- e^x of a finite dyadic. [UNVERIFIED: log entry 51] -/
def expDy (x : Bool × Nat × Int) : Nat × Int :=
  if x.2.1 = 0 then (1, 0)
  else if 16 < (Nat.log2 x.2.1 : Int) + x.2.2 then stickyDy 1 (if x.1 then -100000 else 100000)
  else
    let X := toFix x
    let k := X / fixLn2
    stickyDy (expFix (X - k * fixLn2)).toNat (k - fixBits)

/-- e^x − 1 of a finite dyadic at or above 0. -/
def expm1Dy (m : Nat) (e : Int) : Nat × Int :=
  if m = 0 then (0, 0)
  else if (Nat.log2 m : Int) + e < -2 then
    stickyDy (expFix (toFix (false, m, e)) - (2 ^ fixBits : Nat)).toNat (-(fixBits : Int))
  else
    let x := expDy (false, m, e)
    let d := addDy (false, x.1, x.2) (true, 1, 0)
    (d.2.1, d.2.2)

/-- 1 / (1 + e^−x) of a finite dyadic. [UNVERIFIED: log entry 51] -/
def sigmoidDy (x : Bool × Nat × Int) : Nat × Int :=
  let e := expDy x
  let d := addDy (false, e.1, e.2) (false, 1, 0)
  -- e / (1 + e), far from 1 cut to a tiny or near-one value
  if 90000 < e.2 then stickyDy (2 ^ 512 - 1) (-512)
  else if e.2 < -90000 then e
  else let q := divDy 512 e.1 d.2.1; (q.1, q.2 + e.2 - d.2.2)

/-- √(2π) in fixed point. -/
def fixSqrt2Pi : Nat := isqrt (2 * fixPi * 2 ^ fixBits)

/-- φ(α), the standard normal density. [UNVERIFIED: log entry 51] -/
def densityDy (x : Bool × Nat × Int) : Nat × Int :=
  let e := expDy (true, x.2.1 * x.2.1, 2 * x.2.2 - 1)
  let q := divDy 512 e.1 fixSqrt2Pi
  (q.1, q.2 + e.2 + fixBits)

/-- Σ t^(2n+1) / (1·3·…·(2n+1)) from n on. -/
def normTerms : Nat → Nat → Nat → Nat → Nat → Nat
  | 0, _, _, _, sum => sum
  | k + 1, n, t2, t, sum =>
    let t1 := t * t2 / ((2 * n + 3) * 2 ^ fixBits)
    normTerms k (n + 1) t2 t1 (sum + t1)

/-- Φ(α), the standard normal distribution. [UNVERIFIED: log entry 51] -/
def normalDy (x : Bool × Nat × Int) : Nat × Int :=
  if x.2.1 = 0 then (1, -1)
  else if 4 ≤ (Nat.log2 x.2.1 : Int) + x.2.2 then
    if x.1 then stickyDy 1 (-600) else stickyDy (2 ^ 600 - 1) (-600)
  else
    let t := (toFix (false, x.2.1, x.2.2)).toNat
    let sum := normTerms 720 0 (t * t / 2 ^ fixBits) t t
    let d := densityDy x
    let r := addDy (false, 1, -1) (x.1, d.1 * sum, d.2 - fixBits)
    stickyDy r.2.1 r.2.2

/-- 1 / √(m · 2^e), exact or with a sticky last bit. [UNVERIFIED: log entry 51] -/
def rsqrtDy (m : Nat) (e : Int) : Nat × Int :=
  let m2 := if e % 2 = 0 then m else 2 * m
  let e2 := if e % 2 = 0 then e else e - 1
  let k := 128 + Nat.log2 m2
  let r := isqrt (4 ^ k / m2)
  (2 * r + (if r * r * m2 = 4 ^ k then 0 else 1), -(k : Int) - e2 / 2 - 1)

end Sys2Proof.Machine
end

