-- ==== Sys2Proof/Machine/Cordic.lean ====
section
/-!
DEFINITION. Function-unit words (R165 to R174): the fixed-point CORDIC kernel, the reduction of each
function to its passes, special values, and the one rounding of the exact value.
-/

namespace Sys2Proof.Machine

/-! ## The grid (R167): integers in steps of 2^−44, in 48-bit two's complement -/

/-- AC[i] (R167): atan 2^−i on the grid, from i = 0. -/
def tabAC : List Int :=
  [0xc90fdaa2217, 0x76b19c1586f, 0x3eb6ebf2590, 0x1fd5ba9aac3, 0xffaaddb968, 0x7ff556eea6,
   0x3ffeaab777, 0x1fffd555bc, 0xffffaaaae, 0x7ffff5555, 0x3ffffeaab, 0x1fffffd55, 0xffffffab,
   0x7ffffff5, 0x3fffffff, 0x20000000, 0x10000000, 0x8000000, 0x4000000, 0x2000000, 0x1000000,
   0x800000, 0x400000, 0x200000, 0x100000, 0x80000, 0x40000, 0x20000]

/-- AH[i] (R167): atanh 2^−i on the grid, from i = 1. -/
def tabAH : List Int :=
  [0x8c9f53d5682, 0x4162bbea045, 0x202b12393d6, 0x1005588ad37, 0x800aac448d, 0x4001556223,
   0x20002aab11, 0x1000055559, 0x80000aaab, 0x400001555, 0x2000002ab, 0x100000055, 0x8000000b,
   0x40000001, 0x20000000, 0x10000000, 0x8000000, 0x4000000, 0x2000000, 0x1000000, 0x800000,
   0x400000, 0x200000, 0x100000, 0x80000, 0x40000, 0x20000]

/-- IC(n) (R167), from n = 1. -/
def tabIC : List Int :=
  [0xb504f333f9e, 0xa1e89b12425, 0x9d130dd36bd, 0x9bdc8a0ef5a, 0x9b8ed60c177, 0x9b7b67d5ecb,
   0x9b768c34f94, 0x9b75554b859, 0x9b750791153, 0x9b74f42277f, 0x9b74ef46d08, 0x9b74ee0fe6a,
   0x9b74edc22c3, 0x9b74edaebd9, 0x9b74eda9e1f, 0x9b74eda8ab0, 0x9b74eda85d4, 0x9b74eda849e,
   0x9b74eda8450, 0x9b74eda843c, 0x9b74eda8438, 0x9b74eda8436, 0x9b74eda8436, 0x9b74eda8436,
   0x9b74eda8436, 0x9b74eda8436, 0x9b74eda8436, 0x9b74eda8436]

/-- IH(n) (R167), from n = 1. -/
def tabIH : List Int :=
  [0x1279a7459033, 0x1314c3d92a9f, 0x133b61605e14, 0x1345064d5a9c, 0x134eb0106e82,
   0x13511a5a60d8, 0x1351b4ea7276, 0x1351db8e5036, 0x1351e537453c, 0x1351e7a18257,
   0x1351e83c119b, 0x1351e862b56c, 0x1351e86c5e60, 0x1351e86ec89d, 0x1351e87132da,
   0x1351e871cd6a, 0x1351e871f40d, 0x1351e871fdb6, 0x1351e8720021, 0x1351e87200bb,
   0x1351e87200e2, 0x1351e87200ec, 0x1351e87200ee, 0x1351e87200ef, 0x1351e87200ef,
   0x1351e87200ef, 0x1351e87200ef, 0x1351e87200ef]

/-- L2E2 (R167). -/
def gridL2E2 : Int := 0x2e2a8eca5706

/-- LN2 (R167), a constant that no row of R169 names. [DEDUCED: log entry 100] -/
def gridLn2 : Int := 0xb17217f7d1d

/-- The hyperbolic index sequence h(1), h(2), …: 4 and 13 are used twice. -/
def hypIndex (j : Nat) : Nat := if j ≤ 4 then j else if j ≤ 14 then j - 1 else j - 2

/-- 1 on the grid. -/
def gridOne : Int := (2 ^ 44 : Nat)

/-- Wrap to 48 bits. -/
def wrap48 (v : Int) : Int := Int.bmod v (2 ^ 48)

/-- RN44 of (−1)^s · m · 2^e. -/
def rn44 (s : Bool) (m : Nat) (e : Int) : Int :=
  if e < -4000 then 0
  else
    let n : Int := ((scaleRound .rne s m (e + 44)).1 : Nat)
    if s then -n else n

/-! ## A pass (R168) -/

/-- The registers of the kernel. -/
structure Kernel where
  x : Int
  y : Int
  z : Int
  deriving DecidableEq, Repr

/-- The kinds of pass. -/
inductive Pass where
  | circRot | circVec | hypRot | hypVec | linVec
  deriving DecidableEq, Repr

/-- v >> i rounds toward −∞. -/
def asr (v : Int) (i : Nat) : Int := v / (2 ^ i : Nat)

/-- Step t of a pass; every update uses the values from before the step. -/
def Pass.one (p : Pass) (t : Nat) (k : Kernel) : Kernel :=
  let i := match p with
    | .hypRot => hypIndex t
    | .hypVec => hypIndex t
    | _ => t - 1
  let rot := p == .circRot || p == .hypRot
  let dir : Int := if rot then (if 0 ≤ k.z then 1 else -1) else (if 0 ≤ k.y then -1 else 1)
  let xs := asr k.x i
  let ys := asr k.y i
  let y := wrap48 (k.y + dir * xs)
  match p with
  | .linVec => ⟨k.x, y, wrap48 (k.z - dir * asr gridOne i)⟩
  | .circRot => ⟨wrap48 (k.x - dir * ys), y, wrap48 (k.z - dir * at' 0 tabAC i)⟩
  | .circVec => ⟨wrap48 (k.x - dir * ys), y, wrap48 (k.z - dir * at' 0 tabAC i)⟩
  | _ => ⟨wrap48 (k.x + dir * ys), y, wrap48 (k.z - dir * at' 0 tabAH (i - 1))⟩

/-- A pass of n steps. -/
def Pass.run (p : Pass) (n : Nat) (k : Kernel) : Kernel := (rangeFrom 1 n).foldl (fun k t => p.one t k) k

/-- The quotient that the linear pass leaves in z. -/
def linZ (n : Nat) (x y : Int) : Int := (Pass.linVec.run n ⟨x, y, 0⟩).z

/-! ## Reductions and exact values (R169) -/

/-- A signed dyadic with the sign a zero takes. -/
structure CVal where
  neg  : Bool
  m    : Nat
  e    : Int
  zneg : Bool := false
  deriving DecidableEq, Repr

/-- A grid value times 2^e. -/
def CVal.ofGrid (v : Int) (e : Int) (zneg : Bool) : CVal := ⟨decide (v < 0), v.natAbs, e - 44, zneg⟩

/-- A scale beyond every result format, cut to bound its size. -/
def clampExp (k : Int) : Int := max (-3000) (min 3000 k)

/-- x + y after the hyperbolic rotation of angle z. -/
def expPass (n : Nat) (z : Int) : Int :=
  let k := Pass.hypRot.run n ⟨at' 0 tabIH (n - 1), 0, z⟩
  k.x + k.y

/-- RN44(v · c) for an exact dyadic v and a real constant c given to 640 fractional bits. [DEDUCED: log entry 100] -/
def rn44Fix (v : Int) (e : Int) : Int := rn44 (decide (v < 0)) v.natAbs (e - fixBits)

/-- CEXP2: k, and E or none when f = 0. [DEDUCED: log entry 100] -/
def cexpParts (n : Nat) (s : Bool) (m : Nat) (e : Int) : Int × Option Int :=
  if 0 ≤ e then (clampExp (if s then -((m <<< (min e 4000).toNat : Nat) : Int) else (m <<< (min e 4000).toNat : Nat)), none)
  else
    let d : Nat := 2 ^ (-e).toNat
    let v : Int := if s then -(m : Int) else m
    let k := v / d
    let f := v - k * d
    if f = 0 then (clampExp k, none)
    else (clampExp k, some (expPass n (rn44Fix (f * fixLn2) e)))

/-- E and k of −c·log2 e for c = m · 2^e > 0: k is the floor, and f·ln 2 is −c − k·ln 2. -/
def expNeg (n : Nat) (m : Nat) (e : Int) : Int × Int :=
  if 16 < (Nat.log2 m : Int) + e then (-3000, gridOne)
  else
    let c : Int := toFix (true, m, e)
    let c := if c = 0 then -1 else c
    let k := c / fixLn2
    (k, expPass n (rn44Fix (c - k * fixLn2) 0))

/-- Exponent of the leading bit. -/
def lead (m : Nat) (e : Int) : Int := (Nat.log2 m : Int) + e

/-- The functions of one input. -/
inductive CFn where
  | exp2 | log2 | sin | cos | tanh | sigm | rcp | rsqrt | sqrt | atan
  deriving DecidableEq, Repr

/-- sin and cos of (−1)^s · m · 2^e (R169): on the grid. -/
def cordicSinCos (n : Nat) (s : Bool) (m : Nat) (e : Int) : Int × Int :=
  -- a in units of 2^−(640+g), with g further bits for tiny exponents
  let g : Nat := (-e).toNat
  let a : Int := let b : Int := ((m <<< (e + fixBits + g).toNat : Nat) : Int); if s then -b else b
  let P : Int := ((fixPi <<< g : Nat) : Int)
  let q0 := 2 * a / P
  let r0 := 2 * a - q0 * P
  let q := if 2 * r0 > P ∨ (2 * r0 = P ∧ q0 % 2 ≠ 0) then q0 + 1 else q0
  let r2 := 2 * a - q * P
  let k := Pass.circRot.run n ⟨at' 0 tabIC (n - 1), 0, rn44 (decide (r2 < 0)) r2.natAbs (-(fixBits : Int) - g - 1)⟩
  match (q % 4).toNat with
  | 0 => (k.y, k.x)
  | 1 => (k.x, -k.y)
  | 2 => (-k.y, -k.x)
  | _ => (-k.x, k.y)

/-- The exact value of a function of one finite, nonzero input (R169). -/
def cordic1 (fn : CFn) (n : Nat) (s : Bool) (m : Nat) (e : Int) : CVal :=
  let k := lead m e
  let one := m == 2 ^ Nat.log2 m
  let d : Int := -(Nat.log2 m : Int)   -- m · 2^d lies in [1, 2)
  match fn with
  | .exp2 => match cexpParts n s m e with
    | (k, none) => ⟨false, 1, k, false⟩
    | (k, some E) => .ofGrid E k false
  | .log2 =>
    if one then ⟨decide (k < 0), k.natAbs, 0, false⟩
    else
      let r := Pass.hypVec.run n ⟨rn44 false m d + gridOne, rn44 false m d - gridOne, 0⟩
      let v := k * (2 ^ 88 : Nat) + r.z * gridL2E2
      ⟨decide (v < 0), v.natAbs, -88, false⟩
  | .sin => .ofGrid (cordicSinCos n s m e).1 0 s
  | .cos => .ofGrid (cordicSinCos n s m e).2 0 false
  | .tanh =>
    let r := expNeg n m (e + 1)
    let u := rn44 false r.2.toNat (r.1 - 44)
    let z := linZ n (gridOne + u) (gridOne - u)
    .ofGrid (if s then -z else z) 0 s
  | .sigm =>
    let r := expNeg n m e
    let u := rn44 false r.2.toNat (r.1 - 44)
    if s then .ofGrid (linZ n (gridOne + u) r.2) r.1 false
    else .ofGrid (linZ n (gridOne + u) gridOne) 0 false
  | .rcp =>
    if one then ⟨s, 1, -k, false⟩
    else
      let z := linZ n (rn44 false m d) gridOne
      .ofGrid (if s then -z else z) (-k) false
  | .rsqrt =>
    let k2 := if k % 2 = 0 then k else k + 1
    let d2 := if k % 2 = 0 then d else d - 1
    if one ∧ k % 2 = 0 then ⟨false, 1, -(k2 / 2), false⟩
    else
      let q := gridOne / 4
      let r := Pass.hypVec.run n ⟨rn44 false m d2 + q, rn44 false m d2 - q, 0⟩
      let t := r.x * at' 0 tabIH (n - 1)
      let Q := rn44 (decide (t < 0)) t.natAbs (-88)
      .ofGrid (linZ n Q gridOne) (-(k2 / 2)) false
  | .sqrt =>
    let k2 := if k % 2 = 0 then k else k + 1
    let d2 := if k % 2 = 0 then d else d - 1
    if one ∧ k % 2 = 0 then ⟨false, 1, k2 / 2, false⟩
    else
      let q := gridOne / 4
      let r := Pass.hypVec.run n ⟨rn44 false m d2 + q, rn44 false m d2 - q, 0⟩
      let t := r.x * at' 0 tabIH (n - 1)
      ⟨decide (t < 0), t.natAbs, k2 / 2 - 88, false⟩
  | .atan =>
    let sh := max 0 k
    .ofGrid (Pass.circVec.run n ⟨rn44 false 1 (-sh), rn44 s m (e - sh), 0⟩).z 0 s

/-! ## Rounding and special values (R170, R171) -/

/-- Round an exact value once. -/
def CVal.round (f : Fmt) (fm : FMode) (v : CVal) : FRes :=
  if v.m = 0 then ⟨f.mk3 v.zneg 0 0, 0⟩ else f.round fm false v.neg v.m v.e

/-- c · π / 4, rounded. -/
def roundPi4 (f : Fmt) (fm : FMode) (neg : Bool) (c : Nat) : FRes :=
  if c = 0 then ⟨f.mk3 neg 0 0, 0⟩ else f.round fm false neg (2 * (c * fixPi) + 1) (-(fixBits : Int) - 3)

/-- The inputs that bypass the kernel (R171). [DEDUCED: log entry 54] -/
def cordicSpecial (f : Fmt) (fm : FMode) (fn : CFn) (a : FVal) : Option FRes :=
  let one : FRes := ⟨f.ofInt 1, 0⟩
  let inf : FRes := ⟨f.infBits false, 0⟩
  match fn, a with
  | .exp2, .fin _ 0 _ => some one
  | .exp2, .inf s => some (if s then ⟨0, 0⟩ else inf)
  | .log2, .fin _ 0 _ => some ⟨f.infBits true, fDZ⟩
  | .log2, .inf s => some (if s then f.invalid else inf)
  | .log2, .fin true _ _ => some f.invalid
  | .sin, .fin s 0 _ => some ⟨f.mk3 s 0 0, 0⟩
  | .sin, .inf _ => some f.invalid
  | .cos, .fin _ 0 _ => some one
  | .cos, .inf _ => some f.invalid
  | .tanh, .fin s 0 _ => some ⟨f.mk3 s 0 0, 0⟩
  | .tanh, .inf s => some ⟨f.ofInt (if s then -1 else 1), 0⟩
  | .sigm, .fin _ 0 _ => some (f.round fm false false 1 (-1))
  | .sigm, .inf s => some (if s then ⟨0, 0⟩ else one)
  | .rcp, .fin s 0 _ => some ⟨f.infBits s, fDZ⟩
  | .rcp, .inf s => some ⟨f.mk3 s 0 0, 0⟩
  | .rsqrt, .fin s 0 _ => some ⟨f.infBits s, fDZ⟩
  | .rsqrt, .inf s => some (if s then f.invalid else ⟨0, 0⟩)
  | .rsqrt, .fin true _ _ => some f.invalid
  | .sqrt, .fin s 0 _ => some ⟨f.mk3 s 0 0, 0⟩
  | .sqrt, .inf s => some (if s then f.invalid else inf)
  | .sqrt, .fin true _ _ => some f.invalid
  | .atan, .fin s 0 _ => some ⟨f.mk3 s 0 0, 0⟩
  | .atan, .inf s => some (roundPi4 f fm s 2)
  | _, _ => none

/-- A function of one input on a sub-element. -/
def cordicR (f : Fmt) (fm : FMode) (fn : CFn) (n : Nat) (a : FVal) : FRes :=
  match firstNaN f [(a, f.mw)] with
  | some r => r
  | none => match cordicSpecial f fm fn a with
    | some r => r
    | none => match a with
      | .fin s m e => (cordic1 fn n s m e).round f fm
      | _ => f.invalid

def FVal.sign : FVal → Bool
  | .nan s _ _ => s
  | .inf s => s
  | .fin s _ _ => s

/-- CATAN2 of (y, x) (R169, R171). [DEDUCED: log entry 54] -/
def atan2R (f : Fmt) (fm : FMode) (n : Nat) (y x : FVal) : FRes :=
  match firstNaN f [(y, f.mw), (x, f.mw)] with
  | some r => r
  | none =>
    match y, x with
    | .fin sy 0 _, _ => roundPi4 f fm sy (if x.sign then 4 else 0)
    | .inf sy, .inf sx => roundPi4 f fm sy (if sx then 3 else 1)
    | .inf sy, _ => roundPi4 f fm sy 2
    | _, .inf sx => roundPi4 f fm y.sign (if sx then 4 else 0)
    | _, .fin _ 0 _ => roundPi4 f fm y.sign 2
    | .fin sy my ey, .fin sx mx ex =>
      let sh := max (lead my ey) (lead mx ex)
      let z := (Pass.circVec.run n ⟨rn44 false mx (ex - sh), rn44 sy my (ey - sh), 0⟩).z
      if !sx then (CVal.ofGrid z 0 false).round f fm
      else
        let v : Int := (if sy then -(fixPi : Int) else fixPi) - z * (2 ^ (fixBits - 44) : Nat)
        f.round fm false (decide (v < 0)) (2 * v.natAbs + 1) (-(fixBits : Int) - 1)
    | _, _ => f.invalid

/-- CHYPOT of (y, x) (R169, R171). [DEDUCED: log entry 54] -/
def hypotR (f : Fmt) (fm : FMode) (n : Nat) (y x : FVal) : FRes :=
  let isInf := fun (v : FVal) => match v with | .inf _ => true | _ => false
  match firstNaN f [(y, f.mw), (x, f.mw)] with
  | some r => if (isInf y || isInf x) && r.fl == 0 then ⟨f.infBits false, 0⟩ else r
  | none =>
    match y, x with
    | .fin _ 0 _, .fin _ 0 _ => ⟨0, 0⟩
    | .fin _ my ey, .fin _ mx ex =>
      let sh := if my = 0 then lead mx ex else if mx = 0 then lead my ey else max (lead my ey) (lead mx ex)
      let k := Pass.circVec.run n ⟨rn44 false mx (ex - sh), rn44 false my (ey - sh), 0⟩
      let v := k.x * at' 0 tabIC (n - 1)
      f.round fm false (decide (v < 0)) v.natAbs (sh - 88)
    | _, _ => ⟨f.infBits false, 0⟩

/-! ## The words (R165, R166, R173) -/

/-- The format of an FMT field. -/
def cfFmt (t : BitVec 2) : Fmt := match t.toNat with | 0 => fp32 | 1 => bf16 | _ => fp16

/-- A CF word: one source, D5 or HDST destination, RM hints, and a return P·(n + 2) + 4 beats on. -/
def shapeCf (o : OpCordic) (passes : Nat) (h : Hints) : Shape where
  st := 0
  srcs := [.s7 o.a]
  dst := .d5 o.d.toNat
  lat := 0
  sb := some (passes * (o.i.toNat + 2) + 4, passes * (o.i.toNat + 2) + 4)
  hdst := true
  hm := hmRM
  legal := decide (1 ≤ o.i.toNat) && decide (o.i.toNat ≤ 28) && o.t != 3#2 && (h.dst.isNone || o.d == 16#5)
  fp := true
  cf := true

/-- The scheduler's function unit cannot accept a word: 64 in flight, or one accepted in this beat. -/
def cfBusy (s : State) (x : Cx) : Bool :=
  let mine := s.ops.filter fun o => o.cf == some (x.grp.core, x.g.sched)
  decide (64 ≤ mine.length) || mine.any fun o => o.born == s.beat

/-- Run a CF word: `f` gives the results of a register's sub-elements, lowest first. [DEDUCED: log entries 52, 53] -/
def cfWord (s : State) (o : OpCordic) (passes : Nat) (f : Fmt → FMode → List FVal → List FRes) :
    Host.Outcome State Fault Refusal :=
  withStream s fun x0 =>
    let W := shapeCf o passes x0.hints
    if W.legal && hintsOk x0.hints W.srcs W.hdst W.hm && cfBusy s x0 then .next (hold s x0)
    else runLaneWith s W false noCauses Cx.enOf fun x v L =>
      let t := cfFmt o.t
      let fm := x.fmOf L
      fpOut t.width (f t { fm with sat := false } ((elems t.width (val v L 0)).map (t.rd fm)))

/-- A CFN1 word. -/
def cfn1 (s : State) (o : OpCordic) (fn : CFn) (passes : Nat) : Host.Outcome State Fault Refusal :=
  cfWord s o passes fun t fm xs => xs.map (cordicR t fm fn o.i.toNat)

/-- Apply a function to each pair (e[2j], e[2j+1]). -/
def onPairs (g : FVal → FVal → List FRes) : List FVal → List FRes
  | lo :: hi :: r => g lo hi ++ onPairs g r
  | _ => []

/-- CEXP2 (R169). -/
def execCexp2 (o : OpCordic) (s : State) := cfn1 s o .exp2 1
/-- CLOG2 (R169). -/
def execClog2 (o : OpCordic) (s : State) := cfn1 s o .log2 1
/-- CSIN (R169). -/
def execCsin (o : OpCordic) (s : State) := cfn1 s o .sin 1
/-- CCOS (R169). -/
def execCcos (o : OpCordic) (s : State) := cfn1 s o .cos 1
/-- CTANH (R169). -/
def execCtanh (o : OpCordic) (s : State) := cfn1 s o .tanh 2
/-- CSIGM (R169). -/
def execCsigm (o : OpCordic) (s : State) := cfn1 s o .sigm 2
/-- CRCP (R169). -/
def execCrcp (o : OpCordic) (s : State) := cfn1 s o .rcp 1
/-- CRSQRT (R169). -/
def execCrsqrt (o : OpCordic) (s : State) := cfn1 s o .rsqrt 2
/-- CSQRT (R169). -/
def execCsqrt (o : OpCordic) (s : State) := cfn1 s o .sqrt 1
/-- CATAN (R169). -/
def execCatan (o : OpCordic) (s : State) := cfn1 s o .atan 1
/-- CATAN2 (R166): e[2j] := atan2(e[2j+1], e[2j]); e[2j+1] := +0. [DEDUCED: log entry 105] -/
def execCatan2 (o : OpCordic) (s : State) := cfWord s o 1 fun t fm xs =>
  onPairs (fun lo hi => [atan2R t fm o.i.toNat hi lo, ⟨0, 0⟩]) xs
/-- CSINCOS (R166): e[2j] := sin θ and e[2j+1] := cos θ for θ = e[2j]. -/
def execCsincos (o : OpCordic) (s : State) := cfWord s o 1 fun t fm xs =>
  onPairs (fun lo _ => [cordicR t fm .sin o.i.toNat lo, cordicR t fm .cos o.i.toNat lo]) xs
/-- CHYPOT (R166). [DEDUCED: log entry 105] -/
def execChypot (o : OpCordic) (s : State) := cfWord s o 1 fun t fm xs =>
  onPairs (fun lo hi => [hypotR t fm o.i.toNat hi lo, ⟨0, 0⟩]) xs

end Sys2Proof.Machine
end

