-- ==== Sys2Proof/Machine/LaunchWords.lean ====
section
/-!
DEFINITION. The launch control words ROLE, REGION, EMIT and LNCH (R366 to R370), and engine programs: FORK,
their reading and completion, FKILL (R371, R372).
-/

namespace Sys2Proof.Machine

/-- Cause 0x09 for a parted stream. -/
def parted09 (x : Cx) : Bool := !x.g.unified

/-- ROLE (R367, R42): once the stream's scoreboarded words have returned, the gang ends with the role's
index; an index that the launch does not declare is group-fatal. [DEDUCED: log entries 45, 66] -/
def execRole (o : OpRole) (s : State) : Host.Outcome State Fault Refusal :=
  streamWord s true [] fun s x =>
    if parted09 x then .next (takeTrap s x 0x09 0 false x.mask none)
    else if x.outstanding s then .next (hold s x)
    else
      let s := endGang s x (.role o.i.toNat)
      .next (if x.grp.nRoles ≤ o.i.toNat then groupFatal s x.grp.id 0x30 (64 * x.g.idx) else s)

/-- REGION (R368, R360): the gang is inside a region whose entry is the word after. -/
def execRegion (o : OpRegion) (s : State) : Host.Outcome State Fault Refusal :=
  streamWord s (uniOk o.g) [] fun s x =>
    if parted09 x then .next (takeTrap s x 0x09 0 false x.mask none)
    else if groupDamaged s x [.g7 (o.g.setWidth 7) .whole] [] then .next (groupFatal s x.grp.id 0x42 (64 * x.g.idx))
    else
      let r := (x.pc + 4, x.uni o.g)
      let s := (goOn s x o.s).modGang x.g.id fun g => { g with region := some r }
      .next (s.regionTest x.grp.team)

/-! ## The drain before EMIT and LNCH (R369, R370, R224) -/

/-- What a release of the stream at device scope waits for once the core's buffer drains: writes of the core,
accesses of the stream, flags of the core, terms of drains, signals and earlier releases (R224). -/
def relWaits (s : State) (x : Cx) : List Nat :=
  x.opsOut s ++ s.writesOut x.grp.core (fun _ _ => true) ++ (s.owned.filter (·.core == x.grp.core)).map (·.id) ++
    s.redsOut x.g.id ++ s.signalsOut x.g.id true

/-- Is nothing left to release: the core's buffer is empty, and nothing is waited for? -/
def relPending (s : State) (x : Cx) : Bool := s.smb.any (·.core == x.grp.core) || !(relWaits s x).isEmpty

/-- Set a release going: an operation of the stream that holds it. -/
def relStart (s : State) (x : Cx) : State :=
  let s1 := s.flushWhere x.grp.core (fun _ => true) [x.g.id]
  let s2 := s1.drainOwned ((s1.owned.filter (·.core == x.grp.core)).map (·.id))
  let op := { blockOp s2 x false none [] with rel := true }
  { s2 with fresh := op.id + 1, ops := s2.ops ++ [op] }.addWsig
    ⟨0, x.g.id, x.grp.core, x.grp.part, x.grp.asn, false, 0, [], 0, relWaits s2 x, none, some op.id, false, none, []⟩

/-- The release before an EMIT or LNCH: `k` goes on once it is performed; until then the word is held. [DEDUCED: log entry 65] -/
def released (s : State) (x : Cx) (k : State → State) : State :=
  match relDone s x with
  | some o => k { s with ops := s.ops.filter (·.id != o.id) }
  | none =>
    if s.passes.any fun p => p.gang == x.g.id && p.slices.any (x.ss.contains ·) then hold s x
    else if relPending s x then hold (relStart s x) x else k s

/-- Write a predicate of the active lanes of a stream. [DEDUCED: log entry 34] -/
def setPreds (s : State) (gang : Nat) (ss : List Nat) (p : Nat) (v : Nat → Option Bool) : State :=
  let lane := fun (i j : Nat) (l : Lane) => match v (4 * i + j) with
    | some b => l.setPred p b
    | none => l
  let go := fun (i : Nat) (sl : Slice) => if ss.contains i then sl.mapLanes (lane i) else sl
  s.modGang gang fun g => { g with slices := imap go 0 g.slices }

/-! ## EMIT (R369, R44) -/

/-- The place in device memory of the record that is appended next: the queue is a ring of QCAP records of 64
bytes at QBASE, filled in order (R44, R363; the slot is log entry 61's choice). [DESIGN CHOICE: log entry 61] -/
def Stage.slot (g : Stage) : Nat := g.qbase % 2 ^ 48 + 64 * (g.tail % g.qcap)

/-- Append a lane's record to a stage of the launch, when its queue has room: its eight words go to the queue
in device memory (R44, R364). [DESIGN CHOICE: log entry 61] -/
def emitLane (part lid k : Nat) (from' : Option Nat) (words : List Word) (pts : TS) (s : State) : State × Bool :=
  match s.launch? part lid with
  | none => (s, false)
  | some l => match l.stages[k]? with
    | none => (s, false)
    | some g =>
      if g.qcap ≤ g.recs.length then (s, false)
      else
        let put := fun (l : Launch) =>
          (l.modStage k fun g => { g with
            recs := g.recs ++ [⟨words, pts, s.cycle⟩], tail := g.tail + 1 }).gatherFull k 1
        let note := fun (l : Launch) => match from' with
          | some j => l.modStage j fun g => { g with outs := if g.outs.contains k then g.outs else g.outs ++ [k] }
          | none => l
        let s1 := (hubSend s part l.asn (BitVec.ofNat 64 (g.slot % 2 ^ 48)) ((words.map fun w => leBytes 8 w.toNat).flatten)
          s.dclk).1
        (s1.modLaunch part lid fun l => note (put l), true)

/-- EMIT (R369): after a release of device scope, each active lane's record goes to the stage's queue in
ascending lane order; PD says whether there was room. [DEDUCED: log entry 65] -/
def execEmit (o : OpEmit) (s : State) : Host.Outcome State Fault Refusal :=
  let base := if o.h = 1#1 then 8 else 0
  let W : Shape := { st := o.s.toNat, srcs := (rangeFrom base 8).map fun r => .s7 (BitVec.ofNat 7 r)
                     dst := .none, lat := 0 }
  laneGateW s W (fun x _ => if x.acqHeld s then some s else none)
    (fun x v =>
      let stages := match s.launch? x.grp.part x.grp.lid with | some l => l.stages.length | none => 0
      (if stages ≤ o.t.toNat then [(0x34, x.mask)] else []) ++
        (match x.actives.filter fun L => val v L 0 &&& 3 != 0 with
          | [] => []
          | ls => [(0x02, maskOf ls)]))
    Cx.enOf (fun _ _ _ => { val := 0 }) fun x vals _ dead =>
      let s0 := commitRegion s x.g.id
      let y : Cx := { x with g := (s0.gang? x.g.id).getD x.g }
      released s0 y fun s0 =>
        let s1 := issuePlain (s0.spoilAudit x.grp.id) y W vals dead
        let r := (x.actives.filter (!dead.contains ·)).foldl (fun (st : State × List (Nat × Bool)) L =>
          let e := emitLane x.grp.part x.grp.lid o.t.toNat x.grp.stage ((rangeFrom 0 8).map fun k => val vals L k)
            y.g.pts st.1
          (e.1, st.2 ++ [(L, e.2)])) (s1, [])
        let s2 := setPreds r.1 x.g.id x.ss o.p.toNat fun L => (r.2.find? (·.1 == L)).map (·.2)
        let look := Instr.gatherTimeout x.grp.part x.grp.lid o.t.toNat
        let s3 := match s2.launch? x.grp.part x.grp.lid with
          | some l => if earlierWork s2 l o.t.toNat then s2 else s2.postOnce look
          | none => s2
        (s3.postAt (s.cycle + 2048) look).kick

/-! ## LNCH (R370) -/

/-- The descriptor's 128 bytes as a load at a timestamp reads them. [DEDUCED: log entry 65] -/
def lnchRead (s : State) (G : Group) (a : Word) (pts : TS) : NowRes :=
  readRun s G.core G.part G.asn pts { rd := true, align := 128 } a 128

/-- LNCH reads a descriptor on another device by a request, whose answer it awaits at issue (R419): 16 words in order. -/
def lnchAsk (s : State) (x : Cx) (dev va : Nat) : State :=
  let L := lowLane x.mask
  let op := { blockOp s x false none [] with rel := true, waits := 1 }
  let s := { s with fresh := op.id + 1, ops := s.ops ++ [op] }
  hold (s.send (.read ((rangeFrom 0 16).map fun k => (L, 8 * k, 8)) none false false false false 0 []) x.grp.core x.g.id
    (some op.id) x.grp.part x.grp.asn va dev x.g.pts) x

/-- What LNCH reads: the answer of its request, or the descriptor at its home. [DEDUCED: log entry 65] -/
def lnchGot (s : State) (x : Cx) (a : Word) (got : Option Op) : NowRes :=
  match got.filter fun o => !(o.vals.isEmpty && o.dead.isEmpty) with
  | some o => if o.dead.isEmpty then .ok s (o.vals.map fun v => leBytes 8 v.2.toNat).flatten none else .bad 0x41
  | none => match gaddr s a with
    | some (_ + 1, _) => .wait s
    | _ => lnchRead s x.grp a x.g.pts

/-- The stream waits at issue for a page that is not present (R194): a read of nothing stands there for it. -/
def awaitPage (s : State) (x : Cx) (va : Nat) : State :=
  hold (retRequest s x (.read [] none false false false false 0 []) va) x

/-- A descriptor is offered to the device queue of a partition: was a slot free? Poisoned state of the partition resets
it (R381). -/
def offer (s : State) (part asn : Nat) (d : List Byte) : State × Bool :=
  let q := (s.part part).queue 15
  if hubPoisoned s part then (partitionFatal s part 0x43, false)
  else let s := hubRepair s part
  if (q.wi - q.ci).toNat < 64 then
    (((s.modPart part fun p => { p with devq := p.devq ++ [(q.wi.toNat, d, asn)] }).modQueue part 15 fun q =>
      { q with wi := q.wi + 1 }).postOnce (.launchAccept part 15), true)
  else (s, false)

/-- LNCH (R370): a load check of the descriptor's address, a release, and an offer to queue 15; PD is 1 where
a slot was free. Poison in the descriptor kills the lanes (R381). [DEDUCED: log entry 65] -/
def execLnch (o : OpLnch) (s : State) : Host.Outcome State Fault Refusal :=
  let R : AccRule := { rd := true, align := 128 }
  let A : Accs := fun x _ => [(lowLane x.mask, R, x.uni o.g)]
  streamWord s (uniOk o.g) [] fun s x =>
    if groupDamaged s x [.g7 (o.g.setWidth 7) .whole] [] then .next (groupFatal s x.grp.id 0x42 (64 * x.g.idx))
    else match accWait s false A x [] with
    | some s => .next (hold s x)
    | none => match lowest ((if parted09 x then [(0x09, x.mask)] else []) ++
        (accCauses s A x []).map fun c => (c.1, x.mask)) with
      | some (c, m) => .next (takeTrap s x c 0 false m none)
      | none =>
        let G := x.grp
        let s0 := commitRegion s x.g.id
        let y : Cx := { x with g := (s0.gang? x.g.id).getD x.g }
        .next (released s0 y fun s1 => match lnchGot s1 y (x.uni o.g) (relDone s0 y) with
          | .wait s => (match gaddr s (x.uni o.g) with
            | some (dev + 1, va) => lnchAsk s y (dev + 1) va
            | _ => hold s y)
          | .absent s va => awaitPage s y va
          | .bad c =>
            if c = 0x41 then killLanes (goOn (s1.spoilAudit G.id) y o.s) x.g.id x.actives
            else groupFatal s1 G.id c (64 * x.g.idx + lowLane x.mask)
          | .ok s1 d wts =>
            let s2 := goOn (s1.spoilAudit G.id) y o.s
            let s3 := match wts with | some t => s2.raisePts x.g.id t | none => s2
            let r := offer s3 G.part G.asn d
            setPreds r.1 x.g.id x.ss o.p.toNat fun L => if x.actives.contains L then some r.2 else none)

/-! ## Engine words as a program holds them (R371) -/

/-- The fields of an EN word. -/
structure EnWord where
  op  : Nat
  sub : Nat
  a   : Nat
  b   : Nat
  c   : Nat
  fl  : Nat
  deriving DecidableEq, Repr

def enWord (w : Nat) : EnWord :=
  ⟨w / 2 ^ 26 % 64, w / 2 ^ 20 % 16, w / 2 ^ 14 % 64, w / 2 ^ 8 % 64, w / 4 % 64, w % 4⟩

/-- The operation code of an engine's words. -/
def engineOp (mx : Bool) : Nat := if mx then 0x3B else 0x3C

/-- What a word of a program comes to: it may not stand in a program, or it has checks and an effect. -/
inductive ProgWord where
  | bad (cause : Nat)
  | act (a : MxAct)

/-- A queued matrix word of a program: legality (R316), then its checks. -/
def progMx (s : State) (G : Group) (w : EnWord) (u : Nat → Word) : ProgWord :=
  let ok := fun (legal : Bool) (a : MxAct) => if legal then ProgWord.act a else .bad 0x01
  let three := decide (w.a < 60) && decide (w.b < 60) && decide (w.c < 60)
  match w.sub with
  | 0x3 => ok (three && w.fl != 3) (mxLdb s G (u w.a) (u w.b) (u w.c) (w.fl % 2 == 1) (w.fl / 2 == 1))
  | 0x5 => ok (w.a == 0 && w.b == 0 && w.c == 0 && w.fl == 0) (mxBegin G)
  | 0x6 => ok (three && w.fl == 0) (mxLoop G (u w.a) (u w.b) (u w.c))
  | 0x7 => ok (decide (w.a < 60) && w.b == 0 && w.c == 0 && decide (w.fl < 2) && (w.fl == 1 || w.a == 0))
      (mxEnd s G (if w.fl = 1 then some (u w.a) else none))
  | 0x8 => ok (decide (w.a < 60) && w.b == 0 && w.c == 0 && w.fl == 0) (mxZero G (u w.a))
  | 0x9 => ok (three && w.fl == 0) (mxDrain s G (u w.a) (u w.b) (u w.c))
  | 0xA => ok (three && w.fl == 0) (mxChk s G (u w.a) (u w.b) (u w.c))
  | _ => .bad 0x01

/-- A stream data word of a program (R278, R279). -/
def progSx (s : State) (G : Group) (w : EnWord) (u : Nat → Word) : ProgWord :=
  if decide (4 ≤ w.sub) || decide (60 ≤ w.a) || decide (60 ≤ w.b) || decide (60 ≤ w.c) || decide (2 ≤ w.fl) then .bad 0x01
  else .act
    { causes := sxCauses s G w.sub (u w.a)
      bad := recordBad s G (u w.a)
      queued := true
      go := fun s b => sxQueue s G w.sub (u w.a) (u w.b) (u w.c) (w.fl == 1) b.et b.prog }

/-! ## FORK (R371) -/

/-- The barrier that counts a program among its outstanding commands. -/
def forkProg (s : State) (x : Cx) (mx : Bool) (addr : Word) (l : BarLoc) : State :=
  let p : Prog := ⟨s.fresh, x.grp.id, x.g.id, mx, addr, 0, x.g.g, l, x.g.pts, x.g.pts, false⟩
  ({ s with fresh := s.fresh + 1, progs := s.progs ++ [p] }.bumpOut x.grp.id l true).post (.forkProgramRead p.id)

/-- What is known of the page of FORK's program address: it needs no check, its entry is still to be filled, it is not
present (R194), or malformed. -/
inductive ForkPage where
  | known
  | miss (va : Nat)
  | absent (va : Nat)
  | malformed
  deriving DecidableEq, Repr

/-- The checks of FORK's program address, device, alignment and X, as far as its page is known. -/
def forkAddr (s : State) (G : Group) (a : Word) : List Nat × ForkPage :=
  let odd := if a.toNat % 4 = 0 then [] else [0x02]
  match gaddr s a with
  | some (0, va) => (match s.tlb? G.core G.part G.asn va with
    | some l => (odd ++ (if l.x then [] else [0x11]), .known)
    | none => if s.draining G.part G.asn va then (odd, .miss va) else match s.look G.part G.asn va with
      | .absent => (odd, .absent va)
      | .malformed => (odd, .malformed)
      | _ => (odd, .miss va))
  | _ => (odd ++ [0x10], .known)

/-- FORK (R371): FL selects the engines, bit 0 matrix, bit 1 stream. -/
def execFork (o : OpEnF) (s : State) : Host.Outcome State Fault Refusal :=
  streamWord s (o.f != 0#2 && uniOk o.a && uniOk o.b) [] fun s x =>
    if x.acqHeld s then .next (hold s x)
    else match settled s x with
    | (s, none) => .next s
    | (s, some x) =>
    let G := x.grp
    let a := x.uni o.a
    let bar := engineBar s G (x.uni o.b)
    if groupDamaged s x [.g7 (o.a.setWidth 7) .whole, .g7 (o.b.setWidth 7) .whole] [] then
      .next (groupFatal s G.id 0x42 (64 * x.g.idx))
    else
      let cb := match bar with | .error c => [c] | .ok _ => []
      let fa := forkAddr s G a
      let cause := lowest (partedEngine x ++ (fa.1 ++ cb).map fun c => (c, x.mask))
      let early := match cause with | some (c, _) => decide (c < 0x11) | none => false
      match fa.2, cause, bar with
        | .miss va, cause, _ => (match cause.filter fun _ => early with
          | some (c, m) => .next (takeTrap s x c 0 false m none)
          | none => .next (hold (s.postOnce (.tlbFill G.core G.part G.asn va)) x))
        | _, some (c, m), _ => .next (takeTrap s x c 0 false m none)
        | _, none, .error _ => .next s
        | .absent va, none, .ok _ => .next (awaitPage s x va)
        | .malformed, none, .ok _ => .next (groupFatal s G.id 0x14 (64 * x.g.idx))
        | .known, none, .ok l =>
          if barDamaged s G l then .next (groupFatal s G.id 0x42 (64 * x.g.idx))
          else
            let s0 := commitRegion s x.g.id
            let y : Cx := { x with g := (s0.gang? x.g.id).getD x.g }
            let s1 := goOn (s0.spoilAudit G.id) y o.s
            let s2 := if o.f.getLsbD 0 then forkProg s1 y true a l else s1
            .next (if o.f.getLsbD 1 then forkProg s2 y false a l else s2)

/-- A program ends aborted (R371, R372): its barrier's phase completes aborted with the cause and a word's
index, and a killed program makes its arrival by that; words it queued complete. [DEDUCED: log entry 66] -/
def abortProg (s : State) (p : Prog) (cause idx : Nat) : State :=
  let s := { s with progs := s.progs.filter (·.id != p.id) }
  match s.group? p.group with
  | none => s
  | some G =>
    let s := if cause = 0x33 then s.arriveAborted G.team p.bar p.et cause idx else s.abortPhase G.team p.bar cause idx
    (s.bumpOut G.id p.bar false).endPoke

/-- A word of a program under its leaf as the launch's fetches see it (R46). -/
def progWord (s : State) (G : Group) (l : Leaf) (va : Nat) : Nat :=
  leNat ((rangeFrom va 4).map fun v => s.peekCode G.part G.lid (l.key v))

/-- What the reading of a program's word comes to. -/
inductive ProgFetch where
  | word (s : State) (w : Nat)
  | absent (s : State) (va : Nat)
  | wait (s : State)
  | bad (cause : Nat)

/-- An engine reads a word of its program (R371): its page must let it be fetched, and its line is read at its home. -/
def progFetch (s : State) (G : Group) (p : Prog) (i : Nat) : ProgFetch :=
  match gaddr s (p.addr + BitVec.ofNat 64 (4 * i)) with
  | some (0, va) =>
    if s.draining G.part G.asn va then .wait s
    else match translate s G.part G.asn va with
      | (.absent, s) => .absent s va
      | (.malformed, _) => .bad 0x14
      | (.held h, s) => .wait (s.onHold h 0)
      | (.leaf l, s) =>
        if !l.x then .bad 0x11
        else match lineLook s l G.part G.asn va with
          | .error s => .wait s
          | .ok s => if badMask s (l.key va / 128) &&& maskAt (va % 128) 4 ≠ 0 then .bad 0x41
            else .word s (progWord s G l va)
  | _ => .bad 0x10

/-- FORK_PROGRAM_READ (R371): the engine reads the program's next word; it queues a word of its own, skips
one of the other engine, and ends at any other or after 4,096. -/
def execForkProgramRead (prog : Nat) (s : State) : Host.Outcome State Fault Refusal :=
  match s.prog? prog with
  | none => .next s
  | some p => match s.group? p.group with
    | none => .next { s with progs := s.progs.filter (·.id != prog) }
    | some G =>
      let again := fun (s : State) => s.postAt (s.cycle + 4) (.forkProgramRead prog)
      let ahead := fun (s : State) => (s.modProg prog fun p => { p with done := true }).progTest (some prog)
      let on := fun (s : State) => (s.modProg prog fun p => { p with next := p.next + 1 }).post (.forkProgramRead prog)
      let gidx := match s.gang? p.gang with | some g => g.idx | none => 0
      if p.done || G.fatal.isSome then .next s
      else if 4096 ≤ p.next then .next (ahead s)
      else match progFetch s G p p.next with
        | .wait s => .next (again s)
        | .absent s va => .next (again (s.notPresent G.part G.asn va))
        | .bad c =>
          let loc := fld (p.addr + BitVec.ofNat 64 (4 * p.next)) 0 61
          let s := if c = 0x41 then logEntry s G.part 0x04 0x41 2 0 G.lid loc 0 else s
          .next (abortProg s p c p.next)
        | .word s w =>
          let e := enWord w
          if e.op = engineOp (!p.mx) then .next (on s)
          else if e.op ≠ engineOp p.mx then .next (ahead s)
          else
            let u := fun (r : Nat) => at' 0 p.g r
            match (if p.mx then progMx s G e u else progSx s G e u) with
            | .bad c => .next (abortProg s p c p.next)
            | .act a => match lowest (a.causes.map fun c => (c, 0)) with
              | some (c, _) => .next (abortProg s p c p.next)
              | none =>
                if a.bad then .next (failGroup s G.id 0x42 0)
                else if (if p.mx then s.mxFull G.core else s.sxFull G.core) then .next (again s)
                else .next (on (a.go s ⟨p.et0, some prog, gidx⟩))

/-- FORK_PROGRAM_COMPLETE (R371): one arrival, with the program's timestamp. -/
def execForkProgramComplete (prog : Nat) (s : State) : Host.Outcome State Fault Refusal :=
  match s.prog? prog with
  | none => .next s
  | some p =>
    if !p.done || s.sx.any (·.prog == some prog) || s.mx.any (·.prog == some prog) then .next s
    else
      let s := { s with progs := s.progs.filter (·.id != prog) }
      match s.group? p.group with
      | none => .next s
      | some G => .next ((((s.arrive G.team p.bar p.et).bumpOut G.id p.bar false)).endPoke)

/-! ## FKILL (R372) -/

/-- A word of a program where its page holds one. -/
def ownWord (s : State) (G : Group) (p : Prog) (i : Nat) : Option Nat :=
  match gaddr s (p.addr + BitVec.ofNat 64 (4 * i)) with
  | some (0, va) => match s.lookPast G.part G.asn va with
    | .leaf l => if l.x then some (progWord s G l va) else none
    | _ => none
  | _ => none

/-- The indices of a program's own words that lie before its end. -/
def ownWords (s : State) (G : Group) (p : Prog) : Nat → Nat → List Nat
  | 0, _ => []
  | n + 1, i => match ownWord s G p i with
    | some w =>
      let e := enWord w
      if e.op = engineOp p.mx then i :: ownWords s G p n (i + 1)
      else if e.op = engineOp (!p.mx) then ownWords s G p n (i + 1)
      else []
    | _ => []

/-- The index that AINF holds for a killed program. -/
def killIndex (s : State) (G : Group) (p : Prog) : Nat :=
  let ws := ownWords s G p 4096 0
  match ws.find? fun i => decide (p.next ≤ i) && !p.done with
  | some i => i
  | none => match ws.getLast? with
    | some i => i + 1
    | none => 0

/-- FKILL (R372): the group's programs of one barrier, or all of them, end aborted. [DEDUCED: log entry 66] -/
def execFkill (o : OpEnA) (s : State) : Host.Outcome State Fault Refusal :=
  let all := o.f == 1#1
  engineWord s (!all || o.a == 0#6) (if all then [] else [o.a]) (fun _ _ => []) fun s x =>
    let G := x.grp
    let loc := (scratchAt s G (x.uni o.a)).map fun w => (⟨w.1.core, w.2⟩ : BarLoc)
    let ps := s.progs.filter fun p => p.group == G.id && (all || some p.bar == loc)
    .next (ps.foldl (fun s p => abortProg s p 0x33 (killIndex s G p)) (goOn s x o.s))

end Sys2Proof.Machine
end

