-- ==== Sys2Proof/Machine/Ports.lean ====
section
/-!
DEFINITION. The registers of partitions (R399 to R403, R384), the ingest port (R414 to R417) and the attestation
report (R432).
-/

namespace Sys2Proof.Machine

/-! ## Resource registers (R400, R401) -/

/-- A resource register by its offset. -/
inductive ResReg where
  | pcfg
  | l2sh
  | cores (i : Nat)
  | preset
  | win (w k : Nat)
  | none
  deriving DecidableEq, Repr

def resReg (off : Nat) : ResReg :=
  if off = 0 then .pcfg
  else if off = 8 then .l2sh
  else if off = 0x10 ∨ off = 0x18 ∨ off = 0x20 then .cores ((off - 0x10) / 8)
  else if off = 0x30 then .preset
  else if 0x100 ≤ off ∧ off < 0x300 ∧ off % 8 = 0 then .win ((off - 0x100) / 32) (off / 8 % 4)
  else .none

/-- Are fields of PCFG in range and its other bits zero? [DEDUCED: log entry 70] -/
def pcfgOk (v : Word) : Bool :=
  fld v 22 10 == 0 && fld v 3 5 == 0 && fld v 32 32 != 0 && decide (fld v 16 5 ≤ 16) && decide (fld v 8 8 ≤ 144)

/-- Sets of the shares that an L2SH value takes at a chiplet. -/
def shareSets (v : Word) (k : Nat) : Nat := if v.getLsbD (16 + k) then 2 ^ fld v (4 * k) 4 else 0

/-- Would the shares of all partitions exceed a chiplet's usable sets (R386)? -/
def shareOver (s : State) (part : Nat) (v : Word) : Bool :=
  (rangeFrom 0 Config.chiplets).any fun k =>
    let others := ((rangeFrom 0 Config.partitions).map fun p => if p = part then 0 else shareSets (s.part p).l2sh k).sum
    decide ((s.slices k).length * 2048 < others + shareSets v k)

/-- Is a value of a window register well formed (R401)? -/
def winOk (k : Nat) (v : Word) : Bool :=
  match k with
  | 0 => fld v 48 16 == 0 && fld v 4 12 == 0
  | 1 => decide (v.toNat ≤ 2 ^ 20)
  | 2 => fld v 32 32 == 0 && fld v 2 14 == 0
  | _ => fld v 0 3 == 0

def MemWin.put (w : MemWin) (k : Nat) (v : Word) : MemWin :=
  match k with
  | 0 => { w with wva := v, ss := 0 }
  | 1 => { w with wlen := v, ss := 0 }
  | 2 => { w with wctl := v, ss := 0 }
  | _ => { w with fca := v, ss := 0 }

/-- Is a resource write refused (R400)? [DEDUCED: log entry 70] -/
def resRefused (s : State) (part : Nat) (v : Word) : ResReg → Bool
  | .pcfg => !pcfgOk v || ((s.part part).en && fld v 1 2 != fld (s.part part).pcfg 1 2)
  | .l2sh => fld v 20 44 != 0 || (s.part part).en || shareOver s part v
  | .cores i => i == 2 && fld v 16 48 != 0
  | .preset => decide (1 < v.toNat)
  | .win _ k => (s.part part).en || !winOk k v
  | .none => false

/-- An accepted resource write. A new WDOG holds for the teams that are marked already (R362). [DEDUCED: log entry 70] -/
def resWrite (s : State) (part : Nat) (v : Word) : ResReg → State
  | .pcfg =>
    let s := s.modPart part fun p => { p with pcfg := v }
    let due := s.teams.filterMap fun T => if T.part = part then T.mark.map fun m => (T.id, m) else none
    (due.foldl (fun s e => s.postNs (e.2 + fld v 32 32) (.preemptWatchdog e.1)) s).kick
  | .l2sh => s.modPart part fun p => { p with l2sh := v }
  | .cores i => (s.modPart part fun p => { p with cores := modAt (fun _ => v) i p.cores }).kick
  | .preset => if v = 1 then s.post (.partitionReset part) else s
  | .win w k => s.modPart part fun p => { p with wins := modAt (fun x => MemWin.put x k v) w p.wins }
  | .none => s

/-- RESOURCE_REGISTER_WRITE (R400): a write of the management function, refused whole where it breaks a rule;
REJ tells. A device that failed to boot ignores it (R431). -/
def execResourceRegisterWrite (part off : Nat) (val : BitVec 64) (s : State) : Host.Outcome State Fault Refusal :=
  let r := resReg off
  if s.bootFail ∨ 8 ≤ part ∨ r = .none then .next s
  else
    let bad := resRefused s part val r
    let s := s.modPart part fun p => { p with rej := bad }
    .next (if bad then s else resWrite s part val r)

/-! ## Operating registers (R402) -/

/-- Does the function of a partition answer? -/
def State.fnOpen (s : State) (part : Nat) : Bool := decide (part < 8) && s.stage == 5 && (s.part part).en

/-- QCFG_WRITE (R402): ignored while CI ≠ WI. -/
def execQcfgWrite (part queue : Nat) (val : BitVec 64) (s : State) : Host.Outcome State Fault Refusal :=
  let q := (s.part part).queue queue
  if !s.fnOpen part || 15 ≤ queue || q.ci ≠ q.wi then .next s
  else .next (s.modQueue part queue fun q => { q with qcfg := val &&& 0xFFFFFFFFFFFFFF1F#64 })

/-- PTROOT_WRITE (R402): ignored while an incomplete launch runs in the address space. -/
def execPtrootWrite (part asn : Nat) (val : BitVec 64) (s : State) : Host.Outcome State Fault Refusal :=
  if !s.fnOpen part || 16 ≤ asn || s.launches.any (fun l => l.part == part && l.asn == asn) then .next s
  else .next (s.modPart part fun p => { p with ptroot := modAt (fun _ => val &&& 0x0000FFFFFFFFF001#64) asn p.ptroot })

/-- LOGCFG_WRITE (R384, R402): a write with EN = 1 clears the index, LOGCI and the dropped count. -/
def execLogcfgWrite (part : Nat) (val : BitVec 64) (s : State) : Host.Outcome State Fault Refusal :=
  if !s.fnOpen part then .next s
  else
    let v := val &&& 0xFFFFFFFFFFFFE01F#64
    .next (s.modPart part fun p => if v.getLsbD 0 then { p with logcfg := v, logNext := 0, logDrop := 0, logci := 0 }
      else { p with logcfg := v })

/-- A write of the management function by offset (R433): registers with behaviour of their own have steps of
their own. [DEDUCED: log entry 70] -/
def mgmtWrite (s : State) (off : Nat) (v : Word) : State :=
  if s.bootFail then s
  else match off with
    | 0x010 => s.post (.pwrcapWrite v)
    | 0x020 => s.post (.attest v)
    | 0x028 => { s with attnonce := v }
    | 0x030 => s.post (.dbgctlWrite v)
    | 0x038 => s.post (.dbgselWrite v)
    | 0x040 => s.post (.dbgdataWrite v)
    | _ => s

/-- A write of the MSI-X table (R399): an unmasked vector that pends sends its message. [PRESUMED: log entry 71] -/
def Partition.putMsix (p : Partition) (k : Nat) (v : Word) : Partition :=
  let v := if k % 2 = 0 then v &&& ~~~3#64 else v &&& 0x1FFFFFFFF#64
  let p := { p with msixTab := modAt (fun _ => v) k p.msixTab }
  if p.pba.getLsbD (k / 2) && !p.vecMasked (k / 2) then
    { p with pba := p.pba &&& ~~~(1#64 <<< (k / 2)) }.raiseVec (k / 2)
  else p

/-- A write of a partition function by offset (R402); resource registers only read there (R399). [DEDUCED: log entry 70] -/
def fnWrite (s : State) (p off : Nat) (v : Word) : State :=
  if !s.fnOpen p || off % 8 ≠ 0 then s
  else if off < 0x800 then s
  else if off < 0x880 then s.post (.ptrootWrite p ((off - 0x800) / 8) v)
  else if off < 0x8F8 then s.post (.qcfgWrite p ((off - 0x880) / 8) v)
  else if 0x900 ≤ off ∧ off < 0x978 then
    s.modQueue p ((off - 0x900) / 8) fun q => { q with qcia := v &&& ~~~7#64 }
  else if 0x980 ≤ off ∧ off < 0xA00 then s.post (.doorbellWrite p ((off - 0x980) / 8) (fld v 0 32))
  else if off = 0xA00 then s.post (.logcfgWrite p v)
  else if off = 0xA10 then s.modPart p fun p => { p with bfa := v &&& 0x0000FFFFFFFF000F#64 }
  else if off = 0xA18 then s.post (.biasFlip p v)
  else if off = 0xA20 then s.modPart p fun p => { p with idrop := v }
  else if off = 0xA28 then s.modPart p fun p => { p with logci := v.setWidth 32 }
  else if 0x2000 ≤ off ∧ off < 0x2400 then s.modPart p fun p => p.putMsix ((off - 0x2000) / 8) v
  else s

/-- REGISTER_WRITE (R399): function 0 to 7 is a partition's, 8 the management function. -/
def execRegisterWrite (fn off : Nat) (val : BitVec 64) (s : State) : Host.Outcome State Fault Refusal :=
  .next (if fn = 8 then mgmtWrite s off val else fnWrite s fn off val)

/-! ## What the registers read (R399 to R402) -/

/-- A resource register as the management function and the partition's own read it (R400, R401). -/
def Partition.resRead (p : Partition) (off : Nat) : Word :=
  if off = 0x28 then (if p.rst then 2 else 0) + (if p.rej then 1 else 0)
  else match resReg off with
    | .pcfg => p.pcfg
    | .l2sh => p.l2sh
    | .cores i => at' 0 p.cores i
    | .preset => 0
    | .win w k =>
      let x := at' ⟨0, 0, 0, 0, 0⟩ p.wins w
      at' 0 [x.wva, x.wlen, x.wctl, x.fca] k
    | .none => 0

/-- DBq as it reads: WI over CI (R402). -/
def LQueue.bell (q : LQueue) : Word := BitVec.ofNat 64 (q.wi.toNat * 2 ^ 32 + q.ci.toNat)

/-- LOGIDX: entries dropped over the next index (R402). -/
def Partition.logIdx (p : Partition) : Word := BitVec.ofNat 64 (p.logDrop.toNat * 2 ^ 32 + p.logNext.toNat)

/-- What a read of a partition function's BAR0 returns (R399, R402); a function that does not answer reads 0. -/
def State.fnRead (s : State) (part off : Nat) : Word :=
  let p := s.part part
  if !s.fnOpen part || off % 8 ≠ 0 then 0
  else if off < 0x800 then p.resRead off
  else if off < 0x880 then at' 0 p.ptroot ((off - 0x800) / 8)
  else if off < 0x8F8 then (p.queue ((off - 0x880) / 8)).qcfg
  else if 0x900 ≤ off ∧ off < 0x978 then (p.queue ((off - 0x900) / 8)).qcia
  else if 0x980 ≤ off ∧ off < 0xA00 then (p.queue ((off - 0x980) / 8)).bell
  else if off = 0xA00 then p.logcfg
  else if off = 0xA08 then p.logIdx
  else if off = 0xA10 then p.bfa
  else if off = 0xA18 then p.bfc
  else if off = 0xA20 then p.idrop
  else if off = 0xA28 then p.logci.setWidth 64
  else if 0x2000 ≤ off ∧ off < 0x2400 then at' 0 p.msixTab ((off - 0x2000) / 8)
  else if off = 0x3000 then p.pba
  else 0

/-! ## The ingest port (R414 to R416) -/

/-- A dropped TLP or doorbell is counted. -/
def State.ingestDrop (s : State) (part : Nat) : State := s.modPart part fun p => { p with idrop := p.idrop + 1 }

/-- May the pages of a range take ingest writes: device memory in COH mode, or not present yet (R414)? Where a line of
the tables is another agent's, the TLP waits in its stream for the answer. -/
def ingestPages (s : State) (part asn va n : Nat) : Bool :=
  (rangeFrom (va / 65536) ((va + n - 1) / 65536 - va / 65536 + 1)).all fun k =>
    match s.look part asn (k * 65536) with
    | .leaf l => !l.host && l.mode == 0
    | .malformed => false
    | _ => true

/-- Append to the stream of a window; an idle stream starts. -/
def State.ingestPut (s : State) (part win : Nat) (ps : List IngPiece) : State :=
  let mine := fun (g : IngStream) => g.part == part && g.win == win
  if s.ingest.any mine then
    { s with ingest := s.ingest.map fun (g : IngStream) => if mine g then { g with pieces := g.pieces ++ ps } else g }
  else { s with ingest := s.ingest ++ [(⟨part, win, ps⟩ : IngStream)] }.post (.ingestPiece (16 * part + win))

/-- Is a window open to an ingest requester (R414)? [DEDUCED: log entry 72] -/
def ingestOpen (s : State) (part win requester : Nat) : Bool :=
  let w := at' ⟨0, 0, 0, 0, 0⟩ (s.part part).wins win
  w.wctl.getLsbD 1 && fld w.wctl 16 16 == requester

/-- INGEST_WRITE (R414): a Memory Write to the aperture is accepted and cut into pieces, or dropped whole. -/
def execIngestWrite (requester off : Nat) (bytes : List (BitVec 8)) (poisoned : Bool) (s : State) :
    Host.Outcome State Fault Refusal :=
  let part := off / 2 ^ 40
  let win := off / 2 ^ 36 % 16
  let n := bytes.length
  if 2 ^ 43 ≤ off ∨ n = 0 ∨ 4096 < n then .next { s with reply := .unsupported }
  else match winAddr s part win (off % 2 ^ 36) n 1 with
    | none => .next (s.ingestDrop part)
    | some (asn, va) =>
      if !ingestOpen s part win requester || !ingestPages s part asn va n then .next (s.ingestDrop part)
      else
        let piece := fun (c : Nat × Nat) =>
          (⟨s.fresh, asn, c.1, c.1 % 128, (bytes.drop (c.1 - va)).take c.2, poisoned, false, none⟩ : IngPiece)
        .next ({ s with fresh := s.fresh + 1 }.ingestPut part win ((linePieces va n).map piece))

/-- INGEST_DOORBELL (R416): a doorbell joins its window's stream, or is dropped. [DEDUCED: log entry 72] -/
def execIngestDoorbell (requester off len : Nat) (s : State) : Host.Outcome State Fault Refusal :=
  let part := off / 128
  let win := off / 8 % 16
  if 1024 ≤ off then .next { s with reply := .unsupported }
  else
    let w := at' ⟨0, 0, 0, 0, 0⟩ (s.part part).wins win
    if off % 8 ≠ 0 ∨ (len ≠ 4 ∧ len ≠ 8) ∨ w.fca = 0 ∨ (winAddr s part win 0 0 1).isNone ∨
        !ingestOpen s part win requester then .next (s.ingestDrop part)
    else
      let p : IngPiece := ⟨s.fresh, fld w.wva 0 4, fld w.fca 0 48, 0, [], false, true, none⟩
      .next ({ s with fresh := s.fresh + 1 }.ingestPut part win [p])

/-- INGEST_UNSUPPORTED_REQUEST (R414). [DEDUCED: log entry 72] -/
def execIngestUnsupportedRequest (_requester : Nat) (s : State) : Host.Outcome State Fault Refusal :=
  .next { s with reply := .unsupported }

/-- Every word that a payload touches is written poisoned, with a good-byte mask of 0 (R415, R380). -/
def poisonAll (s : State) (line : Nat) (mask : BitVec 128) : State :=
  let ws := (rangeFrom 0 16).filter fun w => (mask >>> (8 * w)).setWidth 8 != 0#8
  { s with bad := (ws.map fun w => (⟨.mem (line * 16 + w), false, 0, 0⟩ : Damage)) ++ s.bad.filter fun d =>
      !(ws.any fun w => d.loc == .mem (line * 16 + w)) }

/-- The pieces of a stream that are left; the next one follows. -/
def ingestNext (s : State) (g : IngStream) (left : List IngPiece) : State :=
  let mine := fun (h : IngStream) => h.part == g.part && h.win == g.win
  if left.isEmpty then { s with ingest := s.ingest.filter fun h => !mine h }
  else { s with ingest := s.ingest.map fun (h : IngStream) => if mine h then { h with pieces := left } else h }.post
    (.ingestPiece (16 * g.part + g.win))

/-- The stamp of a window's stream. -/
def State.winSs (s : State) (part win : Nat) : TS := (at' ⟨0, 0, 0, 0, 0⟩ (s.part part).wins win).ss

/-- The TLP at the head of a stream is dropped and counted. -/
def ingestLose (s : State) (g : IngStream) (p : IngPiece) : State :=
  ingestNext (s.ingestDrop g.part) g (g.pieces.filter (·.tlp != p.tlp))

/-- The head of a stream is tried again. -/
def ingestAgain (s : State) (g : IngStream) : State := s.postAt (s.cycle + 4) (.ingestPiece (16 * g.part + g.win))

/-- A doorbell adds 1 to the frame counter at system scope, past every piece before it (R416, R242), and is awaited. Its
page, not present, holds the stream; one that takes no atomic drops it. [DEDUCED: log entry 72] -/
def ingestBell (s : State) (g : IngStream) (p : IngPiece) (rest : List IngPiece) : State :=
  let t := smax (s.winSs g.part g.win + 1) s.dclk
  match p.req with
  | some id => if (s.req? id).isSome then ingestAgain s g else ingestNext s g rest
  | none =>
    if s.draining g.part p.asn p.va then ingestAgain s g
    else match translate s g.part p.asn p.va with
      | (.absent, s) => s.notPresent g.part p.asn p.va
      | (.malformed, _) => ingestLose s g p
      | (.held h, s) => ingestAgain (s.onHold h 0) g
      | (.leaf l, s) =>
        if (leafCause s.devnum { wr := true, atom := true } l).isSome then ingestLose s g p
        else ingestNext (s.send (.atom 0 (p.va % 128) 8 0 1 0 0 false) 144 0 none g.part p.asn (p.va / 128 * 128) 0 t) g
          ({ p with req := some s.fresh } :: rest)

/-- What the pages of a TLP's pieces come to before its first one is written (R414, R415): all take it, one that was not
present is still not, one has turned out to be no device memory in COH mode, so that the TLP is dropped whole, or a line
of the tables is still another agent's (R193). -/
inductive TlpPages where
  | take
  | absent (va : Nat)
  | lose
  | held (h : Hold)
  deriving DecidableEq, Repr

/-- What the pages of a TLP, taken together, make of its payload (R415). [DEDUCED: log entry 72] -/
def tlpPages (s : State) (g : IngStream) (p : IngPiece) : TlpPages :=
  (g.pieces.filter (·.tlp == p.tlp)).foldl (fun acc q => match acc with
    | .take => (match s.look g.part q.asn q.va with
      | .leaf l => if !l.host && l.mode == 0 then .take else .lose
      | .absent => .absent q.va
      | .malformed => .lose
      | .held h => .held h)
    | r => r) .take

/-- A piece of payload (R415): a masked line write through R203 past the stream's stamp. -/
def ingestLine (s : State) (g : IngStream) (p : IngPiece) (rest : List IngPiece) : State :=
  let again := fun (s : State) => ingestAgain s g
  if s.draining g.part p.asn p.va then again s
  else match tlpPages s g p with
  | .absent va => s.notPresent g.part p.asn va
  | .lose => ingestLose s g p
  | .held h => again (s.onHold h 0)
  | .take => match translate s g.part p.asn p.va with
    | (.absent, s) => s.notPresent g.part p.asn p.va
    | (.malformed, _) => ingestLose s g p
    | (.held h, s) => again (s.onHold h 0)
    | (.leaf l, s) =>
      if l.host then ingestLose s g p
      else
        let r := l.lineRef g.part p.asn p.va
        let mask := maskAt p.off p.data.length
        let data := (lineAt p.off p.data ++ List.replicate 128 0).take 128
        match writeAt s r 144 (smax (s.winSs g.part g.win + 1) s.dclk) mask data false with
        | .held s h => again (s.onHold h 0)
        | .done s wts _ _ =>
          let s := if p.bad then poisonAll s r.line mask else s
          let s := s.modPart g.part fun q => { q with wins := modAt (fun (w : MemWin) => { w with ss := wts }) g.win q.wins }
          ingestNext s g rest

/-- INGEST_PIECE (R415): the first piece of a stream, every earlier one having been acknowledged. -/
def execIngestPiece (stream : Nat) (s : State) : Host.Outcome State Fault Refusal :=
  match s.ingest.find? fun g => g.part == stream / 16 && g.win == stream % 16 with
  | none => .next s
  | some g => match g.pieces with
    | [] => .next (ingestNext s g [])
    | p :: rest => .next (if p.bell then ingestBell s g p rest else ingestLine s g p rest)

/-! ## Attestation (R432) -/

/-- The report's bytes 0 to 447. -/
def reportBody (s : State) : List Byte :=
  let part := fun (p : Nat) => leBytes 8 (s.part p).pcfg.toNat ++ leBytes 8 (s.part p).l2sh.toNat
  leBytes 8 1 ++ (rangeFrom 0 32).map Config.firmwareHash ++ (rangeFrom 0 128).map Config.microcodeHash ++
    ((rangeFrom 0 4).map fun d => leBytes 8 (s.harvestOf d).toNat).flatten ++
    leBytes 16 ((s.retired.map fun e => 2 ^ (16 * e.1 + e.2)).sum) ++
    ((rangeFrom 0 Config.partitions).map part).flatten ++ leBytes 32 s.attnonce.toNat ++ List.replicate 72 0

/-- The report of 512 bytes with its signature. [DESIGN CHOICE: log entries 6, 79] -/
def report (s : State) : List Byte :=
  reportBody s ++ (rangeFrom 0 64).map fun i => Config.signature s.attCount i

/-- The report goes to the host buffer at ATTCTL.ADDR, as four lines (R432, R405); the next one has a signature of its
own. [DESIGN CHOICE: log entry 79] -/
def sendReport (s : State) : State :=
  let s1 := (rangeFrom 0 4).foldl (fun s k => s.send (.report (((report s).drop (128 * k)).take 128)) 144 0 none 8 0
    ((fld s.attctl 7 57 * 128 + 128 * k) % 2 ^ 47) 0 s.dclk) s
  { s1 with attCount := s.attCount + 1 }

end Sys2Proof.Machine
end

