-- ==== Sys2Proof/Machine/Faults.lean ====
section
/-!
DEFINITION. What system software and the host do to pages: the resolution of not-present faults (R194, R286,
R334), the drain procedure (R195) and bias flips (R412).
-/

namespace Sys2Proof.Machine

/-! ## Not-present faults (R194) -/

/-- Does a word fetch of a group go to a page? -/
def fetchesPage (s : State) (G : Group) (page : Nat) : Bool :=
  (s.gangsOf G.id).any fun g => g.ended.isNone && g.slices.any fun sl => sl.run == .run && sl.live &&
    (match gaddr s sl.pc with
      | some (0, va) => va / 65536 == page
      | _ => false)

/-- Does a forked program read its next word from a page? -/
def readsPage (s : State) (p : Prog) (page : Nat) : Bool :=
  !p.done && (match gaddr s (p.addr + BitVec.ofNat 64 (4 * p.next)) with
    | some (0, va) => va / 65536 == page
    | _ => false)

/-- The groups of an address space. -/
def State.groupsIn (s : State) (part asn : Nat) : List Group :=
  s.groups.filter fun G => G.part == part && G.asn == asn

/-- The ingest streams whose next TLP or doorbell lies in a page. -/
def ingestAt (s : State) (part asn page : Nat) : List IngStream :=
  s.ingest.filter fun g => g.part == part && (match g.pieces with
    | p :: _ => g.pieces.any fun q => q.tlp == p.tlp && q.asn == asn && q.va / 65536 == page
    | [] => false)

/-- Is a step a host access to a page, waiting to be tried again? -/
def hostWaits (s : State) (part asn page : Nat) : Instr → Bool
  | .hostRead p w off n _ => p == part && (match winAddr s p w off n 0 with
      | some (a, va) => a == asn && decide (va / 65536 ≤ page) && decide (page * 65536 < va + n)
      | none => false)
  | .hostWrite p w off bs _ => p == part && (match winAddr s p w off bs.length 0 with
      | some (a, va) => a == asn && va / 65536 == page
      | none => false)
  | _ => false

/-- A page has been made valid: what waited for it goes on. -/
def pageResolved (s : State) (part asn page : Nat) : State :=
  let held := s.reqs.filter fun q => q.held == some .fault && q.part == part && q.asn == asn && q.va / 65536 == page
  let sx := s.sx.filter fun c => c.part == part && c.asn == asn && c.st == .parked false &&
    (c.page.map (·.2)) == some (page * 65536)
  let mx := s.mx.filter fun c => c.st == .parked false && c.page == some (page * 65536) &&
    ((s.groupsIn part asn).any (·.id == c.group))
  let s := held.foldl State.retry s
  let s := sx.foldl (fun s c => s.post (.sxResume c.id)) s
  let s := mx.foldl (fun s c => mxPoke (s.modMx c.id fun c => { c with st := .parked true }) c.core) s
  (ingestAt s part asn page).foldl (fun s g => s.postOnce (.ingestPiece (16 * g.part + g.win))) s

/-- The stream command whose element a request writes or reads. -/
def State.sxOfReq (s : State) (id : Nat) : Option SxCmd :=
  s.sx.find? fun c => c.acks.any (·.2 == id) || c.far.any (·.2.1 == id)

/-- The matrix command whose bytes a request reads. -/
def State.mxOfReq (s : State) (id : Nat) : Option MxCmd :=
  s.mx.find? fun c => match c.far with | some f => f.1 == id | none => false

/-- A request fails with a group-fatal cause; that of an element aborts its command (R286, R287), and that of a
matrix command is its fault (R334). -/
def failReq (s : State) (q : Req) (cause : Nat) : State :=
  match s.sxOfReq q.id, s.mxOfReq q.id with
  | some c, _ => sxCancel ((dropFailed s q).modSx c.id fun c => { c with
      acks := c.acks.filter (·.2 != q.id), far := c.far.filter (·.2.1 != q.id) }) c.id cause
  | none, some c => mxFault ((dropFailed s q).modMx c.id fun c => { c with far := none }) c cause
  | none, none =>
    let lane := match q.kind with
      | .read lanes _ _ _ _ _ _ _ => (lanes.map (·.1)).foldl min 63
      | .atom l _ _ _ _ _ _ _ => l
      | k => k.docLane
    q.gangs.foldl (fun s g => failGang s g cause lane) (dropFailed s q)

/-- A page that system software marks unresolvable: cause 0x14 for what waited for it. -/
def pageUnresolved (s : State) (part asn page : Nat) : State :=
  let held := s.reqs.filter fun q => q.held == some .fault && q.part == part && q.asn == asn && q.va / 65536 == page
  let sx := s.sx.filter fun c => c.part == part && c.asn == asn && c.st == .parked false &&
    (c.page.map (·.2)) == some (page * 65536)
  let mx := s.mx.filter fun c => c.st == .parked false && c.page == some (page * 65536) &&
    ((s.groupsIn part asn).any (·.id == c.group))
  let progs := s.progs.filter fun p => (s.groupsIn part asn).any (·.id == p.group) && readsPage s p page
  let groups := (s.groupsIn part asn).filter fun G => fetchesPage s G page
  let s := held.foldl (fun s q => failReq s q 0x14) s
  let s := sx.foldl (fun s c => sxCancel s c.id 0x14) s
  let s := mx.foldl (fun s c => mxFault s c 0x14) s
  let s := progs.foldl (fun s p => abortProg s p 0x14 p.next) s
  let s := groups.foldl (fun s G => groupFatal s G.id 0x14 0) s
  let s := (ingestAt s part asn page).foldl (fun s g => match g.pieces with
    | p :: _ => ingestLose s g p
    | [] => s) s
  let gone := fun (t : Nat × Instr) => hostWaits s part asn page t.2
  let reply := if s.timers.any fun t => gone t && (match t.2 with | .hostRead _ _ _ _ _ => true | _ => false)
    then Reply.unsupported else s.reply
  { s with timers := s.timers.filter (!gone ·), reply := reply }

/-- FAULT_RESOLVE (R194): system software has made a page's entry valid, or marks the fault unresolvable. -/
def execFaultResolve (part asn va : Nat) (ok : Bool) (s : State) : Host.Outcome State Fault Refusal :=
  let page := va / 65536
  let s := s.modPart part fun p => { p with faultq := p.faultq.filter (· != (asn, page * 65536)) }
  .next (if ok then pageResolved s part asn page else pageUnresolved s part asn page)

/-! ## The drain procedure (R195) -/

/-- Does a page hold a line? -/
def inPage (s : State) (part asn page line : Nat) : Bool :=
  match walk s part asn (page * 65536) with
  | .leaf l =>
    let pa := line * 128 % 2 ^ 48
    let first := l.pa + (page * 65536 - l.va)
    decide (first ≤ pa) && decide (pa < first + 65536) && l.key (page * 65536 + (pa - first)) / 128 == line
  | _ => false

/-- Fills stop for the pages, and every TLB and translation cache drops them (step 1). -/
def stopFills (s : State) (part asn : Nat) (pages : List Nat) : State :=
  let new := (pages.filter fun k => !s.drains.contains (part, asn, k)).map fun k => (part, asn, k)
  let hit := fun (e : TlbEntry) => e.part == part && e.asn == asn && pages.any fun k =>
    decide (e.leaf.va ≤ k * 65536) && decide (k * 65536 < e.leaf.va + e.leaf.size)
  { s with drains := s.drains ++ new, tlb := s.tlb.filter (!hit ·) }

/-- Is an access on its way to the pages? -/
def toPages (part asn : Nat) (pages : List Nat) (p a dev va : Nat) : Bool :=
  p == part && a == asn && dev == 0 && pages.contains (va / 65536)

/-- The device and address of a RED entry. -/
def RedEntry.place (s : State) (e : RedEntry) : Nat × Nat := (gaddr s e.addr).getD (0, 0)

/-- Buffers that hold lines of the pages drain (step 2). -/
def drainBuffers (s : State) (part asn : Nat) (pages : List Nat) : State :=
  let dest := toPages part asn pages
  let s := (s.smb.filter fun e => dest e.part e.asn e.dev e.va).foldl (fun s e => s.flushEntry e []) s
  let red := fun (e : RedEntry) => dest e.part e.asn (e.place s).1 (e.place s).2
  let s := startDrain (((s.reds.filter red).map (·.gang)).eraseDups.foldl sealNow s) red
  ((s.owned.filter fun o => dest o.part o.asn 0 o.va).map (·.id)).foldl (fun s o => s.postOnce (.lazyReleaseDrain o)) s

/-- Is anything still on its way to the pages, or a lease of another device not yet past (R423)? An access held for
a page that is not present is not. [DEDUCED: log entry 73] -/
def drainBusy (s : State) (part asn : Nat) (pages : List Nat) : Bool :=
  let dest := toPages part asn pages
  (s.rles.any fun e => (s.leaseHold e.1).isSome && pages.any fun k => inPage s part asn k e.1) ||
  (s.smb.any fun e => dest e.part e.asn e.dev e.va) ||
    (s.reds.any fun e => dest e.part e.asn (e.place s).1 (e.place s).2) ||
    (s.owned.any fun o => dest o.part o.asn 0 o.va) ||
    (s.reqs.any fun q => dest q.part q.asn q.dev q.va && q.held != some .fault)

/-- The leases of the pages end, their lines leave L1, L2 and the instruction caches (step 2); a copy of a decided cell
has no lease and stays until it is replaced (R267). [DEDUCED: log entry 73] -/
def dropPages (s : State) (part asn : Nat) (pages : List Nat) : State :=
  let lines := s.l2.filter fun x => pages.any fun k => inPage s part asn k x.pa
  let rles := s.rles.filter fun e => !pages.any fun k => inPage s part asn k e.1
  let s := lines.foldl State.dropL2 s
  let kept := fun (c : L1Line) => match c.lease with
    | .decided _ _ => true
    | _ => false
  { s with
    rles := rles
    l1 := s.l1.filter fun (c : L1Line) => kept c || !(c.part == part && c.asn == asn && decide (c.va < 2 ^ 48) &&
      pages.contains (c.va / 65536))
    icache := s.icache.filter fun (e : Nat × Nat × Nat × Nat) => !(e.2.1 == part && e.2.2.1 == asn &&
      pages.contains (e.2.2.2 / 512)) }

/-- The entry at which a walk ends. -/
def slotFrom (s : State) (va : Nat) : Nat → List Nat → Option Nat
  | _, [] => none
  | table, lvl :: lvls =>
    let k := tableKey table (walkIndex lvl va)
    let e := s.peek64 k
    if e % 2 = 0 ∨ e.testBit 1 ∨ lvls = [] then some k
    else slotFrom s va (e / 65536 % 2 ^ 32 * 65536) lvls

/-- The memory address of the entry at which the walk of an address ends. -/
def walkSlot (s : State) (part asn va : Nat) : Option Nat :=
  let r := at' 0 (s.part part).ptroot asn
  if !r.getLsbD 0 then none else slotFrom s va (fld r 12 36 * 4096) [1, 2, 3, 4]

/-- System software rewrites the entry of a page, as a write at the home of the entry's line (step 3). One in host memory
is done once PTPNOW has passed LE + 80 ns (R405). [DEDUCED: log entry 73] -/
def rewriteEntry (part asn : Nat) (s : State) (e : Nat × BitVec 64) : HomeRes :=
  match s.walkHold part asn (e.1 * 65536), walkSlot s part asn (e.1 * 65536) with
  | some h, _ => .held s h
  | none, none => .done s 0 0 false
  | none, some k =>
    let line := k / 128
    let g := granuleOf line
    let mask := maskAt (k % 128) 8
    let data := (lineAt (k % 128) (leBytes 8 e.2.toNat) ++ List.replicate 128 0).take 128
    if k / 2 ^ 48 < 4 then
      writeAt s ⟨k / 2 ^ 48, part, asn, k % 2 ^ 48 / 128 * 128, line⟩ 144 s.dclk mask data false
    else if !s.cxlMode then .done (pokeLine s part 0 line mask data) 0 0 false
    else if !s.hostWritable g then .held (s.askHost g true) .clock
    else
      let s1 := if s.peek64 k = e.2.toNat then s
        else (pokeLine s part 0 line mask data).modGranule g fun x => { x with st := some .m, part := part }
      if s1.granules.any fun x => x.addr == g && decide (s1.ptp ≤ x.le + 80) then .held s1 .clock else .done s1 0 0 false

/-- System software rewrites entries in turn, until one must wait. -/
def rewriteEntries (part asn : Nat) (s : State) (es : List (Nat × BitVec 64)) : HomeRes :=
  es.foldl (fun r e => match r with
    | .done s _ _ _ => rewriteEntry part asn s e
    | .held s h => .held s h) (.done s 0 0 false)

/-- Fills resume (step 4); a bias flip of the pages is complete, and GO reads 0 (R412). -/
def resumeFills (s : State) (part asn : Nat) (pages : List Nat) : State :=
  let s := { s with drains := s.drains.filter fun d => !(d.1 == part && d.2.1 == asn && pages.contains d.2.2) }
  s.modPart part fun p => match p.flip with
    | some f => if f.1 = asn ∧ pages.contains f.2 then { p with bfc := p.bfc &&& ~~~1#64, flip := none } else p
    | none => p

/-- DRAIN_PROCEDURE (R195): the range has one entry of `ptes` for each 64 KiB page. [DEDUCED: log entry 73] -/
def execDrainProcedure (part asn va : Nat) (ptes : List (BitVec 64)) (s : State) : Host.Outcome State Fault Refusal :=
  let pages := rangeFrom (va / 65536) ptes.length
  let s1 := drainBuffers (stopFills s part asn pages) part asn pages
  let again := fun (s : State) => s.postAt (s.cycle + 4) (.drainProcedure part asn va ptes)
  if drainBusy s1 part asn pages then .next (again s1)
  else match rewriteEntries part asn (dropPages s1 part asn pages) (List.zip pages ptes) with
    | .held s h => .next (again (s.onHold h 0))
    | .done s _ _ _ => .next (resumeFills s part asn pages)

/-! ## Bias flips (R412) -/

/-- The leaves of a range; none when a page is not mapped, lies beyond the virtual addresses or is one of host memory; a
hold where another agent has a table's line (R193). [DEDUCED: log entry 73] -/
def flipLeaves (s : State) (part asn : Nat) : List Nat → Except Hold (Option (List Leaf))
  | [] => .ok (some [])
  | k :: ks =>
    if 2 ^ 32 ≤ k then .ok none
    else match s.walkHold part asn (k * 65536) with
    | some h => .error h
    | none => match walk s part asn (k * 65536) with
      | .leaf l => if l.host then .ok none else match flipLeaves s part asn ks with
        | .ok o => .ok (o.map (l :: ·))
        | .error h => .error h
      | _ => .ok none

/-- The pages of whole leaves. -/
def leafPages (ls : List Leaf) : List Nat :=
  ((ls.map fun l => rangeFrom (l.va / 65536) (l.size / 65536)).flatten).eraseDups

/-- The entry of a page with another BIAS. -/
def flippedEntry (s : State) (part asn : Nat) (bias : Bool) (page : Nat) : BitVec 64 :=
  match walkSlot s part asn (page * 65536) with
  | none => 0
  | some k =>
    let e := BitVec.ofNat 64 (s.peek64 k)
    if bias then e ||| 0x1000#64 else e &&& ~~~0x1000#64

/-- GO is cleared; REJ too where the flip is refused. -/
def endFlip (s : State) (part : Nat) (refused : Bool) : State :=
  s.modPart part fun p => { p with bfc := p.bfc &&& ~~~1#64, flip := none, rej := p.rej || refused }

/-- A flip of the pages of `ls` runs: to device bias, once the host holds no granule of them. [DEDUCED: log entry 73] -/
def runFlip (s : State) (part asn : Nat) (ls : List Leaf) (bias : Bool) (val : BitVec 64) : State :=
  let pages := leafPages ls
  let s := stopFills s part asn pages
  let tracked := s.snoops.filter fun e => pages.any fun k => inPage s part asn k e.line
  if !bias && !tracked.isEmpty then
    (tracked.foldl (fun s e => s.sendBi e.line true) s).postAt (s.cycle + 4) (.biasFlip part val)
  else s.post (.drainProcedure part asn (pages.headD 0 * 65536) (pages.map (flippedEntry s part asn bias)))

/-- BIAS_FLIP (R412): a write of BFC. While a flip runs another value is ignored, and the flip keeps the range it began
with. [DEDUCED: log entry 73] -/
def execBiasFlip (part : Nat) (val : BitVec 64) (s : State) : Host.Outcome State Fault Refusal :=
  let v := val &&& 0xFFFFFFFF00000003#64
  let p := s.part part
  if !s.fnOpen part || (p.bfc.getLsbD 0 && v ≠ p.bfc) then .next s
  else
    let at0 := p.flip.getD (fld p.bfa 0 4, fld p.bfa 16 32)
    let s := s.modPart part fun p => { p with bfc := v, flip := if v.getLsbD 0 then some at0 else none }
    let pages := rangeFrom at0.2 (fld v 32 32)
    if !v.getLsbD 0 then .next s
    else match flipLeaves s part at0.1 pages with
      | .error h => .next ((s.onHold h 0).postAt (s.cycle + 4) (.biasFlip part val))
      | .ok none => .next (endFlip s part true)
      | .ok (some []) => .next (endFlip s part false)
      | .ok (some ls) => .next (runFlip s part at0.1 ls (v.getLsbD 1) val)

end Sys2Proof.Machine
end

