-- ==== Sys2Proof/Machine/Fabric.lean ====
section
/-!
DEFINITION. The Bruzor fabric: joining a domain (R418, R427), PTP time (R421), requests of other devices and held
writes (R422, R423), time-outs (R419), replicated pages (R424, R425).
-/

namespace Sys2Proof.Machine

/-! ## The domain (R418, R421, R427) -/

/-- An operation that holds its stream because its device has not joined (R419). -/
def Op.awaitsJoin (o : Op) : Bool := o.block && !o.fabric.isEmpty && o.waits == 1 && o.acq.isNone && o.marks.isEmpty

/-- DEVICE_NUMBER_ASSIGN (R418, R427): the fabric manager gives a device with ports its number, once it has
synchronized; it is kept until the next reset. The device has joined, boot goes on to its report (R430), and what
waited for the domain goes on. [DEDUCED: log entry 74; DESIGN CHOICE: log entry 77] -/
def execDeviceNumberAssign (num : Nat) (s : State) : Host.Outcome State Fault Refusal :=
  if s.bootFail || !s.ports || num = 0 || 4608 < num || s.joined || !s.synced then .next s
  else
    let s1 := { s with
      devnum := num, joined := true, stage := if s.stage = 3 then 4 else s.stage
      ops := s.ops.filter (!·.awaitsJoin) }
    let s1 := if s.stage = 3 then sendReport s1 else s1
    .next ((s1.reqs.filter fun q => q.held == some .fabric).foldl State.retry s1)

/-- Does a step end a wait that lasts a given time, whatever PTPNOW reads (R419, R362, R425)? [DEDUCED: log entry 48] -/
def endsWait : Instr → Bool
  | .fabricTimeout _ => true
  | .preemptWatchdog _ => true
  | .repLockTimeout _ _ _ => true
  | .repLoadTimeout _ => true
  | _ => false

/-- PTP_SYNC (R421): the clock is slewed towards the reference. Until it is within 40 ns of one it is not
synchronized (R427); then it counts on at once from a reference that is ahead, but never backward; what lasts a given
time lasts no shorter for it. [DEDUCED: log entry 48] -/
def execPtpSync (reference : Nat) (s : State) : Host.Outcome State Fault Refusal :=
  let ptp := if s.synced then s.ptp else max s.ptp reference
  let d := ptp - s.ptp
  .next (if s.bootFail then s else { s with
    ptp := ptp
    nsTimers := s.nsTimers.map fun t => if endsWait t.2 then (t.1 + d, t.2) else t
    teams := s.teams.map fun (T : Team) => { T with mark := T.mark.map (· + d) }
    groups := s.groups.map fun (G : Group) => { G with haltAt := G.haltAt + d }
    slew := (reference : Int) - (ptp : Int)
    synced := s.synced || decide (ptp ≤ reference + 40) })

/-- FLIT_RETRY (R419): a retried flit is delivered exactly once; nothing of the machine's state changes. -/
def execFlitRetry (_port : Nat) (s : State) : Host.Outcome State Fault Refusal := .next s

/-! ## Time-outs (R419) -/

/-- The lanes that a request serves. -/
def ReqKind.lanes : ReqKind → List Nat
  | .read ls _ _ _ _ _ _ _ => ls.map (·.1)
  | .atom l _ _ _ _ _ _ _ => [l]
  | .prop l _ _ _ _ _ _ => [l]
  | .dread l _ _ _ => [l]
  | .recyc l _ _ => [l]
  | .dstat l => [l]
  | _ => []

/-- The home device of a replica set (R424). -/
def State.repHome (s : State) (g : RepSet) : Nat := g.devs.headD s.devnum

/-- Does a request to a sequencer go to its set's home on another device? -/
def State.repAway (s : State) (q : Req) : Bool :=
  (match q.kind with
    | .rep _ _ _ _ _ => true
    | .flag _ _ _ _ => true
    | .atom _ _ _ _ _ _ _ _ => true
    | _ => false) && s.homeOf q.part q.asn q.va != s.devnum

/-- A request has not been answered: its lanes meet cause 0x1C when their word completes, an element's command
aborts, and a store ends its group. -/
def reqTimeout (s : State) (q : Req) : State :=
  match q.op.bind s.op? with
  | some o => dropFailed (s.modOp o.id fun o => { o with fabric := o.fabric ++ q.kind.lanes }) q
  | none => failReq s q 0x1C

/-- A word held for a device that has not joined completes with cause 0x1C. -/
def joinTimeout (s : State) (o : Op) : State :=
  let s := { s with ops := s.ops.filter (·.id != o.id) }
  match s.gang? o.gang with
  | none => s
  | some g => match s.group? g.group with
    | none => s
    | some G =>
      if o.doc then takeTrap s ⟨g, G, o.slices⟩ 0x1C 0 false (maskOf o.fabric) none
      else failGroup s G.id 0x1C (64 * g.idx + o.fabric.foldl min 63)

/-- FABRIC_TIMEOUT (R419): 1 ms after a request, or after an access was held for the domain. `req` is the number of
the request, of the held word or of the engine command. [DEDUCED: log entry 74] -/
def execFabricTimeout (req : Nat) (s : State) : Host.Outcome State Fault Refusal :=
  match s.req? req with
  | some q => .next (if (q.dev = 0 && !s.repAway q) || q.served then s else reqTimeout s q)
  | none => match s.op? req with
    | some o => .next (if o.awaitsJoin then joinTimeout s o else s)
    | none =>
      if s.joined then .next s
      else match s.sx? req, s.mx? req with
        | some c, _ => .next (sxCancel s c.id 0x1C)
        | none, some c => .next (mxFault s c 0x1C)
        | none, none => .next s

/-! ## Requests of other devices (R422, R423) -/

/-- The lease that a read of another device gets (R422): none while a write is held. [DEDUCED: log entry 36] -/
def leaseTo (s : State) (r : LineRef) : State × Option Nat :=
  if heldFor s r.line then (s, none)
  else
    let lend := (s.ptp / 8 + 8 * 2 ^ s.levelOf r) % 2 ^ 32
    (s.raiseRle r.line lend, some lend)

/-- REMOTE_READ (R422): a read by device `dev` within one line, served under a lease in PTP time. A locked line of a
replicated page is served by its home without one, and by another replica once its update has landed, or after 10 µs from
the home's copy (R425). [DEDUCED: log entry 36; DESIGN CHOICE: log entry 75] -/
def execRemoteRead (dev part asn va len : Nat) (s : State) : Host.Outcome State Fault Refusal :=
  let again := fun (s : State) => s.postAt (s.cycle + 4) (.remoteRead dev part asn va len)
  if !s.joined || s.bootFail then .next s
  else if s.draining part asn va then .next (again s)
  else match translate s part asn va with
    | (.absent, s) => .next (again (s.notPresent part asn va))
    | (.malformed, s) => .next { s with reply := .unsupported }
    | (.held h, s) => .next (again (s.onHold h 0))
    | (.leaf l, s) =>
      let lock := s.lockedLine part asn va l
      let line := l.key (va / 128 * 128) / 128
      let bytes := fun (s : State) => s.mem.read (l.key va) len
      match (if s.homeOf part asn va = s.devnum then RepRead.free else s.repRead part asn va l) with
      | .wait s => .next (again s)
      | .home s =>
        let ln := remoteLine (s.homeOf part asn va) va
        let s := farLine s ln
        .next { s with reply := .remote (s.mem.read (ln * 128 + va % 128) len) none }
      | .free =>
      if badMask s line &&& maskAt (va % 128) len ≠ 0 then .next { s with reply := .poisoned }
      else if l.host then
        (match s.hostFree line with
        | .ok s => .next { s with reply := .remote (bytes s) none }
        | .error s => .next (again s))
      else
        let r := l.lineRef part asn va
        match lookAt s r with
        | .held s h => .next (again (s.onHold h 0))
        | .done s _ _ _ =>
          let g := if lock then (s, none) else leaseTo s r
          .next { g.1 with reply := .remote (bytes g.1) g.2 }

/-- REMOTE_WRITE (R423): a write by another device goes to the line's home as a request at DCLK. [DEDUCED: log entries 28, 74] -/
def execRemoteWrite (dev part asn va : Nat) (bytes : List (BitVec 8)) (s : State) : Host.Outcome State Fault Refusal :=
  if !s.joined || s.bootFail || bytes.isEmpty then .next s
  else
    let n := min bytes.length (128 - va % 128)
    let data := (lineAt (va % 128) (bytes.take n) ++ List.replicate 128 0).take 128
    let r : FarReq := ⟨dev, 0, part, asn, va, 0, 0, 0, 0, 0, 0, [], 0, 0⟩
    let s1 := s.comeIn r (va / 128 * 128) (.write (maskAt (va % 128) n) data [] false false)
    .next (if n < bytes.length then s1.post (.remoteWrite dev part asn (va + n) (bytes.drop n)) else s1)

/-- HELD_WRITE_RELEASE (R423): PTPNOW has reached the end of the leases and the guard. -/
def execHeldWriteRelease (req : Nat) (s : State) : Host.Outcome State Fault Refusal :=
  match s.req? req with
  | none => .next s
  | some q => match q.held with
    | some (.lease ns) =>
      if ns = 0 then .next s
      else if s.ptp < ns then .next (s.postNs ns (.heldWriteRelease req))
      else .next (s.retry q)
    | _ => .next s

/-! ## Replicated pages (R424, R425) -/

def State.modSet (s : State) (id : Nat) (f : RepSet → RepSet) : State :=
  { s with sets := s.sets.map fun (g : RepSet) => if g.id = id then f g else g }

def RepSet.modUpd (g : RepSet) (seq : Nat) (f : RepUpd → RepUpd) : RepSet :=
  { g with upds := g.upds.map fun (u : RepUpd) => if u.seq = seq then f u else u }

/-- A replica set with one of its updates. -/
def State.upd? (s : State) (set seq : Nat) : Option (RepSet × RepUpd) :=
  match s.sets.find? (·.id == set) with
  | none => none
  | some g => (g.upds.find? (·.seq == seq)).map fun u => (g, u)

/-- Every replica has applied an update: its store is acknowledged, and a switch of mode that waited takes effect
after the last one (R424, R425). -/
def repDone (s : State) (set seq : Nat) : State :=
  match s.upd? set seq with
  | none => s
  | some (g, u) =>
    if !(u.sent && g.devs.all (u.acked.contains ·)) then s
    else
      let left := g.upds.filter (·.seq != seq)
      let s := s.modSet set fun g => { g with
        upds := left
        lock := if left.isEmpty then g.toLock.getD g.lock else g.lock
        toLock := if left.isEmpty then none else g.toLock }
      match u.src.bind s.req? with
      | some q => s.served q q.wts
      | none => s

/-- Every replica has locked the line: the update is sent (R425). -/
def repLocked (s : State) (set seq : Nat) : State :=
  match s.upd? set seq with
  | none => s
  | some (g, u) =>
    if u.sent || !g.devs.all (u.locked.contains ·) then s
    else (s.modSet set fun g => g.modUpd seq fun u => { u with sent := true }).post (.repUpdateApply set (.own seq))

/-- A flag that was to be written has been (R216). -/
def State.flagWritten (s : State) (q : Req) : State := match q.kind with | .flag o _ _ _ => s.unown o | _ => s

/-- A line of a replicated page as the updates leave it that its sequencer has numbered (R424). -/
def repLine (s : State) (part asn va : Nat) (upds : List RepUpd) (applied : Nat) : Option (Nat × List Byte) :=
  match s.lookPast part asn va with
  | .leaf l =>
    let line := l.key (va / 128 * 128) / 128
    some (line, (upds.filter fun u => decide (applied < u.seq) && u.va / 128 == va / 128).foldl
      (fun d u => overlayBytes u.mask u.data d) (s.mem.read (line * 128) 128))
  | _ => none

/-- What a request has the sequencer write: a mask, the bytes under it, EF, and whether they are to be poisoned. A sum adds
to the line as the updates before it leave it; it finds nothing to add to in a poisoned word. -/
def repBytes (s : State) (q : Req) (upds : List RepUpd) (applied : Nat) : Option (BitVec 128 × List Byte × Bool × Bool) :=
  match q.kind with
  | .rep mask data _ ef bad => some (mask, data, ef, bad)
  | .flag _ mask data _ => some (mask, data, false, false)
  | .atom _ off n _ b _ _ _ => match repLine s q.part q.asn q.va upds applied with
    | some (line, bytes) =>
      if badBeneath s line &&& maskAt off n ≠ 0 then none
      else some (maskAt off n,
        lineAt off (leBytes n ((leNat ((bytes.drop off).take n) + b.toNat) % 2 ^ (8 * n))), false, false)
    | none => none
  | _ => none

/-- A replicated line whose set is gone is a line of this device alone. -/
def repAlone (s : State) (q : Req) (mask : BitVec 128) (data : List Byte) (ef bad : Bool) : State :=
  match translate s q.part q.asn q.va with
  | (.absent, s) => (s.notPresent q.part q.asn q.va).holdReq q .fault
  | (.malformed, s) => s.unresolved q
  | (.held h, s) => s.holdReq q h
  | (.leaf l, s) =>
    let r := l.lineRef q.part q.asn q.va
    match writeAt s r q.core (s.writeTime q) mask data ef with
    | .held s h => s.holdReq q h
    | .done s wts _ _ =>
      (((if bad then poisonLowest s r.line mask else s).ownCopy q mask data).flagWritten q).served q (some wts)

/-- A store of a set homed elsewhere goes to that home (R424): like any request over the fabric it is held until this
device has joined, and its acknowledgement is due within 1 ms (R419). -/
def repForward (s : State) (q : Req) : State :=
  let s := if s.nsTimers.any (·.2 == .fabricTimeout q.id) then s
    else s.postNs (s.ptp + 1000000) (.fabricTimeout q.id)
  if s.joined then s else s.holdReq q .fabric

/-- The sequencer of a set homed here numbers an update and sends it, in lock mode after its locks (R424). [DESIGN CHOICE: log entry 75] -/
def repStore (req : Nat) (s : State) : State :=
  match s.req? req with
  | none => s
  | some q =>
    if q.held.isSome || q.served then s
    else match s.repSet? q.part q.asn q.va with
      | none => (match repBytes s q [] 0 with
        | none => (s.served q none)
        | some (mask, data, ef, bad) => repAlone s q mask data ef bad)
      | some g =>
        if s.repHome g ≠ s.devnum then repForward s q
        else if g.upds.any (·.src == some req) then s
        else if g.toLock.isSome then s.postAt (s.cycle + 4) (.repStore (.req req))
        else match repBytes s q g.upds g.applied with
          | none => s.served q none
          | some (mask, data, ef, bad) =>
            let n := g.seq + 1
            let u : RepUpd := ⟨n, q.va / 128 * 128, mask, data, some req, [], [], !g.lock, ef, bad⟩
            let s1 := s.modSet g.id fun g => { g with seq := n, upds := g.upds ++ [u] }
            if !g.lock then s1.post (.repUpdateApply g.id (.own n))
            else (g.devs.filter (· != s.devnum)).foldl
              (fun s d => s.postNs (s.ptp + 10000) (.repLockTimeout g.id n d)) (s1.post (.repLock g.id (.own n)))

/-- REP_STORE (R424): a store of this device or of another, within one line. [DESIGN CHOICE: log entry 75] -/
def execRepStore (req : Ask) (s : State) : Host.Outcome State Fault Refusal :=
  match req with
  | .req id => .next (repStore id s)
  | .far r =>
    let n := min r.val.length (128 - r.va % 128)
    let data := (lineAt (r.va % 128) (r.val.take n) ++ List.replicate 128 0).take 128
    .next (s.comeIn r (r.va / 128 * 128) (.rep (maskAt (r.va % 128) n) data [] false false))

/-- The set that a message of its home, another device, names. -/
def State.farSet? (s : State) (set : Nat) : Option RepSet :=
  (s.sets.find? (·.id == set)).filter fun g => s.joined && s.repHome g != s.devnum

/-- REP_LOCK (R425): this device's replica marks the line locked and acknowledges. -/
def execRepLock (set : Nat) (seq : RepSeq) (s : State) : Host.Outcome State Fault Refusal :=
  match seq with
  | .own n => match s.upd? set n with
    | none => .next s
    | some (_, u) =>
      if u.sent || u.locked.contains s.devnum then .next s
      else .next (repLocked (s.modSet set fun g => { g.modUpd n (fun u => { u with locked := s.devnum :: u.locked }) with
        locks := u.va :: g.locks }) set n)
  | .far n m => match s.farSet? set with
    | none => .next s
    | some g => .next (if n ≤ g.applied then s
      else s.modSet set fun g => { g with locks := m.va :: g.locks })

/-- Loads that waited for a line's update go on; the readers for which requests stood in find it unlocked. -/
def repRetry (s : State) (g : RepSet) (va : Nat) : State :=
  let here := fun (q : Req) => q.part == g.part && q.asn == g.asn && q.va / 128 == va / 128
  let s := { s with reqs := s.reqs.filter fun q => !(here q && q.standsIn) }
  (s.reqs.filter fun q => q.held == some (.lease 0) && here q).foldl State.retry s

/-- This device's replica applies the next update in order, as one step of R203 at its DCLK, unlocks the line and
acknowledges. Elsewhere than at the home an update of another device's store is then done with. An update takes its place
in the sequencer's order before a flag that a core owns there, or is that flag's (R216). -/
def repApply (set seq : Nat) (s : State) : State :=
  match s.upd? set seq with
  | none => s
  | some (g, u) =>
    let again := fun (s : State) => s.postAt (s.cycle + 4) (.repUpdateApply set (.own seq))
    if !u.sent || seq ≠ g.applied + 1 then s
    else match translate s g.part g.asn u.va with
      | (.absent, s) => again (s.notPresent g.part g.asn u.va)
      | (.malformed, s) => again s
      | (.held h, s) => again (s.onHold h 0)
      | (.leaf l, s) =>
        let r := l.lineRef g.part g.asn u.va
        match writeAt s r (((s.owner? r.line).map (·.core)).getD 144) s.dclk u.mask u.data u.ef with
        | .held s h => again (s.onHold h 0)
        | .done s wts _ _ =>
          let s := if u.bad then poisonLowest s r.line u.mask else s
          let s := match u.src.bind s.req? with
            | some q => (s.ownCopy q u.mask u.data).flagWritten q
            | none => s
          let gone := s.repHome g != s.devnum && u.src.isNone
          let s := s.modSet set fun g =>
            let g := { g.modUpd seq (fun u => { u with acked := s.devnum :: u.acked }) with
              applied := seq, locks := g.locks.erase u.va }
            { g with upds := g.upds.filter fun u => !(gone && u.seq == seq) }
          let s := match u.src with
            | some id => s.modReq id fun q => { q with t := wts, wts := some wts }
            | none => s
          (repDone (repRetry s g u.va) set seq).post (.repUpdateApply set (.own (seq + 1)))

/-- REP_UPDATE_APPLY (R424, R425): an update of a set homed here, or one that comes in from another home and waits
for those before it. -/
def execRepUpdateApply (set : Nat) (seq : RepSeq) (s : State) : Host.Outcome State Fault Refusal :=
  match seq with
  | .own n => .next (repApply set n s)
  | .far n m => match s.farSet? set with
    | none => .next s
    | some g =>
      let ef := match (m.src.bind s.req?).map (·.kind) with | some (.rep _ _ _ ef _) => ef | _ => false
      .next (if n ≤ g.applied || g.upds.any (·.seq == n) then s
      else repApply set n (s.modSet set fun g => { g with
        upds := g.upds ++ [⟨n, m.va, m.mask, m.data, m.src, [], [], true, ef, m.bad⟩] }))

/-- REP_APPLY_ACK (R424, R425): another replica has locked a line, or has applied an update; from a home elsewhere it
says that every replica has, so that this device's store is acknowledged. [DESIGN CHOICE: log entry 75] -/
def execRepApplyAck (set seq dev : Nat) (s : State) : Host.Outcome State Fault Refusal :=
  match s.upd? set seq with
  | none => .next s
  | some (g, u) =>
    if s.repHome g ≠ s.devnum then
      (if !u.acked.contains s.devnum then .next s
       else
        let s := s.modSet set fun g => { g with upds := g.upds.filter (·.seq != seq) }
        .next (match u.src.bind s.req? with
          | some q => s.served q q.wts
          | none => s))
    else if u.sent then
      .next (repDone (s.modSet set fun g => g.modUpd seq fun u => { u with acked := dev :: u.acked }) set seq)
    else .next (repLocked (s.modSet set fun g => g.modUpd seq fun u => { u with locked := dev :: u.locked }) set seq)

/-- REP_LOCK_TIMEOUT (R425): a replica that has not acknowledged a lock is dropped from its set and reported. -/
def execRepLockTimeout (set seq dev : Nat) (s : State) : Host.Outcome State Fault Refusal :=
  match s.upd? set seq with
  | none => .next s
  | some (g, u) =>
    if u.sent || u.locked.contains dev || !g.devs.contains dev || s.repHome g ≠ s.devnum then .next s
    else
      let s1 := s.modSet set fun g => { g with devs := g.devs.filter (· != dev), dropped := g.dropped ++ [dev] }
      .next (g.upds.foldl (fun s u => repDone (repLocked s set u.seq) set u.seq) s1)

/-- REP_LOAD_TIMEOUT (R425): a load that has stalled for 10 µs on a locked line is served at the home copy, which
it does not cache; at a home elsewhere by a request over the fabric. -/
def execRepLoadTimeout (req : Nat) (s : State) : Host.Outcome State Fault Refusal :=
  match s.req? req with
  | none => .next s
  | some q =>
    let home := s.homeOf q.part q.asn q.va
    let again := fun (s : State) => s.postAt (s.cycle + 4) (.repLoadTimeout req)
    if q.held ≠ some (.lease 0) then .next s
    else if q.standsIn then .next (s.modReq req fun q => { q with served := true, held := none })
    else if home ≠ s.devnum then
      let kind := match q.kind with
        | .read lanes c _ acq ef keep mask ahead => ReqKind.read lanes c false acq ef keep mask ahead
        | k => k
      .next (((s.modReq req fun q => { q with kind := kind, dev := home, held := none }).postNs (s.ptp + 1000000)
        (.fabricTimeout req)).post (.homeRead req))
    else match translate s q.part q.asn q.va with
      | (.leaf l, s) =>
        let r := l.lineRef q.part q.asn q.va
        (match readAt s r q.core q.t none (match q.kind with | .fetch _ _ _ _ ef => ef | .read _ _ _ _ ef _ _ _ => ef | _ => false) with
          | .held s h => .next (again (s.onHold h 0))
          | .done s wts _ _ => match q.kind with
            | .read lanes _ _ acq _ _ mask ahead =>
              let s := s.raisePts q.gang wts
              let s := if acq then s.raisePts q.gang (at' 0 s.dclkSeen q.core) else s
              .next (deliver s q lanes mask ahead (s.lineData r) (badMask s r.line))
            | .fetch cmd _ off n _ => .next (engineGot s q cmd (engineBytes s r.line off n) (some wts))
            | _ => .next s)
      | (_, s) => .next (again s)

/-- The sequencer's mode changes once every update in flight has been applied (R425). -/
def setMode (s : State) (set : Nat) (lock : Bool) : State :=
  s.modSet set fun g => if g.upds.isEmpty then { g with lock := lock, toLock := none }
    else { g with toLock := some lock }

/-- May the replica table hold an entry (R424): 2 to 4,608 devices, and at most 256 sets homed here? -/
def entryOk (s : State) (e : RepEntry) : Bool :=
  decide (2 ≤ e.devs.length) && decide (e.devs.length ≤ 4608) && e.devs.eraseDups.length == e.devs.length &&
    e.devs.all (fun d => decide (1 ≤ d) && decide (d ≤ 4608)) && e.devs.contains s.devnum &&
    (e.devs.head? != some s.devnum ||
      decide ((s.sets.filter fun g => g.id != e.id && s.repHome g == s.devnum).length < 256))

/-- The fabric manager writes an entry: a new set, or other devices or another page of one without updates in flight. [DESIGN CHOICE: log entry 75] -/
def putSet (s : State) (e : RepEntry) (lock : Bool) : State :=
  if !entryOk s e then s
  else match s.sets.find? (·.id == e.id) with
    | none => { s with sets := s.sets ++ [⟨e.id, e.part, e.asn, e.va, e.size, e.devs, 0, 0, lock, none, [], [], []⟩] }
    | some g =>
      if !g.upds.isEmpty then s.postAt (s.cycle + 4) (.repModeSwitch (.table e) lock)
      else s.modSet e.id fun g => { g with
        part := e.part, asn := e.asn, va := e.va, size := e.size, devs := e.devs, lock := lock, toLock := none }

/-- REP_MODE_SWITCH (R424, R425): the fabric manager sets the sequencer's mode, or writes an entry of the replica table. -/
def execRepModeSwitch (set : RepOrder) (lock : Bool) (s : State) : Host.Outcome State Fault Refusal :=
  .next (match set with
    | .mode id => setMode s id lock
    | .table e => putSet s e lock)

end Sys2Proof.Machine
end

