-- ==== Sys2Proof/Machine/Moment.lean ====
section
/-!
DEFINITION. Moment words (R142 to R163): exact formulas over FP32 means and variances, each component
rounded once.
-/

namespace Sys2Proof.Machine

/-! ## Exact values with the invalid case -/

/-- An exact value, or none where a formula met ∞ · 0 or ∞ − ∞. -/
abbrev XVal := Option FVal

def FVal.zero : FVal := .fin false 0 0
/-- An exact natural number. -/
def xNat (n : Nat) : XVal := some (.fin false n 0)
def xMul (a b : XVal) : XVal := match a, b with | some x, some y => mulV x y | _, _ => none
def xNeg (a : XVal) : XVal := a.map FVal.negate
def xAdd (a b : XVal) : XVal :=
  match a, b with
  | some (.inf s), some (.inf t) => if s == t then some (.inf s) else none
  | some (.inf s), some _ => some (.inf s)
  | some _, some (.inf t) => some (.inf t)
  | some (.fin s m e), some (.fin t n g) => let d := addDy (s, m, e) (t, n, g); some (.fin d.1 d.2.1 d.2.2)
  | _, _ => none

/-- Round the exact sum of terms to FP32 (R147): the canonical NaN with NV where a term is invalid or
infinities oppose. -/
def roundTerms (fm : FMode) (ts : List XVal) : FRes :=
  if ts.any (·.isNone) then fp32.invalid
  else
    let vs := ts.filterMap id
    match vs.filterMap fun v => match v with | .inf s => some s | _ => none with
    | s :: r => if r.all (· == s) then ⟨fp32.infBits s, 0⟩ else fp32.invalid
    | [] => fp32.roundSum fm (vs.filterMap fun v => match v with
        | .fin s m e => some (s, m, e)
        | _ => none)

/-- Round one exact value. -/
def round1 (fm : FMode) (a : XVal) : FRes :=
  match a with
  | none => fp32.invalid
  | some (.fin s m e) => fp32.round fm false s m e
  | some (.inf s) => ⟨fp32.infBits s, 0⟩
  | some (.nan _ _ _) => fp32.invalid

/-- The setting of an intermediate: RNE, never flushed (R147). -/
def fmI : FMode := ⟨.rne, false, false, false⟩

/-- The value of a rounded FP32 result, as an operand of the next formula: none for a NaN. -/
def FRes.xval (r : FRes) : XVal := match fp32.decode r.bits with | .nan _ _ _ => none | v => some v

/-- An intermediate: its value and the exceptions of its rounding. -/
def rn (a : XVal) : XVal × FFlags := let r := round1 fmI a; (r.xval, r.fl)

/-- √ of an exact value as a rounded FP32 intermediate under RNE. [DEDUCED: log entry 57] -/
def rnSqrt (a : XVal) : XVal × FFlags :=
  match a with
  | none => (none, fNV)
  | some v => let r := fp32.sqrtR fmI v; (r.xval, r.fl)

/-- An exact quotient rounded to FP32; the operands are finite and the divisor is not 0. -/
def roundQuot (fm : FMode) (a b : FVal) : FRes := fp32.divR fm a b

/-! ## A moment result -/

/-- Mean and variance of one lane, with what the slice must note. -/
structure MomRes where
  mu : FRes
  v  : FRes
  fl : FFlags := 0
  deriving DecidableEq, Repr

/-- Settings of a lane: of MU, of VAR (R147), CLAMP, ASM and RHO. -/
structure MomMode where
  fm    : FMode
  fv    : FMode
  clamp : Bool
  asm   : Nat
  rho   : Nat
  deriving DecidableEq, Repr

/-- The settings of the slice a lane belongs to (R144 to R146). -/
def Cx.momOf (x : Cx) (L : Nat) : MomMode :=
  match x.sliceOf L with
  | none => ⟨fmI, fmI, false, 0, 0⟩
  | some sl => ⟨sl.fm, if sl.vrup then { sl.fm with rm := .rup } else sl.fm, sl.mclamp, sl.asm, fld sl.mrho 0 32⟩

/-- A register of MU above VAR. -/
def momWord (mu v : Nat) : Word := BitVec.ofNat 64 (mu * 2 ^ 32 + v)
def muOf (x : Word) : Nat := fld x 32 32
def varOf (x : Word) : Nat := fld x 0 32

/-- Deliver a moment result to a lane (R147, R149): −0 variance becomes +0, a negative one is clamped or
faults with cause 0x0F. [DEDUCED: log entry 55] -/
def momOut (M : MomMode) (r : MomRes) : LaneOut :=
  let vv := fp32.decode r.v.bits
  let neg := !vv.isNaN && vv.ltV FVal.zero
  let v := if neg then 0 else if r.v.bits = 2 ^ 31 then 0 else r.v.bits
  { val := momWord r.mu.bits v, fl := r.mu.fl ||| r.v.fl ||| r.fl
    mvcl := neg && M.clamp, cause := if neg && !M.clamp then some 0x0F else none }

/-- The NaN rule of R147: both components are the first NaN of the inputs. -/
def nanRule (ins : List FVal) (k : Unit → MomRes) : MomRes :=
  match firstNaN fp32 (ins.map fun v => (v, 23)) with
  | some r => { mu := r, v := r }
  | none => k ()

/-- An input component as the word reads it (R97). -/
def momIn (M : MomMode) (b : Nat) : FVal := fp32.rd M.fm b

/-- The covariance (R148), with the exceptions of its roundings. -/
def covar (M : MomMode) (va vb : FVal) : XVal × FFlags :=
  if M.asm = 0 then (some FVal.zero, 0)
  else
    let s := rnSqrt (mulV va vb)
    match M.asm with
    | 1 => s
    | 2 => (xNeg s.1, s.2)
    | _ => let c := rn (xMul (some (fp32.decode M.rho)) s.1); (c.1, s.2 ||| c.2)

/-! ## Linear and product forms (R151, R152) -/

/-- The shape of a MAR or MNL word. -/
def shapeMom (st : BitVec 2) (d : BitVec 4) (srcs : List Src) (legal : Bool) : Shape where
  st := st.toNat
  srcs := srcs
  dst := .mom d.toNat
  lat := 3
  hm := hmRM
  legal := legal

/-- Are moments enabled for the stream's launch (R142)? -/
def momOn (s : State) : Bool := match s.stream? with | some x => x.grp.mom | none => false

/-- A two-operand MAR word. -/
def mar2 (s : State) (o : OpMom2) (f : MomMode → FVal → FVal → FVal → FVal → XVal → MomRes) :
    Host.Outcome State Fault Refusal :=
  runLane s (shapeMom o.s o.d [.mom o.a.toNat, .mom o.b.toNat] (momOn s)) noCauses fun x v L =>
    let M := x.momOf L
    let a := val v L 0; let b := val v L 1
    let ma := momIn M (muOf a); let va := momIn M (varOf a)
    let mb := momIn M (muOf b); let vb := momIn M (varOf b)
    momOut M (nanRule [ma, va, mb, vb] fun _ =>
      let c := covar M va vb
      let r := f M ma va mb vb c.1
      { r with fl := r.fl ||| c.2 })

/-- MADD (R151). -/
def execMadd (o : OpMom2) (s : State) := mar2 s o fun M ma va mb vb c =>
  { mu := roundTerms M.fm [some ma, some mb], v := roundTerms M.fv [some va, some vb, xMul (xNat 2) c] }
/-- MSUB (R151). -/
def execMsub (o : OpMom2) (s : State) := mar2 s o fun M ma va mb vb c =>
  { mu := roundTerms M.fm [some ma, some mb.negate]
    v := roundTerms M.fv [some va, some vb, xNeg (xMul (xNat 2) c)] }
/-- MMUL (R151). -/
def execMmul (o : OpMom2) (s : State) := mar2 s o fun M ma va mb vb c =>
  let A : XVal := some ma; let B : XVal := some mb
  { mu := roundTerms M.fm [xMul A B, c]
    v := roundTerms M.fv [xMul (xMul A A) (some vb), xMul (xMul B B) (some va), mulV va vb, xMul c c,
      xMul (xNat 2) (xMul (xMul A B) c)] }

/-- A MAR word with a scalar. -/
def marX (s : State) (o : OpMomX) (f : MomMode → FVal → FVal → FVal → Nat → MomRes) :
    Host.Outcome State Fault Refusal :=
  runLane s (shapeMom o.s o.d [.mom o.a.toNat, .s7 o.x] (momOn s)) noCauses fun x v L =>
    let M := x.momOf L
    let a := val v L 0
    let ma := momIn M (muOf a); let va := momIn M (varOf a)
    let k := momIn M (fld (val v L 1) 0 32)
    momOut M (nanRule [ma, va, k] fun _ => f M ma va k (varOf a))

/-- MSCL (R151). -/
def execMscl (o : OpMomX) (s : State) := marX s o fun M ma va k _ =>
  { mu := roundTerms M.fm [mulV k ma], v := roundTerms M.fv [xMul (mulV k k) (some va)] }
/-- MOFS (R151): VAR passes through its bits. -/
def execMofs (o : OpMomX) (s : State) := marX s o fun M ma _ k bits =>
  { mu := roundTerms M.fm [some ma, some k], v := ⟨bits, 0⟩ }

/-- A MAR word that moves bits: no flag, no quieting, no flush, but the variance checks of R152, which hold
for every form. [DEDUCED: log entry 55] -/
def marMove (s : State) (o : OpMom1) (f : Word → Word) : Host.Outcome State Fault Refusal :=
  runLane s (shapeMom o.s o.d [.mom o.a.toNat] (momOn s)) noCauses fun x v L =>
    momOut (x.momOf L) { mu := ⟨muOf (f (val v L 0)), 0⟩, v := ⟨varOf (f (val v L 0)), 0⟩ }

/-- MNEG (R151): the sign of MU inverted. -/
def execMneg (o : OpMom1) (s : State) := marMove s o fun a => a ^^^ (1#64 <<< 63)
/-- MCPY (R151). -/
def execMcpy (o : OpMom1) (s : State) := marMove s o fun a => a

/-! ## Moment-matching forms (R153 to R157) -/

/-- An MNL word by its rule on (μ, v). -/
def mnl (s : State) (o : OpMom1) (f : MomMode → FVal → FVal → MomRes) : Host.Outcome State Fault Refusal :=
  runLane s (shapeMom o.s o.d [.mom o.a.toNat] (momOn s)) noCauses fun x v L =>
    let M := x.momOf L
    let ma := momIn M (muOf (val v L 0)); let va := momIn M (varOf (val v L 0))
    momOut M (nanRule [ma, va] fun _ => f M ma va)

def FVal.isZero : FVal → Bool
  | .fin _ 0 _ => true
  | _ => false

/-- A pattern delivered as a result component: an exact input value under the output flush. -/
def passComp (fm : FMode) (v : FVal) : FRes := round1 fm (some v)

/-- RN of Φ or φ at α. -/
def rnGauss (f : Bool × Nat × Int → Nat × Int) (a : XVal) (atInf : Bool → Nat) : XVal × FFlags :=
  match a with
  | some (.fin s m e) => let d := f (s, m, e); rn (some (.fin false d.1 d.2))
  | some (.inf s) => (xNat (atInf s), 0)
  | _ => (none, fNV)

/-- MRELU (R154). -/
def reluMom (M : MomMode) (mu v : FVal) : MomRes :=
  let pinf : FRes := ⟨fp32.infBits false, 0⟩
  if v.isZero then { mu := if FVal.zero.ltV mu then passComp M.fm mu else ⟨0, 0⟩, v := ⟨0, 0⟩ }
  else if v = .inf false ∨ mu = .inf false then { mu := pinf, v := pinf }
  else if mu = .inf true then { mu := ⟨0, 0⟩, v := ⟨0, 0⟩ }
  else
    let sg := rnSqrt (some v)
    let al := match sg.1 with
      | some d => let r := roundQuot fmI mu d; (r.xval, r.fl)
      | none => (none, 0)
    let P := rnGauss normalDy al.1 fun s => if s then 0 else 1
    let D := rnGauss densityDy al.1 fun _ => 0
    let m := roundTerms M.fm [xMul (some mu) P.1, xMul sg.1 D.1]
    let U : XVal := some mu
    { mu := m
      v := roundTerms M.fv [xMul (xMul U U) P.1, xMul (some v) P.1, xMul (xMul U sg.1) D.1,
        xNeg (xMul m.xval m.xval)]
      fl := sg.2 ||| al.2 ||| P.2 ||| D.2 }

/-- e^x of an exact value, rounded under a setting. -/
def roundExp (fm : FMode) (a : XVal) : FRes :=
  match a with
  | some (.fin s m e) => let d := expDy (s, m, e); fp32.round fm false false d.1 d.2
  | some (.inf s) => ⟨if s then 0 else fp32.infBits false, 0⟩
  | _ => fp32.invalid

/-- MEXP (R155). -/
def expMom (M : MomMode) (mu v : FVal) : MomRes :=
  let m := roundExp M.fm (xAdd (some mu) (xMul (some (.fin false 1 (-1))) (some v)))
  let e1 := match v with
    | .fin false n e => let d := expm1Dy n e; rn (some (.fin false d.1 d.2))
    | .fin true n e => let d := expDy (true, n, e); rn (xAdd (some (.fin false d.1 d.2)) (xNeg (xNat 1)))
    | .inf true => (xNeg (xNat 1), 0)
    | .inf _ => (some (.inf false), 0)
    | _ => (none, 0)
  { mu := m, v := roundTerms M.fv [xMul (xMul e1.1 m.xval) m.xval], fl := e1.2 }

/-- The logistic sigmoid of an exact value, rounded under a setting. -/
def roundSig (fm : FMode) (a : XVal) : FRes :=
  match a with
  | some (.fin s m e) => let d := sigmoidDy (s, m, e); fp32.round fm false false d.1 d.2
  | some (.inf s) => ⟨if s then 0 else fp32.ofInt 1, 0⟩
  | _ => fp32.invalid

/-- π/8 rounded to FP32 (R156). -/
def P8 : XVal := some (fp32.decode 0x3EC90FDB)

/-- RN(1 / √(1 + x)) of an exact x. [DEDUCED: log entries 57, 99] -/
def rnRsqrt1p (x : XVal) : XVal × FFlags :=
  match xAdd (xNat 1) x with
  | some (.fin sg m e) => if m = 0 then (some (.inf false), fDZ) else if sg then (none, fNV)
    else let d := rsqrtDy m e; rn (some (.fin false d.1 d.2))
  | some (.inf false) => (xNat 0, 0)
  | _ => (none, fNV)

/-- The MSIG rule on exact inputs, with the settings of its two results (R156). -/
def sigRule (fm fv : FMode) (mu v : XVal) : MomRes :=
  let t := rn (xMul P8 v)
  let k := rnRsqrt1p t.1
  let km := rn (xMul k.1 mu)
  let m := roundSig fm km.1
  { mu := m
    v := roundTerms fv [xMul (xMul m.xval (xAdd (xNat 1) (xNeg m.xval))) (xAdd (xNat 1) (xNeg k.1))]
    fl := t.2 ||| k.2 ||| km.2 }

/-- MTANH (R156): from the MSIG rule on (2μ, 4v), its results intermediates. -/
def tanhMom (M : MomMode) (mu v : FVal) : MomRes :=
  let r := sigRule fmI fmI (xMul (xNat 2) (some mu)) (xMul (xNat 4) (some v))
  { mu := roundTerms M.fm [xMul (xNat 2) r.mu.xval, xNeg (xNat 1)]
    v := roundTerms M.fv [xMul (xNat 4) r.v.xval], fl := r.mu.fl ||| r.v.fl ||| r.fl }

/-- An exact quotient of exact values, rounded. -/
def quotTerms (fm : FMode) (ts : List XVal) (den : XVal) : FRes :=
  let sign := fun (v : FVal) => match v with | .fin s _ _ => s | .inf s => s | .nan s _ _ => s
  match ts.foldl xAdd (xNat 0), den with
  | some (.fin _ 0 _), some b => ⟨fp32.mk3 (zeroSign fm.rm ((ts.filterMap id).map fun t => sign t != sign b)) 0 0, 0⟩
  | some a, some b => fp32.divR fm a b
  | _, _ => fp32.invalid

/-- MRCP (R157). -/
def rcpMom (M : MomMode) (mu v : FVal) : MomRes :=
  let s := match mu with | .fin s _ _ => s | .inf s => s | .nan s _ _ => s
  let inf : FRes := ⟨fp32.infBits s, 0⟩
  let pinf : FRes := ⟨fp32.infBits false, 0⟩
  match mu, v with
  | .inf _, .inf _ => { mu := fp32.invalid, v := fp32.invalid }
  | .inf _, _ => { mu := ⟨fp32.mk3 s 0 0, 0⟩, v := ⟨0, 0⟩ }
  | _, _ =>
    if mu.isZero then { mu := inf, v := pinf, fl := fDZ }
    else match v with
      | .inf false => { mu := inf, v := pinf }
      | _ =>
        let u : XVal := some mu; let w : XVal := some v
        let u2 := xMul u u
        { mu := quotTerms M.fm [u2, w] (xMul u2 u)
          v := quotTerms M.fv [xMul w u2, xMul (xNat 2) (xMul w w)] (xMul u2 (xMul u2 u2)) }

/-- MSQR (R157). -/
def sqrMom (M : MomMode) (mu v : FVal) : MomRes :=
  let u : XVal := some mu; let w : XVal := some v
  { mu := roundTerms M.fm [xMul u u, w]
    v := roundTerms M.fv [xMul (xNat 2) (xMul w w), xMul (xNat 4) (xMul (xMul u u) w)] }

/-- MRELU (R154). -/
def execMrelu (o : OpMom1) (s : State) := mnl s o reluMom
/-- MEXP (R155). -/
def execMexp (o : OpMom1) (s : State) := mnl s o expMom
/-- MSIG (R156). -/
def execMsig (o : OpMom1) (s : State) := mnl s o fun M mu v => sigRule M.fm M.fv (some mu) (some v)
/-- MTANH (R156). -/
def execMtanh (o : OpMom1) (s : State) := mnl s o tanhMom
/-- MRCP (R157). -/
def execMrcp (o : OpMom1) (s : State) := mnl s o rcpMom
/-- MSQR (R157). -/
def execMsqr (o : OpMom1) (s : State) := mnl s o sqrMom

/-! ## Making and collapsing (R159, R160) -/

/-- MMAKE (R159): the 64 bits of x; no arithmetic beyond the variance checks. -/
def execMmake (o : OpMmake) (s : State) : Host.Outcome State Fault Refusal :=
  runLane s { shapeMom o.s o.d [.s7 o.x] (momOn s) with hm := hmNone } noCauses fun x v L =>
    momOut (x.momOf L) { mu := ⟨muOf (val v L 0), 0⟩, v := ⟨varOf (val v L 0), 0⟩ }

/-- The shape of an MCOL word: the queue, or the HDST destination. -/
def shapeMcol (st : BitVec 2) (srcs : List Src) (legal : Bool) (hm : OpHmod → Bool) : Shape where
  st := st.toNat
  srcs := srcs
  dst := .push
  lat := 3
  hdst := true
  hm := hm
  legal := legal

/-- An MCOL form that moves bits. -/
def mcolMove (s : State) (o : OpMcol) (f : Word → Word) : Host.Outcome State Fault Refusal :=
  runLane s (shapeMcol o.s [.mom o.a.toNat] (momOn s) hmNone) noCauses fun _ v L => { val := f (val v L 0) }

/-- MCOL.MU (R159). -/
def execMcolMu (o : OpMcol) (s : State) := mcolMove s o fun a => BitVec.ofNat 64 (muOf a)
/-- MCOL.VAR (R159). -/
def execMcolVar (o : OpMcol) (s : State) := mcolMove s o fun a => BitVec.ofNat 64 (varOf a)
/-- MCOL.PAIR (R159). -/
def execMcolPair (o : OpMcol) (s : State) := mcolMove s o fun a => a

/-- MCOL.SD (R159): √VAR; MU takes no part. -/
def execMcolSd (o : OpMcol) (s : State) : Host.Outcome State Fault Refusal :=
  runLane s (shapeMcol o.s [.mom o.a.toNat] (momOn s) hmRM) noCauses fun x v L =>
    let M := x.momOf L
    let r := fp32.sqrtR M.fm (momIn M (varOf (val v L 0)))
    { val := BitVec.ofNat 64 r.bits, fl := r.fl }

/-- MCOL.SMP (R159): σ·z + MU, rounded once, with σ := RN(√VAR). -/
def execMcolSmp (o : OpMcolX) (s : State) : Host.Outcome State Fault Refusal :=
  runLane s (shapeMcol o.s [.mom o.a.toNat, .s7 o.x] (momOn s) hmRM) noCauses fun x v L =>
    let M := x.momOf L
    let vv := momIn M (varOf (val v L 0))
    let mu := momIn M (muOf (val v L 0))
    let z := momIn M (fld (val v L 1) 0 32)
    let r := nanRule [vv, mu, z] fun _ =>
      let sg := rnSqrt (some vv)
      { mu := roundTerms M.fm [xMul sg.1 (some z), some mu], v := ⟨0, 0⟩, fl := sg.2 }
    { val := BitVec.ofNat 64 r.mu.bits, fl := r.mu.fl ||| r.v.fl ||| r.fl }

end Sys2Proof.Machine
end

