-- ==== Sys2Proof/Machine/Platform.lean ====
section
/-!
DEFINITION. The platform (R432 to R435): power and the arithmetic clock, attestation, and the debug path.
-/

namespace Sys2Proof.Machine

/-! ## Power (R433, R434) -/

/-- PWRCAP_WRITE (R433): the limit is stored as 500 to 2,500 W. -/
def execPwrcapWrite (val : BitVec 64) (s : State) : Host.Outcome State Fault Refusal :=
  .next (if s.bootFail then s else { s with pwrcap := min 2500 (max 500 (fld val 0 12)) })

/-- POWER_CHECK (R434): the measured power and temperature are taken in, and the arithmetic clock moves by one
step. [DESIGN CHOICE: log entry 6] -/
def execPowerCheck (s : State) : Host.Outcome State Fault Refusal :=
  let pwr := (Config.modulePower s.cycle).toNat
  let s1 := { s with pwr := pwr, tmax := (Config.hottestDie s.cycle).toNat }
  .next (if s.pwrcap < pwr ∧ 1000 < s.mhz then { s1 with mhz := s.mhz - 25, thr := min 65535 (s.thr + 1) }
    else if pwr + 50 < s.pwrcap ∧ s.mhz < 1750 then { s1 with mhz := s.mhz + 25 }
    else s1)

/-! ## Attestation (R432) -/

/-- ATTEST (R432): a write of ATTCTL. With GO the hub writes the report to host memory through the bridge, after which
GO reads 0. [DESIGN CHOICE: log entry 79] -/
def execAttest (val : BitVec 64) (s : State) : Host.Outcome State Fault Refusal :=
  if s.bootFail || s.attctl.getLsbD 0 then .next s
  else
    let addr := val &&& 0xFFFFFFFFFFFFFF80#64
    let s1 := { s with attctl := addr }
    if !val.getLsbD 0 then .next s1
    else .next { sendReport s1 with attctl := addr ||| 1 }

/-! ## The debug path (R435) -/

/-- A stream of a halted group goes on at TRAPPC, one that waits once its wait ends (R435). [DEDUCED: log entry 46] -/
def Slice.resume (beat : Nat) (sl : Slice) : Slice :=
  match sl.run with
  | .run => { sl with pc := sl.trappc, hints := Hints.none, readyAt := beat + 1, since := beat + 1 }
  | .sleep _ => { sl with pc := sl.trappc, hints := Hints.none }
  | .regang _ => { sl with pc := sl.trappc }
  | .barrier l own _ => { sl with run := .barrier l own sl.trappc }
  | .ended => sl
  | .retired => sl

/-- A halted group goes on at TRAPPC; its team's watchdog runs on, less the time of the halt, and a marked team inside a
region is discarded now. [DEDUCED: log entry 46] -/
def resumeGroup (s : State) (grp : Nat) : State :=
  let s1 := { s with gangs := s.gangs.map fun (g : Gang) =>
    if g.group = grp then { g with slices := g.slices.map (Slice.resume s.beat) } else g }
  let s2 := s1.modGroup grp fun G => { G with halted := false }
  match s2.group? grp with
  | none => s2
  | some G =>
    if s2.teamHalted G.team then s2
    else
      let late := fun (T : Team) => if T.id = G.team then { T with mark := T.mark.map fun m => m + (s.ptp - max G.haltAt m) } else T
      let s3 := { s2 with teams := s2.teams.map late }
      let due := (s3.team? G.team).bind (·.mark)
      (match due with
        | some m => s3.postNs (m + (s3.part G.part).wdog) (.preemptWatchdog G.team)
        | none => s3).regionTest G.team

/-- DBGCTL_WRITE (R433, R435): clearing a partition's bit resumes every group halted in it. -/
def execDbgctlWrite (val : BitVec 64) (s : State) : Host.Outcome State Fault Refusal :=
  if s.bootFail then .next s
  else
    let v := val &&& 0xFF#64
    let gone := s.groups.filter fun G => G.halted && !v.getLsbD G.part
    .next { gone.foldl (fun s G => resumeGroup s G.id) s with dbgctl := v }

/-- The halted group that a value of DBGSEL names: LID in bits 39:24, group number in bits 21:0. [DESIGN CHOICE: log entry 79] -/
def dbgGroup (s : State) (sel : Word) : Option Group :=
  s.groups.find? fun G => G.halted && G.lid == fld sel 24 16 && ident32 G 0 0 / 1024 == fld sel 0 22

/-- DBGSEL_WRITE (R435). [DESIGN CHOICE: log entry 79] -/
def execDbgselWrite (val : BitVec 64) (s : State) : Host.Outcome State Fault Refusal :=
  if s.bootFail then .next s
  else if fld val 56 8 = 0xFF then .next (s.post (.debugResume val))
  else .next { s with dbgsel := val }

/-- DEBUG_RESUME (R435): the group that the value names goes on at TRAPPC. -/
def execDebugResume (val : BitVec 64) (s : State) : Host.Outcome State Fault Refusal :=
  match dbgGroup s val with
  | some G => .next (resumeGroup s G.id)
  | none => .next s

/-- What DBGSEL selects: the gang and the lane in it. Bits 47:40 are the lane's place in the group, 64 · gang + lane,
modulo 256, and bits 23:22 what that leaves out of 16 gangs. [DESIGN CHOICE: log entry 79] -/
def dbgLane (s : State) (sel : Word) : Option (Group × Gang × Nat) :=
  let n := 256 * fld sel 22 2 + fld sel 40 8
  match dbgGroup s sel with
  | none => none
  | some G => ((s.gangsOf G.id).find? fun g => g.idx == n / 64).map fun g => (G, g, n % 64)

/-- The value of the register that DBGSEL selects; a place that does not exist reads 0. -/
def dbgValue (s : State) : Word :=
  match dbgLane s s.dbgsel with
  | none => 0
  | some (G, g, L) =>
    let r := fld s.dbgsel 48 8
    match fld s.dbgsel 56 8, g.lane? L, g.slice? (L / 4) with
    | 0, some l, _ => at' 0 l.n r
    | 1, some l, _ => at' 0 l.q r
    | 2, _, _ => at' 0 g.g r
    | 3, _, some sl => if csrReadable (s.part G.part) r then csrValue s ⟨g, G, [L / 4]⟩ sl r else 0
    | _, _, _ => 0

/-- What a read of the management function's BAR0 returns (R433), but for DBGDATA, which
has a step of its own; a device that failed to boot answers BOOTST alone (R431). -/
def State.mgmtRead (s : State) (off : Nat) : Word :=
  let boot := BitVec.ofNat 64 ((if s.bootFail then 256 else 0) + s.stage)
  if off = 0x008 then boot
  else if s.bootFail then 0
  else if 0x800 ≤ off ∧ off < 0xC00 then leWord ((rangeFrom (off - 0x800) 8).map Config.certificate)
  else match off with
    | 0x000 => BitVec.ofNat 64 s.devnum
    | 0x010 => BitVec.ofNat 64 s.pwrcap
    | 0x018 => BitVec.ofNat 64 (s.pwr % 2 ^ 16 * 2 ^ 48 + s.tmax % 2 ^ 16 * 2 ^ 32 + s.mhz % 2 ^ 16 * 2 ^ 16 + s.thr)
    | 0x020 => s.attctl
    | 0x028 => s.attnonce
    | 0x030 => s.dbgctl
    | 0x038 => s.dbgsel
    | _ => 0

/-- The storage of the register that DBGSEL selects, of a lane of a gang. -/
def dbgPlace (s : State) (g : Gang) (L : Nat) : Storage :=
  let r := fld s.dbgsel 48 8
  match fld s.dbgsel 56 8 with
  | 0 => .named g.id L r
  | 1 => .queue g.id L r
  | 2 => .uniform g.id r
  | _ => .control g.id (L / 4)

/-- Does the register that DBGSEL selects hold an uncorrectable error, which is never returned as data (R381)? -/
def dbgBad (s : State) : Bool :=
  match dbgLane s s.dbgsel with
  | none => false
  | some (_, g, L) => s.bad.any fun d => !d.fixable && d.loc == dbgPlace s g L

/-- A correctable error in the register that DBGSEL selects is corrected and logged as it is read (R379). -/
def dbgMend (s : State) : State :=
  match dbgLane s s.dbgsel with
  | none => s
  | some (G, g, L) => s.repairWhere ⟨g, G, [L / 4]⟩ (· == dbgPlace s g L)

/-- DBGDATA_READ (R435). [DESIGN CHOICE: log entry 79] -/
def execDbgdataRead (s : State) : Host.Outcome State Fault Refusal :=
  .next { dbgMend s with reply := if s.bootFail then .value 0 else if dbgBad s then .poisoned else .value (dbgValue s) }

/-- Write the register that DBGSEL selects. -/
def dbgPut (s : State) (v : Word) : State :=
  match dbgLane s s.dbgsel with
  | none => s
  | some (G, g, L) =>
    let r := fld s.dbgsel 48 8
    let lane := fun (f : Lane → Lane) => s.modGang g.id fun g => { g with
      slices := modAt (fun sl => Slice.mapLanes sl fun j l => if j = L % 4 then f l else l) (L / 4) g.slices }
    match fld s.dbgsel 56 8 with
    | 0 => lane fun l => { l with n := modAt (fun _ => v) r l.n }
    | 1 => lane fun l => { l with q := modAt (fun _ => v) r l.q }
    | 2 => s.modGang g.id fun g => { g with g := modAt (fun _ => v) r g.g }
    | 3 =>
      if r = 14 then s.modGroup G.id fun G => { G with trapvec := v &&& maskADDR }
      else s.modGang g.id fun g => { g with slices := modAt (fun sl => Slice.writeCsr sl r v) (L / 4) g.slices }
    | _ => s

/-- A lane's register or a uniform register written whole is clean (R382). -/
def dbgClean (s : State) : State :=
  match dbgLane s s.dbgsel with
  | none => s
  | some (_, g, L) => if fld s.dbgsel 56 8 < 3 then s.clean (· == dbgPlace s g L) else s

/-- DBGDATA_WRITE (R435). -/
def execDbgdataWrite (val : BitVec 64) (s : State) : Host.Outcome State Fault Refusal :=
  .next (if s.bootFail then s else { dbgPut s val with bad := (dbgClean s).bad })

end Sys2Proof.Machine
end

