-- ==== Sys2Proof/Machine/Reliability.lean ====
section
/-!
DEFINITION. Damaged storage (R379, R380, R385), injected errors (R338, R339, R387), the Riddle auditor (R391
to R393), partition reset and device reset (R394 to R396, R430, R431).
-/

namespace Sys2Proof.Machine

/-! ## Damage (R379, R380) -/

/-- Does the storage of a place exist? -/
def State.hasPlace (s : State) : Storage → Bool
  | .scratch w _ => s.windows.any (·.id == w)
  | .named g _ _ => (s.gang? g).isSome
  | .queue g _ _ => (s.gang? g).isSome
  | .moment g _ _ => (s.gang? g).isSome
  | .parked g _ _ => (s.gang? g).isSome
  | .uniform g _ => (s.gang? g).isSome
  | .predicates g _ => (s.gang? g).isSome
  | .control g _ => (s.gang? g).isSome
  | .tile g _ _ => (s.group? g).isSome
  | .operandBuffer g _ => (s.group? g).isSome
  | .hubPartition p => decide (p < Config.partitions)
  | _ => true

/-- A bit of a place, or of a block of HBM4 a device, is damaged. The same bit again is as it was, a second error of
the same device is one of that device, and any other second error cannot be corrected. [DEDUCED: log entry 76] -/
def State.damage (s : State) (loc : Storage) (bit : Nat) (fixable : Bool) : State :=
  let rest := s.bad.filter (·.loc != loc)
  if !s.hasPlace loc then s
  else match s.bad.find? (·.loc == loc) with
    | none => { s with bad := ⟨loc, fixable, 0, bit⟩ :: rest }
    | some d =>
      let same := d.fixable && fixable && d.bit == bit
      { s with bad := match same, loc with
          | true, .hbm _ => ⟨loc, true, 0, bit⟩ :: rest
          | true, _ => rest
          | false, _ => ⟨loc, false, 0, bit⟩ :: rest }

/-- Chiplet number under which the frames of a core's L1 count their corrected errors. -/
def l1Frames (core : Nat) : Nat := Config.chiplets + core

/-- An error in a copy of L1, whose frame is `line`: set and way. A copy with an uncorrectable one is dropped
(R380); the fourth corrected one in 2^32 ns disables the frame unless it is the set's last (R385). [DEDUCED: log entry 76] -/
def damageL1 (s : State) (core line : Nat) (bad : Bool) : State :=
  let set := line / 8 % 256
  let way := line % 8
  match s.l1.find? fun c => c.core == core && c.va / 128 % 256 == set && c.way == way with
  | none => s
  | some c =>
    if bad then { s with l1 := s.l1.erase c }
    else
      let s := logEntry s c.part 0x01 0 1 0 0 c.va 0
      let s := { s with corrected := (l1Frames core, set, way, s.ptp) :: s.corrected }
      let n : Nat := (s.corrected.filter fun e => e.1 == l1Frames core && e.2.1 == set && e.2.2.1 == way &&
        decide (s.ptp < e.2.2.2 + 2 ^ 32)).length
      if n < 4 ∨ s.l1Ways core set ≤ 1 then s
      else logEntry { s with offL1 := (core, set, way) :: s.offL1, l1 := s.l1.erase c } c.part 0x07 0 1 0 0 c.va
        (way * 65536 + set)

/-- An error in an instruction-cache line. -/
def damageIcache (s : State) (core line : Nat) (bad : Bool) : State :=
  match (s.icache.filter (·.1 == core))[line]? with
  | none => s
  | some e => if bad then { s with icache := s.icache.erase e }
    else logEntry s e.2.1 0x01 0 5 0 0 (e.2.2.2 * 128) 0

/-- An error in a translation-cache entry. -/
def damageTlb (s : State) (chip entry : Nat) (bad : Bool) : State :=
  match (s.tlb.filter (·.core == 144 + chip))[entry]? with
  | none => s
  | some e => if bad then { s with tlb := s.tlb.erase e } else logEntry s e.part 0x01 0 6 0 0 e.leaf.va 0

/-- The partitions that exist. -/
def State.live (s : State) : List Nat := (rangeFrom 0 Config.partitions).filter fun p => (s.part p).en

/-- DAMAGED_BIT (R379, R380): storage is damaged of itself. Copies are dropped or repaired at once; hub state
that all partitions share resets the device (R396); other storage keeps the error for its next reader. [DEDUCED: log entry 76] -/
def execDamagedBit (loc : Storage) (bit : Nat) (uncorrectable : Bool) (s : State) :
    Host.Outcome State Fault Refusal :=
  match loc with
  | .l1 core line => .next (damageL1 s core line uncorrectable)
  | .icache core line => .next (damageIcache s core line uncorrectable)
  | .transCache chip entry => .next (damageTlb s chip entry uncorrectable)
  | .hubShared => .next (if uncorrectable then s.postOnce .deviceReset
      else s.live.foldl (fun s p => logEntry s p 0x01 0 6 0 0 0 0) s)
  | _ => .next (s.damage loc bit (!uncorrectable))

/-! ## Injected errors (R338, R339, R387) -/

/-- The gang that an ERRINJ value names, unless it has ended. -/
def injGang (s : State) (G : Group) (w : Word) : Option Gang :=
  (s.gangsOf G.id).find? fun g => g.idx == fld w 56 4 && g.ended.isNone

/-- Does a value name an element, a border position or a bit outside its tile (R339)? -/
def injTileBad (G : Group) (w : Word) : Bool :=
  match G.tile (fld w 56 4) with
  | none => true
  | some z =>
    let i := fld w 48 8
    let j := fld w 40 8
    decide (z.m < i) || decide (z.n < j) || (i == z.m && j == z.n) || ((i == z.m || j == z.n) && !z.bord) ||
      (z.mode == 0 && decide (32 ≤ fld w 0 6))

/-- The offset of a scratchpad target, and whether it lies outside the window. -/
def injOff (w : Word) : Nat := if fld w 60 4 = 4 then 8 * fld w 6 24 else 8 * fld w 12 18

def injScratch (s : State) (G : Group) (w : Word) : Option Window :=
  (s.winAt G.team G.core).filter fun win => decide (injOff w + 8 ≤ win.size)

/-- Does a value written to ERRINJ trap (R339, R387)? -/
def injBad (s : State) (G : Group) (w : Word) : Bool :=
  match fld w 60 4 with
  | 0 => false
  | 1 => fld w 6 34 != 0 || injTileBad G w
  | 2 => fld w 30 10 != 0 || (injGang s G w).isNone || fld w 52 4 != 0 || decide (G.width ≤ fld w 40 8) || fld w 0 6 != 0
  | 3 => fld w 30 10 != 0 || (injGang s G w).isNone || fld w 52 4 != 0 || decide (G.width ≤ fld w 40 8)
  | 4 => fld w 30 10 != 0 || (injScratch s G w).isNone
  | 5 => fld w 30 10 != 0 || (injScratch s G w).isNone
  | 6 => fld w 0 60 != 0
  | _ => true

/-- Invert one bit of a tile's element or border position. -/
def ZTile.flip (z : ZTile) (i j bit : Nat) : ZTile :=
  let f := fun (v : Word) => v ^^^ (1#64 <<< bit)
  if i < z.m ∧ j < z.n then { z with el := modAt f (i * z.n + j) z.el }
  else if i < z.m then { z with zc := modAt f i z.zc }
  else { z with zr := modAt f j z.zr }

/-- What an accepted value does. [DEDUCED: log entry 76] -/
def inject (s : State) (G : Group) (w : Word) : State :=
  let reg := fun (fix : Bool) => match injGang s G w with
    | some g => s.damage (.named g.id (fld w 40 8) (fld w 48 4)) (fld w 0 6) fix
    | none => s
  let word := fun (fix : Bool) => match injScratch s G w with
    | some win => s.damage (.scratch win.id (win.slot (injOff w) / 8)) (fld w 0 6) fix
    | none => s
  match fld w 60 4 with
  | 1 => s.modGroup G.id fun G => { G with z := modAt (fun z => z.map fun z =>
      z.flip (fld w 48 8) (fld w 40 8) (fld w 0 6)) (fld w 56 4) G.z }
  | 2 => reg false
  | 3 => reg true
  | 4 => word false
  | 5 => word true
  | 6 => s.modGroup G.id fun G => { G with inj6 := true }
  | _ => s

/-- The value that the lowest active lane writes. -/
def injValue (x : Cx) (v : List (List Word)) : Option Word := x.actives.head?.map fun L => val v L 0

/-- CSRW to ERRINJ (R338, R339, R387): illegal outside a debug partition; held while a matrix command of the group
names the tile. It reads 0 afterwards. -/
def execCsrwErrinj (o : OpCsrwK) (s : State) : Host.Outcome State Fault Refusal :=
  withStream s fun x0 =>
    let W : Shape := { st := o.s.toNat, srcs := [.s7 o.x], dst := .none, lat := 0
                       legal := (s.part x0.grp.part).debug }
    laneGateW s W (fun x v => match injValue x v with
        | some w => if fld w 60 4 = 1 ∧ s.tileBusy x.grp.id (fld w 56 4) then some s else none
        | none => none)
      (fun x v => match injValue x v with
        | some w => if injBad s x.grp w then [(0x01, x.mask)] else []
        | none => [])
      Cx.enOf (fun _ _ _ => { val := 0 }) fun x vals outs dead =>
        let s1 := finishLane s W false x vals outs dead
        match injValue x vals with
        | some w => (inject s1 x.grp w).modGroup x.grp.id fun G => { G with errinj := 0 }
        | none => s1

/-! ## The Riddle auditor (R391 to R393) -/

/-- Drop an audit. -/
def State.dropAudit (s : State) (id : Nat) : State := { s with audits := s.audits.filter (·.id != id) }

/-- Bits 31:0 of the identity of an audited group, with GANG = LANE = 0. -/
def Audit.loc (a : Audit) : Nat :=
  (a.team * (match a.launch with | some l => l.groups | none => 1) + a.group) * 1024

/-- The core of a replay: idle, of the partition, and not one that the original or a completed replay ran on; another
die first (R391, R392). -/
def replayCore (s : State) (a : Audit) : Option Nat :=
  let idle := (s.ownCores a.part).filter fun c => !a.cores.contains c && !s.groups.any (·.core == c)
  (idle.find? fun c => !(a.cores.any fun d => d / 36 == c / 36)).or idle.head?

/-- RIDDLE_REPLAY (R391): the group runs again on an idle core from its launch's argument block, its output
going to a shadow buffer; without an idle core it waits. [DESIGN CHOICE: log entry 67] -/
def execRiddleReplay (audit : Nat) (s : State) : Host.Outcome State Fault Refusal :=
  match s.audit? audit with
  | none => .next s
  | some a =>
    if a.bad then .next (s.post (.riddleCompare audit))
    else if a.stage = 0 ∨ s.groups.any (·.replay == some audit) then .next s
    else match a.launch, replayCore s a with
      | some l, some c =>
        let t := match l.wait with
          | t :: _ => { t with idx := a.team, restart := [] }
          | [] => ⟨a.team, [], none, [], none⟩
        let s := s.modAudit audit fun a =>
          if a.stage = 1 then { a with s1 := [], cores := a.cores ++ [c] } else { a with s2 := [], cores := a.cores ++ [c] }
        let die := s.lastDie
        let gangs := if t.stage.isSome then 1 else l.gangs
        .next { startTeam s { l with pair := false } t c (some audit) [(a.group, gangs)] with lastDie := die }
      | _, _ => .next (s.postAt (s.cycle + 1024) (.riddleReplay audit))

/-- One bit of CRC-64 of ECMA-182. -/
def crcBit (c : BitVec 64) : BitVec 64 :=
  if c.getLsbD 63 then (c <<< 1) ^^^ 0x42F0E1EBA9EA3693#64 else c <<< 1

/-- One byte. -/
def crcByte (c : BitVec 64) (b : Byte) : BitVec 64 :=
  (rangeFrom 0 8).foldl (fun c _ => crcBit c) (c ^^^ (b.setWidth 64 <<< 56))

/-- Insert a written byte by address. -/
def insertCell (x : Host.Cell) : List Host.Cell → List Host.Cell
  | [] => [x]
  | y :: r => if x.1 < y.1 then x :: y :: r else y :: insertCell x r

/-- Runs of written bytes in ascending order: start and bytes. -/
def runsOf : List Host.Cell → List (Nat × List Byte)
  | [] => []
  | (a, b) :: r => match runsOf r with
    | (k, bs) :: rest => if a + 1 = k then (a, b :: bs) :: rest else (a, [b]) :: (k, bs) :: rest
    | [] => [(a, [b])]

/-- The signature of a shadow buffer (R392). [DESIGN CHOICE: log entry 67] -/
def signature (m : List Host.Cell) : BitVec 64 :=
  let runs := runsOf (m.foldl (fun acc x => insertCell x acc) [])
  ((runs.map fun r => leBytes 8 r.1 ++ leBytes 4 r.2.length ++ r.2).flatten).foldl crcByte 0

/-- RIDDLE_COMPARE (R392, R393): equal signatures end the audit; else a third replay runs, and the majority
decides. A spoilt audit is abandoned and logged. [DESIGN CHOICE: log entry 67] -/
def execRiddleCompare (audit : Nat) (s : State) : Host.Outcome State Fault Refusal :=
  match s.audit? audit with
  | none => .next s
  | some a =>
    let g0 := signature a.s0
    let g1 := signature a.s1
    if a.bad then .next (logEntry (s.dropAudit audit) a.part 0x0A 0 7 0 a.lid a.loc 0)
    else if a.stage ≤ 1 then
      (if g0 = g1 then .next (s.dropAudit audit)
       else .next ((s.modAudit audit fun a => { a with stage := 2 }).post (.riddleReplay audit)))
    else
      let g2 := signature a.s2
      let sub := if g1 = g2 then 1 else if g0 = g2 then 2 else 3
      .next (logEntry (s.dropAudit audit) a.part 0x09 0x44 7 sub a.lid a.loc g0.toNat)

/-! ## Partition reset (R394) -/

/-- Steps 1 and 2: the groups of the partition are killed, its audits and copies are dropped, and what cannot
be drained is given up. [DESIGN CHOICE: log entry 78] -/
def resetDrain (s : State) (part : Nat) : State :=
  let s := s.modPart part fun p => { p with rst := true }
  let bad := s.bad.filter fun (d : Damage) => d.loc != Storage.hubPartition part
  let s : State := { s with audits := s.audits.filter (·.part != part), bad := bad }
  let s := (s.groups.filter fun G => G.part == part && !G.ending).foldl (fun s G => beginEnd s G true) s
  let s := (s.sx.filter fun c => c.part == part && c.group.isNone).foldl (fun s c => sxCancel s c.id 0x25) s
  let s := (s.reqs.filter fun q => q.part == part && q.held == some .fault).foldl dropFailed s
  (s.ingest.filter fun g => g.part == part && (match g.pieces with
    | p :: _ => walk s part p.asn p.va == .absent
    | [] => false)).foldl (fun s g => match g.pieces with
      | p :: _ => ingestLose s g p
      | [] => s) s

/-- Modified host granules of a partition that can be written back (R394, R413). -/
def granulesOut (s : State) (p : Granule → Bool) : List Granule :=
  s.granules.filter fun x => p x && x.st == some .m && !s.granuleBad x.addr

/-- A lease of another device on a line of the partition that has not passed (R394, R423): of a line that no L2 holds
the partition is not known. [DESIGN CHOICE: log entry 78] -/
def leaseLeft (s : State) (part : Nat) : Bool :=
  s.rles.any fun e => (s.leaseHold e.1).isSome && (match s.l2.find? (·.pa == e.1) with
    | some x => x.part == part
    | none => true)

/-- Is traffic of the partition still on its way? [DESIGN CHOICE: log entry 78] -/
def resetBusy (s : State) (part : Nat) : Bool :=
  s.groups.any (·.part == part) || s.reqs.any (·.part == part) || s.sx.any (·.part == part) ||
    s.ingest.any (·.part == part)

/-- Step 4: leases and L1 copies end, and L2 lines leave. -/
def resetLines (s : State) (part : Nat) : State :=
  let rles := s.rles.filter fun e => !s.l2.any fun x => x.pa == e.1 && x.part == part
  let s := { s with rles := rles, l1 := s.l1.filter (·.part != part) }
  (s.l2.filter (·.part == part)).foldl State.dropL2 s

/-- A launch is completed with STATUS 0x04. -/
def cancelLaunch (s : State) (l : Launch) : State :=
  if l.done.isSome then s
  else if l.caddr = 0 || l.caddr.toNat % 8 ≠ 0 then retireLaunch s l
  else match hubSend s l.part l.asn l.caddr (leBytes 8 (l.word 4)) (smax l.pts s.dclk + 1) with
    | (s, none) => retireLaunch s l
    | (s, some id) => s.modLaunch l.part l.lid fun l => { l with done := some id }

/-- Step 5: launches are completed, and the indices of all queues are 0. -/
def resetQueues (s : State) (part : Nat) : State :=
  let s := s.modPart part fun p => { p with
    queues := p.queues.map fun (q : LQueue) => { q with wi := 0, ci := 0 }, devq := [] }
  (s.launches.filter (·.part == part)).foldl cancelLaunch s

/-- PARTITION_RESET (R394): step by step, until the partition's traffic has drained, its host granules are written
back, other devices' leases have passed and its launches are complete. [DESIGN CHOICE: log entry 78] -/
def execPartitionReset (part : Nat) (s : State) : Host.Outcome State Fault Refusal :=
  if 8 ≤ part then .next s
  else
    let again := fun (s : State) => s.postAt (s.cycle + 4) (.partitionReset part)
    let s1 := resetDrain s part
    let out := granulesOut s1 (·.part == part)
    if resetBusy s1 part then .next (again s1)
    else if !out.isEmpty then .next (again (out.foldl (fun s x => s.postOnce (.bridgeWriteback x.addr)) s1))
    else if leaseLeft s1 part then .next (again s1)
    else
      let s2 := resetQueues (resetLines s1 part) part
      if s2.launches.any (·.part == part) then .next (again s2)
      else .next ((s2.modPart part fun p => { p with rst := false }).kick)

/-! ## Device reset (R395, R413, R427, R430, R431) -/

/-- Usable ways of a set of a chiplet. -/
def waysLeft (s : State) (chip set : Nat) : Nat :=
  16 - (s.offFrames.filter fun e => e.1 == chip && e.2.1 == set).length

/-- Slices that the bitmap retires: a set of theirs has fewer than 2 usable ways (R386). [DESIGN CHOICE: log entry 77] -/
def slicesRetired (s : State) : List (Nat × Nat) :=
  (s.offFrames.filterMap fun e => if waysLeft s e.1 e.2.1 < 2 then some (e.1, e.2.1 / 2048) else none).eraseDups

/-- The codewords of device memory whose only copy stood in L2: a reset loses them, and a read finds them
poisoned (R413, R380). -/
def lostWords (s : State) : List Nat :=
  ((s.l2.filter fun x => x.dirty && decide (x.pa * 128 < memKey 4 0)).map fun x => rangeFrom (x.pa * 16) 16).flatten

/-- The damage in memory that a reset leaves. [DESIGN CHOICE: log entry 77] -/
def resetBad (s : State) : List Damage :=
  let lost := lostWords s
  (lost.map fun cw => (⟨.mem cw, false, 0, 0⟩ : Damage)) ++ s.bad.filter fun d => match d.loc with
    | .mem cw => !lost.contains cw
    | .hbm _ => true
    | _ => false

/-- Host accesses to device memory that a reset finds under way, and those of timers, are held for its time of 300 ms
(R413, R395). -/
def resetHolds (s : State) : List (Nat × Instr) :=
  let host := fun (i : Instr) => match i with
    | .hostRead _ _ _ _ _ => true
    | .hostWrite _ _ _ _ _ => true
    | _ => false
  ((s.agenda ++ s.timers.map (·.2) ++ s.nsTimers.map (·.2)).filter host).map fun i => (300000000, i)

/-- The slices that boot retires are logged to every partition (R384). -/
def logRetired (s : State) : State :=
  s.retired.foldl (fun s e => (rangeFrom 0 Config.partitions).foldl (fun s p =>
    logEntry s p 0x08 0 2 0 0 0 (e.2 * 2048)) s) s

/-- DEVICE_RESET (R413, R430): the bridge, which stays powered, writes its modified granules back first. Boot then starts
from what lasts: fused and nonvolatile state, memory, what the bridge holds, and host accesses it holds. A failed
signature leaves the device at step 1 (R431); a device of a domain waits in step 4 until it has rejoined (R427); step 5
ends with the report's last acknowledgement. [DESIGN CHOICE: log entries 1, 77] -/
def execDeviceReset (s : State) : Host.Outcome State Fault Refusal :=
  let out := granulesOut s fun _ => true
  let s0 : State := { State.reset with
    agenda := [], mem := s.mem, bad := resetBad s
    choices := s.choices, fresh := s.fresh, offFrames := s.offFrames, offL1 := s.offL1
    harvest := s.harvest, sigOk := s.sigOk, cxl := s.cxl, ports := s.ports, attCount := s.attCount
    attctl := s.attctl &&& 0xFFFFFFFFFFFFFF80#64
    snoops := s.snoops, nsTimers := resetHolds s
    granules := (s.granules.filter (·.st.isSome)).map fun x => { x with want := none } }
  .next (if !out.isEmpty then (out.foldl (fun s x => s.postOnce (.bridgeWriteback x.addr)) s).post .deviceReset
    else if !s.sigOk then { s0 with stage := 1, bootFail := true }
    else
      let s1 := logRetired { s0 with retired := slicesRetired s }
      if s.ports then { s1 with stage := 3 } else sendReport { s1 with stage := 4 })

end Sys2Proof.Machine
end

