-- ==== Sys2Proof/Machine/Dispatch.lean ====
section
/-!
DEFINITION. The dispatch of the 415 instructions and events to their meanings, one arm each.
-/

namespace Sys2Proof.Machine

/-- The meaning of an instruction or event. -/
def exec (i : Instr) (s : State) : Host.Outcome State Fault Refusal :=
  match i with
  | .issueBeat => Sys2Proof.Machine.execIssueBeat s
  | .sleepExpiry gang slice => Sys2Proof.Machine.execSleepExpiry gang slice s
  | .resultReturn op => Sys2Proof.Machine.execResultReturn op s
  | .homeRead req => Sys2Proof.Machine.execHomeRead req s
  | .homeWrite req => Sys2Proof.Machine.execHomeWrite req s
  | .homeAtomic req => Sys2Proof.Machine.execHomeAtomic req s
  | .biResponse req dirty => Sys2Proof.Machine.execBiResponse req dirty s
  | .lazyReleaseDrain flag => Sys2Proof.Machine.execLazyReleaseDrain flag s
  | .lazyReleaseTimeout flag => Sys2Proof.Machine.execLazyReleaseTimeout flag s
  | .regionMerge chip region => Sys2Proof.Machine.execRegionMerge chip region s
  | .ccInterval => Sys2Proof.Machine.execCcInterval s
  | .clockReconcile => Sys2Proof.Machine.execClockReconcile s
  | .sweeperVisit chip sets => Sys2Proof.Machine.execSweeperVisit chip sets s
  | .smbFlushTimeout core entry => Sys2Proof.Machine.execSmbFlushTimeout core entry s
  | .smbFlushAck req => Sys2Proof.Machine.execSmbFlushAck req s
  | .tlbFill core part asn va => Sys2Proof.Machine.execTlbFill core part asn va s
  | .faultResolve part asn va ok => Sys2Proof.Machine.execFaultResolve part asn va ok s
  | .drainProcedure part asn va ptes => Sys2Proof.Machine.execDrainProcedure part asn va ptes s
  | .redDrain group sel => Sys2Proof.Machine.execRedDrain group sel s
  | .redEntryApply entry => Sys2Proof.Machine.execRedEntryApply entry s
  | .redDrainAck entry => Sys2Proof.Machine.execRedDrainAck entry s
  | .wsigSignal op => Sys2Proof.Machine.execWsigSignal op s
  | .homeProp req => Sys2Proof.Machine.execHomeProp req s
  | .homeDread req => Sys2Proof.Machine.execHomeDread req s
  | .homeRecyc req => Sys2Proof.Machine.execHomeRecyc req s
  | .homeDstat req => Sys2Proof.Machine.execHomeDstat req s
  | .docReply op => Sys2Proof.Machine.execDocReply op s
  | .sxCommandStart core => Sys2Proof.Machine.execSxCommandStart core s
  | .sxElementLand cmd elem => Sys2Proof.Machine.execSxElementLand cmd elem s
  | .sxResume cmd => Sys2Proof.Machine.execSxResume cmd s
  | .sxAbort cmd => Sys2Proof.Machine.execSxAbort cmd s
  | .mxCommandStart group => Sys2Proof.Machine.execMxCommandStart group s
  | .mxldbLand cmd => Sys2Proof.Machine.execMxldbLand cmd s
  | .mxKstep cmd => Sys2Proof.Machine.execMxKstep cmd s
  | .mxendComplete cmd => Sys2Proof.Machine.execMxendComplete cmd s
  | .mxdrainLand cmd => Sys2Proof.Machine.execMxdrainLand cmd s
  | .mxchkComplete cmd => Sys2Proof.Machine.execMxchkComplete cmd s
  | .forkProgramRead prog => Sys2Proof.Machine.execForkProgramRead prog s
  | .forkProgramComplete prog => Sys2Proof.Machine.execForkProgramComplete prog s
  | .doorbellWrite part queue wi => Sys2Proof.Machine.execDoorbellWrite part queue wi s
  | .launchAccept part queue => Sys2Proof.Machine.execLaunchAccept part queue s
  | .placeTeam part lid => Sys2Proof.Machine.execPlaceTeam part lid s
  | .discardTeam team => Sys2Proof.Machine.execDiscardTeam team s
  | .preemptWatchdog team => Sys2Proof.Machine.execPreemptWatchdog team s
  | .groupEnd group => Sys2Proof.Machine.execGroupEnd group s
  | .roleRestart group => Sys2Proof.Machine.execRoleRestart group s
  | .launchComplete part lid => Sys2Proof.Machine.execLaunchComplete part lid s
  | .copyLaunch part lid => Sys2Proof.Machine.execCopyLaunch part lid s
  | .releaseLaunch part lid => Sys2Proof.Machine.execReleaseLaunch part lid s
  | .gatherTimeout part lid stage => Sys2Proof.Machine.execGatherTimeout part lid stage s
  | .stageAllowance part lid => Sys2Proof.Machine.execStageAllowance part lid s
  | .riddleReplay audit => Sys2Proof.Machine.execRiddleReplay audit s
  | .riddleCompare audit => Sys2Proof.Machine.execRiddleCompare audit s
  | .deviceReset => Sys2Proof.Machine.execDeviceReset s
  | .partitionReset part => Sys2Proof.Machine.execPartitionReset part s
  | .resourceRegisterWrite part off val => Sys2Proof.Machine.execResourceRegisterWrite part off val s
  | .qcfgWrite part queue val => Sys2Proof.Machine.execQcfgWrite part queue val s
  | .ptrootWrite part asn val => Sys2Proof.Machine.execPtrootWrite part asn val s
  | .logcfgWrite part val => Sys2Proof.Machine.execLogcfgWrite part val s
  | .biasFlip part val => Sys2Proof.Machine.execBiasFlip part val s
  | .registerWrite fn off val => Sys2Proof.Machine.execRegisterWrite fn off val s
  | .hostRead part win off len mv => Sys2Proof.Machine.execHostRead part win off len mv s
  | .hostWrite part win off bytes mv => Sys2Proof.Machine.execHostWrite part win off bytes mv s
  | .snpInv granule => Sys2Proof.Machine.execSnpInv granule s
  | .snpData granule => Sys2Proof.Machine.execSnpData granule s
  | .snpCur granule => Sys2Proof.Machine.execSnpCur granule s
  | .bridgeDeviceRead req => Sys2Proof.Machine.execBridgeDeviceRead req s
  | .hostGrant granule grant bytes => Sys2Proof.Machine.execHostGrant granule grant bytes s
  | .bridgeDeviceWrite req => Sys2Proof.Machine.execBridgeDeviceWrite req s
  | .bridgeWriteAck req => Sys2Proof.Machine.execBridgeWriteAck req s
  | .bridgeEvict granule => Sys2Proof.Machine.execBridgeEvict granule s
  | .bridgeWriteback granule => Sys2Proof.Machine.execBridgeWriteback granule s
  | .ingestWrite requester off bytes poisoned => Sys2Proof.Machine.execIngestWrite requester off bytes poisoned s
  | .ingestPiece stream => Sys2Proof.Machine.execIngestPiece stream s
  | .ingestDoorbell requester off len => Sys2Proof.Machine.execIngestDoorbell requester off len s
  | .pwrcapWrite val => Sys2Proof.Machine.execPwrcapWrite val s
  | .powerCheck => Sys2Proof.Machine.execPowerCheck s
  | .attest val => Sys2Proof.Machine.execAttest val s
  | .dbgctlWrite val => Sys2Proof.Machine.execDbgctlWrite val s
  | .dbgselWrite val => Sys2Proof.Machine.execDbgselWrite val s
  | .debugResume val => Sys2Proof.Machine.execDebugResume val s
  | .dbgdataRead => Sys2Proof.Machine.execDbgdataRead s
  | .dbgdataWrite val => Sys2Proof.Machine.execDbgdataWrite val s
  | .deviceNumberAssign num => Sys2Proof.Machine.execDeviceNumberAssign num s
  | .ptpSync reference => Sys2Proof.Machine.execPtpSync reference s
  | .flitRetry port => Sys2Proof.Machine.execFlitRetry port s
  | .fabricTimeout req => Sys2Proof.Machine.execFabricTimeout req s
  | .remoteRead dev part asn va len => Sys2Proof.Machine.execRemoteRead dev part asn va len s
  | .remoteWrite dev part asn va bytes => Sys2Proof.Machine.execRemoteWrite dev part asn va bytes s
  | .heldWriteRelease req => Sys2Proof.Machine.execHeldWriteRelease req s
  | .repStore req => Sys2Proof.Machine.execRepStore req s
  | .repUpdateApply set seq => Sys2Proof.Machine.execRepUpdateApply set seq s
  | .repApplyAck set seq dev => Sys2Proof.Machine.execRepApplyAck set seq dev s
  | .repLock set seq => Sys2Proof.Machine.execRepLock set seq s
  | .repLockTimeout set seq dev => Sys2Proof.Machine.execRepLockTimeout set seq dev s
  | .repLoadTimeout req => Sys2Proof.Machine.execRepLoadTimeout req s
  | .repModeSwitch set lock => Sys2Proof.Machine.execRepModeSwitch set lock s
  | .illegalInstruction word => Sys2Proof.Machine.execIllegalInstruction word s
  | .fetchFill core part asn va => Sys2Proof.Machine.execFetchFill core part asn va s
  | .retentionRequest req => Sys2Proof.Machine.execRetentionRequest req s
  | .damagedBit loc bit uncorrectable => Sys2Proof.Machine.execDamagedBit loc bit uncorrectable s
  | .ingestUnsupportedRequest requester => Sys2Proof.Machine.execIngestUnsupportedRequest requester s
  | .hnop => Sys2Proof.Machine.execHnop s
  | .hsched o => Sys2Proof.Machine.execHsched o s
  | .himm o => Sys2Proof.Machine.execHimm o s
  | .hdst o => Sys2Proof.Machine.execHdst o s
  | .hmod o => Sys2Proof.Machine.execHmod o s
  | .iadd o => Sys2Proof.Machine.execIadd o s
  | .isub o => Sys2Proof.Machine.execIsub o s
  | .iadds o => Sys2Proof.Machine.execIadds o s
  | .iaddu o => Sys2Proof.Machine.execIaddu o s
  | .isubs o => Sys2Proof.Machine.execIsubs o s
  | .isubu o => Sys2Proof.Machine.execIsubu o s
  | .imul o => Sys2Proof.Machine.execImul o s
  | .imulh o => Sys2Proof.Machine.execImulh o s
  | .iaddG o => Sys2Proof.Machine.execIaddG o s
  | .isubG o => Sys2Proof.Machine.execIsubG o s
  | .iaddsG o => Sys2Proof.Machine.execIaddsG o s
  | .iadduG o => Sys2Proof.Machine.execIadduG o s
  | .isubsG o => Sys2Proof.Machine.execIsubsG o s
  | .isubuG o => Sys2Proof.Machine.execIsubuG o s
  | .imulG o => Sys2Proof.Machine.execImulG o s
  | .imulhG o => Sys2Proof.Machine.execImulhG o s
  | .and o => Sys2Proof.Machine.execAnd o s
  | .or o => Sys2Proof.Machine.execOr o s
  | .xor o => Sys2Proof.Machine.execXor o s
  | .andn o => Sys2Proof.Machine.execAndn o s
  | .shl o => Sys2Proof.Machine.execShl o s
  | .shr o => Sys2Proof.Machine.execShr o s
  | .sar o => Sys2Proof.Machine.execSar o s
  | .rotl o => Sys2Proof.Machine.execRotl o s
  | .andG o => Sys2Proof.Machine.execAndG o s
  | .orG o => Sys2Proof.Machine.execOrG o s
  | .xorG o => Sys2Proof.Machine.execXorG o s
  | .andnG o => Sys2Proof.Machine.execAndnG o s
  | .shlG o => Sys2Proof.Machine.execShlG o s
  | .shrG o => Sys2Proof.Machine.execShrG o s
  | .sarG o => Sys2Proof.Machine.execSarG o s
  | .rotlG o => Sys2Proof.Machine.execRotlG o s
  | .imin o => Sys2Proof.Machine.execImin o s
  | .imax o => Sys2Proof.Machine.execImax o s
  | .umin o => Sys2Proof.Machine.execUmin o s
  | .umax o => Sys2Proof.Machine.execUmax o s
  | .imulhu o => Sys2Proof.Machine.execImulhu o s
  | .iabsd o => Sys2Proof.Machine.execIabsd o s
  | .pklo o => Sys2Proof.Machine.execPklo o s
  | .pkhi o => Sys2Proof.Machine.execPkhi o s
  | .iminG o => Sys2Proof.Machine.execIminG o s
  | .imaxG o => Sys2Proof.Machine.execImaxG o s
  | .uminG o => Sys2Proof.Machine.execUminG o s
  | .umaxG o => Sys2Proof.Machine.execUmaxG o s
  | .imulhuG o => Sys2Proof.Machine.execImulhuG o s
  | .iabsdG o => Sys2Proof.Machine.execIabsdG o s
  | .pkloG o => Sys2Proof.Machine.execPkloG o s
  | .pkhiG o => Sys2Proof.Machine.execPkhiG o s
  | .clz o => Sys2Proof.Machine.execClz o s
  | .ctz o => Sys2Proof.Machine.execCtz o s
  | .popc o => Sys2Proof.Machine.execPopc o s
  | .brev o => Sys2Proof.Machine.execBrev o s
  | .ineg o => Sys2Proof.Machine.execIneg o s
  | .inot o => Sys2Proof.Machine.execInot o s
  | .iabs o => Sys2Proof.Machine.execIabs o s
  | .bswap o => Sys2Proof.Machine.execBswap o s
  | .imad o => Sys2Proof.Machine.execImad o s
  | .imad64 o => Sys2Proof.Machine.execImad64 o s
  | .imadhs o => Sys2Proof.Machine.execImadhs o s
  | .imadhz o => Sys2Proof.Machine.execImadhz o s
  | .imadw o => Sys2Proof.Machine.execImadw o s
  | .idot8 o => Sys2Proof.Machine.execIdot8 o s
  | .idot16 o => Sys2Proof.Machine.execIdot16 o s
  | .idivs o => Sys2Proof.Machine.execIdivs o s
  | .idivz o => Sys2Proof.Machine.execIdivz o s
  | .irems o => Sys2Proof.Machine.execIrems o s
  | .iremz o => Sys2Proof.Machine.execIremz o s
  | .icmpeq o => Sys2Proof.Machine.execIcmpeq o s
  | .icmpne o => Sys2Proof.Machine.execIcmpne o s
  | .icmplt o => Sys2Proof.Machine.execIcmplt o s
  | .icmple o => Sys2Proof.Machine.execIcmple o s
  | .icmpltz o => Sys2Proof.Machine.execIcmpltz o s
  | .icmplez o => Sys2Proof.Machine.execIcmplez o s
  | .icmptst o => Sys2Proof.Machine.execIcmptst o s
  | .icmpeqG o => Sys2Proof.Machine.execIcmpeqG o s
  | .icmpneG o => Sys2Proof.Machine.execIcmpneG o s
  | .icmpltG o => Sys2Proof.Machine.execIcmpltG o s
  | .icmpleG o => Sys2Proof.Machine.execIcmpleG o s
  | .icmpltzG o => Sys2Proof.Machine.execIcmpltzG o s
  | .icmplezG o => Sys2Proof.Machine.execIcmplezG o s
  | .icmptstG o => Sys2Proof.Machine.execIcmptstG o s
  | .fadd o => Sys2Proof.Machine.execFadd o s
  | .fsub o => Sys2Proof.Machine.execFsub o s
  | .fmul o => Sys2Proof.Machine.execFmul o s
  | .fmin o => Sys2Proof.Machine.execFmin o s
  | .fmax o => Sys2Proof.Machine.execFmax o s
  | .fminn o => Sys2Proof.Machine.execFminn o s
  | .fmaxn o => Sys2Proof.Machine.execFmaxn o s
  | .fcpsg o => Sys2Proof.Machine.execFcpsg o s
  | .faddG o => Sys2Proof.Machine.execFaddG o s
  | .fsubG o => Sys2Proof.Machine.execFsubG o s
  | .fmulG o => Sys2Proof.Machine.execFmulG o s
  | .fminG o => Sys2Proof.Machine.execFminG o s
  | .fmaxG o => Sys2Proof.Machine.execFmaxG o s
  | .fminnG o => Sys2Proof.Machine.execFminnG o s
  | .fmaxnG o => Sys2Proof.Machine.execFmaxnG o s
  | .fcpsgG o => Sys2Proof.Machine.execFcpsgG o s
  | .fma o => Sys2Proof.Machine.execFma o s
  | .fms o => Sys2Proof.Machine.execFms o s
  | .fnma o => Sys2Proof.Machine.execFnma o s
  | .fnms o => Sys2Proof.Machine.execFnms o s
  | .hdotBf16 o => Sys2Proof.Machine.execHdotBf16 o s
  | .hdotF16 o => Sys2Proof.Machine.execHdotF16 o s
  | .ffmaBf16x4 o => Sys2Proof.Machine.execFfmaBf16x4 o s
  | .ffmaF16x4 o => Sys2Proof.Machine.execFfmaF16x4 o s
  | .fabs o => Sys2Proof.Machine.execFabs o s
  | .fneg o => Sys2Proof.Machine.execFneg o s
  | .frnd o => Sys2Proof.Machine.execFrnd o s
  | .frndz o => Sys2Proof.Machine.execFrndz o s
  | .fclass o => Sys2Proof.Machine.execFclass o s
  | .fgetexp o => Sys2Proof.Machine.execFgetexp o s
  | .fgetman o => Sys2Proof.Machine.execFgetman o s
  | .fcvtwl o => Sys2Proof.Machine.execFcvtwl o s
  | .fcvtwh o => Sys2Proof.Machine.execFcvtwh o s
  | .fcvtn o => Sys2Proof.Machine.execFcvtn o s
  | .fcvtfi o => Sys2Proof.Machine.execFcvtfi o s
  | .fcvtfu o => Sys2Proof.Machine.execFcvtfu o s
  | .fcvtif o => Sys2Proof.Machine.execFcvtif o s
  | .fcvtuf o => Sys2Proof.Machine.execFcvtuf o s
  | .fenc o => Sys2Proof.Machine.execFenc o s
  | .fdec o => Sys2Proof.Machine.execFdec o s
  | .fcmpeq o => Sys2Proof.Machine.execFcmpeq o s
  | .fcmpne o => Sys2Proof.Machine.execFcmpne o s
  | .fcmplt o => Sys2Proof.Machine.execFcmplt o s
  | .fcmple o => Sys2Proof.Machine.execFcmple o s
  | .fcmpun o => Sys2Proof.Machine.execFcmpun o s
  | .fcmpor o => Sys2Proof.Machine.execFcmpor o s
  | .fcmpequ o => Sys2Proof.Machine.execFcmpequ o s
  | .fcmpgt o => Sys2Proof.Machine.execFcmpgt o s
  | .fdiv o => Sys2Proof.Machine.execFdiv o s
  | .fsqrt o => Sys2Proof.Machine.execFsqrt o s
  | .cexp2 o => Sys2Proof.Machine.execCexp2 o s
  | .clog2 o => Sys2Proof.Machine.execClog2 o s
  | .csin o => Sys2Proof.Machine.execCsin o s
  | .ccos o => Sys2Proof.Machine.execCcos o s
  | .ctanh o => Sys2Proof.Machine.execCtanh o s
  | .csigm o => Sys2Proof.Machine.execCsigm o s
  | .crcp o => Sys2Proof.Machine.execCrcp o s
  | .crsqrt o => Sys2Proof.Machine.execCrsqrt o s
  | .csqrt o => Sys2Proof.Machine.execCsqrt o s
  | .catan o => Sys2Proof.Machine.execCatan o s
  | .catan2 o => Sys2Proof.Machine.execCatan2 o s
  | .csincos o => Sys2Proof.Machine.execCsincos o s
  | .chypot o => Sys2Proof.Machine.execChypot o s
  | .xshf o => Sys2Proof.Machine.execXshf o s
  | .xup o => Sys2Proof.Machine.execXup o s
  | .xdn o => Sys2Proof.Machine.execXdn o s
  | .xbfly o => Sys2Proof.Machine.execXbfly o s
  | .xget o => Sys2Proof.Machine.execXget o s
  | .xperm o => Sys2Proof.Machine.execXperm o s
  | .xrot o => Sys2Proof.Machine.execXrot o s
  | .xshfG o => Sys2Proof.Machine.execXshfG o s
  | .xupG o => Sys2Proof.Machine.execXupG o s
  | .xdnG o => Sys2Proof.Machine.execXdnG o s
  | .xbflyG o => Sys2Proof.Machine.execXbflyG o s
  | .xgetG o => Sys2Proof.Machine.execXgetG o s
  | .xpermG o => Sys2Proof.Machine.execXpermG o s
  | .xrotG o => Sys2Proof.Machine.execXrotG o s
  | .vsum o => Sys2Proof.Machine.execVsum o s
  | .vfsum o => Sys2Proof.Machine.execVfsum o s
  | .vmin o => Sys2Proof.Machine.execVmin o s
  | .vmax o => Sys2Proof.Machine.execVmax o s
  | .vfmin o => Sys2Proof.Machine.execVfmin o s
  | .vfmax o => Sys2Proof.Machine.execVfmax o s
  | .vscan o => Sys2Proof.Machine.execVscan o s
  | .vfscan o => Sys2Proof.Machine.execVfscan o s
  | .pand o => Sys2Proof.Machine.execPand o s
  | .por o => Sys2Proof.Machine.execPor o s
  | .pxor o => Sys2Proof.Machine.execPxor o s
  | .pandn o => Sys2Proof.Machine.execPandn o s
  | .pnot o => Sys2Proof.Machine.execPnot o s
  | .pmov o => Sys2Proof.Machine.execPmov o s
  | .pany o => Sys2Proof.Machine.execPany o s
  | .pall o => Sys2Proof.Machine.execPall o s
  | .guard o => Sys2Proof.Machine.execGuard o s
  | .guardn o => Sys2Proof.Machine.execGuardn o s
  | .guardoff => Sys2Proof.Machine.execGuardoff s
  | .pbal o => Sys2Proof.Machine.execPbal o s
  | .pset o => Sys2Proof.Machine.execPset o s
  | .pget o => Sys2Proof.Machine.execPget o s
  | .pcnt o => Sys2Proof.Machine.execPcnt o s
  | .sel o => Sys2Proof.Machine.execSel o s
  | .madd o => Sys2Proof.Machine.execMadd o s
  | .msub o => Sys2Proof.Machine.execMsub o s
  | .mmul o => Sys2Proof.Machine.execMmul o s
  | .mscl o => Sys2Proof.Machine.execMscl o s
  | .mofs o => Sys2Proof.Machine.execMofs o s
  | .mneg o => Sys2Proof.Machine.execMneg o s
  | .mcpy o => Sys2Proof.Machine.execMcpy o s
  | .mrelu o => Sys2Proof.Machine.execMrelu o s
  | .mexp o => Sys2Proof.Machine.execMexp o s
  | .msig o => Sys2Proof.Machine.execMsig o s
  | .mtanh o => Sys2Proof.Machine.execMtanh o s
  | .mrcp o => Sys2Proof.Machine.execMrcp o s
  | .msqr o => Sys2Proof.Machine.execMsqr o s
  | .mmake o => Sys2Proof.Machine.execMmake o s
  | .mcolMu o => Sys2Proof.Machine.execMcolMu o s
  | .mcolVar o => Sys2Proof.Machine.execMcolVar o s
  | .mcolSd o => Sys2Proof.Machine.execMcolSd o s
  | .mcolPair o => Sys2Proof.Machine.execMcolPair o s
  | .mcolSmp o => Sys2Proof.Machine.execMcolSmp o s
  | .ldg o => Sys2Proof.Machine.execLdg o s
  | .ldgx o => Sys2Proof.Machine.execLdgx o s
  | .stg o => Sys2Proof.Machine.execStg o s
  | .stgx o => Sys2Proof.Machine.execStgx o s
  | .lds o => Sys2Proof.Machine.execLds o s
  | .ldsx o => Sys2Proof.Machine.execLdsx o s
  | .sts o => Sys2Proof.Machine.execSts o s
  | .stsx o => Sys2Proof.Machine.execStsx o s
  | .ldo o => Sys2Proof.Machine.execLdo o s
  | .sto o => Sys2Proof.Machine.execSto o s
  | .atmAdd o => Sys2Proof.Machine.execAtmAdd o s
  | .atmAnd o => Sys2Proof.Machine.execAtmAnd o s
  | .atmOr o => Sys2Proof.Machine.execAtmOr o s
  | .atmXor o => Sys2Proof.Machine.execAtmXor o s
  | .atmMin o => Sys2Proof.Machine.execAtmMin o s
  | .atmMax o => Sys2Proof.Machine.execAtmMax o s
  | .atmMinz o => Sys2Proof.Machine.execAtmMinz o s
  | .atmMaxz o => Sys2Proof.Machine.execAtmMaxz o s
  | .atmXchg o => Sys2Proof.Machine.execAtmXchg o s
  | .atmCas o => Sys2Proof.Machine.execAtmCas o s
  | .atmFadd o => Sys2Proof.Machine.execAtmFadd o s
  | .raddI32 o => Sys2Proof.Machine.execRaddI32 o s
  | .raddI64 o => Sys2Proof.Machine.execRaddI64 o s
  | .raddF32 o => Sys2Proof.Machine.execRaddF32 o s
  | .raddF64 o => Sys2Proof.Machine.execRaddF64 o s
  | .rmin o => Sys2Proof.Machine.execRmin o s
  | .rmax o => Sys2Proof.Machine.execRmax o s
  | .redfl o => Sys2Proof.Machine.execRedfl o s
  | .prop o => Sys2Proof.Machine.execProp o s
  | .dread o => Sys2Proof.Machine.execDread o s
  | .recyc o => Sys2Proof.Machine.execRecyc o s
  | .dstat o => Sys2Proof.Machine.execDstat o s
  | .fenceAcq o => Sys2Proof.Machine.execFenceAcq o s
  | .fenceRel o => Sys2Proof.Machine.execFenceRel o s
  | .fenceFull o => Sys2Proof.Machine.execFenceFull o s
  | .fenceEng o => Sys2Proof.Machine.execFenceEng o s
  | .wsigSt o => Sys2Proof.Machine.execWsigSt o s
  | .wsigAdd o => Sys2Proof.Machine.execWsigAdd o s
  | .pref o => Sys2Proof.Machine.execPref o s
  | .evf o => Sys2Proof.Machine.execEvf o s
  | .pin o => Sys2Proof.Machine.execPin o s
  | .unpin o => Sys2Proof.Machine.execUnpin o s
  | .lhint o => Sys2Proof.Machine.execLhint o s
  | .binit o => Sys2Proof.Machine.execBinit o s
  | .barr o => Sys2Proof.Machine.execBarr o s
  | .barrx o => Sys2Proof.Machine.execBarrx o s
  | .bwait o => Sys2Proof.Machine.execBwait o s
  | .btry o => Sys2Proof.Machine.execBtry o s
  | .bdrop o => Sys2Proof.Machine.execBdrop o s
  | .bdropRel o => Sys2Proof.Machine.execBdropRel o s
  | .brAny o => Sys2Proof.Machine.execBrAny o s
  | .brAll o => Sys2Proof.Machine.execBrAll o s
  | .brNone o => Sys2Proof.Machine.execBrNone o s
  | .brUni o => Sys2Proof.Machine.execBrUni o s
  | .jmp o => Sys2Proof.Machine.execJmp o s
  | .call o => Sys2Proof.Machine.execCall o s
  | .ret => Sys2Proof.Machine.execRet s
  | .jmpi o => Sys2Proof.Machine.execJmpi o s
  | .calli o => Sys2Proof.Machine.execCalli o s
  | .regang o => Sys2Proof.Machine.execRegang o s
  | .exit o => Sys2Proof.Machine.execExit o s
  | .sleep o => Sys2Proof.Machine.execSleep o s
  | .yield o => Sys2Proof.Machine.execYield o s
  | .yieldw o => Sys2Proof.Machine.execYieldw o s
  | .role o => Sys2Proof.Machine.execRole o s
  | .region o => Sys2Proof.Machine.execRegion o s
  | .emit o => Sys2Proof.Machine.execEmit o s
  | .lnch o => Sys2Proof.Machine.execLnch o s
  | .fork o => Sys2Proof.Machine.execFork o s
  | .fkill o => Sys2Proof.Machine.execFkill o s
  | .park o => Sys2Proof.Machine.execPark o s
  | .unpark o => Sys2Proof.Machine.execUnpark o s
  | .spqOut o => Sys2Proof.Machine.execSpqOut o s
  | .spqIn o => Sys2Proof.Machine.execSpqIn o s
  | .mxcfgNf o => Sys2Proof.Machine.execMxcfgNf o s
  | .mxcfgTile o => Sys2Proof.Machine.execMxcfgTile o s
  | .mxcfgFree o => Sys2Proof.Machine.execMxcfgFree o s
  | .mxres o => Sys2Proof.Machine.execMxres o s
  | .mxrel o => Sys2Proof.Machine.execMxrel o s
  | .mxldb o => Sys2Proof.Machine.execMxldb o s
  | .mxrake o => Sys2Proof.Machine.execMxrake o s
  | .mxbegin o => Sys2Proof.Machine.execMxbegin o s
  | .mxloop o => Sys2Proof.Machine.execMxloop o s
  | .mxend o => Sys2Proof.Machine.execMxend o s
  | .mxzero o => Sys2Proof.Machine.execMxzero o s
  | .mxdrain o => Sys2Proof.Machine.execMxdrain o s
  | .mxchk o => Sys2Proof.Machine.execMxchk o s
  | .sxcopy o => Sys2Proof.Machine.execSxcopy o s
  | .sxgath o => Sys2Proof.Machine.execSxgath o s
  | .sxscat o => Sys2Proof.Machine.execSxscat o s
  | .sxfill o => Sys2Proof.Machine.execSxfill o s
  | .sxflip o => Sys2Proof.Machine.execSxflip o s
  | .sxflipT o => Sys2Proof.Machine.execSxflipT o s
  | .sxcan o => Sys2Proof.Machine.execSxcan o s
  | .sxstat o => Sys2Proof.Machine.execSxstat o s
  | .csrr o => Sys2Proof.Machine.execCsrr o s
  | .csrw o => Sys2Proof.Machine.execCsrw o s
  | .csrwErrinj o => Sys2Proof.Machine.execCsrwErrinj o s
  | .csrwClktest o => Sys2Proof.Machine.execCsrwClktest o s
  | .trap o => Sys2Proof.Machine.execTrap o s
  | .eret o => Sys2Proof.Machine.execEret o s
  | .clkCyc o => Sys2Proof.Machine.execClkCyc o s
  | .clkPts o => Sys2Proof.Machine.execClkPts o s
  | .clkPtp o => Sys2Proof.Machine.execClkPtp o s
  | .devr o => Sys2Proof.Machine.execDevr o s
  | .bkpt o => Sys2Proof.Machine.execBkpt o s
  | .gset o => Sys2Proof.Machine.execGset o s

end Sys2Proof.Machine
end

