-- ==== Sys2Proof/Machine/Step.lean ====
section
/-!
DEFINITION. One step of the machine: a step that has arrived on the agenda; else the next turn of the
beat's issue selection, whose word is fetched, decoded and performed; else the next beat. And the state
in which a given instruction is the next one fetched.
-/

namespace Sys2Proof.Machine

/-- Decode and perform a fetched word; a word that is no instruction traps (R70). -/
noncomputable def runWord (w : BitVec 32) (s : State) : Host.Outcome State Fault Refusal :=
  match decode (bytesOfWord w) with
  | .ok (i, _) => exec i s
  | .error _ => exec (.illegalInstruction w) s

/-- One step. -/
noncomputable def step (s : State) : Host.Outcome State Fault Refusal :=
  match s.agenda with
  | i :: rest => exec i { s with agenda := rest }
  | [] =>
    match s.turns with
    | t :: rest =>
      match takeTurn { s with turns := rest } t with
      | .pass s1 => .next s1
      | .over s1 w => passOver t s1 (runWord w s1)
      | .word s1 w => endTurn t w s1 (runWord w s1)
    | [] => exec .issueBeat s

/-- The state with an instruction where the next step fetches: a resident group of one gang of 16 lanes on
core 0 whose turn has come, with its program counter at address 0, an executable page there in the
core's attribute TLB, the line in its instruction cache and the word in memory. It stands for the load of
a program by a launch. [DESIGN CHOICE: log entry 1] -/
def State.withFetchWord (s : State) (nbits w : Nat) : State := fetchReady s (w % 2 ^ nbits)

end Sys2Proof.Machine
end

