-- ==== Sys2Proof/Safety.lean ====
section
/-!
DEFINITION. What claims call a sound state and a step that keeps it, and the terms in which they say
what a lane word does: when it issues normally (R59, R60, R62, R63, R99, R140), and what it leaves in the
lanes, slices and gang of its stream (R39, R46, R48, R52, R54, R98).
-/

namespace Sys2Proof.Safety

open Sys2Proof.Machine

/-- Every memory of the state is in its canonical form: global memory, the scratchpad windows and the
operand buffers. -/
def MemOk (s : State) : Prop :=
  s.mem.wf = true ∧ (∀ w ∈ s.windows, w.mem.wf = true) ∧ (∀ G ∈ s.groups, G.ob.wf = true)

/-- A property that every step from a state with it keeps. -/
def KeptByStep (P : State → Prop) : Prop := ∀ s t, P s → step s = .next t → P t

/-! ## When a lane word issues normally -/

/-- The word of shape `W` is issued by the stream `x` and nothing holds it or turns it away: its fields
and hints are legal (R63, R70), no interlock waits (R59), and no damaged storage is known (R381). -/
structure Issues (s : State) (x : Cx) (W : Shape) : Prop where
  stream : s.stream? = some x
  legal  : W.legal = true
  hints  : hintsOk x.hints W.srcs W.hdst W.hm = true
  free   : x.pending s W.srcs (W.dest x.hints) = false
  sound  : s.bad = []

/-- The word raises no fault common to lane words: no source is read too early under the stall check
(R60), and no active lane of a slice with PRE reads poison (R62). -/
structure NoCommonFault (s : State) (x : Cx) (W : Shape) : Prop where
  stall  : W.chk = true → ∀ i ∈ x.ss, ∀ sl, x.g.slice? i = some sl → sl.stallchk.getLsbD 0 = true →
    ∀ src ∈ W.srcs, sl.underrun src = false
  poison : ∀ L ∈ x.actives, ∀ sl, x.sliceOf L = some sl → sl.hasStatus sPRE = true →
    poison ∉ at' [] (allVals s.beat x.g W.srcs) L

/-- No active lane's result traps: it raises no exception that `en` enables for it (R99), and carries no
cause of its own. -/
def NoTrap (x : Cx) (en : Nat → FFlags) (outs : Nat → LaneOut) : Prop :=
  ∀ L ∈ x.actives, (outs L).fl &&& en L = 0 ∧ (outs L).cause = none

/-! ## What a lane word leaves -/

/-- Some source names register `r` of the 32 of R50 with a last-use mark (R52). -/
def lastUsed (srcs : List Src) (r : Nat) : Bool :=
  srcs.any fun src => match src with
    | .s7 c => s7last c && s7reg c == r
    | _ => false

/-- The named registers, with poison in those marked (R52). -/
def markN (srcs : List Src) (n : List Word) : List Word :=
  imap (fun r v => if r < 16 ∧ lastUsed srcs r then poison else v) 0 n

/-- The queue, with poison in the places marked (R52). -/
def markQ (srcs : List Src) (q : List Word) : List Word :=
  imap (fun k v => if lastUsed srcs (16 + k) then poison else v) 0 q

/-- The named registers after a write of `v`, if there is one, to destination `d` (R54). -/
def writtenN (d : Dst) (v : Option Word) (n : List Word) : List Word :=
  match d, v with
  | .d5 r, some w => if r < 16 then modAt (fun _ => w) r n else n
  | _, _ => n

/-- The moment registers after a write. -/
def writtenM (d : Dst) (v : Option Word) (m : List Word) : List Word :=
  match d, v with
  | .mom r, some w => modAt (fun _ => w) r m
  | _, _ => m

/-- The predicates after a write; p0 stays true (R47). -/
def writtenP (d : Dst) (v : Option Word) (l : Lane) : BitVec 128 :=
  match d, v with
  | .pred k, some w => (l.setPred k (w != 0)).p
  | _, _ => l.p

/-- What a word with sources `srcs` and destination `d` leaves in a lane that gets the value `v`, or none
where the lane takes no part: the marks, then the destination alone; a push gives every lane an entry, and
poison where there is no value (R39, R48, R54). -/
structure LaneWritten (srcs : List Src) (d : Dst) (v : Option Word) (old new : Lane) : Prop where
  n    : new.n = writtenN d v (markN srcs old.n)
  q    : new.q = if d.pushes then (v.getD poison :: markQ srcs old.q).take 16 else markQ srcs old.q
  m    : new.m = writtenM d v old.m
  p    : new.p = writtenP d v old
  dead : new.dead = old.dead

/-- A slice whose every lane is as `LaneWritten` says and whose word has issued: the counter is 4
further, the hints are spent, `fl` is in the sticky flags, `st` in STATUS, and nothing else has changed
that software reads (R46, R57, R63, R98). -/
structure SliceWritten (beat st : Nat) (srcs : List Src) (d : Dst) (fl : FFlags) (stick : Word)
    (v : Nat → Option Word) (old new : Slice) : Prop where
  pc        : new.pc = old.pc + 4
  hints     : new.hints = Hints.none
  guard     : new.guard = old.guard
  rstack    : new.rstack = old.rstack
  fmode     : new.fmode = old.fmode
  fflags    : new.fflags = old.fflags ||| fl.setWidth 64
  mcov      : new.mcov = old.mcov
  mrho      : new.mrho = old.mrho
  status    : new.status = old.status ||| stick
  stallchk  : new.stallchk = old.stallchk
  trappc    : new.trappc = old.trappc
  trapcause : new.trapcause = old.trapcause
  trapinfo  : new.trapinfo = old.trapinfo
  clock     : new.clock = old.clock + 1 + st
  ready     : new.readyAt = beat + 1 + st
  run       : new.run = old.run
  lanes     : new.lanes.length = old.lanes.length ∧ ∀ j l, old.lanes[j]? = some l →
    ∃ l', new.lanes[j]? = some l' ∧ LaneWritten srcs d (v j) l l'

/-- The sticky bits of STATUS that a word sets in slice `i`: PRD where an active lane read poison
(R62), ISAT, IDZ and MVCL where one carries the mark (R135). -/
def stuck (vals : List (List Word)) (outs : Nat → LaneOut) (i : Nat) (sl : Slice) : Word :=
  (if (rangeFrom 0 4).any fun j => sl.active j && (at' [] vals (4 * i + j)).contains poison then sPRD else 0) |||
  (if slAny LaneOut.isat outs i sl then sISAT else 0) |||
  (if slAny LaneOut.idz outs i sl then sIDZ else 0) |||
  (if slAny LaneOut.mvcl outs i sl then sMVCL else 0)

/-- The gang of the stream with its issuing slices as `R` says, all else in it as before. -/
def GangWith (x : Cx) (R : Nat → Slice → Slice → Prop) (g : Gang) : Prop :=
  g = { x.g with slices := g.slices } ∧ g.slices.length = x.g.slices.length ∧
  ∀ i sl, x.g.slices[i]? = some sl → ∃ sl', g.slices[i]? = some sl' ∧
    if x.ss.contains i then R i sl sl' else sl' = sl

/-- The exceptions of the whole word, which a VRED word gives every issuing slice (R127). -/
def wordFlags (x : Cx) (outs : Nat → LaneOut) : FFlags :=
  x.ss.foldl (fun f i => match x.g.slice? i with | some sl => f ||| slFlags outs i sl | none => f) 0

/-- A lane word with results at once has run (R39, R54): the only change in the whole state is in the
gang of its stream, whose issuing slices hold the results `outs`, each with the exceptions `fl`. -/
def LaneDone (s t : State) (x : Cx) (W : Shape) (fl : Nat → Slice → FFlags) (outs : Nat → LaneOut) : Prop :=
  ∃ g, t = s.setGang g ∧ GangWith x (fun i old new =>
    SliceWritten s.beat W.st W.srcs (W.dest old.hints) (fl i old)
      (stuck (allVals s.beat x.g W.srcs) outs i old) (outAt outs old i) old new) g

/-- A scoreboarded lane word with its results known has been issued (R48, R59, R445): an operation
carries them and returns at a beat within the bounds, its place in the queue or its register waits for it, and
no flag is set before the return (R98). -/
def LaneIssued (s t : State) (x : Cx) (W : Shape) (lo hi : Nat) (outs : Nat → LaneOut) : Prop :=
  ∃ g due op, s.beat + lo ≤ due ∧ due ≤ s.beat + hi ∧
    op.id = s.fresh ∧ op.gang = x.g.id ∧ op.slices = x.ss ∧ op.reg = (W.dest x.hints).named ∧
    op.push = (W.dest x.hints).pushes ∧ op.vals = x.actives.map (fun L => (L, (outs L).val)) ∧
    op.fl = x.ss.filterMap (fun i => (x.g.slice? i).map fun sl => (i, slFlags outs i sl)) ∧
    op.regs = [] ∧ op.dead = [] ∧ op.waits = 0 ∧ op.doc = false ∧
    t = ({ s with choices := s.choices + 1, fresh := s.fresh + 1, ops := s.ops ++ [op] }.setGang g).postAt
      (4 * due) (.resultReturn s.fresh) ∧
    GangWith x (fun i old new =>
      SliceWritten s.beat W.st W.srcs (W.dest old.hints) 0
        (stuck (allVals s.beat x.g W.srcs) outs i old) (fun _ => none) old new) g

end Sys2Proof.Safety
end

