-- ==== Sys2Proof/Claims/LaneForms.lean ====
section
/-!
DEFINITION. The lane words by family, as claims speak of them: each instruction with the shape it issues
in and the result it gives a lane from its source values. A table row pairs a constructor with the rule of
the spec that it stands for.
-/

namespace Sys2Proof.Claims

open Sys2Proof.Machine Sys2Proof.Safety

/-- What a lane word is: its shape, its own causes from the source values, its result in a lane. -/
structure LaneWord where
  shape : Shape
  pre   : Cx → List (List Word) → List (Nat × Word)
  out   : Cx → List (List Word) → Nat → LaneOut

/-- A lane word without causes of its own. -/
def word (W : Shape) (out : Cx → List (List Word) → Nat → LaneOut) : LaneWord := ⟨W, noCauses, out⟩

/-- Where nothing holds the lane word `i`, read as `D`, and it raises no fault, it completes: every active
lane has its result and nothing else changes but what the word's marks and flags say. -/
def RunsAs (i : Instr) (D : LaneWord) : Prop :=
  ∀ s x, Issues s x D.shape → NoCommonFault s x D.shape →
    D.pre x (allVals s.beat x.g D.shape.srcs) = [] →
    NoTrap x x.enOf (D.out x (allVals s.beat x.g D.shape.srcs)) →
    ∃ t, exec i s = .next t ∧
      LaneDone s t x D.shape (slFlags (D.out x (allVals s.beat x.g D.shape.srcs)))
        (D.out x (allVals s.beat x.g D.shape.srcs))

/-- The same of a scoreboarded word, whose results return `lo` to `hi` beats after issue. -/
def IssuesAs (i : Instr) (lo hi : Nat) (D : LaneWord) : Prop :=
  ∀ s x, Issues s x D.shape → NoCommonFault s x D.shape →
    D.pre x (allVals s.beat x.g D.shape.srcs) = [] →
    NoTrap x x.enOf (D.out x (allVals s.beat x.g D.shape.srcs)) →
    ∃ t, exec i s = .next t ∧
      LaneIssued s t x D.shape lo hi (D.out x (allVals s.beat x.g D.shape.srcs))


/-- The two-source integer words (R79, R82), with their B field's kind and their rule on sub-elements. -/
inductive IntForm : Instr → OpAB → Bool → Rule2 → Prop
  | iadd (o : OpAB) : IntForm (.iadd o) o false rIadd
  | isub (o : OpAB) : IntForm (.isub o) o false rIsub
  | iadds (o : OpAB) : IntForm (.iadds o) o false rIadds
  | iaddu (o : OpAB) : IntForm (.iaddu o) o false rIaddu
  | isubs (o : OpAB) : IntForm (.isubs o) o false rIsubs
  | isubu (o : OpAB) : IntForm (.isubu o) o false rIsubu
  | imul (o : OpAB) : IntForm (.imul o) o false rImul
  | imulh (o : OpAB) : IntForm (.imulh o) o false rImulh
  | and (o : OpAB) : IntForm (.and o) o false rAnd
  | or (o : OpAB) : IntForm (.or o) o false rOr
  | xor (o : OpAB) : IntForm (.xor o) o false rXor
  | andn (o : OpAB) : IntForm (.andn o) o false rAndn
  | shl (o : OpAB) : IntForm (.shl o) o false rShl
  | shr (o : OpAB) : IntForm (.shr o) o false rShr
  | sar (o : OpAB) : IntForm (.sar o) o false rSar
  | rotl (o : OpAB) : IntForm (.rotl o) o false rRotl
  | imin (o : OpAB) : IntForm (.imin o) o false rImin
  | imax (o : OpAB) : IntForm (.imax o) o false rImax
  | umin (o : OpAB) : IntForm (.umin o) o false rUmin
  | umax (o : OpAB) : IntForm (.umax o) o false rUmax
  | imulhu (o : OpAB) : IntForm (.imulhu o) o false rImulhu
  | iabsd (o : OpAB) : IntForm (.iabsd o) o false rIabsd
  | iaddG (o : OpAB) : IntForm (.iaddG o) o true rIadd
  | isubG (o : OpAB) : IntForm (.isubG o) o true rIsub
  | iaddsG (o : OpAB) : IntForm (.iaddsG o) o true rIadds
  | iadduG (o : OpAB) : IntForm (.iadduG o) o true rIaddu
  | isubsG (o : OpAB) : IntForm (.isubsG o) o true rIsubs
  | isubuG (o : OpAB) : IntForm (.isubuG o) o true rIsubu
  | imulG (o : OpAB) : IntForm (.imulG o) o true rImul
  | imulhG (o : OpAB) : IntForm (.imulhG o) o true rImulh
  | andG (o : OpAB) : IntForm (.andG o) o true rAnd
  | orG (o : OpAB) : IntForm (.orG o) o true rOr
  | xorG (o : OpAB) : IntForm (.xorG o) o true rXor
  | andnG (o : OpAB) : IntForm (.andnG o) o true rAndn
  | shlG (o : OpAB) : IntForm (.shlG o) o true rShl
  | shrG (o : OpAB) : IntForm (.shrG o) o true rShr
  | sarG (o : OpAB) : IntForm (.sarG o) o true rSar
  | rotlG (o : OpAB) : IntForm (.rotlG o) o true rRotl
  | iminG (o : OpAB) : IntForm (.iminG o) o true rImin
  | imaxG (o : OpAB) : IntForm (.imaxG o) o true rImax
  | uminG (o : OpAB) : IntForm (.uminG o) o true rUmin
  | umaxG (o : OpAB) : IntForm (.umaxG o) o true rUmax
  | imulhuG (o : OpAB) : IntForm (.imulhuG o) o true rImulhu
  | iabsdG (o : OpAB) : IntForm (.iabsdG o) o true rIabsd

/-- A two-source integer word. -/
def intWordOf (o : OpAB) (g : Bool) (r : Rule2) : LaneWord :=
  word (shapeInt o g) fun _ v L => zipElems (widthOf o.w) r (val v L 0) (val v L 1)


/-- PKLO and PKHI (R80): B's kind and whether the high halves are taken. -/
inductive PackForm : Instr → OpAB → Bool → Bool → Prop
  | pklo (o : OpAB) : PackForm (.pklo o) o false false
  | pkloG (o : OpAB) : PackForm (.pkloG o) o true false
  | pkhi (o : OpAB) : PackForm (.pkhi o) o false true
  | pkhiG (o : OpAB) : PackForm (.pkhiG o) o true true

/-- PKLO or PKHI: W = 00 is reserved. -/
def packWordOf (o : OpAB) (g high : Bool) : LaneWord :=
  word { shapeInt o g with legal := o.w != 0#2 } fun _ v L =>
    { val := packHalves (widthOf o.w) high (val v L 0) (val v L 1) }


/-- The one-source integer words (R81): which W they take and their rule. -/
inductive UnForm : Instr → OpA → Bool → Rule1 → Prop
  | clz (o : OpA) : UnForm (.clz o) o true rClz
  | ctz (o : OpA) : UnForm (.ctz o) o true rCtz
  | popc (o : OpA) : UnForm (.popc o) o true rPopc
  | brev (o : OpA) : UnForm (.brev o) o true rBrev
  | ineg (o : OpA) : UnForm (.ineg o) o true rIneg
  | inot (o : OpA) : UnForm (.inot o) o true rInot
  | iabs (o : OpA) : UnForm (.iabs o) o true rIabs
  | bswap (o : OpA) : UnForm (.bswap o) o (o.w != 0#2) rBswap

/-- A one-source integer word. -/
def unWordOf (o : OpA) (legal : Bool) (r : Rule1) : LaneWord :=
  word { shapeUn o with legal := legal } fun _ v L =>
    { val := packElems (widthOf o.w) ((elems (widthOf o.w) (val v L 0)).map (r (widthOf o.w))) }


/-- The multiply-add and dot words (R84, R85), with their rule on three registers. -/
inductive MadForm : Instr → OpABC → (Word → Word → Word → Word) → Prop
  | imad (o : OpABC) : MadForm (.imad o) o rImad
  | imad64 (o : OpABC) : MadForm (.imad64 o) o rImad64
  | imadhs (o : OpABC) : MadForm (.imadhs o) o rImadhs
  | imadhz (o : OpABC) : MadForm (.imadhz o) o rImadhz
  | imadw (o : OpABC) : MadForm (.imadw o) o rImadw
  | idot8 (o : OpABC) : MadForm (.idot8 o) o (rDot 8 4)
  | idot16 (o : OpABC) : MadForm (.idot16 o) o (rDot 16 2)

/-- An IMAD-family word. -/
def madWordOf (o : OpABC) (r : Word → Word → Word → Word) : LaneWord :=
  word (shapeMad o) fun _ v L => { val := r (val v L 0) (val v L 1) (val v L 2) }


/-- The IDIV words (R87): signed, and whether they give the remainder. -/
inductive DivForm : Instr → OpAB → Bool → Bool → Prop
  | idivs (o : OpAB) : DivForm (.idivs o) o true false
  | idivz (o : OpAB) : DivForm (.idivz o) o false false
  | irems (o : OpAB) : DivForm (.irems o) o true true
  | iremz (o : OpAB) : DivForm (.iremz o) o false true

/-- An IDIV word; a zero divisor sets IDZ, or traps under IDZE (R88). -/
def divWordOf (o : OpAB) (sg rem : Bool) : LaneWord :=
  word { shapeInt o false with sb := some (idivBounds o.w), lat := 0 } fun x v L =>
    let qr := List.zipWith (divElem (widthOf o.w) sg) (elems (widthOf o.w) (val v L 0))
      (elems (widthOf o.w) (val v L 1))
    let z := hasZero (widthOf o.w) (val v L 1)
    { val := packElems (widthOf o.w) (qr.map fun e => if rem then e.2 else e.1), idz := z
      cause := if z && (match x.sliceOf L with | some sl => sl.hasStatus sIDZE | none => false) then some 0x06
        else none }


/-- The integer compares (R89). -/
inductive CmpForm : Instr → OpCmp → Bool → Rel2 → Prop
  | icmpeq (o : OpCmp) : CmpForm (.icmpeq o) o false cEq
  | icmpne (o : OpCmp) : CmpForm (.icmpne o) o false cNe
  | icmplt (o : OpCmp) : CmpForm (.icmplt o) o false cLt
  | icmple (o : OpCmp) : CmpForm (.icmple o) o false cLe
  | icmpltz (o : OpCmp) : CmpForm (.icmpltz o) o false cLtz
  | icmplez (o : OpCmp) : CmpForm (.icmplez o) o false cLez
  | icmptst (o : OpCmp) : CmpForm (.icmptst o) o false cTst
  | icmpeqG (o : OpCmp) : CmpForm (.icmpeqG o) o true cEq
  | icmpneG (o : OpCmp) : CmpForm (.icmpneG o) o true cNe
  | icmpltG (o : OpCmp) : CmpForm (.icmpltG o) o true cLt
  | icmpleG (o : OpCmp) : CmpForm (.icmpleG o) o true cLe
  | icmpltzG (o : OpCmp) : CmpForm (.icmpltzG o) o true cLtz
  | icmplezG (o : OpCmp) : CmpForm (.icmplezG o) o true cLez
  | icmptstG (o : OpCmp) : CmpForm (.icmptstG o) o true cTst

/-- An integer compare: true when the relation holds for every sub-element (R89). -/
def cmpWordOf (o : OpCmp) (g : Bool) (r : Rel2) : LaneWord :=
  word (shapeCmp o (srcB g (widthOf o.w) o.b)) fun _ v L =>
    { val := bit ((List.zipWith (r (widthOf o.w)) (elems (widthOf o.w) (val v L 0))
        (elems (widthOf o.w) (val v L 1))).all id) }


/-- The two-source floating-point words (R101, R102). -/
inductive FltForm : Instr → OpAB → Bool → FRule2 → Prop
  | fadd (o : OpAB) : FltForm (.fadd o) o false fAdd
  | fsub (o : OpAB) : FltForm (.fsub o) o false fSub
  | fmul (o : OpAB) : FltForm (.fmul o) o false fMul
  | fmin (o : OpAB) : FltForm (.fmin o) o false fMin
  | fmax (o : OpAB) : FltForm (.fmax o) o false fMax
  | fminn (o : OpAB) : FltForm (.fminn o) o false fMinn
  | fmaxn (o : OpAB) : FltForm (.fmaxn o) o false fMaxn
  | fcpsg (o : OpAB) : FltForm (.fcpsg o) o false fCpsg
  | faddG (o : OpAB) : FltForm (.faddG o) o true fAdd
  | fsubG (o : OpAB) : FltForm (.fsubG o) o true fSub
  | fmulG (o : OpAB) : FltForm (.fmulG o) o true fMul
  | fminG (o : OpAB) : FltForm (.fminG o) o true fMin
  | fmaxG (o : OpAB) : FltForm (.fmaxG o) o true fMax
  | fminnG (o : OpAB) : FltForm (.fminnG o) o true fMinn
  | fmaxnG (o : OpAB) : FltForm (.fmaxnG o) o true fMaxn
  | fcpsgG (o : OpAB) : FltForm (.fcpsgG o) o true fCpsg

/-- A two-source floating-point word, under the setting of each lane's slice (R96). -/
def fltWordOf (o : OpAB) (g : Bool) (r : FRule2) : LaneWord :=
  word (shapeFlt o g) fun x v L =>
    fpOut (fmtOfW o.w).width (List.zipWith (r (fmtOfW o.w) (x.fmOf L)) (elems (fmtOfW o.w).width (val v L 0))
      (elems (fmtOfW o.w).width (val v L 1)))


/-- The FFMA words on one format (R103): signs of product and addend. -/
inductive FmaForm : Instr → OpFma → Bool → Bool → Prop
  | fma (o : OpFma) : FmaForm (.fma o) o false false
  | fms (o : OpFma) : FmaForm (.fms o) o false true
  | fnma (o : OpFma) : FmaForm (.fnma o) o true false
  | fnms (o : OpFma) : FmaForm (.fnms o) o true true

/-- ±(a · b) ± c with one rounding, FP64 or FP32×2. -/
def fmaWordOf (o : OpFma) (negP negC : Bool) : LaneWord :=
  let f := if o.f = 1#1 then fp32 else fp64
  word (shapeFma o.s o.a o.b o.c) fun x v L =>
    fpOut f.width (zip3 (fmaR f (x.fmOf L) negP negC) (elems f.width (val v L 0)) (elems f.width (val v L 1))
      (elems f.width (val v L 2)))


/-- The HDOT words (R104). -/
inductive DotForm : Instr → OpABC → Fmt → Prop
  | bf16 (o : OpABC) : DotForm (.hdotBf16 o) o Machine.bf16
  | f16 (o : OpABC) : DotForm (.hdotF16 o) o fp16

/-- Two products of 16-bit values and an FP32 addend per result, one rounding. -/
def dotWordOf (o : OpABC) (f : Fmt) : LaneWord :=
  word (shapeFma o.s o.a o.b o.c) fun x v L =>
    fpOut 32 ((rangeFrom 0 2).map fun j => hdotR f (x.fmOf L) ((elems 16 (val v L 0)).drop (2 * j))
      ((elems 16 (val v L 1)).drop (2 * j)) (at' 0 (elems 32 (val v L 2)) j))


/-- The FFMA×4 words (R104). -/
inductive Fma4Form : Instr → OpABC → Fmt → Prop
  | bf16 (o : OpABC) : Fma4Form (.ffmaBf16x4 o) o Machine.bf16
  | f16 (o : OpABC) : Fma4Form (.ffmaF16x4 o) o fp16

/-- Four fused multiply-adds on a 16-bit format. -/
def fma4WordOf (o : OpABC) (f : Fmt) : LaneWord :=
  word (shapeFma o.s o.a o.b o.c) fun x v L =>
    fpOut 16 (zip3 (fmaR f (x.fmOf L) false false) (elems 16 (val v L 0)) (elems 16 (val v L 1))
      (elems 16 (val v L 2)))


/-- The unary floating-point words (R105). -/
inductive FunForm : Instr → OpA → FRule1 → Prop
  | fabs (o : OpA) : FunForm (.fabs o) o fAbs
  | fneg (o : OpA) : FunForm (.fneg o) o fNeg
  | frnd (o : OpA) : FunForm (.frnd o) o (fInt none true)
  | frndz (o : OpA) : FunForm (.frndz o) o (fInt (some .rtz) false)
  | fclass (o : OpA) : FunForm (.fclass o) o fClass
  | fgetexp (o : OpA) : FunForm (.fgetexp o) o fGetexp
  | fgetman (o : OpA) : FunForm (.fgetman o) o fGetman

/-- A unary floating-point word. -/
def funWordOf (o : OpA) (r : FRule1) : LaneWord :=
  word (shapeFun o) fun x v L =>
    fpOut (fmtOfW o.w).width ((elems (fmtOfW o.w).width (val v L 0)).map (r (fmtOfW o.w) (x.fmOf L)))

/-- FCVTWL and FCVTWH (R106): the values of one half, widened. -/
def widenWordOf (o : OpA) (high : Bool) : LaneWord :=
  let f := fmtOfW o.w
  let g := if o.w = 1#2 then fp64 else fp32
  word (shapeCvt o (o.w != 0#2)) fun x v L =>
    let es := elems f.width (val v L 0)
    let half := if high then es.drop (es.length / 2) else es.take (es.length / 2)
    fpOut g.width (half.map fun e => convert f g (x.fmOf L) (f.rd (x.fmOf L) e))

/-- FCVTN (R106): the values of A, then those of B, narrowed. -/
def narrowWordOf (o : OpAB) : LaneWord :=
  let g := fmtOfW o.w
  let f := if o.w = 1#2 then fp64 else fp32
  word { shapeFlt o false with hm := hmRMSAT, legal := o.w != 0#2 } fun x v L =>
    fpOut g.width ((elems f.width (val v L 0) ++ elems f.width (val v L 1)).map fun e =>
      convert f g (x.fmOf L) (f.rd (x.fmOf L) e))

/-- FCVTFI and FCVTFU (R107). -/
def toIntWordOf (o : OpA) (sg : Bool) : LaneWord :=
  word (shapeCvt o true) fun x v L =>
    fpOut (fmtOfW o.w).width ((elems (fmtOfW o.w).width (val v L 0)).map fun e =>
      toInt (fmtOfW o.w).width sg (x.fmOf L) ((fmtOfW o.w).rd (x.fmOf L) e))

/-- FCVTIF and FCVTUF (R106). -/
def ofIntWordOf (o : OpA) (sg : Bool) : LaneWord :=
  let f := fmtOfW o.w
  word (shapeCvt o true) fun x v L =>
    fpOut f.width ((elems f.width (val v L 0)).map fun e =>
      let i : Int := if sg then sval f.width e else e
      f.round (x.fmOf L) (x.fmOf L).sat (decide (i < 0)) i.natAbs 0)

/-- FENC (R108): an invalid narrow format register is cause 0x08. -/
def fencWordOf (o : OpNarrow) : LaneWord :=
  ⟨shapeNarrow o, narrowCauses o, fun x v L =>
    fpOut 8 ((x.narrowElems o.n (elems (fmtOfW o.w).width (val v L 0))).map fun e =>
      (nfmtOf (x.nfmt o.n)).encode (x.fmOf L) ((fmtOfW o.w).rd (x.fmOf L) e))⟩

/-- FDEC (R108). -/
def fdecWordOf (o : OpNarrow) : LaneWord :=
  ⟨shapeNarrow o, narrowCauses o, fun x v L =>
    fpOut (fmtOfW o.w).width ((x.narrowElems o.n ((elems 8 (val v L 0)).take (fmtOfW o.w).count)).map fun e =>
      (nfmtOf (x.nfmt o.n)).decodeTo (fmtOfW o.w) (x.fmOf L) e)⟩


/-- The conversion words (R106 to R108). -/
inductive CvtForm : Instr → LaneWord → Prop
  | fcvtwl (o : OpA) : CvtForm (.fcvtwl o) (widenWordOf o false)
  | fcvtwh (o : OpA) : CvtForm (.fcvtwh o) (widenWordOf o true)
  | fcvtn (o : OpAB) : CvtForm (.fcvtn o) (narrowWordOf o)
  | fcvtfi (o : OpA) : CvtForm (.fcvtfi o) (toIntWordOf o true)
  | fcvtfu (o : OpA) : CvtForm (.fcvtfu o) (toIntWordOf o false)
  | fcvtif (o : OpA) : CvtForm (.fcvtif o) (ofIntWordOf o true)
  | fcvtuf (o : OpA) : CvtForm (.fcvtuf o) (ofIntWordOf o false)
  | fenc (o : OpNarrow) : CvtForm (.fenc o) (fencWordOf o)
  | fdec (o : OpNarrow) : CvtForm (.fdec o) (fdecWordOf o)

/-- The floating-point compares (R109). -/
inductive FcmpForm : Instr → OpCmp → FRel → Prop
  | fcmpeq (o : OpCmp) : FcmpForm (.fcmpeq o) o relEq
  | fcmpne (o : OpCmp) : FcmpForm (.fcmpne o) o relNe
  | fcmplt (o : OpCmp) : FcmpForm (.fcmplt o) o relLt
  | fcmple (o : OpCmp) : FcmpForm (.fcmple o) o relLe
  | fcmpun (o : OpCmp) : FcmpForm (.fcmpun o) o relUn
  | fcmpor (o : OpCmp) : FcmpForm (.fcmpor o) o relOr
  | fcmpequ (o : OpCmp) : FcmpForm (.fcmpequ o) o relEqu
  | fcmpgt (o : OpCmp) : FcmpForm (.fcmpgt o) o relGt

/-- A floating-point compare: the outcome over every pair, with NV where R109 raises it. -/
def fcmpWordOf (o : OpCmp) (r : FRel) : LaneWord :=
  word (shapeCmp o (.s7 o.b)) fun x v L =>
    let es := List.zipWith (fcmpElem (fmtOfW o.w) (x.fmOf L) r) (elems (fmtOfW o.w).width (val v L 0))
      (elems (fmtOfW o.w).width (val v L 1))
    { val := bit (es.all (·.1)), fl := es.foldl (fun f e => f ||| e.2) 0 }

/-- FDIV (R110). -/
def fdivWordOf (o : OpAB) : LaneWord :=
  let f := fmtOfW o.w
  word { shapeFlt o false with lat := 0, sb := some (fdivBounds o.w), fp := true } fun x v L =>
    fpOut f.width (List.zipWith (fun a b => f.divR (x.fmOf L) (f.rd (x.fmOf L) a) (f.rd (x.fmOf L) b))
      (elems f.width (val v L 0)) (elems f.width (val v L 1)))

/-- FSQRT (R110). -/
def fsqrtWordOf (o : OpA) : LaneWord :=
  let f := fmtOfW o.w
  word { shapeFun o with lat := 0, sb := some (fdivBounds o.w), fp := true } fun x v L =>
    fpOut f.width ((elems f.width (val v L 0)).map fun a => f.sqrtR (x.fmOf L) (f.rd (x.fmOf L) a))

/-- A CF word (R165, R166) that makes `passes` passes and whose results on a register's values are `f`. -/
def cfWordOf (o : OpCordic) (passes : Nat) (h : Hints) (f : Fmt → FMode → List FVal → List FRes) : LaneWord :=
  word (shapeCf o passes h) fun x v L =>
    fpOut (cfFmt o.t).width (f (cfFmt o.t) { x.fmOf L with sat := false }
      ((elems (cfFmt o.t).width (val v L 0)).map ((cfFmt o.t).rd (x.fmOf L))))


/-- The CF words (R166, R169): passes, and the results on a register's values. -/
inductive CfForm : Instr → OpCordic → Nat → (Fmt → FMode → List FVal → List FRes) → Prop
  | cexp2 (o : OpCordic) : CfForm (.cexp2 o) o 1 fun t fm xs => xs.map (cordicR t fm .exp2 o.i.toNat)
  | clog2 (o : OpCordic) : CfForm (.clog2 o) o 1 fun t fm xs => xs.map (cordicR t fm .log2 o.i.toNat)
  | csin (o : OpCordic) : CfForm (.csin o) o 1 fun t fm xs => xs.map (cordicR t fm .sin o.i.toNat)
  | ccos (o : OpCordic) : CfForm (.ccos o) o 1 fun t fm xs => xs.map (cordicR t fm .cos o.i.toNat)
  | ctanh (o : OpCordic) : CfForm (.ctanh o) o 2 fun t fm xs => xs.map (cordicR t fm .tanh o.i.toNat)
  | csigm (o : OpCordic) : CfForm (.csigm o) o 2 fun t fm xs => xs.map (cordicR t fm .sigm o.i.toNat)
  | crcp (o : OpCordic) : CfForm (.crcp o) o 1 fun t fm xs => xs.map (cordicR t fm .rcp o.i.toNat)
  | crsqrt (o : OpCordic) : CfForm (.crsqrt o) o 2 fun t fm xs => xs.map (cordicR t fm .rsqrt o.i.toNat)
  | csqrt (o : OpCordic) : CfForm (.csqrt o) o 1 fun t fm xs => xs.map (cordicR t fm .sqrt o.i.toNat)
  | catan (o : OpCordic) : CfForm (.catan o) o 1 fun t fm xs => xs.map (cordicR t fm .atan o.i.toNat)
  | catan2 (o : OpCordic) : CfForm (.catan2 o) o 1 fun t fm xs =>
      onPairs (fun lo hi => [atan2R t fm o.i.toNat hi lo, ⟨0, 0⟩]) xs
  | csincos (o : OpCordic) : CfForm (.csincos o) o 1 fun t fm xs =>
      onPairs (fun lo _ => [cordicR t fm .sin o.i.toNat lo, cordicR t fm .cos o.i.toNat lo]) xs
  | chypot (o : OpCordic) : CfForm (.chypot o) o 1 fun t fm xs =>
      onPairs (fun lo hi => [hypotR t fm o.i.toNat hi lo, ⟨0, 0⟩]) xs

/-- The cross-lane words (R124, R125): B's kind, whether a parted slice faults, and the source element. -/
inductive CrossForm : Instr → OpAB → Bool → Bool → XRule → Prop
  | xshf (o : OpAB) : CrossForm (.xshf o) o false true xShf
  | xup (o : OpAB) : CrossForm (.xup o) o false true xUp
  | xdn (o : OpAB) : CrossForm (.xdn o) o false true xDn
  | xbfly (o : OpAB) : CrossForm (.xbfly o) o false true xBfly
  | xget (o : OpAB) : CrossForm (.xget o) o false true xGet
  | xperm (o : OpAB) : CrossForm (.xperm o) o false false xPerm
  | xrot (o : OpAB) : CrossForm (.xrot o) o false true xRot
  | xshfG (o : OpAB) : CrossForm (.xshfG o) o true true xShf
  | xupG (o : OpAB) : CrossForm (.xupG o) o true true xUp
  | xdnG (o : OpAB) : CrossForm (.xdnG o) o true true xDn
  | xbflyG (o : OpAB) : CrossForm (.xbflyG o) o true true xBfly
  | xgetG (o : OpAB) : CrossForm (.xgetG o) o true true xGet
  | xpermG (o : OpAB) : CrossForm (.xpermG o) o true false xPerm
  | xrotG (o : OpAB) : CrossForm (.xrotG o) o true true xRot

/-- A cross-lane word: sub-element i of lane L comes from element `r E n L i b` of the gang's register, poison
where its lane supplies none. -/
def crossWordOf (o : OpAB) (g gang : Bool) (r : XRule) : LaneWord :=
  let w := widthOf o.w
  let n := 64 / w
  ⟨{ st := o.s.toNat, srcs := [.s7 o.a, srcB g w o.b], dst := .d5 o.d.toNat, lat := 2, wide := true },
    fun x _ => if gang then partedCause x else [],
    fun x v L =>
      let E := 4 * x.g.slices.length * n
      let b := elems w (val v L 1)
      { val := packElems w ((rangeFrom 0 n).map fun i =>
          let e := r E n L i b
          fld (if x.supplies (e / n) then val v (e / n) 0 else poison) (e % n * w) w) }⟩


/-- The VRED words (R126): ST, destination, source, the hints they take, and the tree. -/
inductive RedForm : Instr → BitVec 2 → BitVec 5 → BitVec 7 → (OpHmod → Bool) → Red → Prop
  | vsum (o : OpA) : RedForm (.vsum o) o.s o.d o.a hmNone (intRed (widthOf o.w) rIadd 0)
  | vfsum (o : OpA) : RedForm (.vfsum o) o.s o.d o.a hmRM (fltRed (fmtOfW o.w) fAdd 0)
  | vmin (o : OpRedU) : RedForm (.vmin o) o.s o.d o.a hmNone
      (if o.u = 1#1 then intRed (widthOf o.w) rUmin (2 ^ widthOf o.w - 1)
       else intRed (widthOf o.w) rImin (2 ^ (widthOf o.w - 1) - 1))
  | vmax (o : OpRedU) : RedForm (.vmax o) o.s o.d o.a hmNone
      (if o.u = 1#1 then intRed (widthOf o.w) rUmax 0 else intRed (widthOf o.w) rImax (2 ^ (widthOf o.w - 1)))
  | vfmin (o : OpA) : RedForm (.vfmin o) o.s o.d o.a hmRM (fltRed (fmtOfW o.w) fMin ((fmtOfW o.w).infBits false))
  | vfmax (o : OpA) : RedForm (.vfmax o) o.s o.d o.a hmRM (fltRed (fmtOfW o.w) fMax ((fmtOfW o.w).infBits true))
  | vscan (o : OpRedX) : RedForm (.vscan o) o.s o.d o.a hmNone
      { intRed (widthOf o.w) rIadd 0 with scan := true, excl := o.x == 1#1 }
  | vfscan (o : OpRedX) : RedForm (.vfscan o) o.s o.d o.a hmRM
      { fltRed (fmtOfW o.w) fAdd 0 with scan := true, excl := o.x == 1#1 }

/-- The shape of a VRED word. -/
def redShape (st : BitVec 2) (d : BitVec 5) (a : BitVec 7) (hm : OpHmod → Bool) : Shape :=
  { st := st.toNat, srcs := [.s7 a], dst := .d5 d.toNat, lat := 2, hm := hm }

/-- The result of a VRED word in a lane: the value of its tree, with the exceptions that its term met. -/
def redOut (R : Red) (x : Cx) (v : List (List Word)) (L : Nat) : LaneOut :=
  { val := packElems R.w ((rangeFrom 0 (64 / R.w)).map fun i => match R.at x v L i with
      | some n => n.bits
      | none => R.unit)
    fl := ((R.marks x v).filter (·.1 == L)).foldl (fun f m => f ||| m.2) 0 }


/-- The PLOG words (R113): destination and source predicates, and the value in a lane. -/
inductive PlogForm : Instr → BitVec 7 → BitVec 7 → BitVec 7 → (Cx → Nat → Bool) → Prop
  | pand (o : OpPred2) : PlogForm (.pand o) o.d o.a o.b fun x L => x.predOf o.a L && x.predOf o.b L
  | por (o : OpPred2) : PlogForm (.por o) o.d o.a o.b fun x L => x.predOf o.a L || x.predOf o.b L
  | pxor (o : OpPred2) : PlogForm (.pxor o) o.d o.a o.b fun x L => x.predOf o.a L != x.predOf o.b L
  | pandn (o : OpPred2) : PlogForm (.pandn o) o.d o.a o.b fun x L => x.predOf o.a L && !x.predOf o.b L
  | pnot (o : OpPred1) : PlogForm (.pnot o) o.d o.a o.a fun x L => !x.predOf o.a L
  | pmov (o : OpPred1) : PlogForm (.pmov o) o.d o.a o.a fun x L => x.predOf o.a L
  | pany (o : OpPred1) : PlogForm (.pany o) o.d o.a o.a fun x _ => x.actives.any (x.predOf o.a)
  | pall (o : OpPred1) : PlogForm (.pall o) o.d o.a o.a fun x _ => x.actives.all (x.predOf o.a)

/-- A PLOG word. -/
def plogWordOf (d a b : BitVec 7) (f : Cx → Nat → Bool) : LaneWord :=
  word (shapePlog d a b) fun x _ L => { val := bit (f x L) }


/-- The shape of SEL. -/
def selShape (o : OpSel) : Shape where
  st := o.s.toNat
  srcs := [.s7 o.a, .s7 o.b]
  dst := .push
  lat := 1
  preds := [o.p.toNat]
  hdst := true


/-- Predicate transfer and select (R115, R116). -/
inductive PxForm : Instr → LaneWord → Prop
  | pbal (o : OpPx1) : PxForm (.pbal o) (word (shapePx o.s 2 [o.p.toNat]) fun x _ _ => { val := maskOf (x.ballot o.p) })
  | pcnt (o : OpPx1) : PxForm (.pcnt o)
      (word (shapePx o.s 2 [o.p.toNat]) fun x _ _ => { val := BitVec.ofNat 64 (x.ballot o.p).length })
  | pget (o : OpPx1) : PxForm (.pget o) (word (shapePx o.s 1 (rangeFrom o.p.toNat 64)) fun x _ L =>
      { val := match x.g.lane? L with | some l => l.predWord o.p.toNat | none => 0 })
  | sel (o : OpSel) : PxForm (.sel o) (word (selShape o) fun x v L =>
      { val := if x.predOf o.p L != (o.i == 1#1) then val v L 0 else val v L 1 })

/-- A two-operand MAR word by its rule on (μ, v) of both and the covariance (R148, R151). -/
def mar2WordOf (on : Bool) (o : OpMom2) (f : MomMode → FVal → FVal → FVal → FVal → XVal → MomRes) : LaneWord :=
  word (shapeMom o.s o.d [.mom o.a.toNat, .mom o.b.toNat] on) fun x v L =>
    let M := x.momOf L
    let ma := momIn M (muOf (val v L 0)); let va := momIn M (varOf (val v L 0))
    let mb := momIn M (muOf (val v L 1)); let vb := momIn M (varOf (val v L 1))
    momOut M (nanRule [ma, va, mb, vb] fun _ =>
      let c := covar M va vb
      let r := f M ma va mb vb c.1
      { r with fl := r.fl ||| c.2 })

/-- A MAR word with a scalar (R151). -/
def marXWordOf (on : Bool) (o : OpMomX) (f : MomMode → FVal → FVal → FVal → Nat → MomRes) : LaneWord :=
  word (shapeMom o.s o.d [.mom o.a.toNat, .s7 o.x] on) fun x v L =>
    let M := x.momOf L
    let a := val v L 0
    let ma := momIn M (muOf a); let va := momIn M (varOf a)
    let k := momIn M (fld (val v L 1) 0 32)
    momOut M (nanRule [ma, va, k] fun _ => f M ma va k (varOf a))

/-- MNEG and MCPY move bits (R151) under the variance checks of R152. -/
def marMoveOf (on : Bool) (o : OpMom1) (f : Word → Word) : LaneWord :=
  word (shapeMom o.s o.d [.mom o.a.toNat] on) fun x v L =>
    momOut (x.momOf L) { mu := ⟨muOf (f (val v L 0)), 0⟩, v := ⟨varOf (f (val v L 0)), 0⟩ }

/-- An MNL word by its rule on (μ, v) (R153 to R157). -/
def mnlWordOf (on : Bool) (o : OpMom1) (f : MomMode → FVal → FVal → MomRes) : LaneWord :=
  word (shapeMom o.s o.d [.mom o.a.toNat] on) fun x v L =>
    let M := x.momOf L
    let ma := momIn M (muOf (val v L 0)); let va := momIn M (varOf (val v L 0))
    momOut M (nanRule [ma, va] fun _ => f M ma va)

/-- MMAKE (R159). -/
def mmakeWordOf (on : Bool) (o : OpMmake) : LaneWord :=
  word { shapeMom o.s o.d [.s7 o.x] on with hm := hmNone } fun x v L =>
    momOut (x.momOf L) { mu := ⟨muOf (val v L 0), 0⟩, v := ⟨varOf (val v L 0), 0⟩ }

/-- An MCOL form that moves bits (R159). -/
def mcolWordOf (on : Bool) (o : OpMcol) (f : Word → Word) : LaneWord :=
  word (shapeMcol o.s [.mom o.a.toNat] on hmNone) fun _ v L => { val := f (val v L 0) }

/-- MCOL.SD (R159): √VAR. -/
def mcolSdWordOf (on : Bool) (o : OpMcol) : LaneWord :=
  word (shapeMcol o.s [.mom o.a.toNat] on hmRM) fun x v L =>
    let M := x.momOf L
    let r := fp32.sqrtR M.fm (momIn M (varOf (val v L 0)))
    { val := BitVec.ofNat 64 r.bits, fl := r.fl }

/-- MCOL.SMP (R159): σ·z + MU, rounded once. -/
def mcolSmpWordOf (on : Bool) (o : OpMcolX) : LaneWord :=
  word (shapeMcol o.s [.mom o.a.toNat, .s7 o.x] on hmRM) fun x v L =>
    let M := x.momOf L
    let vv := momIn M (varOf (val v L 0))
    let mu := momIn M (muOf (val v L 0))
    let z := momIn M (fld (val v L 1) 0 32)
    let r := nanRule [vv, mu, z] fun _ =>
      let sg := rnSqrt (some vv)
      { mu := roundTerms M.fm [xMul sg.1 (some z), some mu], v := ⟨0, 0⟩, fl := sg.2 }
    { val := BitVec.ofNat 64 r.mu.bits, fl := r.mu.fl ||| r.v.fl ||| r.fl }


/-- The moment words (R151 to R159); `on` says whether moments are enabled for the launch (R142). -/
inductive MomForm : Bool → Instr → LaneWord → Prop
  | madd (on : Bool) (o : OpMom2) : MomForm on (.madd o) (mar2WordOf on o fun M ma va mb vb c =>
      { mu := roundTerms M.fm [some ma, some mb], v := roundTerms M.fv [some va, some vb, xMul (xNat 2) c] })
  | msub (on : Bool) (o : OpMom2) : MomForm on (.msub o) (mar2WordOf on o fun M ma va mb vb c =>
      { mu := roundTerms M.fm [some ma, some mb.negate]
        v := roundTerms M.fv [some va, some vb, xNeg (xMul (xNat 2) c)] })
  | mmul (on : Bool) (o : OpMom2) : MomForm on (.mmul o) (mar2WordOf on o fun M ma va mb vb c =>
      { mu := roundTerms M.fm [xMul (some ma) (some mb), c]
        v := roundTerms M.fv [xMul (xMul (some ma) (some ma)) (some vb), xMul (xMul (some mb) (some mb)) (some va),
          mulV va vb, xMul c c, xMul (xNat 2) (xMul (xMul (some ma) (some mb)) c)] })
  | mscl (on : Bool) (o : OpMomX) : MomForm on (.mscl o) (marXWordOf on o fun M ma va k _ =>
      { mu := roundTerms M.fm [mulV k ma], v := roundTerms M.fv [xMul (mulV k k) (some va)] })
  | mofs (on : Bool) (o : OpMomX) : MomForm on (.mofs o) (marXWordOf on o fun M ma _ k bits =>
      { mu := roundTerms M.fm [some ma, some k], v := ⟨bits, 0⟩ })
  | mneg (on : Bool) (o : OpMom1) : MomForm on (.mneg o) (marMoveOf on o fun a => a ^^^ (1#64 <<< 63))
  | mcpy (on : Bool) (o : OpMom1) : MomForm on (.mcpy o) (marMoveOf on o fun a => a)
  | mrelu (on : Bool) (o : OpMom1) : MomForm on (.mrelu o) (mnlWordOf on o reluMom)
  | mexp (on : Bool) (o : OpMom1) : MomForm on (.mexp o) (mnlWordOf on o expMom)
  | msig (on : Bool) (o : OpMom1) : MomForm on (.msig o)
      (mnlWordOf on o fun M mu v => sigRule M.fm M.fv (some mu) (some v))
  | mtanh (on : Bool) (o : OpMom1) : MomForm on (.mtanh o) (mnlWordOf on o tanhMom)
  | mrcp (on : Bool) (o : OpMom1) : MomForm on (.mrcp o) (mnlWordOf on o rcpMom)
  | msqr (on : Bool) (o : OpMom1) : MomForm on (.msqr o) (mnlWordOf on o sqrMom)
  | mmake (on : Bool) (o : OpMmake) : MomForm on (.mmake o) (mmakeWordOf on o)
  | mcolMu (on : Bool) (o : OpMcol) : MomForm on (.mcolMu o) (mcolWordOf on o fun a => BitVec.ofNat 64 (muOf a))
  | mcolVar (on : Bool) (o : OpMcol) : MomForm on (.mcolVar o) (mcolWordOf on o fun a => BitVec.ofNat 64 (varOf a))
  | mcolPair (on : Bool) (o : OpMcol) : MomForm on (.mcolPair o) (mcolWordOf on o fun a => a)
  | mcolSd (on : Bool) (o : OpMcol) : MomForm on (.mcolSd o) (mcolSdWordOf on o)
  | mcolSmp (on : Bool) (o : OpMcolX) : MomForm on (.mcolSmp o) (mcolSmpWordOf on o)

end Sys2Proof.Claims
end

