-- ==== Sys2Proof/Claims/Streams.lean ====
section
/-!
DEFINITION. The terms in which claims speak of words that move a stream: when one is performed, where the
issuing slices go, when a turn fetches a word, and a word whose lane part is followed by an effect of its own.
-/

namespace Sys2Proof.Claims

open Sys2Proof.Machine Sys2Proof.Safety

/-- A word without lane operands is performed for the stream `x`: no hint but HSCHED is attached (R63), no
interlock waits (R59, R99), and no damaged storage is known (R381). -/
structure StreamReady (s : State) (x : Cx) : Prop where
  stream : s.stream? = some x
  hints  : hintsOk x.hints [] false hmNone = true
  free   : x.pending s [] .none = false
  sound  : s.bad = []

/-- A slice whose word has issued and which goes on at `pc`, ready again after `n` further beats: hints are
spent and the static clock moves (R57, R63). -/
def sent (beat st n : Nat) (pc : Word) (old : Slice) : Slice :=
  { old with
    pc := pc
    hints := Hints.none
    clock := old.clock + 1 + st
    readyAt := beat + 1 + max st n
    since := beat + 1 + max st n }

/-- A slice that a hint word has passed: a beat later, with the hints `h` attached and its address kept as the
first hint's (R63). -/
def hinted (beat : Nat) (h : Hints) (old : Slice) : Slice :=
  { old with
    hints := { h with addr := some (old.hints.addr.getD old.pc) }
    pc := old.pc + 4
    clock := old.clock + 1
    readyAt := beat + 1
    since := beat + 1 }

/-- The only change in the whole state is in the stream's gang, whose issuing slices become `f i` of what they
were; `u` says whether the gang is unified afterwards. -/
def Sends (s t : State) (x : Cx) (u : Bool) (f : Nat → Slice → Slice) : Prop :=
  ∃ g, t = s.setGang { g with unified := u } ∧ GangWith x (fun i old new => new = f i old) g

/-- The stream has gone on: in `t` each of its issuing slices stands at the word after, with no hint attached. -/
def WentOn (t : State) (x : Cx) : Prop :=
  ∃ g, t.gang? x.g.id = some g ∧ ∀ i ∈ x.ss, ∀ old, x.g.slice? i = some old →
    ∃ new, g.slice? i = some new ∧ new.pc = old.pc + 4 ∧ new.hints = Hints.none

/-- The stream of the turn may issue in this beat (R35). -/
structure Granted (s : State) (t : Turn) (x : Cx) : Prop where
  stream : s.streamOf t.ref = some x
  ready  : x.ready s = true
  grants : s.grantsOf x.grp.core x.g.sched < 8
  pipes  : x.pipes.any (s.usedPipes.contains ·) = false

/-- A slice in which a precise fault is taken (R137, R138): H 1, CODE, BK and CAUSE in TRAPCAUSE, the lanes in
TRAPINFO, the return address in TRAPPC, and the counter at TRAPVEC. -/
def trapped (beat : Nat) (vec cause : Word) (lanes : Word) (ret : Word) (old : Slice) : Slice :=
  { old with
    trappc := ret
    trapcause := cause
    trapinfo := lanes
    pc := vec
    hints := Hints.none
    clock := old.clock + 1
    readyAt := beat + 1
    since := beat + 1 }

/-- The stream has a handler and is not inside one (R138). -/
structure CanTrap (x : Cx) : Prop where
  vector  : x.grp.trapvec ≠ 0
  outside : ∀ i ∈ x.ss, ∀ sl, x.g.slice? i = some sl → sl.trapcause.getLsbD 63 = false

/-- Nothing holds the lane word of shape `W`, nothing turns it away, and none of its own causes `cs` is there. -/
structure Passes (s : State) (x : Cx) (W : Shape) (cs : List (Nat × Word)) : Prop where
  issues : Issues s x W
  common : NoCommonFault s x W
  own    : cs = []

/-- The value of source `k` of the word in lane `L` (R50, R53). -/
def src (s : State) (x : Cx) (W : Shape) (L k : Nat) : Word := val (allVals s.beat x.g W.srcs) L k

/-- Every lane gets the value 0, with no flag: the results of a word that has none. -/
def noOut (_ : Nat) : LaneOut := { val := 0 }

/-- A lane word has given each lane `v L`, with no flag raised; nothing else has changed. -/
def Gives (s t : State) (x : Cx) (W : Shape) (v : Nat → Word) : Prop :=
  LaneDone s t x W (slFlags fun L => { val := v L }) fun L => { val := v L }

/-- The word's marks are set and its stream goes on (`LaneDone`, without results); then the effect `e` follows. -/
def Then (s t : State) (x : Cx) (W : Shape) (e : State → State) : Prop :=
  ∃ u, LaneDone s u x W (slFlags noOut) noOut ∧ t = e u

/-- The word's results `outs` are in place and its stream's slices have then become what `post` makes of them,
from the slice before the word and after it; the gang comes out of `fin`. -/
def LaneAfter (s t : State) (x : Cx) (W : Shape) (outs : Nat → LaneOut) (fin : Gang → Gang)
    (post : Nat → Slice → Slice → Slice) : Prop :=
  ∃ g, t = s.setGang (fin g) ∧ GangWith x (fun i old new => ∃ mid,
    SliceWritten s.beat W.st W.srcs (W.dest old.hints) (slFlags outs i old)
      (stuck (allVals s.beat x.g W.srcs) outs i old) (outAt outs old i) old mid ∧ new = post i old mid) g

/-- The per-slice branches (R117): what they decide from the predicate's values in the active lanes. -/
inductive BrForm : Instr → OpBr → (List Bool → Bool) → Prop
  | any (o : OpBr) : BrForm (.brAny o) o fun ps => ps.any id
  | all (o : OpBr) : BrForm (.brAll o) o fun ps => ps.all id
  | none (o : OpBr) : BrForm (.brNone o) o fun ps => !ps.any id

/-- The predicate's values in the active lanes of slice i. -/
def brVotes (x : Cx) (o : OpBr) (i : Nat) (sl : Slice) : List Bool :=
  sl.activePos.map fun j => x.predOf o.p (4 * i + j)

/-- Some issuing slice takes the branch and some does not (R32). -/
def brMixed (x : Cx) (o : OpBr) (dec : List Bool → Bool) : Bool :=
  let outs := x.ss.filterMap fun i => (x.g.slice? i).map fun sl => dec (brVotes x o i sl)
  outs.any id && outs.any (!·)

end Sys2Proof.Claims
end

