-- ==== Sys2Proof/Claims/ControlWords.lean ====
section
/-!
DEFINITION. The shapes and the terms in which claims speak of calls, indirect transfers, predicate writes,
parking and the system words.
-/

namespace Sys2Proof.Claims

open Sys2Proof.Machine Sys2Proof.Safety

/-- The displacement of a transfer: 4 · sext(DISP) (R117, R118). -/
def disp (n : Nat) (d : BitVec n) : Word := d.signExtend 64 <<< (2 : Nat)

/-- CALL (R118), CALLI and JMPI (R119) as lane words: the first two push. -/
def callShape : Shape := { st := 0, srcs := [], dst := .push, lat := 1 }
def calliShape (o : OpJumpI) : Shape := { st := 0, srcs := [.s7 o.a], dst := .push, lat := 1 }
def jmpiShape (o : OpJumpI) : Shape := { st := 0, srcs := [.s7 o.a], dst := .none, lat := 0 }

/-- The address of the word after, in the slice of a lane. -/
def pcAfter (x : Cx) (L : Nat) : Word := match x.sliceOf L with | some sl => sl.pc + 4 | none => 0

/-- What the active lanes of each issuing slice read as target: aligned, and one address in a slice (R119). -/
def TargetsAgree (s : State) (x : Cx) (W : Shape) : Prop :=
  (∀ L ∈ x.actives, (src s x W L 0).toNat % 4 = 0) ∧
  ∀ i ∈ x.ss, ∀ sl, x.g.slice? i = some sl → ∀ j ∈ sl.activePos, ∀ k ∈ sl.activePos,
    src s x W (4 * i + j) 0 = src s x W (4 * i + k) 0

/-- Every issuing slice satisfies a test. -/
def EverySlice (x : Cx) (p : Slice → Prop) : Prop := ∀ i ∈ x.ss, ∀ sl, x.g.slice? i = some sl → p sl

/-- The target that slice `i` reads; none where it has no active lane. -/
def sliceTarget (s : State) (x : Cx) (W : Shape) (i : Nat) (sl : Slice) : Option Word :=
  sl.activePos.head?.map fun j => src s x W (4 * i + j) 0

/-- A word that reads one S7 field `a` and writes no register. -/
def readShape (st : BitVec 2) (a : BitVec 7) : Shape := { st := st.toNat, srcs := [.s7 a], dst := .none, lat := 0 }

/-- PSET (R115). -/
def psetShape (o : OpPset) : Shape := { st := o.s.toNat, srcs := [.s7 o.a, .s7 o.b], dst := .none, lat := 0 }

/-- A word without sources that writes D5 field `d` after one beat, legal under `legal`. -/
def readsTo (st : BitVec 2) (d : BitVec 5) (legal : Bool) : Shape :=
  { st := st.toNat, srcs := [], dst := .d5 d.toNat, lat := 1, legal := legal }

/-- PARK and UNPARK (R128, R129): MOM = 1 is legal in a launch with moments alone. -/
def parkShape (o : OpPark) (mom : Bool) : Shape :=
  { st := o.s.toNat, srcs := [parkSrc o], dst := .none, lat := 0, legal := o.m == 0#1 || mom, wide := true }
def unparkShape (o : OpPark) (mom : Bool) : Shape :=
  { st := o.s.toNat, srcs := [], dst := if o.m = 1#1 then .mom o.r.toNat else .d5 o.r.toNat, lat := 0
    sb := some (1, 64), legal := o.m == 0#1 || mom }

/-- SPQ.out and SPQ.in (R129). -/
def spqShape (o : OpSpq) (sb : Option (Nat × Nat)) : Shape :=
  { st := o.s.toNat, srcs := [], dst := .none, lat := 0, sb := sb }

/-- The rows a slot takes: first from the accumulator share, then from the reserve (R130). -/
def slotOf (s : State) (x : Cx) (rows : Nat) (spq : Bool) (vals : List (Nat × List Word)) : ParkSlot :=
  ⟨spq, vals, min rows (s.freeAcc x.grp), rows - min rows (s.freeAcc x.grp)⟩

/-- The gang's slot `k` holds `p` afterwards. -/
def withSlot (k : Nat) (p : Option ParkSlot) (g : Gang) : Gang := { g with park := modAt (fun _ => p) k g.park }

end Sys2Proof.Claims
end

