-- ==== Sys2Proof/Claims/MemWords.lean ====
section
/-!
DEFINITION. The terms in which claims speak of barriers, scratchpad words and words on global memory: when
they are performed, which bytes they touch, and what a core's buffers hold.
-/

namespace Sys2Proof.Claims

open Sys2Proof.Machine Sys2Proof.Safety

/-! ## Barriers -/

/-- A BAR word on the barrier at `l`, whose scratchpad offset uniform `g` holds, is performed: the offset names
a 32-byte aligned place in the team's window, in a tile that threads own (R245), no LDO of the stream is
outstanding (R221), and no scratchpad access of its gang waits for its passes (R448). -/
structure BarReady (s : State) (x : Cx) (g : BitVec 6) (l : BarLoc) : Prop where
  stream : StreamReady s x
  acq    : x.acqHeld s = false
  reg    : g.toNat < 60
  place  : barAt s x.grp (at' 0 x.g.g g.toNat) = .ok l
  passed : ∀ p ∈ s.passes, p.gang ≠ x.g.id

/-- A release at team scope has nothing to wait for (R247): the team lies on one core, or the core's stores and the
gang's accesses, releases, terms and signals are all acknowledged. -/
def Released (s : State) (x : Cx) : Prop :=
  s.pairTeam x.grp = false ∨
  ((∀ e ∈ s.smb, e.core ≠ x.grp.core) ∧ s.writesOut x.grp.core (fun _ _ => true) = [] ∧ x.opsOut s = [] ∧
    s.flagsOut x.grp.core x.g.id = [] ∧ s.redsOut x.g.id = [] ∧ s.signalsOut x.g.id true = [])

/-- No issuing slice was dropped from the barrier (R251). -/
def NotDropped (x : Cx) (l : BarLoc) : Prop :=
  ∀ b, x.grp.bar? l = some b → ∀ i ∈ x.ss, b.drop.contains (x.g.idx, i) = false

/-- The arrivals of each issuing slice (R247). -/
def arrivals (x : Cx) : List ((Nat × Nat) × Nat) :=
  x.ss.map fun i => ((x.g.idx, i), match x.g.slice? i with | some sl => sl.arrivals | none => 0)

/-- The counts of a registered barrier with arrivals added. -/
def counted (cnt : List ((Nat × Nat) × Nat)) (b : BarReg) : BarReg :=
  { b with cnt := cnt.foldl (fun cs c => match cs.find? (·.1 == c.1) with
      | some old => (c.1, old.2 + c.2) :: cs.filter (·.1 != c.1)
      | none => c :: cs) b.cnt }

/-- The state after an arrival of `n` lanes, with `add` bytes more expected (R247), its phase test still to come. -/
def arrived (s : State) (x : Cx) (st : BitVec 2) (l : BarLoc) (add : Nat) : State :=
  let s1 := (goOn s x st).modGroup x.grp.id fun G => G.modBar l (counted (arrivals x))
  let o := s.bar x.grp.team l
  s1.setBar x.grp.team l { o.carry x.g.pts with
    cnta := o.cnta + ((arrivals x).map (·.2)).sum, xb := (o.xb + add) % 2 ^ 32 }

/-! ## Scratchpad words -/

/-- Scratchpad loads (R227, R228): shape before the rule for pairs, SZ, D and the lane's address. -/
inductive LdsForm : Instr → Shape → BitVec 2 → Nat → (List (List Word) → Nat → Word) → Prop
  | lds (o : OpLB) : LdsForm (.lds o) (shapeLoad o.s o.d.toNat [.s7 o.a] hmNone) o.z o.d.toNat
      fun v L => addrB (val v L 0) o.o.toInt (scratchSize o.z)
  | ldsx (o : OpLX) : LdsForm (.ldsx o) (shapeLoad o.s o.d.toNat [.g7 o.g .whole, .s7 o.x] hmNone) o.z o.d.toNat
      fun v L => addrX (val v L 0) (val v L 1) o.h.toNat

/-- A pair load takes an even named register and the one after (R227). -/
def ldsShape (W : Shape) (z : BitVec 2) (d : Nat) : Shape :=
  { W with legal := W.legal && (!(scratchSize z == 16) || (decide (d < 16) && d % 2 == 0)) }

/-- Scratchpad stores (R231): shape, SZ, the value's field and its place among the sources, the lane's address. -/
inductive StsForm : Instr → Shape → BitVec 2 → BitVec 7 → Nat → (List (List Word) → Nat → Word) → Prop
  | sts (o : OpSB) : StsForm (.sts o) (shapeStore o.s [.s7 o.a, .s7 o.v] hmNone) o.z o.v 1
      fun v L => addrB (val v L 0) o.o.toInt (scratchSize o.z)
  | stsx (o : OpSX) : StsForm (.stsx o) (shapeStore o.s [.g7 (o.g.setWidth 7) .whole, .s7 o.x, .s7 o.v] hmNone)
      o.z o.v 2 fun v L => addrX (val v L 0) (val v L 1) o.h.toNat

def stsShape (W : Shape) (z : BitVec 2) (v : BitVec 7) : Shape :=
  { W with
    srcs := if scratchSize z == 16 then W.srcs ++ [.s7 (nextReg v)] else W.srcs
    legal := W.legal && (!(scratchSize z == 16) || evenN v) }

/-- The bytes that lane L stores: the value's low bytes, and a pair's second register. -/
def stsBytes (z : BitVec 2) (k : Nat) (v : List (List Word)) (L : Nat) : List Byte :=
  leBytes (min (scratchSize z) 8) (val v L k).toNat ++
    (if scratchSize z == 16 then leBytes 8 (val v L (k + 1)).toNat else [])

/-- A window after the stores of an access, lane by lane: lane, window, offset, size, bytes. -/
def storedIn (as : List (Nat × Nat × Nat × Nat × List Byte)) (w : Window) : Window :=
  as.foldl (fun w a => if w.id = a.2.1 then w.write a.2.2.1 a.2.2.2.2 else w) w

/-! ## Global loads and stores -/

/-- Global loads: shape, rule of the checks, how the load reads, the lane's address (R227 to R233). -/
inductive LoadForm : Instr → Shape → AccRule → (State → Cx → LoadMode) → (Cx → List (List Word) → Nat → Word) → Prop
  | ldg (o : OpLB) : LoadForm (.ldg o) (shapeLoad o.s o.d.toNat [.s7 o.a] hmPOL)
      { rd := true, align := 2 ^ o.z.toNat } (fun _ => polLoad (2 ^ o.z.toNat))
      fun _ v L => addrB (val v L 0) o.o.toInt (2 ^ o.z.toNat)
  | ldgx (o : OpLX) : LoadForm (.ldgx o) (shapeLoad o.s o.d.toNat [.g7 o.g .whole, .s7 o.x] hmPOL)
      { rd := true, align := 2 ^ o.z.toNat } (fun _ => polLoad (2 ^ o.z.toNat))
      fun _ v L => addrX (val v L 0) (val v L 1) o.h.toNat
  | ldo (o : OpLdo) : LoadForm (.ldo o)
      { shapeLoad o.s o.d.toNat [.s7 o.a] hmBypass with legal := decide (o.k.toNat ≤ 4) }
      { rd := true, align := if o.z = 0#1 then 4 else 8, scope := some o.k.toNat }
      (fun s x => { size := if o.z = 0#1 then 4 else 8
                    home := decide (3 ≤ o.k.toNat) || (o.k.toNat == 2 && s.pairTeam x.grp) || x.hints.pol == 3
                    fill := x.hints.pol != 3, acq := some o.k.toNat, dclk := decide (3 ≤ o.k.toNat) })
      fun _ v L => addrB (val v L 0) o.o.toInt (if o.z = 0#1 then 4 else 8)

/-- Plain global stores: shape, size, value's place, the lane's address (R231). -/
inductive StoreForm : Instr → Shape → Nat → Nat → (Cx → List (List Word) → Nat → Word) → Prop
  | stg (o : OpSB) : StoreForm (.stg o) (shapeStore o.s [.s7 o.a, .s7 o.v] hmStore) (2 ^ o.z.toNat) 1
      fun _ v L => addrB (val v L 0) o.o.toInt (2 ^ o.z.toNat)
  | stgx (o : OpSX) : StoreForm (.stgx o) (shapeStore o.s [.g7 (o.g.setWidth 7) .whole, .s7 o.x, .s7 o.v] hmStore)
      (2 ^ o.z.toNat) 2 fun _ v L => addrX (val v L 0) (val v L 1) o.h.toNat

/-- Nothing holds or turns away a memory word: its lanes' checks find no fault (R229), no LDO is outstanding
(R221), no entry is missing from the TLB (R192), and no device is out of reach (R419). -/
structure Reaches (s : State) (x : Cx) (W : Shape) (doc : Bool) (A : Accs) (own : List (Nat × Word)) : Prop where
  passes : Passes s x W (own ++ accCauses s A x (allVals s.beat x.g W.srcs))
  goes   : accWait s doc A x (allVals s.beat x.g W.srcs) = none

/-- The accesses of the lanes that act. -/
def accs (s : State) (x : Cx) (W : Shape) (A : Accs) : List LaneAcc :=
  accOk s A x (allVals s.beat x.g W.srcs) []

/-- A scoreboarded memory word has issued with its operation `op`: marks and counter in its stream, the
operation in flight, nothing else (R48, R59). -/
def OpIssued (doc : Bool) (s u : State) (x : Cx) (W : Shape) (op : Op) : Prop :=
  ∃ g, u = { s with fresh := s.fresh + 1, ops := s.ops ++ [op] }.setGang g ∧
    op.id = s.fresh ∧ op.gang = x.g.id ∧ op.slices = x.ss ∧ op.reg = (W.dest x.hints).named ∧
    op.push = (W.dest x.hints).pushes ∧ op.vals = [] ∧ op.regs = [] ∧ op.dead = [] ∧ op.doc = doc ∧
    GangWith x (fun i old new => SliceWritten s.beat W.st W.srcs (W.dest old.hints) 0
      (stuck (allVals s.beat x.g W.srcs) noOut i old) (fun _ => none) old new) g

/-- The byte that a core's store merge buffer holds for an address (R214). -/
def bufByte (s : State) (core part asn dev va : Nat) : Option Byte :=
  match s.smb.find? fun e => e.core == core && e.part == part && e.asn == asn && e.dev == dev &&
      e.va == va / 128 * 128 with
  | some e => if e.mask.getLsbD (va % 128) then e.data[va % 128]? else none
  | none => none

/-! ## Atomics and reductions -/

/-- ATM words (R235): function, sources, hints they accept, legality beside the scope. -/
inductive AtmForm : Instr → OpAT → Nat → List Src → (OpHmod → Bool) → Bool → Prop
  | add (o : OpAT) : AtmForm (.atmAdd o) o 0 [.s7 o.a, .s7 o.b] hmNone true
  | and (o : OpAT) : AtmForm (.atmAnd o) o 1 [.s7 o.a, .s7 o.b] hmNone true
  | or (o : OpAT) : AtmForm (.atmOr o) o 2 [.s7 o.a, .s7 o.b] hmNone true
  | xor (o : OpAT) : AtmForm (.atmXor o) o 3 [.s7 o.a, .s7 o.b] hmNone true
  | min (o : OpAT) : AtmForm (.atmMin o) o 4 [.s7 o.a, .s7 o.b] hmNone true
  | max (o : OpAT) : AtmForm (.atmMax o) o 5 [.s7 o.a, .s7 o.b] hmNone true
  | minz (o : OpAT) : AtmForm (.atmMinz o) o 6 [.s7 o.a, .s7 o.b] hmNone true
  | maxz (o : OpAT) : AtmForm (.atmMaxz o) o 7 [.s7 o.a, .s7 o.b] hmNone true
  | xchg (o : OpAT) : AtmForm (.atmXchg o) o 8 [.s7 o.a, .s7 o.b] hmNone true
  | cas (o : OpAT) : AtmForm (.atmCas o) o 9 [.s7 o.a, .s7 o.b, .s7 (nextReg o.b)] hmNone (evenN o.b)
  | fadd (o : OpAT) : AtmForm (.atmFadd o) o 10 [.s7 o.a, .s7 o.b] hmRM true

/-- The access size of a low SZ bit (R235). -/
def atSize (z : BitVec 1) : Nat := if z = 0#1 then 4 else 8

def atmShape (o : OpAT) (srcs : List Src) (hm : OpHmod → Bool) (legal : Bool) : Shape :=
  { st := o.s.toNat, srcs := srcs, dst := .push, lat := 0, sb := some (1, 1), hdst := true, hm := hm
    legal := wideScope o.k && legal }

/-- An access of a named scope at the address in source 0 of each lane. -/
def atSource (R : AccRule) : Accs := accAll R fun _ v L => val v L 0

/-- RED words (R237): ST, address, value, scope, function, element size. -/
inductive RedWord : Instr → BitVec 2 → BitVec 7 → BitVec 7 → BitVec 3 → Nat → Nat → Prop
  | raddI32 (o : OpRed) : RedWord (.raddI32 o) o.s o.a o.b o.k 0 4
  | raddI64 (o : OpRed) : RedWord (.raddI64 o) o.s o.a o.b o.k 1 8
  | raddF32 (o : OpRed) : RedWord (.raddF32 o) o.s o.a o.b o.k 2 4
  | raddF64 (o : OpRed) : RedWord (.raddF64 o) o.s o.a o.b o.k 3 8
  | rmin (o : OpAT) : RedWord (.rmin o) o.s o.a o.b o.k 4 (atSize o.z)
  | rmax (o : OpAT) : RedWord (.rmax o) o.s o.a o.b o.k 5 (atSize o.z)

/-- A word that reads `srcs`, writes no register, and is legal under `legal`. -/
def plainShape (st : BitVec 2) (srcs : List Src) (legal : Bool) : Shape :=
  { st := st.toNat, srcs := srcs, dst := .none, lat := 0, legal := legal }

/-- FENCE words (R224, R243): acquire, release, engine, full. -/
inductive FenceForm : Instr → OpFence → Bool → Bool → Bool → Bool → Prop
  | acq (o : OpFence) : FenceForm (.fenceAcq o) o true false false false
  | rel (o : OpFence) : FenceForm (.fenceRel o) o false true false false
  | full (o : OpFence) : FenceForm (.fenceFull o) o true true false true
  | eng (o : OpFence) : FenceForm (.fenceEng o) o false false true false

end Sys2Proof.Claims
end

