-- ==== Sys2Proof/Claims/EngineWords.lean ====
section
/-!
DEFINITION. The terms in which claims speak of decide-once words and of the words of the stream and matrix
engines: their forms, when they are performed, and the command each one queues.
-/

namespace Sys2Proof.Claims

open Sys2Proof.Machine Sys2Proof.Safety

/-! ## Decide-once words -/

/-- Decide-once words (R261 to R268): ST, address register, further source registers, the value registers, SC,
legality beside the scope, whether the word writes and reads the cell, and what a lane asks of the home. -/
inductive DocForm (s : State) (x : Cx) : Instr → BitVec 2 → BitVec 7 → List (BitVec 7) → List Nat → BitVec 3 → Bool →
    Bool → Bool → (List (List Word) → LaneAcc → ReqKind) → Prop
  | prop (o : OpDoc) : DocForm s x (.prop o) o.s o.a
      (nextReg o.a :: (rangeFrom 0 (max (docCount o.z) 1)).map fun i => o.b + BitVec.ofNat 7 i)
      (docValueRegs o.b (docCount o.z)) o.k (o.z != 3#2 && evenN o.a && docBok o.b (docCount o.z)) true true
      fun v a => .prop a.lane (docGen v a.lane) (s7reg o.b) (docCount o.z)
        ((((rangeFrom 0 (docCount o.z)).map fun i => leBytes 8 (val v a.lane (2 + i)).toNat).flatten ++
          List.replicate 32 0).take 32) (identity s x.grp x.g.idx a.lane) s.ptp
  | dread (o : OpDoc) : DocForm s x (.dread o) o.s o.a [nextReg o.a] (docValueRegs o.b (docCount o.z)) o.k
      (evenN o.a && docBok o.b (docCount o.z)) false true
      fun v a => .dread a.lane (docGen v a.lane) (s7reg o.b) (docCount o.z)
  | recyc (o : OpDoc1) : DocForm s x (.recyc o) o.s o.a [nextReg o.a] [] o.k (evenN o.a) true false
      fun v a => .recyc a.lane (docGen v a.lane) (identity s x.grp 0 0 / 2 ^ 32)
  | dstat (o : OpDoc1) : DocForm s x (.dstat o) o.s o.a [] [] o.k true false true fun _ a => .dstat a.lane

def docShape (st : BitVec 2) (a : BitVec 7) (more : List (BitVec 7)) (k : BitVec 3) (legal : Bool) : Shape :=
  { st := st.toNat, srcs := Src.s7 a :: more.map Src.s7, dst := .push, lat := 0, sb := some (1, 1), hdst := true
    legal := (k == 3#3 || k == 4#3) && legal }

/-- The cells that the lanes of the word name (R261). -/
def docCells (write reads : Bool) (k : BitVec 3) : Accs :=
  accAll { rd := reads, wr := write, doc := true, align := 64, scope := some k.toNat } fun _ v L => val v L 0

/-- A cell of this device in its own memory. -/
def LocalCell (s : State) (x : Cx) (a : LaneAcc) : Prop :=
  a.dev = 0 ∧ ∀ l, s.tlb? x.grp.core x.grp.part x.grp.asn a.va = some l → l.host = false

/-- Each lane of a decide-once word has asked the home of its cell, in ascending order (R264); requests in one line
look it up once (R273). -/
def asked (x : Cx) (op : Nat) (kind : LaneAcc → ReqKind) (as : List LaneAcc) (s : State) : State :=
  as.foldl (fun t a => (t.send (kind a) x.grp.core x.g.id (some op) x.grp.part x.grp.asn a.va a.dev x.g.pts).modReq t.fresh
    fun q => { q with again := t.reqs.any fun p => p.op == some op && p.onLine q.core q.part q.asn q.dev q.va }) s

/-! ## Engine words -/

/-- A word of an engine is performed: a unified gang (R10), its fields name uniform registers, no LDO is
outstanding (R221), no scratchpad access of its gang waits for its passes (R448), no gang of a greater index of its group
has queued a matrix word in this beat (R317; log entry 58's choice is to let it go first), and its checks find no cause. -/
structure EngineReady (s : State) (x : Cx) (regs : List (BitVec 6)) (causes : List Nat) : Prop where
  stream : StreamReady s x
  acq    : x.acqHeld s = false
  whole  : x.g.unified = true
  regs   : ∀ r ∈ regs, r.toNat < 60
  passed : ∀ p ∈ s.passes, p.gang ≠ x.g.id
  first  : ∀ c ∈ s.mx, c.group = x.grp.id → c.born = s.beat → c.gidx ≤ x.g.idx
  checks : causes = []

/-- The stream data words and their kinds (R278). -/
inductive SxForm : Instr → OpSx → Nat → Prop
  | copy (o : OpSx) : SxForm (.sxcopy o) o 0
  | gath (o : OpSx) : SxForm (.sxgath o) o 1
  | scat (o : OpSx) : SxForm (.sxscat o) o 2
  | fill (o : OpSx) : SxForm (.sxfill o) o 3

/-- The command `c` has joined the matrix queue `ms` as `ns`: behind every command there but those that gangs of a
greater index of its group have queued in the same beat (R317). -/
def MxJoins (c : MxCmd) (ms ns : List MxCmd) : Prop :=
  ∃ a b, ms = a ++ b ∧ ns = a ++ c :: b ∧ (∀ d, b.head? = some d → d.group = c.group ∧ d.born = c.born ∧ c.gidx < d.gidx) ∧
    ∀ d ∈ a, ¬ (d.group = c.group ∧ d.born = c.born ∧ c.gidx < d.gidx ∧ d.st = .queued)

/-- The command that a stream data word queues (R279): its record `bs`, bases, EF, PTS and barrier. -/
def sxCmd (s : State) (x : Cx) (kind : Nat) (bs : List Byte) (sb db : Word) (ef : Bool) (l : BarLoc) : SxCmd where
  id := s.fresh
  core := x.grp.core
  group := some x.grp.id
  part := x.grp.part
  asn := x.grp.asn
  kind := kind
  pat := patOf bs
  sb := sb
  db := db
  ef := ef
  et := x.g.pts
  bar := some l
  prog := none
  launch := none
  st := .queued
  cursor := 0
  landed := []
  cancel := none
  page := none
  acks := []
  far := []

/-- The matrix words that act at issue: ST, registers, checks, and what becomes of the group (R318 to R320). -/
inductive MxNow (s : State) (x : Cx) : Instr → BitVec 2 → List (BitVec 6) → List Nat → (Group → Group) → Prop
  | nf (o : OpEn2) : MxNow s x (.mxcfgNf o) o.s [o.a, o.b] []
      fun G => { G with nfmt := modAt (fun _ => x.uni o.b) (fld (x.uni o.a) 0 4) G.nfmt }
  | tile (o : OpEn2) : MxNow s x (.mxcfgTile o) o.s [o.a, o.b] (mxTile s x.grp (x.uni o.a) (x.uni o.b)).causes
      fun G => { G with z := modAt (fun _ => some (ZTile.zero (mxShape (fld (x.uni o.b) 0 2))
        (mxShape (fld (x.uni o.b) 2 2)) (fld (x.uni o.b) 4 2) ((x.uni o.b).getLsbD 6))) (fld (x.uni o.a) 0 4) G.z }
  | free (o : OpEn1) : MxNow s x (.mxcfgFree o) o.s [o.a] (mxFree s x.grp (x.uni o.a)).causes
      fun G => { G with z := modAt (fun _ => none) (fld (x.uni o.a) 0 4) G.z }
  | res (o : OpEn2) (w off bs) : mxRecord s x.grp (x.uni o.a) = .ok (w, off, bs) →
      MxNow s x (.mxres o) o.s [o.a, o.b] (mxRes s x.grp (x.uni o.a) (x.uni o.b)).causes
      fun G => { G with handles := modAt (fun _ => some (resvOf bs)) (fld (x.uni o.b) 0 3) G.handles }
  | rel (o : OpEn1) : MxNow s x (.mxrel o) o.s [o.a] (highBits (x.uni o.a) 3)
      fun G => { G with handles := modAt (fun _ => none) (fld (x.uni o.a) 0 3) G.handles }
  | rake (o : OpEn2) (w off bs) : mxRecord s x.grp (x.uni o.a) = .ok (w, off, bs) →
      MxNow s x (.mxrake o) o.s [o.a, o.b] (mxRake s x.grp (x.uni o.a) (x.uni o.b)).causes
      fun G => { G with
        rakes := modAt (fun _ => some (rakeOf bs (at' 0 x.grp.nfmt (recNat bs 3 1 % 16)))) (fld (x.uni o.b) 0 2) G.rakes }

/-- A loop's increment: 0 stands for the length of a k-step (R323). -/
def loopStep (x : Cx) (o : OpEn3) (inc : Nat) : Nat :=
  if inc ≠ 0 then inc
  else match x.grp.tile (fld (x.uni o.a) 36 4), at' none x.grp.handles (fld (x.uni o.a) 33 3),
      at' none x.grp.rakes (fld (x.uni o.a) 28 2) with
    | some z, some r, some k => (kLen z.mode k r (at' 0 x.grp.nfmt r.nf).toNat).getD 1
    | _, _, _ => 1

/-- The matrix words that take a queue entry: ST, registers, checks, the command's kind and barrier, and what
becomes of the group's chain (R317, R321 to R332). -/
inductive MxQueued (s : State) (x : Cx) : Instr → BitVec 2 → List (BitVec 6) → List Nat → MxKind → Option BarLoc →
    (Option (Nat × List (Nat × Nat)) → Option (Nat × List (Nat × Nat))) → Prop
  | ldb (o : OpMxldb) (r : Resv) (l : BarLoc) : o.f ≠ 3#2 →
      at' none x.grp.handles (fld (x.uni o.b) 0 3) = some r → engineBar s x.grp (x.uni o.c) = .ok l →
      MxQueued s x (.mxldb o) o.s [o.a, o.b, o.c]
        (mxLdb s x.grp (x.uni o.a) (x.uni o.b) (x.uni o.c) (o.f.getLsbD 0) (o.f.getLsbD 1)).causes
        (.ldb (x.uni o.a) (o.f.getLsbD 0) (fld (x.uni o.b) 40 24) (r.base + fld (x.uni o.b) 16 24) (o.f.getLsbD 1))
        (some l) id
  | start (o : OpSt) : MxQueued s x (.mxbegin o) o.s [] (mxBegin x.grp).causes .chainBegin none
      fun _ => some (s.fresh, [])
  | loop (o : OpEn3) (r : Resv) (k : Rake) : at' none x.grp.handles (fld (x.uni o.a) 33 3) = some r →
      at' none x.grp.rakes (fld (x.uni o.a) 28 2) = some k →
      MxQueued s x (.mxloop o) o.s [o.a, o.b, o.c] (mxLoop x.grp (x.uni o.a) (x.uni o.b) (x.uni o.c)).causes
        (.loop (fld (x.uni o.a) 48 16) (fld (x.uni o.a) 40 8) (fld (x.uni o.a) 36 4) r (at' 0 x.grp.nfmt r.nf) k
          (mxShape (fld (x.uni o.a) 26 2)) (mxShape (fld (x.uni o.a) 24 2)) (fld (x.uni o.b) 40 24)
          (fld (x.uni o.b) 16 24) (loopStep x o (fld (x.uni o.b) 0 16)) (fld (x.uni o.c) 48 16)
          (fld (x.uni o.c) 24 24) (loopStep x o (fld (x.uni o.c) 0 16))) none
        fun ch => ch.map fun c => (c.1, if c.2.any (·.1 == fld (x.uni o.a) 36 4) then c.2
          else c.2 ++ [(fld (x.uni o.a) 36 4, fld (x.uni o.a) 40 8)])
  | done (o : OpEnA) : o.f = 0#1 → o.a = 0#6 →
      MxQueued s x (.mxend o) o.s [] (mxEnd s x.grp none).causes (.chainEnd x.grp.chainTiles) none fun _ => none
  | doneAt (o : OpEnA) (l : BarLoc) : o.f = 1#1 → engineBar s x.grp (x.uni o.a) = .ok l →
      MxQueued s x (.mxend o) o.s [o.a] (mxEnd s x.grp (some (x.uni o.a))).causes (.chainEnd x.grp.chainTiles)
        (some l) fun _ => none
  | zero (o : OpEn1) : MxQueued s x (.mxzero o) o.s [o.a] (mxZero x.grp (x.uni o.a)).causes
      (.zero (fld (x.uni o.a) 0 4)) none id
  | drain (o : OpEn3) (l : BarLoc) : engineBar s x.grp (x.uni o.c) = .ok l →
      MxQueued s x (.mxdrain o) o.s [o.a, o.b, o.c] (mxDrain s x.grp (x.uni o.a) (x.uni o.b) (x.uni o.c)).causes
        (.drain (fld (x.uni o.a) 0 24) (fld (x.uni o.b) 8 24) ((x.uni o.b).getLsbD 6) (fld (x.uni o.b) 4 2)
          (fld (x.uni o.b) 0 4)) (some l) id
  | chk (o : OpEn3) (l : BarLoc) : engineBar s x.grp (x.uni o.c) = .ok l →
      MxQueued s x (.mxchk o) o.s [o.a, o.b, o.c] (mxChk s x.grp (x.uni o.a) (x.uni o.b) (x.uni o.c)).causes
        (.chk (fld (x.uni o.a) 0 24) (fld (x.uni o.b) 0 4) (fld (x.uni o.b) 8 5) ((x.uni o.b).getLsbD 16)) (some l) id
/-! ## Steps of the engines -/

/-- The windows of the machine have numbers of their own. -/
def WindowsApart (s : State) : Prop := ∀ v ∈ s.windows, ∀ w ∈ s.windows, v.id = w.id → v = w

/-- An engine command may land an element of `n` bytes at offset `off` of its group's scratchpad: the place is
there, aligned, and in a tile that the engines own and no other command claims (R282). -/
def Landable (s : State) (G : Group) (cmd off n : Nat) : Prop :=
  ∃ w o, scratchAt s G (BitVec.ofNat 64 off) = some (w, o) ∧ o % n = 0 ∧ (w.tile (o / 4096)).engine = true ∧
    o / 4096 < w.tiles.length ∧
    ((w.tile (o / 4096)).wclaim = some cmd ∨
      ((w.tile (o / 4096)).wclaim = none ∧ (w.tile (o / 4096)).rclaim = []))

/-- Byte `o` of the window `w` is byte `i` of the `n` bytes at offset `off` of the group's scratchpad. -/
def ElemByte (s : State) (G : Group) (off n : Nat) (w : Window) (o i : Nat) : Prop :=
  ∃ p, scratchAt s G (BitVec.ofNat 64 off) = some (w, p) ∧ o = p + i ∧ i < n

/-- Byte `o` of the window `w` is no byte of the command's barrier object (R244). -/
def OffBar (s : State) (c : MxCmd) (G : Group) (w : Window) (o : Nat) : Prop :=
  ∀ l, c.bar = some l → s.winAt G.team l.core = some w → o < l.off ∨ l.off + 32 ≤ o

/-- The engine runs the matrix command `c` of the group `G`, and no storage is damaged. -/
structure MxRuns (s : State) (c : MxCmd) (G : Group) : Prop where
  cmd   : s.mx? c.id = some c
  group : s.group? c.group = some G
  runs  : c.st = .running
  sound : G.fatal = none
  whole : s.bad = []
  apart : WindowsApart s
  own   : ∀ d ∈ s.mx, d.id = c.id → d = c

/-- The command `c` has gone on by `n`, or has left the queue. -/
def MxMoves (s t : State) (c : MxCmd) (n : Nat) (more : Bool) : Prop :=
  if more then ∃ d, t.mx? c.id = some d ∧ d.pos = c.pos + n ∧ d.kind = c.kind ∧ d.st = .running
  else t.mx = s.mx.filter (·.id != c.id)

/-- The tile `zt` of the group holds `z`. -/
def TileIs (t : State) (grp zt : Nat) (z : ZTile) : Prop := ∃ H, t.group? grp = some H ∧ H.tile zt = some z

/-- The engine may land element `e` of the stream command `c` now: it is in flight, not landed, not cancelled, and
behind no earlier element of the same destination (R283). -/
structure SxFlies (s : State) (c : SxCmd) (e : Nat) : Prop where
  cmd    : s.sx? c.id = some c
  runs   : c.st = .running
  direct : c.pat.ind = 0
  ahead  : c.hasLanded e = false
  inside : e < c.pat.count
  fresh  : c.acks.find? (·.1 == e) = none
  goes   : c.cancel = none
  first  : sxBehind s c e 0 = false
  sound  : s.bad = []

end Sys2Proof.Claims
end

