-- ==== Sys2Proof/Claims/HomeTerms.lean ====
section
/-!
DEFINITION. The terms in which claims speak of the steps of memory homes: a request that its home serves at
once, what an answer adds to its operation, and which bytes of memory a write replaces.
-/

namespace Sys2Proof.Claims

open Sys2Proof.Machine

/-- A request that its home serves at once: it is neither held nor served, and stands behind no earlier access of
its gang (R226); its page is mapped by the leaf `l` in the device's own memory, without replicas; its line `r`
stands in L2 as `y`; no core owns the line (R216), the host holds no copy (R410), no remote lease is running
(R423), and nothing is damaged. -/
structure AtHome (s : State) (q : Req) (l : Leaf) (r : LineRef) (y : L2Line) : Prop where
  req    : s.req? q.id = some q
  near   : q.dev = 0
  free   : q.held = none
  ahead  : q.served = false
  first  : s.earlier q = none
  page   : translate s q.part q.asn q.va = (.leaf l, s)
  own    : l.host = false
  plain  : l.mode ≠ 4
  place  : r = l.lineRef q.part q.asn q.va
  line   : s.l2? r = some y
  chip   : r.chip < s.chips.length
  sound  : s.bad = []
  alone  : s.owner? r.line = none
  filter : s.snoop? r.line = none
  leases : s.leaseHold r.line = none
  live   : ∀ G ∈ s.groups, G.replay = none
  forms  : s.mem.wf = true

/-- A write of the request, at its own timestamp or for another device at DCLK (R423), moves the clock by no more
than an interval allows (R209). -/
def InTime (s : State) (q : Req) (r : LineRef) (y : L2Line) : Prop :=
  overInterval (s.chip r.chip) (writeWts y (s.writeTime q)) = false

/-- The decide-once request `q` of this device is at the home of the well-formed cell `c` (R258); the page is
aligned, so that the cell's bytes lie in their line one after another. -/
structure CellAt (s : State) (q : Req) (l : Leaf) (r : LineRef) (y : L2Line) (c : Cell) : Prop where
  home : AtHome s q l r y
  ours : q.src = none
  time : overInterval (s.chip r.chip) (readRts s r y q.t) = false
  key  : l.key q.va = r.line * 128 + q.va % 128
  at64 : q.va % 64 = 0
  cell : cellOf (s.mem.read (l.key q.va) 64) = some c

/-- The line `r` stands in L2 as `y`, no core owns it (R216), no remote lease is running (R423), and nothing is
damaged: its home performs an access of another agent at once. -/
structure Quiet (s : State) (r : LineRef) (y : L2Line) : Prop where
  line   : s.l2? r = some y
  chip   : r.chip < s.chips.length
  sound  : s.bad = []
  alone  : s.owner? r.line = none
  leases : s.leaseHold r.line = none
  forms  : s.mem.wf = true

/-- A write at DCLK to the line moves the clock by no more than an interval allows (R209). -/
def InTimeAt (s : State) (r : LineRef) (y : L2Line) (t : TS) : Prop :=
  overInterval (s.chip r.chip) (writeWts y t) = false

/-- A request for host memory at the bridge: neither held nor served, its page is one of host memory, and
nothing is damaged. -/
structure AtBridge (s : State) (q : Req) (l : Leaf) : Prop where
  req   : s.req? q.id = some q
  free  : q.held = none
  ahead : q.served = false
  first : s.earlier q = none
  page  : translate s q.part q.asn q.va = (.leaf l, s)
  host  : l.host = true
  sound : s.bad = []
  live  : ∀ G ∈ s.groups, G.replay = none
  forms : s.mem.wf = true

/-- Memory holds `f a` at every address `a` that `p` selects, and elsewhere what it held before. -/
def Pokes (s t : State) (p : Nat → Bool) (f : Nat → Byte) : Prop :=
  ∀ a, t.mem.get a = if p a then f a else s.mem.get a

/-- The line's lease after a write at timestamp `t` (R203): WTS = RTS, past every lease granted, and the chiplet's
clock at or past it. -/
def Leased (s t : State) (r : LineRef) (w : TS) : Prop :=
  (∃ z, t.l2? r = some z ∧ z.wts = w ∧ z.rts = w ∧ z.dirty = true) ∧
    (t.chip r.chip).cc = smax (s.chip r.chip).cc w

/-- One more answer has come for the operation of a request: its values and dead lanes have grown so. -/
def Answered (s t : State) (q : Req) (vals : List (Nat × Word)) : Prop :=
  ∀ id o, q.op = some id → s.op? id = some o → ∃ p, t.op? id = some p ∧
    p.vals = o.vals ++ vals ∧ p.dead = o.dead ∧ p.waits = o.waits - 1

/-- The gang's PTS has been raised to `w`. -/
def Raised (s t : State) (gang : Nat) (w : TS) : Prop :=
  ∀ g, s.gang? gang = some g → ∃ h, t.gang? gang = some h ∧ h.pts = smax g.pts w

/-! ## Hub state -/

/-- Nothing of the partition's hub state is damaged (R379). -/
def HubSound (s : State) (part : Nat) : Prop := ∀ d ∈ s.bad, d.loc ≠ .hubPartition part

/-- The steps that use a partition's hub state. [DEDUCED: log entry 39] -/
inductive HubStep : Nat → Instr → Prop
  | doorbell (part queue wi : Nat) : HubStep part (.doorbellWrite part queue wi)
  | accept (part queue : Nat) : HubStep part (.launchAccept part queue)
  | copy (part lid : Nat) : HubStep part (.copyLaunch part lid)
  | release (part lid : Nat) : HubStep part (.releaseLaunch part lid)
  | complete (part lid : Nat) : HubStep part (.launchComplete part lid)
  | gather (part lid stage : Nat) : HubStep part (.gatherTimeout part lid stage)
  | allowance (part lid : Nat) : HubStep part (.stageAllowance part lid)
  | place (part lid : Nat) : HubStep part (.placeTeam part lid)

/-- The bytes of line `n`. -/
def lineOf (s : State) (n : Nat) : List Byte := s.mem.read (n * 128) 128

/-- Is `a` one of the `n` bytes from `k` up? -/
def within (k n a : Nat) : Bool := decide (k ≤ a) && decide (a < k + n)

end Sys2Proof.Claims
end

