-- ==== Sys2Proof/Claims/IntRules.lean ====
section
/-!
DEFINITION. The table of R79 in fixed-width arithmetic: what each rule on sub-elements is to give, said
without reference to the model's own rules.
-/

namespace Sys2Proof.Claims

open Sys2Proof.Machine

/-- Sub-element i of a register at the width that W selects (R75). -/
def elemAt (x : Word) (W : BitVec 2) (i : Nat) : BitVec (widthOf W) := x.extractLsb' (i * widthOf W) (widthOf W)

/-- sats (R75): the nearest value of [MINS, MAXS]. -/
def sats (w : Nat) (v : Int) : BitVec w := BitVec.ofInt w (max (-(2 ^ (w - 1) : Nat)) (min ((2 ^ (w - 1) : Nat) - 1) v))

/-- A value outside [MINS, MAXS]. -/
def outS (w : Nat) (v : Int) : Prop := v < -(2 ^ (w - 1) : Nat) ∨ ((2 ^ (w - 1) : Nat) : Int) ≤ v

/-- A rule of the model and the entry of R79's table it stands for. -/
inductive IntRule : Rule2 → ((w : Nat) → BitVec w → BitVec w → BitVec w) → Prop
  | iadd : IntRule rIadd fun _ a b => a + b
  | isub : IntRule rIsub fun _ a b => a - b
  | iadds : IntRule rIadds fun w a b => sats w (a.toInt + b.toInt)
  | iaddu : IntRule rIaddu fun w a b => BitVec.ofNat w (min (a.toNat + b.toNat) (2 ^ w - 1))
  | isubs : IntRule rIsubs fun w a b => sats w (a.toInt - b.toInt)
  | isubu : IntRule rIsubu fun _ a b => if b ≤ a then a - b else 0
  | imul : IntRule rImul fun _ a b => a * b
  | imulh : IntRule rImulh fun w a b => BitVec.ofInt w (a.toInt * b.toInt / (2 ^ w : Nat))
  | and : IntRule rAnd fun _ a b => a &&& b
  | or : IntRule rOr fun _ a b => a ||| b
  | xor : IntRule rXor fun _ a b => a ^^^ b
  | andn : IntRule rAndn fun _ a b => a &&& ~~~b
  | shl : IntRule rShl fun _ a b => a <<< b.toNat
  | shr : IntRule rShr fun _ a b => a >>> b.toNat
  | sar : IntRule rSar fun _ a b => a.sshiftRight b.toNat
  | rotl : IntRule rRotl fun _ a b => a.rotateLeft b.toNat
  | imin : IntRule rImin fun _ a b => if b.slt a then b else a
  | imax : IntRule rImax fun _ a b => if a.slt b then b else a
  | umin : IntRule rUmin fun _ a b => if b < a then b else a
  | umax : IntRule rUmax fun _ a b => if a < b then b else a
  | imulhu : IntRule rImulhu fun w a b => BitVec.ofNat w (a.toNat * b.toNat / 2 ^ w)
  | iabsd : IntRule rIabsd fun w a b => BitVec.ofNat w (a.toInt - b.toInt).natAbs

end Sys2Proof.Claims
end

