-- ==== Sys2Proof/Certificates/Slice0/Obligations.lean ====
section
/-!
DEFINITION. The statements of this slice for the provers: what the instructions and the machine do, as the
numbered rules of the spec say it.
-/

open Sys2Proof Sys2Proof.Machine Sys2Proof.Safety Sys2Proof.Claims

/-- Each of the 44 two-source integer words (IADD to IABSD and PKLO, PKHI, with a lane or a uniform B) that
nothing holds and that raises no fault answers a next state: every active lane's destination holds the
rule's result, inactive lanes and everything else are unchanged but for the marks, the counter and the
sticky bits. (R79, R80, R82, R39) -/
def Obligations.IntegerWords : Prop :=
  (∀ i o g r, IntForm i o g r → RunsAs i (intWordOf o g r)) ∧
  ∀ i o g h, PackForm i o g h → RunsAs i (packWordOf o g h)

/-- CLZ, CTZ, POPC, BREV, INEG, INOT, IABS, BSWAP and IMAD, IMAD64, IMADHS, IMADHZ, IMADW, IDOT8, IDOT16
complete when nothing holds them and they raise no fault, with the rule's result in every active lane's
destination and nothing else changed but marks, counter and sticky bits. (R81, R82, R84, R85) -/
def Obligations.UnaryAndMultiplyAddWords : Prop :=
  (∀ i o l r, UnForm i o l r → RunsAs i (unWordOf o l r)) ∧
  ∀ i o r, MadForm i o r → RunsAs i (madWordOf o r)

/-- The 14 ICMP forms and PAND, POR, PXOR, PANDN, PNOT, PMOV, PANY, PALL complete when nothing holds them:
the destination predicate of every active lane holds the outcome (p0 stays true), no queue entry is pushed,
and nothing else changes but marks and the counter. (R89, R113, R47) -/
def Obligations.ComparesAndPredicateLogic : Prop :=
  (∀ i o g r, CmpForm i o g r → RunsAs i (cmpWordOf o g r)) ∧
  ∀ i d a b f, PlogForm i d a b f → RunsAs i (plogWordOf d a b f)

/-- The 16 two-source words, FMA, FMS, FNMA, FNMS, HDOT, FFMA×4 and the seven unary words complete when
nothing holds them and no enabled exception is raised: results under each lane's own setting in the active
lanes, exceptions of each slice's active lanes in its sticky flags, all else unchanged but marks and
counter. (R98, R101, R103, R104, R105) -/
def Obligations.FloatingPointWords : Prop :=
  (∀ i o g r, FltForm i o g r → RunsAs i (fltWordOf o g r)) ∧
  (∀ i o p c, FmaForm i o p c → RunsAs i (fmaWordOf o p c)) ∧
  (∀ i o f, DotForm i o f → RunsAs i (dotWordOf o f)) ∧
  (∀ i o f, Fma4Form i o f → RunsAs i (fma4WordOf o f)) ∧
  ∀ i o r, FunForm i o r → RunsAs i (funWordOf o r)

/-- FCVTWL, FCVTWH, FCVTN, FCVTFI, FCVTFU, FCVTIF, FCVTUF, FENC and FDEC (with a valid narrow format
register) and the eight FCMP words complete when nothing holds them and no enabled exception is raised, with
results in the active lanes and exceptions in the sticky flags, all else unchanged but marks and counter.
(R106, R107, R108, R109) -/
def Obligations.ConversionsAndFloatCompares : Prop :=
  (∀ i D, CvtForm i D → RunsAs i D) ∧
  ∀ i o r, FcmpForm i o r → RunsAs i (fcmpWordOf o r)

/-- IDIVS, IDIVZ, IREMS, IREMZ, FDIV, FSQRT and the 13 CF words, when nothing holds them and they raise no
fault, issue an operation that carries the results of the active lanes and whose return falls due within the
bounds of R445 (exactly at P·(n + 2) + 4 beats for a CF word, whose unit must be free); their destination
waits for it, and no flag is set yet but IDZ, which IDIV and IREM show at their issue (the model's reading,
log entry 94). (R59, R87, R110, R165, R166, R169, R173, R445) -/
def Obligations.ScoreboardedLaneWords : Prop :=
  (∀ i o sg rem, DivForm i o sg rem → IssuesAs i (idivBounds o.w).1 (idivBounds o.w).2 (divWordOf o sg rem)) ∧
  (∀ o, IssuesAs (.fdiv o) (fdivBounds o.w).1 (fdivBounds o.w).2 (fdivWordOf o)) ∧
  (∀ o, IssuesAs (.fsqrt o) (fdivBounds o.w).1 (fdivBounds o.w).2 (fsqrtWordOf o)) ∧
  ∀ i o p f, CfForm i o p f → ∀ s x, Issues s x (cfWordOf o p x.hints f).shape →
    NoCommonFault s x (cfWordOf o p x.hints f).shape → cfBusy s x = false →
    NoTrap x x.enOf ((cfWordOf o p x.hints f).out x (allVals s.beat x.g [.s7 o.a])) →
    ∃ t, exec i s = .next t ∧ LaneIssued s t x (cfWordOf o p x.hints f).shape
      (p * (o.i.toNat + 2) + 4) (p * (o.i.toNat + 2) + 4)
      ((cfWordOf o p x.hints f).out x (allVals s.beat x.g [.s7 o.a]))

/-- XSHF, XUP, XDN, XBFLY, XGET, XPERM, XROT with a lane or a uniform B complete when nothing holds them,
the gang is unified (XPERM in a parted slice too) and they raise no fault: sub-element i of lane L becomes
the element that the rule of R124 names, poison from a lane that supplies none, which a lane of a slice that
has ended or retired does not either (the model's reading, log entry 43); nothing else changes but marks and
counter. (R124, R125) -/
def Obligations.CrossLaneWords : Prop :=
  ∀ i o g gang r, CrossForm i o g gang r → RunsAs i (crossWordOf o g gang r)

/-- VSUM, VFSUM, VMIN, VMAX, VFMIN, VFMAX, VSCAN and VFSCAN complete in a unified gang when nothing holds
them and no exception that the lowest-numbered live slice enables is raised: every active lane gets the
value of the tree of R127, every issuing slice the exceptions of the whole word. (R126, R127) -/
def Obligations.Reductions : Prop :=
  ∀ i st d a hm R, RedForm i st d a hm R → ∀ s x, Issues s x (redShape st d a hm) →
    NoCommonFault s x (redShape st d a hm) → x.g.unified = true →
    NoTrap x x.redEn (redOut R x (allVals s.beat x.g [.s7 a])) →
    ∃ t, exec i s = .next t ∧
      LaneDone s t x (redShape st d a hm) (fun _ _ => wordFlags x (redOut R x (allVals s.beat x.g [.s7 a])))
        (redOut R x (allVals s.beat x.g [.s7 a]))

/-- PBAL pushes the ballot of the active lanes, PCNT its count, PGET 64 predicates of the lane and SEL the
operand its predicate chooses, in every active lane and with nothing else changed but marks and counter,
when nothing holds them and they raise no fault. (R115, R116) -/
def Obligations.PredicateTransferAndSelect : Prop :=
  ∀ i D, PxForm i D → RunsAs i D

/-- The seven MAR, the six MNL, MMAKE and the five MCOL words complete when moments are enabled for the
launch, nothing holds them, no enabled exception is raised and no variance is negative without clamping: the
moment register or destination of every active lane holds the result, nothing else changes but marks,
counter and sticky bits. The model's readings: MNEG and MCPY check the variance and turn −0 into +0 (log
entry 55), the square root of a negative intermediate (log entry 57), and MSIG and MTANH of a divisor that
is 0 (log entry 99). (R142, R148, R149, R151, R153, R159) -/
def Obligations.MomentWords : Prop :=
  ∀ i s x D, MomForm (momOn s) i D → Issues s x D.shape → NoCommonFault s x D.shape →
    NoTrap x x.enOf (D.out x (allVals s.beat x.g D.shape.srcs)) →
    ∃ t, exec i s = .next t ∧
      LaneDone s t x D.shape (slFlags (D.out x (allVals s.beat x.g D.shape.srcs)))
        (D.out x (allVals s.beat x.g D.shape.srcs))

/-- At every width and for every sub-element, the result of each of the 22 rules of R79 (all but PKLO and
PKHI) is the one that R79's table names, written in fixed-width arithmetic on the operands' sub-elements: no
carry or shift crosses a sub-element boundary. At every width, IADDS, IADDU, ISUBS and ISUBU carry the ISAT
mark in a lane exactly when the exact sum or difference of some pair of sub-elements lies outside the range
of the form; no other two-source rule of R79 carries it. (R75, R79, R135) -/
def Obligations.IntegerResultRules : Prop :=
  (∀ r f, IntRule r f → ∀ (W : BitVec 2) (a b : Word) i, i < 64 / widthOf W →
    elemAt (zipElems (widthOf W) r a b).val W i = f (widthOf W) (elemAt a W i) (elemAt b W i)) ∧
  ((∀ (W : BitVec 2) (a b : Word),
    ((zipElems (widthOf W) rIadds a b).isat = true ↔
      ∃ i, i < 64 / widthOf W ∧ outS (widthOf W) ((elemAt a W i).toInt + (elemAt b W i).toInt)) ∧
    ((zipElems (widthOf W) rIsubs a b).isat = true ↔
      ∃ i, i < 64 / widthOf W ∧ outS (widthOf W) ((elemAt a W i).toInt - (elemAt b W i).toInt)) ∧
    ((zipElems (widthOf W) rIaddu a b).isat = true ↔
      ∃ i, i < 64 / widthOf W ∧ 2 ^ widthOf W ≤ (elemAt a W i).toNat + (elemAt b W i).toNat) ∧
    ((zipElems (widthOf W) rIsubu a b).isat = true ↔
      ∃ i, i < 64 / widthOf W ∧ (elemAt a W i).toNat < (elemAt b W i).toNat)) ∧
  ∀ r f, IntRule r f → r ≠ rIadds → r ≠ rIaddu → r ≠ rIsubs → r ≠ rIsubu →
    ∀ w a b, (zipElems w r a b).isat = false)

/-- For every well-formed instruction that has a word, with every operand at every value its encoding
admits, decoding the word's four bytes in memory order, whatever bytes follow, gives exactly that
instruction and the bytes that follow. (R46, R55, R68, R70) -/
def Obligations.DecodeGivesBackWhatEncodeMade : Prop :=
  ∀ i w rest, i.wf = true → encode i = some w → decode (bytesOfWord w ++ rest) = .ok (i, rest)

/-- Whatever word the decoder accepts, the instruction it gives is well formed and encodes to that very
word: no bit of a word is ignored, and no two words decode to one instruction. (R55, R68, R70) -/
def Obligations.EncodeGivesBackWhatDecodeRead : Prop :=
  ∀ w i, decodeWord w = .ok i → i.wf = true ∧ encode i = some w

/-- IADD.64 n2, n1, −1 is 0x201880DF, FENCE.full with device scope is 0xC4020003, CEXP2.f32 with 24
iterations n3, n1 is 0x60300C08, MMAKE m1, n1 is 0x8C020004, CSRW ERRINJ, n5 is 0xF4013C05 and HNOP is 0.
(R50, R53, R55, R68) -/
def Obligations.WordsOfTheSpec : Prop :=
  (∃ o, decodeWord 0x201880DF#32 = .ok (.iaddG o) ∧ o.w = 3#2 ∧ o.d = 2#5 ∧ o.a = 1#7 ∧ o.b = 95#7 ∧ o.s = 0#2) ∧
  (∃ o, decodeWord 0xC4020003#32 = .ok (.fenceFull o) ∧ o.k = 3#3) ∧
  (∃ o, decodeWord 0x60300C08#32 = .ok (.cexp2 o) ∧ o.d = 3#5 ∧ o.a = 1#7 ∧ o.i = 24#5 ∧ o.t = 0#2) ∧
  (∃ o, decodeWord 0x8C020004#32 = .ok (.mmake o) ∧ o.d = 1#4 ∧ o.x = 1#7) ∧
  (∃ o, decodeWord 0xF4013C05#32 = .ok (.csrwErrinj o) ∧ o.x = 5#7) ∧
  decodeWord 0#32 = .ok .hnop

/-- A word whose primary opcode is 0x0B, 0x3E or 0x3F decodes to the word that raises the illegal-
instruction trap, and to nothing else; no word decodes to an ill-formed instruction. (R68, R70) -/
def Obligations.ReservedPrimariesTrap : Prop :=
  (∀ w : BitVec 32, w.extractLsb' 26 6 = 0x0B#6 ∨ w.extractLsb' 26 6 = 0x3E#6 ∨ w.extractLsb' 26 6 = 0x3F#6 →
    decodeWord w = .ok (.illegalInstruction w)) ∧
  ∀ w i, decodeWord w = .ok i → i.wf = true

/-- With nothing on the agenda, when the stream of the next turn is granted and the word fetched at its
counter decodes to i, step is exec of i in the state where that stream is current, and then: a word held at
issue leaves its turn uncharged; any other charges its grant and pipes to the beat and starts the prefetch
its hint asks for. A word that does not decode raises the illegal-instruction trap. A ready stream that is
not granted, because 8 streams of its scheduler are granted or one of its home pipes is used, performs
nothing; where its word would be held at issue it is looked at again in the next beat (the model's choice,
log entry 7). (R35, R46) -/
def Obligations.StepRunsTheDecodedWord : Prop :=
  (∀ s t rest x w, s.agenda = [] → s.turns = t :: rest → Granted { s with turns := rest } t x →
    fetch { s with turns := rest } x = .word w →
    let s1 := { s with turns := rest, cur := some t.ref, held := false }
    (∀ i r, decode (bytesOfWord w) = .ok (i, r) →
      (∀ u, exec i s1 = .next u → u.held = true → step s = .next { u with cur := none, held := false }) ∧
      (∀ u, exec i s1 = .next u → u.held = false → ∀ y, s1.streamOf t.ref = some y →
        step s = .next ((State.charge { u with cur := none, held := false } y).prefetch y w)) ∧
      ∀ f, exec i s1 = .fault f → step s = .fault f) ∧
    ∀ e, decode (bytesOfWord w) = .error e → step s = endTurn t w s1 (exec (.illegalInstruction w) s1)) ∧
  ∀ s t rest x w, s.agenda = [] → s.turns = t :: rest → State.streamOf { s with turns := rest } t.ref = some x → x.ready { s with turns := rest } = true →
    x.shutOut s = true → fetch { s with turns := rest } x = .word w →
    let s1 := { s with turns := rest, cur := some t.ref, held := false }
    let z := { s with turns := rest, cur := none, held := false }
    (∀ i r u, decode (bytesOfWord w) = .ok (i, r) → exec i s1 = .next u →
      (u.held = true → step s = .next (stall z x)) ∧ (u.held = false → step s = .next z)) ∧
    ∀ e u, decode (bytesOfWord w) = .error e → exec (.illegalInstruction w) s1 = .next u →
      (u.held = true → step s = .next (stall z x)) ∧ (u.held = false → step s = .next z)

/-- For a counter that names this device, with the page in the core's attribute TLB, executable, and the
line in its instruction cache, the word fetched is the little-endian value of the four bytes at the
counter's address; a page that is not executable gives cause 0x11. An address outside the regions gives
cause 0x10: one with a bit of 63:61 set, one with a DEV other than 0 on a device without ports, and one with
a DEV of 4,609 or more on a device that has joined its domain. (R46, R179, R192, R418) -/
def Obligations.FetchReadsTheWordInMemoryOrder : Prop :=
  (∀ s x, gaddr s x.pc = none → fetch s x = .fault 0x10) ∧
  (∀ s a, (fld a 61 3 ≠ 0 → gaddr s a = none) ∧ (s.ports = false → fld a 48 13 ≠ 0 → gaddr s a = none) ∧
    (s.joined = true → 4609 ≤ fld a 48 13 → gaddr s a = none) ∧
    (fld a 61 3 = 0 → fld a 48 13 = 0 → gaddr s a = some (0, fld a 0 48))) ∧
  ∀ s x va, gaddr s x.pc = some (0, va) → ∀ l, s.tlb? x.grp.core x.grp.part x.grp.asn va = some l →
    (l.x = false → fetch s x = .fault 0x11) ∧
    (l.x = true → s.icache.contains (x.grp.core, x.grp.part, x.grp.asn, va / 128) = true →
      fetch s x = .word (BitVec.ofNat 32 ((s.peekCode x.grp.part x.grp.lid (l.key va)).toNat +
        256 * ((s.peekCode x.grp.part x.grp.lid (l.key (va + 1))).toNat +
        256 * ((s.peekCode x.grp.part x.grp.lid (l.key (va + 2))).toNat +
        256 * (s.peekCode x.grp.part x.grp.lid (l.key (va + 3))).toNat)))))

/-- In a stream with a handler that is not inside it, TRAP and BKPT with debug halt off save the address of
the word after, and an illegal word that of its first hint or its own; TRAPCAUSE holds H, the code, BK and
the cause (0x0E or 0x01), TRAPINFO the active lanes, the counter goes to TRAPVEC, and nothing else in the
machine changes: registers, queue, predicates, guard and return stack stand, and a unified gang stays
unified; a replay that meets the fault is marked for abandoning (R393). That TRAPINFO is all active lanes
for a fault of the whole word is log entry 87's choice. BKPT with debug halt on lets its stream go on at the
word after, and its group stops as the next beat begins: TRAPPC of every slice is then where it goes on (its
first attached hint or its next word, or the address after its wait), HALTED and the time are noted, H and
every other register stand, no stream of the group is ready, and other groups are not touched (log entry 46
holds the corners). In a stream whose slices all have H set, ERET sends each slice to its TRAPPC with H = 0
and the rest of TRAPCAUSE and every other register unchanged; the gang parts if the slices' counters then
differ. Where some slice's H is 0 it raises the illegal-instruction trap. Where TRAPVEC is 0 or a slice of
the stream has H set, TRAP ends the group: it is marked fatal with cause 0x0E unless it failed before,
GROUP_END is set going, and no gang, register or byte of memory changes; a group that failed before stays as
it was. (R70, R132, R137, R138, R435, R72) -/
def Obligations.TrapsEnterTheHandler : Prop :=
  (((∀ s x, CanTrap x →
    (StreamReady s x → ∀ o : OpCode, ∃ t, exec (.trap o) s = .next t ∧
      Sends (s.metFault x.grp) t x x.g.unified fun _ old => trapped s.beat x.grp.trapvec (trapCauseWord 0x0E o.c.toNat false) x.mask (x.pc + 4) old) ∧
    (StreamReady s x → (s.dbgctl.getLsbD x.grp.part && (s.part x.grp.part).debug) = false →
      ∀ o : OpCode, ∃ t, exec (.bkpt o) s = .next t ∧ Sends (s.metFault x.grp) t x x.g.unified fun _ old =>
      trapped s.beat x.grp.trapvec (trapCauseWord 0x0E o.c.toNat true) x.mask (x.pc + 4) old) ∧
    (s.stream? = some x → x.blocked s = false → ∀ w, ∃ t, exec (.illegalInstruction w) s = .next t ∧
      Sends (s.metFault x.grp) t x x.g.unified fun _ old =>
        trapped s.beat x.grp.trapvec (trapCauseWord 0x01 0 false) x.mask (old.hints.addr.getD old.pc) old)) ∧
  (∀ s x, StreamReady s x → (s.dbgctl.getLsbD x.grp.part && (s.part x.grp.part).debug) = true → ∀ o : OpCode,
    exec (.bkpt o) s = .next ((s.setGang (x.next s 0)).modGroup x.grp.id fun G => { G with halting := true })) ∧
  (∀ s : State, ((∀ G ∈ s.groups, G.halting = false) → s.haltGroups = s) ∧
    s.haltGroups.groups = s.groups.map (fun G =>
      if G.halting then { G with halting := false, halted := true, haltAt := s.ptp } else G) ∧
    (∀ g ∈ s.gangs, ((∃ G ∈ s.groups, G.id = g.group ∧ G.halting = true) →
        { g with slices := g.slices.map fun (sl : Slice) => { sl with trappc := sl.goesOn } } ∈ s.haltGroups.gangs) ∧
      ((∀ G ∈ s.groups, G.id = g.group → G.halting = false) → g ∈ s.haltGroups.gangs)) ∧
    s.haltGroups.mem = s.mem ∧ s.haltGroups.windows = s.windows) ∧
  (∀ sl : Slice, (∀ l own a, sl.run = .barrier l own a → sl.goesOn = a) ∧
    (sl.run = .run → sl.goesOn = sl.hints.addr.getD sl.pc)) ∧
  ∀ (s : State) (x : Cx), x.grp.halted = true → x.ready s = false) ∧
  (∀ s x, StreamReady s x → ∀ o : OpSt,
    ((∀ i ∈ x.ss, ∃ sl, x.g.slice? i = some sl ∧ sl.inHandler = true) →
      ∃ g, exec (.eret o) s = .next (s.setGang g.partTest) ∧ GangWith x (fun _ old new =>
        new = { sent s.beat o.s.toNat 0 old.trappc old with trapcause := old.trapcause &&& ~~~(1#64 <<< 63) }) g) ∧
    ((∃ i ∈ x.ss, ∃ sl, x.g.slice? i = some sl ∧ sl.inHandler = false) →
      exec (.eret o) s = .next (takeTrap s x 0x01 0 false x.mask none)))) ∧
  (∀ s x, StreamReady s x → (x.grp.trapvec = 0 ∨ ∃ i ∈ x.ss, ∃ sl, x.g.slice? i = some sl ∧ sl.inHandler = true) →
    ∀ o : OpCode, ∃ t, exec (.trap o) s = .next t ∧ t.gangs = s.gangs ∧ t.mem = s.mem ∧ t.windows = s.windows ∧
      (x.grp.fatal = none → (t.group? x.grp.id).bind Group.fatal = some 0x0E ∧
        .groupEnd x.grp.id ∈ t.agenda) ∧
      (x.grp.fatal ≠ none → t = s.metFault x.grp))

/-- When no operation holds the next word: HNOP passes a beat and attaches nothing; HSCHED, HIMM in the slot
it names, HDST and HMOD attach their fields in every issuing slice, note a repetition, keep the first hint's
address, and change nothing else. When nothing holds them, GUARD selects its predicate, GUARDN its inverse
and GUARDOFF no predicate as the guard of every issuing slice; the stream goes on at the word after and
nothing else changes. (R38, R63, R64, R65, R66, R67, R114) -/
def Obligations.HintAndGuardWords : Prop :=
  (∀ s x, s.stream? = some x → x.blocked s = false →
    (∃ t, exec .hnop s = .next t ∧ Sends s t x x.g.unified fun _ old =>
      { old with pc := old.pc + 4, clock := old.clock + 1, readyAt := s.beat + 1, since := s.beat + 1 }) ∧
    (∀ o, ∃ t, exec (.hsched o) s = .next t ∧ Sends s t x x.g.unified fun _ old =>
      hinted s.beat { old.hints with sched := some o, bad := old.hints.bad || old.hints.sched.isSome } old) ∧
    (∀ o, ∃ t, exec (.himm o) s = .next t ∧ Sends s t x x.g.unified fun _ old => hinted s.beat (
      if o.l = 0#2 then { old.hints with lo := some o.d, bad := old.hints.bad || old.hints.lo.isSome }
      else if o.l = 1#2 then { old.hints with mid := some o.d, bad := old.hints.bad || old.hints.mid.isSome }
      else { old.hints with hi := some o.d, bad := old.hints.bad || old.hints.hi.isSome }) old) ∧
    (∀ o, ∃ t, exec (.hdst o) s = .next t ∧ Sends s t x x.g.unified fun _ old =>
      hinted s.beat { old.hints with dst := some o.d, bad := old.hints.bad || old.hints.dst.isSome } old) ∧
    ∀ o, ∃ t, exec (.hmod o) s = .next t ∧ Sends s t x x.g.unified fun _ old =>
      hinted s.beat { old.hints with mods := some o, bad := old.hints.bad || old.hints.mods.isSome } old) ∧
  ∀ s x, StreamReady s x →
    (∀ o, ∃ t, exec (.guard o) s = .next t ∧ Sends s t x x.g.unified fun _ old =>
      { sent s.beat 0 0 (old.pc + 4) old with guard := ⟨o.a, false⟩ }) ∧
    (∀ o, ∃ t, exec (.guardn o) s = .next t ∧ Sends s t x x.g.unified fun _ old =>
      { sent s.beat 0 0 (old.pc + 4) old with guard := ⟨o.a, true⟩ }) ∧
    ∃ t, exec .guardoff s = .next t ∧ Sends s t x x.g.unified fun _ old =>
      { sent s.beat 0 0 (old.pc + 4) old with guard := ⟨0, false⟩ }

/-- When nothing holds them, BR.any, BR.all and BR.none decide for each issuing slice over its own active
lanes, and part the gang when slices decide differently; BR.uni decides over the whole stream; JMP always
transfers. A slice that takes the branch goes to its own address + 4 · sext(DISP), any other to the word
after, and nothing else changes. After a transfer a gang is unified if and only if it was and all its live
slices hold one program counter; nothing else in it changes. (R32, R117, R118, R31) -/
def Obligations.BranchesAndJumps : Prop :=
  (∀ s x, StreamReady s x →
    (∀ i o dec, BrForm i o dec → ∃ g, GangWith x (fun i old new => new = sent s.beat 0 0
        (if dec (brVotes x o i old) then old.pc + ((o.d.signExtend 64 : Word) <<< (2 : Nat)) else old.pc + 4) old) g ∧
      exec i s = .next (s.setGang (if brMixed x o dec then { g with unified := false } else g.partTest))) ∧
    (∀ o, ∃ g, GangWith x (fun _ old new => new = sent s.beat 0 0
        (if x.actives.any (x.predOf o.p) then old.pc + ((o.d.signExtend 64 : Word) <<< (2 : Nat)) else old.pc + 4) old) g ∧
      exec (.brUni o) s = .next (s.setGang g.partTest)) ∧
    ∀ o, ∃ g, GangWith x (fun _ old new => new = sent s.beat 0 0 (old.pc + ((o.d.signExtend 64 : Word) <<< (2 : Nat))) old) g ∧
      exec (.jmp o) s = .next (s.setGang g.partTest)) ∧
  (∀ g : Gang, g.partTest = { g with unified := g.partTest.unified } ∧
    (g.partTest.unified = true ↔ g.unified = true ∧ ∀ i ∈ g.liveSlices, ∀ k ∈ g.liveSlices,
      ∀ a b, g.slice? i = some a → g.slice? k = some b → a.pc = b.pc))

/-- When nothing holds the word and it raises no fault: CALL puts the return address on each slice's stack
and in every active lane's queue and goes to own address + 4 · sext(DISP); JMPI goes to the target its
active lanes read, CALLI does the same with the return address on the stack and in the queue, and a slice
with no active lane goes on; RET goes to the address on top of each slice's stack and takes it off. The gang
parts when the slices' counters then differ. RET with an empty stack and CALL with a full one take cause
0x0B instead, with all active lanes in TRAPINFO (the model's reading, log entry 87). (R118, R119, R120) -/
def Obligations.CallsAndReturns : Prop :=
  ∀ s x,
    (∀ o : OpJump, Passes s x callShape [] → EverySlice x (fun sl => sl.rstack.length < 16) →
      ∃ t, exec (.call o) s = .next t ∧ LaneAfter s t x callShape (fun L => { val := pcAfter x L }) Gang.partTest
        fun _ old mid => { mid with pc := old.pc + disp _ o.d, rstack := (old.pc + 4) :: old.rstack }) ∧
    (∀ o : OpJumpI, Passes s x (jmpiShape o) [] → TargetsAgree s x (jmpiShape o) →
      ∃ t, exec (.jmpi o) s = .next t ∧ LaneAfter s t x (jmpiShape o) noOut Gang.partTest
        fun i old mid => { mid with pc := (sliceTarget s x (jmpiShape o) i old).getD (old.pc + 4) }) ∧
    (∀ o : OpJumpI, Passes s x (calliShape o) [] → TargetsAgree s x (calliShape o) →
      EverySlice x (fun sl => sl.rstack.length < 16) →
      ∃ t, exec (.calli o) s = .next t ∧
        LaneAfter s t x (calliShape o) (fun L => { val := pcAfter x L }) Gang.partTest
          fun i old mid => match sliceTarget s x (calliShape o) i old with
            | some a => { mid with pc := a, rstack := (old.pc + 4) :: old.rstack }
            | none => mid) ∧
    (StreamReady s x → EverySlice x (fun sl => sl.rstack ≠ []) →
      ∃ g, exec .ret s = .next (s.setGang g.partTest) ∧ GangWith x (fun _ old new =>
        new = { sent s.beat 0 0 (old.rstack.headD 0) old with rstack := old.rstack.tail }) g) ∧
    (StreamReady s x → (∃ i ∈ x.ss, ∃ sl, x.g.slice? i = some sl ∧ sl.rstack = []) →
      exec .ret s = .next (takeTrap s x 0x0B 0 false x.mask none)) ∧
    ∀ o : OpJump, Issues s x callShape → NoCommonFault s x callShape →
      (∃ i ∈ x.ss, ∃ sl, x.g.slice? i = some sl ∧ 16 ≤ sl.rstack.length) →
      exec (.call o) s = .next (takeTrap s x 0x0B 0 false x.mask none)

/-- When nothing holds the word: REGANG of a unified gang completes at once, and of a parted slice waits at
its address and tests the gang's implicit barrier; SLEEP makes the stream not ready for max(IMM, ST, 1)
beats; YIELD for the next beat; EXIT and, of a unified gang with a declared index, ROLE, once the stream's
scoreboarded words have returned, end the gang (or retire the parted slice); EXIT first performs the
stream's scratchpad accesses whose passes are still to come, and ends nothing when their words leave the
stream without a lane (the model's choice, log entry 24). Nothing else changes but what those ends set
going. While a live slice of a parted gang has not arrived, the test changes nothing. Once every live slice
waits at a REGANG word, each is ready again in the next beat at the earliest, and the gang is unified
exactly when all arrived at one address; then the live slices share the return stack of the lowest-numbered
one, and RSM is set in each exactly when the stacks differed. (R33, R42, R121, R122, R367, R120) -/
def Obligations.GangControlWords : Prop :=
  (∀ s x, (s.stream? = some x → hintsOk x.hints [] false hmNone = true → x.pending s [] .none = false →
      groupDamaged s x [] [] = false → let r := s.repairWhere x (x.readsWhole [] [])
      x.outstanding r = false → ∀ s', settled r x = (s', none) → ∀ o, exec (.exit o) s = .next s') ∧
    (StreamReady s x →
    (∀ o, x.g.unified = true → ∃ t, exec (.regang o) s = .next t ∧
      Sends s t x true fun _ old => sent s.beat o.s.toNat 0 (old.pc + 4) old) ∧
    (∀ o, x.g.unified = false → ∃ g, exec (.regang o) s = .next (s.setGang (g.regangTest s.beat)) ∧
      GangWith x (fun _ old new => new = { sent s.beat o.s.toNat 0 (old.pc + 4) old with run := .regang x.pc }) g) ∧
    (∀ o, let n := max (max o.i.toNat o.s.toNat) 1
      ∃ g, exec (.sleep o) s = .next ((s.setGang g).postAt (4 * (s.beat + 1 + n)) (.sleepExpiry x.g.id (x.ss.headD 0))) ∧
      GangWith x (fun _ old new =>
        new = { sent s.beat o.s.toNat n (old.pc + 4) old with run := .sleep (s.beat + 1 + n) }) g) ∧
    (∀ o, ∃ t, exec (.yield o) s = .next t ∧
      Sends s t x x.g.unified fun _ old => sent s.beat o.s.toNat 1 (old.pc + 4) old) ∧
    (x.outstanding s = false → ∀ s' y, settled s x = (s', some y) → y.g.unified = true → ∃ g,
      GangWith y (fun _ old new => new = { sent s'.beat 0 0 (old.pc + 4) old with run := .ended }) g ∧
      ∀ o, exec (.exit o) s = .next ((((s'.setGang { g with ended := some .exit, region := none }).epochTest
        y.grp.id).checkGroup y.grp.id).kickSoon)) ∧
    (x.outstanding s = false → x.g.unified = true → ∃ g,
      GangWith x (fun _ old new => new = { sent s.beat 0 0 (old.pc + 4) old with run := .ended }) g ∧
      ∀ o, o.i.toNat < x.grp.nRoles → exec (.role o) s = .next ((((s.setGang { g with
        ended := some (.role o.i.toNat), region := none }).epochTest x.grp.id).checkGroup x.grp.id).kickSoon)) ∧
    (x.outstanding s = false → ∀ s' y, settled s x = (s', some y) → y.g.unified = false → ∃ g,
      GangWith y (fun _ old new => new = { sent s'.beat 0 0 (old.pc + 4) old with run := .retired }) g ∧
      ∀ o, exec (.exit o) s = .next (y.ss.foldl (fun t i => t.retireSlice y.g.id i) (s'.setGang g))))) ∧
  (∀ (g : Gang) (beat : Nat) (at' : Nat → Word), g.unified = false →
    ((∃ i ∈ g.liveSlices, ∃ sl, g.slice? i = some sl ∧ ∀ a, sl.run ≠ .regang a) → g.regangTest beat = g) ∧
    (g.liveSlices ≠ [] → (∀ i ∈ g.liveSlices, ∃ sl, g.slice? i = some sl ∧ sl.run = .regang (at' i)) →
      (∀ i ∈ g.liveSlices, ∃ old new, g.slice? i = some old ∧ (g.regangTest beat).slice? i = some new ∧
        new.run = .run ∧ new.readyAt = max old.readyAt (beat + 1) ∧ new.pc = old.pc ∧ new.lanes = old.lanes) ∧
      ((g.regangTest beat).unified = true ↔ ∀ i ∈ g.liveSlices, ∀ k ∈ g.liveSlices, at' i = at' k) ∧
      ((∀ i ∈ g.liveSlices, ∀ k ∈ g.liveSlices, at' i = at' k) →
        ∀ f ∈ g.liveSlices.head?, ∀ lo, g.slice? f = some lo → ∀ i ∈ g.liveSlices, ∀ old new,
          g.slice? i = some old → (g.regangTest beat).slice? i = some new → new.rstack = lo.rstack ∧
          ((∃ k ∈ g.liveSlices, ∃ b, g.slice? k = some b ∧ b.rstack ≠ lo.rstack) →
            new.status = old.status ||| 0x80#64) ∧
          ((∀ k ∈ g.liveSlices, ∀ b, g.slice? k = some b → b.rstack = lo.rstack) → new.status = old.status))))

/-- For a group of a team index below 2^32 on logical core 0 to 143, with group index 0 to 7 in partition 0
to 7, IDS holds TEAM in bits 63:32, the core in 23:16, the group index in 11:8, the partition in 2:0, and 0
in bits 31:24, 15:12 and 7:3; and that is what CSRR of register 0x0A gives. (R136) -/
def Obligations.IdsLayout : Prop :=
  ∀ G : Group, G.teamIdx < 2 ^ 32 → G.core < 144 → G.idx < 8 → G.part < 8 →
    G.ids.extractLsb' 32 32 = BitVec.ofNat 32 G.teamIdx ∧ G.ids.extractLsb' 24 8 = 0 ∧
    G.ids.extractLsb' 16 8 = BitVec.ofNat 8 G.core ∧ G.ids.extractLsb' 12 4 = 0 ∧
    G.ids.extractLsb' 8 4 = BitVec.ofNat 4 G.idx ∧ G.ids.extractLsb' 3 5 = 0 ∧
    G.ids.extractLsb' 0 3 = BitVec.ofNat 3 G.part ∧
    ∀ s x sl, x.grp = G → csrValue s x sl 0x0A = G.ids

/-- When nothing holds the word: CSRR of a readable register gives each active lane its slice's value of it;
CLK.cyc the cycle count, CLK.pts the gang's PTS, CLK.ptp PTPNOW; DEVR 0x00 to 0x03 HARVEST of a die and 0x10
to 0x9F the LPT register of a logical core. The result goes to D with latency 1 and nothing else changes.
CSRR reads FMODE to STALLCHK, TRAPPC, TRAPCAUSE and TRAPINFO of the slice, DEADMASK and PTS of the gang,
SPILLFREE, IDS and TRAPVEC of the group, and RETSTAT of the partition. (R132, R134, R352, R353) -/
def Obligations.SystemReads : Prop :=
  (∀ s x, (∀ o : OpCsrr, csrReadable (s.part x.grp.part) o.c.toNat = true →
      (o.c = 1#6 → x.flagsPending s = false) → Passes s x (readsTo o.s o.d true) [] →
      ∃ t, exec (.csrr o) s = .next t ∧ Gives s t x (readsTo o.s o.d true) fun L =>
        match x.sliceOf L with | some sl => csrValue s x sl o.c.toNat | none => 0) ∧
    (∀ o : OpClk, Passes s x (readsTo o.s o.d true) [] →
      (∃ t, exec (.clkCyc o) s = .next t ∧ Gives s t x (readsTo o.s o.d true) fun _ => BitVec.ofNat 64 s.cycle) ∧
      (∃ t, exec (.clkPts o) s = .next t ∧ Gives s t x (readsTo o.s o.d true) fun _ => x.g.pts.setWidth 64) ∧
      ∃ t, exec (.clkPtp o) s = .next t ∧ Gives s t x (readsTo o.s o.d true) fun _ => BitVec.ofNat 64 s.ptp) ∧
    ∀ o : OpDevr, Passes s x (readsTo o.s o.d true) [] →
      (o.r.toNat ≤ 3 → ∃ t, exec (.devr o) s = .next t ∧ Gives s t x (readsTo o.s o.d true) fun _ => (s.harvestOf o.r.toNat).setWidth 64) ∧
      (16 ≤ o.r.toNat → o.r.toNat ≤ 159 → ∃ t, exec (.devr o) s = .next t ∧
        Gives s t x (readsTo o.s o.d true) fun _ => s.lpt (o.r.toNat - 16))) ∧
  ∀ s (x : Cx) (sl : Slice), csrValue s x sl 0 = sl.fmode ∧ csrValue s x sl 1 = sl.fflags ∧
    csrValue s x sl 2 = sl.mcov ∧ csrValue s x sl 3 = sl.mrho ∧ csrValue s x sl 4 = sl.status ∧
    csrValue s x sl 5 = sl.stallchk ∧ csrValue s x sl 6 = x.g.deadMask ∧ csrValue s x sl 7 = s.spillFree x.grp ∧
    csrValue s x sl 8 = x.g.pts.setWidth 64 ∧ csrValue s x sl 9 = BitVec.ofNat 64 s.ptp ∧
    csrValue s x sl 11 = sl.trappc ∧ csrValue s x sl 12 = sl.trapcause ∧ csrValue s x sl 13 = sl.trapinfo ∧
    csrValue s x sl 14 = x.grp.trapvec ∧
    ∀ k, k < 8 → csrValue s x sl (0x18 + k) = at' 0 (s.part x.grp.part).retstat k

/-- When nothing holds the word: CSRW writes a slice-held register of each issuing slice from its lowest
active lane, under the register's mask, and TRAPVEC of the group from the lowest active lane of the stream
with bits 1:0 cleared; GSET writes uniform g[GD] of a unified gang from its lowest active lane; PSET writes,
in each active lane, the predicates P to P + 63 from A where B has 1 bits. A slice or stream without an
active lane writes nothing. (R115, R132, R133, R134) -/
def Obligations.SystemWrites : Prop :=
  ∀ s x,
    (∀ o : OpCsrw, (o.c.toNat ≤ 5 ∨ o.c.toNat = 11 ∨ o.c.toNat = 12) → (o.c = 1#6 → x.flagsPending s = false) →
      Passes s x (readShape o.s o.x) [] →
      ∃ t, exec (.csrw o) s = .next t ∧ LaneAfter s t x (readShape o.s o.x) noOut id fun i old mid =>
        match old.activePos.head? with
        | some j => mid.writeCsr o.c.toNat (src s x (readShape o.s o.x) (4 * i + j) 0)
        | none => mid) ∧
    (∀ o : OpCsrw, o.c.toNat = 14 → Passes s x (readShape o.s o.x) [] →
      ∃ t, exec (.csrw o) s = .next t ∧ Then s t x (readShape o.s o.x) fun u => match x.actives.head? with
        | some L => u.modGroup x.grp.id fun G => { G with trapvec := src s x (readShape o.s o.x) L 0 &&& ~~~3#64 }
        | none => u) ∧
    (∀ o : OpGset, x.g.unified = true → Passes s x (readShape o.s o.x) [] →
      ∃ t, exec (.gset o) s = .next t ∧ Then s t x (readShape o.s o.x) fun u => match x.actives.head? with
        | some L => u.modGang x.g.id fun g =>
            { g with g := modAt (fun _ => src s x (readShape o.s o.x) L 0) o.g.toNat g.g }
        | none => u) ∧
    ∀ o : OpPset, Passes s x (psetShape o) [] →
      ∃ t, exec (.pset o) s = .next t ∧ LaneAfter s t x (psetShape o) noOut Gang.partTest fun i old mid =>
        mid.mapLanes fun j l => if old.active j then
          l.setPreds o.p.toNat (src s x (psetShape o) (4 * i + j) 0) (src s x (psetShape o) (4 * i + j) 1) else l

/-- Whatever value is written: FMODE keeps bits 4:0, FFLAGS bits 20:16, 12:8 and 4:0, MCOV bits 3:0, STATUS
bits 7:0, STALLCHK bit 0, TRAPPC bits 63:2; MRHO holds an FP32 number from −1 to +1 that is not −0, with
bits 63:32 zero; and no other register of the slice changes. The word that trap entry writes has H in bit
63, the code in bits 31:16, BK in bit 8, the cause in bits 7:0 and zero in bits 62:32 and 15:9; a CSRW to
TRAPCAUSE keeps exactly bits 63, 31:16, 8 and 7:0 of the value. (R95, R98, R134, R135, R144, R145, R137) -/
def Obligations.ControlRegisterMasks : Prop :=
  (∀ (sl : Slice) (v : Word),
    (∀ k, (sl.writeCsr 0 v).fmode.getLsbD k = (v.getLsbD k && decide (k ≤ 4))) ∧
    (∀ k, (sl.writeCsr 1 v).fflags.getLsbD k = (v.getLsbD k && (decide (k ≤ 4) || (decide (8 ≤ k) && decide (k ≤ 12)) ||
      (decide (16 ≤ k) && decide (k ≤ 20))))) ∧
    (∀ k, (sl.writeCsr 2 v).mcov.getLsbD k = (v.getLsbD k && decide (k ≤ 3))) ∧
    (∀ k, (sl.writeCsr 4 v).status.getLsbD k = (v.getLsbD k && decide (k ≤ 7))) ∧
    (∀ k, (sl.writeCsr 5 v).stallchk.getLsbD k = (v.getLsbD k && decide (k = 0))) ∧
    (∀ k, (sl.writeCsr 11 v).trappc.getLsbD k = (v.getLsbD k && decide (2 ≤ k))) ∧
    (sl.writeCsr 3 v).mrho.toNat < 2 ^ 32 ∧ (sl.writeCsr 3 v).mrho ≠ 0x80000000#64 ∧
    ((sl.writeCsr 3 v).mrho.toNat ≤ 0x3F800000 ∨
      (0x80000000 ≤ (sl.writeCsr 3 v).mrho.toNat ∧ (sl.writeCsr 3 v).mrho.toNat ≤ 0xBF800000)) ∧
    ∀ n, sl.writeCsr n v = { sl with
      fmode := (sl.writeCsr n v).fmode, fflags := (sl.writeCsr n v).fflags, mcov := (sl.writeCsr n v).mcov
      mrho := (sl.writeCsr n v).mrho, status := (sl.writeCsr n v).status, stallchk := (sl.writeCsr n v).stallchk
      trappc := (sl.writeCsr n v).trappc, trapcause := (sl.writeCsr n v).trapcause }) ∧
  ((∀ cause code bk, cause < 256 → code < 65536 →
    (trapCauseWord cause code bk).getLsbD 63 = true ∧
    (trapCauseWord cause code bk).extractLsb' 16 16 = BitVec.ofNat 16 code ∧
    (trapCauseWord cause code bk).getLsbD 8 = bk ∧
    (trapCauseWord cause code bk).extractLsb' 0 8 = BitVec.ofNat 8 cause ∧
    (trapCauseWord cause code bk).extractLsb' 32 31 = 0 ∧ (trapCauseWord cause code bk).extractLsb' 9 7 = 0) ∧
  ∀ (sl : Slice) v k, (sl.writeCsr 12 v).trapcause.getLsbD k =
    (v.getLsbD k && (decide (k ≤ 8) || (decide (16 ≤ k) && decide (k ≤ 31)) || decide (k = 63))))

/-- In a unified gang, when nothing holds the word: PARK copies its register of every live lane, and SPQ.out
the 16 queue entries of every live lane as a read of them gives them, to an empty slot, taking one row, or
one for each slice, first from the free accumulator rows; UNPARK gives each active lane the parked value,
and SPQ.in each live lane the parked queue, and the slot is empty. With too few free rows PARK takes cause
0x0D and copies nothing. The model's readings: the slot is empty from the issue of UNPARK and SPQ.in, whose
results return after 1 to 64 beats (log entry 42), what SPQ.out copies of its 16 entries (log entry 93), and
all active lanes in TRAPINFO (log entry 87). (R128, R129, R130, R131) -/
def Obligations.ParkingWords : Prop :=
  ∀ s x, x.g.unified = true →
    (∀ o : OpPark, Passes s x (parkShape o x.grp.mom) [] → x.g.slot o.l.toNat = none →
      (1 ≤ s.freeAcc x.grp + s.freeRsv x.grp →
        ∃ t, exec (.park o) s = .next t ∧ Then s t x (parkShape o x.grp.mom) fun u =>
          u.modGang x.g.id (withSlot o.l.toNat (some (slotOf u x 1 false
            (x.g.liveLanes.map fun L => (L, [src s x (parkShape o x.grp.mom) L 0])))))) ∧
      (s.freeAcc x.grp + s.freeRsv x.grp = 0 →
        exec (.park o) s = .next (takeTrap s x 0x0D 0 false x.mask none))) ∧
    (∀ (o : OpPark) p, Passes s x (unparkShape o x.grp.mom) [] → x.g.slot o.l.toNat = some p → p.spq = false →
      ∃ u, exec (.unpark o) s = .next (u.modGang x.g.id (withSlot o.l.toNat none)) ∧
        LaneIssued s u x (unparkShape o x.grp.mom) 1 64 fun L => { val := p.valueAt L }) ∧
    (∀ o : OpSpq, Passes s x (spqShape o none) [] → x.queuePending = false → queueUnderrun x = [] → x.g.slot o.l.toNat = none →
      x.g.slices.length ≤ s.freeAcc x.grp + s.freeRsv x.grp →
      ∃ t, exec (.spqOut o) s = .next t ∧ Then s t x (spqShape o none) fun u =>
        u.modGang x.g.id (withSlot o.l.toNat (some (slotOf u x x.g.slices.length true
          (x.g.liveLanes.map fun L => (L, srcVals s.beat x.g queueSrcs L)))))) ∧
    ∀ (o : OpSpq) p, Passes s x (spqShape o none) [] → x.queuePending = false → x.g.slot o.l.toNat = some p →
      p.spq = true →
      ∃ u, LaneIssued s u x (spqShape o (some (1, 64))) 1 64 noOut ∧
        exec (.spqIn o) s = .next (((u.modOp s.fresh fun op => { op with vals := [] }).modGang x.g.id fun g => Cx.mapSlices ⟨g, x.grp, x.ss⟩ fun i sl =>
          { sl.mapLanes (fun j l => if l.dead then l else match p.vals.find? (·.1 == 4 * i + j) with
              | some e => { l with q := e.2 }
              | none => l) with
            qT := sl.qT.map fun _ => ⟨sl.clock, 0, 0, some s.fresh⟩ }).modGang x.g.id
              (withSlot o.l.toNat none))

/-- For a barrier whose offset the word may name, when nothing holds it: BINIT writes a fresh object with
the expectations of g[E], keeping AINF (log entry 22), and with REC records it; ATTACH records the offset
alone; BARR and BARRX add one arrival for each active and dead lane of their slices (and XB), carry PTS into
TS and run the phase test, in a team of a pair once everything earlier has been acknowledged (the stream
goes on: log entry 97); BWAIT and YIELDW succeed at once when the phase has the other parity, else their
slices wait with their resume address; BTRY says in PD whether the phase has completed; BDROP takes the
stream's slices off a recorded barrier, whose expectation and counts it lowers unless it counts no slice;
BDROP.rel forgets the offset. Each goes on at the word after, YIELDW at its continuation address. (R123,
R245, R246, R247, R249, R251) -/
def Obligations.BarrierWords : Prop :=
  ∀ s x l,
    (∀ o : OpBinit, o.t = 0#1 → o.e.toNat < 60 → (o.r = 1#1 ∨ o.n = 0#1) → BarReady s x o.g l →
      (o.r = 1#1 → x.grp.bar? l = none → x.grp.bars.length < 16) → s.waitedOn x.grp.team l = false →
      (∀ H ∈ s.groups, H.team = x.grp.team → ∀ b, H.bar? l = some b → b.out = 0) →
      let e := at' 0 x.g.g o.e.toNat
      let s1 := (goOn s x o.s).setBar x.grp.team l ⟨fld e 0 32, 0, fld e 32 32, 0, 0, false, false, false, 0, 0,
        (s.bar x.grp.team l).ainf⟩
      exec (.binit o) s = .next ((if o.r = 1#1 then s1.record x.grp l (o.n == 1#1) else s1).phaseTest x.grp.team l)) ∧
    (∀ o : OpBinit, o.t = 1#1 → o.e = 0#6 → o.r = 0#1 → BarReady s x o.g l →
      (x.grp.bar? l = none → x.grp.bars.length < 16) →
      let t := (goOn s x o.s).record x.grp l (o.n == 1#1)
      exec (.binit o) s = .next (if t.bar x.grp.team l = s.bar x.grp.team l then t else t.phaseTest x.grp.team l)) ∧
    (∀ o : OpBarG, BarReady s x o.g l → NotDropped x l → Released s x →
      exec (.barr o) s = .next ((arrived s x o.s l 0).phaseTest x.grp.team l)) ∧
    (∀ o : OpBarGE, BarReady s x o.g l → o.e.toNat < 60 → NotDropped x l → Released s x →
      exec (.barrx o) s =
        .next ((arrived s x o.s l (fld (at' 0 x.g.g o.e.toNat) 0 32)).phaseTest x.grp.team l)) ∧
    (∀ i st g add, ((∃ o : OpBarG, i = .barr o ∧ st = o.s ∧ g = o.g ∧ add = 0) ∨
        (∃ o : OpBarGE, i = .barrx o ∧ o.e.toNat < 60 ∧ st = o.s ∧ g = o.g ∧ add = fld (at' 0 x.g.g o.e.toNat) 0 32)) →
      BarReady s x g l → NotDropped x l → ¬ Released s x →
      ∃ (t : State) (w : Wsig), exec i s = .next t ∧ WentOn t x ∧ w ∈ t.wsigs ∧ w.arr = some ⟨l, add, arrivals x⟩ ∧
        w.gang = x.g.id ∧ w.sigs = [] ∧ w.flag = none ∧ w.op = none ∧
        (∀ n ∈ x.opsOut s ++ s.flagsOut x.grp.core x.g.id ++ s.redsOut x.g.id ++ s.signalsOut x.g.id true, n ∈ w.waits) ∧
        (∀ n ∈ t.writesOut x.grp.core fun _ _ => true, n ∈ w.waits) ∧
        (∀ e ∈ t.smb, e.core ≠ x.grp.core) ∧ t.mem = s.mem ∧ t.windows = s.windows) ∧
    (∀ i st (m : Nat) (dest : Word) p, ((∃ o : OpBwait, i = .bwait o ∧ o.m ≠ 3#2 ∧ BarReady s x o.g l ∧ st = o.s ∧
          m = o.m.toNat ∧ dest = x.pc + 4) ∨
        (∃ o : OpYieldw, i = .yieldw o ∧ BarReady s x o.g l ∧ st = o.s ∧ m = 0 ∧
          dest = x.pc + 4 * o.d.signExtend 64)) → parityOf x.grp x.g l m = some p →
      ∃ g, GangWith x (fun _ old new => new = sent s.beat st.toNat 0 dest old) g ∧
        ((s.bar x.grp.team l).phase % 2 ≠ p →
          exec i s = .next (succeedNow (s.setGang g) x l (m == 0) (s.bar x.grp.team l) dest)) ∧
        ((s.bar x.grp.team l).phase % 2 = p → ∃ t, exec i s = .next t ∧ Sends s t x x.g.unified fun _ old =>
          { sent s.beat st.toNat 0 dest old with run := .barrier l (m == 0) dest })) ∧
    (∀ o : OpBtry, o.m ≠ 3#2 → BarReady s x o.g l → ∀ p, parityOf x.grp x.g l o.m.toNat = some p →
      let ok := (s.bar x.grp.team l).phase % 2 != p
      ∃ g, GangWith x (fun _ old new => new = { sent s.beat o.s.toNat 0 (old.pc + 4) old with
          lanes := imap (fun j ln => if old.active j then ln.setPred o.p.toNat ok else ln) 0 old.lanes }) g ∧
        exec (.btry o) s = .next (if ok then
          succeedNow (s.setGang g) x l (o.m == 0#2) (s.bar x.grp.team l) (x.pc + 4) else s.setGang g)) ∧
    (∀ o : OpBarG, BarReady s x o.g l →
      (x.grp.bar? l = none → exec (.bdrop o) s = .next (goOn s x o.s)) ∧
      (∀ b, x.grp.bar? l = some b →
        let keys := x.ss.map fun i => (x.g.idx, i)
        let t := (goOn s x o.s).modGroup x.grp.id fun G => G.modBar l fun b =>
          { b with drop := b.drop ++ keys.filter fun k => !b.drop.contains k }
        exec (.bdrop o) s = .next (if b.nsl then t
          else (keys.foldl (fun t k => t.lowerFor x.grp.id x.grp.team l k) t).phaseTest x.grp.team l))) ∧
    ∀ o : OpBarG, BarReady s x o.g l →
      (x.grp.bar? l = none → exec (.bdropRel o) s = .next (goOn s x o.s)) ∧
      (∀ b, x.grp.bar? l = some b → s.waitedOn x.grp.team l = false → b.out = 0 →
        exec (.bdropRel o) s = .next ((goOn s x o.s).modGroup x.grp.id fun G =>
          { G with bars := G.bars.filter (·.loc != l) }))

/-- The phase test changes nothing until CNTA ≥ EXPA and CNTB ≥ EXPB + XB; then the object becomes one with
ABT 0, PHASE + 1 modulo 2^32, CNTA, CNTB and XB 0, OVR kept or set by a count beyond its expectation, and
the rest as it was. A phase that completes releases every stream of the team that waits on it: its slices go
on at its resume address and its gang's PTS is raised to TS where TV is set and TS does not precede the core
floor. A release under MODE 00 inverts the gang's EXP, and no other; after an aborted phase the released
stream takes trap 0x16 at once, TRAPPC being its resume address. A carried timestamp never goes back. An
object whose fields fit their bits is read back from its 32 bytes as it was written. (R244, R247, R248,
R249, R250, R123) -/
def Obligations.BarrierPhaseRule : Prop :=
  (∀ (s : State) team l, ((s.bar team l).cnta < (s.bar team l).expa ∨
      (s.bar team l).cntb < (s.bar team l).expb + (s.bar team l).xb → s.phaseTest team l = s) ∧
    ((s.bar team l).expa ≤ (s.bar team l).cnta → (s.bar team l).expb + (s.bar team l).xb ≤ (s.bar team l).cntb →
      s.phaseTest team l = s.completePhase team l ((s.bar team l).complete false))) ∧
  (∀ o : BarObj, o.complete false = { o with
      ovr := (o.complete false).ovr, abt := false, phase := (o.phase + 1) % 2 ^ 32, cnta := 0, cntb := 0, xb := 0 } ∧
    ((o.complete false).ovr = true ↔ o.ovr = true ∨ o.expa < o.cnta ∨ o.expb + o.xb < o.cntb)) ∧
  (∀ (s : State) team l o, o.abt = false → (s.gangs.map (·.id)).Nodup → ∀ g ∈ s.gangs, ∀ G,
    s.group? g.group = some G → G.team = team → ∀ w ∈ g.waiters l,
    ∃ h, (s.completePhase team l o).gang? g.id = some h ∧ h.pts = successPts (s.floor G.core) o g.pts ∧
      ∀ i ∈ w.1, ∀ sl, g.slice? i = some sl → ∃ n, h.slice? i = some n ∧ n = { sl with
        run := .run, pc := w.2.2, readyAt := max sl.readyAt (s.beat + 1), since := max sl.readyAt (s.beat + 1) }) ∧
  (∀ (s : State) gid l (o : BarObj) (w : List Nat × Bool × Word) g G, s.gang? gid = some g → s.group? g.group = some G →
    let t := s.releaseOne gid l { o with abt := false } w
    (∀ b, G.bar? l = some b → ∃ H c, t.group? g.group = some H ∧ H.bar? l = some c ∧
      ∀ k, c.exp.contains k = if w.2.1 && k == g.idx then !b.exp.contains k else b.exp.contains k) ∧
    t.mem = s.mem ∧ t.windows = s.windows ∧
    (o.abt = true → ∀ h H, t.gang? gid = some h → t.group? g.group = some H →
      s.releaseOne gid l o w =
        takeTrap t ⟨h, H, w.1⟩ 0x16 0 false (maskOf (Cx.actives ⟨h, H, w.1⟩)) (some w.2.2))) ∧
  (∀ (o : BarObj) pts floor, successPts floor o pts =
    if o.tv = true ∧ (o.ts - floor).toNat < 2 ^ 23 then smax pts o.ts else pts) ∧
  (∀ (o : BarObj) t, (o.carry t).tv = true ∧ (o.tv = false → (o.carry t).ts = t) ∧
    (o.tv = true → (o.carry t).ts = smax o.ts t)) ∧
  (∀ o : BarObj, o.expa < 2 ^ 32 → o.cnta < 2 ^ 32 → o.expb < 2 ^ 32 → o.xb < 2 ^ 32 → o.cntb < 2 ^ 32 →
    o.phase < 2 ^ 32 → o.ainf < 2 ^ 32 → o.bytes.length = 32 ∧ BarObj.ofBytes o.bytes = o)

/-- Two offsets of a window name different slots, under whatever swizzle codes its tiles hold; so a byte
written at one offset is read back there, every other offset reads as before, the window's memory keeps its
canonical form, and its tiles and identity do not change. (R184, R185, R186) -/
def Obligations.ScratchpadBytes : Prop :=
  ∀ (w : Window) (a : Nat) (b : Byte), w.mem.wf = true →
    (∀ c, w.slot a = w.slot c → a = c) ∧ (w.set a b).mem.wf = true ∧
    (w.set a b).get a = b ∧ (∀ c, c ≠ a → (w.set a b).get c = w.get c) ∧
    w.set a b = { w with mem := (w.set a b).mem }

/-- When nothing holds the word and its lanes' checks find no fault, it issues with one access that is
performed at one point, when the last pass of its banks is done: that one point is log entry 24's choice,
and so is that later words which order after it find it performed. A load's result returns 3 beats after
that point. Performed, a load has brought each active lane the bytes at its address, zero-extended (a pair
in two registers), and changed no byte; a store has written each active lane's bytes at its address in
ascending lane order, every offset of every window outside the stored bytes reads as before, and no gang has
changed. Global memory and groups stand as they were. (R223, R227, R228, R230, R231, R448) -/
def Obligations.ScratchWords : Prop :=
  (∀ s x,
    (∀ i W0 z d addr, LdsForm i W0 z d addr → let W := ldsShape W0 z d
      let v := allVals s.beat x.g W.srcs
      let as := scratchOk s false (scratchSize z) addr x v []
      Passes s x W (scratchCauses s false (scratchSize z) addr x v) → x.acqHeld s = false →
      (scratchSize z = 16 → x.morePending (d + 1) = false) →
      ∃ g n op bf ch, exec i s = .next ((({ s with
          fresh := s.fresh + 1, ops := s.ops ++ [op], bankFree := bf, choices := ch }.setGang g).postAt
            (4 * (s.beat + 3 + n)) (.resultReturn s.fresh)).startPass
          ⟨0, x.g.id, x.ss, s.beat + n, some s.fresh, if scratchSize z = 16 then some (d + 1) else none,
            as.map fun (a : ScratchAcc) => (a.lane, a.win.id, a.off, scratchSize z, [])⟩) ∧
        op.id = s.fresh ∧ op.gang = x.g.id ∧ op.slices = x.ss ∧ op.reg = (W.dest x.hints).named ∧
        op.push = (W.dest x.hints).pushes ∧ op.waits = 0 ∧ op.dead = [] ∧ op.doc = false ∧ op.vals = [] ∧ op.regs = [] ∧
        GangWith x (fun i old new => SliceWritten s.beat W.st W.srcs (W.dest old.hints) 0
          (stuck v noOut i old) (fun _ => none) old new) g) ∧
    ∀ i W0 z vf k addr, StsForm i W0 z vf k addr → let W := stsShape W0 z vf
      let v := allVals s.beat x.g W.srcs
      let as := scratchOk s true (scratchSize z) addr x v []
      Passes s x W (scratchCauses s true (scratchSize z) addr x v) → x.acqHeld s = false →
      ∃ g n bf ch, exec i s = .next (({ s with bankFree := bf, choices := ch }.setGang g).startPass
          ⟨0, x.g.id, x.ss, s.beat + n, none, none,
            as.map fun (a : ScratchAcc) => (a.lane, a.win.id, a.off, scratchSize z, stsBytes z k v a.lane)⟩) ∧
        GangWith x (fun i old new => SliceWritten s.beat W.st W.srcs (W.dest old.hints) 0
          (stuck v noOut i old) (fun _ => none) old new) g) ∧
  (∀ (s : State) (p : ScratchPass), let q := { p with id := s.fresh }
    (s.beat < p.due → s.startPass p = { s with fresh := s.fresh + 1, passes := s.passes ++ [q] }) ∧
    (p.due ≤ s.beat → (∀ r ∈ s.passes, r.gang ≠ p.gang) →
      s.startPass p = ({ s with fresh := s.fresh + 1 }).performPass q)) ∧
  ∀ (s : State) (p : ScratchPass) g G, s.bad = [] → s.gang? p.gang = some g → s.group? g.group = some G →
    let t := s.performPass p
    t.mem = s.mem ∧ t.groups = s.groups ∧ t.passes = s.passes.filter (·.id != p.id) ∧
    (∀ op o ws, p.op = some op → s.op? op = some o →
      p.accs.map (fun a => s.windows.find? (·.id == a.2.1)) = ws.map some →
      t.windows = s.windows ∧ ∃ o', t.op? op = some o' ∧
        o'.vals = o.vals ++ List.zipWith (fun a (w : Window) => (a.1, leWord (w.read a.2.2.1 (min a.2.2.2.1 8)))) p.accs ws ∧
        o'.regs = o.regs ++ (match p.more with
          | some r => List.zipWith (fun a (w : Window) => (r, a.1, leWord (w.read (a.2.2.1 + 8) 8))) p.accs ws
          | none => []) ∧ o'.dead = o.dead ∧ o'.waits = o.waits) ∧
    (p.op = none → t.gangs = s.gangs ∧ t.windows = s.windows.map (storedIn p.accs) ∧
      ∀ w ∈ s.windows, w.mem.wf = true → ∀ a,
        (∀ b ∈ p.accs, b.2.1 = w.id → a < b.2.2.1 ∨ b.2.2.1 + b.2.2.2.2.length ≤ a) →
        (storedIn p.accs w).get a = w.get a)

/-- When nothing holds the word and its lanes' checks find no fault, the load issues with one operation;
each lane in turn takes its bytes from the core's own buffers or from a usable L1 copy or puts its line down
for the home; then each line put down is read by one request of the gang, which carries the lanes and brings
its answer to the operation; memory does not change. The model's choices: the request carries what the
core's buffers hold of the line at issue (log entry 15), an operation that waits for no answer returns after
a choice of beats (log entry 5), and an acquire at system scope notes its time (log entry 25). (R201, R218,
R230, R232, R233) -/
def Obligations.GlobalLoads : Prop :=
  (∀ (s : State) m x op rs, let t := sendReads s m x op rs
    t.mem = s.mem ∧ t.gangs = s.gangs ∧ t.ops = s.ops ∧ t.reqs.length = s.reqs.length + rs.length ∧
    ∀ r ∈ rs, ∃ q ∈ t.reqs, q.op = some op ∧ q.gang = x.g.id ∧ q.core = x.grp.core ∧ q.part = x.grp.part ∧
      q.asn = x.grp.asn ∧ q.dev = r.1 ∧ q.va = r.2.1 ∧ ∃ w f d e k n b, q.kind = .read r.2.2 w f d e k n b) ∧
  ∀ s x i W R m addr, LoadForm i W R m addr → Reaches s x W false (accAll R addr) [] →
    ∃ u op, OpIssued false s u x W op ∧ op.waits = 0 ∧ op.acq = (m s x).acq ∧
      let r := (accs s x W (accAll R addr)).foldl (loadLane (m s x) x op.id)
        (if (m s x).acq = some 4 then x.noteSysAcq u else u, [])
      let t := sendReads (r.1.modOp op.id fun o => { o with waits := r.2.length }) (m s x) x op.id r.2
      exec i s = .next (if r.2.isEmpty then t.returnSoon op.id else t)

/-- A lane whose bytes all stand in the core's own buffers takes them from there, unless the load reads at
the home always. Otherwise a load that tests L1 and finds a usable copy of a line that nothing of the core
is still to change takes the copy's bytes with the buffered ones over them, promotes the copy and, under a
logical lease, raises PTS to its wts. In every other case (a load that reads at the home, or does not test
L1; a line that the core is still to change at its home (log entry 16); no copy; a copy that is not usable)
the lane puts its line down for the home and changes nothing. A copy is usable for 8,192 cycles after it
came, and: under a logical lease up to its rts and not past it, at PTS and at the core's floor; under a
remote lease before its end; under a host lease before its end and when it was granted no earlier than the
stream's last acquire; a decided copy never. (R188, R201, R214, R226, R404, R407, R422) -/
def Obligations.LoadLaneRule : Prop :=
  (∀ (m : LoadMode) x op s rs (a : LaneAcc) g, s.gang? x.g.id = some g → (s.group? x.grp.id).bind (·.replay) = none →
    let see := s.seen x.grp.core x.grp.part x.grp.asn a.dev (a.va / 128 * 128)
    let take := fun (d : List Byte) => (a.lane, leWord ((see d |>.drop (a.va % 128)).take m.size))
    let mine := maskAt (a.va % 128) m.size &&&
      ~~~(s.seenMask x.grp.core x.grp.part x.grp.asn a.dev (a.va / 128 * 128)) = 0
    let copy := s.l1? x.grp.core x.grp.part x.grp.asn (l1Key a.dev a.va)
    let sysAcq := match x.sliceOf a.lane with | some sl => sl.sysAcq | none => 0
    (m.home = false → mine → loadLane m x op (s, rs) a =
      (s.modOp op fun o => { o with vals := o.vals ++ [take (List.replicate 128 0)] }, rs)) ∧
    (m.home = true ∨ (¬ mine ∧ (m.fill = false ∨
        s.atomOnLine x.grp.core x.grp.part x.grp.asn a.dev (a.va / 128 * 128) = true ∨ copy = none ∨
        ∃ c, copy = some c ∧ c.usable s g.pts sysAcq = false)) →
      loadLane m x op (s, rs) a = (s, addRead a.dev (a.va / 128 * 128) (a.lane, a.va % 128, m.size) rs)) ∧
    (∀ c, m.home = false → ¬ mine → m.fill = true →
      s.atomOnLine x.grp.core x.grp.part x.grp.asn a.dev (a.va / 128 * 128) = false → copy = some c →
      c.usable s g.pts sysAcq = true →
      loadLane m x op (s, rs) a = ((match c.lease with
        | .lt wts _ => (s.hitL1 c m.keep).raisePts g.id wts
        | _ => s.hitL1 c m.keep).modOp op fun o => { o with vals := o.vals ++ [take c.data] }, rs))) ∧
  (∀ (s : State) core part asn dev va, s.atomOnLine core part asn dev va = true ↔
    (∃ q ∈ s.reqs, q.kind.alters = true ∧ q.served = false ∧ q.onLine core part asn dev va = true ∧ 0 < q.pos) ∨
    ∃ w ∈ s.wsigs, w.onLine s core part asn dev va = true ∧ 0 < w.id) ∧
  ∀ s (c : L1Line) pts n, c.usable s pts n = true ↔ s.cycle < c.born + 8192 ∧ match c.lease with
    | .lt _ rts => TS.le pts rts = true ∧ TS.le (s.floor c.core) rts = true
    | .remote lend => precedes32 s.ptp8 lend = true
    | .host lend granted => s.ptp < lend ∧ n ≤ granted
    | .decided _ _ => False

/-- When nothing holds the word and its lanes' checks find no fault, STG, STGX and STO at every scope
complete, and no byte of memory and no other gang changes at issue. A plain store, and an STO of core or
narrower scope within a core, merges each active lane's bytes in ascending lane order, and bypass flushes
their entries at once; an STO, before which the stream's scratchpad accesses are performed, makes the core
own each flag line at device and system scope, and bypass sets its write going. The model's choice (log
entry 18): at team scope of a pair, and where a page of a lane is not cached because it was not present, it
signals after a drain. Where the buffer holds an entry of the line with 128 bytes, or has room: after a
store of masked bytes to a line the buffer holds the new byte at every address of the mask and, at any other
address of any core, device and address space, what it held before; memory, requests and L1 stand as they
were. Where the buffer is full and holds no entry of the line, its oldest entry is flushed first (it leaves
the buffer, and one write of its bytes is on its way to its home), and then the store does as it does where
there is room. (R214, R216, R221, R223, R231, R232, R233) -/
def Obligations.GlobalStores : Prop :=
  ((∀ s x i W n k addr, StoreForm i W n k addr →
    Reaches s x W false (accAll { wr := true, align := n } addr) [] →
    ∃ t, exec i s = .next t ∧ t.mem = s.mem ∧ t.windows = s.windows ∧ WentOn t x ∧
      (∀ g ∈ s.gangs, g.id ≠ x.g.id → g ∈ t.gangs) ∧
      Then s t x W fun u => putStores n (fun v L => val v L k) u x (allVals s.beat x.g W.srcs)
        (accs s x W (accAll { wr := true, align := n } addr))) ∧
  ∀ s x (o : OpSto), let n := atSize o.z
    let W : Shape := { shapeStore o.s [.s7 o.a, .s7 o.v] hmBypass with legal := decide (o.k.toNat ≤ 4) }
    let A := accAll { wr := true, align := n, scope := some o.k.toNat } fun _ v L => addrB (val v L 0) o.o.toInt n
    let as := accs s x W A
    let leaf := fun (a : LaneAcc) => s.tlb? x.grp.core x.grp.part x.grp.asn (farKey a.dev a.va)
    let mine := fun (u : State) => u.settlePasses x.g.id x.ss
    Reaches s x W false A [] →
    (∃ t, exec (.sto o) s = .next t ∧ t.mem = s.mem ∧ WentOn t x ∧ (∀ g ∈ s.gangs, g.id ≠ x.g.id → g ∈ t.gangs) ∧
      ((∀ p ∈ s.passes, p.gang ≠ x.g.id) → t.windows = s.windows)) ∧
    ((o.k.toNat < 2 ∨ (o.k.toNat = 2 ∧ s.pairTeam x.grp = false)) → ∃ t, exec (.sto o) s = .next t ∧
      Then s t x W fun u => putStores n (fun v L => val v L 1) (mine u) x (allVals s.beat x.g W.srcs) as) ∧
    (3 ≤ o.k.toNat → x.grp.replay = none → x.grp.audit = none →
      (∀ a ∈ as, (leaf a).isSome) → ∃ t, exec (.sto o) s = .next t ∧
      Then s t x W fun u =>
        let z := as.foldl (fun t a => match leaf a with
          | some l => lazyLane x l t a (leBytes n (src s x W a.lane 1).toNat)
          | none => t) (mine u)
        if x.hints.pol = 3 then z.drainFlags fun f => f.core == x.grp.core && as.any fun a =>
          a.dev == f.dev && a.va / 128 * 128 == f.va && f.part == x.grp.part && f.asn == x.grp.asn
        else z) ∧
    (((o.k.toNat = 2 ∧ s.pairTeam x.grp = true) ∨ (3 ≤ o.k.toNat ∧ ∃ a ∈ as, leaf a = none)) →
      x.grp.replay = none → x.grp.audit = none → as ≠ [] →
      ∃ t, exec (.sto o) s = .next t ∧ Then s t x W fun u =>
        eagerRelease (mine u) x n
          (as.map fun a => (a.lane, BitVec.ofNat 64 (a.dev * 2 ^ 48 + a.va), src s x W a.lane 1)))) ∧
  ((∀ (s : State) core part asn dev line mask data t gang ef, data.length = 128 → line % 128 = 0 →
    (∀ e ∈ s.smb, e.data.length = 128) →
    ((∃ e ∈ s.smb, e.core = core ∧ e.part = part ∧ e.asn = asn ∧ e.dev = dev ∧ e.va = line) ∨
      (s.smb.filter (·.core == core)).length < 64) →
    let u := s.smbPut core part asn dev line mask data t gang ef
    u.mem = s.mem ∧ u.reqs = s.reqs ∧ u.l1 = s.l1 ∧ u.gangs = s.gangs ∧ u.windows = s.windows ∧
    (∀ j, j < 128 → mask.getLsbD j = true → bufByte u core part asn dev (line + j) = data[j]?) ∧
    ∀ c p a d va, ¬ (c = core ∧ p = part ∧ a = asn ∧ d = dev ∧ va / 128 * 128 = line ∧ mask.getLsbD (va % 128) = true) →
      bufByte u c p a d va = bufByte s c p a d va) ∧
  (∀ (s : State) core part asn dev line mask data t gang ef e rest, s.smb.filter (·.core == core) = e :: rest → rest.length = 63 →
    (s.smb.map (·.id)).Nodup →
    (∀ d ∈ s.smb, ¬ (d.core = core ∧ d.part = part ∧ d.asn = asn ∧ d.dev = dev ∧ d.va = line)) →
    (∀ o ∈ s.owned, ¬ (o.core = core ∧ o.part = part ∧ o.asn = asn ∧ o.va = line ∧ o.dev = dev)) →
    s.smbPut core part asn dev line mask data t gang ef =
      (s.flushEntry e []).smbPut core part asn dev line mask data t gang ef) ∧
  ∀ (s : State) (e : SmbEntry), s.inj6For e.gangs = none →
    let u := s.flushEntry e []
    u.mem = s.mem ∧ u.smb = s.smb.filter (·.id != e.id) ∧ u.reqs.length = s.reqs.length + 1 ∧
    ∃ q ∈ u.reqs, q.kind = .write e.mask e.data e.gangs e.ef false ∧ q.core = e.core ∧ q.part = e.part ∧
      q.asn = e.asn ∧ q.va = e.va ∧ q.dev = e.dev ∧ q.t = e.t ∧ q.ent = e.id)

/-- At device or system scope, when nothing holds the word and its lanes' checks find no fault, each of the
words completes, and its stream goes on at the word after: it commits the region its gang is inside; an ATM
word then issues one operation that waits for one answer of each active lane, flushes the lane's line from
the merge buffer (log entry 16) and sends the function and operands to the home at the gang's PTS; a RED
word of a unified gang takes each lane's term in turn; REDFL of a unified gang seals the current epoch's
entries at PTS and moves to the next epoch. A term combines with the entry of its gang, epoch and address
that has its function and size, by element: sums modulo the element's width, FP sums by RNE, the lesser or
the greater as signed numbers; where there is none it takes a new entry; and where the scheduler's buffer of
256 entries is full it goes to the home at once and its lane is marked. An entry of another function at the
address begins its drain first (log entry 19). (R235, R236, R237, R238, R239, R360) -/
def Obligations.AtomicWords : Prop :=
  (∀ x f sz (s : State) ovf (a : LaneAcc) term,
    let addr : Word := BitVec.ofNat 64 (a.dev * 2 ^ 48 + a.va)
    let epoch := match s.gang? x.g.id with | some g => g.epoch | none => 0
    let pts := match s.gang? x.g.id with | some g => g.pts | none => 0
    let mine := fun (e : RedEntry) => e.gang == x.g.id && e.addr == addr && e.epoch == epoch && e.drain.isNone
    let e : RedEntry := ⟨s.fresh, x.grp.core, x.g.sched, x.g.id, x.grp.id, x.g.idx, f, sz, x.grp.part, x.grp.asn, addr,
      term, epoch, pts, none⟩
    let room := (s.reds.filter fun r => r.core == x.grp.core && r.sched == x.g.sched).length < 256
    ((∃ r ∈ s.reds, mine r = true ∧ r.f = f ∧ r.sz = sz) → redLane x f sz (s, ovf) a term =
      ({ s with reds := s.reds.map fun r => if mine r then { r with value := redCombine f sz r.value term } else r }, ovf)) ∧
    ((∀ r ∈ s.reds, mine r = false) → room → redLane x f sz (s, ovf) a term =
      ({ s with fresh := s.fresh + 1, reds := s.reds ++ [e] }, ovf)) ∧
    ((∀ r ∈ s.reds, mine r = false) → ¬ room → let t := redLane x f sz (s, ovf) a term
      t.2 = ovf ++ [a] ∧ t.1.mem = s.mem ∧ ∃ q ∈ t.1.reqs, q.kind = .red s.fresh ∧ q.gang = x.g.id ∧ q.t = pts) ∧
    ((∀ r ∈ s.reds, mine r = true → ¬ (r.f = f ∧ r.sz = sz)) → room → let t := redLane x f sz (s, ovf) a term
      t.2 = ovf ∧ (∃ r ∈ t.1.reds, r.value = term ∧ r.f = f ∧ r.sz = sz ∧ r.gang = x.g.id ∧ r.addr = addr ∧
        r.epoch = epoch ∧ r.drain = none) ∧ ∀ r ∈ s.reds, mine r = true → ∃ d, r.id = d.id ∧ d.drain.isSome ∧ d ∈ t.1.reds)) ∧
  (∀ (a b : Word) i, (i < 2 →
      elemAt (redCombine 0 4 a b) 2#2 i = elemAt a 2#2 i + elemAt b 2#2 i ∧
      elemAt (redCombine 4 4 a b) 2#2 i = (if (elemAt a 2#2 i).sle (elemAt b 2#2 i) then elemAt a 2#2 i else elemAt b 2#2 i) ∧
      elemAt (redCombine 5 4 a b) 2#2 i = (if (elemAt a 2#2 i).sle (elemAt b 2#2 i) then elemAt b 2#2 i else elemAt a 2#2 i)) ∧
    redCombine 1 8 a b = a + b ∧
    (i < 2 → elemAt (redCombine 2 4 a b) 2#2 i = BitVec.ofNat (widthOf 2#2) (fp32.addV ⟨.rne, false, false, false⟩
      (fp32.decode (elemAt a 2#2 i).toNat) (fp32.decode (elemAt b 2#2 i).toNat)).bits) ∧
    redCombine 3 8 a b = BitVec.ofNat 64
      (fp64.addV ⟨.rne, false, false, false⟩ (fp64.decode a.toNat) (fp64.decode b.toNat)).bits ∧
    redCombine 4 8 a b = (if a.sle b then a else b) ∧ redCombine 5 8 a b = if a.sle b then b else a) ∧
  ∀ s x,
    (∀ i o f srcs hm lg, AtmForm i o f srcs hm lg → let W := atmShape o srcs hm lg
      let A := atSource { wr := true, atom := true, align := atSize o.z, scope := some o.k.toNat }
      Reaches s x W false A [] →
      (∃ t, exec i s = .next t ∧ t.mem = s.mem ∧ t.windows = s.windows ∧ WentOn t x) ∧
      let c := commitRegion (s.spoilAudit x.grp.id) x.g.id
      let y := match c.streamOf ⟨x.g.id, if x.g.unified then none else x.ss.head?⟩ with | some y => y | none => x
      ∃ u op, OpIssued false c u y W op ∧ op.waits = (accs s x W A).length ∧ op.flags = (f == 10) ∧
        let t := (accs s x W A).foldl (fun t a =>
          let t := t.flushLine y.grp.core y.grp.part y.grp.asn a.dev a.va
          t.send (.atom a.lane (a.va % 128) (atSize o.z) f (src s x W a.lane 1) (src s x W a.lane 2)
            (match y.sliceOf a.lane with | some sl => sl.fm.code | none => 0)
            ((accs s x W A).find? (fun b => b.dev == a.dev && b.va / 128 == a.va / 128) != some a)) y.grp.core y.g.id (some op.id)
            y.grp.part y.grp.asn (a.va / 128 * 128) a.dev (match t.gang? y.g.id with | some g => g.pts | none => 0)) u
        exec i s = .next (if (accs s x W A).isEmpty then t.returnSoon op.id else t)) ∧
    (∀ i st a b k f sz, RedWord i st a b k f sz → let W := plainShape st [.s7 a, .s7 b] (wideScope k)
      let A := atSource { wr := true, atom := true, align := 8, scope := some k.toNat }
      Reaches s x W false A [] → x.g.unified = true →
      (∃ t, exec i s = .next t ∧ t.mem = s.mem ∧ t.windows = s.windows ∧ WentOn t x) ∧
      ∃ u, LaneDone (s.spoilAudit x.grp.id) u x W (slFlags noOut) noOut ∧
        let r := (accs s x W A).foldl (fun st ac => redLane x f sz st ac (src s x W ac.lane 1))
          (commitRegion u x.g.id, [])
        exec i s = .next (if r.2.isEmpty then r.1 else r.1.modGang x.g.id fun g => { g with
          slices := imap (fun i (sl : Slice) => sl.stick sREDOVF (r.2.any (·.lane / 4 == i))) 0 g.slices })) ∧
    ∀ o : OpSt, Passes s x (plainShape o.s [] true) [] → x.acqHeld s = false → x.g.unified = true →
      (∃ t, exec (.redfl o) s = .next t ∧ t.mem = s.mem ∧ t.windows = s.windows ∧ WentOn t x) ∧
      ∃ u, LaneDone (s.spoilAudit x.grp.id) u x (plainShape o.s [] true) (slFlags noOut) noOut ∧
        exec (.redfl o) s = .next (
          let t := sealNow (commitRegion u x.g.id) x.g.id
          (t.modGang x.g.id fun g => { g with epoch := g.epoch + 1 }).post (.redDrain x.grp.id (.epoch
            (match t.gang? x.g.id with | some g => g.epoch | none => 0))))

/-- When nothing holds the word, each of the words completes, and its stream goes on at the word after.
WSIG.ST and WSIG.ADD commit the gang's region, perform its scratchpad accesses, flush its stores (those of a
signalled line first: log entry 16), set its owned flags going, and leave a record of one signal per active
lane that waits for the gang's accesses, writes, flags, drained terms and earlier releases and signals. A
FENCE leaves an operation that holds the stream's next word and a record that waits: for the stream's
accesses and its gang's signals; where its kind drains (the engine kind, and release and full at device or
system scope or at team scope of a pair), for every write of the core, whose buffer it has flushed; as
release or full at device or system scope, for the core's owned flags, which it sets going; and, but for the
engine kind, for the gang's terms on their way from a flush point, full at device or system scope being a
flush point for all of them. That a term which no flush point has reached is not waited for is log entry
17's choice. (R224, R226, R240, R242, R243, R360) -/
def Obligations.SignalsAndFences : Prop :=
  ∀ s x,
    (∀ i o add, (i = .wsigSt o ∧ add = false) ∨ (i = .wsigAdd o ∧ add = true) →
      let W := plainShape o.s [.s7 o.a, .s7 o.b] (wideScope o.k)
      let A := atSource { wr := true, align := atSize o.z, scope := some o.k.toNat }
      Reaches s x W false A [] →
      (∃ t, exec i s = .next t ∧ t.mem = s.mem ∧ WentOn t x ∧ ((∀ p ∈ s.passes, p.gang ≠ x.g.id) → t.windows = s.windows)) ∧
      ∃ u, LaneDone (s.spoilAudit x.grp.id) u x W (slFlags noOut) noOut ∧
        let t1 := (accs s x W A).foldl (fun t a => t.flushLine x.grp.core x.grp.part x.grp.asn a.dev a.va)
          ((commitRegion u x.g.id).settlePasses x.g.id x.ss)
        let t2 := t1.flushWhere x.grp.core (fun e => e.gangs.contains x.g.id) []
        let flags := t2.flagsOut x.grp.core x.g.id
        let t3 := flags.foldl (fun t i => t.postOnce (.lazyReleaseDrain i)) t2
        exec i s = .next (t3.addWsig ⟨0, x.g.id, x.grp.core, x.grp.part, x.grp.asn, add, atSize o.z,
          (accs s x W A).map fun a => (a.lane, BitVec.ofNat 64 (a.dev * 2 ^ 48 + a.va), src s x W a.lane 1),
          (match t3.gang? x.g.id with | some g => g.pts | none => 0),
          x.opsOut t3 ++ t3.writesOut x.grp.core (fun gs _ => gs.contains x.g.id) ++ flags ++ t3.redsOut x.g.id ++
            t3.signalsOut x.g.id true,
          none, none, false, none, []⟩)) ∧
    ∀ i o acq rel eng full, FenceForm i o acq rel eng full → o.k.toNat ≤ 4 → (eng = true → o.k ≠ 0#3) →
      Passes s x (plainShape o.s [] true) [] →
      (∃ t, exec i s = .next t ∧ t.mem = s.mem ∧ WentOn t x ∧ ((∀ p ∈ s.passes, p.gang ≠ x.g.id) → t.windows = s.windows)) ∧
      ∃ (u : State) (w : Wsig), exec i s = .next (u.addWsig w) ∧ w.gang = x.g.id ∧ w.core = x.grp.core ∧ w.sigs = [] ∧ w.flag = none ∧
        (∃ op ∈ u.ops, w.op = some op.id ∧ op.block = true ∧ op.gang = x.g.id ∧ op.slices = x.ss ∧ op.waits = 1 ∧
          op.acq = (if acq && decide (3 ≤ o.k.toNat) then some o.k.toNat else none)) ∧
        (∀ n ∈ x.opsOut s, n ∈ w.waits) ∧
        (∀ n ∈ s.signalsOut x.g.id rel, n ∈ w.waits) ∧
        (eng = true ∨ (rel = true ∧ (3 ≤ o.k.toNat ∨ (o.k.toNat = 2 ∧ s.pairTeam x.grp = true))) →
          (∀ e ∈ u.smb, e.core ≠ x.grp.core) ∧ ∀ n ∈ u.writesOut x.grp.core fun _ _ => true, n ∈ w.waits) ∧
        (rel = true → 3 ≤ o.k.toNat → ∀ f ∈ s.owned, f.core = x.grp.core →
          f.id ∈ w.waits ∧ .lazyReleaseDrain f.id ∈ u.agenda) ∧
        (full = true → 3 ≤ o.k.toNat → ∀ e ∈ u.reds, e.gang = x.g.id → e.drain.isSome ∧ e.id ∈ w.waits) ∧
        (eng = false → ∀ n ∈ u.redsOut x.g.id, n ∈ w.waits) ∧
        (full = false ∨ o.k.toNat < 3 → u.reds = s.reds) ∧
        (∀ n ∈ w.waits, n ∈ x.opsOut s ∨ n ∈ u.writesOut x.grp.core (fun _ _ => true) ∨ (∃ f ∈ s.owned, f.id = n) ∨
          n ∈ u.redsOut x.g.id ∨ n ∈ s.signalsOut x.g.id rel) ∧
        u.mem = s.mem ∧ ∀ y, u.gang? x.g.id = some y → y.pts = x.g.pts

/-- When nothing holds the word and its checks find no fault: PREF, EVF, LHINT and UNPIN complete, and their
stream goes on at the word after. PREF asks the home of each line without a usable copy for one, once for
each line, without lanes and at PTS; EVF moves the L1 entry of each line, and its L2 entry where this device
is its home, to the LRU position, and every entry stays with its data and lease; LHINT sets the level of
each line's tracked region to at most 9. PIN, from the lowest active lane, stands at issue while the home's
chiplet sets the register: its first visit sends that request, and once it is done the word completes, and
its stream goes on; UNPIN sends a request that holds the stream's next word. Memory stands as it was. The
model's choices (log entry 20): PIN stands at issue, and a PIN of another device's base sets nothing. (R253,
R254, R197) -/
def Obligations.CacheControlWords : Prop :=
  ∀ s x,
    (∀ o : OpCa, let W := plainShape o.s [.s7 o.a] true
      let A := atSource { rd := true }
      Reaches s x W false A [] →
      (∀ i, i = .pref o ∨ i = .evf o → ∃ t, exec i s = .next t ∧ t.mem = s.mem ∧ t.windows = s.windows ∧ WentOn t x) ∧
      (∃ t, exec (.pref o) s = .next t ∧ t.mem = s.mem ∧ Then s t x W fun u => (accs s x W A).foldl (fun t a =>
        match t.tlb? x.grp.core x.grp.part x.grp.asn (farKey a.dev a.va) with
        | some l =>
          let c := t.l1? x.grp.core x.grp.part x.grp.asn (l1Key a.dev a.va)
          if (accs s x W A).find? (fun b => b.dev == a.dev && b.va / 128 == a.va / 128) ≠ some a ∨ (match c with
              | some c => c.usable t x.g.pts (match x.sliceOf a.lane with | some sl => sl.sysAcq | none => 0)
              | none => false) = true ∨ uncached t l = true then t
          else t.send (.read [] (c.bind L1Line.wts?) true false false false 0 []) x.grp.core x.g.id none x.grp.part
            x.grp.asn (a.va / 128 * 128) a.dev x.g.pts
        | none => t) u) ∧
      let leaf := fun (a : LaneAcc) => s.tlb? x.grp.core x.grp.part x.grp.asn (farKey a.dev a.va)
      ∃ t, exec (.evf o) s = .next t ∧ t.mem = s.mem ∧ t.reqs = s.reqs ∧
        t.l1 = s.l1.map (fun c => if (accs s x W A).any fun a => (leaf a).isSome && c.core == x.grp.core &&
          c.part == x.grp.part && c.asn == x.grp.asn && c.va == l1Key a.dev a.va then { c with lru := 0 } else c) ∧
        t.l2 = s.l2.map fun y => if (accs s x W A).any fun a => match leaf a with
          | some l => a.dev == 0 && !l.host && y.chip == (l.lineRef x.grp.part x.grp.asn a.va).chip &&
            y.pa == (l.lineRef x.grp.part x.grp.asn a.va).line
          | none => false then { y with lru := 0 } else y) ∧
    (∀ o : OpCab, let W := plainShape o.s [.s7 o.a, .s7 o.b] true
      let A := atSource { rd := true }
      Reaches s x W false A [] → ∃ t, exec (.lhint o) s = .next t ∧ t.mem = s.mem ∧ t.windows = s.windows ∧ WentOn t x ∧ t.l2 = s.l2 ∧
        ∀ a L2 l, accs s x W A = [⟨a, 0, L2⟩] → s.tlb? x.grp.core x.grp.part x.grp.asn (farKey 0 L2) = some l → l.host = false →
          (s.track (l.lineRef x.grp.part x.grp.asn L2)).region? (l.lineRef x.grp.part x.grp.asn L2) ≠ none →
          t.levelOf (l.lineRef x.grp.part x.grp.asn L2) = min (src s x W a 1).toNat 9) ∧
    (∀ (o : OpCab) L rest va, let W := plainShape o.s [.s7 o.a, .s7 o.b] true
      let k := fld (src s x W L 1) 0 3
      x.actives = L :: rest → Passes s x W [] → gaddr s (src s x W L 0) = some (0, va) → va % 128 = 0 →
      (∀ c, pinChip s x.grp (src s x W L 0) = some c →
        (s.rets.filter fun r => r.chip == c && !(r.part == x.grp.part && r.k == k)).length < 8) →
      (relDone s x = none → exec (.pin o) s = .next (hold ((retRequest s x (.pin k (fld (src s x W L 1) 40 24)
        (fld (src s x W L 1) 16 24)) va).modOp s.fresh fun p => { p with vals := [(L, 0)] }) x)) ∧
      ∀ p, relDone s x = some p → ∃ t, exec (.pin o) s = .next t ∧ t.mem = s.mem ∧ WentOn t x ∧
        Then { s with ops := s.ops.filter (·.id != p.id) } t x W id) ∧
    (∀ (o : OpCab) L rest dev va, let W := plainShape o.s [.s7 o.a, .s7 o.b] true
      x.actives = L :: rest → Passes s x W [] → gaddr s (src s x W L 0) = some (dev, va) → dev ≠ 0 → s.joined = true → va % 128 = 0 →
      relDone s x = none → ∃ t, exec (.pin o) s = .next t ∧ Then s t x W id) ∧
    ∀ (o : OpCb) L rest, let W := plainShape o.s [.s7 o.b] true
      x.actives = L :: rest → Passes s x W [] → ∃ t, exec (.unpin o) s = .next t ∧ t.mem = s.mem ∧ WentOn t x ∧
        Then s t x W fun u => retRequest u x (.unpin (fld (src s x W L 0) 0 3)) 0

/-- At device or system scope, when nothing holds the word and its lanes' checks find no fault, each of the
four words completes: over cells of this device its stream goes on at the word after, and it issues one
operation that waits for one reply of each active lane and sends each lane's request at the gang's PTS, in
ascending lane order, its value registers waiting for that operation; a lane of DREAD that a decided copy
serves sends nothing and has STS 5 at once. Over a cell of another device the word stands at issue with its
operation until the replies are there (the model's reading, log entry 26). Memory stands as it was. (R222,
R261, R262, R263, R264, R267, R268) -/
def Obligations.DecideOnceWords : Prop :=
  (∀ s x i st a more regs k legal wr rd kind, DocForm s x i st a more regs k legal wr rd kind →
    let W := docShape st a more k legal
    let A := docCells wr rd k
    let as := accs s x W A
    let v := allVals s.beat x.g W.srcs
    Reaches s x W true A [] → (∀ r ∈ regs, x.morePending r = false) → (∀ o ∈ s.ops, o.id < s.fresh) →
    ((∀ a ∈ as, a.dev = 0) → ∃ t, exec i s = .next t ∧ t.mem = s.mem ∧ t.windows = s.windows ∧ WentOn t x) ∧
    ((∀ a ∈ as, LocalCell s x a) →
      (∀ o, i = .dread o → ∀ a ∈ as, s.decidedCopy? x.grp a.dev a.va (docGen v a.lane) = none) →
      let c := if wr then s.spoilAudit x.grp.id else s
      ∃ (u : State) (op : Op), OpIssued true c u x W op ∧ op.waits = as.length ∧
        let t := asked x op.id (kind v) as (regs.foldl (fun t r => t.reserveMore x r op.id) u)
        exec i s = .next (if as.isEmpty then t.replySoon op.id else t)) ∧
    ((∃ a ∈ as, a.dev ≠ 0) → ∃ t, exec i s = .next t ∧ t.held = true ∧ t.mem = s.mem ∧
      ∃ op ∈ t.ops, op.id = s.fresh ∧ op.gang = x.g.id ∧ op.block = true ∧ op.doc = true)) ∧
  ∀ x op b n g s (a : LaneAcc) c dts o, s.decidedCopy? x.grp a.dev a.va g = some (c, dts) → s.op? op = some o →
    s.group? x.grp.id = some x.grp → x.grp.replay = none →
    (dreadLane x op b n g s a).reqs = s.reqs ∧ (dreadLane x op b n g s a).mem = s.mem ∧
    ∃ p, (dreadLane x op b n g s a).op? op = some p ∧ p.vals = o.vals ++ [(a.lane, docResult g 5)] ∧
      p.waits = o.waits - 1

/-- When nothing holds the word, each of these completes, its stream goes on at the word after, and: REGION
opens a region with the word after as its entry; EMIT, LNCH and FORK first end the region their gang is
inside; EMIT, once its release is performed (the stream stands at issue until then, log entry 65), appends
each active lane's eight registers to the stage's queue and says in PD whether there was room: a stage with
room takes the record, its clock and the lane's PTS, writes the 64 bytes to its ring in device memory and
moves its tail (the slot is log entry 61's choice), and a full one takes nothing; LNCH offers 128 bytes to
queue 15, those of its address read at PTS once the release is performed, or those that another device has
answered, and says in PD whether a slot was free; FORK starts a program of each selected engine that counts
on its barrier; FKILL ends the group's programs of one barrier, or all. CSRW CLKTEST with another partition
enabled sets only REJ; alone it presets every clock of the device, every line and every gang to the value;
CSRW ERRINJ performs the injection of the lowest active lane's value and reads 0 afterwards. (R219, R338,
R360, R368, R369, R370, R371, R372, R387) -/
def Obligations.LaunchAndTestWords : Prop :=
  ∀ s x,
    (∀ o : OpRegion, o.g.toNat < 60 → StreamReady s x → x.g.unified = true →
      exec (.region o) s = .next (((goOn s x o.s).modGang x.g.id fun g =>
        { g with region := some (x.pc + 4, x.uni o.g) }).regionTest x.grp.team)) ∧
    (let c := commitRegion s x.g.id
      let y : Cx := { x with g := { x.g with region := none } }
      let base := match relDone c y with | some o => { c with ops := c.ops.filter (·.id != o.id) } | none => c
      (relDone c y = none → relPending c y = false ∧ ∀ p ∈ s.passes, p.gang ≠ x.g.id) →
    (∀ (o : OpEmit) l, let base' := if o.h = 1#1 then 8 else 0
      let W : Shape := { st := o.s.toNat, srcs := (rangeFrom base' 8).map fun r => .s7 (BitVec.ofNat 7 r)
                         dst := .none, lat := 0 }
      Passes s x W [] → x.acqHeld s = false → s.launch? x.grp.part x.grp.lid = some l → o.t.toNat < l.stages.length →
      (∀ L ∈ x.actives, src s x W L 0 &&& 3 = 0) →
      (∃ t, exec (.emit o) s = .next t ∧ t.mem = s.mem ∧ t.windows = s.windows ∧ WentOn t x) ∧
      ∃ u, LaneDone (base.spoilAudit x.grp.id) u y W (slFlags noOut) noOut ∧
        let r := x.actives.foldl (fun (st : State × List (Nat × Bool)) L =>
          let e := emitLane x.grp.part x.grp.lid o.t.toNat x.grp.stage ((rangeFrom 0 8).map fun k => src s x W L k)
            x.g.pts st.1
          (e.1, st.2 ++ [(L, e.2)])) (u, [])
        let z := setPreds r.1 x.g.id x.ss o.p.toNat fun L => (r.2.find? (·.1 == L)).map (·.2)
        let look := Instr.gatherTimeout x.grp.part x.grp.lid o.t.toNat
        exec (.emit o) s = .next (((match z.launch? x.grp.part x.grp.lid with
          | some m => if earlierWork z m o.t.toNat then z else z.postOnce look
          | none => z).postAt (s.cycle + 2048) look).kick)) ∧
    ∀ o : OpLnch, let A : Accs := fun x _ => [(lowLane x.mask, { rd := true, align := 128 }, x.uni o.g)]
      o.g.toNat < 60 → StreamReady s x → x.g.unified = true → accWait s false A x [] = none → accCauses s A x [] = [] →
      ∀ s1 d wts, lnchGot base y (x.uni o.g) (relDone c y) = .ok s1 d wts → s1.gangs = c.gangs → s1.mem = s.mem →
      s1.windows = s.windows → s1.groups = s.groups → s1.bad = [] →
      (∃ t, exec (.lnch o) s = .next t ∧ t.mem = s.mem ∧ t.windows = s.windows ∧ WentOn t x) ∧
      let u := goOn (s1.spoilAudit x.grp.id) y o.s
      let v := match wts with | some t => u.raisePts x.g.id t | none => u
      let q := (s1.part x.grp.part).queue 15
      exec (.lnch o) s = .next (if (q.wi - q.ci).toNat < 64 then
          setPreds (((v.modPart x.grp.part fun p =>
            { p with devq := p.devq ++ [(q.wi.toNat, d, x.grp.asn)] }).modQueue
              x.grp.part 15 fun q => { q with wi := q.wi + 1 }).postOnce (.launchAccept x.grp.part 15))
            x.g.id x.ss o.p.toNat fun L => if x.actives.contains L then some true else none
        else setPreds v x.g.id x.ss o.p.toNat fun L => if x.actives.contains L then some false else none)) ∧
    (∀ a, (∀ va, gaddr s a = some (0, va) → lnchGot s x a none = lnchRead s x.grp a x.g.pts) ∧
      (∀ dev va, gaddr s a = some (dev + 1, va) → lnchGot s x a none = .wait s) ∧
      ∀ p : Op, p.vals ≠ [] → p.dead = [] →
        lnchGot s x a (some p) = .ok s (p.vals.map fun v => leBytes 8 v.2.toNat).flatten none) ∧
    (∀ part lid k from' words pts (l : Launch) (g : Stage), s.launch? part lid = some l → l.stages[k]? = some g →
      (g.qcap ≤ g.recs.length → emitLane part lid k from' words pts s = (s, false)) ∧
      (g.recs.length < g.qcap →
        (∀ e, (({ g with recs := g.recs ++ [⟨words, pts, s.cycle⟩] } : Stage).naming e).length < l.width) →
        ∃ m h q, let r := emitLane part lid k from' words pts s
        r.2 = true ∧ r.1.mem = s.mem ∧ r.1.launch? part lid = some m ∧ m.stages[k]? = some h ∧
        h.recs = g.recs ++ [⟨words, pts, s.cycle⟩] ∧ h.tail = g.tail + 1 ∧ q ∈ r.1.reqs ∧
        let bs := (words.map fun w => leBytes 8 w.toNat).flatten
        let off := g.slot % 2 ^ 48 % 128
        q.kind = .write (maskAt off bs.length) ((lineAt off bs ++ List.replicate 128 0).take 128) [] false false ∧
        q.va = g.slot % 2 ^ 48 / 128 * 128 ∧ q.part = part ∧ q.asn = l.asn ∧ q.dev = 0 ∧ q.t = s.dclk)) ∧
    (∀ (o : OpEnF) l, o.f ≠ 0#2 → EngineReady s x [o.a, o.b] [] → engineBar s x.grp (x.uni o.b) = .ok l →
      forkAddr s x.grp (x.uni o.a) = ([], .known) → let f := (commitRegion s x.g.id).fresh
      ∃ t, exec (.fork o) s = .next t ∧ t.mem = s.mem ∧ t.windows = s.windows ∧ WentOn t x ∧
        (∀ g, t.gang? x.g.id = some g → g.region = none) ∧
        t.progs = s.progs ++
          (if o.f.getLsbD 0 then [⟨f, x.grp.id, x.g.id, true, x.uni o.a, 0, x.g.g, l, x.g.pts, x.g.pts, false⟩]
            else []) ++
          (if o.f.getLsbD 1 then [⟨f + (if o.f.getLsbD 0 then 1 else 0), x.grp.id, x.g.id, false, x.uni o.a, 0,
            x.g.g, l, x.g.pts, x.g.pts, false⟩] else [])) ∧
    (∀ o : OpEnA, (o.f = 1#1 → o.a = 0#6) → EngineReady s x [o.a] [] →
      (∀ p ∈ s.progs, ∀ q ∈ s.progs, p.id = q.id → p = q) →
      ∃ t, exec (.fkill o) s = .next t ∧ t.mem = s.mem ∧
        t.progs = s.progs.filter fun p => !(p.group == x.grp.id && (o.f == 1#1 ||
          some p.bar == (scratchAt s x.grp (x.uni o.a)).map fun w => (⟨w.1.core, w.2⟩ : BarLoc)))) ∧
    (∀ (o : OpCsrwK) L rest, let W : Shape := { st := o.s.toNat, srcs := [.s7 o.x], dst := .none, lat := 0 }
      (s.part x.grp.part).test = true → Passes s x W [] → x.actives = L :: rest → fld (src s x W L 0) 24 8 = 0 →
      ((∃ p, p < 8 ∧ p ≠ x.grp.part ∧ (s.part p).en = true) → ∃ t, exec (.csrwClktest o) s = .next t ∧
        Then s t x W fun u => u.modPart x.grp.part fun q => { q with clkrej := true }) ∧
      ((∀ p, p < 8 → p ≠ x.grp.part → (s.part p).en = false) → ∃ t, exec (.csrwClktest o) s = .next t ∧
        t.mem = s.mem ∧ t.dclk = (src s x W L 0).setWidth 24 ∧
        (∀ c ∈ t.chips, c.cc = (src s x W L 0).setWidth 24 ∧ c.mts = (src s x W L 0).setWidth 24) ∧
        (∀ f ∈ t.floors, f = (src s x W L 0).setWidth 24 - 0x400000#24) ∧
        (∀ y ∈ t.l2, y.wts = (src s x W L 0).setWidth 24 ∧ y.rts = (src s x W L 0).setWidth 24) ∧
        (∀ g ∈ t.gangs, g.pts = (src s x W L 0).setWidth 24) ∧
        ∀ c ∈ t.l1, ∃ gen dts, c.lease = .decided gen dts)) ∧
    ∀ (o : OpCsrwK) L rest, let W : Shape := { st := o.s.toNat, srcs := [.s7 o.x], dst := .none, lat := 0 }
      (s.part x.grp.part).debug = true → Passes s x W [] → x.actives = L :: rest →
      injBad s x.grp (src s x W L 0) = false →
      (fld (src s x W L 0) 60 4 = 1 → s.tileBusy x.grp.id (fld (src s x W L 0) 56 4) = false) →
      ∃ t, exec (.csrwErrinj o) s = .next t ∧
        Then s t x W fun u => (inject u x.grp (src s x W L 0)).modGroup x.grp.id fun G => { G with errinj := 0 }

/-- For a unified gang whose word's checks find no cause: MXCFG, MXRES, MXREL and MXRAKE change the one
register, tile, handle or Rake slot they name and nothing else but their own stream; MXLDB, MXBEGIN, MXLOOP,
MXEND, MXZERO, MXDRAIN and MXCHK, when fewer than 32 commands wait at the core, enter one queued command
with the captured operands, the gang's PTS and the barrier, in ascending gang index among the words of one
beat, as log entry 58 keeps it, and change nothing of memory, scratchpad or the gang's registers. (R309,
R316, R317, R318, R319, R320, R321, R322, R323, R329, R330) -/
def Obligations.MatrixWords : Prop :=
  ∀ s x,
    (∀ i st regs causes f, MxNow s x i st regs causes f → EngineReady s x regs causes →
      ∃ t, exec i s = .next t ∧ t.gangs = (goOn s x st).gangs ∧ t.bad = [] ∧
        t = { goOn s x st with groups := s.groups.map fun G => if G.id = x.grp.id then f G else G }) ∧
    ∀ i st regs causes kind bar ch, MxQueued s x i st regs causes kind bar ch → EngineReady s x regs causes →
      (s.mx.filter (·.core == x.grp.core)).length < 32 →
      ∃ t, exec i s = .next t ∧ t.mem = s.mem ∧ t.windows = s.windows ∧ t.gangs = (goOn s x st).gangs ∧
        MxJoins ⟨s.fresh, x.grp.core, x.grp.id, kind, x.g.pts, bar, none,
          if kind = .chainBegin then s.fresh else match x.grp.chain with | some c => c.1 | none => 0,
          .queued, 0, none, x.g.idx, s.beat, none⟩ s.mx t.mx ∧
        ∃ G, t.group? x.grp.id = some G ∧ G.chain = ch x.grp.chain ∧ G.z = x.grp.z ∧ G.handles = x.grp.handles ∧
          G.rakes = x.grp.rakes ∧ G.nfmt = x.grp.nfmt

/-- For a unified gang whose word's checks find no cause: SXCOPY, SXGATH, SXSCAT and SXFILL, when fewer than
32 commands wait at the core, append one queued command with the record as it stands, the bases, EF and PTS,
and count it on the record's barrier; SXFLIP hands its tiles to the engines under the swizzle code and
SXFLIP.t hands idle ones back to threads; SXCAN marks the group's outstanding commands of one barrier, or
all of them, with cause 0x25; SXSTAT writes its report to the uniform register it names, 0 where the offset
names no barrier (this, and what SXCAN and SXSTAT check of an offset, is the model's reading, log entry 32).
Memory and scratchpad bytes stand as they were. (R275, R277, R278, R279, R289, R290, R291, R292, R293) -/
def Obligations.StreamWords : Prop :=
  ∀ s x,
    (∀ i o kind w off bs l, SxForm i o kind → EngineReady s x [o.a, o.b, o.c] [] →
      readRecord s x.grp (x.uni o.a) = .ok (w, off, bs) → patBad bs kind = false →
      engineBar s x.grp (BitVec.ofNat 64 (patOf bs).bar) = .ok l →
      (s.sx.filter (·.core == x.grp.core)).length < 32 →
      ∃ t, exec i s = .next t ∧ t.mem = s.mem ∧ t.windows = s.windows ∧ t.gangs = (goOn s x o.s).gangs ∧
        t.sx = s.sx ++ [sxCmd s x kind bs (x.uni o.b) (x.uni o.c) (o.e == 1#1) l] ∧
        t.groups = ((goOn s x o.s).bumpOut x.grp.id l true).groups) ∧
    (∀ i st (a b : BitVec 6) (eng : Bool) (f : Tile → Tile) w off,
      ((∃ o : OpEnF, i = .sxflip o ∧ st = o.s ∧ a = o.a ∧ b = o.b ∧ eng = false ∧
          f = fun t => { t with engine := true, swz := o.f }) ∨
        (∃ o : OpEn2, i = .sxflipT o ∧ st = o.s ∧ a = o.a ∧ b = o.b ∧ eng = true ∧
          f = fun t => { t with engine := false })) → EngineReady s x [a, b] [] →
      scratchAt s x.grp (x.uni a) = some (w, off) → (x.uni a).getLsbD 23 = false → off % 4096 = 0 →
      1 ≤ (x.uni b).toNat → (x.uni b).toNat ≤ 512 → off + (x.uni b).toNat * 4096 ≤ w.size →
      (∀ k, off / 4096 ≤ k → k < off / 4096 + (x.uni b).toNat →
        (w.tile k).engine = eng ∧ s.touchesBar x.grp.team w.core (k * 4096) 4096 = false ∧
        (eng = true → (w.tile k).wclaim = none ∧ (w.tile k).rclaim = [])) →
      exec i s = .next ((rangeFrom (off / 4096) (x.uni b).toNat).foldl (fun t k => t.modTile w.id k f) (goOn s x st))) ∧
    (∀ (o : OpEnA) (p : SxCmd → Bool),
      (o.f = 1#1 ∧ o.a = 0#6 ∧ EngineReady s x [] [] ∧ p = (fun _ => true)) ∨
        (o.f = 0#1 ∧ EngineReady s x [o.a] [] ∧ ∃ l, statBar s x.grp (x.uni o.a) = .ok l ∧ p = fun c => c.bar == some l) →
      ∃ t, exec (.sxcan o) s = .next t ∧ t.mem = s.mem ∧ t.windows = s.windows ∧ t.gangs = (goOn s x o.s).gangs ∧
        t.sx = s.sx.map fun c => if (s.sx.filter fun d => d.group == some x.grp.id && p d).any (·.id == c.id) &&
          ((s.sx? c.id).bind (·.cancel)).isNone then { c with cancel := some 0x25 } else c) ∧
    ∀ (o : OpEn2), o.a.toNat < 60 → EngineReady s x [o.b] [] →
      exec (.sxstat o) s = .next ((goOn s x o.s).modGang x.g.id fun g =>
        { g with g := modAt (fun _ => match statBar s x.grp (x.uni o.b) with
          | .ok l => sxReport s x.grp.id l
          | .error _ => 0) o.a.toNat g.g })

/-- A step performs the agenda's first entry, and with neither agenda nor turns a beat passes. ISSUE_BEAT
stops the groups that a BKPT halts, moves the cycle by 4 and PTPNOW by the clock (whose remainder and slew
are log entry 48's), puts every timer that is due on the agenda and keeps the others, performs the
scratchpad accesses whose last pass is done, lays out turns of streams that can issue, and changes no other
register and no global memory. TLB_FILL enters the leaf of the walk, or tells the fault queue of an absent
page, and FETCH_FILL enters a line, once no line they read is held by another agent; else they try again a
beat later. SLEEP_EXPIRY makes slices whose sleep has run out ready from the beat it ended. RESULT_RETURN,
once nothing is awaited, fills what waits for the operation and no other register, or takes the trap 0x07 of
an enabled exception with no register written (at the return: log entry 52), or lets a word go on that
stands at issue for it. The model's choices: the agenda before the turns (log entries 3 and 7), and a walk
as one step and an instruction-cache fill without a capture (log entry 13). (R20, R35, R46, R59, R99, R121,
R192, R193, R194, R435, R448) -/
def Obligations.IssueSteps : Prop :=
  (∀ s i rest, s.agenda = i :: rest → step s = exec i { s with agenda := rest }) ∧
  (∀ s, s.agenda = [] → s.turns = [] → step s = exec .issueBeat s) ∧
  (∀ s, ∃ t, exec .issueBeat s = .next t ∧ t.cur = none ∧ t.granted = [] ∧ t.usedPipes = [] ∧
    (∀ T ∈ t.turns, ∃ x, t.streamOf T.ref = some x ∧ x.comes t = true ∧ T.core = x.grp.core ∧ T.sched = x.g.sched) ∧
    (s.bad = [] → t.cycle = s.cycle + 4 ∧ t.mem = s.mem ∧ t.gangs = s.haltGroups.gangs ∧ t.groups = s.haltGroups.groups ∧
      (s.slew = 0 → t.ptp = s.ptp + (s.ptpRem + 4000) / s.mhz) ∧
      (∀ e ∈ s.timers, if e.1 ≤ s.cycle + 4 then e.2 ∈ t.agenda else e ∈ t.timers) ∧
      (∀ p ∈ t.passes, p ∈ s.passes ∧ (p.slices ≠ [] → s.beat + 1 < p.due)) ∧
      ((∀ p ∈ s.passes, s.beat + 1 < p.due) → t.passes = s.passes ∧ t.windows = s.windows ∧ t.ops = s.ops) ∧
      ∀ p, s.passes = [p] → p.slices ≠ [] → p.due ≤ s.beat + 1 →
        t.windows = (s.haltGroups.performPass p).windows ∧ t.ops = (s.haltGroups.performPass p).ops)) ∧
  (∀ s core part asn va, va < 2 ^ 48 → s.draining part asn va = false → s.tlb? core part asn va = none →
    (∀ u l, s.walkRead part asn va = .ok u → walk u part asn va = .leaf l →
      ∃ t, exec (.tlbFill core part asn va) s = .next t ∧ t = { u with tlb := t.tlb } ∧ t.tlb.head? = some ⟨core, part, asn, l⟩) ∧
    (∀ u, s.walkRead part asn va = .ok u → part < u.parts.length → walk u part asn va = .absent →
      ∃ t, exec (.tlbFill core part asn va) s = .next t ∧
        (asn, va / 65536 * 65536) ∈ (t.part part).faultq ∧ t = { u with parts := t.parts }) ∧
    ∀ h, s.walkRead part asn va = .error h → exec (.tlbFill core part asn va) s =
      .next ((s.onHold h 0).postAt (s.cycle + 4) (.tlbFill core part asn va))) ∧
  (∀ s core part asn va, (core, part, asn, va / 128) ∉ s.icache →
    (∀ u, fetchLook s core part asn va = .ok u → ∃ t, exec (.fetchFill core part asn va) s = .next t ∧
      (core, part, asn, va / 128) ∈ t.icache ∧ t = { u with icache := t.icache }) ∧
    ∀ u, fetchLook s core part asn va = .error u → exec (.fetchFill core part asn va) s =
      .next (u.postAt (u.cycle + 4) (.fetchFill core part asn va))) ∧
  (∀ s gang k g, s.gang? gang = some g → ∃ t h, exec (.sleepExpiry gang k) s = .next t ∧ t.gang? gang = some h ∧
    t = { s with gangs := t.gangs } ∧ ∀ i sl, g.slices[i]? = some sl → ∃ sl', h.slices[i]? = some sl' ∧
      (∀ due, sl.run = .sleep due → due ≤ s.beat → (g.unified = true ∨ i = k) →
        sl' = { sl with run := .run, readyAt := due, since := due }) ∧
      (((∀ due, sl.run = .sleep due → s.beat < due) ∨ (g.unified = false ∧ i ≠ k)) → sl' = sl)) ∧
  (∀ s id o, s.op? id = some o → o.waits = 0 → o.doc = false → o.rel = true → o.fabric = [] →
    exec (.resultReturn id) s = .next { s with ops := s.ops.map fun (p : Op) => if p.id = id then { p with block := false } else p }) ∧
  (∀ s id o, s.op? id = some o → o.waits = 0 → o.doc = false → o.rel = false → o.xc = none → o.dead = [] → o.fabric = [] → s.bad = [] →
    ∃ t, exec (.resultReturn id) s = .next t ∧ t = { s with gangs := t.gangs, ops := s.ops.filter (·.id != o.id) } ∧
      ∀ g, s.gang? o.gang = some g → ∃ h, t.gang? o.gang = some h ∧ ∀ i sl, g.slices[i]? = some sl →
        h.slices[i]? = some (if o.slices.contains i then Slice.fill o i sl else sl)) ∧
  (∀ s id o e g G, s.op? id = some o → o.waits = 0 → o.doc = false → o.rel = false → o.xc = some e → s.gang? o.gang = some g →
    s.group? g.group = some G → exec (.resultReturn id) s = .next (takeTrap { s with ops := s.ops.filter (·.id != o.id) }
      (Cx.withXC ⟨g, G, o.slices⟩ e.1) 0x07 0 false e.2 none)) ∧
  ∀ (o : Op) i sl j l r, sl.lanes[j]? = some l → o.reg = some r → r < l.n.length → o.regs = [] → ∃ l',
    (Slice.fill o i sl).lanes[j]? = some l' ∧ l'.p = l.p ∧ l'.dead = l.dead ∧
    (∀ k, k ≠ r → l'.n[k]? = l.n[k]?) ∧
    ((at' Timing.zero sl.nT r).pend ≠ some o.id → l'.n = l.n) ∧
    ∀ v, o.valueAt (4 * i + j) = some v → (at' Timing.zero sl.nT r).pend = some o.id → l'.n[r]? = some v

/-- HOME_READ of a line in L2 leaves WTS, raises RTS to smax(RTS, smax(t, WTS) + 8·2^level) and CC to it,
gives each lane the bytes its core's buffers held at issue (log entry 15) and the line's others, and raises
the gang's PTS to WTS. HOME_WRITE sets WTS = RTS = smax(t, RTS + 1), t the request's timestamp or for
another device's DCLK, raises CC, replaces exactly the bytes of the line under the mask, and sends the
acknowledgement; SMB_FLUSH_ACK raises the PTS of the gangs that stored to the WTS that the home returned, if
it returned one. SMB_FLUSH_TIMEOUT sends the entry it names to its home. Any other byte of memory stands as
it was. (R200, R201, R202, R203, R214) -/
def Obligations.HomeReadsAndWrites : Prop :=
  (∀ s q l r y lanes cwts fill ef keep mask ahead, AtHome s q l r y →
    q.kind = .read lanes cwts fill false ef keep mask ahead →
    overInterval (s.chip r.chip) (readRts s r y q.t) = false →
    ∃ t z, exec (.homeRead q.id) s = .next t ∧ t.mem = s.mem ∧ t.req? q.id = none ∧
      t.l2? r = some z ∧ z.wts = y.wts ∧
      z.rts = smax y.rts (smax q.t y.wts + BitVec.ofNat 24 (8 <<< s.levelOf r)) ∧
      (t.chip r.chip).cc = smax (s.chip r.chip).cc z.rts ∧
      Answered s t q (lanes.map fun e =>
        (e.1, leWord (((overlayBytes mask ahead (lineOf s r.line)).drop e.2.1).take e.2.2))) ∧
      (lanes ≠ [] → Raised s t q.gang y.wts)) ∧
  (∀ s q l r y mask data gangs ef, AtHome s q l r y → InTime s q r y → q.kind = .write mask data gangs ef false →
    data.length = 128 → let w := smax (s.writeTime q) (y.rts + 1)
    ∃ t, exec (.homeWrite q.id) s = .next t ∧ Leased s t r w ∧
      Pokes s t (fun a => a / 128 == r.line && mask.getLsbD (a % 128)) (fun a => at' 0 data (a % 128)) ∧
      (∃ p, t.req? q.id = some p ∧ p.served = true ∧ p.wts = some w) ∧ .smbFlushAck q.id ∈ t.agenda) ∧
  (∀ s q mask data gangs ef bad, s.req? q.id = some q → q.served = true →
    q.kind = .write mask data gangs ef bad → ∃ t, exec (.smbFlushAck q.id) s = .next t ∧ t.mem = s.mem ∧
      t.req? q.id = none ∧ (∀ w ∈ t.wsigs, q.id ∉ w.waits) ∧ ∀ g ∈ s.gangs, (∃ h ∈ t.gangs, h.id = g.id ∧
        h.pts = match q.wts with | some w => if gangs.contains g.id then smax g.pts w else g.pts | none => g.pts)) ∧
  ∀ s e, e ∈ s.smb → s.inj6For e.gangs = none → (∀ d ∈ s.smb, d.id = e.id → d = e) → ∃ t, exec (.smbFlushTimeout e.core e.id) s = .next t ∧
    t.mem = s.mem ∧ t.smb = s.smb.filter (·.id != e.id) ∧
    ∃ q ∈ t.reqs, q.kind = .write e.mask e.data e.gangs e.ef false ∧ q.va = e.va ∧ q.dev = e.dev ∧ q.t = e.t

/-- HOME_ATOMIC gives the operation the old value of the lane's bytes and its flags, raises the gang's PTS
to the returned WTS, and replaces exactly those bytes with the function's result; RED_ENTRY_APPLY replaces
the 8 bytes at the entry's address with the combination of their value and the entry's, keeps the returned
WTS for the acknowledgement, and RED_DRAIN_ACK raises the gang's PTS to it, where the home returned one, and
forgets the entry. Each takes the lease of a write. RED_DRAIN of an epoch sends off the group's entries of
that epoch and the ones before whose epoch their own gang and every gang of the group that has not ended
have gone past; RED_DRAIN of a gang seals and sends off its entries, and that of a group's end all of the
group's. (R235, R236, R237, R240) -/
def Obligations.AtomicsAtTheirHomes : Prop :=
  (∀ s q l r y lane off n f b c fm again, AtHome s q l r y → q.src = none → InTime s q r y →
    q.kind = .atom lane off n f b c fm again → off + n ≤ 128 → let old := leNat (((lineOf s r.line).drop off).take n)
    let v := atomVal f (8 * n) old (b.toNat % 2 ^ (8 * n)) (c.toNat % 2 ^ (8 * n)) (FMode.ofCode fm)
    let w := smax q.t (y.rts + 1)
    ∃ t, exec (.homeAtomic (.req q.id)) s = .next t ∧ Leased s t r w ∧ t.req? q.id = none ∧
      Pokes s t (within (r.line * 128 + off) n) (fun a => at' 0 (leBytes n v.1) (a - (r.line * 128 + off))) ∧
      Answered s t q [(lane, BitVec.ofNat 64 old)] ∧ Raised s t q.gang w ∧
      ∀ id o, q.op = some id → s.op? id = some o → ∃ p, t.op? id = some p ∧ p.fl = o.fl ++ [(lane / 4, v.2)]) ∧
  (∀ s q l r y e, AtHome s q l r y → q.src = none → InTime s q r y → q.kind = .red e.id → s.reds.find? (·.id == e.id) = some e →
    s.reqs.find? (fun p => p.kind == .red e.id) = some q → q.va % 8 = 0 →
    let k := r.line * 128 + q.va % 128
    let w := smax q.t (y.rts + 1)
    ∃ t, exec (.redEntryApply e.id) s = .next t ∧ Leased s t r w ∧
      Pokes s t (within k 8) (fun a => at' 0 (leBytes 8 (redCombine e.f e.sz (leWord (s.mem.read k 8)) e.value).toNat) (a - k)) ∧
      (t.reds.find? (·.id == e.id)) = some { e with ts := w } ∧ .redDrainAck e.id ∈ t.agenda) ∧
  (∀ s q e, q.kind = .red e.id → s.reds.find? (·.id == e.id) = some e →
    s.reqs.find? (fun p => p.kind == .red e.id) = some q → q.served = true →
    ∃ t, exec (.redDrainAck e.id) s = .next t ∧ t.mem = s.mem ∧ (q.wts.isSome = true → Raised s t e.gang e.ts) ∧
      (q.wts = none → t.gangs = s.gangs) ∧
      t.reds = s.reds.filter (·.id != e.id) ∧ t.req? q.id = none ∧ ∀ w ∈ t.wsigs, e.id ∉ w.waits) ∧
  (∀ s group gang, exec (.redDrain group (.gang gang)) s =
    .next (startDrain (sealNow s gang) fun e => e.gang == gang && e.group == group)) ∧
  (∀ s group e, exec (.redDrain group (.epoch e)) s = .next (startDrain s fun r => r.group == group && decide (r.epoch ≤ e) &&
    (match s.gang? r.gang with | some g => decide (r.epoch < g.epoch) | none => false) &&
    s.gangs.all fun g => g.group != group || g.ended.isSome || decide (r.epoch < g.epoch))) ∧
  (∀ s group, exec (.redDrain group .groupEnd) s =
    .next (startDrain ((s.gangsOf group).foldl (fun s g => sealNow s g.id) s) fun e => e.group == group)) ∧
  ∀ s p, (∀ q ∈ s.reqs, q.id < s.fresh) → ∃ r, (startDrain s p).reqs = s.reqs ++ r ∧ (startDrain s p).mem = s.mem ∧
    (∀ e ∈ s.reds, p e = true → e.drain = none → ∃ q ∈ r, q.kind = .red e.id ∧ q.t = e.ts ∧ q.op = none) ∧
    ∀ q ∈ r, ∀ k, q.kind = .red k → ∃ e ∈ s.reds, p e = true ∧ e.drain = none ∧ e.id = k

/-- At the home of a well-formed cell, HOME_PROP, HOME_DREAD, HOME_RECYC and HOME_DSTAT complete, and the
request is gone: a PROP whose generation is not the cell's has STS 4; over an undecided cell it writes VAL,
the winner identity and ST 1, no other byte of memory, and has STS 0; over a decided one it writes nothing
and raises PTS to the decision's time DTS (a decided cell without one takes the returned wts), and it has 1
where the identity is its own, else 2 where a lane of its own word decided the cell, else 3 where DTS is its
timestamp or precedes it, and 2 otherwise, each with the decided value. DREAD has 4, 6 or 5 with the value,
DSTAT 6 or 5, and RECYC by the winner's launch clears the cell under the next generation with STS 6, else 4,
6 or 7 and no write. DOC_REPLY returns the result once every lane has its reply, or takes trap 0x1C where a
word stands at issue for a device that gave none. (R222, R258, R259, R260, R262, R264, R267, R268, R419) -/
def Obligations.CellRules : Prop :=
  (∀ s q l r y c, CellAt s q l r y c → InTime s q r y → ∀ i,
    ((∃ lane g b n val wid time, q.kind = .prop lane g b n val wid time ∧ i = .homeProp (.req q.id)) ∨
      (∃ lane g b n, q.kind = .dread lane g b n ∧ i = .homeDread (.req q.id)) ∨
      (∃ lane g own, q.kind = .recyc lane g own ∧ i = .homeRecyc (.req q.id)) ∨
      ∃ lane, q.kind = .dstat lane ∧ i = .homeDstat (.req q.id)) →
    ∃ t, exec i s = .next t ∧ t.req? q.id = none ∧ t.windows = s.windows) ∧
  (∀ s q l r y c lane g b n val wid time, CellAt s q l r y c → InTime s q r y → val.length = 32 →
    q.kind = .prop lane g b n val wid time →
    ∃ t, exec (.homeProp (.req q.id)) s = .next t ∧ t.req? q.id = none ∧
      (g ≠ c.gen → t.mem = s.mem ∧ Answered s t q [(lane, docResult c.gen 4)]) ∧
      (g = c.gen → c.st = 0 → Answered s t q [(lane, docResult c.gen 0)] ∧ Leased s t r (smax q.t (y.rts + 1)) ∧
        Pokes s t (within (l.key q.va) 64) (fun a =>
          at' 0 (Cell.bytes ⟨val, wid, c.gen, 1⟩) (a - l.key q.va))) ∧
      (g = c.gen → c.st = 1 → let dts := match (if l.key q.va / 64 % 2 = 1 then y.d1 else y.d0) with
          | some d => d.1 | none => y.wts
        t.mem = s.mem ∧ Answered s t q [(lane, docResult c.gen (if c.wid = wid then 1
          else if (q.op.bind s.op?).any (fun o => o.won.contains (l.key q.va)) then 2
          else if TS.le dts q.t then 3 else 2))] ∧ Raised s t q.gang dts ∧
        ∀ id o, q.op = some id → s.op? id = some o → ∃ p, t.op? id = some p ∧
          p.regs = o.regs ++ docRegs lane b n c.val)) ∧
  (∀ s q l r y c, CellAt s q l r y c →
    (∀ lane g b n, q.kind = .dread lane g b n → ∃ t, exec (.homeDread (.req q.id)) s = .next t ∧ t.mem = s.mem ∧
      Answered s t q [(lane, docResult c.gen (if g ≠ c.gen then 4 else if c.st = 0 then 6 else 5))] ∧
      (g = c.gen → c.st ≠ 0 → ∀ id o, q.op = some id → s.op? id = some o → ∃ p, t.op? id = some p ∧
        p.regs = o.regs ++ (if n = 0 then [(b, lane, BitVec.ofNat 64 c.wid)] else docRegs lane b n c.val))) ∧
    (∀ lane, q.kind = .dstat lane → ∃ t, exec (.homeDstat (.req q.id)) s = .next t ∧ t.mem = s.mem ∧
      Answered s t q [(lane, docResult c.gen (if c.st = 0 then 6 else 5))])) ∧
  (∀ s q l r y c lane g own, CellAt s q l r y c → InTime s q r y → q.kind = .recyc lane g own → ∃ t, exec (.homeRecyc (.req q.id)) s = .next t ∧
      (g = c.gen ∧ c.st = 1 ∧ c.wid / 2 ^ 32 = own → Answered s t q [(lane, docResult ((g + 1) % 2 ^ 22) 6)] ∧
        Pokes s t (within (l.key q.va) 64) (fun a =>
          at' 0 (Cell.bytes ⟨List.replicate 32 0, 0, (g + 1) % 2 ^ 22, 0⟩) (a - l.key q.va))) ∧
      (¬ (g = c.gen ∧ c.st = 1 ∧ c.wid / 2 ^ 32 = own) → t.mem = s.mem ∧
        Answered s t q [(lane, docResult c.gen (if g ≠ c.gen then 4 else if c.st = 0 then 6 else 7))])) ∧
  (∀ s id o g G, s.op? id = some o → o.waits = 0 → o.doc = true → o.block = true → o.fabric ≠ [] → s.gang? o.gang = some g →
    s.group? g.group = some G → exec (.docReply id) s = .next (takeTrap { s with ops := s.ops.filter (·.id != o.id) }
      ⟨g, G, o.slices⟩ 0x1C 0 false (maskOf o.fabric) none)) ∧
  ∀ s id o, s.op? id = some o → o.waits = 0 → o.doc = true → o.block = false → o.dead = [] → o.fabric = [] →
    s.bad = [] → ∃ t, exec (.docReply id) s = .next t ∧ t.mem = s.mem ∧
      t = { s with gangs := t.gangs, ops := s.ops.filter (·.id != o.id) } ∧
      ∀ g, s.gang? o.gang = some g → ∃ h, t.gang? o.gang = some h ∧ ∀ i sl, g.slices[i]? = some sl →
        h.slices[i]? = some (if o.slices.contains i then Slice.fill o i sl else sl)

/-- LAZY_RELEASE_TIMEOUT sets the drain of its flag going; LAZY_RELEASE_DRAIN sends every entry of the
owner's buffer taken before the STO and leaves a record for the flag, which waits for the core's earlier
writes, the releasing gangs' earlier loads and atomics, drained terms and signals, and, as the model's
choice (log entry 18), every flag the core owns by an earlier STO. WSIG_SIGNAL, once its record waits for
nothing, writes an owned flag at smax(t, W), sends the next signal at 1 past every returned timestamp and
waits for it (a second signal in one line is no second lookup), or lets the FENCE's stream go on.
RETENTION_REQUEST drops a register and answers; sets one over its range, of which a host-memory page sets
none, and lets the PIN issue; or raises cause 0x19 where the chiplet that homes the base has no free
register. None of them writes memory. (R216, R217, R224, R225, R242, R197, R254) -/
def Obligations.ReleasesAndSignals : Prop :=
  (∀ s o, s.owned.find? (·.id == o.id) = some o → s.owner? o.line = some o →
    exec (.lazyReleaseTimeout o.id) s = .next (s.postOnce (.lazyReleaseDrain o.id))) ∧
  (∀ s o, s.owned.find? (·.id == o.id) = some o → s.owner? o.line = some o → (∀ w ∈ s.wsigs, w.flag ≠ some o.id) →
    (∀ q ∈ s.reqs, ∀ m d gs, q.kind ≠ .flag o.id m d gs) →
    ∃ (t : State) (w : Wsig), exec (.lazyReleaseDrain o.id) s = .next t ∧ t.wsigs = s.wsigs ++ [w] ∧ t.mem = s.mem ∧
      w.flag = some o.id ∧ w.gang = o.gangs.headD 0 ∧ w.t = o.t ∧ w.sigs = [] ∧
      (∀ e ∈ t.smb, e.core = o.core → o.before ≤ e.id) ∧
      (∀ q ∈ s.reqs, q.core = o.core → q.ent < o.before → (∃ m d gs ef b, q.kind = .write m d gs ef b) → q.id ∈ w.waits) ∧
      (∀ v ∈ s.wsigs, v.gang ∈ o.gangs → v.op = none → v.flag = none → v.id < o.before → v.id ∈ w.waits) ∧
      (∀ p ∈ s.ops, p.gang ∈ o.gangs → p.id < o.before → p.waits ≠ 0 → p.block = false → p.id ∈ w.waits) ∧
      (∀ e ∈ s.reds, e.gang ∈ o.gangs → (∃ d, e.drain = some d ∧ d < o.before) → e.id ∈ w.waits) ∧
      ∀ p ∈ s.owned, p.core = o.core → p.before < o.before → p.id ∈ w.waits) ∧
  (∀ s w f o, s.wsigs.find? (·.id == w.id) = some w → w.waits = [] → w.arr = none → w.flag = some f → s.owned.find? (·.id == f) = some o →
    ∃ t, exec (.wsigSignal w.id) s = .next t ∧ t.mem = s.mem ∧ t.wsigs = s.wsigs.filter (·.id != w.id) ∧
      ∃ q ∈ t.reqs, q.kind = .flag o.id o.mask o.data o.gangs ∧ q.t = smax o.t w.t ∧ q.va = o.va ∧ q.dev = o.dev ∧ q.pos = o.before) ∧
  (∀ s w lane ea v rest dev va, s.wsigs.find? (·.id == w.id) = some w → w.waits = [] → w.arr = none → w.flag = none →
    w.sigs = (lane, ea, v) :: rest → gaddr s ea = some (dev, va) →
    ∃ (t : State) (q : Req), exec (.wsigSignal w.id) s = .next t ∧ t.mem = s.mem ∧ q ∈ t.reqs ∧
      q.t = w.t + 1 ∧ q.dev = dev ∧ q.va = va / 128 * 128 ∧ q.pos = w.id ∧
      q.again = w.done.contains (dev, va / 128 * 128) ∧
      q.kind = (if w.add then .atom lane (va % 128) w.size 0 v 0 0 false else .write (maskAt (va % 128) w.size)
        ((lineAt (va % 128) (leBytes w.size v.toNat) ++ List.replicate 128 0).take 128) [w.gang] false false) ∧
      t.wsigs = s.wsigs.filter (·.id != w.id) ++ [{ w with sigs := rest, waits := [q.id], done := w.done ++ [(dev, va / 128 * 128)] }]) ∧
  (∀ s w f o, s.wsigs.find? (·.id == w.id) = some w → w.waits = [] → w.arr = none → w.flag = none → w.sigs = [] → w.op = some f →
    s.op? f = some o → o.rel = false → ∃ t, exec (.wsigSignal w.id) s = .next t ∧ t.mem = s.mem ∧
      t.ops = s.ops.filter (·.id != f) ∧ (∀ v ∈ t.wsigs, w.id ∉ v.waits ∧ f ∉ v.waits) ∧
      (o.acq = none → t.gangs = s.gangs)) ∧
  (∀ s q k, s.req? q.id = some q → q.kind = .unpin k → ∃ t, exec (.retentionRequest q.id) s = .next t ∧ t.mem = s.mem ∧
    t.req? q.id = none ∧ t.rets = s.rets.filter (fun r => !(r.part == q.part && r.k == k)) ∧
    (∀ x ∈ t.l2, x.part = q.part → x.pin ≠ some k) ∧ Answered s t q []) ∧
  ∀ s q l u k len quota, s.req? q.id = some q → q.kind = .pin k len quota → q.held = none → q.served = false → q.dev = 0 →
    s.earlier q = none → translate s q.part q.asn q.va = (.leaf l, u) →
    (l.host = true → exec (.retentionRequest q.id) s = .next (pinServed u q)) ∧
    (l.host = false → (u.rets.filter fun r => r.chip == l.quad q.va && !(r.part == q.part && r.k == k)).length < 8 →
      ∃ t, exec (.retentionRequest q.id) s = .next t ∧ t.mem = u.mem ∧ t.req? q.id = none ∧
        (∀ id o, q.op = some id → u.op? id = some o → ∃ p, t.op? id = some p ∧ p.rel = true ∧ p.block = false ∧ p.waits = 0 ∧
          p.vals = o.vals ∧ p.dead = o.dead) ∧
        t.rets = u.rets.filter (fun r => !(r.part == q.part && r.k == k)) ++
          [⟨q.part, k, l.quad q.va, q.asn, q.va, len, quota⟩]) ∧
    ∀ id o g G, l.host = false → 8 ≤ (u.rets.filter fun r => r.chip == l.quad q.va && !(r.part == q.part && r.k == k)).length →
      q.op = some id → u.op? id = some o → u.gang? o.gang = some g → u.group? g.group = some G →
      exec (.retentionRequest q.id) s = .next (takeTrap ({ u with ops := u.ops.filter (·.id != o.id) }.dropReq q.id)
        ⟨g, G, o.slices⟩ 0x19 0 false (maskOf (o.vals.map (·.1))) none)

/-- CC_INTERVAL starts an interval at each chiplet's clock and serves again what was held for it;
CLOCK_RECONCILE takes the latest clock as DCLK, raises every clock to it and every floor, gang and program
timestamp to DCLK − 2^22; SWEEPER_VISIT raises the lines of its sets that lie before CC − 2^22 to it, no
other, and moves on; REGION_MERGE joins two halves that have been idle for 65,536 cycles at the lower of
their levels. None of them writes memory. (R207, R209, R210, R211, R260) -/
def Obligations.ClockSteps : Prop :=
  (∀ s, ∃ t, exec .ccInterval s = .next t ∧ t.mem = s.mem ∧
    t.chips = s.chips.map (fun c => { c with ccInt := c.cc }) ∧
    ∀ q ∈ s.reqs, q.held = some .clock → serveStep q.id q.kind ∈ t.agenda) ∧
  (∀ s, ∃ t, exec .clockReconcile s = .next t ∧ t.mem = s.mem ∧ t.dclk = s.chips.foldl (fun d c => smax d c.cc) s.dclk ∧
    t.chips = s.chips.map (fun c => { c with cc := smax c.cc t.dclk }) ∧ (∀ f ∈ t.floors, f = t.dclk - 0x400000#24) ∧
    (∀ d ∈ t.dclkSeen, d = t.dclk) ∧
    t.gangs = s.gangs.map (fun g => { g with pts := smax g.pts (t.dclk - 0x400000#24) }) ∧
    t.sx = s.sx.map (fun c => { c with et := smax c.et (t.dclk - 0x400000#24) }) ∧
    t.mx = s.mx.map (fun c => { c with et := smax c.et (t.dclk - 0x400000#24) }) ∧ t.groups = s.groups) ∧
  (∀ s chip sets, chip < s.chips.length →
    let F := (s.chip chip).cc - 0x400000#24
    ∃ t, exec (.sweeperVisit chip sets) s = .next t ∧ t.mem = s.mem ∧ t.gangs = s.gangs ∧
      (t.chip chip).sweep = ((s.chip chip).sweep + sets) % 32768 ∧ (t.chip chip).cc = (s.chip chip).cc ∧
      ∀ (k : Nat) (x : L2Line), s.l2[k]? = some x → ∃ z : L2Line, t.l2[k]? = some z ∧ z.pa = x.pa ∧ z.dirty = x.dirty ∧
        let here : Prop := x.chip = chip ∧ ∃ i, (s.chip chip).sweep ≤ i ∧ i < (s.chip chip).sweep + sets ∧
          i % 32768 = s.chipSet x.part chip (x.va / 128 % 2 ^ (s.part x.part).l2sets chip)
        (here → TS.precedes x.rts F = true → z.wts = F ∧ z.rts = F) ∧
        (¬ (here ∧ TS.precedes x.rts F = true) → z.wts = x.wts ∧ z.rts = x.rts)) ∧
  ∀ s chip b (g x : Region), s.regions.find? (fun y => y.chip == chip && y.base == b) = some g → g.chip = chip →
    g.base = b → b / 2 ^ g.k % 2 = 0 →
    s.regions.find? (fun y => y.chip == chip && y.base == b + 2 ^ g.k && y.k == g.k) = some x → g.k < 16 →
    g.touch + 65536 ≤ s.cycle → x.touch + 65536 ≤ s.cycle →
    ∃ t, exec (.regionMerge chip b) s = .next t ∧ t = { s with regions := t.regions } ∧
      t.regions = ⟨chip, b, g.k + 1, min g.level x.level, none, max g.touch x.touch⟩ ::
        s.regions.filter fun y => y != g && y != x

/-- SX_COMMAND_START makes the next command of the core run and sends its elements off, again those that had
landed, but for those whose tiles it has finished with, and those that a later element which stays landed or
is out has written over (log entry 33 chooses them); SX_ELEMENT_LAND reads and lands an element in one step
(log entry 29): of an SXFILL element it writes SB's bytes in turn, and of a scratchpad copy the bytes read,
under the claims of R282; SX_RESUME lets a parked command run again; SX_ABORT, once every element that was
sent off has landed, drops every claim and takes the command out of the queue. FORK_PROGRAM_READ queues a
word of the program's own engine, skips one of the other and ends at any other; FORK_PROGRAM_COMPLETE ends a
finished program. None of them writes global memory. (R276, R280, R281, R282, R283, R285, R286, R287, R291,
R371) -/
def Obligations.StreamEngineSteps : Prop :=
  (∀ s core c, s.sxRunning core < 8 → sxNext s core = some c → ∃ t, exec (.sxCommandStart core) s = .next t ∧
    t.mem = s.mem ∧ t.windows = s.windows ∧
    let u := { s with sxRr := t.sxRr }
    let place := fun e => sxPlace u c (c.dst e (sxValue u c e))
    let done := c.landed.filter fun e => (sxSides u c e).any (!(s.claimsOf c.id).contains ·)
    let kept := c.landed.filter fun e => done.contains e ||
      (done ++ c.acks.map (·.1)).any fun i => decide (e < i) && place i == place e
    t.sx = s.sx.map (fun (d : SxCmd) => if d.id = c.id then { d with
      st := .running, landed := kept, page := none, far := d.far.filter (·.2.2.isNone) } else d) ∧
    ∀ e, c.cursor ≤ e → e < c.cursor + 64 → e < c.pat.count → e ∉ kept →
      ∃ n, s.cycle + 4 ≤ n ∧ n ≤ s.cycle + 256 ∧ (n, Instr.sxElementLand c.id e) ∈ t.timers) ∧
  (∀ s c e w off s1, SxFlies s c e → c.kind = 3 → c.pat.dsp = true →
    s.scratchOf c.group (c.dst e 0) = some (w, off) → off % c.pat.size = 0 →
    claimTile s w.id (off / 4096) c.id true = some s1 →
    exec (.sxElementLand c.id e) s = .next (sxLanded (s1.winWrite w.id off
      ((rangeFrom 0 c.pat.size).map fun j => c.sb.extractLsb' (8 * (j % 8)) 8)) c.id e)) ∧
  (∀ s c e w off v o s1 s2, SxFlies s c e → c.kind = 0 → c.pat.ssp = true → c.pat.dsp = true →
    s.scratchOf c.group (c.src e 0) = some (w, off) → off % c.pat.size = 0 →
    claimTile s w.id (off / 4096) c.id false = some s1 →
    s1.scratchOf c.group (c.dst e 0) = some (v, o) → o % c.pat.size = 0 →
    claimTile s1 v.id (o / 4096) c.id true = some s2 →
    exec (.sxElementLand c.id e) s = .next (sxLanded (s2.winWrite v.id o (w.read off c.pat.size)) c.id e)) ∧
  (∀ s c r, s.sx? c.id = some c → c.st = .parked r → exec (.sxResume c.id) s = .next
    (({ s with sx := s.sx.map fun (d : SxCmd) => if d.id = c.id then { d with st := .parked true } else d }).postOnce
      (.sxCommandStart c.core))) ∧
  (∀ s c cause, s.sx? c.id = some c → c.cancel = some cause → c.acks ≠ [] →
    exec (.sxAbort c.id) s = .next (s.postAt (s.cycle + 4) (.sxAbort c.id))) ∧
  (∀ s c cause, s.sx? c.id = some c → c.cancel = some cause → c.acks = [] → WindowsApart s →
    ∃ t, exec (.sxAbort c.id) s = .next t ∧ t.mem = s.mem ∧ t.sx = s.sx.filter (·.id != c.id) ∧
      ∀ w ∈ t.windows, ∀ y ∈ w.tiles, y.wclaim ≠ some c.id ∧ c.id ∉ y.rclaim) ∧
  (∀ s p G u w, s.prog? p.id = some p → s.group? p.group = some G → p.done = false → G.fatal = none →
    p.next < 4096 → progFetch s G p p.next = .word u w →
    ((enWord w).op = engineOp (!p.mx) → exec (.forkProgramRead p.id) s = .next
      ((u.modProg p.id fun p => { p with next := p.next + 1 }).post (.forkProgramRead p.id))) ∧
    ((enWord w).op ≠ 0x3B → (enWord w).op ≠ 0x3C → ∃ t, exec (.forkProgramRead p.id) s = .next t ∧ t.mem = u.mem ∧
      t.progs = u.progs.map fun (q : Prog) => if q.id = p.id then { q with done := true } else q) ∧
    ∀ a, (enWord w).op = engineOp p.mx →
      (if p.mx then progMx u G (enWord w) (fun r => at' 0 p.g r) else progSx u G (enWord w) (fun r => at' 0 p.g r)) = .act a →
      a.causes = [] → a.bad = false → (if p.mx then u.mxFull G.core else u.sxFull G.core) = false →
      exec (.forkProgramRead p.id) s = .next
        (((a.go u ⟨p.et0, some p.id, match s.gang? p.gang with | some g => g.idx | none => 0⟩).modProg p.id
          fun p => { p with next := p.next + 1 }).post (.forkProgramRead p.id))) ∧
  ∀ s p G, s.prog? p.id = some p → s.group? p.group = some G → p.done = true →
    (∀ c ∈ s.sx, c.prog ≠ some p.id) → (∀ c ∈ s.mx, c.prog ≠ some p.id) →
    exec (.forkProgramComplete p.id) s = .next ((((({ s with progs := s.progs.filter (·.id != p.id) }).arrive
      G.team p.bar p.et).bumpOut G.id p.bar false)).endPoke)

/-- MX_COMMAND_START, when its group is the next in turn (the order of the turns is log entry 58's), runs
the first command of the group, completes a chain's start and clears a tile for MXZERO; MXLDB_LAND writes
the bytes read, of scratchpad, of this device's memory or of another's, to the operand buffer; MX_KSTEP
enters one k-step's sums in the tile and goes on to the next; MXEND_COMPLETE promotes the chain's tiles and
ends it; MXDRAIN_LAND lands up to 512 bytes of a beat, each element's value at its place in the window and
no other byte but the command's barrier, and with CLR clears the tile at the end; MXCHK_COMPLETE checks the
tile and lands its 32-byte record at its place, and no other byte but the barrier's. None of them writes
global memory. (R306, R321, R324, R326, R328, R329, R330, R332) -/
def Obligations.MatrixEngineSteps : Prop :=
  (∀ s c G, s.mx.find? (·.group == c.group) = some c → (c.st = .queued ∨ c.st = .parked true) →
    (∀ d ∈ s.mx, d.core = c.core → d.st ≠ .running) → s.group? c.group = some G → s.bad = [] →
    (mxNext s c.core ≠ some c.group → exec (.mxCommandStart c.group) s = .next (mxPoke s c.core)) ∧
    (mxNext s c.core = some c.group → ∃ t, exec (.mxCommandStart c.group) s = .next t ∧ t.mem = s.mem ∧
      (c.kind = .chainBegin → t.mx = s.mx.filter (·.id != c.id)) ∧
      (∀ zt z, c.kind = .zero zt → G.tile zt = some z →
        t.mx = s.mx.filter (·.id != c.id) ∧ TileIs t c.group zt z.cleared) ∧
      (c.kind ≠ .chainBegin → (∀ zt, c.kind ≠ .zero zt) →
        t.mx = s.mx.map (fun (d : MxCmd) => if d.id = c.id then { d with st := .running, page := none } else d) ∧
        (s.cycle + c.step.1, c.step.2) ∈ t.timers))) ∧
  (∀ s c G src len dst ef w off s1, MxRuns s c G → c.kind = .ldb src true len dst ef →
    let a := src + BitVec.ofNat 64 c.pos
    let n := min (len - c.pos) (128 - a.toNat % 128)
    scratchAt s G a = some (w, off) → off % 8 = 0 → claimTile s w.id (off / 4096) c.id false = some s1 →
    ∃ t, exec (.mxldbLand c.id) s = .next t ∧ t.mem = s.mem ∧ MxMoves s t c n (decide (c.pos + n < len)) ∧
      ∃ H, t.group? G.id = some H ∧ H.ob = G.ob.write (dst + c.pos) (w.read off n)) ∧
  (∀ s c G src len dst ef, MxRuns s c G → c.kind = .ldb src false len dst ef →
    let a := src + BitVec.ofNat 64 c.pos
    let n := min (len - c.pos) (128 - a.toNat % 128)
    (∀ u bytes wts, c.far = none → engRead s ⟨G.core, G.part, G.asn, G.id, c.id, c.pos, c.et, ef⟩ n 8 a = .ok u bytes wts →
      u.mx = s.mx → u.groups = s.groups →
      ∃ t, exec (.mxldbLand c.id) s = .next t ∧ t.mem = u.mem ∧ MxMoves s t c n (decide (c.pos + n < len)) ∧
        ∃ H, t.group? G.id = some H ∧ H.ob = G.ob.write (dst + c.pos) bytes) ∧
    (∀ id bytes, c.far = some (id, some bytes) → bytes ≠ [] → G.replay = none →
      ∃ t, exec (.mxldbLand c.id) s = .next t ∧ t.mem = s.mem ∧ MxMoves s t c n (decide (c.pos + n < len)) ∧
        ∃ H, t.group? G.id = some H ∧ H.ob = G.ob.write (dst + c.pos) bytes) ∧
    ∀ id u, c.far = none → engRead s ⟨G.core, G.part, G.asn, G.id, c.id, c.pos, c.et, ef⟩ n 8 a = .sent u id →
      exec (.mxldbLand c.id) s = .next (mxOn (u.modMx c.id fun c => { c with far := some (id, none) }) c)) ∧
  (∀ s c G steps p zt r nfv rk m n i0 ka0 kai j0 kb0 kbi z K k A s1, MxRuns s c G →
    c.kind = .loop steps p zt r nfv rk m n i0 ka0 kai j0 kb0 kbi → G.tile zt = some z →
    kLen z.mode rk r nfv.toNat = some K → kStep G.ob r K m n i0 ka0 kai j0 kb0 kbi c.pos = some k →
    readA s G c.chain rk k = .ok (s1, A) → s1.groups = s.groups → s1.mx = s.mx → s1.mem = s.mem →
    ∃ t, exec (.mxKstep c.id) s = .next t ∧ t.mem = s.mem ∧
      TileIs t G.id zt (z.enter p rk G.ob r nfv.toNat k A) ∧ MxMoves s t c 1 (decide (c.pos + 1 < steps))) ∧
  (∀ s c G tiles, MxRuns s c G → c.kind = .chainEnd tiles → tiles.Nodup →
    ∃ t, exec (.mxendComplete c.id) s = .next t ∧ t.mem = s.mem ∧ MxMoves s t c 0 false ∧
      ∀ zt ∈ tiles, ∀ z, G.tile zt = some z → TileIs t G.id zt z.lastStep) ∧
  (∀ s c G dst pitch clr dfmt zt z, MxRuns s c G → c.kind = .drain dst pitch clr dfmt zt → G.tile zt = some z →
    let es := z.drainSize dfmt
    let cols := (z.drainShape dfmt).2
    let total := (z.drainShape dfmt).1 * cols
    let n := min (512 / es) (total - c.pos)
    (∀ e, c.pos ≤ e → e < c.pos + n → Landable s G c.id (drainOff dst pitch cols es e) es) →
    ∃ t, exec (.mxdrainLand c.id) s = .next t ∧ t.mem = s.mem ∧ MxMoves s t c n (decide (c.pos + n < total)) ∧
      TileIs t G.id zt (if total ≤ c.pos + n ∧ clr = true then z.cleared else z) ∧
      ∀ w ∈ s.windows, w.mem.wf = true → ∃ v ∈ t.windows, v.id = w.id ∧ ∀ o, OffBar s c G w o →
        (∀ e i, c.pos ≤ e → e < c.pos + n → ElemByte s G (drainOff dst pitch cols es e) es w o i →
          (∀ e' k, e < e' → e' < c.pos + n → ¬ ElemByte s G (drainOff dst pitch cols es e') es w o k) →
          (leBytes es (z.drained dfmt (e / cols) (e % cols)))[i]? = some (v.get o)) ∧
        ((∀ e i, c.pos ≤ e → e < c.pos + n → ¬ ElemByte s G (drainOff dst pitch cols es e) es w o i) → v.get o = w.get o)) ∧
  ∀ s c G dst zt texp corr z, MxRuns s c G → c.kind = .chk dst zt texp corr → G.tile zt = some z →
    Landable s G c.id dst 32 → ∃ t, exec (.mxchkComplete c.id) s = .next t ∧ t.mem = s.mem ∧ MxMoves s t c 0 false ∧
      TileIs t G.id zt (z.check texp corr).1 ∧
      ∀ w ∈ s.windows, w.mem.wf = true → ∃ v ∈ t.windows, v.id = w.id ∧ ∀ o, OffBar s c G w o →
        (∀ i, ElemByte s G dst 32 w o i → (z.check texp corr).2[i]? = some (v.get o)) ∧
        ((∀ i, ¬ ElemByte s G dst 32 w o i) → v.get o = w.get o)

/-- A step that uses a partition's hub state resets the partition, with cause 0x43, where that state is
poisoned; corrects its correctable errors first; and else does what follows, which steps use it being log
entry 39's. A doorbell that moves WI forward, within the slots past CI, is taken, and one that does not is
ignored and logged as 0x0B. LAUNCH_ACCEPT, once the hub has read the slot at CI and what it names, takes it
under the number it gives, with the lowest CAUSE of its checks, and moves CI on; what the hub cannot read
fails the check 0x05 as log entry 63 has it. COPY_LAUNCH queues its block's copy at DCLK on a core of the
partition; RELEASE_LAUNCH drops the captured block. LAUNCH_COMPLETE sends the completion word at 1 past
every write of the launch and DCLK (log entry 64's timestamp), and once that is acknowledged the launch is
gone. GATHER_TIMEOUT gathers a stage's records when they are 2,048 cycles old; STAGE_ALLOWANCE sets each
stage's allowance (log entry 62's) and notes what it emitted into; a stage is held exactly while another
stage's queue that it emitted into in the last interval is 7/8 full, and a held stage gets no core. (R45,
R341, R342, R343, R346, R348, R349, R350, R365) -/
def Obligations.LaunchSteps : Prop :=
  (∀ s part i, HubStep part i → (hubPoisoned s part = true → exec i s = .next (partitionFatal s part 0x43)) ∧
    (hubPoisoned s part = false → exec i s = exec i (hubRepair s part) ∧ HubSound (hubRepair s part) part)) ∧
  (∀ s part queue wi, HubSound s part → let q := (s.part part).queue queue
    let w := BitVec.ofNat 32 wi
    (s.part part).en = true → (s.part part).rst = false → s.stage = 5 → queue < 15 → q.open queue = true →
    ((q.wi - q.ci).toNat ≤ (w - q.ci).toNat → (w - q.ci).toNat ≤ q.slots queue →
      exec (.doorbellWrite part queue wi) s = .next ((s.modQueue part queue fun q => { q with wi := w }).postOnce
        (.launchAccept part queue))) ∧
    ((w - q.ci).toNat < (q.wi - q.ci).toNat ∨ q.slots queue < (w - q.ci).toNat →
      exec (.doorbellWrite part queue wi) s = .next (logEntry s part 0x0B 0 7 0 0 0 0))) ∧
  (∀ s part queue, HubSound s part → let q := (s.part part).queue queue
    q.ci ≠ q.wi → q.open queue = true → queue ≤ 15 → (s.part part).rst = false →
    s.launch? part (4096 * queue + q.ci.toNat % 4096) = none →
    (∀ u d, readSlot s part queue q = .ok u d → part < u.parts.length →
      queue < (u.part part).queues.length → ∃ (t : State) (l : Launch), exec (.launchAccept part queue) s = .next t ∧
        t.mem = u.mem ∧ t.launches = u.launches ++ [l] ∧ t.accepted = u.accepted + 1 ∧
        ((t.part part).queue queue).ci = q.ci + 1 ∧ l.part = part ∧ l.lid = 4096 * queue + q.ci.toNat % 4096 ∧
        l.order = u.accepted ∧ l.done = none ∧ l.asn = slotAsn s part queue q ∧
        l.fault = d.cause u part (slotAsn s part queue q) ∧ l.rej = l.fault.isSome) ∧
    (∀ u, readSlot s part queue q = .wait u → exec (.launchAccept part queue) s =
      .next (u.postAt (u.cycle + 4) (.launchAccept part queue))) ∧
    (readSlot s part queue q = .poisoned → exec (.launchAccept part queue) s =
      .next (partitionFatal s part 0x43))) ∧
  (∀ s part lid l core, HubSound s part → s.launch? part lid = some l → l.kind = 1 → l.copied = false → l.rej = false → l.deps = [] →
    (s.part part).rst = false → (∀ c ∈ s.sx, ¬ (c.part = part ∧ c.launch = some lid)) →
    (s.ownCores part).find? (fun c => !s.sxFull c) = some core →
    ∃ (t : State) (c : SxCmd), exec (.copyLaunch part lid) s = .next t ∧ t.mem = s.mem ∧ t.sx = s.sx ++ [c] ∧
      c.core = core ∧ c.kind = 0 ∧ c.pat = patOf l.block ∧ c.sb = descWord l.block 64 ∧ c.db = descWord l.block 72 ∧
      c.et = s.dclk ∧ c.asn = l.asn ∧ c.launch = some lid ∧ c.st = .queued) ∧
  (∀ s part lid l, HubSound s part → s.launch? part lid = some l → l.kind = 2 → l.rej = false → l.deps = [] → (s.part part).rst = false →
    ∃ t m, exec (.releaseLaunch part lid) s = .next t ∧ t.mem = s.mem ∧ t.launch? part lid = some m ∧ m.copied = true ∧
      t.copies = s.copies.filter fun c => !(c.part == part && c.asn == l.asn && c.addr == l.kaddr)) ∧
  (∀ s part lid l, HubSound s part → s.launch? part lid = some l →
    (∀ dev va, l.done = none → launchOver s l = true → (s.part part).rst = false → l.caddr ≠ 0 → l.caddr.toNat % 8 = 0 →
      gaddr s l.caddr = some (dev, va) → ∃ (t : State) (q : Req) (m : Launch), exec (.launchComplete part lid) s = .next t ∧
        t.mem = s.mem ∧ q ∈ t.reqs ∧ q.dev = dev ∧ q.va = va / 128 * 128 ∧ q.t = smax l.pts s.dclk + 1 ∧
        q.kind = .write (maskAt (va % 128) 8)
          ((lineAt (va % 128) (leBytes 8 (l.word l.status)) ++ List.replicate 128 0).take 128) [] false false ∧
        t.launch? part lid = some m ∧ m.done = some q.id) ∧
    (∀ id, l.done = some id → s.req? id = none → ∃ t, exec (.launchComplete part lid) s = .next t ∧ t.mem = s.mem ∧
      t.launch? part lid = none ∧ ∀ m ∈ t.launches, m.part = part → lid ∉ m.deps)) ∧
  (∀ s part lid k l g, HubSound s part → s.launch? part lid = some l → l.stages[k]? = some g →
    (∀ r ∈ g.recs, r.came + 2048 ≤ s.cycle) → (∀ e, (g.naming e).length ≤ l.width) →
    ∃ t m h, exec (.gatherTimeout part lid k) s = .next t ∧ t.mem = s.mem ∧ t.launch? part lid = some m ∧
      m.stages[k]? = some h ∧ h.recs = [] ∧ m.wait.length = l.wait.length + g.entries.length) ∧
  (∀ s part lid l, HubSound s part → s.launch? part lid = some l → ∃ t m, exec (.stageAllowance part lid) s = .next t ∧ t.mem = s.mem ∧
    t.launch? part lid = some m ∧ ∀ (k : Nat) (g : Stage), l.stages[k]? = some g → ∃ h : Stage, m.stages[k]? = some h ∧
      h.recs = g.recs ∧ h.fed = g.outs ∧ h.outs = [] ∧ (g.maxc ≠ 0 → h.allow ≤ g.maxc) ∧
      (g.recs ≠ [] → (g.maxc = 0 ∨ g.minc ≤ g.maxc) → g.minc ≤ h.allow)) ∧
  ∀ s (l : Launch) k (g : Stage), l.stages[k]? = some g →
    (l.stageHeld k g = true ↔ ∃ j ∈ g.fed, j ≠ k ∧ ∃ f, l.stages[j]? = some f ∧ 7 * f.qcap ≤ 8 * f.recs.length) ∧
    ∀ (t : WaitTeam) c, t.stage = some k → l.stageHeld k g = true → stageAllows s l t c = false

/-- PLACE_TEAM starts the partition's next team on the core found for it, past every gang that is resident;
a fresh group starts as R349 says, and with no return stack, guard or predicate, which is log entry 90's
choice. DISCARD_TEAM stops a marked team inside a region and keeps what it restarts with; PREEMPT_WATCHDOG
kills its groups with cause 0x31, of which the launch of a group that is ending already is told at once.
GROUP_END begins the end of a group whose gangs have all ended, and takes it away once nothing of it is in
flight. ROLE_RESTART restarts a group's gangs at the role's entry, of a replay's launch as its audit kept it
(what a restart keeps beyond R42 is log entry 45's). RIDDLE_REPLAY starts the group again on an idle core
(log entry 67 places it); RIDDLE_COMPARE drops an audit with equal signatures, asks for a third replay, or
logs the majority. None of them writes a byte of memory but for the log. (R29, R42, R43, R349, R359, R360,
R361, R362, R389, R391, R392) -/
def Obligations.TeamSteps : Prop :=
  (∀ s part lid l w c, HubSound s part → bestLaunch s part = some (l, w) → l.lid = lid → l.part = part → findCore s l w = some c →
    (∀ G ∈ s.groups, G.replay = none) → ∃ t, exec (.placeTeam part lid) s = .next t ∧ t.mem = s.mem ∧
      (∃ new, t.gangs = s.gangs ++ new) ∧ (∃ new, t.groups = s.groups ++ new) ∧
      t.teams = s.teams ++ [⟨s.fresh, part, lid, w.idx, if w.pairs l then [c, c + 1] else [c], none, [], w.stage,
        w.recs, w.pts⟩]) ∧
  (∀ s l w a, w.restart = [] → w.stage = none → w.recs = [] → w.pts = none → ∃ new,
    (startGroup s l w a).gangs = s.gangs ++ new ∧ new.length = a.pipes.length ∧
    ∀ g ∈ new, g.pts = at' 0 s.dclkSeen a.core ∧ g.unified = true ∧ g.ended = none ∧ g.region = none ∧
      g.g = (startUniforms l w.idx a.idx g.idx ++ List.replicate 60 0).take 60 ∧
      ∀ sl ∈ g.slices, sl.pc = (l.role 0).entry ∧ sl.run = .run ∧ sl.rstack = [] ∧ sl.guard = ⟨0, false⟩ ∧
        ∀ ln ∈ sl.lanes, ln.n = List.replicate 16 0 ∧ ln.m = List.replicate 16 0 ∧
          ln.q = List.replicate 16 poison ∧ ln.p = 0 ∧ ln.dead = false) ∧
  (∀ s T m, s.team? T.id = some T → T.mark = some m → T.saved = [] → s.teamInside T.id = true →
    s.teamHalted T.id = false → ∃ t, exec (.discardTeam T.id) s = .next t ∧ t.mem = s.mem ∧
      (∃ U, t.team? T.id = some U ∧ U.saved = savedOf s T.id) ∧
      ∀ G ∈ s.groups, G.team = T.id → G.fatal = none → G.ending = false →
        ∃ H ∈ t.groups, H.id = G.id ∧ H.ending = true) ∧
  (∀ s T m, s.team? T.id = some T → T.mark = some m → T.saved = [] → m + (s.part T.part).wdog ≤ s.ptp → s.teamHalted T.id = false →
    (∀ G ∈ s.groups, s.group? G.id = some G) → ∃ t, exec (.preemptWatchdog T.id) s = .next t ∧ t.mem = s.mem ∧
      t.gangs = s.gangs ∧ ∀ G ∈ s.groups, G.team = T.id → G.fatal = none →
        (t.group? G.id).bind Group.fatal = some 0x31 ∧ .groupEnd G.id ∈ t.agenda ∧
        ∀ l, G.ending = true → G.replay = none → s.launch? G.part G.lid = some l → l.fault = none →
          (t.launch? G.part G.lid).bind Launch.fault = some 0x31) ∧
  (∀ s G, s.group? G.id = some G → (∀ g ∈ s.gangs, g.group = G.id → g.ended ≠ none) → G.fatal = none →
    (G.ending = false → ∃ t H, exec (.groupEnd G.id) s = .next t ∧ t.mem = s.mem ∧ t.group? G.id = some H ∧
      H.ending = true ∧ (∀ e ∈ s.smb, e.core = G.core → e.gangs.any (s.gangIds G.id).contains = true → e ∉ t.smb) ∧
      .redDrain G.id .groupEnd ∈ t.agenda) ∧
    (G.ending = true → s.groupBusy G.id = false → G.audit = none → G.replay = none → s.bad = [] → ∃ t,
      exec (.groupEnd G.id) s = .next t ∧ t.mem = s.mem ∧ t.gangs = s.gangs.filter (·.group != G.id) ∧
      t.groups = s.groups.filter (·.id != G.id))) ∧
  (∀ s G l k, s.group? G.id = some G → G.ending = false → G.fatal = none → s.gangsOf G.id ≠ [] →
    (∀ g ∈ s.gangs, g.group = G.id → g.ended = some (.role k)) → k < G.nRoles →
    (∀ c ∈ s.sx, c.group ≠ some G.id) → (∀ c ∈ s.mx, c.group ≠ G.id) → s.launchOf G = some l →
    (∀ p ∈ s.passes, p.op ≠ none → ∀ g ∈ s.gangs, g.group = G.id → p.gang ≠ g.id) →
    ∃ t H, exec (.roleRestart G.id) s = .next t ∧ t.mem = s.mem ∧ t.group? G.id = some H ∧ H.role = k ∧
      H.cls = (l.role k).cls ∧ H.core = G.core ∧ H.bars = G.bars ∧ H.z = List.replicate 16 none ∧
      (∀ g ∈ s.gangs, g.group ≠ G.id → g ∈ t.gangs) ∧
      ∀ g ∈ t.gangs, g.group = G.id → g.ended = none ∧ g.unified = true ∧ g.region = none ∧
        ∃ f ∈ s.gangs, f.id = g.id ∧ g.g = f.g ∧ g.pts = f.pts ∧
          g.slices = f.slices.map (Slice.restart (l.role k).entry s.beat)) ∧
  (∀ s a l c, s.audit? a.id = some a → a.bad = false → a.stage ≠ 0 → (∀ G ∈ s.groups, G.replay ≠ some a.id) →
    a.launch = some l → replayCore s a = some c → ∃ t, exec (.riddleReplay a.id) s = .next t ∧ t.mem = s.mem ∧
      t.lastDie = s.lastDie ∧ (∃ G ∈ t.groups, G.replay = some a.id ∧ G.core = c ∧ G.idx = a.group) ∧
      ∀ g ∈ s.gangs, g ∈ t.gangs) ∧
  ∀ s a, s.audit? a.id = some a → a.bad = false →
    (a.stage ≤ 1 → signature a.s0 = signature a.s1 → exec (.riddleCompare a.id) s = .next (s.dropAudit a.id)) ∧
    (a.stage ≤ 1 → signature a.s0 ≠ signature a.s1 → ∃ t b, exec (.riddleCompare a.id) s = .next t ∧ t.mem = s.mem ∧
      t.audit? a.id = some b ∧ b.stage = 2 ∧ .riddleReplay a.id ∈ t.agenda) ∧
    (1 < a.stage → exec (.riddleCompare a.id) s = .next (logEntry (s.dropAudit a.id) a.part 0x09 0x44 7
      (if signature a.s1 = signature a.s2 then 1 else if signature a.s0 = signature a.s2 then 2 else 3) a.lid a.loc
      (signature a.s0).toNat))

/-- BRIDGE_DEVICE_READ of a held granule answers with its bytes under a lease of 512 ns and raises LE; of
another one it asks the host, after evicting a granule when it is full, which is the oldest by the model's
choice (log entry 68); a line whose flag another core owns is redirected first. HOST_GRANT takes the state
and the bytes, and what waited goes on. BRIDGE_DEVICE_WRITE merges the masked bytes, makes the granule M and
is acknowledged past LE + 80 ns. BRIDGE_EVICT waits for LE, BRIDGE_WRITEBACK lets the granule go, unless it
is damaged (log entry 68 keeps it). The three snoops answer with data when the granule was M, with poison
when it is damaged, and leave it I, S or as it was. HOST_READ and HOST_WRITE are performed at the home at
DCLK and recorded in the filter for pages of host bias, a write of a replicated page going to the sequencer
(log entry 69 has this, the refused accesses and the filter's corners); BI_RESPONSE applies dirty data at
DCLK, removes the entry or leaves it S, and the held request goes on. (R401, R403, R404, R405, R406, R408,
R409, R410, R411, R413) -/
def Obligations.HostSteps : Prop :=
  (∀ s q l lanes cwts fill ef keep mask ahead, AtBridge s q l → q.kind = .read lanes cwts fill false ef keep mask ahead →
    let line := l.hostLine q
    let g := granuleOf line
    (∀ o, s.hostOwner q line = some o → exec (.bridgeDeviceRead q.id) s = .next (s.holdReq q (.recall o.id))) ∧
    (s.hostOwner q line = none → s.hostReadable g = true → ∃ t, exec (.bridgeDeviceRead q.id) s = .next t ∧ t.mem = s.mem ∧
      t.req? q.id = none ∧ t.gangs = s.gangs ∧
      Answered s t q (lanes.map fun e =>
        (e.1, leWord (((overlayBytes mask ahead (lineOf s line)).drop e.2.1).take e.2.2))) ∧
      (fill = true → s.cxlMode = true → ∀ x, s.granule? g = some x → ∃ z, t.granule? g = some z ∧
        z.le = max x.le (s.ptp + 512) ∧ z.st = x.st)) ∧
    (s.hostOwner q line = none → s.hostReadable g = false → s.granules.length < 65536 ∨ s.granule? g ≠ none →
      ∃ t p x, exec (.bridgeDeviceRead q.id) s = .next t ∧ t.mem = s.mem ∧
      t.req? q.id = some p ∧ p.held = some .bridge ∧ t.granule? g = some x ∧ x.want ≠ none) ∧
    (s.hostOwner q line = none → s.granule? g = none → 65536 ≤ s.granules.length → ∃ t p, exec (.bridgeDeviceRead q.id) s = .next t ∧
      t.mem = s.mem ∧ t.granules = s.granules ∧ t.req? q.id = some p ∧ p.held = some .bridge ∧
      ∀ x, s.granules.head? = some x → .bridgeEvict x.addr ∈ t.agenda)) ∧
  (∀ s g x st bytes, s.granule? g = some x → x.want ≠ none → x.evicting = false → bytes.length = 128 →
    s.mem.wf = true → ∃ t z, exec (.hostGrant g st bytes) s = .next t ∧ t.granule? g = some z ∧ z.st = some st ∧ z.want = none ∧
      z.le = x.le ∧ (x.st = some .m → t.mem = s.mem) ∧
      (x.st ≠ some .m → Pokes s t (within (memKey 4 (g * 128)) 128) (fun a => at' 0 bytes (a - memKey 4 (g * 128)))) ∧
      ∀ q ∈ s.reqs, q.held = some (.granule g) ∨ (q.held = some .bridge ∧
        reqGranule { s with mem := t.mem, bad := t.bad, granules := t.granules } q = some g) →
        serveStep q.id q.kind ∈ t.agenda) ∧
  (∀ s q l mask data gangs ef x, AtBridge s q l → q.kind = .write mask data gangs ef false → data.length = 128 →
    s.cxlMode = true → s.hostOwner q (l.hostLine q) = none → s.hostWritable (granuleOf (l.hostLine q)) = true →
    s.granule? (granuleOf (l.hostLine q)) = some x → ∃ t p z, exec (.bridgeDeviceWrite q.id) s = .next t ∧
      Pokes s t (fun a => a / 128 == l.hostLine q && mask.getLsbD (a % 128)) (fun a => at' 0 data (a % 128)) ∧
      t.req? q.id = some p ∧ p.served = true ∧ t.granule? (granuleOf (l.hostLine q)) = some z ∧
      z.st = some .m ∧ z.part = q.part ∧ z.le = x.le ∧
      (x.le = 0 ∨ x.le + 80 < s.ptp → .bridgeWriteAck q.id ∈ t.agenda) ∧
      (x.le ≠ 0 → s.ptp ≤ x.le + 80 → (x.le + 81, .bridgeWriteAck q.id) ∈ t.nsTimers)) ∧
  (∀ s q, s.req? q.id = some q → q.served = true →
    (∀ mask data gangs ef bad, q.kind = .write mask data gangs ef bad →
      exec (.bridgeWriteAck q.id) s = .next (s.post (.smbFlushAck q.id))) ∧
    (∀ e, q.kind = .red e → exec (.bridgeWriteAck q.id) s = .next (s.post (.redDrainAck e))) ∧
    (∀ lane off n f b c fm again, q.kind = .atom lane off n f b c fm again → ∃ t, exec (.bridgeWriteAck q.id) s = .next t ∧
      t.mem = s.mem ∧ t.req? q.id = none ∧ Answered s t q [])) ∧
  (∀ s g x, s.granule? g = some x → x.want = none → x.evicting = false →
    (x.le ≠ 0 → s.ptp ≤ x.le → exec (.bridgeEvict g) s = .next (s.postNs (x.le + 1) (.bridgeEvict g))) ∧
    (x.le = 0 ∨ x.le < s.ptp → x.st ≠ some .m → ∃ t, exec (.bridgeEvict g) s = .next t ∧
      t = { s with granules := s.granules.filter (·.addr != g), reqs := t.reqs, agenda := t.agenda } ∧
      ∀ q ∈ s.reqs, ∀ h, q.held = some (.granule h) → t.granule? h = none → serveStep q.id q.kind ∈ t.agenda) ∧
    (x.le = 0 ∨ x.le < s.ptp → x.st = some .m → s.cxlMode = true → ∃ t, exec (.bridgeEvict g) s = .next t ∧
      t = { s with granules := t.granules } ∧ t.granule? g = some { x with evicting := true })) ∧
  (∀ s g x, s.granule? g = some x → x.want = none → x.st = some .m →
    (s.granuleBad g = false → ∃ t, exec (.bridgeWriteback g) s = .next t ∧
      t = { s with granules := s.granules.filter (·.addr != g), reqs := t.reqs, agenda := t.agenda }) ∧
    (s.granuleBad g = true → ∃ t, exec (.bridgeWriteback g) s = .next t ∧
      t = { s with granules := t.granules } ∧ t.granule? g = some { x with evicting := false })) ∧
  (∀ s g x v, s.granule? g = some x → x.st = some v → x.evicting = false → s.bad = [] →
    let r := Reply.snoop true (if v = .m then some (s.mem.read (memKey 4 (g * 128)) 128) else none)
    let queue := s.agenda.filter (· != .bridgeWriteback g)
    (∃ t, exec (.snpInv g) s = .next t ∧ t = { s with granules := t.granules, reply := r, agenda := queue } ∧
      t.granule? g = some { x with st := none, le := s.ptp }) ∧
    (∃ t, exec (.snpData g) s = .next t ∧ t = { s with granules := t.granules, reply := r, agenda := queue } ∧
      t.granule? g = some { x with st := some .s }) ∧
    exec (.snpCur g) s = .next { s with reply := r, agenda := queue }) ∧
  (∀ s g x, s.granule? g = some x → x.st = some .m → x.evicting = false → s.granuleBad g = true →
    (∃ t, exec (.snpInv g) s = .next t ∧ t.reply = .poisoned) ∧
    (∃ t, exec (.snpData g) s = .next t ∧ t.reply = .poisoned) ∧
    ∃ t, exec (.snpCur g) s = .next t ∧ t.reply = .poisoned) ∧
  (∀ s g x, s.granule? g = some x → x.evicting = true ∨ x.st = none →
    exec (.snpInv g) s = .next { s with reply := .snoop false none } ∧
    exec (.snpData g) s = .next { s with reply := .snoop false none } ∧
    exec (.snpCur g) s = .next { s with reply := .snoop false none }) ∧
  (∀ s part win off n mv asn va l r y, winAddr s part win off n 0 = some (asn, va) → 0 < n → va % 128 + n ≤ 128 →
    hostPage s part asn va = .ok s l → s.lockedLine part asn va l = false → r = l.lineRef part asn va → Quiet s r y →
    s.filterFull r.line = false → overInterval (s.chip r.chip) (readRts s r y s.dclk) = false →
    let track := l.bias && s.cxlMode && (mv == .shared || mv == .anyState)
    ∃ t z, exec (.hostRead part win off n mv) s = .next t ∧ t.mem = s.mem ∧
      t.reply = .data (s.mem.read (l.key va) n) (track && mv == .shared) (track && mv == .anyState) ∧
      t.l2? r = some z ∧ z.wts = y.wts ∧ z.rts = readRts s r y s.dclk ∧
      (track = false → t.snoops = s.snoops) ∧
      (track = true → ∃ e, t.snoop? r.line = some e ∧ e.excl = (mv == .anyState))) ∧
  (∀ s part win off n mv, winAddr s part win off n 0 = none →
    (s.resetting = false → exec (.hostRead part win off n mv) s = .next { s with reply := .unsupported }) ∧
    (s.resetting = true → exec (.hostRead part win off n mv) s =
      .next (s.postNs 300000000 (.hostRead part win off n mv)))) ∧
  (∀ s part win off bytes mv asn va l r y, winAddr s part win off bytes.length 0 = some (asn, va) → bytes ≠ [] →
    va % 128 + bytes.length ≤ 128 → hostPage s part asn va = .ok s l → l.mode ≠ 4 → r = l.lineRef part asn va →
    Quiet s r y → s.filterFull r.line = false → InTimeAt s r y s.dclk →
    ∃ t, exec (.hostWrite part win off bytes mv) s = .next t ∧ Leased s t r (writeWts y s.dclk) ∧
      Pokes s t (within (r.line * 128 + va % 128) bytes.length)
        (fun a => at' 0 bytes (a - (r.line * 128 + va % 128))) ∧
      ((l.bias = false ∨ s.cxlMode = false ∨ mv = .noOp) → t.snoops = s.snoops) ∧
      (l.bias = true → s.cxlMode = true → (mv = .invalid → t.snoop? r.line = none) ∧
        (mv = .shared ∨ mv = .anyState → ∃ e, t.snoop? r.line = some e ∧ e.excl = (mv == .anyState)))) ∧
  (∀ s part win off bytes mv asn va l r, winAddr s part win off bytes.length 0 = some (asn, va) → bytes ≠ [] →
    va % 128 + bytes.length ≤ 128 → hostPage s part asn va = .ok s l → l.mode = 4 → r = l.lineRef part asn va →
    s.filterFull r.line = false →
    ∃ t, exec (.hostWrite part win off bytes mv) s = .next t ∧ t.mem = s.mem ∧ ∃ q ∈ t.reqs,
      q.kind = .rep (maskAt (va % 128) bytes.length)
        ((lineAt (va % 128) bytes ++ List.replicate 128 0).take 128) [] false false ∧
      q.va = va / 128 * 128 ∧ q.part = part ∧ q.asn = asn ∧ q.dev = 0 ∧ q.t = s.dclk ∧ .repStore (.req q.id) ∈ t.agenda ∧
      ((l.bias = false ∨ s.cxlMode = false ∨ mv = .noOp) → t.snoops = s.snoops) ∧
      (l.bias = true → s.cxlMode = true → (mv = .invalid → t.snoop? r.line = none) ∧
        (mv = .shared ∨ mv = .anyState → ∃ e, t.snoop? r.line = some e ∧ e.excl = (mv == .anyState)))) ∧
  (∀ s part win off bytes mv, winAddr s part win off bytes.length 0 = none →
    (s.resetting = false → exec (.hostWrite part win off bytes mv) s = .next s) ∧
    (s.resetting = true → exec (.hostWrite part win off bytes mv) s =
      .next (s.postNs 300000000 (.hostWrite part win off bytes mv)))) ∧
  ∀ s q line b e, s.req? q.id = some q → q.held = some (.host line b) → s.snoop? line = some e →
    (∃ t p, exec (.biResponse q.id []) s = .next t ∧ t.mem = s.mem ∧ t.req? q.id = some p ∧ p.held = none ∧
      serveStep q.id q.kind ∈ t.agenda ∧ (e.bi ≠ some false → t.snoop? line = none) ∧
      (e.bi = some false → t.snoop? line = some { e with excl := false, bi := none })) ∧
    ∀ dirty r y, dirty.length = 128 → biHome s e = r → r.line = line → Quiet s r y →
      InTimeAt s r y s.dclk → ∃ t, exec (.biResponse q.id dirty) s = .next t ∧ Leased s t r (writeWts y s.dclk) ∧
        Pokes s t (within (line * 128) 128) (fun a => at' 0 dirty (a - line * 128)) ∧
        serveStep q.id q.kind ∈ t.agenda

/-- RESOURCE_REGISTER_WRITE stores an accepted value and clears REJ, and refuses any other whole with REJ =
1, among them L2SH, TEST, DEBUG and window registers while EN = 1 and fields out of range; PRESET starts a
partition reset. QCFG_WRITE stores while CI = WI, PTROOT_WRITE while no launch of the ASN is incomplete,
LOGCFG_WRITE with EN = 1 clears its indices. REGISTER_WRITE passes a value to the register of its offset,
among them the MSI-X table, and ignores resource registers and the pending bits; a read of a function
answers what its registers hold. BIAS_FLIP clears GO with REJ for a range that is not mapped, and else runs
the drain procedure with BIAS rewritten. No other partition changes. The model's choices: which fields are
masked and which unknown values are refused (log entry 70), the layout of the MSI-X table and its pending
bits (log entry 71, presumed), and a flip's range and holds (log entry 73). (R384, R399, R400, R401, R402,
R412) -/
def Obligations.PartitionRegisters : Prop :=
  (∀ s part off v, part < 8 → s.parts.length = 8 → s.bootFail = false → resReg off ≠ .none →
    ∃ t, exec (.resourceRegisterWrite part off v) s = .next t ∧ t.mem = s.mem ∧ t.gangs = s.gangs ∧
      (∀ p, p ≠ part → t.part p = s.part p) ∧
      let P := s.part part
      (resRefused s part v (resReg off) = true → t = { s with parts := t.parts } ∧ t.part part = { P with rej := true }) ∧
      (resRefused s part v (resReg off) = false →
        (off = 0 → t.part part = { P with pcfg := v, rej := false }) ∧
        (off = 8 → t.part part = { P with l2sh := v, rej := false }) ∧
        (∀ i, i < 3 → off = 0x10 + 8 * i → t.part part = { P with cores := modAt (fun _ => v) i P.cores, rej := false }) ∧
        (off = 0x30 → t.part part = { P with rej := false } ∧ (v = 1 → .partitionReset part ∈ t.agenda)) ∧
        ∀ w, w < 16 →
          (off = 0x100 + 32 * w → t.part part = { P with rej := false, wins := modAt (fun x => { x with wva := v, ss := 0 }) w P.wins }) ∧
          (off = 0x108 + 32 * w → t.part part = { P with rej := false, wins := modAt (fun x => { x with wlen := v, ss := 0 }) w P.wins }) ∧
          (off = 0x110 + 32 * w → t.part part = { P with rej := false, wins := modAt (fun x => { x with wctl := v, ss := 0 }) w P.wins }) ∧
          (off = 0x118 + 32 * w → t.part part = { P with rej := false, wins := modAt (fun x => { x with fca := v, ss := 0 }) w P.wins }))) ∧
  (∀ s part v, (s.part part).en = true → resRefused s part v .l2sh = true ∧ (∀ w k, resRefused s part v (.win w k) = true) ∧
    (fld v 1 2 ≠ fld (s.part part).pcfg 1 2 → resRefused s part v .pcfg = true)) ∧
  (∀ s part v, fld v 22 10 ≠ 0 ∨ fld v 3 5 ≠ 0 ∨ fld v 32 32 = 0 ∨ 16 < fld v 16 5 ∨ 144 < fld v 8 8 →
    resRefused s part v .pcfg = true) ∧
  (∀ s part v, fld v 16 48 ≠ 0 → resRefused s part v (.cores 2) = true) ∧
  (∀ s part q v, s.fnOpen part = true → part < s.parts.length → q < 15 →
    (((s.part part).queue q).ci ≠ ((s.part part).queue q).wi → exec (.qcfgWrite part q v) s = .next s) ∧
    (((s.part part).queue q).ci = ((s.part part).queue q).wi → ∃ t, exec (.qcfgWrite part q v) s = .next t ∧
      t = { s with parts := t.parts } ∧ (∀ p, p ≠ part → t.part p = s.part p) ∧ t.part part = { s.part part with
        queues := modAt (fun x => { x with qcfg := v &&& 0xFFFFFFFFFFFFFF1F#64 }) q (s.part part).queues })) ∧
  (∀ s part asn v, s.fnOpen part = true → part < s.parts.length → asn < 16 →
    ((∃ l ∈ s.launches, l.part = part ∧ l.asn = asn) → exec (.ptrootWrite part asn v) s = .next s) ∧
    ((∀ l ∈ s.launches, l.part = part → l.asn ≠ asn) → ∃ t, exec (.ptrootWrite part asn v) s = .next t ∧
      t = { s with parts := t.parts } ∧ (∀ p, p ≠ part → t.part p = s.part p) ∧ t.part part = { s.part part with
        ptroot := modAt (fun _ => v &&& 0x0000FFFFFFFFF001#64) asn (s.part part).ptroot })) ∧
  (∀ s part v, s.fnOpen part = true → part < s.parts.length → ∃ t, exec (.logcfgWrite part v) s = .next t ∧
    t = { s with parts := t.parts } ∧ (∀ p, p ≠ part → t.part p = s.part p) ∧
    (v.getLsbD 0 = true → t.part part = { s.part part with
      logcfg := v &&& 0xFFFFFFFFFFFFE01F#64, logNext := 0, logDrop := 0, logci := 0 }) ∧
    (v.getLsbD 0 = false → t.part part = { s.part part with logcfg := v &&& 0xFFFFFFFFFFFFE01F#64 })) ∧
  (∀ s v, s.bootFail = false → exec (.registerWrite 8 0x010 v) s = .next (s.post (.pwrcapWrite v)) ∧
    exec (.registerWrite 8 0x020 v) s = .next (s.post (.attest v)) ∧
    exec (.registerWrite 8 0x028 v) s = .next { s with attnonce := v } ∧
    exec (.registerWrite 8 0x030 v) s = .next (s.post (.dbgctlWrite v)) ∧
    exec (.registerWrite 8 0x038 v) s = .next (s.post (.dbgselWrite v)) ∧
    exec (.registerWrite 8 0x040 v) s = .next (s.post (.dbgdataWrite v))) ∧
  (∀ s p v, s.fnOpen p = true → (∀ off, off < 0x800 → exec (.registerWrite p off v) s = .next s) ∧
    (∀ a, a < 16 → exec (.registerWrite p (0x800 + 8 * a) v) s = .next (s.post (.ptrootWrite p a v))) ∧
    (∀ q, q < 15 → exec (.registerWrite p (0x880 + 8 * q) v) s = .next (s.post (.qcfgWrite p q v)) ∧
      exec (.registerWrite p (0x900 + 8 * q) v) s = .next (s.modQueue p q fun x => { x with qcia := v &&& ~~~7#64 })) ∧
    (∀ q, q < 16 → exec (.registerWrite p (0x980 + 8 * q) v) s = .next (s.post (.doorbellWrite p q (fld v 0 32)))) ∧
    exec (.registerWrite p 0xA00 v) s = .next (s.post (.logcfgWrite p v)) ∧
    exec (.registerWrite p 0xA08 v) s = .next s ∧
    exec (.registerWrite p 0xA18 v) s = .next (s.post (.biasFlip p v)) ∧
    exec (.registerWrite p 0xA28 v) s = .next (s.modPart p fun x => { x with logci := v.setWidth 32 }) ∧
    (∀ k, k < 128 → exec (.registerWrite p (0x2000 + 8 * k) v) s = .next (s.modPart p fun x => x.putMsix k v)) ∧
    exec (.registerWrite p 0x3000 v) s = .next s) ∧
  (∀ (s : State) p, s.fnOpen p = true → let P := s.part p
    (∀ q, q < 16 → fld (s.fnRead p (0x980 + 8 * q)) 32 32 = (P.queue q).wi.toNat ∧
      fld (s.fnRead p (0x980 + 8 * q)) 0 32 = (P.queue q).ci.toNat) ∧
    fld (s.fnRead p 0xA08) 32 32 = P.logDrop.toNat ∧ fld (s.fnRead p 0xA08) 0 32 = P.logNext.toNat ∧
    s.fnRead p 0 = P.pcfg ∧ s.fnRead p 8 = P.l2sh ∧ s.fnRead p 0xA20 = P.idrop ∧
    (∀ k, k < 128 → s.fnRead p (0x2000 + 8 * k) = at' 0 P.msixTab k) ∧ s.fnRead p 0x3000 = P.pba) ∧
  ∀ s part v, s.fnOpen part = true → part < s.parts.length → (s.part part).bfc.getLsbD 0 = false →
    let w := v &&& 0xFFFFFFFF00000003#64
    let r := (s.part part).flip.getD (fld (s.part part).bfa 0 4, fld (s.part part).bfa 16 32)
    let pages := rangeFrom r.2 (fld w 32 32)
    let u := s.modPart part fun p => { p with bfc := w, flip := if w.getLsbD 0 then some r else none }
    (w.getLsbD 0 = false → exec (.biasFlip part v) s = .next u ∧ u.part part = { s.part part with bfc := w, flip := none } ∧
      ∀ p, p ≠ part → u.part p = s.part p) ∧
    (w.getLsbD 0 = true → (flipLeaves u part r.1 pages = .ok none → ∃ t, exec (.biasFlip part v) s = .next t ∧
        t = { s with parts := t.parts } ∧ t.part part = { s.part part with bfc := w &&& ~~~1#64, flip := none, rej := true } ∧
        ∀ p, p ≠ part → t.part p = s.part p) ∧
      (∀ h, flipLeaves u part r.1 pages = .error h → exec (.biasFlip part v) s =
        .next ((u.onHold h 0).postAt (u.cycle + 4) (.biasFlip part v))) ∧
      ∀ ls, ls ≠ [] → flipLeaves u part r.1 pages = .ok (some ls) →
        let z := stopFills u part r.1 (leafPages ls)
        (w.getLsbD 1 = true ∨ ∀ e ∈ z.snoops, ∀ k ∈ leafPages ls, inPage z part r.1 k e.line = false) →
        ∃ t, exec (.biasFlip part v) s = .next t ∧ t.mem = s.mem ∧
          t.part part = { s.part part with bfc := w, flip := some r } ∧ (∀ p, p ≠ part → t.part p = s.part p) ∧
          (∀ k ∈ leafPages ls, (part, r.1, k) ∈ t.drains) ∧
          .drainProcedure part r.1 ((leafPages ls).headD 0 * 65536)
            ((leafPages ls).map (flippedEntry z part r.1 (w.getLsbD 1))) ∈ t.agenda)

/-- INGEST_WRITE joins the stream of its window cut at lines, or is dropped and counted; INGEST_PIECE writes
its bytes past the stream's stamp, which becomes the returned wts, and a doorbell piece sends the atomic
that adds 1 to the frame counter and is awaited; INGEST_DOORBELL joins its stream or is counted; other
requests are unsupported. PWRCAP_WRITE stores 500 to 2,500; POWER_CHECK moves the clock by 25 MHz within
1,000 and 1,750. ATTEST sends the 512 bytes of the report to the host buffer as four writes of the bridge,
and GO reads 0 once they are acknowledged. A group that a BKPT halts stops as the next beat begins; the
debug registers select, read, write and resume, where a stream goes on at TRAPPC, one that waits once its
wait ends. The model's choices: the corners of the ingest port (log entry 72), the report as four lines and
where DBGSEL names a lane (log entry 79), and where a waiting stream goes on (log entry 46). (R414, R415,
R416, R432, R433, R434, R435) -/
def Obligations.IngestAndPlatformSteps : Prop :=
  (∀ s req part win o bytes bad, part < 8 → win < 16 → o < 2 ^ 36 → 0 < bytes.length → bytes.length ≤ 4096 →
    part < s.parts.length →
    (winAddr s part win o bytes.length 1 = none ∨ ingestOpen s part win req = false → ∃ t,
      exec (.ingestWrite req ((16 * part + win) * 2 ^ 36 + o) bytes bad) s = .next t ∧ t = { s with parts := t.parts } ∧
      t.part part = { s.part part with idrop := (s.part part).idrop + 1 }) ∧
    ∀ asn va, winAddr s part win o bytes.length 1 = some (asn, va) → ingestOpen s part win req = true →
      (ingestPages s part asn va bytes.length = false → ∃ t,
        exec (.ingestWrite req ((16 * part + win) * 2 ^ 36 + o) bytes bad) s = .next t ∧ t = { s with parts := t.parts } ∧
        t.part part = { s.part part with idrop := (s.part part).idrop + 1 }) ∧
      (ingestPages s part asn va bytes.length = true → (∀ g ∈ s.ingest, g.part = part → g.win ≠ win) →
        ∃ t, exec (.ingestWrite req ((16 * part + win) * 2 ^ 36 + o) bytes bad) s = .next t ∧ t.mem = s.mem ∧
          t.parts = s.parts ∧ .ingestPiece (16 * part + win) ∈ t.agenda ∧
          t.ingest = s.ingest ++ [⟨part, win, (linePieces va bytes.length).map fun c =>
            ⟨s.fresh, asn, c.1, c.1 % 128, (bytes.drop (c.1 - va)).take c.2, bad, false, none⟩⟩])) ∧
  (∀ s (g : IngStream) p rest l r y, g.win < 16 → s.ingest.find? (fun h => h.part == g.part && h.win == g.win) = some g →
    g.pieces = p :: rest → p.bell = false → p.bad = false → s.draining g.part p.asn p.va = false →
    tlpPages s g p = .take → translate s g.part p.asn p.va = (.leaf l, s) → l.host = false → r = l.lineRef g.part p.asn p.va →
    Quiet s r y → s.snoop? r.line = none → g.part < s.parts.length → g.win < (s.part g.part).wins.length →
    p.off + p.data.length ≤ 128 →
    let w := writeWts y (smax (s.winSs g.part g.win + 1) s.dclk)
    InTimeAt s r y (smax (s.winSs g.part g.win + 1) s.dclk) →
    ∃ t, exec (.ingestPiece (16 * g.part + g.win)) s = .next t ∧ Leased s t r w ∧
      Pokes s t (within (r.line * 128 + p.off) p.data.length) (fun a => at' 0 p.data (a - (r.line * 128 + p.off))) ∧
      t.winSs g.part g.win = w ∧
      (rest = [] → ∀ h ∈ t.ingest, h.part = g.part → h.win ≠ g.win) ∧
      (rest ≠ [] → .ingestPiece (16 * g.part + g.win) ∈ t.agenda ∧
        t.ingest.find? (fun h => h.part == g.part && h.win == g.win) = some { g with pieces := rest })) ∧
  (∀ s (g : IngStream) p rest, g.win < 16 → s.ingest.find? (fun h => h.part == g.part && h.win == g.win) = some g →
    g.pieces = p :: rest → p.bell = false → s.draining g.part p.asn p.va = false → g.part < s.parts.length →
    (∀ va, tlpPages s g p = .absent va → exec (.ingestPiece (16 * g.part + g.win)) s = .next (s.notPresent g.part p.asn va)) ∧
    (∀ h, tlpPages s g p = .held h → exec (.ingestPiece (16 * g.part + g.win)) s = .next (ingestAgain (s.onHold h 0) g)) ∧
    (tlpPages s g p = .lose → ∃ t, exec (.ingestPiece (16 * g.part + g.win)) s = .next t ∧ t.mem = s.mem ∧
      t.part g.part = { s.part g.part with idrop := (s.part g.part).idrop + 1 } ∧
      ∀ h ∈ t.ingest, h.part = g.part → h.win = g.win → 
        h = { g with pieces := g.pieces.filter (·.tlp != p.tlp) })) ∧
  (∀ s (g : IngStream) p rest, g.win < 16 → s.ingest.find? (fun h => h.part == g.part && h.win == g.win) = some g →
    g.pieces = p :: rest → p.bell = true →
    (∀ l, p.req = none → s.draining g.part p.asn p.va = false → translate s g.part p.asn p.va = (.leaf l, s) →
      leafCause s.devnum { wr := true, atom := true } l = none →
      ∃ t q, exec (.ingestPiece (16 * g.part + g.win)) s = .next t ∧
        t.mem = s.mem ∧ q ∈ t.reqs ∧ q.kind = .atom 0 (p.va % 128) 8 0 1 0 0 false ∧ q.va = p.va / 128 * 128 ∧
        q.dev = 0 ∧ q.part = g.part ∧ q.asn = p.asn ∧ q.t = smax (s.winSs g.part g.win + 1) s.dclk ∧
        .homeAtomic (.req q.id) ∈ t.agenda ∧
        t.ingest.find? (fun h => h.part == g.part && h.win == g.win) =
          some { g with pieces := { p with req := some q.id } :: rest }) ∧
    ∀ id, p.req = some id →
      (s.req? id ≠ none → exec (.ingestPiece (16 * g.part + g.win)) s =
        .next (s.postAt (s.cycle + 4) (.ingestPiece (16 * g.part + g.win)))) ∧
      (s.req? id = none → rest ≠ [] → ∃ t, exec (.ingestPiece (16 * g.part + g.win)) s = .next t ∧ t.mem = s.mem ∧
        t.ingest.find? (fun h => h.part == g.part && h.win == g.win) = some { g with pieces := rest } ∧
        .ingestPiece (16 * g.part + g.win) ∈ t.agenda)) ∧
  (∀ s req part win len, part < 8 → win < 16 → len = 4 ∨ len = 8 → part < s.parts.length →
    let w := at' ⟨0, 0, 0, 0, 0⟩ (s.part part).wins win
    (w.fca = 0 ∨ ingestOpen s part win req = false → ∃ t, exec (.ingestDoorbell req (8 * (16 * part + win)) len) s =
      .next t ∧ t = { s with parts := t.parts } ∧
      t.part part = { s.part part with idrop := (s.part part).idrop + 1 }) ∧
    (w.fca ≠ 0 → ingestOpen s part win req = true → winAddr s part win 0 0 1 ≠ none →
      (∀ g ∈ s.ingest, g.part = part → g.win ≠ win) → ∃ t,
      exec (.ingestDoorbell req (8 * (16 * part + win)) len) s = .next t ∧ t.mem = s.mem ∧ t.parts = s.parts ∧
      .ingestPiece (16 * part + win) ∈ t.agenda ∧ t.ingest = s.ingest ++
        [⟨part, win, [⟨s.fresh, fld w.wva 0 4, fld w.fca 0 48, 0, [], false, true, none⟩]⟩])) ∧
  (∀ s req, exec (.ingestUnsupportedRequest req) s = .next { s with reply := .unsupported }) ∧
  (∀ s v, s.bootFail = false → let n := fld v 0 12
    exec (.pwrcapWrite v) s = .next { s with pwrcap := if n < 500 then 500 else if 2500 < n then 2500 else n }) ∧
  (∀ s, ∃ t, exec .powerCheck s = .next t ∧
    t = { s with pwr := t.pwr, tmax := t.tmax, mhz := t.mhz, thr := t.thr } ∧
    (s.pwrcap < t.pwr → 1000 < s.mhz → t.mhz = s.mhz - 25 ∧ t.thr = min 65535 (s.thr + 1)) ∧
    (s.pwrcap < t.pwr → s.mhz ≤ 1000 → t.mhz = s.mhz ∧ t.thr = s.thr) ∧
    (t.pwr + 50 < s.pwrcap → 1750 ≤ s.mhz → t.mhz = s.mhz ∧ t.thr = s.thr) ∧
    (t.pwr + 50 < s.pwrcap → s.mhz < 1750 → t.mhz = s.mhz + 25 ∧ t.thr = s.thr) ∧
    (t.pwr ≤ s.pwrcap → s.pwrcap ≤ t.pwr + 50 → t.mhz = s.mhz ∧ t.thr = s.thr)) ∧
  (∀ s v, s.bootFail = false → s.attctl.getLsbD 0 = false → let A := v &&& 0xFFFFFFFFFFFFFF80#64
    (v.getLsbD 0 = false → exec (.attest v) s = .next { s with attctl := A }) ∧
    (v.getLsbD 0 = true → ∃ t, exec (.attest v) s = .next t ∧ t.mem = s.mem ∧ t.attctl = A ||| 1#64 ∧
      t.attCount = s.attCount + 1 ∧ ∀ k, k < 4 → ∃ q ∈ t.reqs, q.kind = .report (((report s).drop (128 * k)).take 128) ∧
        q.va = (A.toNat + 128 * k) % 2 ^ 47 ∧ .bridgeDeviceWrite q.id ∈ t.agenda)) ∧
  (∀ s q data x, s.req? q.id = some q → q.kind = .report data → q.held = none → q.served = false →
    data.length = 128 → q.va % 128 = 0 → q.va < 2 ^ 47 → s.cxlMode = true → s.hostWritable (q.va / 128) = true →
    s.granule? (q.va / 128) = some x → s.bad = [] → s.mem.wf = true →
    ∃ t p z, exec (.bridgeDeviceWrite q.id) s = .next t ∧
      Pokes s t (within (memKey 4 q.va) 128) (fun a => at' 0 data (a - memKey 4 q.va)) ∧
      t.req? q.id = some p ∧ p.served = true ∧ t.granule? (q.va / 128) = some z ∧ z.st = some .m) ∧
  (∀ s q data, s.req? q.id = some q → q.kind = .report data → q.served = true →
    (∀ p ∈ s.reqs, p.id ≠ q.id → ∀ d, p.kind ≠ .report d) → ∃ t, exec (.bridgeWriteAck q.id) s = .next t ∧
      t.mem = s.mem ∧ t.req? q.id = none ∧ t.attctl = s.attctl &&& ~~~1#64 ∧
      t.stage = if s.stage = 4 then 5 else s.stage) ∧
  (∀ s v, s.bootFail = false → ∃ t, exec (.dbgctlWrite v) s = .next t ∧ t.mem = s.mem ∧ t.dbgctl = v &&& 0xFF#64 ∧
    ∀ (k : Nat) (G : Group), s.groups[k]? = some G → ∃ H, t.groups[k]? = some H ∧ H.id = G.id ∧
      (G.halted = true → (v &&& 0xFF#64).getLsbD G.part = false → H.halted = false)) ∧
  (∀ s v, s.bootFail = false →
    (fld v 56 8 = 0xFF → exec (.dbgselWrite v) s = .next (s.post (.debugResume v))) ∧
    (fld v 56 8 ≠ 0xFF → exec (.dbgselWrite v) s = .next { s with dbgsel := v })) ∧
  (∀ s v G, dbgGroup s v = some G → ∃ t, exec (.debugResume v) s = .next t ∧
    t = { s with gangs := t.gangs, groups := t.groups, teams := t.teams, nsTimers := t.nsTimers, agenda := t.agenda } ∧
    (∀ H, t.group? G.id = some H → H.halted = false) ∧
    ∀ (k : Nat) (g : Gang), s.gangs[k]? = some g → ∃ h, t.gangs[k]? = some h ∧ (g.group ≠ G.id → h = g) ∧
      ∀ (i : Nat) (sl : Slice), g.group = G.id → g.slices[i]? = some sl → ∃ sl', h.slices[i]? = some sl' ∧
        sl'.lanes = sl.lanes ∧ (sl.run = .run → sl'.pc = sl.trappc ∧ sl'.run = .run ∧ sl'.readyAt = s.beat + 1) ∧
        (∀ d, sl.run = .sleep d → sl'.pc = sl.trappc ∧ sl'.run = .sleep d) ∧
        (∀ a, sl.run = .regang a → sl'.pc = sl.trappc ∧ sl'.run = .regang a) ∧
        (∀ l own a, sl.run = .barrier l own a → sl'.run = .barrier l own sl.trappc) ∧
        (sl.run = .ended ∨ sl.run = .retired → sl' = sl)) ∧
  (∀ (s : State) (k : Nat) (G : Group), s.groups[k]? = some G → G.halting = true →
    s.haltGroups.groups[k]? = some { G with halting := false, halted := true, haltAt := s.ptp }) ∧
  (∀ s, s.bootFail = false →
    (dbgBad s = false → exec .dbgdataRead s = .next { dbgMend s with reply := .value (dbgValue s) }) ∧
    (dbgBad s = true → exec .dbgdataRead s = .next { dbgMend s with reply := .poisoned }) ∧
    (s.bad = [] → dbgMend s = s)) ∧
  (∀ s G g L v, s.bootFail = false → dbgLane s s.dbgsel = some (G, g, L) → (∀ h ∈ s.gangs, h.id = g.id → h = g) →
    ∃ t, exec (.dbgdataWrite v) s = .next t ∧ t.mem = s.mem ∧
      (fld s.dbgsel 56 8 = 0 → ∀ l, g.lane? L = some l → ∃ h, t.gang? g.id = some h ∧
        h.lane? L = some { l with n := modAt (fun _ => v) (fld s.dbgsel 48 8) l.n } ∧
        ∀ K, K ≠ L → h.lane? K = g.lane? K) ∧
      (fld s.dbgsel 56 8 = 1 → ∀ l, g.lane? L = some l → ∃ h, t.gang? g.id = some h ∧
        h.lane? L = some { l with q := modAt (fun _ => v) (fld s.dbgsel 48 8) l.q }) ∧
      (fld s.dbgsel 56 8 = 2 → ∃ h, t.gang? g.id = some h ∧ h.slices = g.slices ∧
        h.g = modAt (fun _ => v) (fld s.dbgsel 48 8) g.g)) ∧
  ∀ s G g l, dbgLane s s.dbgsel = some (G, g, fld s.dbgsel 40 8 % 64) → g.lane? (fld s.dbgsel 40 8 % 64) = some l →
    (fld s.dbgsel 56 8 = 0 → dbgValue s = at' 0 l.n (fld s.dbgsel 48 8)) ∧
    (fld s.dbgsel 56 8 = 1 → dbgValue s = at' 0 l.q (fld s.dbgsel 48 8)) ∧
    (fld s.dbgsel 56 8 = 2 → dbgValue s = at' 0 g.g (fld s.dbgsel 48 8))

/-- DEVICE_NUMBER_ASSIGN joins a synchronized device, sends its boot report where boot waits for this, and
lets what waited go on; PTP_SYNC steps forward to a reference until the device is within 40 ns of one, and
slews (the step, past which what lasts a given time lasts no shorter, is log entry 48's); a device that
failed to boot does neither; FLIT_RETRY changes nothing; FABRIC_TIMEOUT gives the lanes of an unanswered
request up. REMOTE_READ answers the bytes with a lease of R422 that RLE remembers; REMOTE_WRITE goes to the
home at DCLK; HELD_WRITE_RELEASE lets a held write go once PTPNOW reaches its time. REP_STORE numbers an
update at its set's home and sends it, or its locks, and elsewhere goes to that home under the 1 ms of R419;
REP_LOCK and REP_APPLY_ACK note their device; REP_UPDATE_APPLY performs the next update in order at DCLK,
also one that comes in from another home, and acknowledges the store when every replica has;
REP_LOCK_TIMEOUT drops a replica; REP_LOAD_TIMEOUT reads the home copy, at a home elsewhere by a request;
REP_MODE_SWITCH sets the mode once no update is in flight and writes entries of the replica table within
R424's bounds. The model's choices: what joining and time-outs do beyond R418 and R419 (log entry 74), the
leases' form (log entry 36), the replica table and its messages, and another device's read of a locked line
at a replica that is not its home (log entry 75). (R418, R419, R421, R422, R423, R424, R425, R427) -/
def Obligations.FabricSteps : Prop :=
  (∀ s num, s.bootFail = false → 0 < num → num ≤ 4608 → s.ports = true → s.joined = false → s.synced = true →
    ∃ t, exec (.deviceNumberAssign num) s = .next t ∧ t.devnum = num ∧ t.joined = true ∧ t.mem = s.mem ∧
      t.stage = (if s.stage = 3 then 4 else s.stage) ∧
      (s.stage = 3 → t.attCount = s.attCount + 1 ∧ ∀ k, k < 4 → ∃ q ∈ t.reqs,
        q.kind = .report (((report s).drop (128 * k)).take 128) ∧ q.va = (fld s.attctl 7 57 * 128 + 128 * k) % 2 ^ 47 ∧
        .bridgeDeviceWrite q.id ∈ t.agenda) ∧
      (∀ o ∈ t.ops, o.awaitsJoin = false) ∧
      ∀ q ∈ s.reqs, q.held = some .fabric → serveStep q.id q.kind ∈ t.agenda) ∧
  (∀ s num, s.bootFail = true ∨ s.joined = true ∨ s.synced = false ∨ s.ports = false ∨ num = 0 ∨ 4608 < num → exec (.deviceNumberAssign num) s = .next s) ∧
  (∀ s T, (s.bootFail = true → exec (.ptpSync T) s = .next s) ∧
    (s.bootFail = false → s.synced = true → exec (.ptpSync T) s = .next { s with slew := (T : Int) - (s.ptp : Int) }) ∧
    (s.bootFail = false → s.synced = false → let d := max s.ptp T - s.ptp
      exec (.ptpSync T) s = .next { s with
        synced := decide (s.ptp ≤ T + 40), ptp := max s.ptp T, slew := (T : Int) - (max s.ptp T : Nat)
        nsTimers := s.nsTimers.map fun e => if endsWait e.2 then (e.1 + d, e.2) else e
        teams := s.teams.map fun (U : Team) => { U with mark := U.mark.map (· + d) }
        groups := s.groups.map fun (G : Group) => { G with haltAt := G.haltAt + d } })) ∧
  (∀ s port, exec (.flitRetry port) s = .next s) ∧
  (∀ s q id o lanes cwts fill acq ef keep mask ahead, s.req? q.id = some q → q.dev ≠ 0 → q.served = false →
    q.op = some id → s.op? id = some o → q.kind = .read lanes cwts fill acq ef keep mask ahead →
    ∃ t p, exec (.fabricTimeout q.id) s = .next t ∧ t.mem = s.mem ∧ t.req? q.id = none ∧ t.op? id = some p ∧
      p.fabric = o.fabric ++ lanes.map (·.1) ∧ p.waits = o.waits - 1) ∧
  (∀ s dev part asn va n l r y, s.joined = true → s.bootFail = false → s.draining part asn va = false →
    translate s part asn va = (.leaf l, s) → l.host = false → r = l.lineRef part asn va → Quiet s r y →
    s.snoop? r.line = none →
    (s.lockedLine part asn va l = false → heldFor s r.line = false →
      ∃ t, exec (.remoteRead dev part asn va n) s = .next t ∧ t.mem = s.mem ∧
      let lend := (s.ptp / 8 + 8 * 2 ^ s.levelOf r) % 2 ^ 32
      t.reply = .remote (s.mem.read (l.key va) n) (some lend) ∧
      t.rle? r.line = some (match s.rle? r.line with | none => lend | some e => later32 e lend)) ∧
    (s.lockedLine part asn va l = false → heldFor s r.line = true →
      ∃ t, exec (.remoteRead dev part asn va n) s = .next t ∧ t.mem = s.mem ∧
      t.rles = s.rles ∧ t.reply = .remote (s.mem.read (l.key va) n) none) ∧
    (s.lockedLine part asn va l = true → s.homeOf part asn va = s.devnum →
      ∃ t, exec (.remoteRead dev part asn va n) s = .next t ∧ t.mem = s.mem ∧
        t.rles = s.rles ∧ t.reply = .remote (s.mem.read (l.key va) n) none) ∧
    (s.lockedLine part asn va l = true → s.homeOf part asn va ≠ s.devnum → (∀ q ∈ s.reqs, q.standsIn = false) →
      exec (.remoteRead dev part asn va n) s =
        .next ((s.send (.read [] none false false false false 0 []) 144 0 none part asn (va / 128 * 128) 0 s.dclk).postAt
          (s.cycle + 4) (.remoteRead dev part asn va n))) ∧
    (s.lockedLine part asn va l = true → s.homeOf part asn va ≠ s.devnum → ∀ q,
      s.reqs.find? (fun q => q.standsIn && q.part == part && q.asn == asn && q.va / 128 == va / 128) = some q →
      (q.served = false → exec (.remoteRead dev part asn va n) s =
        .next (s.postAt (s.cycle + 4) (.remoteRead dev part asn va n))) ∧
      (q.served = true → let ln := remoteLine (s.homeOf part asn va) va
        let u := farLine (s.dropReq q.id) ln
        exec (.remoteRead dev part asn va n) s =
          .next { u with reply := .remote (u.mem.read (ln * 128 + va % 128) n) none }))) ∧
  (∀ s dev part asn va bytes, s.joined = true → s.bootFail = false → bytes ≠ [] → va % 128 + bytes.length ≤ 128 →
    ∃ t q, exec (.remoteWrite dev part asn va bytes) s = .next t ∧ t.mem = s.mem ∧ q ∈ t.reqs ∧
      q.kind = .write (maskAt (va % 128) bytes.length)
        ((lineAt (va % 128) bytes ++ List.replicate 128 0).take 128) [] false false ∧
      q.va = va / 128 * 128 ∧ q.part = part ∧ q.asn = asn ∧ q.dev = 0 ∧ q.t = s.dclk ∧ q.src = some (dev, 0) ∧
      .homeWrite q.id ∈ t.agenda) ∧
  (∀ s q ns, s.req? q.id = some q → q.held = some (.lease ns) → ns ≠ 0 →
    (s.ptp < ns → exec (.heldWriteRelease q.id) s = .next (s.postNs ns (.heldWriteRelease q.id))) ∧
    (ns ≤ s.ptp → ∃ t, exec (.heldWriteRelease q.id) s = .next t ∧ t.mem = s.mem ∧
      t.req? q.id = some { q with held := none } ∧ serveStep q.id q.kind ∈ t.agenda)) ∧
  (∀ s q mask data gangs ef bad (g : RepSet), s.req? q.id = some q → q.kind = .rep mask data gangs ef bad →
    q.held = none → q.served = false → s.repSet? q.part q.asn q.va = some g →
    s.sets.find? (·.id == g.id) = some g →
    (s.repHome g = s.devnum → g.toLock = none → (∀ u ∈ g.upds, u.src ≠ some q.id) →
      ∃ (t : State) (h : RepSet), exec (.repStore (.req q.id)) s = .next t ∧ t.mem = s.mem ∧
        t.sets.find? (·.id == g.id) = some h ∧
        h = { g with
          seq := g.seq + 1
          upds := g.upds ++ [⟨g.seq + 1, q.va / 128 * 128, mask, data, some q.id, [], [], !g.lock, ef, bad⟩] } ∧
        (g.lock = false → .repUpdateApply g.id (.own (g.seq + 1)) ∈ t.agenda) ∧
        (g.lock = true → .repLock g.id (.own (g.seq + 1)) ∈ t.agenda ∧ ∀ d ∈ g.devs, d ≠ s.devnum →
          (s.ptp + 10000, .repLockTimeout g.id (g.seq + 1) d) ∈ t.nsTimers)) ∧
    (s.repHome g ≠ s.devnum → ∃ t, exec (.repStore (.req q.id)) s = .next t ∧ t.mem = s.mem ∧ t.sets = s.sets ∧
      (∃ k, (k, .fabricTimeout q.id) ∈ t.nsTimers) ∧
      (s.joined = false → ∃ p, t.req? q.id = some p ∧ p.held = some .fabric))) ∧
  (∀ s set n g u, s.upd? set n = some (g, u) → u.sent = false → s.devnum ∉ u.locked →
    ∃ (t : State) (h : RepSet), exec (.repLock set (.own n)) s = .next t ∧ t.mem = s.mem ∧
      t.sets.find? (·.id == set) = some h ∧ h.locks = u.va :: g.locks ∧ h.devs = g.devs ∧
      ((∀ d ∈ g.devs, d = s.devnum ∨ d ∈ u.locked) → .repUpdateApply set (.own n) ∈ t.agenda)) ∧
  (∀ s set n (m : RepMsg) g, s.farSet? set = some g → g.applied < n →
    ∃ t, exec (.repLock set (.far n m)) s = .next t ∧ t = { s with sets := t.sets } ∧
      t.sets.find? (·.id == set) = some { g with locks := m.va :: g.locks }) ∧
  (∀ s set seq dev g u, s.upd? set seq = some (g, u) → s.repHome g = s.devnum →
    ∃ (t : State) (h : RepSet), exec (.repApplyAck set seq dev) s =
    .next t ∧ t.mem = s.mem ∧ t.sets.find? (·.id == set) = some h ∧ h.devs = g.devs ∧
    (u.sent = false → (∀ d ∈ g.devs, d = dev ∨ d ∈ u.locked) → .repUpdateApply set (.own seq) ∈ t.agenda) ∧
    (u.sent = true → (∀ d ∈ g.devs, d = dev ∨ d ∈ u.acked) → h.upds = g.upds.filter (·.seq != seq) ∧
      (h.upds = [] → h.lock = g.toLock.getD g.lock) ∧
      ∀ q, u.src = some q.id → s.req? q.id = some q → ∃ p, t.req? q.id = some p ∧ p.served = true) ∧
    (u.sent = true → (∃ d ∈ g.devs, d ≠ dev ∧ d ∉ u.acked) →
      h.upds.find? (·.seq == seq) = some { u with acked := dev :: u.acked })) ∧
  (∀ s set seq dev g u, s.upd? set seq = some (g, u) → s.repHome g ≠ s.devnum →
    (s.devnum ∉ u.acked → exec (.repApplyAck set seq dev) s = .next s) ∧
    (s.devnum ∈ u.acked → ∃ (t : State) (h : RepSet), exec (.repApplyAck set seq dev) s = .next t ∧ t.mem = s.mem ∧
      t.sets.find? (·.id == set) = some h ∧ h = { g with upds := g.upds.filter (·.seq != seq) } ∧
      ∀ q, u.src = some q.id → s.req? q.id = some q → ∃ p, t.req? q.id = some p ∧ p.served = true)) ∧
  (∀ s set seq g u l r y, s.upd? set seq = some (g, u) → u.sent = true → seq = g.applied + 1 →
    translate s g.part g.asn u.va = (.leaf l, s) → l.host = false → r = l.lineRef g.part g.asn u.va → Quiet s r y →
    s.snoop? r.line = none → InTimeAt s r y s.dclk → u.data.length = 128 →
    ∃ (t : State) (h : RepSet), exec (.repUpdateApply set (.own seq)) s = .next t ∧ Leased s t r (writeWts y s.dclk) ∧
      Pokes s t (fun a => a / 128 == r.line && u.mask.getLsbD (a % 128)) (fun a => at' 0 u.data (a % 128)) ∧
      t.sets.find? (·.id == set) = some h ∧ h.applied = seq ∧ h.locks = g.locks.erase u.va ∧
      .repUpdateApply set (.own (seq + 1)) ∈ t.agenda ∧
      ((∀ d ∈ g.devs, d = s.devnum ∨ d ∈ u.acked) → (∀ v ∈ h.upds, v.seq ≠ seq) ∧
        ∀ q, u.src = some q.id → s.req? q.id = some q → q.standsIn = false →
          ∃ p, t.req? q.id = some p ∧ p.served = true)) ∧
  (∀ s set n (m : RepMsg) g, s.farSet? set = some g →
    (n ≤ g.applied ∨ (∃ u ∈ g.upds, u.seq = n) → exec (.repUpdateApply set (.far n m)) s = .next s) ∧
    (g.applied < n → (∀ u ∈ g.upds, u.seq ≠ n) →
      let ef := match (m.src.bind s.req?).map (·.kind) with | some (.rep _ _ _ ef _) => ef | _ => false
      let u : RepUpd := ⟨n, m.va, m.mask, m.data, m.src, [], [], true, ef, m.bad⟩
      let s1 := { s with sets := s.sets.map fun (h : RepSet) =>
        if h.id = set then { h with upds := h.upds ++ [u] } else h }
      exec (.repUpdateApply set (.far n m)) s = exec (.repUpdateApply set (.own n)) s1 ∧
      (n ≠ g.applied + 1 → exec (.repUpdateApply set (.far n m)) s = .next s1))) ∧
  (∀ s set seq dev g u, s.upd? set seq = some (g, u) → u.sent = false → dev ∉ u.locked → dev ∈ g.devs →
    s.repHome g = s.devnum →
    ∃ (t : State) (h : RepSet), exec (.repLockTimeout set seq dev) s = .next t ∧ t.mem = s.mem ∧
      t.sets.find? (·.id == set) = some h ∧ h.devs = g.devs.filter (· != dev) ∧ h.dropped = g.dropped ++ [dev]) ∧
  (∀ s (q : Req), s.req? q.id = some q → q.held = some (.lease 0) → q.standsIn = true →
    exec (.repLoadTimeout q.id) s = .next (s.modReq q.id fun q => { q with served := true, held := none })) ∧
  (∀ s (q : Req) (g : RepSet) lanes cwts fill acq ef keep mask ahead, s.req? q.id = some q → q.held = some (.lease 0) →
    q.standsIn = false →
    q.kind = .read lanes cwts fill acq ef keep mask ahead → s.repSet? q.part q.asn q.va = some g →
    s.repHome g ≠ s.devnum →
    ∃ t, exec (.repLoadTimeout q.id) s = .next t ∧ t.mem = s.mem ∧ t.l1 = s.l1 ∧
      t.req? q.id = some { q with
        kind := .read lanes cwts false acq ef keep mask ahead, dev := s.repHome g, held := none } ∧
      .homeRead q.id ∈ t.agenda ∧ (s.ptp + 1000000, .fabricTimeout q.id) ∈ t.nsTimers) ∧
  (∀ s (q : Req) (g : RepSet) l r y lanes cwts fill ef keep mask ahead, s.req? q.id = some q →
    q.held = some (.lease 0) → q.standsIn = false → q.kind = .read lanes cwts fill false ef keep mask ahead →
    s.repSet? q.part q.asn q.va = some g → (∀ G ∈ s.groups, G.replay = none) → s.repHome g = s.devnum →
    translate s q.part q.asn q.va = (.leaf l, s) → r = l.lineRef q.part q.asn q.va → Quiet s r y →
    s.snoop? r.line = none → overInterval (s.chip r.chip) (readRts s r y q.t) = false →
    ∃ t, exec (.repLoadTimeout q.id) s = .next t ∧ t.mem = s.mem ∧ t.l1 = s.l1 ∧ t.req? q.id = none ∧
      Raised s t q.gang y.wts ∧ Answered s t q (lanes.map fun e =>
        (e.1, leWord (((overlayBytes mask ahead (lineOf s r.line)).drop e.2.1).take e.2.2)))) ∧
  (∀ s (e : RepEntry) lock, (entryOk s e = false → exec (.repModeSwitch (.table e) lock) s = .next s) ∧
    (entryOk s e = true → s.sets.find? (·.id == e.id) = none →
      exec (.repModeSwitch (.table e) lock) s = .next { s with
        sets := s.sets ++ [⟨e.id, e.part, e.asn, e.va, e.size, e.devs, 0, 0, lock, none, [], [], []⟩] }) ∧
    ∀ g, entryOk s e = true → s.sets.find? (·.id == e.id) = some g → g.upds = [] →
      ∃ t, exec (.repModeSwitch (.table e) lock) s = .next t ∧ t = { s with sets := t.sets } ∧
        t.sets.find? (·.id == e.id) = some { g with
          part := e.part, asn := e.asn, va := e.va, size := e.size, devs := e.devs, lock := lock, toLock := none }) ∧
  ∀ s set lock g, s.sets.find? (·.id == set) = some g → ∃ t, exec (.repModeSwitch (.mode set) lock) s = .next t ∧
    t = { s with sets := t.sets } ∧ t.sets.find? (·.id == set) = some (if g.upds = [] then
      { g with lock := lock, toLock := none } else { g with toLock := some lock })

/-- FAULT_RESOLVE lets what waited for a page go on, or ends its groups with 0x14; DRAIN_PROCEDURE waits for
accesses under way, then drops the pages' translations and lines, but for copies of decided cells, and
rewrites their entries as writes at their homes, once no agent holds a line that this needs (log entry 73
has the corners); DAMAGED_BIT marks its codeword, or takes the same bit back, drops a damaged copy, and
resets the device for state of the whole hub. PARTITION_RESET ends with the partition's lines gone, its
indices 0 and every other partition as it was. DEVICE_RESET first has the bridge write its modified granules
back, and leaves the state of R213 and R430, with memory and the disabled frames kept and the codewords that
stood dirty in L2 poisoned; a device without ports is then in step 5 of boot, its report on the way, and one
with ports waits in step 4. The model's choices: second errors of a codeword (log entry 76), what a device
reset keeps and poisons (log entry 77) and the steps of a partition reset (log entry 78). (R194, R195, R213,
R379, R380, R385, R394, R396, R413, R430, R431) -/
def Obligations.FaultAndResetSteps : Prop :=
  (∀ s part asn va q, q ∈ s.reqs → q.held = some .fault → q.part = part → q.asn = asn → q.va / 65536 = va / 65536 →
    ∃ t, exec (.faultResolve part asn va true) s = .next t ∧ t.mem = s.mem ∧ serveStep q.id q.kind ∈ t.agenda ∧
      (part < s.parts.length → (asn, va / 65536 * 65536) ∉ (t.part part).faultq)) ∧
  (∀ s part asn va q lanes cwts fill acq ef keep mask ahead G, q ∈ s.reqs → q.held = some .fault → q.part = part →
    q.asn = asn → q.va / 65536 = va / 65536 → q.kind = .read lanes cwts fill acq ef keep mask ahead → s.sx = [] → s.mx = [] →
    s.groupOf q.gang = some G → G.ending = false → G.fatal = none →
    ∃ t H, exec (.faultResolve part asn va false) s = .next t ∧ t.group? G.id = some H ∧
      H.fatal = some 0x14) ∧
  (∀ s part asn va ptes q, q ∈ s.reqs → q.held ≠ some .fault → q.part = part → q.asn = asn → q.dev = 0 →
    va / 65536 ≤ q.va / 65536 → q.va / 65536 < va / 65536 + ptes.length →
    ∃ t, exec (.drainProcedure part asn va ptes) s = .next t ∧ t.mem = s.mem ∧
      (s.cycle + 4, .drainProcedure part asn va ptes) ∈ t.timers) ∧
  (∀ s part asn va e k r y, s.smb = [] → s.reds = [] → s.owned = [] → s.reqs = [] → s.rles = [] → va % 65536 = 0 →
    va < 2 ^ 48 → k / 2 ^ 48 < 4 → k % 128 + 8 ≤ 128 →
    let u := dropPages (stopFills s part asn [va / 65536]) part asn [va / 65536]
    u.walkHold part asn va = none → walkSlot u part asn va = some k → r = ⟨k / 2 ^ 48, part, asn, k % 2 ^ 48 / 128 * 128, k / 128⟩ → Quiet u r y → u.snoop? r.line = none →
    InTimeAt u r y s.dclk → ∃ t, exec (.drainProcedure part asn va [e]) s = .next t ∧
      Pokes s t (within k 8) (fun a => at' 0 (leBytes 8 e.toNat) (a - k)) ∧ Leased u t r (writeWts y s.dclk) ∧
      t.draining part asn va = false ∧ (∀ core, t.tlb? core part asn va = none) ∧
      (∀ x ∈ t.l2, inPage s part asn (va / 65536) x.pa = false) ∧
      (∀ c ∈ t.l1, (∀ a b, c.lease ≠ .decided a b) → c.part = part → c.asn = asn → c.va < 2 ^ 48 →
        c.va / 65536 ≠ va / 65536)) ∧
  (∀ s part asn va ptes h u, drainBusy (drainBuffers (stopFills s part asn (rangeFrom (va / 65536) ptes.length)) part asn
      (rangeFrom (va / 65536) ptes.length)) part asn (rangeFrom (va / 65536) ptes.length) = false →
    rewriteEntries part asn (dropPages (drainBuffers (stopFills s part asn (rangeFrom (va / 65536) ptes.length)) part asn
      (rangeFrom (va / 65536) ptes.length)) part asn (rangeFrom (va / 65536) ptes.length))
      (List.zip (rangeFrom (va / 65536) ptes.length) ptes) = .held u h →
    exec (.drainProcedure part asn va ptes) s =
      .next ((u.onHold h 0).postAt ((u.onHold h 0).cycle + 4) (.drainProcedure part asn va ptes))) ∧
  (∀ s loc b unc, s.hasPlace loc = true → (∀ c n, loc ≠ .l1 c n) → (∀ c n, loc ≠ .icache c n) →
    (∀ c n, loc ≠ .transCache c n) → loc ≠ .hubShared →
    let rest := s.bad.filter (·.loc != loc)
    (s.bad.find? (·.loc == loc) = none →
      exec (.damagedBit loc b unc) s = .next { s with bad := ⟨loc, !unc, 0, b⟩ :: rest }) ∧
    ∀ d, s.bad.find? (·.loc == loc) = some d →
      (d.fixable = false ∨ unc = true ∨ d.bit ≠ b →
        exec (.damagedBit loc b unc) s = .next { s with bad := ⟨loc, false, 0, b⟩ :: rest }) ∧
      (d.fixable = true → unc = false → d.bit = b →
        ((∀ n, loc ≠ .hbm n) → exec (.damagedBit loc b unc) s = .next { s with bad := rest }) ∧
        (∀ n, loc = .hbm n → exec (.damagedBit loc b unc) s = .next { s with bad := ⟨loc, true, 0, b⟩ :: rest }))) ∧
  (∀ s b, exec (.damagedBit .hubShared b true) s = .next (s.postOnce .deviceReset)) ∧
  (∀ s core n b c,
    s.l1.find? (fun d => d.core == core && d.va / 128 % 256 == n / 8 % 256 && d.way == n % 8) = some c →
    exec (.damagedBit (.l1 core n) b true) s = .next { s with l1 := s.l1.erase c }) ∧
  (∀ s core n b e, (s.icache.filter (·.1 == core))[n]? = some e →
    exec (.damagedBit (.icache core n) b true) s = .next { s with icache := s.icache.erase e }) ∧
  (∀ s chip n b e, (s.tlb.filter (·.core == 144 + chip))[n]? = some e →
    exec (.damagedBit (.transCache chip n) b true) s = .next { s with tlb := s.tlb.erase e }) ∧
  (∀ s part, part < 8 → s.parts.length = 8 → (∀ G ∈ s.groups, G.part ≠ part) → (∀ q ∈ s.reqs, q.part ≠ part) →
    (∀ c ∈ s.sx, c.part ≠ part) → (∀ g ∈ s.ingest, g.part ≠ part) → (∀ l ∈ s.launches, l.part ≠ part) →
    (∀ x ∈ s.granules, x.part = part → x.st ≠ some .m) → leaseLeft s part = false →
    ∃ t, exec (.partitionReset part) s = .next t ∧ t.mem = s.mem ∧ (t.part part).rst = false ∧
      (∀ x ∈ (t.part part).queues, x.wi = 0 ∧ x.ci = 0) ∧ (t.part part).devq = [] ∧
      (∀ x ∈ t.l2, x.part ≠ part) ∧ (∀ c ∈ t.l1, c.part ≠ part) ∧ (∀ p, p ≠ part → t.part p = s.part p) ∧
      (∀ x ∈ s.l2, x.part ≠ part → x ∈ t.l2) ∧ (∀ k, (t.chip k).cc = (s.chip k).cc) ∧ t.regions = s.regions ∧
      t.groups = s.groups ∧ t.dclk = s.dclk) ∧
  (∀ s part, part < 8 → (∃ G ∈ s.groups, G.part = part) → ∃ t, exec (.partitionReset part) s = .next t ∧
    (part < s.parts.length → (t.part part).rst = true) ∧ (s.cycle + 4, .partitionReset part) ∈ t.timers) ∧
  (∀ s, granulesOut s (fun _ => true) ≠ [] → ∃ t, exec .deviceReset s = .next t ∧ t = { s with agenda := t.agenda } ∧
    .deviceReset ∈ t.agenda ∧ ∀ x ∈ granulesOut s (fun _ => true), .bridgeWriteback x.addr ∈ t.agenda) ∧
  ∀ s, granulesOut s (fun _ => true) = [] → ∃ t, exec .deviceReset s = .next t ∧ t.mem = s.mem ∧ t.groups = [] ∧
    t.gangs = [] ∧ t.launches = [] ∧ (∀ q ∈ t.reqs, ∃ d, q.kind = .report d) ∧ t.l1 = [] ∧ t.l2 = [] ∧
    t.regions = [] ∧ t.dclk = 0 ∧ t.chips = List.replicate 4 ⟨0, 0, 0, 0⟩ ∧
    t.floors = List.replicate 144 0xC00000#24 ∧ t.pwrcap = 2500 ∧
    (∀ p, p < 8 → t.part p = { Partition.reset with logDrop := (t.part p).logDrop }) ∧
    t.offFrames = s.offFrames ∧ t.harvest = s.harvest ∧ t.snoops = s.snoops ∧
    t.granules = (s.granules.filter (·.st.isSome)).map (fun x => { x with want := none }) ∧
    (∀ x ∈ s.l2, x.dirty = true → x.pa * 128 < memKey 4 0 → ∀ i, i < 16 →
      ⟨.mem (x.pa * 16 + i), false, 0, 0⟩ ∈ t.bad) ∧
    (s.sigOk = false → t.stage = 1 ∧ t.bootFail = true) ∧
    (s.sigOk = true → t.bootFail = false ∧ (t.stage = if s.ports then 3 else 4) ∧ t.retired = slicesRetired s ∧
      (s.ports = true → t.reqs = []) ∧
      (s.ports = false → t.attCount = s.attCount + 1 ∧ ∀ k, k < 4 → ∃ q ∈ t.reqs,
        q.kind = .report (((report { t with attCount := s.attCount }).drop (128 * k)).take 128) ∧
        q.va = (fld s.attctl 7 57 * 128 + 128 * k) % 2 ^ 47 ∧ .bridgeDeviceWrite q.id ∈ t.agenda))

/-- At power-on boot has not begun (STAGE 0, FAIL 0) and the device reset of R430 is the first step, which
takes it from there (that it is a step of its own is the model's choice, log entry 77); every CC, MTS and
DCLK is 0 and every core floor 0xC00000, L1, L2 and the directory hold nothing and the sweepers stand at set
0, every partition is absent with WDOG 100,000, L2SH 0 and its queues empty, PWRCAP is 2,500, and nothing is
resident. Memory lists nothing, so that it has the canonical form (the model's choice, log entry 4, not the
spec's). (R7, R213, R349, R400, R402, R430, R433) -/
def Obligations.ResetState : Prop :=
  State.reset.stage = 0 ∧ State.reset.bootFail = false ∧ State.reset.agenda = [.deviceReset] ∧
    (step State.reset = exec .deviceReset { State.reset with agenda := [] }) ∧
    (∀ k, k < 4 → State.reset.chip k = ⟨0, 0, 0, 0⟩) ∧ State.reset.dclk = 0 ∧
    (∀ c, c < 144 → State.reset.floor c = 0xC00000#24) ∧ State.reset.l1 = [] ∧ State.reset.l2 = [] ∧
    State.reset.regions = [] ∧ State.reset.pwrcap = 2500 ∧ State.reset.groups = [] ∧ State.reset.launches = [] ∧
    (∀ p, p < 8 → (State.reset.part p).en = false ∧ (State.reset.part p).wdog = 100000 ∧
      (State.reset.part p).l2sh = 0 ∧ (State.reset.part p).faultq = [] ∧
      ∀ q, q < 16 → ((State.reset.part p).queue q).wi = ((State.reset.part p).queue q).ci) ∧
    State.reset.mem.wf = true

/-- For all timestamps a and b, a precedes b exactly when (b − a) mod 2^24 lies in [1, 2^23), and every sum
of a timestamp and a number is taken modulo 2^24; the later of the two is b when a precedes b, and a
otherwise; and a ≤ b when they are equal or a precedes b. (R199) -/
def Obligations.TimestampOrder : Prop :=
  ∀ (a b : TS) (n : Nat), (TS.precedes a b = true ↔ 1 ≤ (b.toNat + 2 ^ 24 - a.toNat) % 2 ^ 24 ∧
      (b.toNat + 2 ^ 24 - a.toNat) % 2 ^ 24 < 2 ^ 23) ∧
    (a + BitVec.ofNat 24 n).toNat = (a.toNat + n) % 2 ^ 24 ∧
    smax a b = (if TS.precedes a b = true then b else a) ∧
    (TS.le a b = true ↔ a = b ∨ TS.precedes a b = true)

/-- From every state whose memory lists its bytes by strictly rising address with no zero entry, a step that
answers a next state leaves the memory in that form, so that equal memories are equal data (the canonical
form is the model's, log entry 4). (R179, R190) -/
def Obligations.MemoryStaysCanonical : Prop :=
  ∀ s t : State, s.mem.wf = true → step s = .next t → t.mem.wf = true

/-- A slice at group start holds FMODE 0. Whatever value is written, bits 63:5 read 0 and bits 4:0 the
value's. A word without an HMOD rounds by RNE, RTZ, RUP or RDN as bits 1:0 are 00, 01, 10 or 11, flushes
inputs when bit 2 is set and outputs when bit 3 is, and saturates when bit 4 is. (R95) -/
def Obligations.FmodeLayout : Prop :=
  (∀ pipe entry beat dead, (Slice.start pipe entry beat dead).fmode = 0) ∧
  (∀ (sl : Slice) v k, (sl.writeCsr 0 v).fmode.getLsbD k = (v.getLsbD k && decide (k < 5))) ∧
  ∀ w : Word, (fmodeOf w none).sat = w.getLsbD 4 ∧ (fmodeOf w none).fluOut = w.getLsbD 3 ∧
    (fmodeOf w none).fluIn = w.getLsbD 2 ∧
    ((fmodeOf w none).rm = .rne ↔ w.extractLsb' 0 2 = 0#2) ∧ ((fmodeOf w none).rm = .rtz ↔ w.extractLsb' 0 2 = 1#2) ∧
    ((fmodeOf w none).rm = .rup ↔ w.extractLsb' 0 2 = 2#2) ∧ ((fmodeOf w none).rm = .rdn ↔ w.extractLsb' 0 2 = 3#2)
end

