-- ==== Sys2Proof/Laws/Lists.lean ====
section
/-!
SUPPORT. The lists by position of Word.lean: lengths and elements.
-/

namespace Sys2Proof

variable {α β γ : Type}

@[simp] theorem imap_length (f : Nat → α → β) (i : Nat) (l : List α) : (imap f i l).length = l.length := by
  induction l generalizing i with
  | nil => rfl
  | cons x xs ih => simp [imap, ih]

theorem imap_getElem? (f : Nat → α → β) (i k : Nat) (l : List α) :
    (imap f i l)[k]? = (l[k]?).map (f (i + k)) := by
  induction l generalizing i k with
  | nil => simp [imap]
  | cons x xs ih =>
    cases k with
    | zero => simp [imap]
    | succ k => simp [imap, ih, Nat.add_comm 1, Nat.add_assoc]

@[simp] theorem imap_zero_getElem? (f : Nat → α → β) (k : Nat) (l : List α) :
    (imap f 0 l)[k]? = (l[k]?).map (f k) := by simp [imap_getElem?]

@[simp] theorem modAt_nil (f : α → α) (i : Nat) : modAt f i [] = [] := by cases i <;> rfl

@[simp] theorem modAt_length (f : α → α) (i : Nat) (l : List α) : (modAt f i l).length = l.length := by
  induction l generalizing i with
  | nil => simp
  | cons x xs ih => cases i <;> simp [modAt, ih]

theorem modAt_getElem? (f : α → α) (i k : Nat) (l : List α) :
    (modAt f i l)[k]? = if k = i then (l[k]?).map f else l[k]? := by
  induction l generalizing i k with
  | nil => simp [modAt]
  | cons x xs ih =>
    cases i with
    | zero => cases k <;> simp [modAt]
    | succ i => cases k <;> simp [modAt, ih]

theorem modAt_of_length_le (f : α → α) (i : Nat) (l : List α) (h : l.length ≤ i) : modAt f i l = l := by
  induction l generalizing i with
  | nil => simp
  | cons x xs ih =>
    cases i with
    | zero => simp at h
    | succ i => simp [modAt, ih i (by simpa using h)]

theorem imap_id (l : List α) (i : Nat) : imap (fun _ x => x) i l = l := by
  induction l generalizing i with
  | nil => rfl
  | cons x xs ih => simp [imap, ih]

theorem imap_imap (f : Nat → α → β) (g : Nat → β → γ) (i : Nat) (l : List α) :
    imap g i (imap f i l) = imap (fun k x => g k (f k x)) i l := by
  induction l generalizing i with
  | nil => rfl
  | cons x xs ih => simp [imap, ih]

theorem at'_eq (d : α) (l : List α) (i : Nat) : at' d l i = (l[i]?).getD d := by
  induction l generalizing i with
  | nil => rfl
  | cons x xs ih => cases i <;> simp [at', ih]

/-- A change at one position is a change by position. -/
theorem modAt_eq_imap (f : α → α) (r : Nat) (l : List α) :
    modAt f r l = imap (fun k v => if k = r then f v else v) 0 l := by
  apply List.ext_getElem?
  intro k
  by_cases h : k = r <;> simp [modAt_getElem?, h]

@[simp] theorem mem_rangeFrom (lo n i : Nat) : i ∈ rangeFrom lo n ↔ lo ≤ i ∧ i < lo + n := by
  induction n generalizing lo with
  | zero => simp [rangeFrom]
  | succ n ih => simp [rangeFrom, ih]; omega

@[simp] theorem rangeFrom_length (lo n : Nat) : (rangeFrom lo n).length = n := by
  induction n generalizing lo with
  | zero => rfl
  | succ n ih => simp [rangeFrom, ih]

end Sys2Proof
end

