-- ==== Sys2Proof/Laws/Elems.lean ====
section
/-!
SUPPORT. Sub-elements of a register (R75): taking them apart, packing them, and what the two-source
operation leaves in each.
-/

namespace Sys2Proof.Machine

theorem fld_eq_extract (x : Word) (lo n : Nat) : fld x lo n = (x.extractLsb' lo n).toNat := by
  simp [fld, BitVec.extractLsb'_toNat]

theorem rangeFrom_getElem? (lo n i : Nat) : (rangeFrom lo n)[i]? = if i < n then some (lo + i) else none := by
  induction n generalizing lo i with
  | zero => simp [rangeFrom]
  | succ n ih => cases i <;> simp [rangeFrom, ih, Nat.add_comm, Nat.add_left_comm]

theorem elems_getElem? (w : Nat) (x : Word) (i : Nat) :
    (elems w x)[i]? = if i < 64 / w then some (x.extractLsb' (i * w) w).toNat else none := by
  simp only [elems, List.getElem?_map, rangeFrom_getElem?]
  split <;> simp [fld_eq_extract]

@[simp] theorem elems_length (w : Nat) (x : Word) : (elems w x).length = 64 / w := by simp [elems]

theorem packElems_getLsbD (w : Nat) (hw : 0 < w) (es : List Nat) (i k : Nat) (hk : k < w) (hi : i * w + k < 64) :
    (packElems w es).getLsbD (i * w + k) = ((es[i]?).getD 0).testBit k := by
  induction es generalizing i with
  | nil => simp [packElems]
  | cons e es ih =>
    rw [packElems, BitVec.getLsbD_or, BitVec.getLsbD_shiftLeft]
    cases i with
    | zero =>
      have h64 : k < 64 := by omega
      simp only [Nat.zero_mul, Nat.zero_add, BitVec.getLsbD_ofNat, Nat.testBit_mod_two_pow, h64, hk]
      simp
    | succ i =>
      have e1 : (i + 1) * w + k = i * w + k + w := by rw [Nat.succ_mul]; omega
      have h0 : ¬ (i * w + k + w < w) := by omega
      have h2 : i * w + k + w < 64 := by omega
      rw [e1]
      simp only [BitVec.getLsbD_ofNat, Nat.testBit_mod_two_pow, h2, h0, Nat.add_sub_cancel, ih i (by omega)]
      simp

/-- Each sub-element of a packed register is the one that was packed, modulo 2^w. -/
theorem packElems_extract (w : Nat) (hw : 0 < w) (es : List Nat) (i : Nat) (hi : (i + 1) * w ≤ 64) :
    (packElems w es).extractLsb' (i * w) w = BitVec.ofNat w ((es[i]?).getD 0) := by
  apply BitVec.eq_of_getLsbD_eq
  intro k hk
  have : i * w + k < 64 := by rw [Nat.succ_mul] at hi; omega
  rw [BitVec.getLsbD_extractLsb', packElems_getLsbD w hw es i k hk this, BitVec.getLsbD_ofNat]

theorem widthOf_pos (W : BitVec 2) : 0 < widthOf W := by exact Nat.mul_pos (by decide) (Nat.two_pow_pos _)

theorem width_fits (W : BitVec 2) (i : Nat) (h : i < 64 / widthOf W) : (i + 1) * widthOf W ≤ 64 := by
  have := Nat.div_mul_le_self 64 (widthOf W)
  exact Nat.le_trans (Nat.mul_le_mul_right _ h) this

theorem zip_elems_getElem? {α : Type} (f : Nat → Nat → α) (w : Nat) (a b : Word) (i : Nat) :
    (List.zipWith f (elems w a) (elems w b))[i]? =
      if i < 64 / w then some (f (a.extractLsb' (i * w) w).toNat (b.extractLsb' (i * w) w).toNat) else none := by
  by_cases h : i < 64 / w <;> simp only [List.getElem?_zipWith, elems_getElem?, h, if_true, if_false]

/-- A sub-element of a two-source result is the rule's value on the operands' sub-elements (R75, R79). -/
theorem zipElems_extract (W : BitVec 2) (r : Rule2) (a b : Word) (i : Nat) (h : i < 64 / widthOf W) :
    (zipElems (widthOf W) r a b).val.extractLsb' (i * widthOf W) (widthOf W) =
      BitVec.ofNat (widthOf W) (r (widthOf W) (a.extractLsb' (i * widthOf W) (widthOf W)).toNat
        (b.extractLsb' (i * widthOf W) (widthOf W)).toNat).1 := by
  rw [zipElems, packElems_extract _ (widthOf_pos W) _ _ (width_fits W i h)]
  simp only [List.getElem?_map, zip_elems_getElem?, h, if_true]
  rfl

theorem zipElems_isat (W : BitVec 2) (r : Rule2) (a b : Word) :
    (zipElems (widthOf W) r a b).isat = true ↔ ∃ i, i < 64 / widthOf W ∧
      (r (widthOf W) (a.extractLsb' (i * widthOf W) (widthOf W)).toNat
        (b.extractLsb' (i * widthOf W) (widthOf W)).toNat).2 = true := by
  simp only [zipElems, List.any_eq_true, List.mem_iff_getElem?]
  constructor
  · rintro ⟨e, ⟨i, hi⟩, he⟩
    rw [zip_elems_getElem?] at hi
    split at hi
    · rename_i h
      exact ⟨i, h, by rw [Option.some.inj hi]; exact he⟩
    · cases hi
  · rintro ⟨i, hi, he⟩
    exact ⟨_, ⟨i, by rw [zip_elems_getElem?, if_pos hi]⟩, he⟩

end Sys2Proof.Machine
end

