-- ==== Sys2Proof/Laws/Encoding.lean ====
section
/-!
SUPPORT. The encoder and the decoder agree, field by field and row by row (R55, R68).
-/

namespace Sys2Proof

/-! ## Fields of a word -/

theorem ext_same (n p : Nat) (x : BitVec n) (h : p + n ≤ 32) :
    (x.setWidth 32 <<< p).extractLsb' p n = x := by
  apply BitVec.eq_of_getLsbD_eq
  intro i hi
  rw [BitVec.getLsbD_extractLsb', BitVec.getLsbD_shiftLeft, BitVec.getLsbD_setWidth]
  simp [hi, show p + i < 32 by omega, show i < 32 by omega]

theorem ext_diff (n p m q : Nat) (x : BitVec n) (h : q + m ≤ p ∨ p + n ≤ q) :
    (x.setWidth 32 <<< p).extractLsb' q m = 0#m := by
  apply BitVec.eq_of_getLsbD_eq
  intro i hi
  rw [BitVec.getLsbD_extractLsb', BitVec.getLsbD_shiftLeft, BitVec.getLsbD_setWidth]
  rcases h with h | h
  · simp [show q + i < p by omega]
  · simp [BitVec.getLsbD_of_ge x (q + i - p) (by omega)]

theorem ext_same0 (n : Nat) (x : BitVec n) (h : n ≤ 32) : (x.setWidth 32).extractLsb' 0 n = x := by
  have := ext_same n 0 x (by omega)
  simpa using this

theorem ext_diff0 (n m q : Nat) (x : BitVec n) (h : n ≤ q) : (x.setWidth 32).extractLsb' q m = 0#m := by
  have := ext_diff n 0 m q x (Or.inr (by omega))
  simpa using this

theorem and_field (n p : Nat) (x : BitVec n) (C : BitVec 32)
    (h : ∀ k, k < n → C.getLsbD (p + k) = false) : (x.setWidth 32 <<< p) &&& C = 0#32 := by
  apply BitVec.eq_of_getLsbD_eq
  intro i hi
  rw [BitVec.getLsbD_and, BitVec.getLsbD_shiftLeft, BitVec.getLsbD_setWidth]
  by_cases h1 : i < p
  · simp [h1]
  · by_cases h2 : i - p < n
    · have := h (i - p) h2
      rw [show p + (i - p) = i by omega] at this
      simp [this]
    · simp [BitVec.getLsbD_of_ge x (i - p) (by omega)]

theorem and_field0 (n : Nat) (x : BitVec n) (C : BitVec 32)
    (h : ∀ k, k < n → C.getLsbD k = false) : x.setWidth 32 &&& C = 0#32 := by
  have := and_field n 0 x C (by simpa using h)
  simpa using this

theorem or_and_zero {a b C : BitVec 32} (ha : a &&& C = 0#32) (hb : b &&& C = 0#32) : (a ||| b) &&& C = 0#32 := by
  rw [BitVec.and_comm, BitVec.and_or_distrib_left, BitVec.and_comm C a, BitVec.and_comm C b, ha, hb]; rfl

/-! ## Picking the row -/

/-- The row that a word takes whose bits under `C` are `p`: rows that these bits rule out are skipped, and the
first that they do not rule out must look at no other bits. -/
def pick (C p : BitVec 32) : List Row → Option Row
  | [] => none
  | r :: rs =>
    if p &&& r.mask = r.pat &&& C then (if r.mask &&& C = r.mask ∧ p &&& r.mask = r.pat then some r else none)
    else pick C p rs

theorem skip_row {w C p m q : BitVec 32} (hw : w &&& C = p) (h : ¬ p &&& m = q &&& C) :
    (w &&& m == q) = false := by
  simp only [beq_eq_false_iff_ne]
  intro he
  apply h
  rw [← hw, ← he, BitVec.and_assoc, BitVec.and_assoc, BitVec.and_comm C]

theorem findRow_of_pick {w C p : BitVec 32} (hw : w &&& C = p) :
    ∀ (rows : List Row) (r : Row), pick C p rows = some r → findRow w rows = some r := by
  intro rows
  induction rows with
  | nil => intro r h; simp [pick] at h
  | cons a rs ih =>
    intro r h
    rw [pick] at h
    split at h
    · split at h
      · rename_i hm
        have hwm : w &&& a.mask = a.pat := by
          rw [← hm.2, ← hw, BitVec.and_assoc, BitVec.and_comm C, hm.1]
        rw [findRow, hwm]
        simpa using h
      · cases h
    · rename_i hn
      rw [findRow, skip_row hw hn]
      simpa using ih r h

theorem primary_of {w C p : BitVec 32} (hw : w &&& C = p) (hC : C.extractLsb' 26 6 = 63#6) :
    w.extractLsb' 26 6 = p.extractLsb' 26 6 := by
  rw [← hw, BitVec.extractLsb'_and, hC]
  exact (BitVec.and_allOnes).symm

theorem OpHsched.ofWord_or (p : BitVec 32) (o : OpHsched) (h : OpHsched.ofWord p = ⟨0#1, 0#1⟩) :
    OpHsched.ofWord (p ||| o.toWord) = o := by
  cases o
  simp only [OpHsched.ofWord, OpHsched.mk.injEq] at h
  obtain ⟨h0, h1⟩ := h
  simp (disch := decide) only [OpHsched.ofWord, OpHsched.toWord, BitVec.extractLsb'_or, h0, h1,
    ext_same, ext_diff, ext_same0, ext_diff0, BitVec.zero_or, BitVec.or_zero]

theorem OpHsched.toWord_and (o : OpHsched) : o.toWord &&& 0xFFFFFFFC#32 = 0#32 := by
  cases o
  exact or_and_zero (and_field _ _ _ _ (by decide)) (and_field0 _ _ _ (by decide))

theorem OpHimm.ofWord_or (p : BitVec 32) (o : OpHimm) (h : OpHimm.ofWord p = ⟨0#2, 0#24⟩) :
    OpHimm.ofWord (p ||| o.toWord) = o := by
  cases o
  simp only [OpHimm.ofWord, OpHimm.mk.injEq] at h
  obtain ⟨h0, h1⟩ := h
  simp (disch := decide) only [OpHimm.ofWord, OpHimm.toWord, BitVec.extractLsb'_or, h0, h1,
    ext_same, ext_diff, ext_same0, ext_diff0, BitVec.zero_or, BitVec.or_zero]

theorem OpHimm.toWord_and (o : OpHimm) : o.toWord &&& 0xFC000000#32 = 0#32 := by
  cases o
  exact or_and_zero (and_field _ _ _ _ (by decide)) (and_field0 _ _ _ (by decide))

theorem OpHdst.ofWord_or (p : BitVec 32) (o : OpHdst) (h : OpHdst.ofWord p = ⟨0#5⟩) :
    OpHdst.ofWord (p ||| o.toWord) = o := by
  cases o
  simp only [OpHdst.ofWord, OpHdst.mk.injEq] at h
  simp (disch := decide) only [OpHdst.ofWord, OpHdst.toWord, BitVec.extractLsb'_or, h,
    ext_same0, BitVec.zero_or]

theorem OpHdst.toWord_and (o : OpHdst) : o.toWord &&& 0xFFFFFFE0#32 = 0#32 := by
  cases o
  exact and_field0 _ _ _ (by decide)

theorem OpHmod.ofWord_or (p : BitVec 32) (o : OpHmod) (h : OpHmod.ofWord p = ⟨0#3, 0#1, 0#3, 0#1, 0#3⟩) :
    OpHmod.ofWord (p ||| o.toWord) = o := by
  cases o
  simp only [OpHmod.ofWord, OpHmod.mk.injEq] at h
  obtain ⟨h0, h1, h2, h3, h4⟩ := h
  simp (disch := decide) only [OpHmod.ofWord, OpHmod.toWord, BitVec.extractLsb'_or, h0, h1, h2, h3, h4,
    ext_same, ext_diff, ext_same0, ext_diff0, BitVec.zero_or, BitVec.or_zero]

theorem OpHmod.toWord_and (o : OpHmod) : o.toWord &&& 0xFFFFF010#32 = 0#32 := by
  cases o
  exact or_and_zero (or_and_zero (or_and_zero (or_and_zero (and_field _ _ _ _ (by decide)) (and_field _ _ _ _ (by decide))) (and_field _ _ _ _ (by decide))) (and_field _ _ _ _ (by decide))) (and_field0 _ _ _ (by decide))

theorem OpAB.ofWord_or (p : BitVec 32) (o : OpAB) (h : OpAB.ofWord p = ⟨0#2, 0#2, 0#5, 0#7, 0#7⟩) :
    OpAB.ofWord (p ||| o.toWord) = o := by
  cases o
  simp only [OpAB.ofWord, OpAB.mk.injEq] at h
  obtain ⟨h0, h1, h2, h3, h4⟩ := h
  simp (disch := decide) only [OpAB.ofWord, OpAB.toWord, BitVec.extractLsb'_or, h0, h1, h2, h3, h4,
    ext_same, ext_diff, ext_same0, ext_diff0, BitVec.zero_or, BitVec.or_zero]

theorem OpAB.toWord_and (o : OpAB) : o.toWord &&& 0xFCE00000#32 = 0#32 := by
  cases o
  exact or_and_zero (or_and_zero (or_and_zero (or_and_zero (and_field _ _ _ _ (by decide)) (and_field _ _ _ _ (by decide))) (and_field _ _ _ _ (by decide))) (and_field _ _ _ _ (by decide))) (and_field0 _ _ _ (by decide))

theorem OpA.ofWord_or (p : BitVec 32) (o : OpA) (h : OpA.ofWord p = ⟨0#2, 0#2, 0#5, 0#7⟩) :
    OpA.ofWord (p ||| o.toWord) = o := by
  cases o
  simp only [OpA.ofWord, OpA.mk.injEq] at h
  obtain ⟨h0, h1, h2, h3⟩ := h
  simp (disch := decide) only [OpA.ofWord, OpA.toWord, BitVec.extractLsb'_or, h0, h1, h2, h3,
    ext_same, ext_diff, BitVec.zero_or, BitVec.or_zero]

theorem OpA.toWord_and (o : OpA) : o.toWord &&& 0xFCE0007F#32 = 0#32 := by
  cases o
  exact or_and_zero (or_and_zero (or_and_zero (and_field _ _ _ _ (by decide)) (and_field _ _ _ _ (by decide))) (and_field _ _ _ _ (by decide))) (and_field _ _ _ _ (by decide))

theorem OpABC.ofWord_or (p : BitVec 32) (o : OpABC) (h : OpABC.ofWord p = ⟨0#2, 0#7, 0#7, 0#7⟩) :
    OpABC.ofWord (p ||| o.toWord) = o := by
  cases o
  simp only [OpABC.ofWord, OpABC.mk.injEq] at h
  obtain ⟨h0, h1, h2, h3⟩ := h
  simp (disch := decide) only [OpABC.ofWord, OpABC.toWord, BitVec.extractLsb'_or, h0, h1, h2, h3,
    ext_same, ext_diff, ext_same0, ext_diff0, BitVec.zero_or, BitVec.or_zero]

theorem OpABC.toWord_and (o : OpABC) : o.toWord &&& 0xFCE00000#32 = 0#32 := by
  cases o
  exact or_and_zero (or_and_zero (or_and_zero (and_field _ _ _ _ (by decide)) (and_field _ _ _ _ (by decide))) (and_field _ _ _ _ (by decide))) (and_field0 _ _ _ (by decide))

theorem OpCmp.ofWord_or (p : BitVec 32) (o : OpCmp) (h : OpCmp.ofWord p = ⟨0#2, 0#7, 0#7, 0#7⟩) :
    OpCmp.ofWord (p ||| o.toWord) = o := by
  cases o
  simp only [OpCmp.ofWord, OpCmp.mk.injEq] at h
  obtain ⟨h0, h1, h2, h3⟩ := h
  simp (disch := decide) only [OpCmp.ofWord, OpCmp.toWord, BitVec.extractLsb'_or, h0, h1, h2, h3,
    ext_same, ext_diff, ext_same0, ext_diff0, BitVec.zero_or, BitVec.or_zero]

theorem OpCmp.toWord_and (o : OpCmp) : o.toWord &&& 0xFF800000#32 = 0#32 := by
  cases o
  exact or_and_zero (or_and_zero (or_and_zero (and_field _ _ _ _ (by decide)) (and_field _ _ _ _ (by decide))) (and_field _ _ _ _ (by decide))) (and_field0 _ _ _ (by decide))

theorem OpFma.ofWord_or (p : BitVec 32) (o : OpFma) (h : OpFma.ofWord p = ⟨0#2, 0#1, 0#7, 0#7, 0#7⟩) :
    OpFma.ofWord (p ||| o.toWord) = o := by
  cases o
  simp only [OpFma.ofWord, OpFma.mk.injEq] at h
  obtain ⟨h0, h1, h2, h3, h4⟩ := h
  simp (disch := decide) only [OpFma.ofWord, OpFma.toWord, BitVec.extractLsb'_or, h0, h1, h2, h3, h4,
    ext_same, ext_diff, ext_same0, ext_diff0, BitVec.zero_or, BitVec.or_zero]

theorem OpFma.toWord_and (o : OpFma) : o.toWord &&& 0xFC600000#32 = 0#32 := by
  cases o
  exact or_and_zero (or_and_zero (or_and_zero (or_and_zero (and_field _ _ _ _ (by decide)) (and_field _ _ _ _ (by decide))) (and_field _ _ _ _ (by decide))) (and_field _ _ _ _ (by decide))) (and_field0 _ _ _ (by decide))

theorem OpNarrow.ofWord_or (p : BitVec 32) (o : OpNarrow) (h : OpNarrow.ofWord p = ⟨0#2, 0#2, 0#5, 0#7, 0#4⟩) :
    OpNarrow.ofWord (p ||| o.toWord) = o := by
  cases o
  simp only [OpNarrow.ofWord, OpNarrow.mk.injEq] at h
  obtain ⟨h0, h1, h2, h3, h4⟩ := h
  simp (disch := decide) only [OpNarrow.ofWord, OpNarrow.toWord, BitVec.extractLsb'_or, h0, h1, h2, h3, h4,
    ext_same, ext_diff, ext_same0, ext_diff0, BitVec.zero_or, BitVec.or_zero]

theorem OpNarrow.toWord_and (o : OpNarrow) : o.toWord &&& 0xFCE00070#32 = 0#32 := by
  cases o
  exact or_and_zero (or_and_zero (or_and_zero (or_and_zero (and_field _ _ _ _ (by decide)) (and_field _ _ _ _ (by decide))) (and_field _ _ _ _ (by decide))) (and_field _ _ _ _ (by decide))) (and_field0 _ _ _ (by decide))

theorem OpCordic.ofWord_or (p : BitVec 32) (o : OpCordic) (h : OpCordic.ofWord p = ⟨0#5, 0#2, 0#5, 0#7⟩) :
    OpCordic.ofWord (p ||| o.toWord) = o := by
  cases o
  simp only [OpCordic.ofWord, OpCordic.mk.injEq] at h
  obtain ⟨h0, h1, h2, h3⟩ := h
  simp (disch := decide) only [OpCordic.ofWord, OpCordic.toWord, BitVec.extractLsb'_or, h0, h1, h2, h3,
    ext_same, ext_diff, BitVec.zero_or, BitVec.or_zero]

theorem OpCordic.toWord_and (o : OpCordic) : o.toWord &&& 0xFFC00007#32 = 0#32 := by
  cases o
  exact or_and_zero (or_and_zero (or_and_zero (and_field _ _ _ _ (by decide)) (and_field _ _ _ _ (by decide))) (and_field _ _ _ _ (by decide))) (and_field _ _ _ _ (by decide))

theorem OpRedU.ofWord_or (p : BitVec 32) (o : OpRedU) (h : OpRedU.ofWord p = ⟨0#2, 0#2, 0#5, 0#7, 0#1⟩) :
    OpRedU.ofWord (p ||| o.toWord) = o := by
  cases o
  simp only [OpRedU.ofWord, OpRedU.mk.injEq] at h
  obtain ⟨h0, h1, h2, h3, h4⟩ := h
  simp (disch := decide) only [OpRedU.ofWord, OpRedU.toWord, BitVec.extractLsb'_or, h0, h1, h2, h3, h4,
    ext_same, ext_diff, ext_same0, ext_diff0, BitVec.zero_or, BitVec.or_zero]

theorem OpRedU.toWord_and (o : OpRedU) : o.toWord &&& 0xFCE0007E#32 = 0#32 := by
  cases o
  exact or_and_zero (or_and_zero (or_and_zero (or_and_zero (and_field _ _ _ _ (by decide)) (and_field _ _ _ _ (by decide))) (and_field _ _ _ _ (by decide))) (and_field _ _ _ _ (by decide))) (and_field0 _ _ _ (by decide))

theorem OpRedX.ofWord_or (p : BitVec 32) (o : OpRedX) (h : OpRedX.ofWord p = ⟨0#2, 0#2, 0#5, 0#7, 0#1⟩) :
    OpRedX.ofWord (p ||| o.toWord) = o := by
  cases o
  simp only [OpRedX.ofWord, OpRedX.mk.injEq] at h
  obtain ⟨h0, h1, h2, h3, h4⟩ := h
  simp (disch := decide) only [OpRedX.ofWord, OpRedX.toWord, BitVec.extractLsb'_or, h0, h1, h2, h3, h4,
    ext_same, ext_diff, BitVec.zero_or, BitVec.or_zero]

theorem OpRedX.toWord_and (o : OpRedX) : o.toWord &&& 0xFCE0007D#32 = 0#32 := by
  cases o
  exact or_and_zero (or_and_zero (or_and_zero (or_and_zero (and_field _ _ _ _ (by decide)) (and_field _ _ _ _ (by decide))) (and_field _ _ _ _ (by decide))) (and_field _ _ _ _ (by decide))) (and_field _ _ _ _ (by decide))

theorem OpPred2.ofWord_or (p : BitVec 32) (o : OpPred2) (h : OpPred2.ofWord p = ⟨0#7, 0#7, 0#7⟩) :
    OpPred2.ofWord (p ||| o.toWord) = o := by
  cases o
  simp only [OpPred2.ofWord, OpPred2.mk.injEq] at h
  obtain ⟨h0, h1, h2⟩ := h
  simp (disch := decide) only [OpPred2.ofWord, OpPred2.toWord, BitVec.extractLsb'_or, h0, h1, h2,
    ext_same, ext_diff, ext_same0, ext_diff0, BitVec.zero_or, BitVec.or_zero]

theorem OpPred2.toWord_and (o : OpPred2) : o.toWord &&& 0xFFE00000#32 = 0#32 := by
  cases o
  exact or_and_zero (or_and_zero (and_field _ _ _ _ (by decide)) (and_field _ _ _ _ (by decide))) (and_field0 _ _ _ (by decide))

theorem OpPred1.ofWord_or (p : BitVec 32) (o : OpPred1) (h : OpPred1.ofWord p = ⟨0#7, 0#7⟩) :
    OpPred1.ofWord (p ||| o.toWord) = o := by
  cases o
  simp only [OpPred1.ofWord, OpPred1.mk.injEq] at h
  obtain ⟨h0, h1⟩ := h
  simp (disch := decide) only [OpPred1.ofWord, OpPred1.toWord, BitVec.extractLsb'_or, h0, h1,
    ext_same, ext_diff, BitVec.zero_or, BitVec.or_zero]

theorem OpPred1.toWord_and (o : OpPred1) : o.toWord &&& 0xFFE0007F#32 = 0#32 := by
  cases o
  exact or_and_zero (and_field _ _ _ _ (by decide)) (and_field _ _ _ _ (by decide))

theorem OpGuard.ofWord_or (p : BitVec 32) (o : OpGuard) (h : OpGuard.ofWord p = ⟨0#7⟩) :
    OpGuard.ofWord (p ||| o.toWord) = o := by
  cases o
  simp only [OpGuard.ofWord, OpGuard.mk.injEq] at h
  simp (disch := decide) only [OpGuard.ofWord, OpGuard.toWord, BitVec.extractLsb'_or, h,
    ext_same, BitVec.zero_or]

theorem OpGuard.toWord_and (o : OpGuard) : o.toWord &&& 0xFFFFC07F#32 = 0#32 := by
  cases o
  exact and_field _ _ _ _ (by decide)

theorem OpPx1.ofWord_or (p : BitVec 32) (o : OpPx1) (h : OpPx1.ofWord p = ⟨0#2, 0#7⟩) :
    OpPx1.ofWord (p ||| o.toWord) = o := by
  cases o
  simp only [OpPx1.ofWord, OpPx1.mk.injEq] at h
  obtain ⟨h0, h1⟩ := h
  simp (disch := decide) only [OpPx1.ofWord, OpPx1.toWord, BitVec.extractLsb'_or, h0, h1,
    ext_same, ext_diff, BitVec.zero_or, BitVec.or_zero]

theorem OpPx1.toWord_and (o : OpPx1) : o.toWord &&& 0xFCE03FFF#32 = 0#32 := by
  cases o
  exact or_and_zero (and_field _ _ _ _ (by decide)) (and_field _ _ _ _ (by decide))

theorem OpPset.ofWord_or (p : BitVec 32) (o : OpPset) (h : OpPset.ofWord p = ⟨0#2, 0#7, 0#7, 0#7⟩) :
    OpPset.ofWord (p ||| o.toWord) = o := by
  cases o
  simp only [OpPset.ofWord, OpPset.mk.injEq] at h
  obtain ⟨h0, h1, h2, h3⟩ := h
  simp (disch := decide) only [OpPset.ofWord, OpPset.toWord, BitVec.extractLsb'_or, h0, h1, h2, h3,
    ext_same, ext_diff, ext_same0, ext_diff0, BitVec.zero_or, BitVec.or_zero]

theorem OpPset.toWord_and (o : OpPset) : o.toWord &&& 0xFCE00000#32 = 0#32 := by
  cases o
  exact or_and_zero (or_and_zero (or_and_zero (and_field _ _ _ _ (by decide)) (and_field _ _ _ _ (by decide))) (and_field _ _ _ _ (by decide))) (and_field0 _ _ _ (by decide))

theorem OpSel.ofWord_or (p : BitVec 32) (o : OpSel) (h : OpSel.ofWord p = ⟨0#2, 0#1, 0#7, 0#7, 0#7⟩) :
    OpSel.ofWord (p ||| o.toWord) = o := by
  cases o
  simp only [OpSel.ofWord, OpSel.mk.injEq] at h
  obtain ⟨h0, h1, h2, h3, h4⟩ := h
  simp (disch := decide) only [OpSel.ofWord, OpSel.toWord, BitVec.extractLsb'_or, h0, h1, h2, h3, h4,
    ext_same, ext_diff, ext_same0, ext_diff0, BitVec.zero_or, BitVec.or_zero]

theorem OpSel.toWord_and (o : OpSel) : o.toWord &&& 0xFC00C000#32 = 0#32 := by
  cases o
  exact or_and_zero (or_and_zero (or_and_zero (or_and_zero (and_field _ _ _ _ (by decide)) (and_field _ _ _ _ (by decide))) (and_field _ _ _ _ (by decide))) (and_field _ _ _ _ (by decide))) (and_field0 _ _ _ (by decide))

theorem OpMom2.ofWord_or (p : BitVec 32) (o : OpMom2) (h : OpMom2.ofWord p = ⟨0#2, 0#4, 0#4, 0#4⟩) :
    OpMom2.ofWord (p ||| o.toWord) = o := by
  cases o
  simp only [OpMom2.ofWord, OpMom2.mk.injEq] at h
  obtain ⟨h0, h1, h2, h3⟩ := h
  simp (disch := decide) only [OpMom2.ofWord, OpMom2.toWord, BitVec.extractLsb'_or, h0, h1, h2, h3,
    ext_same, ext_diff, BitVec.zero_or, BitVec.or_zero]

theorem OpMom2.toWord_and (o : OpMom2) : o.toWord &&& 0xFCE001FF#32 = 0#32 := by
  cases o
  exact or_and_zero (or_and_zero (or_and_zero (and_field _ _ _ _ (by decide)) (and_field _ _ _ _ (by decide))) (and_field _ _ _ _ (by decide))) (and_field _ _ _ _ (by decide))

theorem OpMomX.ofWord_or (p : BitVec 32) (o : OpMomX) (h : OpMomX.ofWord p = ⟨0#2, 0#4, 0#4, 0#7⟩) :
    OpMomX.ofWord (p ||| o.toWord) = o := by
  cases o
  simp only [OpMomX.ofWord, OpMomX.mk.injEq] at h
  obtain ⟨h0, h1, h2, h3⟩ := h
  simp (disch := decide) only [OpMomX.ofWord, OpMomX.toWord, BitVec.extractLsb'_or, h0, h1, h2, h3,
    ext_same, ext_diff, BitVec.zero_or, BitVec.or_zero]

theorem OpMomX.toWord_and (o : OpMomX) : o.toWord &&& 0xFCE01E03#32 = 0#32 := by
  cases o
  exact or_and_zero (or_and_zero (or_and_zero (and_field _ _ _ _ (by decide)) (and_field _ _ _ _ (by decide))) (and_field _ _ _ _ (by decide))) (and_field _ _ _ _ (by decide))

theorem OpMom1.ofWord_or (p : BitVec 32) (o : OpMom1) (h : OpMom1.ofWord p = ⟨0#2, 0#4, 0#4⟩) :
    OpMom1.ofWord (p ||| o.toWord) = o := by
  cases o
  simp only [OpMom1.ofWord, OpMom1.mk.injEq] at h
  obtain ⟨h0, h1, h2⟩ := h
  simp (disch := decide) only [OpMom1.ofWord, OpMom1.toWord, BitVec.extractLsb'_or, h0, h1, h2,
    ext_same, ext_diff, BitVec.zero_or, BitVec.or_zero]

theorem OpMom1.toWord_and (o : OpMom1) : o.toWord &&& 0xFCE01FFF#32 = 0#32 := by
  cases o
  exact or_and_zero (or_and_zero (and_field _ _ _ _ (by decide)) (and_field _ _ _ _ (by decide))) (and_field _ _ _ _ (by decide))

theorem OpMmake.ofWord_or (p : BitVec 32) (o : OpMmake) (h : OpMmake.ofWord p = ⟨0#2, 0#4, 0#7⟩) :
    OpMmake.ofWord (p ||| o.toWord) = o := by
  cases o
  simp only [OpMmake.ofWord, OpMmake.mk.injEq] at h
  obtain ⟨h0, h1, h2⟩ := h
  simp (disch := decide) only [OpMmake.ofWord, OpMmake.toWord, BitVec.extractLsb'_or, h0, h1, h2,
    ext_same, ext_diff, BitVec.zero_or, BitVec.or_zero]

theorem OpMmake.toWord_and (o : OpMmake) : o.toWord &&& 0xFCE1FE03#32 = 0#32 := by
  cases o
  exact or_and_zero (or_and_zero (and_field _ _ _ _ (by decide)) (and_field _ _ _ _ (by decide))) (and_field _ _ _ _ (by decide))

theorem OpMcol.ofWord_or (p : BitVec 32) (o : OpMcol) (h : OpMcol.ofWord p = ⟨0#2, 0#4⟩) :
    OpMcol.ofWord (p ||| o.toWord) = o := by
  cases o
  simp only [OpMcol.ofWord, OpMcol.mk.injEq] at h
  obtain ⟨h0, h1⟩ := h
  simp (disch := decide) only [OpMcol.ofWord, OpMcol.toWord, BitVec.extractLsb'_or, h0, h1,
    ext_same, ext_diff, BitVec.zero_or, BitVec.or_zero]

theorem OpMcol.toWord_and (o : OpMcol) : o.toWord &&& 0xFCFE1FFF#32 = 0#32 := by
  cases o
  exact or_and_zero (and_field _ _ _ _ (by decide)) (and_field _ _ _ _ (by decide))

theorem OpMcolX.ofWord_or (p : BitVec 32) (o : OpMcolX) (h : OpMcolX.ofWord p = ⟨0#2, 0#4, 0#7⟩) :
    OpMcolX.ofWord (p ||| o.toWord) = o := by
  cases o
  simp only [OpMcolX.ofWord, OpMcolX.mk.injEq] at h
  obtain ⟨h0, h1, h2⟩ := h
  simp (disch := decide) only [OpMcolX.ofWord, OpMcolX.toWord, BitVec.extractLsb'_or, h0, h1, h2,
    ext_same, ext_diff, BitVec.zero_or, BitVec.or_zero]

theorem OpMcolX.toWord_and (o : OpMcolX) : o.toWord &&& 0xFCFE1E03#32 = 0#32 := by
  cases o
  exact or_and_zero (or_and_zero (and_field _ _ _ _ (by decide)) (and_field _ _ _ _ (by decide))) (and_field _ _ _ _ (by decide))

theorem OpLB.ofWord_or (p : BitVec 32) (o : OpLB) (h : OpLB.ofWord p = ⟨0#2, 0#2, 0#5, 0#7, 0#10⟩) :
    OpLB.ofWord (p ||| o.toWord) = o := by
  cases o
  simp only [OpLB.ofWord, OpLB.mk.injEq] at h
  obtain ⟨h0, h1, h2, h3, h4⟩ := h
  simp (disch := decide) only [OpLB.ofWord, OpLB.toWord, BitVec.extractLsb'_or, h0, h1, h2, h3, h4,
    ext_same, ext_diff, ext_same0, ext_diff0, BitVec.zero_or, BitVec.or_zero]

theorem OpLB.toWord_and (o : OpLB) : o.toWord &&& 0xFC000000#32 = 0#32 := by
  cases o
  exact or_and_zero (or_and_zero (or_and_zero (or_and_zero (and_field _ _ _ _ (by decide)) (and_field _ _ _ _ (by decide))) (and_field _ _ _ _ (by decide))) (and_field _ _ _ _ (by decide))) (and_field0 _ _ _ (by decide))

theorem OpLX.ofWord_or (p : BitVec 32) (o : OpLX) (h : OpLX.ofWord p = ⟨0#2, 0#2, 0#5, 0#7, 0#7, 0#3⟩) :
    OpLX.ofWord (p ||| o.toWord) = o := by
  cases o
  simp only [OpLX.ofWord, OpLX.mk.injEq] at h
  obtain ⟨h0, h1, h2, h3, h4, h5⟩ := h
  simp (disch := decide) only [OpLX.ofWord, OpLX.toWord, BitVec.extractLsb'_or, h0, h1, h2, h3, h4, h5,
    ext_same, ext_diff, ext_same0, ext_diff0, BitVec.zero_or, BitVec.or_zero]

theorem OpLX.toWord_and (o : OpLX) : o.toWord &&& 0xFC000000#32 = 0#32 := by
  cases o
  exact or_and_zero (or_and_zero (or_and_zero (or_and_zero (or_and_zero (and_field _ _ _ _ (by decide)) (and_field _ _ _ _ (by decide))) (and_field _ _ _ _ (by decide))) (and_field _ _ _ _ (by decide))) (and_field _ _ _ _ (by decide))) (and_field0 _ _ _ (by decide))

theorem OpSB.ofWord_or (p : BitVec 32) (o : OpSB) (h : OpSB.ofWord p = ⟨0#2, 0#2, 0#7, 0#7, 0#8⟩) :
    OpSB.ofWord (p ||| o.toWord) = o := by
  cases o
  simp only [OpSB.ofWord, OpSB.mk.injEq] at h
  obtain ⟨h0, h1, h2, h3, h4⟩ := h
  simp (disch := decide) only [OpSB.ofWord, OpSB.toWord, BitVec.extractLsb'_or, h0, h1, h2, h3, h4,
    ext_same, ext_diff, ext_same0, ext_diff0, BitVec.zero_or, BitVec.or_zero]

theorem OpSB.toWord_and (o : OpSB) : o.toWord &&& 0xFC000000#32 = 0#32 := by
  cases o
  exact or_and_zero (or_and_zero (or_and_zero (or_and_zero (and_field _ _ _ _ (by decide)) (and_field _ _ _ _ (by decide))) (and_field _ _ _ _ (by decide))) (and_field _ _ _ _ (by decide))) (and_field0 _ _ _ (by decide))

theorem OpSX.ofWord_or (p : BitVec 32) (o : OpSX) (h : OpSX.ofWord p = ⟨0#2, 0#2, 0#7, 0#6, 0#7, 0#2⟩) :
    OpSX.ofWord (p ||| o.toWord) = o := by
  cases o
  simp only [OpSX.ofWord, OpSX.mk.injEq] at h
  obtain ⟨h0, h1, h2, h3, h4, h5⟩ := h
  simp (disch := decide) only [OpSX.ofWord, OpSX.toWord, BitVec.extractLsb'_or, h0, h1, h2, h3, h4, h5,
    ext_same, ext_diff, ext_same0, ext_diff0, BitVec.zero_or, BitVec.or_zero]

theorem OpSX.toWord_and (o : OpSX) : o.toWord &&& 0xFC000000#32 = 0#32 := by
  cases o
  exact or_and_zero (or_and_zero (or_and_zero (or_and_zero (or_and_zero (and_field _ _ _ _ (by decide)) (and_field _ _ _ _ (by decide))) (and_field _ _ _ _ (by decide))) (and_field _ _ _ _ (by decide))) (and_field _ _ _ _ (by decide))) (and_field0 _ _ _ (by decide))

theorem OpLdo.ofWord_or (p : BitVec 32) (o : OpLdo) (h : OpLdo.ofWord p = ⟨0#2, 0#1, 0#5, 0#7, 0#3, 0#7⟩) :
    OpLdo.ofWord (p ||| o.toWord) = o := by
  cases o
  simp only [OpLdo.ofWord, OpLdo.mk.injEq] at h
  obtain ⟨h0, h1, h2, h3, h4, h5⟩ := h
  simp (disch := decide) only [OpLdo.ofWord, OpLdo.toWord, BitVec.extractLsb'_or, h0, h1, h2, h3, h4, h5,
    ext_same, ext_diff, ext_same0, ext_diff0, BitVec.zero_or, BitVec.or_zero]

theorem OpLdo.toWord_and (o : OpLdo) : o.toWord &&& 0xFC800000#32 = 0#32 := by
  cases o
  exact or_and_zero (or_and_zero (or_and_zero (or_and_zero (or_and_zero (and_field _ _ _ _ (by decide)) (and_field _ _ _ _ (by decide))) (and_field _ _ _ _ (by decide))) (and_field _ _ _ _ (by decide))) (and_field _ _ _ _ (by decide))) (and_field0 _ _ _ (by decide))

theorem OpSto.ofWord_or (p : BitVec 32) (o : OpSto) (h : OpSto.ofWord p = ⟨0#2, 0#1, 0#7, 0#7, 0#3, 0#5⟩) :
    OpSto.ofWord (p ||| o.toWord) = o := by
  cases o
  simp only [OpSto.ofWord, OpSto.mk.injEq] at h
  obtain ⟨h0, h1, h2, h3, h4, h5⟩ := h
  simp (disch := decide) only [OpSto.ofWord, OpSto.toWord, BitVec.extractLsb'_or, h0, h1, h2, h3, h4, h5,
    ext_same, ext_diff, ext_same0, ext_diff0, BitVec.zero_or, BitVec.or_zero]

theorem OpSto.toWord_and (o : OpSto) : o.toWord &&& 0xFC800000#32 = 0#32 := by
  cases o
  exact or_and_zero (or_and_zero (or_and_zero (or_and_zero (or_and_zero (and_field _ _ _ _ (by decide)) (and_field _ _ _ _ (by decide))) (and_field _ _ _ _ (by decide))) (and_field _ _ _ _ (by decide))) (and_field _ _ _ _ (by decide))) (and_field0 _ _ _ (by decide))

theorem OpAT.ofWord_or (p : BitVec 32) (o : OpAT) (h : OpAT.ofWord p = ⟨0#2, 0#1, 0#7, 0#7, 0#3⟩) :
    OpAT.ofWord (p ||| o.toWord) = o := by
  cases o
  simp only [OpAT.ofWord, OpAT.mk.injEq] at h
  obtain ⟨h0, h1, h2, h3, h4⟩ := h
  simp (disch := decide) only [OpAT.ofWord, OpAT.toWord, BitVec.extractLsb'_or, h0, h1, h2, h3, h4,
    ext_same, ext_diff, BitVec.zero_or, BitVec.or_zero]

theorem OpAT.toWord_and (o : OpAT) : o.toWord &&& 0xFCF80001#32 = 0#32 := by
  cases o
  exact or_and_zero (or_and_zero (or_and_zero (or_and_zero (and_field _ _ _ _ (by decide)) (and_field _ _ _ _ (by decide))) (and_field _ _ _ _ (by decide))) (and_field _ _ _ _ (by decide))) (and_field _ _ _ _ (by decide))

theorem OpRed.ofWord_or (p : BitVec 32) (o : OpRed) (h : OpRed.ofWord p = ⟨0#2, 0#7, 0#7, 0#3⟩) :
    OpRed.ofWord (p ||| o.toWord) = o := by
  cases o
  simp only [OpRed.ofWord, OpRed.mk.injEq] at h
  obtain ⟨h0, h1, h2, h3⟩ := h
  simp (disch := decide) only [OpRed.ofWord, OpRed.toWord, BitVec.extractLsb'_or, h0, h1, h2, h3,
    ext_same, ext_diff, BitVec.zero_or, BitVec.or_zero]

theorem OpRed.toWord_and (o : OpRed) : o.toWord &&& 0xFCFC0001#32 = 0#32 := by
  cases o
  exact or_and_zero (or_and_zero (or_and_zero (and_field _ _ _ _ (by decide)) (and_field _ _ _ _ (by decide))) (and_field _ _ _ _ (by decide))) (and_field _ _ _ _ (by decide))

theorem OpSt.ofWord_or (p : BitVec 32) (o : OpSt) (h : OpSt.ofWord p = ⟨0#2⟩) :
    OpSt.ofWord (p ||| o.toWord) = o := by
  cases o
  simp only [OpSt.ofWord, OpSt.mk.injEq] at h
  simp (disch := decide) only [OpSt.ofWord, OpSt.toWord, BitVec.extractLsb'_or, h,
    ext_same, BitVec.zero_or]

theorem OpSt.toWord_and (o : OpSt) : o.toWord &&& 0xFCFFFFFF#32 = 0#32 := by
  cases o
  exact and_field _ _ _ _ (by decide)

theorem OpDoc.ofWord_or (p : BitVec 32) (o : OpDoc) (h : OpDoc.ofWord p = ⟨0#2, 0#2, 0#7, 0#7, 0#3⟩) :
    OpDoc.ofWord (p ||| o.toWord) = o := by
  cases o
  simp only [OpDoc.ofWord, OpDoc.mk.injEq] at h
  obtain ⟨h0, h1, h2, h3, h4⟩ := h
  simp (disch := decide) only [OpDoc.ofWord, OpDoc.toWord, BitVec.extractLsb'_or, h0, h1, h2, h3, h4,
    ext_same, ext_diff, BitVec.zero_or, BitVec.or_zero]

theorem OpDoc.toWord_and (o : OpDoc) : o.toWord &&& 0xFCF00001#32 = 0#32 := by
  cases o
  exact or_and_zero (or_and_zero (or_and_zero (or_and_zero (and_field _ _ _ _ (by decide)) (and_field _ _ _ _ (by decide))) (and_field _ _ _ _ (by decide))) (and_field _ _ _ _ (by decide))) (and_field _ _ _ _ (by decide))

theorem OpDoc1.ofWord_or (p : BitVec 32) (o : OpDoc1) (h : OpDoc1.ofWord p = ⟨0#2, 0#7, 0#3⟩) :
    OpDoc1.ofWord (p ||| o.toWord) = o := by
  cases o
  simp only [OpDoc1.ofWord, OpDoc1.mk.injEq] at h
  obtain ⟨h0, h1, h2⟩ := h
  simp (disch := decide) only [OpDoc1.ofWord, OpDoc1.toWord, BitVec.extractLsb'_or, h0, h1, h2,
    ext_same, ext_diff, BitVec.zero_or, BitVec.or_zero]

theorem OpDoc1.toWord_and (o : OpDoc1) : o.toWord &&& 0xFCFC07F1#32 = 0#32 := by
  cases o
  exact or_and_zero (or_and_zero (and_field _ _ _ _ (by decide)) (and_field _ _ _ _ (by decide))) (and_field _ _ _ _ (by decide))

theorem OpFence.ofWord_or (p : BitVec 32) (o : OpFence) (h : OpFence.ofWord p = ⟨0#2, 0#3⟩) :
    OpFence.ofWord (p ||| o.toWord) = o := by
  cases o
  simp only [OpFence.ofWord, OpFence.mk.injEq] at h
  obtain ⟨h0, h1⟩ := h
  simp (disch := decide) only [OpFence.ofWord, OpFence.toWord, BitVec.extractLsb'_or, h0, h1,
    ext_same, ext_diff, ext_same0, ext_diff0, BitVec.zero_or, BitVec.or_zero]

theorem OpFence.toWord_and (o : OpFence) : o.toWord &&& 0xFCFFFFF8#32 = 0#32 := by
  cases o
  exact or_and_zero (and_field _ _ _ _ (by decide)) (and_field0 _ _ _ (by decide))

theorem OpCa.ofWord_or (p : BitVec 32) (o : OpCa) (h : OpCa.ofWord p = ⟨0#2, 0#7⟩) :
    OpCa.ofWord (p ||| o.toWord) = o := by
  cases o
  simp only [OpCa.ofWord, OpCa.mk.injEq] at h
  obtain ⟨h0, h1⟩ := h
  simp (disch := decide) only [OpCa.ofWord, OpCa.toWord, BitVec.extractLsb'_or, h0, h1,
    ext_same, ext_diff, BitVec.zero_or, BitVec.or_zero]

theorem OpCa.toWord_and (o : OpCa) : o.toWord &&& 0xFCFC07FF#32 = 0#32 := by
  cases o
  exact or_and_zero (and_field _ _ _ _ (by decide)) (and_field _ _ _ _ (by decide))

theorem OpCab.ofWord_or (p : BitVec 32) (o : OpCab) (h : OpCab.ofWord p = ⟨0#2, 0#7, 0#7⟩) :
    OpCab.ofWord (p ||| o.toWord) = o := by
  cases o
  simp only [OpCab.ofWord, OpCab.mk.injEq] at h
  obtain ⟨h0, h1, h2⟩ := h
  simp (disch := decide) only [OpCab.ofWord, OpCab.toWord, BitVec.extractLsb'_or, h0, h1, h2,
    ext_same, ext_diff, BitVec.zero_or, BitVec.or_zero]

theorem OpCab.toWord_and (o : OpCab) : o.toWord &&& 0xFCFC000F#32 = 0#32 := by
  cases o
  exact or_and_zero (or_and_zero (and_field _ _ _ _ (by decide)) (and_field _ _ _ _ (by decide))) (and_field _ _ _ _ (by decide))

theorem OpCb.ofWord_or (p : BitVec 32) (o : OpCb) (h : OpCb.ofWord p = ⟨0#2, 0#7⟩) :
    OpCb.ofWord (p ||| o.toWord) = o := by
  cases o
  simp only [OpCb.ofWord, OpCb.mk.injEq] at h
  obtain ⟨h0, h1⟩ := h
  simp (disch := decide) only [OpCb.ofWord, OpCb.toWord, BitVec.extractLsb'_or, h0, h1,
    ext_same, ext_diff, BitVec.zero_or, BitVec.or_zero]

theorem OpCb.toWord_and (o : OpCb) : o.toWord &&& 0xFCFFF80F#32 = 0#32 := by
  cases o
  exact or_and_zero (and_field _ _ _ _ (by decide)) (and_field _ _ _ _ (by decide))

theorem OpBinit.ofWord_or (p : BitVec 32) (o : OpBinit) (h : OpBinit.ofWord p = ⟨0#2, 0#6, 0#6, 0#1, 0#1, 0#1⟩) :
    OpBinit.ofWord (p ||| o.toWord) = o := by
  cases o
  simp only [OpBinit.ofWord, OpBinit.mk.injEq] at h
  obtain ⟨h0, h1, h2, h3, h4, h5⟩ := h
  simp (disch := decide) only [OpBinit.ofWord, OpBinit.toWord, BitVec.extractLsb'_or, h0, h1, h2, h3, h4, h5,
    ext_same, ext_diff, ext_same0, ext_diff0, BitVec.zero_or, BitVec.or_zero]

theorem OpBinit.toWord_and (o : OpBinit) : o.toWord &&& 0xFCFF0008#32 = 0#32 := by
  cases o
  exact or_and_zero (or_and_zero (or_and_zero (or_and_zero (or_and_zero (and_field _ _ _ _ (by decide)) (and_field _ _ _ _ (by decide))) (and_field _ _ _ _ (by decide))) (and_field _ _ _ _ (by decide))) (and_field _ _ _ _ (by decide))) (and_field0 _ _ _ (by decide))

theorem OpBarG.ofWord_or (p : BitVec 32) (o : OpBarG) (h : OpBarG.ofWord p = ⟨0#2, 0#6⟩) :
    OpBarG.ofWord (p ||| o.toWord) = o := by
  cases o
  simp only [OpBarG.ofWord, OpBarG.mk.injEq] at h
  obtain ⟨h0, h1⟩ := h
  simp (disch := decide) only [OpBarG.ofWord, OpBarG.toWord, BitVec.extractLsb'_or, h0, h1,
    ext_same, ext_diff, BitVec.zero_or, BitVec.or_zero]

theorem OpBarG.toWord_and (o : OpBarG) : o.toWord &&& 0xFCFF03FF#32 = 0#32 := by
  cases o
  exact or_and_zero (and_field _ _ _ _ (by decide)) (and_field _ _ _ _ (by decide))

theorem OpBarGE.ofWord_or (p : BitVec 32) (o : OpBarGE) (h : OpBarGE.ofWord p = ⟨0#2, 0#6, 0#6⟩) :
    OpBarGE.ofWord (p ||| o.toWord) = o := by
  cases o
  simp only [OpBarGE.ofWord, OpBarGE.mk.injEq] at h
  obtain ⟨h0, h1, h2⟩ := h
  simp (disch := decide) only [OpBarGE.ofWord, OpBarGE.toWord, BitVec.extractLsb'_or, h0, h1, h2,
    ext_same, ext_diff, BitVec.zero_or, BitVec.or_zero]

theorem OpBarGE.toWord_and (o : OpBarGE) : o.toWord &&& 0xFCFF000F#32 = 0#32 := by
  cases o
  exact or_and_zero (or_and_zero (and_field _ _ _ _ (by decide)) (and_field _ _ _ _ (by decide))) (and_field _ _ _ _ (by decide))

theorem OpBwait.ofWord_or (p : BitVec 32) (o : OpBwait) (h : OpBwait.ofWord p = ⟨0#2, 0#6, 0#2⟩) :
    OpBwait.ofWord (p ||| o.toWord) = o := by
  cases o
  simp only [OpBwait.ofWord, OpBwait.mk.injEq] at h
  obtain ⟨h0, h1, h2⟩ := h
  simp (disch := decide) only [OpBwait.ofWord, OpBwait.toWord, BitVec.extractLsb'_or, h0, h1, h2,
    ext_same, ext_diff, ext_same0, ext_diff0, BitVec.zero_or, BitVec.or_zero]

theorem OpBwait.toWord_and (o : OpBwait) : o.toWord &&& 0xFCFF03FC#32 = 0#32 := by
  cases o
  exact or_and_zero (or_and_zero (and_field _ _ _ _ (by decide)) (and_field _ _ _ _ (by decide))) (and_field0 _ _ _ (by decide))

theorem OpBtry.ofWord_or (p : BitVec 32) (o : OpBtry) (h : OpBtry.ofWord p = ⟨0#2, 0#6, 0#7, 0#2⟩) :
    OpBtry.ofWord (p ||| o.toWord) = o := by
  cases o
  simp only [OpBtry.ofWord, OpBtry.mk.injEq] at h
  obtain ⟨h0, h1, h2, h3⟩ := h
  simp (disch := decide) only [OpBtry.ofWord, OpBtry.toWord, BitVec.extractLsb'_or, h0, h1, h2, h3,
    ext_same, ext_diff, ext_same0, ext_diff0, BitVec.zero_or, BitVec.or_zero]

theorem OpBtry.toWord_and (o : OpBtry) : o.toWord &&& 0xFCFF0004#32 = 0#32 := by
  cases o
  exact or_and_zero (or_and_zero (or_and_zero (and_field _ _ _ _ (by decide)) (and_field _ _ _ _ (by decide))) (and_field _ _ _ _ (by decide))) (and_field0 _ _ _ (by decide))

theorem OpBr.ofWord_or (p : BitVec 32) (o : OpBr) (h : OpBr.ofWord p = ⟨0#7, 0#17⟩) :
    OpBr.ofWord (p ||| o.toWord) = o := by
  cases o
  simp only [OpBr.ofWord, OpBr.mk.injEq] at h
  obtain ⟨h0, h1⟩ := h
  simp (disch := decide) only [OpBr.ofWord, OpBr.toWord, BitVec.extractLsb'_or, h0, h1,
    ext_same, ext_diff, ext_same0, ext_diff0, BitVec.zero_or, BitVec.or_zero]

theorem OpBr.toWord_and (o : OpBr) : o.toWord &&& 0xFF000000#32 = 0#32 := by
  cases o
  exact or_and_zero (and_field _ _ _ _ (by decide)) (and_field0 _ _ _ (by decide))

theorem OpJump.ofWord_or (p : BitVec 32) (o : OpJump) (h : OpJump.ofWord p = ⟨0#24⟩) :
    OpJump.ofWord (p ||| o.toWord) = o := by
  cases o
  simp only [OpJump.ofWord, OpJump.mk.injEq] at h
  simp (disch := decide) only [OpJump.ofWord, OpJump.toWord, BitVec.extractLsb'_or, h,
    ext_same0, BitVec.zero_or]

theorem OpJump.toWord_and (o : OpJump) : o.toWord &&& 0xFF000000#32 = 0#32 := by
  cases o
  exact and_field0 _ _ _ (by decide)

theorem OpJumpI.ofWord_or (p : BitVec 32) (o : OpJumpI) (h : OpJumpI.ofWord p = ⟨0#7⟩) :
    OpJumpI.ofWord (p ||| o.toWord) = o := by
  cases o
  simp only [OpJumpI.ofWord, OpJumpI.mk.injEq] at h
  simp (disch := decide) only [OpJumpI.ofWord, OpJumpI.toWord, BitVec.extractLsb'_or, h,
    ext_same0, BitVec.zero_or]

theorem OpJumpI.toWord_and (o : OpJumpI) : o.toWord &&& 0xFFFFFF80#32 = 0#32 := by
  cases o
  exact and_field0 _ _ _ (by decide)

theorem OpSleep.ofWord_or (p : BitVec 32) (o : OpSleep) (h : OpSleep.ofWord p = ⟨0#2, 0#16⟩) :
    OpSleep.ofWord (p ||| o.toWord) = o := by
  cases o
  simp only [OpSleep.ofWord, OpSleep.mk.injEq] at h
  obtain ⟨h0, h1⟩ := h
  simp (disch := decide) only [OpSleep.ofWord, OpSleep.toWord, BitVec.extractLsb'_or, h0, h1,
    ext_same, ext_diff, ext_same0, ext_diff0, BitVec.zero_or, BitVec.or_zero]

theorem OpSleep.toWord_and (o : OpSleep) : o.toWord &&& 0xFCFF0000#32 = 0#32 := by
  cases o
  exact or_and_zero (and_field _ _ _ _ (by decide)) (and_field0 _ _ _ (by decide))

theorem OpYieldw.ofWord_or (p : BitVec 32) (o : OpYieldw) (h : OpYieldw.ofWord p = ⟨0#2, 0#6, 0#10⟩) :
    OpYieldw.ofWord (p ||| o.toWord) = o := by
  cases o
  simp only [OpYieldw.ofWord, OpYieldw.mk.injEq] at h
  obtain ⟨h0, h1, h2⟩ := h
  simp (disch := decide) only [OpYieldw.ofWord, OpYieldw.toWord, BitVec.extractLsb'_or, h0, h1, h2,
    ext_same, ext_diff, ext_same0, ext_diff0, BitVec.zero_or, BitVec.or_zero]

theorem OpYieldw.toWord_and (o : OpYieldw) : o.toWord &&& 0xFCFF0000#32 = 0#32 := by
  cases o
  exact or_and_zero (or_and_zero (and_field _ _ _ _ (by decide)) (and_field _ _ _ _ (by decide))) (and_field0 _ _ _ (by decide))

theorem OpRole.ofWord_or (p : BitVec 32) (o : OpRole) (h : OpRole.ofWord p = ⟨0#2, 0#3⟩) :
    OpRole.ofWord (p ||| o.toWord) = o := by
  cases o
  simp only [OpRole.ofWord, OpRole.mk.injEq] at h
  obtain ⟨h0, h1⟩ := h
  simp (disch := decide) only [OpRole.ofWord, OpRole.toWord, BitVec.extractLsb'_or, h0, h1,
    ext_same, ext_diff, ext_same0, ext_diff0, BitVec.zero_or, BitVec.or_zero]

theorem OpRole.toWord_and (o : OpRole) : o.toWord &&& 0xFCFFFFF8#32 = 0#32 := by
  cases o
  exact or_and_zero (and_field _ _ _ _ (by decide)) (and_field0 _ _ _ (by decide))

theorem OpRegion.ofWord_or (p : BitVec 32) (o : OpRegion) (h : OpRegion.ofWord p = ⟨0#2, 0#6⟩) :
    OpRegion.ofWord (p ||| o.toWord) = o := by
  cases o
  simp only [OpRegion.ofWord, OpRegion.mk.injEq] at h
  obtain ⟨h0, h1⟩ := h
  simp (disch := decide) only [OpRegion.ofWord, OpRegion.toWord, BitVec.extractLsb'_or, h0, h1,
    ext_same, ext_diff, ext_same0, ext_diff0, BitVec.zero_or, BitVec.or_zero]

theorem OpRegion.toWord_and (o : OpRegion) : o.toWord &&& 0xFCFFFFC0#32 = 0#32 := by
  cases o
  exact or_and_zero (and_field _ _ _ _ (by decide)) (and_field0 _ _ _ (by decide))

theorem OpEmit.ofWord_or (p : BitVec 32) (o : OpEmit) (h : OpEmit.ofWord p = ⟨0#2, 0#7, 0#3, 0#1⟩) :
    OpEmit.ofWord (p ||| o.toWord) = o := by
  cases o
  simp only [OpEmit.ofWord, OpEmit.mk.injEq] at h
  obtain ⟨h0, h1, h2, h3⟩ := h
  simp (disch := decide) only [OpEmit.ofWord, OpEmit.toWord, BitVec.extractLsb'_or, h0, h1, h2, h3,
    ext_same, ext_diff, BitVec.zero_or, BitVec.or_zero]

theorem OpEmit.toWord_and (o : OpEmit) : o.toWord &&& 0xFCFF001F#32 = 0#32 := by
  cases o
  exact or_and_zero (or_and_zero (or_and_zero (and_field _ _ _ _ (by decide)) (and_field _ _ _ _ (by decide))) (and_field _ _ _ _ (by decide))) (and_field _ _ _ _ (by decide))

theorem OpLnch.ofWord_or (p : BitVec 32) (o : OpLnch) (h : OpLnch.ofWord p = ⟨0#2, 0#7, 0#6⟩) :
    OpLnch.ofWord (p ||| o.toWord) = o := by
  cases o
  simp only [OpLnch.ofWord, OpLnch.mk.injEq] at h
  obtain ⟨h0, h1, h2⟩ := h
  simp (disch := decide) only [OpLnch.ofWord, OpLnch.toWord, BitVec.extractLsb'_or, h0, h1, h2,
    ext_same, ext_diff, ext_same0, ext_diff0, BitVec.zero_or, BitVec.or_zero]

theorem OpLnch.toWord_and (o : OpLnch) : o.toWord &&& 0xFCFF01C0#32 = 0#32 := by
  cases o
  exact or_and_zero (or_and_zero (and_field _ _ _ _ (by decide)) (and_field _ _ _ _ (by decide))) (and_field0 _ _ _ (by decide))

theorem OpEnF.ofWord_or (p : BitVec 32) (o : OpEnF) (h : OpEnF.ofWord p = ⟨0#2, 0#6, 0#6, 0#2⟩) :
    OpEnF.ofWord (p ||| o.toWord) = o := by
  cases o
  simp only [OpEnF.ofWord, OpEnF.mk.injEq] at h
  obtain ⟨h0, h1, h2, h3⟩ := h
  simp (disch := decide) only [OpEnF.ofWord, OpEnF.toWord, BitVec.extractLsb'_or, h0, h1, h2, h3,
    ext_same, ext_diff, ext_same0, ext_diff0, BitVec.zero_or, BitVec.or_zero]

theorem OpEnF.toWord_and (o : OpEnF) : o.toWord &&& 0xFCF000FC#32 = 0#32 := by
  cases o
  exact or_and_zero (or_and_zero (or_and_zero (and_field _ _ _ _ (by decide)) (and_field _ _ _ _ (by decide))) (and_field _ _ _ _ (by decide))) (and_field0 _ _ _ (by decide))

theorem OpEnA.ofWord_or (p : BitVec 32) (o : OpEnA) (h : OpEnA.ofWord p = ⟨0#2, 0#6, 0#1⟩) :
    OpEnA.ofWord (p ||| o.toWord) = o := by
  cases o
  simp only [OpEnA.ofWord, OpEnA.mk.injEq] at h
  obtain ⟨h0, h1, h2⟩ := h
  simp (disch := decide) only [OpEnA.ofWord, OpEnA.toWord, BitVec.extractLsb'_or, h0, h1, h2,
    ext_same, ext_diff, ext_same0, ext_diff0, BitVec.zero_or, BitVec.or_zero]

theorem OpEnA.toWord_and (o : OpEnA) : o.toWord &&& 0xFCF03FFE#32 = 0#32 := by
  cases o
  exact or_and_zero (or_and_zero (and_field _ _ _ _ (by decide)) (and_field _ _ _ _ (by decide))) (and_field0 _ _ _ (by decide))

theorem OpPark.ofWord_or (p : BitVec 32) (o : OpPark) (h : OpPark.ofWord p = ⟨0#2, 0#6, 0#1, 0#4⟩) :
    OpPark.ofWord (p ||| o.toWord) = o := by
  cases o
  simp only [OpPark.ofWord, OpPark.mk.injEq] at h
  obtain ⟨h0, h1, h2, h3⟩ := h
  simp (disch := decide) only [OpPark.ofWord, OpPark.toWord, BitVec.extractLsb'_or, h0, h1, h2, h3,
    ext_same, ext_diff, ext_same0, ext_diff0, BitVec.zero_or, BitVec.or_zero]

theorem OpPark.toWord_and (o : OpPark) : o.toWord &&& 0xFCFFC0D0#32 = 0#32 := by
  cases o
  exact or_and_zero (or_and_zero (or_and_zero (and_field _ _ _ _ (by decide)) (and_field _ _ _ _ (by decide))) (and_field _ _ _ _ (by decide))) (and_field0 _ _ _ (by decide))

theorem OpSpq.ofWord_or (p : BitVec 32) (o : OpSpq) (h : OpSpq.ofWord p = ⟨0#2, 0#6⟩) :
    OpSpq.ofWord (p ||| o.toWord) = o := by
  cases o
  simp only [OpSpq.ofWord, OpSpq.mk.injEq] at h
  obtain ⟨h0, h1⟩ := h
  simp (disch := decide) only [OpSpq.ofWord, OpSpq.toWord, BitVec.extractLsb'_or, h0, h1,
    ext_same, ext_diff, BitVec.zero_or, BitVec.or_zero]

theorem OpSpq.toWord_and (o : OpSpq) : o.toWord &&& 0xFCFFC0FF#32 = 0#32 := by
  cases o
  exact or_and_zero (and_field _ _ _ _ (by decide)) (and_field _ _ _ _ (by decide))

theorem OpEn2.ofWord_or (p : BitVec 32) (o : OpEn2) (h : OpEn2.ofWord p = ⟨0#2, 0#6, 0#6⟩) :
    OpEn2.ofWord (p ||| o.toWord) = o := by
  cases o
  simp only [OpEn2.ofWord, OpEn2.mk.injEq] at h
  obtain ⟨h0, h1, h2⟩ := h
  simp (disch := decide) only [OpEn2.ofWord, OpEn2.toWord, BitVec.extractLsb'_or, h0, h1, h2,
    ext_same, ext_diff, BitVec.zero_or, BitVec.or_zero]

theorem OpEn2.toWord_and (o : OpEn2) : o.toWord &&& 0xFCF000FF#32 = 0#32 := by
  cases o
  exact or_and_zero (or_and_zero (and_field _ _ _ _ (by decide)) (and_field _ _ _ _ (by decide))) (and_field _ _ _ _ (by decide))

theorem OpEn1.ofWord_or (p : BitVec 32) (o : OpEn1) (h : OpEn1.ofWord p = ⟨0#2, 0#6⟩) :
    OpEn1.ofWord (p ||| o.toWord) = o := by
  cases o
  simp only [OpEn1.ofWord, OpEn1.mk.injEq] at h
  obtain ⟨h0, h1⟩ := h
  simp (disch := decide) only [OpEn1.ofWord, OpEn1.toWord, BitVec.extractLsb'_or, h0, h1,
    ext_same, ext_diff, BitVec.zero_or, BitVec.or_zero]

theorem OpEn1.toWord_and (o : OpEn1) : o.toWord &&& 0xFCF03FFF#32 = 0#32 := by
  cases o
  exact or_and_zero (and_field _ _ _ _ (by decide)) (and_field _ _ _ _ (by decide))

theorem OpMxldb.ofWord_or (p : BitVec 32) (o : OpMxldb) (h : OpMxldb.ofWord p = ⟨0#2, 0#6, 0#6, 0#6, 0#2⟩) :
    OpMxldb.ofWord (p ||| o.toWord) = o := by
  cases o
  simp only [OpMxldb.ofWord, OpMxldb.mk.injEq] at h
  obtain ⟨h0, h1, h2, h3, h4⟩ := h
  simp (disch := decide) only [OpMxldb.ofWord, OpMxldb.toWord, BitVec.extractLsb'_or, h0, h1, h2, h3, h4,
    ext_same, ext_diff, ext_same0, ext_diff0, BitVec.zero_or, BitVec.or_zero]

theorem OpMxldb.toWord_and (o : OpMxldb) : o.toWord &&& 0xFCF00000#32 = 0#32 := by
  cases o
  exact or_and_zero (or_and_zero (or_and_zero (or_and_zero (and_field _ _ _ _ (by decide)) (and_field _ _ _ _ (by decide))) (and_field _ _ _ _ (by decide))) (and_field _ _ _ _ (by decide))) (and_field0 _ _ _ (by decide))

theorem OpEn3.ofWord_or (p : BitVec 32) (o : OpEn3) (h : OpEn3.ofWord p = ⟨0#2, 0#6, 0#6, 0#6⟩) :
    OpEn3.ofWord (p ||| o.toWord) = o := by
  cases o
  simp only [OpEn3.ofWord, OpEn3.mk.injEq] at h
  obtain ⟨h0, h1, h2, h3⟩ := h
  simp (disch := decide) only [OpEn3.ofWord, OpEn3.toWord, BitVec.extractLsb'_or, h0, h1, h2, h3,
    ext_same, ext_diff, BitVec.zero_or, BitVec.or_zero]

theorem OpEn3.toWord_and (o : OpEn3) : o.toWord &&& 0xFCF00003#32 = 0#32 := by
  cases o
  exact or_and_zero (or_and_zero (or_and_zero (and_field _ _ _ _ (by decide)) (and_field _ _ _ _ (by decide))) (and_field _ _ _ _ (by decide))) (and_field _ _ _ _ (by decide))

theorem OpSx.ofWord_or (p : BitVec 32) (o : OpSx) (h : OpSx.ofWord p = ⟨0#2, 0#6, 0#6, 0#6, 0#1⟩) :
    OpSx.ofWord (p ||| o.toWord) = o := by
  cases o
  simp only [OpSx.ofWord, OpSx.mk.injEq] at h
  obtain ⟨h0, h1, h2, h3, h4⟩ := h
  simp (disch := decide) only [OpSx.ofWord, OpSx.toWord, BitVec.extractLsb'_or, h0, h1, h2, h3, h4,
    ext_same, ext_diff, ext_same0, ext_diff0, BitVec.zero_or, BitVec.or_zero]

theorem OpSx.toWord_and (o : OpSx) : o.toWord &&& 0xFCF00002#32 = 0#32 := by
  cases o
  exact or_and_zero (or_and_zero (or_and_zero (or_and_zero (and_field _ _ _ _ (by decide)) (and_field _ _ _ _ (by decide))) (and_field _ _ _ _ (by decide))) (and_field _ _ _ _ (by decide))) (and_field0 _ _ _ (by decide))

theorem OpCsrr.ofWord_or (p : BitVec 32) (o : OpCsrr) (h : OpCsrr.ofWord p = ⟨0#2, 0#6, 0#5⟩) :
    OpCsrr.ofWord (p ||| o.toWord) = o := by
  cases o
  simp only [OpCsrr.ofWord, OpCsrr.mk.injEq] at h
  obtain ⟨h0, h1, h2⟩ := h
  simp (disch := decide) only [OpCsrr.ofWord, OpCsrr.toWord, BitVec.extractLsb'_or, h0, h1, h2,
    ext_same, ext_diff, ext_same0, ext_diff0, BitVec.zero_or, BitVec.or_zero]

theorem OpCsrr.toWord_and (o : OpCsrr) : o.toWord &&& 0xFCFF03E0#32 = 0#32 := by
  cases o
  exact or_and_zero (or_and_zero (and_field _ _ _ _ (by decide)) (and_field _ _ _ _ (by decide))) (and_field0 _ _ _ (by decide))

theorem OpCsrw.ofWord_or (p : BitVec 32) (o : OpCsrw) (h : OpCsrw.ofWord p = ⟨0#2, 0#6, 0#7⟩) :
    OpCsrw.ofWord (p ||| o.toWord) = o := by
  cases o
  simp only [OpCsrw.ofWord, OpCsrw.mk.injEq] at h
  obtain ⟨h0, h1, h2⟩ := h
  simp (disch := decide) only [OpCsrw.ofWord, OpCsrw.toWord, BitVec.extractLsb'_or, h0, h1, h2,
    ext_same, ext_diff, ext_same0, ext_diff0, BitVec.zero_or, BitVec.or_zero]

theorem OpCsrw.toWord_and (o : OpCsrw) : o.toWord &&& 0xFCFF0380#32 = 0#32 := by
  cases o
  exact or_and_zero (or_and_zero (and_field _ _ _ _ (by decide)) (and_field _ _ _ _ (by decide))) (and_field0 _ _ _ (by decide))

theorem OpCsrwK.ofWord_or (p : BitVec 32) (o : OpCsrwK) (h : OpCsrwK.ofWord p = ⟨0#2, 0#7⟩) :
    OpCsrwK.ofWord (p ||| o.toWord) = o := by
  cases o
  simp only [OpCsrwK.ofWord, OpCsrwK.mk.injEq] at h
  obtain ⟨h0, h1⟩ := h
  simp (disch := decide) only [OpCsrwK.ofWord, OpCsrwK.toWord, BitVec.extractLsb'_or, h0, h1,
    ext_same, ext_diff, ext_same0, ext_diff0, BitVec.zero_or, BitVec.or_zero]

theorem OpCsrwK.toWord_and (o : OpCsrwK) : o.toWord &&& 0xFCFFFF80#32 = 0#32 := by
  cases o
  exact or_and_zero (and_field _ _ _ _ (by decide)) (and_field0 _ _ _ (by decide))

theorem OpCode.ofWord_or (p : BitVec 32) (o : OpCode) (h : OpCode.ofWord p = ⟨0#2, 0#16⟩) :
    OpCode.ofWord (p ||| o.toWord) = o := by
  cases o
  simp only [OpCode.ofWord, OpCode.mk.injEq] at h
  obtain ⟨h0, h1⟩ := h
  simp (disch := decide) only [OpCode.ofWord, OpCode.toWord, BitVec.extractLsb'_or, h0, h1,
    ext_same, ext_diff, ext_same0, ext_diff0, BitVec.zero_or, BitVec.or_zero]

theorem OpCode.toWord_and (o : OpCode) : o.toWord &&& 0xFCFF0000#32 = 0#32 := by
  cases o
  exact or_and_zero (and_field _ _ _ _ (by decide)) (and_field0 _ _ _ (by decide))

theorem OpClk.ofWord_or (p : BitVec 32) (o : OpClk) (h : OpClk.ofWord p = ⟨0#2, 0#5⟩) :
    OpClk.ofWord (p ||| o.toWord) = o := by
  cases o
  simp only [OpClk.ofWord, OpClk.mk.injEq] at h
  obtain ⟨h0, h1⟩ := h
  simp (disch := decide) only [OpClk.ofWord, OpClk.toWord, BitVec.extractLsb'_or, h0, h1,
    ext_same, ext_diff, ext_same0, ext_diff0, BitVec.zero_or, BitVec.or_zero]

theorem OpClk.toWord_and (o : OpClk) : o.toWord &&& 0xFCFFFFE0#32 = 0#32 := by
  cases o
  exact or_and_zero (and_field _ _ _ _ (by decide)) (and_field0 _ _ _ (by decide))

theorem OpDevr.ofWord_or (p : BitVec 32) (o : OpDevr) (h : OpDevr.ofWord p = ⟨0#2, 0#8, 0#5⟩) :
    OpDevr.ofWord (p ||| o.toWord) = o := by
  cases o
  simp only [OpDevr.ofWord, OpDevr.mk.injEq] at h
  obtain ⟨h0, h1, h2⟩ := h
  simp (disch := decide) only [OpDevr.ofWord, OpDevr.toWord, BitVec.extractLsb'_or, h0, h1, h2,
    ext_same, ext_diff, ext_same0, ext_diff0, BitVec.zero_or, BitVec.or_zero]

theorem OpDevr.toWord_and (o : OpDevr) : o.toWord &&& 0xFCFF00E0#32 = 0#32 := by
  cases o
  exact or_and_zero (or_and_zero (and_field _ _ _ _ (by decide)) (and_field _ _ _ _ (by decide))) (and_field0 _ _ _ (by decide))

theorem OpGset.ofWord_or (p : BitVec 32) (o : OpGset) (h : OpGset.ofWord p = ⟨0#2, 0#6, 0#7⟩) :
    OpGset.ofWord (p ||| o.toWord) = o := by
  cases o
  simp only [OpGset.ofWord, OpGset.mk.injEq] at h
  obtain ⟨h0, h1, h2⟩ := h
  simp (disch := decide) only [OpGset.ofWord, OpGset.toWord, BitVec.extractLsb'_or, h0, h1, h2,
    ext_same, ext_diff, ext_same0, ext_diff0, BitVec.zero_or, BitVec.or_zero]

theorem OpGset.toWord_and (o : OpGset) : o.toWord &&& 0xFCFF0380#32 = 0#32 := by
  cases o
  exact or_and_zero (or_and_zero (and_field _ _ _ _ (by decide)) (and_field _ _ _ _ (by decide))) (and_field0 _ _ _ (by decide))

theorem word_and {p t C : BitVec 32} (ht : t &&& C = 0#32) (hp : p &&& C = p) : (p ||| t) &&& C = p := by
  rw [BitVec.and_comm, BitVec.and_or_distrib_left, BitVec.and_comm C p, BitVec.and_comm C t, ht, hp]; simp

/-- The four bytes of a word are read back as the word. -/
theorem wordOfBytes_extract (w : BitVec 32) :
    wordOfBytes (w.extractLsb' 0 8) (w.extractLsb' 8 8) (w.extractLsb' 16 8) (w.extractLsb' 24 8) = w := by
  apply BitVec.eq_of_getLsbD_eq
  intro i hi
  simp only [wordOfBytes, BitVec.getLsbD_append, BitVec.getLsbD_extractLsb']
  by_cases h1 : i < 8
  · simp [h1]
  · by_cases h2 : i < 16
    · simp [h1, show i - 8 < 8 by omega, show 8 + (i - 8) = i by omega]
    · by_cases h3 : i < 24
      · simp [h1, show ¬ i - 8 < 8 by omega, show i - 8 - 8 < 8 by omega, show 16 + (i - 8 - 8) = i by omega]
      · simp [h1, show ¬ i - 8 < 8 by omega, show ¬ i - 8 - 8 < 8 by omega, show i - 8 - 8 - 8 < 8 by omega,
          show 24 + (i - 8 - 8 - 8) = i by omega]

end Sys2Proof
end

