-- ==== Sys2Proof/Laws/Lookups.lean ====
section
/-!
SUPPORT. Records found by number after an update of one of them.
-/

namespace Sys2Proof.Machine

theorem find?_mod {α : Type} (key : α → Nat) {f : α → α} (hf : ∀ x, key (f x) = key x) (k j : Nat) (l : List α) :
    (l.map fun x => if key x = k then f x else x).find? (fun x => key x == j) =
      (l.find? fun x => key x == j).map fun x => if key x = k then f x else x := by
  induction l with
  | nil => rfl
  | cons x xs ih =>
    have hk : key (if key x = k then f x else x) = key x := by split <;> simp [hf]
    simp only [List.map_cons, List.find?_cons, hk]
    split
    · rfl
    · exact ih

theorem State.gang?_modGang (s : State) {f : Gang → Gang} (hf : ∀ g, (f g).id = g.id) (k j : Nat) :
    (s.modGang k f).gang? j = (s.gang? j).map fun g => if g.id = k then f g else g :=
  find?_mod Gang.id hf k j s.gangs

theorem State.group?_modGroup (s : State) {f : Group → Group} (hf : ∀ g, (f g).id = g.id) (k j : Nat) :
    (s.modGroup k f).group? j = (s.group? j).map fun g => if g.id = k then f g else g :=
  find?_mod Group.id hf k j s.groups

theorem State.op?_modOp (s : State) {f : Op → Op} (hf : ∀ o, (f o).id = o.id) (k j : Nat) :
    (s.modOp k f).op? j = (s.op? j).map fun o => if o.id = k then f o else o :=
  find?_mod Op.id hf k j s.ops

theorem State.req?_modReq (s : State) {f : Req → Req} (hf : ∀ q, (f q).id = q.id) (k j : Nat) :
    (s.modReq k f).req? j = (s.req? j).map fun q => if q.id = k then f q else q :=
  find?_mod Req.id hf k j s.reqs

theorem State.sx?_modSx (s : State) {f : SxCmd → SxCmd} (hf : ∀ c, (f c).id = c.id) (k j : Nat) :
    (s.modSx k f).sx? j = (s.sx? j).map fun c => if c.id = k then f c else c :=
  find?_mod SxCmd.id hf k j s.sx

theorem State.mx?_modMx (s : State) {f : MxCmd → MxCmd} (hf : ∀ c, (f c).id = c.id) (k j : Nat) :
    (s.modMx k f).mx? j = (s.mx? j).map fun c => if c.id = k then f c else c :=
  find?_mod MxCmd.id hf k j s.mx

theorem State.prog?_modProg (s : State) {f : Prog → Prog} (hf : ∀ c, (f c).id = c.id) (k j : Nat) :
    (s.modProg k f).prog? j = (s.prog? j).map fun c => if c.id = k then f c else c :=
  find?_mod Prog.id hf k j s.progs

theorem State.granule?_modGranule (s : State) {f : Granule → Granule} (hf : ∀ g, (f g).addr = g.addr) (k j : Nat) :
    (s.modGranule k f).granule? j = (s.granule? j).map fun g => if g.addr = k then f g else g :=
  find?_mod Granule.addr hf k j s.granules

/-- Serving requests again adds none. -/
theorem State.req?_retries (l : List Req) (s : State) (k : Nat) (h : s.req? k = none) :
    (l.foldl State.retry s).req? k = none := by
  induction l generalizing s with
  | nil => exact h
  | cons q l ih =>
    refine ih _ ?_
    exact (State.req?_modReq s (f := fun q => { q with held := none }) (fun _ => rfl) q.id k).trans (by rw [h]; rfl)

theorem State.req?_dropReq (s : State) (k : Nat) : (s.dropReq k).req? k = none :=
  State.req?_retries _ _ k (by simp [State.req?, List.find?_eq_none])

theorem at'_modAt {α : Type} (d : α) (f : α → α) (i k : Nat) (l : List α) :
    at' d (modAt f i l) k = if k = i ∧ i < l.length then f (at' d l i) else at' d l k := by
  induction l generalizing i k with
  | nil => simp
  | cons x xs ih =>
    cases i with
    | zero => cases k <;> simp [modAt, at']
    | succ i => cases k with
      | zero => simp [modAt, at']
      | succ k => simp [modAt, at', ih]

theorem State.part_modPart (s : State) (f : Partition → Partition) (p q : Nat) :
    (s.modPart p f).part q = if q = p ∧ p < s.parts.length then f (s.part p) else s.part q :=
  at'_modAt _ f p q s.parts

theorem State.chip_modChip (s : State) (f : Chip → Chip) (p q : Nat) :
    (s.modChip p f).chip q = if q = p ∧ p < s.chips.length then f (s.chip p) else s.chip q :=
  at'_modAt _ f p q s.chips

end Sys2Proof.Machine
end

