-- ==== Sys2Proof/Laws/Memory.lean ====
section
/-!
SUPPORT. Memory in its canonical form: what a store changes and keeps, that equal contents are equal data, and
the same of the state's own stores.
-/

namespace Sys2Proof.Machine

/-! ## Reading after a store -/

theorem Memory.get_of_lt {lo : Nat} {m : Memory} (h : Memory.wfFrom lo m = true) {a : Nat} (ha : a < lo) :
    m.get a = 0 := by
  cases m with
  | nil => rfl
  | cons e r =>
    obtain ⟨k, b⟩ := e
    simp only [Memory.wfFrom, Bool.and_eq_true, decide_eq_true_eq] at h
    simp only [Memory.get]
    rw [if_neg (by omega), if_pos (by omega)]

theorem Memory.wfFrom_mono {lo hi : Nat} (hle : lo ≤ hi) {m : Memory} (h : Memory.wfFrom hi m = true) :
    Memory.wfFrom lo m = true := by
  cases m with
  | nil => rfl
  | cons e r =>
    obtain ⟨k, b⟩ := e
    simp only [Memory.wfFrom, Bool.and_eq_true, decide_eq_true_eq] at h ⊢
    exact ⟨⟨by omega, h.1.2⟩, h.2⟩

theorem Memory.set_wfFrom {lo : Nat} {m : Memory} (h : Memory.wfFrom lo m = true) {a : Nat} (ha : lo ≤ a)
    (v : Byte) : Memory.wfFrom lo (m.set a v) = true := by
  induction m generalizing lo with
  | nil =>
    simp only [Memory.set]
    split
    · rfl
    · rename_i hv
      simp only [Memory.wfFrom, Bool.and_true, Bool.and_eq_true, decide_eq_true_eq, bne_iff_ne, ne_eq]
      exact ⟨ha, hv⟩
  | cons e r ih =>
    obtain ⟨k, b⟩ := e
    simp only [Memory.wfFrom, Bool.and_eq_true, decide_eq_true_eq] at h
    simp only [Memory.set]
    split
    · split
      · simp only [Memory.wfFrom, Bool.and_eq_true, decide_eq_true_eq]; exact h
      · rename_i h1 h2
        simp only [Memory.wfFrom, Bool.and_eq_true, decide_eq_true_eq, bne_iff_ne, ne_eq]
        exact ⟨⟨ha, h2⟩, ⟨by omega, by simpa using h.1.2⟩, h.2⟩
    · split
      · rename_i h1 h2
        subst h2
        split
        · exact Memory.wfFrom_mono (by omega) h.2
        · rename_i h3
          simp only [Memory.wfFrom, Bool.and_eq_true, decide_eq_true_eq, bne_iff_ne, ne_eq]
          exact ⟨⟨ha, h3⟩, h.2⟩
      · rename_i h1 h2
        simp only [Memory.wfFrom, Bool.and_eq_true, decide_eq_true_eq]
        exact ⟨⟨h.1.1, h.1.2⟩, ih h.2 (by omega)⟩

/-- A store keeps the canonical form. -/
@[simp] theorem Memory.set_wf {m : Memory} (h : m.wf = true) (a : Nat) (v : Byte) : (m.set a v).wf = true :=
  Memory.set_wfFrom h (Nat.zero_le a) v

theorem Memory.get_set_from {lo : Nat} {m : Memory} (h : Memory.wfFrom lo m = true) (a c : Nat) (v : Byte) :
    (m.set a v).get c = if c = a then v else m.get c := by
  induction m generalizing lo with
  | nil =>
    simp only [Memory.set]
    split
    · rename_i hv; subst hv; simp [Memory.get]
    · simp only [Memory.get]; split
      · rfl
      · split <;> rfl
  | cons e r ih =>
    obtain ⟨k, b⟩ := e
    simp only [Memory.wfFrom, Bool.and_eq_true, decide_eq_true_eq] at h
    simp only [Memory.set]
    split
    · rename_i h1
      split
      · rename_i hv
        subst hv
        split
        · rename_i hc
          subst hc
          simp only [Memory.get]
          rw [if_neg (by omega), if_pos h1]
        · rfl
      · show (if c = a then v else if c < a then 0 else Memory.get ((k, b) :: r) c) = _
        split
        · rfl
        · split
          · rename_i h3 h4
            simp only [Memory.get]
            rw [if_neg (by omega), if_pos (by omega)]
          · rfl
    · split
      · rename_i h1 h2
        subst h2
        split
        · rename_i hv
          subst hv
          simp only [Memory.get]
          split
          · rename_i hc; subst hc; exact Memory.get_of_lt h.2 (by omega)
          · rename_i hc
            by_cases hl : c < a
            · rw [if_pos hl]; exact Memory.get_of_lt h.2 (by omega)
            · rw [if_neg hl]
        · simp only [Memory.get]
          split
          · rfl
          · rfl
      · rename_i h1 h2
        simp only [Memory.get]
        by_cases hck : c = k
        · subst hck; rw [if_pos rfl, if_pos rfl, if_neg (by omega)]
        · rw [if_neg hck, if_neg hck, ih h.2]
          by_cases hlt : c < k
          · rw [if_pos hlt, if_pos hlt, if_neg (by omega)]
          · rw [if_neg hlt, if_neg hlt]

/-- A byte stored reads back, and every other address reads as before. -/
theorem Memory.get_set {m : Memory} (h : m.wf = true) (a c : Nat) (v : Byte) :
    (m.set a v).get c = if c = a then v else m.get c :=
  Memory.get_set_from h a c v

theorem Memory.ext_from {lo : Nat} {m n : Memory} (hm : Memory.wfFrom lo m = true) (hn : Memory.wfFrom lo n = true)
    (h : ∀ a, m.get a = n.get a) : m = n := by
  induction m generalizing lo n with
  | nil =>
    cases n with
    | nil => rfl
    | cons e r =>
      obtain ⟨k, b⟩ := e
      have := h k
      simp only [Memory.wfFrom, Bool.and_eq_true, bne_iff_ne] at hn
      simp [Memory.get] at this
      exact absurd this.symm hn.1.2
  | cons e r ih =>
    obtain ⟨k, b⟩ := e
    simp only [Memory.wfFrom, Bool.and_eq_true, decide_eq_true_eq, bne_iff_ne] at hm
    cases n with
    | nil => have := h k; simp [Memory.get] at this; exact absurd this hm.1.2
    | cons e' r' =>
      obtain ⟨k', b'⟩ := e'
      simp only [Memory.wfFrom, Bool.and_eq_true, decide_eq_true_eq, bne_iff_ne] at hn
      have hk : k = k' := by
        rcases Nat.lt_trichotomy k k' with hlt | he | hgt
        · have := h k
          simp only [Memory.get] at this
          rw [if_pos trivial, if_neg (by omega), if_pos hlt] at this
          exact absurd this hm.1.2
        · exact he
        · have := h k'
          simp only [Memory.get] at this
          rw [if_neg (by omega), if_pos hgt, if_pos trivial] at this
          exact absurd this.symm hn.1.2
      subst hk
      have hb : b = b' := by have := h k; simpa [Memory.get] using this
      subst hb
      congr 1
      refine ih hm.2 hn.2 fun a => ?_
      by_cases ha : a < k + 1
      · rw [Memory.get_of_lt hm.2 ha, Memory.get_of_lt hn.2 ha]
      · have := h a
        simp only [Memory.get] at this
        rw [if_neg (by omega), if_neg (by omega), if_neg (by omega), if_neg (by omega)] at this
        exact this

/-- Memories in canonical form with the same bytes are the same data. -/
theorem Memory.ext {m n : Memory} (hm : m.wf = true) (hn : n.wf = true) (h : ∀ a, m.get a = n.get a) : m = n :=
  Memory.ext_from hm hn h

/-- Storing bytes keeps the canonical form. -/
theorem Memory.write_wf {m : Memory} (h : m.wf = true) (a : Nat) (bs : List Byte) : (m.write a bs).wf = true := by
  induction bs generalizing m a with
  | nil => exact h
  | cons b bs ih => exact ih (Memory.set_wf h a b) (a + 1)

/-- What stands in memory after bytes have been stored from an address up. -/
theorem Memory.get_write {m : Memory} (h : m.wf = true) (a c : Nat) (bs : List Byte) :
    (m.write a bs).get c = if a ≤ c ∧ c < a + bs.length then at' 0 bs (c - a) else m.get c := by
  induction bs generalizing m a with
  | nil => rw [if_neg (by simp only [List.length_nil]; omega)]; rfl
  | cons b bs ih =>
    show ((m.set a b).write (a + 1) bs).get c = _
    rw [ih (Memory.set_wf h a b), Memory.get_set h]
    by_cases hc : c = a
    · subst hc
      rw [if_neg (by omega), if_pos rfl, if_pos (by simp), Nat.sub_self]; rfl
    · by_cases hi : a + 1 ≤ c ∧ c < a + 1 + bs.length
      · rw [if_pos hi, if_pos (by simp; omega)]
        have : c - a = (c - (a + 1)) + 1 := by omega
        rw [this]; rfl
      · rw [if_neg hi, if_neg hc, if_neg (by simp; omega)]

@[simp] theorem Memory.read_length (m : Memory) (a n : Nat) : (m.read a n).length = n := by
  simp [Memory.read, rangeFrom_length]

/-! ## The state's stores -/

@[simp] theorem State.poke_mem (s : State) (k : Nat) (b : Byte) : (s.poke k b).mem = s.mem.set k b := rfl

/-- A masked store keeps the canonical form. -/
theorem State.pokeMasked_wf {s : State} (h : s.mem.wf = true) (k i : Nat) (mask : BitVec 128) (bs : List Byte) :
    (s.pokeMasked k i mask bs).mem.wf = true := by
  induction bs generalizing s k i with
  | nil => exact h
  | cons b bs ih =>
    refine ih ?_ (k + 1) (i + 1)
    split
    · exact Memory.set_wf h k b
    · exact h

/-- What stands in memory after a masked store: the bytes under the mask are new, any other is as before. -/
theorem State.get_pokeMasked {s : State} (h : s.mem.wf = true) (k i : Nat) (mask : BitVec 128) (bs : List Byte)
    (c : Nat) : (s.pokeMasked k i mask bs).mem.get c =
      if k ≤ c ∧ c < k + bs.length ∧ mask.getLsbD (i + (c - k)) = true then at' 0 bs (c - k) else s.mem.get c := by
  induction bs generalizing s k i with
  | nil => rw [if_neg (by simp only [List.length_nil]; omega)]; rfl
  | cons b bs ih =>
    have hw : (if mask.getLsbD i then s.poke k b else s).mem.wf = true := by
      split
      · exact Memory.set_wf h k b
      · exact h
    show (State.pokeMasked _ (k + 1) (i + 1) mask bs).mem.get c = _
    rw [ih hw]
    by_cases hc : c = k
    · subst hc
      rw [if_neg (by omega), Nat.sub_self]
      by_cases hm : mask.getLsbD i = true
      · rw [if_pos hm, if_pos ⟨by omega, by simp, by simpa using hm⟩, State.poke_mem, Memory.get_set h, if_pos rfl]
        rfl
      · rw [if_neg hm, if_neg (by simpa using hm)]
    · have hrest : (if mask.getLsbD i then s.poke k b else s).mem.get c = s.mem.get c := by
        split
        · rw [State.poke_mem, Memory.get_set h, if_neg hc]
        · rfl
      rw [hrest]
      by_cases hlt : k + 1 ≤ c
      · have e1 : i + 1 + (c - (k + 1)) = i + (c - k) := by omega
        have e2 : c - k = (c - (k + 1)) + 1 := by omega
        rw [e1]
        by_cases hcond : c < k + 1 + bs.length ∧ mask.getLsbD (i + (c - k)) = true
        · rw [if_pos ⟨hlt, hcond⟩, if_pos ⟨by omega, by simp; omega, hcond.2⟩, e2]; rfl
        · rw [if_neg (by intro x; exact hcond x.2), if_neg (by
            intro x; exact hcond ⟨by have := x.2.1; simp at this; omega, x.2.2⟩)]
      · rw [if_neg (by omega), if_neg (by omega)]

/-- A masked store changes nothing but memory and what launches keep of it. -/
theorem State.pokeMasked_frame (s : State) (k i : Nat) (mask : BitVec 128) (bs : List Byte) :
    s.pokeMasked k i mask bs = { s with
      mem := (s.pokeMasked k i mask bs).mem, launches := (s.pokeMasked k i mask bs).launches } := by
  induction bs generalizing s k i with
  | nil => rfl
  | cons b bs ih =>
    by_cases hm : mask.getLsbD i = true
    · have e : s.pokeMasked k i mask (b :: bs) = (s.poke k b).pokeMasked (k + 1) (i + 1) mask bs := by
        simp [State.pokeMasked, hm]
      rw [e]; exact ih (s.poke k b) (k + 1) (i + 1)
    · have e : s.pokeMasked k i mask (b :: bs) = s.pokeMasked (k + 1) (i + 1) mask bs := by
        simp [State.pokeMasked, hm]
      rw [e]; exact ih s (k + 1) (i + 1)

/-- What a masked store leaves in memory depends on memory alone. -/
theorem State.pokeMasked_mem_congr {s t : State} (h : s.mem = t.mem) (k i : Nat) (mask : BitVec 128)
    (bs : List Byte) : (s.pokeMasked k i mask bs).mem = (t.pokeMasked k i mask bs).mem := by
  induction bs generalizing s t k i with
  | nil => exact h
  | cons b bs ih =>
    refine ih ?_ (k + 1) (i + 1)
    split
    · show s.mem.set k b = t.mem.set k b
      rw [h]
    · exact h

/-- The memory of the reset machine is in canonical form. -/
theorem reset_mem_wf : State.reset.mem.wf = true := rfl

end Sys2Proof.Machine
end

