-- ==== Sys2Proof/Laws/Homes.lean ====
section
/-!
SUPPORT. What the shared operations of memory homes do for a line that stands in L2 with nothing in the way:
bringing a line in, admission, and the read and write steps.
-/

namespace Sys2Proof.Machine

open Sys2Proof.Claims

/-- What a home changes while it looks a line up: the counts of retention registers, the LRU order, and the
region that tracks the line. -/
def Looked (s u : State) (r : LineRef) (y : L2Line) : Prop :=
  u = { s with parts := u.parts, stamp := u.stamp, l2 := u.l2, regions := u.regions } ∧
  (∃ n, u.l2? r = some { y with lru := n }) ∧ u.levelOf r = s.levelOf r ∧ u.parts.length = s.parts.length

theorem retLookup_frame (s : State) (r : LineRef) : s.retLookup r = { s with parts := (s.retLookup r).parts } := by
  unfold State.retLookup
  split
  · rfl
  · split <;> rfl

theorem retLookup_length (s : State) (r : LineRef) : (s.retLookup r).parts.length = s.parts.length := by
  unfold State.retLookup
  split
  · rfl
  · split <;> simp [State.retBump, State.modPart]

theorem track_frame (s : State) (r : LineRef) : s.track r = { s with regions := (s.track r).regions } := by
  unfold State.track
  split
  · rfl
  · split <;> rfl

theorem track_region (s : State) (r : LineRef) : ∃ g, s.track r = { s with regions := g } :=
  ⟨_, track_frame s r⟩

theorem jumped_frame (s : State) (r : LineRef) : s.jumped r = { s with regions := (s.jumped r).regions } := by
  unfold State.jumped
  split
  · rfl
  · dsimp only
    split
    · rfl
    · split
      · rfl
      · split <;> rfl

theorem find?_modWhere {α : Type} (p : α → Bool) {f : α → α} (hf : ∀ x, p (f x) = p x) (l : List α) :
    (l.map fun x => if p x then f x else x).find? p = (l.find? p).map f := by
  induction l with
  | nil => rfl
  | cons x xs ih =>
    cases h : p x with
    | true => simp [h, hf]
    | false => simpa [h] using ih

theorem l2?_modL2 (s : State) (r : LineRef) {f : L2Line → L2Line}
    (hf : ∀ x, (f x).chip = x.chip ∧ (f x).pa = x.pa) : (s.modL2 r f).l2? r = (s.l2? r).map f :=
  find?_modWhere (fun x : L2Line => x.chip == r.chip && x.pa == r.line) (fun x => by simp [hf x]) s.l2

theorem levelOf_track (s : State) (r : LineRef) : (s.track r).levelOf r = s.levelOf r := by
  unfold State.track
  split
  · rfl
  · rename_i hn
    split
    · show (match List.find? _ (_ :: s.regions) with | some g => g.level | none => 2) = _
      have e : s.levelOf r = 2 := by simp only [State.levelOf, hn]
      rw [e, List.find?_cons]
      split
      · rename_i g hg
        split at hg
        · cases hg; rfl
        · rw [show s.regions.find? (·.holds r.chip r.line) = none from hn] at hg
          cases hg
      · rfl
    · rfl

/-- A canonical address names the same line of the same chiplet (R189). -/
theorem canon_place (s : State) (r : LineRef) : (s.canon r).chip = r.chip ∧ (s.canon r).line = r.line := by
  unfold State.canon; split <;> exact ⟨rfl, rfl⟩

theorem l2?_canon (u s : State) (r : LineRef) : u.l2? (s.canon r) = u.l2? r := by
  simp only [State.l2?, canon_place s r]

theorem modL2_canon (u s : State) (r : LineRef) (f : L2Line → L2Line) : u.modL2 (s.canon r) f = u.modL2 r f := by
  simp only [State.modL2, canon_place s r]

theorem track_canon (u s : State) (r : LineRef) : u.track (s.canon r) = u.track r := by
  simp only [State.track, State.region?, canon_place s r]

/-- A line in L2 is found by its lookup. -/
theorem ensureL2_here {s : State} {r : LineRef} {y : L2Line} (h : s.l2? r = some y) (ef again : Bool) :
    ∃ u, s.ensureL2 r ef again = some u ∧ Looked s u r y := by
  obtain ⟨v, hv, hr, hl⟩ : ∃ v, (if again then s else s.retLookup (s.canon r)) = v ∧ v = { s with parts := v.parts } ∧
      v.parts.length = s.parts.length := by
    refine ⟨_, rfl, ?_⟩
    split
    · exact ⟨rfl, rfl⟩
    · exact ⟨retLookup_frame _ _, retLookup_length _ _⟩
  have h0 : v.l2? r = some y := by rw [hr]; exact h
  refine ⟨_, by unfold State.ensureL2; simp only [hv, l2?_canon, h0, modL2_canon, track_canon]; rfl, ?_, ?_, ?_, ?_⟩
  · obtain ⟨rg, e⟩ := track_region (State.modL2 { v with stamp := v.stamp + 1 } r fun x => { x with lru := v.stamp }) r
    rw [e, hr]; rfl
  · refine ⟨v.stamp, ?_⟩
    rw [track_frame]
    refine (l2?_modL2 _ r (by intro x; exact ⟨rfl, rfl⟩)).trans ?_
    show Option.map _ (v.l2? r) = _
    rw [h0]; rfl
  · rw [levelOf_track]
    show State.levelOf v r = _
    rw [hr]; rfl
  · rw [track_frame]; exact hl

/-- A line in L2 is not brought in. -/
theorem bringIn_here {s : State} {r : LineRef} {y : L2Line} (h : s.l2? r = some y) (ef again : Bool) :
    ∃ u, s.bringIn r ef again = some u ∧ Looked s u r y := by
  obtain ⟨u, hu, hl⟩ := ensureL2_here h ef again
  exact ⟨u, by unfold State.bringIn; rw [l2?_canon, h]; exact hu, hl⟩

/-- Nothing holds a read of the line: no core owns it, the host holds no copy of it exclusively, and the clock
stays within its interval. -/
theorem admission_read {s : State} {r : LineRef} {y : L2Line} {core : Nat} {t : TS} (ho : s.owner? r.line = none)
    (hs : s.snoop? r.line = none) (hy : s.l2? r = some y)
    (hc : overInterval (s.chip r.chip) (readRts s r y t) = false) : admission s r core false t = none := by
  simp [admission, ho, hs, hy, hc]

/-- Nothing holds a write of the line. -/
theorem admission_write {s : State} {r : LineRef} {y : L2Line} {core : Nat} {t : TS} (ho : s.owner? r.line = none)
    (hs : s.snoop? r.line = none) (hl : s.leaseHold r.line = none) (hy : s.l2? r = some y)
    (hc : overInterval (s.chip r.chip) (writeWts y t) = false) : admission s r core true t = none := by
  simp [admission, ho, hs, hl, hy, hc]

theorem correct_sound {s : State} (h : s.bad = []) (r : LineRef) : s.correct r = s := by
  simp [State.correct, State.correctWhere, h]

theorem correctUnder_sound {s : State} (h : s.bad = []) (r : LineRef) (mask : BitVec 128) : s.correctUnder r mask = s := by
  simp [State.correctUnder, State.correctWhere, h]

theorem mend_sound {s : State} (h : s.bad = []) (line : Nat) (mask : BitVec 128) : s.mend line mask = (s, []) := by
  simp [State.mend, h]

theorem badMask_sound {s : State} (h : s.bad = []) (line : Nat) : badMask s line = 0 := by
  simp [badMask, h]

theorem backIn_here {s : State} {r : LineRef} {y : L2Line} (h : s.l2? r = some y) (ef : Bool) :
    s.backIn r ef = some s := by
  simp [State.backIn, h]

/-! ## The steps of R202 and R203 -/

/-- A read at the home of a line that nothing holds: the lease is extended, the clock follows, and no byte of
memory, no gang and no request changes. -/
theorem readAt_done {s : State} {r : LineRef} {y : L2Line} {core : Nat} {t : TS} (ho : s.owner? r.line = none)
    (hs : s.snoop? r.line = none) (hb : s.bad = []) (hy : s.l2? r = some y)
    (hc : overInterval (s.chip r.chip) (readRts s r y t) = false) (cwts : Option TS) (ef again : Bool) :
    ∃ u ren, readAt s r core t cwts ef again = .done u y.wts (readRts s r y t) ren ∧
      u = { s with parts := u.parts, stamp := u.stamp, l2 := u.l2, regions := u.regions, chips := u.chips } ∧
      (∃ n, u.l2? r = some { y with lru := n, rts := readRts s r y t }) ∧
      u.chips = modAt (fun c => { c with cc := smax c.cc (readRts s r y t) }) r.chip s.chips := by
  obtain ⟨u, hu, hf, ⟨n, hl⟩, hv, -⟩ := bringIn_here hy ef again
  have hub : u.bad = [] := by rw [hf]; exact hb
  have hr : readRts u r { y with lru := n } t = readRts s r y t := by simp only [readRts, hv]
  have ha : admission u r core false t = none :=
    admission_read (y := { y with lru := n }) (by rw [hf]; exact ho) (by rw [hf]; exact hs) hl
      (by rw [hr]; rw [hf]; exact hc)
  have hh : ∃ w ren, homeRead u r t cwts = (w, y.wts, readRts s r y t, ren) ∧
      w = { u with l2 := w.l2, regions := w.regions, chips := w.chips } ∧
      w.l2? r = some { y with lru := n, rts := readRts s r y t } ∧
      w.chips = modAt (fun c => { c with cc := smax c.cc (readRts s r y t) }) r.chip u.chips := by
    simp only [homeRead, hl, hr]
    split
    · refine ⟨_, _, rfl, rfl, ?_, rfl⟩
      exact (l2?_modL2 _ _ (by intro x; exact ⟨rfl, rfl⟩)).trans (by rw [hl]; rfl)
    · refine ⟨_, _, rfl, rfl, ?_, rfl⟩
      exact (l2?_modL2 _ _ (by intro x; exact ⟨rfl, rfl⟩)).trans (by rw [hl]; rfl)
  obtain ⟨w, ren, he, hw, hwl, hwc⟩ := hh
  refine ⟨w, ren, ?_, ?_, ⟨n, hwl⟩, ?_⟩
  · simp only [readAt, admission_read ho hs hy hc, hu, ha, correct_sound hub, backIn_here hl, he]
  · rw [hw, hf]
  · rw [hwc, hf]

/-- A write at the home of a line that nothing holds: the masked bytes are new, the lease is that of R203, the
clock follows, and no gang and no request changes. -/
theorem writeAt_done {s : State} {r : LineRef} {y : L2Line} {core : Nat} {t : TS} (ho : s.owner? r.line = none)
    (hs : s.snoop? r.line = none) (hd : s.leaseHold r.line = none) (hb : s.bad = []) (hy : s.l2? r = some y)
    (hc : overInterval (s.chip r.chip) (writeWts y t) = false) (mask : BitVec 128) (data : List Byte) (ef again : Bool) :
    ∃ u, writeAt s r core t mask data ef again = .done u (writeWts y t) (writeWts y t) false ∧
      u = { s with parts := u.parts, stamp := u.stamp, l2 := u.l2, regions := u.regions, chips := u.chips
                   mem := u.mem, launches := u.launches, lwaits := u.lwaits } ∧
      u.mem = (s.pokeMasked (r.line * 128) 0 mask data).mem ∧
      (∃ n, u.l2? r = some { y with lru := n, wts := writeWts y t, rts := writeWts y t, dirty := true }) ∧
      u.chips = modAt (fun c => { c with cc := smax c.cc (writeWts y t) }) r.chip s.chips := by
  obtain ⟨u, hu, hf, ⟨n, hl⟩, hv, -⟩ := bringIn_here hy ef again
  have hub : u.bad = [] := by rw [hf]; exact hb
  have ha : admission u r core true t = none :=
    admission_write (y := { y with lru := n }) (by rw [hf]; exact ho) (by rw [hf]; exact hs) (by rw [hf]; exact hd) hl
      (by rw [hf]; exact hc)
  obtain ⟨e, he, hew⟩ : ∃ e, u.endWait r.line = e ∧ e = { u with lwaits := e.lwaits } := by
    refine ⟨_, rfl, ?_⟩
    unfold State.endWait; split <;> rfl
  have hel : e.l2? r = some { y with lru := n } := by rw [hew]; exact hl
  have hh : ∃ w, homeWrite e r t mask data = (w, writeWts y t) ∧
      w = { e with l2 := w.l2, regions := w.regions, chips := w.chips, mem := w.mem, launches := w.launches } ∧
      w.mem = (e.pokeMasked (r.line * 128) 0 mask data).mem ∧
      w.l2? r = some { y with lru := n, wts := writeWts y t, rts := writeWts y t, dirty := true } ∧
      w.chips = modAt (fun c => { c with cc := smax c.cc (writeWts y t) }) r.chip e.chips := by
    have hw : writeWts { y with lru := n } t = writeWts y t := rfl
    simp only [homeWrite, hel, hw]
    refine ⟨_, rfl, ?_⟩
    have hq : ∃ m ls, ((e.modL2 r fun x => { x with wts := writeWts y t, rts := writeWts y t, dirty := true }).pokeMasked
        (r.line * 128) 0 mask data) = { (e.modL2 r fun x => { x with wts := writeWts y t, rts := writeWts y t, dirty := true })
          with mem := m, launches := ls } ∧ m = (e.pokeMasked (r.line * 128) 0 mask data).mem :=
      ⟨_, _, State.pokeMasked_frame _ _ _ _ _, State.pokeMasked_mem_congr (by rfl) _ _ _ _⟩
    obtain ⟨m, ls, hq, hm⟩ := hq
    rw [hq]
    have h2 : (e.modL2 r fun x => { x with wts := writeWts y t, rts := writeWts y t, dirty := true }).l2? r =
        some { y with lru := n, wts := writeWts y t, rts := writeWts y t, dirty := true } :=
      (l2?_modL2 _ _ (by intro x; exact ⟨rfl, rfl⟩)).trans (by rw [hel]; rfl)
    split
    · rw [jumped_frame]
      exact ⟨rfl, hm, h2, rfl⟩
    · exact ⟨rfl, hm, h2, rfl⟩
  obtain ⟨w, hq, hw, hwm, hwl, hwc⟩ := hh
  refine ⟨w, ?_, ?_, ?_, ⟨n, hwl⟩, ?_⟩
  · simp only [writeAt, admission_write ho hs hd hy hc, hu, ha, correctUnder_sound hub, backIn_here hl, mend_sound hub, List.foldl_nil,
      he, hq]
  · rw [hw, hew, hf]
  · rw [hwm]; exact State.pokeMasked_mem_congr (by rw [hew, hf]) _ _ _ _
  · rw [hwc, hew, hf]

end Sys2Proof.Machine
end

