-- ==== Sys2Proof/Laws/LaneWord.lean ====
section
/-!
SUPPORT. What the shared operation of lane words does, said once: the marks of the sources, the write of
the destination, and the word as a whole when it issues normally (R39, R48, R52, R54).
-/

namespace Sys2Proof.Machine

open Sys2Proof.Safety

/-! ## Marks -/

/-- A lane with the marks of the sources applied. -/
def Lane.marked (srcs : List Src) (l : Lane) : Lane :=
  { l with n := markN srcs l.n, q := markQ srcs l.q }

theorem markN_nil (n : List Word) : markN [] n = n := by simp [markN, lastUsed, imap_id]
theorem markQ_nil (q : List Word) : markQ [] q = q := by simp [markQ, lastUsed, imap_id]

theorem lastUsed_cons (a : Src) (srcs : List Src) (r : Nat) :
    lastUsed (a :: srcs) r = (lastUsed [a] r || lastUsed srcs r) := by simp [lastUsed]

theorem markN_cons (a : Src) (srcs : List Src) (n : List Word) :
    markN (a :: srcs) n = markN srcs (markN [a] n) := by
  simp only [markN, imap_imap]
  congr 1; funext r v
  rw [lastUsed_cons]
  cases lastUsed [a] r <;> by_cases h : r < 16 <;> simp [h]

theorem markQ_cons (a : Src) (srcs : List Src) (q : List Word) :
    markQ (a :: srcs) q = markQ srcs (markQ [a] q) := by
  simp only [markQ, imap_imap]
  congr 1; funext r v
  rw [lastUsed_cons]
  cases lastUsed [a] (16 + r) <;> simp

theorem marked_nil (l : Lane) : l.marked [] = l := by simp [Lane.marked, markN_nil, markQ_nil]
theorem marked_cons (a : Src) (srcs : List Src) (l : Lane) :
    l.marked (a :: srcs) = (l.marked [a]).marked srcs := by
  simp [Lane.marked, ← markN_cons, ← markQ_cons]

theorem lastUsed_one (c : BitVec 7) (r : Nat) :
    lastUsed [.s7 c] r = (s7last c && s7reg c == r) := by simp [lastUsed]

theorem marked_named (c : BitVec 7) (l : Lane) (h : s7last c = true) (hr : s7reg c < 16) :
    l.marked [.s7 c] = { l with n := modAt (fun _ => poison) (s7reg c) l.n } := by
  have hq : ∀ k, (s7reg c == 16 + k) = false := by intro k; simp; omega
  have hQ : markQ [.s7 c] l.q = l.q := by simp [markQ, lastUsed_one, hq, imap_id]
  have hN : markN [.s7 c] l.n = modAt (fun _ => poison) (s7reg c) l.n := by
    simp only [markN, modAt_eq_imap, lastUsed_one, h, Bool.true_and, beq_iff_eq]
    congr 1; funext k v
    by_cases e : s7reg c = k
    · simp [e, show k < 16 by omega]
    · simp [e, Ne.symm e]
  simp [Lane.marked, hQ, hN]

theorem marked_queued (c : BitVec 7) (l : Lane) (h : s7last c = true) (hr : ¬ s7reg c < 16) :
    l.marked [.s7 c] = { l with q := modAt (fun _ => poison) (s7reg c - 16) l.q } := by
  have hn : ∀ k, ¬ (k < 16 ∧ s7reg c = k) := by intro k; omega
  have hN : markN [.s7 c] l.n = l.n := by simp [markN, lastUsed_one, h, hn, imap_id]
  have hQ : markQ [.s7 c] l.q = modAt (fun _ => poison) (s7reg c - 16) l.q := by
    simp only [markQ, modAt_eq_imap, lastUsed_one, h, Bool.true_and, beq_iff_eq]
    congr 1; funext k v
    have e : s7reg c = 16 + k ↔ k = s7reg c - 16 := by omega
    simp only [e]
  simp [Lane.marked, hQ, hN]

theorem marked_unused (a : Src) (l : Lane) (h : ∀ c, a = .s7 c → s7last c = false) : l.marked [a] = l := by
  have : lastUsed [a] = fun _ => false := by
    funext r
    cases a <;> simp [lastUsed]
    rename_i c; simp [h c rfl]
  simp [Lane.marked, markN, markQ, this, imap_id]

/-- What the marks leave of a slice: its lanes marked, and nothing else but timing and the operand
cache. -/
structure Slice.MarkedTo (srcs : List Src) (old new : Slice) : Prop where
  lanes : new.lanes = old.lanes.map (Lane.marked srcs)
  rest  : new = { old with lanes := new.lanes, nT := new.nT, opc := new.opc }

theorem Slice.mapLanes_const (sl : Slice) (f : Lane → Lane) :
    (sl.mapLanes fun _ l => f l).lanes = sl.lanes.map f := by
  apply List.ext_getElem?; intro k; simp [Slice.mapLanes]

theorem Slice.mark_spec (sl : Slice) (a : Src) : Slice.MarkedTo [a] sl (sl.mark a) := by
  have idc : ∀ (h : ∀ c, a = .s7 c → s7last c = false), sl.lanes = sl.lanes.map (Lane.marked [a]) := by
    intro h
    rw [funext fun l => marked_unused a l h]; simp
  cases a with
  | g7 c k => exact ⟨idc (by simp), rfl⟩
  | mom i => exact ⟨idc (by simp), rfl⟩
  | s7 c =>
    by_cases h : s7last c = true
    · by_cases hr : s7reg c < 16
      · refine ⟨?_, by simp [Slice.mark, h, hr, Slice.mapLanes]⟩
        simp only [Slice.mark, h, hr, if_true, Slice.mapLanes_const]
        rw [funext fun l => marked_named c l h hr]
      · refine ⟨?_, by simp [Slice.mark, h, hr, Slice.mapLanes]⟩
        simp only [Slice.mark, h, hr, if_true, if_false, Slice.mapLanes_const]
        rw [funext fun l => marked_queued c l h hr]
    · have h' : s7last c = false := by simpa using h
      have := idc (by rintro _ ⟨⟩; exact h')
      by_cases k : s7keep c = true <;>
        exact ⟨by simpa [Slice.mark, h', k] using this, by simp [Slice.mark, h', k]⟩

theorem Slice.marks_spec (srcs : List Src) (sl : Slice) : Slice.MarkedTo srcs sl (srcs.foldl Slice.mark sl) := by
  induction srcs generalizing sl with
  | nil => exact ⟨by simp [funext marked_nil], rfl⟩
  | cons a srcs ih =>
    have h1 := Slice.mark_spec sl a
    have h2 := ih (sl.mark a)
    refine ⟨?_, ?_⟩
    · rw [List.foldl_cons, h2.lanes, h1.lanes, List.map_map]
      congr 1; funext l; simp [marked_cons a srcs l]
    · rw [List.foldl_cons, h2.rest, h1.rest]

/-! ## The destination -/

/-- What a slice keeps when results are delivered: all but its lanes and timing. -/
def Slice.SameBut (old new : Slice) : Prop :=
  new = { old with lanes := new.lanes, nT := new.nT, qT := new.qT, mT := new.mT, opc := new.opc }

theorem Slice.SameBut.trans {a b c : Slice} (h : a.SameBut b) (k : b.SameBut c) : a.SameBut c := by
  unfold Slice.SameBut at *; rw [k, h]

/-- Every lane is written as `LaneWritten` says, each with its own value. -/
def Slice.AllWritten (srcs : List Src) (d : Dst) (v : Nat → Option Word) (old new : Slice) : Prop :=
  new.lanes.length = old.lanes.length ∧ ∀ j l, old.lanes[j]? = some l →
    ∃ l', new.lanes[j]? = some l' ∧ LaneWritten srcs d (v j) l l'

theorem Slice.mapLanes_written {srcs : List Src} {d : Dst} {v : Nat → Option Word} (sl : Slice)
    (f : Nat → Lane → Lane) (h : ∀ j l, LaneWritten srcs d (v j) l (f j l)) :
    sl.AllWritten srcs d v (sl.mapLanes f) := by
  refine ⟨by simp [Slice.mapLanes], fun j l hl => ⟨f j l, by simp [Slice.mapLanes, hl], h j l⟩⟩

theorem Lane.setPred_rest (l : Lane) (k : Nat) (b : Bool) : l.setPred k b = { l with p := (l.setPred k b).p } := by
  unfold Lane.setPred; split <;> rfl

/-- A delivery to a destination (R54). -/
theorem Slice.deliver_spec (sl : Slice) (d : Dst) (t : Timing) (v : Nat → Option Word) :
    sl.AllWritten [] d v (sl.deliver d t v) ∧ sl.SameBut (sl.deliver d t v) := by
  have mm : ∀ (f g : Nat → Lane → Lane) (s : Slice) T,
      ({ s.mapLanes f with nT := T }.mapLanes g) = { s.mapLanes (fun j l => g j (f j l)) with nT := T } := by
    intro f g s T; simp [Slice.mapLanes, imap_imap]
  cases d with
  | d5 n =>
    by_cases h1 : n < 16
    · have h2 : n ≤ 16 := by omega
      refine ⟨?_, by simp [Slice.deliver, h1, h2, Slice.pushQ, Slice.writeNamed, Slice.mapLanes, Slice.SameBut]⟩
      simp only [Slice.deliver, h1, h2, if_true, Slice.pushQ, Slice.writeNamed, mm]
      refine Slice.mapLanes_written (d := .d5 n) (v := v) sl _ fun j l => ?_
      cases hv : v j <;> constructor <;> simp [markN_nil, markQ_nil, writtenN, writtenM, writtenP, Dst.pushes, h1, h2]
    · by_cases h2 : n ≤ 16
      · refine ⟨?_, by simp [Slice.deliver, h1, h2, Slice.pushQ, Slice.mapLanes, Slice.SameBut]⟩
        simp only [Slice.deliver, h1, h2, if_true, if_false, Slice.pushQ]
        refine Slice.mapLanes_written (d := .d5 n) (v := v) sl _ fun j l => ?_
        cases hv : v j <;> constructor <;> simp [markN_nil, markQ_nil, writtenN, writtenM, writtenP, Dst.pushes, h1, h2]
      · refine ⟨⟨by simp [Slice.deliver, h1, h2], fun j l hl => ⟨l, by simp [Slice.deliver, h1, h2, hl], ?_⟩⟩,
          by simp [Slice.deliver, h1, h2, Slice.SameBut]⟩
        cases hv : v j <;> constructor <;> simp [markN_nil, markQ_nil, writtenN, writtenM, writtenP, Dst.pushes, h1, h2]
  | push =>
    refine ⟨Slice.mapLanes_written (d := .push) (v := v) sl _ fun j l => ?_,
      by simp [Slice.deliver, Slice.pushQ, Slice.mapLanes, Slice.SameBut]⟩
    cases hv : v j <;> constructor <;> simp [markN_nil, markQ_nil, writtenN, writtenM, writtenP, Dst.pushes]
  | pred p =>
    refine ⟨Slice.mapLanes_written (d := .pred p) (v := v) sl _ fun j l => ?_,
      by simp [Slice.deliver, Slice.mapLanes, Slice.SameBut]⟩
    cases hv : v j
    · constructor <;> simp [markN_nil, markQ_nil, writtenN, writtenM, writtenP, Dst.pushes]
    · simp only
      rw [Lane.setPred_rest]
      constructor <;> simp [markN_nil, markQ_nil, writtenN, writtenM, writtenP, Dst.pushes]
  | mom m =>
    refine ⟨Slice.mapLanes_written (d := .mom m) (v := v) sl _ fun j l => ?_,
      by simp [Slice.deliver, Slice.writeMom, Slice.mapLanes, Slice.SameBut]⟩
    cases hv : v j <;> constructor <;> simp [markN_nil, markQ_nil, writtenN, writtenM, writtenP, Dst.pushes]
  | none =>
    refine ⟨⟨rfl, fun j l hl => ⟨l, hl, ?_⟩⟩, rfl⟩
    constructor <;> simp [markN_nil, markQ_nil, writtenN, writtenM, writtenP, Dst.pushes]

/-- A reservation writes as a delivery to lanes that get no value (R48, R59). -/
theorem Slice.reserve_spec (sl : Slice) (d : Dst) (op : Nat) :
    sl.AllWritten [] d (fun _ => none) (sl.reserve d op) ∧ sl.SameBut (sl.reserve d op) := by
  have self : ∀ (l : Lane) (d : Dst), d.pushes = false → LaneWritten [] d none l l := by
    intro l d h
    constructor <;> simp [markN_nil, markQ_nil, h, writtenN, writtenM, writtenP]
  cases d with
  | d5 n =>
    by_cases h1 : n < 16
    · have h2 : n ≤ 16 := by omega
      refine ⟨?_, by simp [Slice.reserve, h1, h2, Slice.pushQ, Slice.mapLanes, Slice.SameBut]⟩
      simp only [Slice.reserve, h1, h2, if_true, Slice.pushQ]
      refine Slice.mapLanes_written (d := .d5 n) sl _ fun j l => ?_
      constructor <;> simp [markN_nil, markQ_nil, writtenN, writtenM, writtenP, Dst.pushes, h2]
    · by_cases h2 : n ≤ 16
      · refine ⟨?_, by simp [Slice.reserve, h1, h2, Slice.pushQ, Slice.mapLanes, Slice.SameBut]⟩
        simp only [Slice.reserve, h1, h2, if_true, if_false, Slice.pushQ]
        refine Slice.mapLanes_written (d := .d5 n) sl _ fun j l => ?_
        constructor <;> simp [markN_nil, markQ_nil, writtenN, writtenM, writtenP, Dst.pushes, h2]
      · refine ⟨⟨by simp [Slice.reserve, h1, h2], fun j l hl => ⟨l, by simp [Slice.reserve, h1, h2, hl],
          self l _ (by simp [Dst.pushes, h2])⟩⟩, by simp [Slice.reserve, h1, h2, Slice.SameBut]⟩
  | push =>
    refine ⟨Slice.mapLanes_written (d := .push) sl _ fun j l => ?_,
      by simp [Slice.reserve, Slice.pushQ, Slice.mapLanes, Slice.SameBut]⟩
    constructor <;> simp [markN_nil, markQ_nil, writtenN, writtenM, writtenP, Dst.pushes]
  | pred p => exact ⟨⟨rfl, fun j l hl => ⟨l, hl, self l _ rfl⟩⟩, rfl⟩
  | mom m => exact ⟨⟨rfl, fun j l hl => ⟨l, hl, self l _ rfl⟩⟩, rfl⟩
  | none => exact ⟨⟨rfl, fun j l hl => ⟨l, hl, self l _ rfl⟩⟩, rfl⟩

/-- A write over marked lanes is a write of a word with those marks. -/
theorem written_after_marks {srcs : List Src} {d : Dst} {v : Option Word} {l l' : Lane}
    (h : LaneWritten [] d v (l.marked srcs) l') : LaneWritten srcs d v l l' := by
  constructor
  · rw [h.n, markN_nil]; rfl
  · rw [h.q, markQ_nil]; rfl
  · rw [h.m]; rfl
  · rw [h.p]; unfold writtenP Lane.setPred; split <;> (try split) <;> rfl
  · rw [h.dead]; rfl

theorem Slice.AllWritten.after_marks {srcs : List Src} {d : Dst} {v : Nat → Option Word} {a b c : Slice}
    (m : Slice.MarkedTo srcs a b) (h : b.AllWritten [] d v c) : a.AllWritten srcs d v c := by
  refine ⟨by rw [h.1, m.lanes]; simp, fun j l hl => ?_⟩
  obtain ⟨l', e, w⟩ := h.2 j (l.marked srcs) (by rw [m.lanes]; simp [hl])
  exact ⟨l', e, written_after_marks w⟩

/-! ## The commit of a lane word -/

theorem Slice.stick_eq (sl : Slice) (b : Word) (c : Bool) :
    sl.stick b c = { sl with status := sl.status ||| (if c then b else 0) } := by
  cases c <;> simp [Slice.stick]

/-- A gang whose issuing slices are changed one by one. -/
theorem mapSlices_gangWith {x : Cx} {R : Nat → Slice → Slice → Prop} {f : Nat → Slice → Slice}
    (h : ∀ i sl, x.g.slices[i]? = some sl → x.ss.contains i = true → R i sl (f i sl)) :
    GangWith x R (x.mapSlices f) := by
  refine ⟨rfl, by simp [Cx.mapSlices], fun i sl hs => ?_⟩
  refine ⟨if x.ss.contains i then f i sl else sl, by simp [Cx.mapSlices, hs], ?_⟩
  by_cases hc : x.ss.contains i = true
  · simp only [hc, if_true]; exact h i sl hs hc
  · simp only [hc]; rfl

/-- A change of the slices after another is one change. -/
theorem mapSlices_mapSlices (x : Cx) (f k : Nat → Slice → Slice) :
    Cx.mapSlices ⟨x.mapSlices f, x.grp, x.ss⟩ k = x.mapSlices fun i sl => k i (f i sl) := by
  simp only [Cx.mapSlices, imap_imap]
  congr 1; congr 1; funext i sl
  split <;> simp_all

/-- The new slice of a lane word that commits, from the slice with PRD noted. -/
def commitSlice (s : State) (W : Shape) (fl : FFlags) (outs : Nat → LaneOut) (op : Option Nat) (i : Nat)
    (sl0 : Slice) : Slice :=
  let v := outAt outs sl0 i
  let d := W.dest sl0.hints
  let sl := W.srcs.foldl Slice.mark sl0
  let sl := sl.stick sISAT (slAny LaneOut.isat outs i sl0)
  let sl := sl.stick sIDZ (slAny LaneOut.idz outs i sl0)
  let sl := sl.stick sMVCL (slAny LaneOut.mvcl outs i sl0)
  let sl := match op with
    | some id => sl.reserve d id
    | none => (sl.raise fl).deliver d ⟨sl0.clock, s.beat, W.lat, none⟩ v
  { sl with
      pc := sl.pc + 4
      hints := Hints.none
      clock := sl0.clock + 1 + W.st
      readyAt := s.beat + 1 + W.st
      since := s.beat + 1 + W.st }

theorem commit_eq (x : Cx) (s : State) (W : Shape) (allFl : Bool) (outs : Nat → LaneOut) (op : Option Nat) :
    x.commit s W allFl outs [] op = x.mapSlices fun i sl0 =>
      commitSlice s W (if allFl then wordFlags x outs else slFlags outs i sl0) outs op i sl0 := by
  simp only [Cx.commit, commitSlice, wordFlags, List.contains_nil, Bool.false_eq_true, if_false]
  all_goals rfl

/-- The slice a lane word leaves when its results come at once, or are reserved. -/
theorem commitSlice_spec (s : State) (W : Shape) (fl : FFlags) (outs : Nat → LaneOut) (op : Option Nat)
    (i : Nat) (sl : Slice) (b : Bool) :
    SliceWritten s.beat W.st W.srcs (W.dest sl.hints) (if op.isSome then 0 else fl)
      ((if b then sPRD else 0) ||| (if slAny LaneOut.isat outs i sl then sISAT else 0) |||
        (if slAny LaneOut.idz outs i sl then sIDZ else 0) |||
        (if slAny LaneOut.mvcl outs i sl then sMVCL else 0))
      (if op.isSome then fun _ => none else outAt outs sl i) sl
      (commitSlice s W fl outs op i (sl.stick sPRD b)) := by
  have hm := Slice.marks_spec W.srcs (sl.stick sPRD b)
  generalize hA : W.srcs.foldl Slice.mark (sl.stick sPRD b) = A at hm
  have ha : ∀ p, slAny p outs i (sl.stick sPRD b) = slAny p outs i sl := by
    intro p; simp only [Slice.stick_eq]; rfl
  have hv : outAt outs (sl.stick sPRD b) i = outAt outs sl i := by
    simp only [Slice.stick_eq]; rfl
  have hh : (sl.stick sPRD b).hints = sl.hints := by simp only [Slice.stick_eq]
  have hc : (sl.stick sPRD b).clock = sl.clock := by simp only [Slice.stick_eq]
  have hlan : (sl.stick sPRD b).lanes = sl.lanes := by simp only [Slice.stick_eq]
  have hM : Slice.MarkedTo W.srcs sl { A with status := sl.status } := by
    refine ⟨by rw [← hlan]; exact hm.lanes, ?_⟩
    have := hm.rest
    rw [Slice.stick_eq] at this
    rw [this]
  cases op with
  | none =>
    simp only [commitSlice, hA, ha, hv, hh, hc, Option.isSome_none, Bool.false_eq_true, if_false]
    simp only [Slice.stick_eq, Slice.raise]
    obtain ⟨hw, hr⟩ := Slice.deliver_spec ({ A with
      status := ((A.status ||| if slAny LaneOut.isat outs i sl then sISAT else 0) |||
        if slAny LaneOut.idz outs i sl then sIDZ else 0) ||| if slAny LaneOut.mvcl outs i sl then sMVCL else 0
      fflags := A.fflags ||| fl.setWidth 64 } : Slice) (W.dest sl.hints)
      ⟨sl.clock, s.beat, W.lat, none⟩ (outAt outs sl i)
    have hw := Slice.AllWritten.after_marks hM hw
    generalize Slice.deliver _ _ _ _ = C at hw hr ⊢
    have hA' := hm.rest
    rw [Slice.stick_eq] at hA'
    constructor
    case lanes => exact hw
    all_goals first | rfl | (show C.pc + 4 = _) | skip
    all_goals (rw [hr, hA']; try rfl)
    simp [BitVec.or_assoc]
  | some id =>
    simp only [commitSlice, hA, ha, hh, hc, Option.isSome_some, if_true]
    simp only [Slice.stick_eq]
    obtain ⟨hw, hr⟩ := Slice.reserve_spec ({ A with
      status := ((A.status ||| if slAny LaneOut.isat outs i sl then sISAT else 0) |||
        if slAny LaneOut.idz outs i sl then sIDZ else 0) ||| if slAny LaneOut.mvcl outs i sl then sMVCL else 0 } : Slice)
      (W.dest sl.hints) id
    have hw := Slice.AllWritten.after_marks hM hw
    generalize Slice.reserve _ _ _ = C at hw hr ⊢
    have hA' := hm.rest
    rw [Slice.stick_eq] at hA'
    constructor
    case lanes => exact hw
    all_goals first | rfl | (show C.pc + 4 = _) | skip
    all_goals (rw [hr, hA']; try rfl)
    · simp
    · simp [BitVec.or_assoc]

/-! ## A lane word as a whole -/

theorem lowest_nil : lowest [] = none := rfl

theorem maskOf_nil : maskOf [] = 0 := rfl

theorem maskOfP_none {x : Cx} {p : Nat → Bool} (h : ∀ L ∈ x.actives, p L = false) : x.maskOfP p = 0 := by
  have : x.actives.filter p = [] := by
    rw [List.filter_eq_nil_iff]; intro L hL; simp [h L hL]
  rw [Cx.maskOfP, this]; rfl

theorem commonCauses_nil {s : State} {x : Cx} {W : Shape} (h : NoCommonFault s x W) :
    commonCauses x W.chk W.srcs (allVals s.beat x.g W.srcs) = [] := by
  simp only [commonCauses, List.append_eq_nil_iff]
  refine ⟨if_neg ?_, if_neg ?_⟩
  · intro hx
    simp only [Bool.and_eq_true, List.any_eq_true] at hx
    obtain ⟨hc, i, hi, hx⟩ := hx
    split at hx
    · rename_i sl hs
      simp only [Bool.and_eq_true, List.any_eq_true] at hx
      obtain ⟨hk, src, hm, hu⟩ := hx
      simp [h.stall hc i hi sl hs hk src hm] at hu
    · simp at hx
  · rw [maskOfP_none]
    · simp
    · intro L hL
      cases hs : x.sliceOf L with
      | none => simp
      | some sl =>
        cases hk : sl.hasStatus sPRE
        · simp [hk]
        · have := h.poison L hL sl hs hk
          simp [this]

theorem laneCauses_nil {x : Cx} {en : Nat → FFlags} {outs : Nat → LaneOut} (h : NoTrap x en outs) :
    laneCauses x outs en = [] := by
  have h7 : x.maskOfP (fun L => (outs L).fl &&& en L != 0) = 0 :=
    maskOfP_none fun L hL => by simp [(h L hL).1]
  have hc : (x.actives.filterMap fun L => (outs L).cause.map fun c => (c, maskOf [L])) = [] := by
    rw [List.filterMap_eq_nil_iff]; intro L hL; simp [(h L hL).2]
  simp only [laneCauses]
  rw [h7, hc]; rfl

/-- A stream whose interlocks do not wait is not blocked (R59, R99). -/
theorem notBlocked {s : State} {x : Cx} {srcs : List Src} {d : Dst} (h : x.pending s srcs d = false) :
    x.blocked s = false := by
  unfold Cx.pending at h
  exact (Bool.or_eq_false_iff.mp h).2

/-- The gate of lane words lets a word pass that nothing holds and that raises no fault. -/
theorem laneGateW_passes {s : State} {x : Cx} {W : Shape} {wait : Cx → List (List Word) → Option State}
    {pre : Cx → List (List Word) → List (Nat × Word)} {en : Cx → Nat → FFlags}
    {f : Cx → List (List Word) → Nat → LaneOut}
    {k : Cx → List (List Word) → (Nat → LaneOut) → List Nat → State}
    (hi : Issues s x W) (hw : wait x (allVals s.beat x.g W.srcs) = none) (hc : NoCommonFault s x W)
    (hp : pre x (allVals s.beat x.g W.srcs) = [])
    (ht : NoTrap x (en x) (f x (allVals s.beat x.g W.srcs))) :
    laneGateW s W wait pre en f k =
      .next (k x (allVals s.beat x.g W.srcs) (f x (allVals s.beat x.g W.srcs)) []) := by
  have hg : groupDamaged s x W.srcs W.preds = false := by simp [groupDamaged, hi.sound]
  have hd : dyingLanes s x W = [] := by simp [dyingLanes, hi.sound]
  have hx : x.without [] = x := rfl
  have hv : hush [] (allVals s.beat x.g W.srcs) = allVals s.beat x.g W.srcs := rfl
  have hb := notBlocked hi.free
  simp [laneGateW, withStream, hi.stream, hb, hi.legal, hi.hints, hi.free, hg, hw, commonCauses_nil hc, hp,
    laneCauses_nil ht, lowest_nil, hd, hx, hv]

theorem rewritten_sound {s : State} (h : s.bad = []) (g : Nat) (a b : List Nat) (d : Dst) :
    s.rewritten g a b d = s := by simp [State.rewritten, h]

theorem repairWhere_sound {s : State} (h : s.bad = []) (x : Cx) (hit : Storage → Bool) :
    s.repairWhere x hit = s := by simp [State.repairWhere, h]

theorem repairReads_sound {s : State} (h : s.bad = []) (x : Cx) (W : Shape) : s.repairReads x W = s :=
  repairWhere_sound h x _

theorem killLanes_nil (s : State) (g : Nat) : killLanes s g [] = s := rfl

/-- The gang of a word that commits, poison noted first. -/
theorem commit_gangWith (s : State) (x : Cx) (W : Shape) (allFl : Bool) (vals : List (List Word))
    (outs : Nat → LaneOut) (op : Option Nat) :
    GangWith x (fun i old new => SliceWritten s.beat W.st W.srcs (W.dest old.hints)
      (if op.isSome then 0 else if allFl then wordFlags x outs else slFlags outs i old)
      (stuck vals outs i old) (if op.isSome then fun _ => none else outAt outs old i) old new)
      ((x.notePoison vals).commit s W allFl outs [] op) := by
  have ha : ∀ i (sl : Slice) b, slFlags outs i (sl.stick sPRD b) = slFlags outs i sl := by
    intro i sl b; simp only [Slice.stick_eq]; rfl
  have hall : wordFlags (x.notePoison vals) outs = wordFlags x outs := by
    simp only [wordFlags, Cx.notePoison]
    congr 1; funext f i
    simp only [Gang.slice?, Cx.mapSlices, imap_zero_getElem?]
    cases x.g.slices[i]? with
    | none => rfl
    | some sl => simp only [Option.map_some]; split <;> simp [ha]
  rw [commit_eq, hall]
  have this : x.notePoison vals = ⟨x.mapSlices (fun i sl => sl.stick sPRD
      ((rangeFrom 0 4).any fun j => sl.active j && (at' [] vals (4 * i + j)).contains poison)), x.grp, x.ss⟩ := rfl
  rw [this, mapSlices_mapSlices]
  refine mapSlices_gangWith fun i sl hs hc => ?_
  simp only [ha]
  exact commitSlice_spec s W _ outs op i sl _

/-- A lane word whose results come at once, issued normally. -/
theorem runLaneWith_done {s : State} {x : Cx} {W : Shape} {allFl : Bool}
    {pre : Cx → List (List Word) → List (Nat × Word)} {en : Cx → Nat → FFlags}
    {f : Cx → List (List Word) → Nat → LaneOut} (hb : W.sb = none)
    (hi : Issues s x W) (hc : NoCommonFault s x W) (hp : pre x (allVals s.beat x.g W.srcs) = [])
    (ht : NoTrap x (en x) (f x (allVals s.beat x.g W.srcs))) :
    ∃ t, runLaneWith s W allFl pre en f = .next t ∧
      LaneDone s t x W (fun i old => if allFl then wordFlags x (f x (allVals s.beat x.g W.srcs))
        else slFlags (f x (allVals s.beat x.g W.srcs)) i old) (f x (allVals s.beat x.g W.srcs)) := by
  refine ⟨_, laneGateW_passes (wait := fun _ _ => none) (k := finishLane s W allFl) hi rfl hc hp ht, _, ?_, commit_gangWith s x W allFl _ _ none⟩
  simp only [finishLane, hb, repairReads_sound hi.sound, rewritten_sound hi.sound, killLanes_nil]

/-- A plain lane word whose results come at once, issued normally. -/
theorem runLane_done {s : State} {x : Cx} {W : Shape}
    {pre : Cx → List (List Word) → List (Nat × Word)}
    {f : Cx → List (List Word) → Nat → LaneOut} (hb : W.sb = none)
    (hi : Issues s x W) (hc : NoCommonFault s x W) (hp : pre x (allVals s.beat x.g W.srcs) = [])
    (ht : NoTrap x x.enOf (f x (allVals s.beat x.g W.srcs))) :
    ∃ t, runLane s W pre f = .next t ∧
      LaneDone s t x W (slFlags (f x (allVals s.beat x.g W.srcs))) (f x (allVals s.beat x.g W.srcs)) :=
  runLaneWith_done (allFl := false) hb hi hc hp ht

/-- A scoreboarded lane word with its results known, issued normally. -/
theorem runLaneWith_issued {s : State} {x : Cx} {W : Shape} {allFl : Bool} {lo hi : Nat}
    {pre : Cx → List (List Word) → List (Nat × Word)} {en : Cx → Nat → FFlags}
    {f : Cx → List (List Word) → Nat → LaneOut} (hb : W.sb = some (lo, hi)) (hle : lo ≤ hi)
    (hi' : Issues s x W) (hc : NoCommonFault s x W) (hp : pre x (allVals s.beat x.g W.srcs) = [])
    (ht : NoTrap x (en x) (f x (allVals s.beat x.g W.srcs))) :
    ∃ t, runLaneWith s W allFl pre en f = .next t ∧
      LaneIssued s t x W lo hi (f x (allVals s.beat x.g W.srcs)) := by
  refine ⟨_, laneGateW_passes (wait := fun _ _ => none) (k := finishLane s W allFl) hi' rfl hc hp ht, ?_⟩
  have hm : Config.choice s.choices % (hi - lo + 1) < hi - lo + 1 := Nat.mod_lt _ (by omega)
  refine ⟨_, s.beat + lo + Config.choice s.choices % (hi - lo + 1),
    newOp { s with choices := s.choices + 1 } x W (f x (allVals s.beat x.g W.srcs)) []
      (s.beat + lo + Config.choice s.choices % (hi - lo + 1)), by omega, by omega, ?_, ?_, ?_, ?_, ?_, ?_, ?_, ?_,
    ?_, ?_, ?_, ?_, commit_gangWith s x W allFl _ _ (some s.fresh)⟩
  rotate_right
  · simp only [finishLane, hb, repairReads_sound hi'.sound, rewritten_sound hi'.sound, killLanes_nil,
      State.returnBeat, State.choose]
    rfl
  all_goals simp [newOp, List.filter_eq_self.2]

end Sys2Proof.Machine
end

