-- ==== Sys2Proof/Laws/LaneForms.lean ====
section
/-!
SUPPORT. How the claims about lane words follow from the shared operation: it is enough that the meaning
is that operation on the row's shape, causes and results.
-/

namespace Sys2Proof.Claims

open Sys2Proof.Machine Sys2Proof.Safety

theorem runsAs_of {i : Instr} {D : LaneWord} (hb : D.shape.sb = none)
    (h : ∀ s, exec i s = runLane s D.shape D.pre D.out) : RunsAs i D := by
  intro s x hi hc hp ht
  rw [h s]
  exact runLane_done hb hi hc hp ht

theorem issuesAs_of {i : Instr} {D : LaneWord} {lo hi : Nat} (hb : D.shape.sb = some (lo, hi)) (hle : lo ≤ hi)
    (h : ∀ s, exec i s = runLane s D.shape D.pre D.out) : IssuesAs i lo hi D := by
  intro s x hi hc hp ht
  rw [h s]
  exact runLaneWith_issued hb hle hi hc hp ht

theorem idivBounds_le (w : BitVec 2) : (idivBounds w).1 ≤ (idivBounds w).2 := by
  unfold idivBounds; split <;> (try split) <;> decide

theorem fdivBounds_le (w : BitVec 2) : (fdivBounds w).1 ≤ (fdivBounds w).2 := by
  unfold fdivBounds; split <;> decide

end Sys2Proof.Claims
end

