-- ==== Sys2Proof/Laws/PerInstr.lean ====
section
/-!
SUPPORT. The families of statements about every instruction, one lemma per constructor: that the word which
encodes it decodes to it (Encodes).
-/

namespace Sys2Proof.Laws.Encodes

/-- Decoding the word that encodes a well-formed instruction gives the instruction. -/
def Statement (i : Instr) : Prop := ∀ w, encode i = some w → i.wf = true → decodeWord w = .ok i

theorem of_pick {i : Instr} {w C p : BitVec 32} {rows : List Row} {row : Row} (he : encode i = some w)
    (hw : w &&& C = p) (hC : C.extractLsb' 26 6 = 63#6)
    (hr : rowsOf (p.extractLsb' 26 6).toNat = rows)
    (hp : reservedPrimary p = false) (hk : pick C p rows = some row)
    (hi : row.instr w = i) : Statement i := by
  intro w' he' hwf
  rw [he] at he'
  cases he'
  have hx := primary_of hw hC
  have hq : reservedPrimary w = false := by unfold reservedPrimary at *; rw [hx]; exact hp
  rw [decodeWord, hq, hx, hr, findRow_of_pick hw _ _ hk]
  simp [hi, hwf]

theorem hnop : Statement .hnop :=
  of_pick (C := 0xFFFFFFFF#32) (p := 0x00000000#32) rfl rfl rfl rfl rfl rfl rfl

theorem hsched (o : OpHsched) : Statement (.hsched o) := by
  intro w h hwf
  cases h
  have hne : ¬ ((0x00000000#32 ||| o.toWord) = 0#32) := by
    intro h0
    have hb := OpHsched.ofWord_or 0#32 o rfl
    rw [h0] at hb
    rw [← hb] at hwf
    revert hwf; decide
  have hw : (0x00000000#32 ||| o.toWord) &&& 0xFFFFFFFC#32 = 0#32 := word_and o.toWord_and rfl
  have hb := OpHsched.ofWord_or 0#32 o rfl
  generalize (0x00000000#32 ||| o.toWord) = w at *
  have hx := primary_of hw rfl
  have hq : reservedPrimary w = false := by unfold reservedPrimary; rw [hx]; rfl
  have h1 : w &&& 0xFFFFFFFF#32 = w := BitVec.and_allOnes
  have hr : rowsOf (w.extractLsb' 26 6).toNat = rows00 := by rw [hx]; rfl
  rw [decodeWord, hq, hr]
  simp only [rows00, findRow, h1, hw, beq_iff_eq, hne, if_false, if_true, hb]
  simp only [Bool.false_eq_true, if_false]
  exact if_pos hwf

theorem himm (o : OpHimm) : Statement (.himm o) :=
  of_pick (C := 0xFC000000#32) rfl (word_and o.toWord_and rfl) rfl rfl rfl rfl
    (congrArg Instr.himm (OpHimm.ofWord_or _ o rfl))

theorem hdst (o : OpHdst) : Statement (.hdst o) :=
  of_pick (C := 0xFFFFFFE0#32) rfl (word_and o.toWord_and rfl) rfl rfl rfl rfl
    (congrArg Instr.hdst (OpHdst.ofWord_or _ o rfl))

theorem hmod (o : OpHmod) : Statement (.hmod o) :=
  of_pick (C := 0xFFFFF010#32) rfl (word_and o.toWord_and rfl) rfl rfl rfl rfl
    (congrArg Instr.hmod (OpHmod.ofWord_or _ o rfl))

theorem iadd (o : OpAB) : Statement (.iadd o) :=
  of_pick (C := 0xFCE00000#32) rfl (word_and o.toWord_and rfl) rfl rfl rfl rfl
    (congrArg Instr.iadd (OpAB.ofWord_or _ o rfl))

theorem isub (o : OpAB) : Statement (.isub o) :=
  of_pick (C := 0xFCE00000#32) rfl (word_and o.toWord_and rfl) rfl rfl rfl rfl
    (congrArg Instr.isub (OpAB.ofWord_or _ o rfl))

theorem iadds (o : OpAB) : Statement (.iadds o) :=
  of_pick (C := 0xFCE00000#32) rfl (word_and o.toWord_and rfl) rfl rfl rfl rfl
    (congrArg Instr.iadds (OpAB.ofWord_or _ o rfl))

theorem iaddu (o : OpAB) : Statement (.iaddu o) :=
  of_pick (C := 0xFCE00000#32) rfl (word_and o.toWord_and rfl) rfl rfl rfl rfl
    (congrArg Instr.iaddu (OpAB.ofWord_or _ o rfl))

theorem isubs (o : OpAB) : Statement (.isubs o) :=
  of_pick (C := 0xFCE00000#32) rfl (word_and o.toWord_and rfl) rfl rfl rfl rfl
    (congrArg Instr.isubs (OpAB.ofWord_or _ o rfl))

theorem isubu (o : OpAB) : Statement (.isubu o) :=
  of_pick (C := 0xFCE00000#32) rfl (word_and o.toWord_and rfl) rfl rfl rfl rfl
    (congrArg Instr.isubu (OpAB.ofWord_or _ o rfl))

theorem imul (o : OpAB) : Statement (.imul o) :=
  of_pick (C := 0xFCE00000#32) rfl (word_and o.toWord_and rfl) rfl rfl rfl rfl
    (congrArg Instr.imul (OpAB.ofWord_or _ o rfl))

theorem imulh (o : OpAB) : Statement (.imulh o) :=
  of_pick (C := 0xFCE00000#32) rfl (word_and o.toWord_and rfl) rfl rfl rfl rfl
    (congrArg Instr.imulh (OpAB.ofWord_or _ o rfl))

theorem iaddG (o : OpAB) : Statement (.iaddG o) :=
  of_pick (C := 0xFCE00000#32) rfl (word_and o.toWord_and rfl) rfl rfl rfl rfl
    (congrArg Instr.iaddG (OpAB.ofWord_or _ o rfl))

theorem isubG (o : OpAB) : Statement (.isubG o) :=
  of_pick (C := 0xFCE00000#32) rfl (word_and o.toWord_and rfl) rfl rfl rfl rfl
    (congrArg Instr.isubG (OpAB.ofWord_or _ o rfl))

theorem iaddsG (o : OpAB) : Statement (.iaddsG o) :=
  of_pick (C := 0xFCE00000#32) rfl (word_and o.toWord_and rfl) rfl rfl rfl rfl
    (congrArg Instr.iaddsG (OpAB.ofWord_or _ o rfl))

theorem iadduG (o : OpAB) : Statement (.iadduG o) :=
  of_pick (C := 0xFCE00000#32) rfl (word_and o.toWord_and rfl) rfl rfl rfl rfl
    (congrArg Instr.iadduG (OpAB.ofWord_or _ o rfl))

theorem isubsG (o : OpAB) : Statement (.isubsG o) :=
  of_pick (C := 0xFCE00000#32) rfl (word_and o.toWord_and rfl) rfl rfl rfl rfl
    (congrArg Instr.isubsG (OpAB.ofWord_or _ o rfl))

theorem isubuG (o : OpAB) : Statement (.isubuG o) :=
  of_pick (C := 0xFCE00000#32) rfl (word_and o.toWord_and rfl) rfl rfl rfl rfl
    (congrArg Instr.isubuG (OpAB.ofWord_or _ o rfl))

theorem imulG (o : OpAB) : Statement (.imulG o) :=
  of_pick (C := 0xFCE00000#32) rfl (word_and o.toWord_and rfl) rfl rfl rfl rfl
    (congrArg Instr.imulG (OpAB.ofWord_or _ o rfl))

theorem imulhG (o : OpAB) : Statement (.imulhG o) :=
  of_pick (C := 0xFCE00000#32) rfl (word_and o.toWord_and rfl) rfl rfl rfl rfl
    (congrArg Instr.imulhG (OpAB.ofWord_or _ o rfl))

theorem and (o : OpAB) : Statement (.and o) :=
  of_pick (C := 0xFCE00000#32) rfl (word_and o.toWord_and rfl) rfl rfl rfl rfl
    (congrArg Instr.and (OpAB.ofWord_or _ o rfl))

theorem or (o : OpAB) : Statement (.or o) :=
  of_pick (C := 0xFCE00000#32) rfl (word_and o.toWord_and rfl) rfl rfl rfl rfl
    (congrArg Instr.or (OpAB.ofWord_or _ o rfl))

theorem xor (o : OpAB) : Statement (.xor o) :=
  of_pick (C := 0xFCE00000#32) rfl (word_and o.toWord_and rfl) rfl rfl rfl rfl
    (congrArg Instr.xor (OpAB.ofWord_or _ o rfl))

theorem andn (o : OpAB) : Statement (.andn o) :=
  of_pick (C := 0xFCE00000#32) rfl (word_and o.toWord_and rfl) rfl rfl rfl rfl
    (congrArg Instr.andn (OpAB.ofWord_or _ o rfl))

theorem shl (o : OpAB) : Statement (.shl o) :=
  of_pick (C := 0xFCE00000#32) rfl (word_and o.toWord_and rfl) rfl rfl rfl rfl
    (congrArg Instr.shl (OpAB.ofWord_or _ o rfl))

theorem shr (o : OpAB) : Statement (.shr o) :=
  of_pick (C := 0xFCE00000#32) rfl (word_and o.toWord_and rfl) rfl rfl rfl rfl
    (congrArg Instr.shr (OpAB.ofWord_or _ o rfl))

theorem sar (o : OpAB) : Statement (.sar o) :=
  of_pick (C := 0xFCE00000#32) rfl (word_and o.toWord_and rfl) rfl rfl rfl rfl
    (congrArg Instr.sar (OpAB.ofWord_or _ o rfl))

theorem rotl (o : OpAB) : Statement (.rotl o) :=
  of_pick (C := 0xFCE00000#32) rfl (word_and o.toWord_and rfl) rfl rfl rfl rfl
    (congrArg Instr.rotl (OpAB.ofWord_or _ o rfl))

theorem andG (o : OpAB) : Statement (.andG o) :=
  of_pick (C := 0xFCE00000#32) rfl (word_and o.toWord_and rfl) rfl rfl rfl rfl
    (congrArg Instr.andG (OpAB.ofWord_or _ o rfl))

theorem orG (o : OpAB) : Statement (.orG o) :=
  of_pick (C := 0xFCE00000#32) rfl (word_and o.toWord_and rfl) rfl rfl rfl rfl
    (congrArg Instr.orG (OpAB.ofWord_or _ o rfl))

theorem xorG (o : OpAB) : Statement (.xorG o) :=
  of_pick (C := 0xFCE00000#32) rfl (word_and o.toWord_and rfl) rfl rfl rfl rfl
    (congrArg Instr.xorG (OpAB.ofWord_or _ o rfl))

theorem andnG (o : OpAB) : Statement (.andnG o) :=
  of_pick (C := 0xFCE00000#32) rfl (word_and o.toWord_and rfl) rfl rfl rfl rfl
    (congrArg Instr.andnG (OpAB.ofWord_or _ o rfl))

theorem shlG (o : OpAB) : Statement (.shlG o) :=
  of_pick (C := 0xFCE00000#32) rfl (word_and o.toWord_and rfl) rfl rfl rfl rfl
    (congrArg Instr.shlG (OpAB.ofWord_or _ o rfl))

theorem shrG (o : OpAB) : Statement (.shrG o) :=
  of_pick (C := 0xFCE00000#32) rfl (word_and o.toWord_and rfl) rfl rfl rfl rfl
    (congrArg Instr.shrG (OpAB.ofWord_or _ o rfl))

theorem sarG (o : OpAB) : Statement (.sarG o) :=
  of_pick (C := 0xFCE00000#32) rfl (word_and o.toWord_and rfl) rfl rfl rfl rfl
    (congrArg Instr.sarG (OpAB.ofWord_or _ o rfl))

theorem rotlG (o : OpAB) : Statement (.rotlG o) :=
  of_pick (C := 0xFCE00000#32) rfl (word_and o.toWord_and rfl) rfl rfl rfl rfl
    (congrArg Instr.rotlG (OpAB.ofWord_or _ o rfl))

theorem imin (o : OpAB) : Statement (.imin o) :=
  of_pick (C := 0xFCE00000#32) rfl (word_and o.toWord_and rfl) rfl rfl rfl rfl
    (congrArg Instr.imin (OpAB.ofWord_or _ o rfl))

theorem imax (o : OpAB) : Statement (.imax o) :=
  of_pick (C := 0xFCE00000#32) rfl (word_and o.toWord_and rfl) rfl rfl rfl rfl
    (congrArg Instr.imax (OpAB.ofWord_or _ o rfl))

theorem umin (o : OpAB) : Statement (.umin o) :=
  of_pick (C := 0xFCE00000#32) rfl (word_and o.toWord_and rfl) rfl rfl rfl rfl
    (congrArg Instr.umin (OpAB.ofWord_or _ o rfl))

theorem umax (o : OpAB) : Statement (.umax o) :=
  of_pick (C := 0xFCE00000#32) rfl (word_and o.toWord_and rfl) rfl rfl rfl rfl
    (congrArg Instr.umax (OpAB.ofWord_or _ o rfl))

theorem imulhu (o : OpAB) : Statement (.imulhu o) :=
  of_pick (C := 0xFCE00000#32) rfl (word_and o.toWord_and rfl) rfl rfl rfl rfl
    (congrArg Instr.imulhu (OpAB.ofWord_or _ o rfl))

theorem iabsd (o : OpAB) : Statement (.iabsd o) :=
  of_pick (C := 0xFCE00000#32) rfl (word_and o.toWord_and rfl) rfl rfl rfl rfl
    (congrArg Instr.iabsd (OpAB.ofWord_or _ o rfl))

theorem pklo (o : OpAB) : Statement (.pklo o) :=
  of_pick (C := 0xFCE00000#32) rfl (word_and o.toWord_and rfl) rfl rfl rfl rfl
    (congrArg Instr.pklo (OpAB.ofWord_or _ o rfl))

theorem pkhi (o : OpAB) : Statement (.pkhi o) :=
  of_pick (C := 0xFCE00000#32) rfl (word_and o.toWord_and rfl) rfl rfl rfl rfl
    (congrArg Instr.pkhi (OpAB.ofWord_or _ o rfl))

theorem iminG (o : OpAB) : Statement (.iminG o) :=
  of_pick (C := 0xFCE00000#32) rfl (word_and o.toWord_and rfl) rfl rfl rfl rfl
    (congrArg Instr.iminG (OpAB.ofWord_or _ o rfl))

theorem imaxG (o : OpAB) : Statement (.imaxG o) :=
  of_pick (C := 0xFCE00000#32) rfl (word_and o.toWord_and rfl) rfl rfl rfl rfl
    (congrArg Instr.imaxG (OpAB.ofWord_or _ o rfl))

theorem uminG (o : OpAB) : Statement (.uminG o) :=
  of_pick (C := 0xFCE00000#32) rfl (word_and o.toWord_and rfl) rfl rfl rfl rfl
    (congrArg Instr.uminG (OpAB.ofWord_or _ o rfl))

theorem umaxG (o : OpAB) : Statement (.umaxG o) :=
  of_pick (C := 0xFCE00000#32) rfl (word_and o.toWord_and rfl) rfl rfl rfl rfl
    (congrArg Instr.umaxG (OpAB.ofWord_or _ o rfl))

theorem imulhuG (o : OpAB) : Statement (.imulhuG o) :=
  of_pick (C := 0xFCE00000#32) rfl (word_and o.toWord_and rfl) rfl rfl rfl rfl
    (congrArg Instr.imulhuG (OpAB.ofWord_or _ o rfl))

theorem iabsdG (o : OpAB) : Statement (.iabsdG o) :=
  of_pick (C := 0xFCE00000#32) rfl (word_and o.toWord_and rfl) rfl rfl rfl rfl
    (congrArg Instr.iabsdG (OpAB.ofWord_or _ o rfl))

theorem pkloG (o : OpAB) : Statement (.pkloG o) :=
  of_pick (C := 0xFCE00000#32) rfl (word_and o.toWord_and rfl) rfl rfl rfl rfl
    (congrArg Instr.pkloG (OpAB.ofWord_or _ o rfl))

theorem pkhiG (o : OpAB) : Statement (.pkhiG o) :=
  of_pick (C := 0xFCE00000#32) rfl (word_and o.toWord_and rfl) rfl rfl rfl rfl
    (congrArg Instr.pkhiG (OpAB.ofWord_or _ o rfl))

theorem clz (o : OpA) : Statement (.clz o) :=
  of_pick (C := 0xFCE0007F#32) rfl (word_and o.toWord_and rfl) rfl rfl rfl rfl
    (congrArg Instr.clz (OpA.ofWord_or _ o rfl))

theorem ctz (o : OpA) : Statement (.ctz o) :=
  of_pick (C := 0xFCE0007F#32) rfl (word_and o.toWord_and rfl) rfl rfl rfl rfl
    (congrArg Instr.ctz (OpA.ofWord_or _ o rfl))

theorem popc (o : OpA) : Statement (.popc o) :=
  of_pick (C := 0xFCE0007F#32) rfl (word_and o.toWord_and rfl) rfl rfl rfl rfl
    (congrArg Instr.popc (OpA.ofWord_or _ o rfl))

theorem brev (o : OpA) : Statement (.brev o) :=
  of_pick (C := 0xFCE0007F#32) rfl (word_and o.toWord_and rfl) rfl rfl rfl rfl
    (congrArg Instr.brev (OpA.ofWord_or _ o rfl))

theorem ineg (o : OpA) : Statement (.ineg o) :=
  of_pick (C := 0xFCE0007F#32) rfl (word_and o.toWord_and rfl) rfl rfl rfl rfl
    (congrArg Instr.ineg (OpA.ofWord_or _ o rfl))

theorem inot (o : OpA) : Statement (.inot o) :=
  of_pick (C := 0xFCE0007F#32) rfl (word_and o.toWord_and rfl) rfl rfl rfl rfl
    (congrArg Instr.inot (OpA.ofWord_or _ o rfl))

theorem iabs (o : OpA) : Statement (.iabs o) :=
  of_pick (C := 0xFCE0007F#32) rfl (word_and o.toWord_and rfl) rfl rfl rfl rfl
    (congrArg Instr.iabs (OpA.ofWord_or _ o rfl))

theorem bswap (o : OpA) : Statement (.bswap o) :=
  of_pick (C := 0xFCE0007F#32) rfl (word_and o.toWord_and rfl) rfl rfl rfl rfl
    (congrArg Instr.bswap (OpA.ofWord_or _ o rfl))

theorem imad (o : OpABC) : Statement (.imad o) :=
  of_pick (C := 0xFCE00000#32) rfl (word_and o.toWord_and rfl) rfl rfl rfl rfl
    (congrArg Instr.imad (OpABC.ofWord_or _ o rfl))

theorem imad64 (o : OpABC) : Statement (.imad64 o) :=
  of_pick (C := 0xFCE00000#32) rfl (word_and o.toWord_and rfl) rfl rfl rfl rfl
    (congrArg Instr.imad64 (OpABC.ofWord_or _ o rfl))

theorem imadhs (o : OpABC) : Statement (.imadhs o) :=
  of_pick (C := 0xFCE00000#32) rfl (word_and o.toWord_and rfl) rfl rfl rfl rfl
    (congrArg Instr.imadhs (OpABC.ofWord_or _ o rfl))

theorem imadhz (o : OpABC) : Statement (.imadhz o) :=
  of_pick (C := 0xFCE00000#32) rfl (word_and o.toWord_and rfl) rfl rfl rfl rfl
    (congrArg Instr.imadhz (OpABC.ofWord_or _ o rfl))

theorem imadw (o : OpABC) : Statement (.imadw o) :=
  of_pick (C := 0xFCE00000#32) rfl (word_and o.toWord_and rfl) rfl rfl rfl rfl
    (congrArg Instr.imadw (OpABC.ofWord_or _ o rfl))

theorem idot8 (o : OpABC) : Statement (.idot8 o) :=
  of_pick (C := 0xFCE00000#32) rfl (word_and o.toWord_and rfl) rfl rfl rfl rfl
    (congrArg Instr.idot8 (OpABC.ofWord_or _ o rfl))

theorem idot16 (o : OpABC) : Statement (.idot16 o) :=
  of_pick (C := 0xFCE00000#32) rfl (word_and o.toWord_and rfl) rfl rfl rfl rfl
    (congrArg Instr.idot16 (OpABC.ofWord_or _ o rfl))

theorem idivs (o : OpAB) : Statement (.idivs o) :=
  of_pick (C := 0xFCE00000#32) rfl (word_and o.toWord_and rfl) rfl rfl rfl rfl
    (congrArg Instr.idivs (OpAB.ofWord_or _ o rfl))

theorem idivz (o : OpAB) : Statement (.idivz o) :=
  of_pick (C := 0xFCE00000#32) rfl (word_and o.toWord_and rfl) rfl rfl rfl rfl
    (congrArg Instr.idivz (OpAB.ofWord_or _ o rfl))

theorem irems (o : OpAB) : Statement (.irems o) :=
  of_pick (C := 0xFCE00000#32) rfl (word_and o.toWord_and rfl) rfl rfl rfl rfl
    (congrArg Instr.irems (OpAB.ofWord_or _ o rfl))

theorem iremz (o : OpAB) : Statement (.iremz o) :=
  of_pick (C := 0xFCE00000#32) rfl (word_and o.toWord_and rfl) rfl rfl rfl rfl
    (congrArg Instr.iremz (OpAB.ofWord_or _ o rfl))

theorem icmpeq (o : OpCmp) : Statement (.icmpeq o) :=
  of_pick (C := 0xFF800000#32) rfl (word_and o.toWord_and rfl) rfl rfl rfl rfl
    (congrArg Instr.icmpeq (OpCmp.ofWord_or _ o rfl))

theorem icmpne (o : OpCmp) : Statement (.icmpne o) :=
  of_pick (C := 0xFF800000#32) rfl (word_and o.toWord_and rfl) rfl rfl rfl rfl
    (congrArg Instr.icmpne (OpCmp.ofWord_or _ o rfl))

theorem icmplt (o : OpCmp) : Statement (.icmplt o) :=
  of_pick (C := 0xFF800000#32) rfl (word_and o.toWord_and rfl) rfl rfl rfl rfl
    (congrArg Instr.icmplt (OpCmp.ofWord_or _ o rfl))

theorem icmple (o : OpCmp) : Statement (.icmple o) :=
  of_pick (C := 0xFF800000#32) rfl (word_and o.toWord_and rfl) rfl rfl rfl rfl
    (congrArg Instr.icmple (OpCmp.ofWord_or _ o rfl))

theorem icmpltz (o : OpCmp) : Statement (.icmpltz o) :=
  of_pick (C := 0xFF800000#32) rfl (word_and o.toWord_and rfl) rfl rfl rfl rfl
    (congrArg Instr.icmpltz (OpCmp.ofWord_or _ o rfl))

theorem icmplez (o : OpCmp) : Statement (.icmplez o) :=
  of_pick (C := 0xFF800000#32) rfl (word_and o.toWord_and rfl) rfl rfl rfl rfl
    (congrArg Instr.icmplez (OpCmp.ofWord_or _ o rfl))

theorem icmptst (o : OpCmp) : Statement (.icmptst o) :=
  of_pick (C := 0xFF800000#32) rfl (word_and o.toWord_and rfl) rfl rfl rfl rfl
    (congrArg Instr.icmptst (OpCmp.ofWord_or _ o rfl))

theorem icmpeqG (o : OpCmp) : Statement (.icmpeqG o) :=
  of_pick (C := 0xFF800000#32) rfl (word_and o.toWord_and rfl) rfl rfl rfl rfl
    (congrArg Instr.icmpeqG (OpCmp.ofWord_or _ o rfl))

theorem icmpneG (o : OpCmp) : Statement (.icmpneG o) :=
  of_pick (C := 0xFF800000#32) rfl (word_and o.toWord_and rfl) rfl rfl rfl rfl
    (congrArg Instr.icmpneG (OpCmp.ofWord_or _ o rfl))

theorem icmpltG (o : OpCmp) : Statement (.icmpltG o) :=
  of_pick (C := 0xFF800000#32) rfl (word_and o.toWord_and rfl) rfl rfl rfl rfl
    (congrArg Instr.icmpltG (OpCmp.ofWord_or _ o rfl))

theorem icmpleG (o : OpCmp) : Statement (.icmpleG o) :=
  of_pick (C := 0xFF800000#32) rfl (word_and o.toWord_and rfl) rfl rfl rfl rfl
    (congrArg Instr.icmpleG (OpCmp.ofWord_or _ o rfl))

theorem icmpltzG (o : OpCmp) : Statement (.icmpltzG o) :=
  of_pick (C := 0xFF800000#32) rfl (word_and o.toWord_and rfl) rfl rfl rfl rfl
    (congrArg Instr.icmpltzG (OpCmp.ofWord_or _ o rfl))

theorem icmplezG (o : OpCmp) : Statement (.icmplezG o) :=
  of_pick (C := 0xFF800000#32) rfl (word_and o.toWord_and rfl) rfl rfl rfl rfl
    (congrArg Instr.icmplezG (OpCmp.ofWord_or _ o rfl))

theorem icmptstG (o : OpCmp) : Statement (.icmptstG o) :=
  of_pick (C := 0xFF800000#32) rfl (word_and o.toWord_and rfl) rfl rfl rfl rfl
    (congrArg Instr.icmptstG (OpCmp.ofWord_or _ o rfl))

theorem fadd (o : OpAB) : Statement (.fadd o) :=
  of_pick (C := 0xFCE00000#32) rfl (word_and o.toWord_and rfl) rfl rfl rfl rfl
    (congrArg Instr.fadd (OpAB.ofWord_or _ o rfl))

theorem fsub (o : OpAB) : Statement (.fsub o) :=
  of_pick (C := 0xFCE00000#32) rfl (word_and o.toWord_and rfl) rfl rfl rfl rfl
    (congrArg Instr.fsub (OpAB.ofWord_or _ o rfl))

theorem fmul (o : OpAB) : Statement (.fmul o) :=
  of_pick (C := 0xFCE00000#32) rfl (word_and o.toWord_and rfl) rfl rfl rfl rfl
    (congrArg Instr.fmul (OpAB.ofWord_or _ o rfl))

theorem fmin (o : OpAB) : Statement (.fmin o) :=
  of_pick (C := 0xFCE00000#32) rfl (word_and o.toWord_and rfl) rfl rfl rfl rfl
    (congrArg Instr.fmin (OpAB.ofWord_or _ o rfl))

theorem fmax (o : OpAB) : Statement (.fmax o) :=
  of_pick (C := 0xFCE00000#32) rfl (word_and o.toWord_and rfl) rfl rfl rfl rfl
    (congrArg Instr.fmax (OpAB.ofWord_or _ o rfl))

theorem fminn (o : OpAB) : Statement (.fminn o) :=
  of_pick (C := 0xFCE00000#32) rfl (word_and o.toWord_and rfl) rfl rfl rfl rfl
    (congrArg Instr.fminn (OpAB.ofWord_or _ o rfl))

theorem fmaxn (o : OpAB) : Statement (.fmaxn o) :=
  of_pick (C := 0xFCE00000#32) rfl (word_and o.toWord_and rfl) rfl rfl rfl rfl
    (congrArg Instr.fmaxn (OpAB.ofWord_or _ o rfl))

theorem fcpsg (o : OpAB) : Statement (.fcpsg o) :=
  of_pick (C := 0xFCE00000#32) rfl (word_and o.toWord_and rfl) rfl rfl rfl rfl
    (congrArg Instr.fcpsg (OpAB.ofWord_or _ o rfl))

theorem faddG (o : OpAB) : Statement (.faddG o) :=
  of_pick (C := 0xFCE00000#32) rfl (word_and o.toWord_and rfl) rfl rfl rfl rfl
    (congrArg Instr.faddG (OpAB.ofWord_or _ o rfl))

theorem fsubG (o : OpAB) : Statement (.fsubG o) :=
  of_pick (C := 0xFCE00000#32) rfl (word_and o.toWord_and rfl) rfl rfl rfl rfl
    (congrArg Instr.fsubG (OpAB.ofWord_or _ o rfl))

theorem fmulG (o : OpAB) : Statement (.fmulG o) :=
  of_pick (C := 0xFCE00000#32) rfl (word_and o.toWord_and rfl) rfl rfl rfl rfl
    (congrArg Instr.fmulG (OpAB.ofWord_or _ o rfl))

theorem fminG (o : OpAB) : Statement (.fminG o) :=
  of_pick (C := 0xFCE00000#32) rfl (word_and o.toWord_and rfl) rfl rfl rfl rfl
    (congrArg Instr.fminG (OpAB.ofWord_or _ o rfl))

theorem fmaxG (o : OpAB) : Statement (.fmaxG o) :=
  of_pick (C := 0xFCE00000#32) rfl (word_and o.toWord_and rfl) rfl rfl rfl rfl
    (congrArg Instr.fmaxG (OpAB.ofWord_or _ o rfl))

theorem fminnG (o : OpAB) : Statement (.fminnG o) :=
  of_pick (C := 0xFCE00000#32) rfl (word_and o.toWord_and rfl) rfl rfl rfl rfl
    (congrArg Instr.fminnG (OpAB.ofWord_or _ o rfl))

theorem fmaxnG (o : OpAB) : Statement (.fmaxnG o) :=
  of_pick (C := 0xFCE00000#32) rfl (word_and o.toWord_and rfl) rfl rfl rfl rfl
    (congrArg Instr.fmaxnG (OpAB.ofWord_or _ o rfl))

theorem fcpsgG (o : OpAB) : Statement (.fcpsgG o) :=
  of_pick (C := 0xFCE00000#32) rfl (word_and o.toWord_and rfl) rfl rfl rfl rfl
    (congrArg Instr.fcpsgG (OpAB.ofWord_or _ o rfl))

theorem fma (o : OpFma) : Statement (.fma o) :=
  of_pick (C := 0xFC600000#32) rfl (word_and o.toWord_and rfl) rfl rfl rfl rfl
    (congrArg Instr.fma (OpFma.ofWord_or _ o rfl))

theorem fms (o : OpFma) : Statement (.fms o) :=
  of_pick (C := 0xFC600000#32) rfl (word_and o.toWord_and rfl) rfl rfl rfl rfl
    (congrArg Instr.fms (OpFma.ofWord_or _ o rfl))

theorem fnma (o : OpFma) : Statement (.fnma o) :=
  of_pick (C := 0xFC600000#32) rfl (word_and o.toWord_and rfl) rfl rfl rfl rfl
    (congrArg Instr.fnma (OpFma.ofWord_or _ o rfl))

theorem fnms (o : OpFma) : Statement (.fnms o) :=
  of_pick (C := 0xFC600000#32) rfl (word_and o.toWord_and rfl) rfl rfl rfl rfl
    (congrArg Instr.fnms (OpFma.ofWord_or _ o rfl))

theorem hdotBf16 (o : OpABC) : Statement (.hdotBf16 o) :=
  of_pick (C := 0xFCE00000#32) rfl (word_and o.toWord_and rfl) rfl rfl rfl rfl
    (congrArg Instr.hdotBf16 (OpABC.ofWord_or _ o rfl))

theorem hdotF16 (o : OpABC) : Statement (.hdotF16 o) :=
  of_pick (C := 0xFCE00000#32) rfl (word_and o.toWord_and rfl) rfl rfl rfl rfl
    (congrArg Instr.hdotF16 (OpABC.ofWord_or _ o rfl))

theorem ffmaBf16x4 (o : OpABC) : Statement (.ffmaBf16x4 o) :=
  of_pick (C := 0xFCE00000#32) rfl (word_and o.toWord_and rfl) rfl rfl rfl rfl
    (congrArg Instr.ffmaBf16x4 (OpABC.ofWord_or _ o rfl))

theorem ffmaF16x4 (o : OpABC) : Statement (.ffmaF16x4 o) :=
  of_pick (C := 0xFCE00000#32) rfl (word_and o.toWord_and rfl) rfl rfl rfl rfl
    (congrArg Instr.ffmaF16x4 (OpABC.ofWord_or _ o rfl))

theorem fabs (o : OpA) : Statement (.fabs o) :=
  of_pick (C := 0xFCE0007F#32) rfl (word_and o.toWord_and rfl) rfl rfl rfl rfl
    (congrArg Instr.fabs (OpA.ofWord_or _ o rfl))

theorem fneg (o : OpA) : Statement (.fneg o) :=
  of_pick (C := 0xFCE0007F#32) rfl (word_and o.toWord_and rfl) rfl rfl rfl rfl
    (congrArg Instr.fneg (OpA.ofWord_or _ o rfl))

theorem frnd (o : OpA) : Statement (.frnd o) :=
  of_pick (C := 0xFCE0007F#32) rfl (word_and o.toWord_and rfl) rfl rfl rfl rfl
    (congrArg Instr.frnd (OpA.ofWord_or _ o rfl))

theorem frndz (o : OpA) : Statement (.frndz o) :=
  of_pick (C := 0xFCE0007F#32) rfl (word_and o.toWord_and rfl) rfl rfl rfl rfl
    (congrArg Instr.frndz (OpA.ofWord_or _ o rfl))

theorem fclass (o : OpA) : Statement (.fclass o) :=
  of_pick (C := 0xFCE0007F#32) rfl (word_and o.toWord_and rfl) rfl rfl rfl rfl
    (congrArg Instr.fclass (OpA.ofWord_or _ o rfl))

theorem fgetexp (o : OpA) : Statement (.fgetexp o) :=
  of_pick (C := 0xFCE0007F#32) rfl (word_and o.toWord_and rfl) rfl rfl rfl rfl
    (congrArg Instr.fgetexp (OpA.ofWord_or _ o rfl))

theorem fgetman (o : OpA) : Statement (.fgetman o) :=
  of_pick (C := 0xFCE0007F#32) rfl (word_and o.toWord_and rfl) rfl rfl rfl rfl
    (congrArg Instr.fgetman (OpA.ofWord_or _ o rfl))

theorem fcvtwl (o : OpA) : Statement (.fcvtwl o) :=
  of_pick (C := 0xFCE0007F#32) rfl (word_and o.toWord_and rfl) rfl rfl rfl rfl
    (congrArg Instr.fcvtwl (OpA.ofWord_or _ o rfl))

theorem fcvtwh (o : OpA) : Statement (.fcvtwh o) :=
  of_pick (C := 0xFCE0007F#32) rfl (word_and o.toWord_and rfl) rfl rfl rfl rfl
    (congrArg Instr.fcvtwh (OpA.ofWord_or _ o rfl))

theorem fcvtn (o : OpAB) : Statement (.fcvtn o) :=
  of_pick (C := 0xFCE00000#32) rfl (word_and o.toWord_and rfl) rfl rfl rfl rfl
    (congrArg Instr.fcvtn (OpAB.ofWord_or _ o rfl))

theorem fcvtfi (o : OpA) : Statement (.fcvtfi o) :=
  of_pick (C := 0xFCE0007F#32) rfl (word_and o.toWord_and rfl) rfl rfl rfl rfl
    (congrArg Instr.fcvtfi (OpA.ofWord_or _ o rfl))

theorem fcvtfu (o : OpA) : Statement (.fcvtfu o) :=
  of_pick (C := 0xFCE0007F#32) rfl (word_and o.toWord_and rfl) rfl rfl rfl rfl
    (congrArg Instr.fcvtfu (OpA.ofWord_or _ o rfl))

theorem fcvtif (o : OpA) : Statement (.fcvtif o) :=
  of_pick (C := 0xFCE0007F#32) rfl (word_and o.toWord_and rfl) rfl rfl rfl rfl
    (congrArg Instr.fcvtif (OpA.ofWord_or _ o rfl))

theorem fcvtuf (o : OpA) : Statement (.fcvtuf o) :=
  of_pick (C := 0xFCE0007F#32) rfl (word_and o.toWord_and rfl) rfl rfl rfl rfl
    (congrArg Instr.fcvtuf (OpA.ofWord_or _ o rfl))

theorem fenc (o : OpNarrow) : Statement (.fenc o) :=
  of_pick (C := 0xFCE00070#32) rfl (word_and o.toWord_and rfl) rfl rfl rfl rfl
    (congrArg Instr.fenc (OpNarrow.ofWord_or _ o rfl))

theorem fdec (o : OpNarrow) : Statement (.fdec o) :=
  of_pick (C := 0xFCE00070#32) rfl (word_and o.toWord_and rfl) rfl rfl rfl rfl
    (congrArg Instr.fdec (OpNarrow.ofWord_or _ o rfl))

theorem fcmpeq (o : OpCmp) : Statement (.fcmpeq o) :=
  of_pick (C := 0xFF800000#32) rfl (word_and o.toWord_and rfl) rfl rfl rfl rfl
    (congrArg Instr.fcmpeq (OpCmp.ofWord_or _ o rfl))

theorem fcmpne (o : OpCmp) : Statement (.fcmpne o) :=
  of_pick (C := 0xFF800000#32) rfl (word_and o.toWord_and rfl) rfl rfl rfl rfl
    (congrArg Instr.fcmpne (OpCmp.ofWord_or _ o rfl))

theorem fcmplt (o : OpCmp) : Statement (.fcmplt o) :=
  of_pick (C := 0xFF800000#32) rfl (word_and o.toWord_and rfl) rfl rfl rfl rfl
    (congrArg Instr.fcmplt (OpCmp.ofWord_or _ o rfl))

theorem fcmple (o : OpCmp) : Statement (.fcmple o) :=
  of_pick (C := 0xFF800000#32) rfl (word_and o.toWord_and rfl) rfl rfl rfl rfl
    (congrArg Instr.fcmple (OpCmp.ofWord_or _ o rfl))

theorem fcmpun (o : OpCmp) : Statement (.fcmpun o) :=
  of_pick (C := 0xFF800000#32) rfl (word_and o.toWord_and rfl) rfl rfl rfl rfl
    (congrArg Instr.fcmpun (OpCmp.ofWord_or _ o rfl))

theorem fcmpor (o : OpCmp) : Statement (.fcmpor o) :=
  of_pick (C := 0xFF800000#32) rfl (word_and o.toWord_and rfl) rfl rfl rfl rfl
    (congrArg Instr.fcmpor (OpCmp.ofWord_or _ o rfl))

theorem fcmpequ (o : OpCmp) : Statement (.fcmpequ o) :=
  of_pick (C := 0xFF800000#32) rfl (word_and o.toWord_and rfl) rfl rfl rfl rfl
    (congrArg Instr.fcmpequ (OpCmp.ofWord_or _ o rfl))

theorem fcmpgt (o : OpCmp) : Statement (.fcmpgt o) :=
  of_pick (C := 0xFF800000#32) rfl (word_and o.toWord_and rfl) rfl rfl rfl rfl
    (congrArg Instr.fcmpgt (OpCmp.ofWord_or _ o rfl))

theorem fdiv (o : OpAB) : Statement (.fdiv o) :=
  of_pick (C := 0xFCE00000#32) rfl (word_and o.toWord_and rfl) rfl rfl rfl rfl
    (congrArg Instr.fdiv (OpAB.ofWord_or _ o rfl))

theorem fsqrt (o : OpA) : Statement (.fsqrt o) :=
  of_pick (C := 0xFCE0007F#32) rfl (word_and o.toWord_and rfl) rfl rfl rfl rfl
    (congrArg Instr.fsqrt (OpA.ofWord_or _ o rfl))

theorem cexp2 (o : OpCordic) : Statement (.cexp2 o) :=
  of_pick (C := 0xFFC00007#32) rfl (word_and o.toWord_and rfl) rfl rfl rfl rfl
    (congrArg Instr.cexp2 (OpCordic.ofWord_or _ o rfl))

theorem clog2 (o : OpCordic) : Statement (.clog2 o) :=
  of_pick (C := 0xFFC00007#32) rfl (word_and o.toWord_and rfl) rfl rfl rfl rfl
    (congrArg Instr.clog2 (OpCordic.ofWord_or _ o rfl))

theorem csin (o : OpCordic) : Statement (.csin o) :=
  of_pick (C := 0xFFC00007#32) rfl (word_and o.toWord_and rfl) rfl rfl rfl rfl
    (congrArg Instr.csin (OpCordic.ofWord_or _ o rfl))

theorem ccos (o : OpCordic) : Statement (.ccos o) :=
  of_pick (C := 0xFFC00007#32) rfl (word_and o.toWord_and rfl) rfl rfl rfl rfl
    (congrArg Instr.ccos (OpCordic.ofWord_or _ o rfl))

theorem ctanh (o : OpCordic) : Statement (.ctanh o) :=
  of_pick (C := 0xFFC00007#32) rfl (word_and o.toWord_and rfl) rfl rfl rfl rfl
    (congrArg Instr.ctanh (OpCordic.ofWord_or _ o rfl))

theorem csigm (o : OpCordic) : Statement (.csigm o) :=
  of_pick (C := 0xFFC00007#32) rfl (word_and o.toWord_and rfl) rfl rfl rfl rfl
    (congrArg Instr.csigm (OpCordic.ofWord_or _ o rfl))

theorem crcp (o : OpCordic) : Statement (.crcp o) :=
  of_pick (C := 0xFFC00007#32) rfl (word_and o.toWord_and rfl) rfl rfl rfl rfl
    (congrArg Instr.crcp (OpCordic.ofWord_or _ o rfl))

theorem crsqrt (o : OpCordic) : Statement (.crsqrt o) :=
  of_pick (C := 0xFFC00007#32) rfl (word_and o.toWord_and rfl) rfl rfl rfl rfl
    (congrArg Instr.crsqrt (OpCordic.ofWord_or _ o rfl))

theorem csqrt (o : OpCordic) : Statement (.csqrt o) :=
  of_pick (C := 0xFFC00007#32) rfl (word_and o.toWord_and rfl) rfl rfl rfl rfl
    (congrArg Instr.csqrt (OpCordic.ofWord_or _ o rfl))

theorem catan (o : OpCordic) : Statement (.catan o) :=
  of_pick (C := 0xFFC00007#32) rfl (word_and o.toWord_and rfl) rfl rfl rfl rfl
    (congrArg Instr.catan (OpCordic.ofWord_or _ o rfl))

theorem catan2 (o : OpCordic) : Statement (.catan2 o) :=
  of_pick (C := 0xFFC00007#32) rfl (word_and o.toWord_and rfl) rfl rfl rfl rfl
    (congrArg Instr.catan2 (OpCordic.ofWord_or _ o rfl))

theorem csincos (o : OpCordic) : Statement (.csincos o) :=
  of_pick (C := 0xFFC00007#32) rfl (word_and o.toWord_and rfl) rfl rfl rfl rfl
    (congrArg Instr.csincos (OpCordic.ofWord_or _ o rfl))

theorem chypot (o : OpCordic) : Statement (.chypot o) :=
  of_pick (C := 0xFFC00007#32) rfl (word_and o.toWord_and rfl) rfl rfl rfl rfl
    (congrArg Instr.chypot (OpCordic.ofWord_or _ o rfl))

theorem xshf (o : OpAB) : Statement (.xshf o) :=
  of_pick (C := 0xFCE00000#32) rfl (word_and o.toWord_and rfl) rfl rfl rfl rfl
    (congrArg Instr.xshf (OpAB.ofWord_or _ o rfl))

theorem xup (o : OpAB) : Statement (.xup o) :=
  of_pick (C := 0xFCE00000#32) rfl (word_and o.toWord_and rfl) rfl rfl rfl rfl
    (congrArg Instr.xup (OpAB.ofWord_or _ o rfl))

theorem xdn (o : OpAB) : Statement (.xdn o) :=
  of_pick (C := 0xFCE00000#32) rfl (word_and o.toWord_and rfl) rfl rfl rfl rfl
    (congrArg Instr.xdn (OpAB.ofWord_or _ o rfl))

theorem xbfly (o : OpAB) : Statement (.xbfly o) :=
  of_pick (C := 0xFCE00000#32) rfl (word_and o.toWord_and rfl) rfl rfl rfl rfl
    (congrArg Instr.xbfly (OpAB.ofWord_or _ o rfl))

theorem xget (o : OpAB) : Statement (.xget o) :=
  of_pick (C := 0xFCE00000#32) rfl (word_and o.toWord_and rfl) rfl rfl rfl rfl
    (congrArg Instr.xget (OpAB.ofWord_or _ o rfl))

theorem xperm (o : OpAB) : Statement (.xperm o) :=
  of_pick (C := 0xFCE00000#32) rfl (word_and o.toWord_and rfl) rfl rfl rfl rfl
    (congrArg Instr.xperm (OpAB.ofWord_or _ o rfl))

theorem xrot (o : OpAB) : Statement (.xrot o) :=
  of_pick (C := 0xFCE00000#32) rfl (word_and o.toWord_and rfl) rfl rfl rfl rfl
    (congrArg Instr.xrot (OpAB.ofWord_or _ o rfl))

theorem xshfG (o : OpAB) : Statement (.xshfG o) :=
  of_pick (C := 0xFCE00000#32) rfl (word_and o.toWord_and rfl) rfl rfl rfl rfl
    (congrArg Instr.xshfG (OpAB.ofWord_or _ o rfl))

theorem xupG (o : OpAB) : Statement (.xupG o) :=
  of_pick (C := 0xFCE00000#32) rfl (word_and o.toWord_and rfl) rfl rfl rfl rfl
    (congrArg Instr.xupG (OpAB.ofWord_or _ o rfl))

theorem xdnG (o : OpAB) : Statement (.xdnG o) :=
  of_pick (C := 0xFCE00000#32) rfl (word_and o.toWord_and rfl) rfl rfl rfl rfl
    (congrArg Instr.xdnG (OpAB.ofWord_or _ o rfl))

theorem xbflyG (o : OpAB) : Statement (.xbflyG o) :=
  of_pick (C := 0xFCE00000#32) rfl (word_and o.toWord_and rfl) rfl rfl rfl rfl
    (congrArg Instr.xbflyG (OpAB.ofWord_or _ o rfl))

theorem xgetG (o : OpAB) : Statement (.xgetG o) :=
  of_pick (C := 0xFCE00000#32) rfl (word_and o.toWord_and rfl) rfl rfl rfl rfl
    (congrArg Instr.xgetG (OpAB.ofWord_or _ o rfl))

theorem xpermG (o : OpAB) : Statement (.xpermG o) :=
  of_pick (C := 0xFCE00000#32) rfl (word_and o.toWord_and rfl) rfl rfl rfl rfl
    (congrArg Instr.xpermG (OpAB.ofWord_or _ o rfl))

theorem xrotG (o : OpAB) : Statement (.xrotG o) :=
  of_pick (C := 0xFCE00000#32) rfl (word_and o.toWord_and rfl) rfl rfl rfl rfl
    (congrArg Instr.xrotG (OpAB.ofWord_or _ o rfl))

theorem vsum (o : OpA) : Statement (.vsum o) :=
  of_pick (C := 0xFCE0007F#32) rfl (word_and o.toWord_and rfl) rfl rfl rfl rfl
    (congrArg Instr.vsum (OpA.ofWord_or _ o rfl))

theorem vfsum (o : OpA) : Statement (.vfsum o) :=
  of_pick (C := 0xFCE0007F#32) rfl (word_and o.toWord_and rfl) rfl rfl rfl rfl
    (congrArg Instr.vfsum (OpA.ofWord_or _ o rfl))

theorem vmin (o : OpRedU) : Statement (.vmin o) :=
  of_pick (C := 0xFCE0007E#32) rfl (word_and o.toWord_and rfl) rfl rfl rfl rfl
    (congrArg Instr.vmin (OpRedU.ofWord_or _ o rfl))

theorem vmax (o : OpRedU) : Statement (.vmax o) :=
  of_pick (C := 0xFCE0007E#32) rfl (word_and o.toWord_and rfl) rfl rfl rfl rfl
    (congrArg Instr.vmax (OpRedU.ofWord_or _ o rfl))

theorem vfmin (o : OpA) : Statement (.vfmin o) :=
  of_pick (C := 0xFCE0007F#32) rfl (word_and o.toWord_and rfl) rfl rfl rfl rfl
    (congrArg Instr.vfmin (OpA.ofWord_or _ o rfl))

theorem vfmax (o : OpA) : Statement (.vfmax o) :=
  of_pick (C := 0xFCE0007F#32) rfl (word_and o.toWord_and rfl) rfl rfl rfl rfl
    (congrArg Instr.vfmax (OpA.ofWord_or _ o rfl))

theorem vscan (o : OpRedX) : Statement (.vscan o) :=
  of_pick (C := 0xFCE0007D#32) rfl (word_and o.toWord_and rfl) rfl rfl rfl rfl
    (congrArg Instr.vscan (OpRedX.ofWord_or _ o rfl))

theorem vfscan (o : OpRedX) : Statement (.vfscan o) :=
  of_pick (C := 0xFCE0007D#32) rfl (word_and o.toWord_and rfl) rfl rfl rfl rfl
    (congrArg Instr.vfscan (OpRedX.ofWord_or _ o rfl))

theorem pand (o : OpPred2) : Statement (.pand o) :=
  of_pick (C := 0xFFE00000#32) rfl (word_and o.toWord_and rfl) rfl rfl rfl rfl
    (congrArg Instr.pand (OpPred2.ofWord_or _ o rfl))

theorem por (o : OpPred2) : Statement (.por o) :=
  of_pick (C := 0xFFE00000#32) rfl (word_and o.toWord_and rfl) rfl rfl rfl rfl
    (congrArg Instr.por (OpPred2.ofWord_or _ o rfl))

theorem pxor (o : OpPred2) : Statement (.pxor o) :=
  of_pick (C := 0xFFE00000#32) rfl (word_and o.toWord_and rfl) rfl rfl rfl rfl
    (congrArg Instr.pxor (OpPred2.ofWord_or _ o rfl))

theorem pandn (o : OpPred2) : Statement (.pandn o) :=
  of_pick (C := 0xFFE00000#32) rfl (word_and o.toWord_and rfl) rfl rfl rfl rfl
    (congrArg Instr.pandn (OpPred2.ofWord_or _ o rfl))

theorem pnot (o : OpPred1) : Statement (.pnot o) :=
  of_pick (C := 0xFFE0007F#32) rfl (word_and o.toWord_and rfl) rfl rfl rfl rfl
    (congrArg Instr.pnot (OpPred1.ofWord_or _ o rfl))

theorem pmov (o : OpPred1) : Statement (.pmov o) :=
  of_pick (C := 0xFFE0007F#32) rfl (word_and o.toWord_and rfl) rfl rfl rfl rfl
    (congrArg Instr.pmov (OpPred1.ofWord_or _ o rfl))

theorem pany (o : OpPred1) : Statement (.pany o) :=
  of_pick (C := 0xFFE0007F#32) rfl (word_and o.toWord_and rfl) rfl rfl rfl rfl
    (congrArg Instr.pany (OpPred1.ofWord_or _ o rfl))

theorem pall (o : OpPred1) : Statement (.pall o) :=
  of_pick (C := 0xFFE0007F#32) rfl (word_and o.toWord_and rfl) rfl rfl rfl rfl
    (congrArg Instr.pall (OpPred1.ofWord_or _ o rfl))

theorem guard (o : OpGuard) : Statement (.guard o) :=
  of_pick (C := 0xFFFFC07F#32) rfl (word_and o.toWord_and rfl) rfl rfl rfl rfl
    (congrArg Instr.guard (OpGuard.ofWord_or _ o rfl))

theorem guardn (o : OpGuard) : Statement (.guardn o) :=
  of_pick (C := 0xFFFFC07F#32) rfl (word_and o.toWord_and rfl) rfl rfl rfl rfl
    (congrArg Instr.guardn (OpGuard.ofWord_or _ o rfl))

theorem guardoff : Statement .guardoff :=
  of_pick (C := 0xFFFFFFFF#32) (p := 0x81000000#32) rfl rfl rfl rfl rfl rfl rfl

theorem pbal (o : OpPx1) : Statement (.pbal o) :=
  of_pick (C := 0xFCE03FFF#32) rfl (word_and o.toWord_and rfl) rfl rfl rfl rfl
    (congrArg Instr.pbal (OpPx1.ofWord_or _ o rfl))

theorem pset (o : OpPset) : Statement (.pset o) :=
  of_pick (C := 0xFCE00000#32) rfl (word_and o.toWord_and rfl) rfl rfl rfl rfl
    (congrArg Instr.pset (OpPset.ofWord_or _ o rfl))

theorem pget (o : OpPx1) : Statement (.pget o) :=
  of_pick (C := 0xFCE03FFF#32) rfl (word_and o.toWord_and rfl) rfl rfl rfl rfl
    (congrArg Instr.pget (OpPx1.ofWord_or _ o rfl))

theorem pcnt (o : OpPx1) : Statement (.pcnt o) :=
  of_pick (C := 0xFCE03FFF#32) rfl (word_and o.toWord_and rfl) rfl rfl rfl rfl
    (congrArg Instr.pcnt (OpPx1.ofWord_or _ o rfl))

theorem sel (o : OpSel) : Statement (.sel o) :=
  of_pick (C := 0xFC00C000#32) rfl (word_and o.toWord_and rfl) rfl rfl rfl rfl
    (congrArg Instr.sel (OpSel.ofWord_or _ o rfl))

theorem madd (o : OpMom2) : Statement (.madd o) :=
  of_pick (C := 0xFCE001FF#32) rfl (word_and o.toWord_and rfl) rfl rfl rfl rfl
    (congrArg Instr.madd (OpMom2.ofWord_or _ o rfl))

theorem msub (o : OpMom2) : Statement (.msub o) :=
  of_pick (C := 0xFCE001FF#32) rfl (word_and o.toWord_and rfl) rfl rfl rfl rfl
    (congrArg Instr.msub (OpMom2.ofWord_or _ o rfl))

theorem mmul (o : OpMom2) : Statement (.mmul o) :=
  of_pick (C := 0xFCE001FF#32) rfl (word_and o.toWord_and rfl) rfl rfl rfl rfl
    (congrArg Instr.mmul (OpMom2.ofWord_or _ o rfl))

theorem mscl (o : OpMomX) : Statement (.mscl o) :=
  of_pick (C := 0xFCE01E03#32) rfl (word_and o.toWord_and rfl) rfl rfl rfl rfl
    (congrArg Instr.mscl (OpMomX.ofWord_or _ o rfl))

theorem mofs (o : OpMomX) : Statement (.mofs o) :=
  of_pick (C := 0xFCE01E03#32) rfl (word_and o.toWord_and rfl) rfl rfl rfl rfl
    (congrArg Instr.mofs (OpMomX.ofWord_or _ o rfl))

theorem mneg (o : OpMom1) : Statement (.mneg o) :=
  of_pick (C := 0xFCE01FFF#32) rfl (word_and o.toWord_and rfl) rfl rfl rfl rfl
    (congrArg Instr.mneg (OpMom1.ofWord_or _ o rfl))

theorem mcpy (o : OpMom1) : Statement (.mcpy o) :=
  of_pick (C := 0xFCE01FFF#32) rfl (word_and o.toWord_and rfl) rfl rfl rfl rfl
    (congrArg Instr.mcpy (OpMom1.ofWord_or _ o rfl))

theorem mrelu (o : OpMom1) : Statement (.mrelu o) :=
  of_pick (C := 0xFCE01FFF#32) rfl (word_and o.toWord_and rfl) rfl rfl rfl rfl
    (congrArg Instr.mrelu (OpMom1.ofWord_or _ o rfl))

theorem mexp (o : OpMom1) : Statement (.mexp o) :=
  of_pick (C := 0xFCE01FFF#32) rfl (word_and o.toWord_and rfl) rfl rfl rfl rfl
    (congrArg Instr.mexp (OpMom1.ofWord_or _ o rfl))

theorem msig (o : OpMom1) : Statement (.msig o) :=
  of_pick (C := 0xFCE01FFF#32) rfl (word_and o.toWord_and rfl) rfl rfl rfl rfl
    (congrArg Instr.msig (OpMom1.ofWord_or _ o rfl))

theorem mtanh (o : OpMom1) : Statement (.mtanh o) :=
  of_pick (C := 0xFCE01FFF#32) rfl (word_and o.toWord_and rfl) rfl rfl rfl rfl
    (congrArg Instr.mtanh (OpMom1.ofWord_or _ o rfl))

theorem mrcp (o : OpMom1) : Statement (.mrcp o) :=
  of_pick (C := 0xFCE01FFF#32) rfl (word_and o.toWord_and rfl) rfl rfl rfl rfl
    (congrArg Instr.mrcp (OpMom1.ofWord_or _ o rfl))

theorem msqr (o : OpMom1) : Statement (.msqr o) :=
  of_pick (C := 0xFCE01FFF#32) rfl (word_and o.toWord_and rfl) rfl rfl rfl rfl
    (congrArg Instr.msqr (OpMom1.ofWord_or _ o rfl))

theorem mmake (o : OpMmake) : Statement (.mmake o) :=
  of_pick (C := 0xFCE1FE03#32) rfl (word_and o.toWord_and rfl) rfl rfl rfl rfl
    (congrArg Instr.mmake (OpMmake.ofWord_or _ o rfl))

theorem mcolMu (o : OpMcol) : Statement (.mcolMu o) :=
  of_pick (C := 0xFCFE1FFF#32) rfl (word_and o.toWord_and rfl) rfl rfl rfl rfl
    (congrArg Instr.mcolMu (OpMcol.ofWord_or _ o rfl))

theorem mcolVar (o : OpMcol) : Statement (.mcolVar o) :=
  of_pick (C := 0xFCFE1FFF#32) rfl (word_and o.toWord_and rfl) rfl rfl rfl rfl
    (congrArg Instr.mcolVar (OpMcol.ofWord_or _ o rfl))

theorem mcolSd (o : OpMcol) : Statement (.mcolSd o) :=
  of_pick (C := 0xFCFE1FFF#32) rfl (word_and o.toWord_and rfl) rfl rfl rfl rfl
    (congrArg Instr.mcolSd (OpMcol.ofWord_or _ o rfl))

theorem mcolPair (o : OpMcol) : Statement (.mcolPair o) :=
  of_pick (C := 0xFCFE1FFF#32) rfl (word_and o.toWord_and rfl) rfl rfl rfl rfl
    (congrArg Instr.mcolPair (OpMcol.ofWord_or _ o rfl))

theorem mcolSmp (o : OpMcolX) : Statement (.mcolSmp o) :=
  of_pick (C := 0xFCFE1E03#32) rfl (word_and o.toWord_and rfl) rfl rfl rfl rfl
    (congrArg Instr.mcolSmp (OpMcolX.ofWord_or _ o rfl))

theorem ldg (o : OpLB) : Statement (.ldg o) :=
  of_pick (C := 0xFC000000#32) rfl (word_and o.toWord_and rfl) rfl rfl rfl rfl
    (congrArg Instr.ldg (OpLB.ofWord_or _ o rfl))

theorem ldgx (o : OpLX) : Statement (.ldgx o) :=
  of_pick (C := 0xFC000000#32) rfl (word_and o.toWord_and rfl) rfl rfl rfl rfl
    (congrArg Instr.ldgx (OpLX.ofWord_or _ o rfl))

theorem stg (o : OpSB) : Statement (.stg o) :=
  of_pick (C := 0xFC000000#32) rfl (word_and o.toWord_and rfl) rfl rfl rfl rfl
    (congrArg Instr.stg (OpSB.ofWord_or _ o rfl))

theorem stgx (o : OpSX) : Statement (.stgx o) :=
  of_pick (C := 0xFC000000#32) rfl (word_and o.toWord_and rfl) rfl rfl rfl rfl
    (congrArg Instr.stgx (OpSX.ofWord_or _ o rfl))

theorem lds (o : OpLB) : Statement (.lds o) :=
  of_pick (C := 0xFC000000#32) rfl (word_and o.toWord_and rfl) rfl rfl rfl rfl
    (congrArg Instr.lds (OpLB.ofWord_or _ o rfl))

theorem ldsx (o : OpLX) : Statement (.ldsx o) :=
  of_pick (C := 0xFC000000#32) rfl (word_and o.toWord_and rfl) rfl rfl rfl rfl
    (congrArg Instr.ldsx (OpLX.ofWord_or _ o rfl))

theorem sts (o : OpSB) : Statement (.sts o) :=
  of_pick (C := 0xFC000000#32) rfl (word_and o.toWord_and rfl) rfl rfl rfl rfl
    (congrArg Instr.sts (OpSB.ofWord_or _ o rfl))

theorem stsx (o : OpSX) : Statement (.stsx o) :=
  of_pick (C := 0xFC000000#32) rfl (word_and o.toWord_and rfl) rfl rfl rfl rfl
    (congrArg Instr.stsx (OpSX.ofWord_or _ o rfl))

theorem ldo (o : OpLdo) : Statement (.ldo o) :=
  of_pick (C := 0xFC800000#32) rfl (word_and o.toWord_and rfl) rfl rfl rfl rfl
    (congrArg Instr.ldo (OpLdo.ofWord_or _ o rfl))

theorem sto (o : OpSto) : Statement (.sto o) :=
  of_pick (C := 0xFC800000#32) rfl (word_and o.toWord_and rfl) rfl rfl rfl rfl
    (congrArg Instr.sto (OpSto.ofWord_or _ o rfl))

theorem atmAdd (o : OpAT) : Statement (.atmAdd o) :=
  of_pick (C := 0xFCF80001#32) rfl (word_and o.toWord_and rfl) rfl rfl rfl rfl
    (congrArg Instr.atmAdd (OpAT.ofWord_or _ o rfl))

theorem atmAnd (o : OpAT) : Statement (.atmAnd o) :=
  of_pick (C := 0xFCF80001#32) rfl (word_and o.toWord_and rfl) rfl rfl rfl rfl
    (congrArg Instr.atmAnd (OpAT.ofWord_or _ o rfl))

theorem atmOr (o : OpAT) : Statement (.atmOr o) :=
  of_pick (C := 0xFCF80001#32) rfl (word_and o.toWord_and rfl) rfl rfl rfl rfl
    (congrArg Instr.atmOr (OpAT.ofWord_or _ o rfl))

theorem atmXor (o : OpAT) : Statement (.atmXor o) :=
  of_pick (C := 0xFCF80001#32) rfl (word_and o.toWord_and rfl) rfl rfl rfl rfl
    (congrArg Instr.atmXor (OpAT.ofWord_or _ o rfl))

theorem atmMin (o : OpAT) : Statement (.atmMin o) :=
  of_pick (C := 0xFCF80001#32) rfl (word_and o.toWord_and rfl) rfl rfl rfl rfl
    (congrArg Instr.atmMin (OpAT.ofWord_or _ o rfl))

theorem atmMax (o : OpAT) : Statement (.atmMax o) :=
  of_pick (C := 0xFCF80001#32) rfl (word_and o.toWord_and rfl) rfl rfl rfl rfl
    (congrArg Instr.atmMax (OpAT.ofWord_or _ o rfl))

theorem atmMinz (o : OpAT) : Statement (.atmMinz o) :=
  of_pick (C := 0xFCF80001#32) rfl (word_and o.toWord_and rfl) rfl rfl rfl rfl
    (congrArg Instr.atmMinz (OpAT.ofWord_or _ o rfl))

theorem atmMaxz (o : OpAT) : Statement (.atmMaxz o) :=
  of_pick (C := 0xFCF80001#32) rfl (word_and o.toWord_and rfl) rfl rfl rfl rfl
    (congrArg Instr.atmMaxz (OpAT.ofWord_or _ o rfl))

theorem atmXchg (o : OpAT) : Statement (.atmXchg o) :=
  of_pick (C := 0xFCF80001#32) rfl (word_and o.toWord_and rfl) rfl rfl rfl rfl
    (congrArg Instr.atmXchg (OpAT.ofWord_or _ o rfl))

theorem atmCas (o : OpAT) : Statement (.atmCas o) :=
  of_pick (C := 0xFCF80001#32) rfl (word_and o.toWord_and rfl) rfl rfl rfl rfl
    (congrArg Instr.atmCas (OpAT.ofWord_or _ o rfl))

theorem atmFadd (o : OpAT) : Statement (.atmFadd o) :=
  of_pick (C := 0xFCF80001#32) rfl (word_and o.toWord_and rfl) rfl rfl rfl rfl
    (congrArg Instr.atmFadd (OpAT.ofWord_or _ o rfl))

theorem raddI32 (o : OpRed) : Statement (.raddI32 o) :=
  of_pick (C := 0xFCFC0001#32) rfl (word_and o.toWord_and rfl) rfl rfl rfl rfl
    (congrArg Instr.raddI32 (OpRed.ofWord_or _ o rfl))

theorem raddI64 (o : OpRed) : Statement (.raddI64 o) :=
  of_pick (C := 0xFCFC0001#32) rfl (word_and o.toWord_and rfl) rfl rfl rfl rfl
    (congrArg Instr.raddI64 (OpRed.ofWord_or _ o rfl))

theorem raddF32 (o : OpRed) : Statement (.raddF32 o) :=
  of_pick (C := 0xFCFC0001#32) rfl (word_and o.toWord_and rfl) rfl rfl rfl rfl
    (congrArg Instr.raddF32 (OpRed.ofWord_or _ o rfl))

theorem raddF64 (o : OpRed) : Statement (.raddF64 o) :=
  of_pick (C := 0xFCFC0001#32) rfl (word_and o.toWord_and rfl) rfl rfl rfl rfl
    (congrArg Instr.raddF64 (OpRed.ofWord_or _ o rfl))

theorem rmin (o : OpAT) : Statement (.rmin o) :=
  of_pick (C := 0xFCF80001#32) rfl (word_and o.toWord_and rfl) rfl rfl rfl rfl
    (congrArg Instr.rmin (OpAT.ofWord_or _ o rfl))

theorem rmax (o : OpAT) : Statement (.rmax o) :=
  of_pick (C := 0xFCF80001#32) rfl (word_and o.toWord_and rfl) rfl rfl rfl rfl
    (congrArg Instr.rmax (OpAT.ofWord_or _ o rfl))

theorem redfl (o : OpSt) : Statement (.redfl o) :=
  of_pick (C := 0xFCFFFFFF#32) rfl (word_and o.toWord_and rfl) rfl rfl rfl rfl
    (congrArg Instr.redfl (OpSt.ofWord_or _ o rfl))

theorem prop (o : OpDoc) : Statement (.prop o) :=
  of_pick (C := 0xFCF00001#32) rfl (word_and o.toWord_and rfl) rfl rfl rfl rfl
    (congrArg Instr.prop (OpDoc.ofWord_or _ o rfl))

theorem dread (o : OpDoc) : Statement (.dread o) :=
  of_pick (C := 0xFCF00001#32) rfl (word_and o.toWord_and rfl) rfl rfl rfl rfl
    (congrArg Instr.dread (OpDoc.ofWord_or _ o rfl))

theorem recyc (o : OpDoc1) : Statement (.recyc o) :=
  of_pick (C := 0xFCFC07F1#32) rfl (word_and o.toWord_and rfl) rfl rfl rfl rfl
    (congrArg Instr.recyc (OpDoc1.ofWord_or _ o rfl))

theorem dstat (o : OpDoc1) : Statement (.dstat o) :=
  of_pick (C := 0xFCFC07F1#32) rfl (word_and o.toWord_and rfl) rfl rfl rfl rfl
    (congrArg Instr.dstat (OpDoc1.ofWord_or _ o rfl))

theorem fenceAcq (o : OpFence) : Statement (.fenceAcq o) :=
  of_pick (C := 0xFCFFFFF8#32) rfl (word_and o.toWord_and rfl) rfl rfl rfl rfl
    (congrArg Instr.fenceAcq (OpFence.ofWord_or _ o rfl))

theorem fenceRel (o : OpFence) : Statement (.fenceRel o) :=
  of_pick (C := 0xFCFFFFF8#32) rfl (word_and o.toWord_and rfl) rfl rfl rfl rfl
    (congrArg Instr.fenceRel (OpFence.ofWord_or _ o rfl))

theorem fenceFull (o : OpFence) : Statement (.fenceFull o) :=
  of_pick (C := 0xFCFFFFF8#32) rfl (word_and o.toWord_and rfl) rfl rfl rfl rfl
    (congrArg Instr.fenceFull (OpFence.ofWord_or _ o rfl))

theorem fenceEng (o : OpFence) : Statement (.fenceEng o) :=
  of_pick (C := 0xFCFFFFF8#32) rfl (word_and o.toWord_and rfl) rfl rfl rfl rfl
    (congrArg Instr.fenceEng (OpFence.ofWord_or _ o rfl))

theorem wsigSt (o : OpAT) : Statement (.wsigSt o) :=
  of_pick (C := 0xFCF80001#32) rfl (word_and o.toWord_and rfl) rfl rfl rfl rfl
    (congrArg Instr.wsigSt (OpAT.ofWord_or _ o rfl))

theorem wsigAdd (o : OpAT) : Statement (.wsigAdd o) :=
  of_pick (C := 0xFCF80001#32) rfl (word_and o.toWord_and rfl) rfl rfl rfl rfl
    (congrArg Instr.wsigAdd (OpAT.ofWord_or _ o rfl))

theorem pref (o : OpCa) : Statement (.pref o) :=
  of_pick (C := 0xFCFC07FF#32) rfl (word_and o.toWord_and rfl) rfl rfl rfl rfl
    (congrArg Instr.pref (OpCa.ofWord_or _ o rfl))

theorem evf (o : OpCa) : Statement (.evf o) :=
  of_pick (C := 0xFCFC07FF#32) rfl (word_and o.toWord_and rfl) rfl rfl rfl rfl
    (congrArg Instr.evf (OpCa.ofWord_or _ o rfl))

theorem pin (o : OpCab) : Statement (.pin o) :=
  of_pick (C := 0xFCFC000F#32) rfl (word_and o.toWord_and rfl) rfl rfl rfl rfl
    (congrArg Instr.pin (OpCab.ofWord_or _ o rfl))

theorem unpin (o : OpCb) : Statement (.unpin o) :=
  of_pick (C := 0xFCFFF80F#32) rfl (word_and o.toWord_and rfl) rfl rfl rfl rfl
    (congrArg Instr.unpin (OpCb.ofWord_or _ o rfl))

theorem lhint (o : OpCab) : Statement (.lhint o) :=
  of_pick (C := 0xFCFC000F#32) rfl (word_and o.toWord_and rfl) rfl rfl rfl rfl
    (congrArg Instr.lhint (OpCab.ofWord_or _ o rfl))

theorem binit (o : OpBinit) : Statement (.binit o) :=
  of_pick (C := 0xFCFF0008#32) rfl (word_and o.toWord_and rfl) rfl rfl rfl rfl
    (congrArg Instr.binit (OpBinit.ofWord_or _ o rfl))

theorem barr (o : OpBarG) : Statement (.barr o) :=
  of_pick (C := 0xFCFF03FF#32) rfl (word_and o.toWord_and rfl) rfl rfl rfl rfl
    (congrArg Instr.barr (OpBarG.ofWord_or _ o rfl))

theorem barrx (o : OpBarGE) : Statement (.barrx o) :=
  of_pick (C := 0xFCFF000F#32) rfl (word_and o.toWord_and rfl) rfl rfl rfl rfl
    (congrArg Instr.barrx (OpBarGE.ofWord_or _ o rfl))

theorem bwait (o : OpBwait) : Statement (.bwait o) :=
  of_pick (C := 0xFCFF03FC#32) rfl (word_and o.toWord_and rfl) rfl rfl rfl rfl
    (congrArg Instr.bwait (OpBwait.ofWord_or _ o rfl))

theorem btry (o : OpBtry) : Statement (.btry o) :=
  of_pick (C := 0xFCFF0004#32) rfl (word_and o.toWord_and rfl) rfl rfl rfl rfl
    (congrArg Instr.btry (OpBtry.ofWord_or _ o rfl))

theorem bdrop (o : OpBarG) : Statement (.bdrop o) :=
  of_pick (C := 0xFCFF03FF#32) rfl (word_and o.toWord_and rfl) rfl rfl rfl rfl
    (congrArg Instr.bdrop (OpBarG.ofWord_or _ o rfl))

theorem bdropRel (o : OpBarG) : Statement (.bdropRel o) :=
  of_pick (C := 0xFCFF03FF#32) rfl (word_and o.toWord_and rfl) rfl rfl rfl rfl
    (congrArg Instr.bdropRel (OpBarG.ofWord_or _ o rfl))

theorem brAny (o : OpBr) : Statement (.brAny o) :=
  of_pick (C := 0xFF000000#32) rfl (word_and o.toWord_and rfl) rfl rfl rfl rfl
    (congrArg Instr.brAny (OpBr.ofWord_or _ o rfl))

theorem brAll (o : OpBr) : Statement (.brAll o) :=
  of_pick (C := 0xFF000000#32) rfl (word_and o.toWord_and rfl) rfl rfl rfl rfl
    (congrArg Instr.brAll (OpBr.ofWord_or _ o rfl))

theorem brNone (o : OpBr) : Statement (.brNone o) :=
  of_pick (C := 0xFF000000#32) rfl (word_and o.toWord_and rfl) rfl rfl rfl rfl
    (congrArg Instr.brNone (OpBr.ofWord_or _ o rfl))

theorem brUni (o : OpBr) : Statement (.brUni o) :=
  of_pick (C := 0xFF000000#32) rfl (word_and o.toWord_and rfl) rfl rfl rfl rfl
    (congrArg Instr.brUni (OpBr.ofWord_or _ o rfl))

theorem jmp (o : OpJump) : Statement (.jmp o) :=
  of_pick (C := 0xFF000000#32) rfl (word_and o.toWord_and rfl) rfl rfl rfl rfl
    (congrArg Instr.jmp (OpJump.ofWord_or _ o rfl))

theorem call (o : OpJump) : Statement (.call o) :=
  of_pick (C := 0xFF000000#32) rfl (word_and o.toWord_and rfl) rfl rfl rfl rfl
    (congrArg Instr.call (OpJump.ofWord_or _ o rfl))

theorem ret : Statement .ret :=
  of_pick (C := 0xFFFFFFFF#32) (p := 0xDA000000#32) rfl rfl rfl rfl rfl rfl rfl

theorem jmpi (o : OpJumpI) : Statement (.jmpi o) :=
  of_pick (C := 0xFFFFFF80#32) rfl (word_and o.toWord_and rfl) rfl rfl rfl rfl
    (congrArg Instr.jmpi (OpJumpI.ofWord_or _ o rfl))

theorem calli (o : OpJumpI) : Statement (.calli o) :=
  of_pick (C := 0xFFFFFF80#32) rfl (word_and o.toWord_and rfl) rfl rfl rfl rfl
    (congrArg Instr.calli (OpJumpI.ofWord_or _ o rfl))

theorem regang (o : OpSt) : Statement (.regang o) :=
  of_pick (C := 0xFCFFFFFF#32) rfl (word_and o.toWord_and rfl) rfl rfl rfl rfl
    (congrArg Instr.regang (OpSt.ofWord_or _ o rfl))

theorem exit (o : OpSt) : Statement (.exit o) :=
  of_pick (C := 0xFCFFFFFF#32) rfl (word_and o.toWord_and rfl) rfl rfl rfl rfl
    (congrArg Instr.exit (OpSt.ofWord_or _ o rfl))

theorem sleep (o : OpSleep) : Statement (.sleep o) :=
  of_pick (C := 0xFCFF0000#32) rfl (word_and o.toWord_and rfl) rfl rfl rfl rfl
    (congrArg Instr.sleep (OpSleep.ofWord_or _ o rfl))

theorem yield (o : OpSt) : Statement (.yield o) :=
  of_pick (C := 0xFCFFFFFF#32) rfl (word_and o.toWord_and rfl) rfl rfl rfl rfl
    (congrArg Instr.yield (OpSt.ofWord_or _ o rfl))

theorem yieldw (o : OpYieldw) : Statement (.yieldw o) :=
  of_pick (C := 0xFCFF0000#32) rfl (word_and o.toWord_and rfl) rfl rfl rfl rfl
    (congrArg Instr.yieldw (OpYieldw.ofWord_or _ o rfl))

theorem role (o : OpRole) : Statement (.role o) :=
  of_pick (C := 0xFCFFFFF8#32) rfl (word_and o.toWord_and rfl) rfl rfl rfl rfl
    (congrArg Instr.role (OpRole.ofWord_or _ o rfl))

theorem region (o : OpRegion) : Statement (.region o) :=
  of_pick (C := 0xFCFFFFC0#32) rfl (word_and o.toWord_and rfl) rfl rfl rfl rfl
    (congrArg Instr.region (OpRegion.ofWord_or _ o rfl))

theorem emit (o : OpEmit) : Statement (.emit o) :=
  of_pick (C := 0xFCFF001F#32) rfl (word_and o.toWord_and rfl) rfl rfl rfl rfl
    (congrArg Instr.emit (OpEmit.ofWord_or _ o rfl))

theorem lnch (o : OpLnch) : Statement (.lnch o) :=
  of_pick (C := 0xFCFF01C0#32) rfl (word_and o.toWord_and rfl) rfl rfl rfl rfl
    (congrArg Instr.lnch (OpLnch.ofWord_or _ o rfl))

theorem fork (o : OpEnF) : Statement (.fork o) :=
  of_pick (C := 0xFCF000FC#32) rfl (word_and o.toWord_and rfl) rfl rfl rfl rfl
    (congrArg Instr.fork (OpEnF.ofWord_or _ o rfl))

theorem fkill (o : OpEnA) : Statement (.fkill o) :=
  of_pick (C := 0xFCF03FFE#32) rfl (word_and o.toWord_and rfl) rfl rfl rfl rfl
    (congrArg Instr.fkill (OpEnA.ofWord_or _ o rfl))

theorem park (o : OpPark) : Statement (.park o) :=
  of_pick (C := 0xFCFFC0D0#32) rfl (word_and o.toWord_and rfl) rfl rfl rfl rfl
    (congrArg Instr.park (OpPark.ofWord_or _ o rfl))

theorem unpark (o : OpPark) : Statement (.unpark o) :=
  of_pick (C := 0xFCFFC0D0#32) rfl (word_and o.toWord_and rfl) rfl rfl rfl rfl
    (congrArg Instr.unpark (OpPark.ofWord_or _ o rfl))

theorem spqOut (o : OpSpq) : Statement (.spqOut o) :=
  of_pick (C := 0xFCFFC0FF#32) rfl (word_and o.toWord_and rfl) rfl rfl rfl rfl
    (congrArg Instr.spqOut (OpSpq.ofWord_or _ o rfl))

theorem spqIn (o : OpSpq) : Statement (.spqIn o) :=
  of_pick (C := 0xFCFFC0FF#32) rfl (word_and o.toWord_and rfl) rfl rfl rfl rfl
    (congrArg Instr.spqIn (OpSpq.ofWord_or _ o rfl))

theorem mxcfgNf (o : OpEn2) : Statement (.mxcfgNf o) :=
  of_pick (C := 0xFCF000FF#32) rfl (word_and o.toWord_and rfl) rfl rfl rfl rfl
    (congrArg Instr.mxcfgNf (OpEn2.ofWord_or _ o rfl))

theorem mxcfgTile (o : OpEn2) : Statement (.mxcfgTile o) :=
  of_pick (C := 0xFCF000FF#32) rfl (word_and o.toWord_and rfl) rfl rfl rfl rfl
    (congrArg Instr.mxcfgTile (OpEn2.ofWord_or _ o rfl))

theorem mxcfgFree (o : OpEn1) : Statement (.mxcfgFree o) :=
  of_pick (C := 0xFCF03FFF#32) rfl (word_and o.toWord_and rfl) rfl rfl rfl rfl
    (congrArg Instr.mxcfgFree (OpEn1.ofWord_or _ o rfl))

theorem mxres (o : OpEn2) : Statement (.mxres o) :=
  of_pick (C := 0xFCF000FF#32) rfl (word_and o.toWord_and rfl) rfl rfl rfl rfl
    (congrArg Instr.mxres (OpEn2.ofWord_or _ o rfl))

theorem mxrel (o : OpEn1) : Statement (.mxrel o) :=
  of_pick (C := 0xFCF03FFF#32) rfl (word_and o.toWord_and rfl) rfl rfl rfl rfl
    (congrArg Instr.mxrel (OpEn1.ofWord_or _ o rfl))

theorem mxldb (o : OpMxldb) : Statement (.mxldb o) :=
  of_pick (C := 0xFCF00000#32) rfl (word_and o.toWord_and rfl) rfl rfl rfl rfl
    (congrArg Instr.mxldb (OpMxldb.ofWord_or _ o rfl))

theorem mxrake (o : OpEn2) : Statement (.mxrake o) :=
  of_pick (C := 0xFCF000FF#32) rfl (word_and o.toWord_and rfl) rfl rfl rfl rfl
    (congrArg Instr.mxrake (OpEn2.ofWord_or _ o rfl))

theorem mxbegin (o : OpSt) : Statement (.mxbegin o) :=
  of_pick (C := 0xFCFFFFFF#32) rfl (word_and o.toWord_and rfl) rfl rfl rfl rfl
    (congrArg Instr.mxbegin (OpSt.ofWord_or _ o rfl))

theorem mxloop (o : OpEn3) : Statement (.mxloop o) :=
  of_pick (C := 0xFCF00003#32) rfl (word_and o.toWord_and rfl) rfl rfl rfl rfl
    (congrArg Instr.mxloop (OpEn3.ofWord_or _ o rfl))

theorem mxend (o : OpEnA) : Statement (.mxend o) :=
  of_pick (C := 0xFCF03FFE#32) rfl (word_and o.toWord_and rfl) rfl rfl rfl rfl
    (congrArg Instr.mxend (OpEnA.ofWord_or _ o rfl))

theorem mxzero (o : OpEn1) : Statement (.mxzero o) :=
  of_pick (C := 0xFCF03FFF#32) rfl (word_and o.toWord_and rfl) rfl rfl rfl rfl
    (congrArg Instr.mxzero (OpEn1.ofWord_or _ o rfl))

theorem mxdrain (o : OpEn3) : Statement (.mxdrain o) :=
  of_pick (C := 0xFCF00003#32) rfl (word_and o.toWord_and rfl) rfl rfl rfl rfl
    (congrArg Instr.mxdrain (OpEn3.ofWord_or _ o rfl))

theorem mxchk (o : OpEn3) : Statement (.mxchk o) :=
  of_pick (C := 0xFCF00003#32) rfl (word_and o.toWord_and rfl) rfl rfl rfl rfl
    (congrArg Instr.mxchk (OpEn3.ofWord_or _ o rfl))

theorem sxcopy (o : OpSx) : Statement (.sxcopy o) :=
  of_pick (C := 0xFCF00002#32) rfl (word_and o.toWord_and rfl) rfl rfl rfl rfl
    (congrArg Instr.sxcopy (OpSx.ofWord_or _ o rfl))

theorem sxgath (o : OpSx) : Statement (.sxgath o) :=
  of_pick (C := 0xFCF00002#32) rfl (word_and o.toWord_and rfl) rfl rfl rfl rfl
    (congrArg Instr.sxgath (OpSx.ofWord_or _ o rfl))

theorem sxscat (o : OpSx) : Statement (.sxscat o) :=
  of_pick (C := 0xFCF00002#32) rfl (word_and o.toWord_and rfl) rfl rfl rfl rfl
    (congrArg Instr.sxscat (OpSx.ofWord_or _ o rfl))

theorem sxfill (o : OpSx) : Statement (.sxfill o) :=
  of_pick (C := 0xFCF00002#32) rfl (word_and o.toWord_and rfl) rfl rfl rfl rfl
    (congrArg Instr.sxfill (OpSx.ofWord_or _ o rfl))

theorem sxflip (o : OpEnF) : Statement (.sxflip o) :=
  of_pick (C := 0xFCF000FC#32) rfl (word_and o.toWord_and rfl) rfl rfl rfl rfl
    (congrArg Instr.sxflip (OpEnF.ofWord_or _ o rfl))

theorem sxflipT (o : OpEn2) : Statement (.sxflipT o) :=
  of_pick (C := 0xFCF000FF#32) rfl (word_and o.toWord_and rfl) rfl rfl rfl rfl
    (congrArg Instr.sxflipT (OpEn2.ofWord_or _ o rfl))

theorem sxcan (o : OpEnA) : Statement (.sxcan o) :=
  of_pick (C := 0xFCF03FFE#32) rfl (word_and o.toWord_and rfl) rfl rfl rfl rfl
    (congrArg Instr.sxcan (OpEnA.ofWord_or _ o rfl))

theorem sxstat (o : OpEn2) : Statement (.sxstat o) :=
  of_pick (C := 0xFCF000FF#32) rfl (word_and o.toWord_and rfl) rfl rfl rfl rfl
    (congrArg Instr.sxstat (OpEn2.ofWord_or _ o rfl))

theorem csrr (o : OpCsrr) : Statement (.csrr o) :=
  of_pick (C := 0xFCFF03E0#32) rfl (word_and o.toWord_and rfl) rfl rfl rfl rfl
    (congrArg Instr.csrr (OpCsrr.ofWord_or _ o rfl))

theorem csrw (o : OpCsrw) : Statement (.csrw o) := by
  intro w h hwf
  cases h
  have hb := OpCsrw.ofWord_or 0xF4010000#32 o rfl
  have hw := word_and (p := 0xF4010000#32) o.toWord_and rfl
  have key : ∀ (v : BitVec 32) k, (0xF4010000#32 ||| o.toWord) &&& 0xFCFFFF80#32 = v → v.extractLsb' 10 6 = k →
      o.c = k := by
    intro v k hv hk
    rw [← hb, ← hk, ← hv, BitVec.extractLsb'_and]
    exact (BitVec.and_allOnes).symm
  have hc : o.c ≠ 0x0F#6 ∧ o.c ≠ 0x10#6 := by
    have : (s7ok o.x && (o.c != 0x0F#6 && o.c != 0x10#6)) = true := hwf
    simp at this
    exact this.2
  generalize (0xF4010000#32 ||| o.toWord) = w at *
  have e1 : (w &&& 0xFCFFFF80#32 == 0xF4013C00#32) = false := by
    simp only [beq_eq_false_iff_ne]; intro hv; exact hc.1 (key _ _ hv rfl)
  have e2 : (w &&& 0xFCFFFF80#32 == 0xF4014000#32) = false := by
    simp only [beq_eq_false_iff_ne]; intro hv; exact hc.2 (key _ _ hv rfl)
  have s1 : (w &&& 0xFCFFFFFF#32 == 0xF4030000#32) = false := skip_row hw (by decide)
  have s2 : (w &&& 0xFCFFFFE0#32 == 0xF4040000#32) = false := skip_row hw (by decide)
  have s3 : (w &&& 0xFCFFFFE0#32 == 0xF4044000#32) = false := skip_row hw (by decide)
  have s4 : (w &&& 0xFCFFFFE0#32 == 0xF4048000#32) = false := skip_row hw (by decide)
  have s5 : (w &&& 0xFCFF03E0#32 == 0xF4000000#32) = false := skip_row hw (by decide)
  have hm : w &&& 0xFCFF0380#32 = 0xF4010000#32 := by
    have : w &&& 0xFCFF0380#32 = (w &&& 0xFCFF0380#32) &&& 0xFCFF0380#32 := by simp [BitVec.and_assoc]
    rw [← show (0xFCFF0380#32 &&& 0xFCFF0380#32) = 0xFCFF0380#32 from rfl, ← BitVec.and_assoc, hw]; rfl
  have hx := primary_of hw rfl
  have hq : reservedPrimary w = false := by unfold reservedPrimary; rw [hx]; rfl
  have hr : rowsOf (w.extractLsb' 26 6).toNat = rows3D := by rw [hx]; rfl
  rw [decodeWord, hq, hr]
  simp only [rows3D, findRow, s1, s2, s3, s4, s5, e1, e2, hm, beq_self_eq_true, if_true]
  simp only [Bool.false_eq_true, if_false]
  rw [hb]
  exact if_pos hwf

theorem csrwErrinj (o : OpCsrwK) : Statement (.csrwErrinj o) :=
  of_pick (C := 0xFCFFFF80#32) rfl (word_and o.toWord_and rfl) rfl rfl rfl rfl
    (congrArg Instr.csrwErrinj (OpCsrwK.ofWord_or _ o rfl))

theorem csrwClktest (o : OpCsrwK) : Statement (.csrwClktest o) :=
  of_pick (C := 0xFCFFFF80#32) rfl (word_and o.toWord_and rfl) rfl rfl rfl rfl
    (congrArg Instr.csrwClktest (OpCsrwK.ofWord_or _ o rfl))

theorem trap (o : OpCode) : Statement (.trap o) :=
  of_pick (C := 0xFCFF0000#32) rfl (word_and o.toWord_and rfl) rfl rfl rfl rfl
    (congrArg Instr.trap (OpCode.ofWord_or _ o rfl))

theorem eret (o : OpSt) : Statement (.eret o) :=
  of_pick (C := 0xFCFFFFFF#32) rfl (word_and o.toWord_and rfl) rfl rfl rfl rfl
    (congrArg Instr.eret (OpSt.ofWord_or _ o rfl))

theorem clkCyc (o : OpClk) : Statement (.clkCyc o) :=
  of_pick (C := 0xFCFFFFE0#32) rfl (word_and o.toWord_and rfl) rfl rfl rfl rfl
    (congrArg Instr.clkCyc (OpClk.ofWord_or _ o rfl))

theorem clkPts (o : OpClk) : Statement (.clkPts o) :=
  of_pick (C := 0xFCFFFFE0#32) rfl (word_and o.toWord_and rfl) rfl rfl rfl rfl
    (congrArg Instr.clkPts (OpClk.ofWord_or _ o rfl))

theorem clkPtp (o : OpClk) : Statement (.clkPtp o) :=
  of_pick (C := 0xFCFFFFE0#32) rfl (word_and o.toWord_and rfl) rfl rfl rfl rfl
    (congrArg Instr.clkPtp (OpClk.ofWord_or _ o rfl))

theorem devr (o : OpDevr) : Statement (.devr o) :=
  of_pick (C := 0xFCFF00E0#32) rfl (word_and o.toWord_and rfl) rfl rfl rfl rfl
    (congrArg Instr.devr (OpDevr.ofWord_or _ o rfl))

theorem bkpt (o : OpCode) : Statement (.bkpt o) :=
  of_pick (C := 0xFCFF0000#32) rfl (word_and o.toWord_and rfl) rfl rfl rfl rfl
    (congrArg Instr.bkpt (OpCode.ofWord_or _ o rfl))

theorem gset (o : OpGset) : Statement (.gset o) :=
  of_pick (C := 0xFCFF0380#32) rfl (word_and o.toWord_and rfl) rfl rfl rfl rfl
    (congrArg Instr.gset (OpGset.ofWord_or _ o rfl))

theorem issueBeat : Statement (.issueBeat) :=
  fun _ h _ => nomatch h

theorem sleepExpiry (gang slice : Nat) : Statement (.sleepExpiry gang slice) :=
  fun _ h _ => nomatch h

theorem resultReturn (op : Nat) : Statement (.resultReturn op) :=
  fun _ h _ => nomatch h

theorem homeRead (req : Nat) : Statement (.homeRead req) :=
  fun _ h _ => nomatch h

theorem homeWrite (req : Nat) : Statement (.homeWrite req) :=
  fun _ h _ => nomatch h

theorem homeAtomic (req : Ask) : Statement (.homeAtomic req) :=
  fun _ h _ => nomatch h

theorem biResponse (req : Nat) (dirty : List (BitVec 8)) : Statement (.biResponse req dirty) :=
  fun _ h _ => nomatch h

theorem lazyReleaseDrain (flag : Nat) : Statement (.lazyReleaseDrain flag) :=
  fun _ h _ => nomatch h

theorem lazyReleaseTimeout (flag : Nat) : Statement (.lazyReleaseTimeout flag) :=
  fun _ h _ => nomatch h

theorem regionMerge (chip region : Nat) : Statement (.regionMerge chip region) :=
  fun _ h _ => nomatch h

theorem ccInterval : Statement (.ccInterval) :=
  fun _ h _ => nomatch h

theorem clockReconcile : Statement (.clockReconcile) :=
  fun _ h _ => nomatch h

theorem sweeperVisit (chip sets : Nat) : Statement (.sweeperVisit chip sets) :=
  fun _ h _ => nomatch h

theorem smbFlushTimeout (core entry : Nat) : Statement (.smbFlushTimeout core entry) :=
  fun _ h _ => nomatch h

theorem smbFlushAck (req : Nat) : Statement (.smbFlushAck req) :=
  fun _ h _ => nomatch h

theorem tlbFill (core part asn va : Nat) : Statement (.tlbFill core part asn va) :=
  fun _ h _ => nomatch h

theorem faultResolve (part asn va : Nat) (ok : Bool) : Statement (.faultResolve part asn va ok) :=
  fun _ h _ => nomatch h

theorem drainProcedure (part asn va : Nat) (ptes : List (BitVec 64)) : Statement (.drainProcedure part asn va ptes) :=
  fun _ h _ => nomatch h

theorem redDrain (group : Nat) (sel : DrainSel) : Statement (.redDrain group sel) :=
  fun _ h _ => nomatch h

theorem redEntryApply (entry : Nat) : Statement (.redEntryApply entry) :=
  fun _ h _ => nomatch h

theorem redDrainAck (entry : Nat) : Statement (.redDrainAck entry) :=
  fun _ h _ => nomatch h

theorem wsigSignal (op : Nat) : Statement (.wsigSignal op) :=
  fun _ h _ => nomatch h

theorem homeProp (req : Ask) : Statement (.homeProp req) :=
  fun _ h _ => nomatch h

theorem homeDread (req : Ask) : Statement (.homeDread req) :=
  fun _ h _ => nomatch h

theorem homeRecyc (req : Ask) : Statement (.homeRecyc req) :=
  fun _ h _ => nomatch h

theorem homeDstat (req : Ask) : Statement (.homeDstat req) :=
  fun _ h _ => nomatch h

theorem docReply (op : Nat) : Statement (.docReply op) :=
  fun _ h _ => nomatch h

theorem sxCommandStart (core : Nat) : Statement (.sxCommandStart core) :=
  fun _ h _ => nomatch h

theorem sxElementLand (cmd elem : Nat) : Statement (.sxElementLand cmd elem) :=
  fun _ h _ => nomatch h

theorem sxResume (cmd : Nat) : Statement (.sxResume cmd) :=
  fun _ h _ => nomatch h

theorem sxAbort (cmd : Nat) : Statement (.sxAbort cmd) :=
  fun _ h _ => nomatch h

theorem mxCommandStart (group : Nat) : Statement (.mxCommandStart group) :=
  fun _ h _ => nomatch h

theorem mxldbLand (cmd : Nat) : Statement (.mxldbLand cmd) :=
  fun _ h _ => nomatch h

theorem mxKstep (cmd : Nat) : Statement (.mxKstep cmd) :=
  fun _ h _ => nomatch h

theorem mxendComplete (cmd : Nat) : Statement (.mxendComplete cmd) :=
  fun _ h _ => nomatch h

theorem mxdrainLand (cmd : Nat) : Statement (.mxdrainLand cmd) :=
  fun _ h _ => nomatch h

theorem mxchkComplete (cmd : Nat) : Statement (.mxchkComplete cmd) :=
  fun _ h _ => nomatch h

theorem forkProgramRead (prog : Nat) : Statement (.forkProgramRead prog) :=
  fun _ h _ => nomatch h

theorem forkProgramComplete (prog : Nat) : Statement (.forkProgramComplete prog) :=
  fun _ h _ => nomatch h

theorem doorbellWrite (part queue wi : Nat) : Statement (.doorbellWrite part queue wi) :=
  fun _ h _ => nomatch h

theorem launchAccept (part queue : Nat) : Statement (.launchAccept part queue) :=
  fun _ h _ => nomatch h

theorem placeTeam (part lid : Nat) : Statement (.placeTeam part lid) :=
  fun _ h _ => nomatch h

theorem discardTeam (team : Nat) : Statement (.discardTeam team) :=
  fun _ h _ => nomatch h

theorem preemptWatchdog (team : Nat) : Statement (.preemptWatchdog team) :=
  fun _ h _ => nomatch h

theorem groupEnd (group : Nat) : Statement (.groupEnd group) :=
  fun _ h _ => nomatch h

theorem roleRestart (group : Nat) : Statement (.roleRestart group) :=
  fun _ h _ => nomatch h

theorem launchComplete (part lid : Nat) : Statement (.launchComplete part lid) :=
  fun _ h _ => nomatch h

theorem copyLaunch (part lid : Nat) : Statement (.copyLaunch part lid) :=
  fun _ h _ => nomatch h

theorem releaseLaunch (part lid : Nat) : Statement (.releaseLaunch part lid) :=
  fun _ h _ => nomatch h

theorem gatherTimeout (part lid stage : Nat) : Statement (.gatherTimeout part lid stage) :=
  fun _ h _ => nomatch h

theorem stageAllowance (part lid : Nat) : Statement (.stageAllowance part lid) :=
  fun _ h _ => nomatch h

theorem riddleReplay (audit : Nat) : Statement (.riddleReplay audit) :=
  fun _ h _ => nomatch h

theorem riddleCompare (audit : Nat) : Statement (.riddleCompare audit) :=
  fun _ h _ => nomatch h

theorem deviceReset : Statement (.deviceReset) :=
  fun _ h _ => nomatch h

theorem partitionReset (part : Nat) : Statement (.partitionReset part) :=
  fun _ h _ => nomatch h

theorem resourceRegisterWrite (part off : Nat) (val : BitVec 64) : Statement (.resourceRegisterWrite part off val) :=
  fun _ h _ => nomatch h

theorem qcfgWrite (part queue : Nat) (val : BitVec 64) : Statement (.qcfgWrite part queue val) :=
  fun _ h _ => nomatch h

theorem ptrootWrite (part asn : Nat) (val : BitVec 64) : Statement (.ptrootWrite part asn val) :=
  fun _ h _ => nomatch h

theorem logcfgWrite (part : Nat) (val : BitVec 64) : Statement (.logcfgWrite part val) :=
  fun _ h _ => nomatch h

theorem biasFlip (part : Nat) (val : BitVec 64) : Statement (.biasFlip part val) :=
  fun _ h _ => nomatch h

theorem registerWrite (fn off : Nat) (val : BitVec 64) : Statement (.registerWrite fn off val) :=
  fun _ h _ => nomatch h

theorem hostRead (part win off len : Nat) (mv : HostMeta) : Statement (.hostRead part win off len mv) :=
  fun _ h _ => nomatch h

theorem hostWrite (part win off : Nat) (bytes : List (BitVec 8)) (mv : HostMeta) : Statement (.hostWrite part win off bytes mv) :=
  fun _ h _ => nomatch h

theorem snpInv (granule : Nat) : Statement (.snpInv granule) :=
  fun _ h _ => nomatch h

theorem snpData (granule : Nat) : Statement (.snpData granule) :=
  fun _ h _ => nomatch h

theorem snpCur (granule : Nat) : Statement (.snpCur granule) :=
  fun _ h _ => nomatch h

theorem bridgeDeviceRead (req : Nat) : Statement (.bridgeDeviceRead req) :=
  fun _ h _ => nomatch h

theorem hostGrant (granule : Nat) (grant : GranuleState) (bytes : List (BitVec 8)) : Statement (.hostGrant granule grant bytes) :=
  fun _ h _ => nomatch h

theorem bridgeDeviceWrite (req : Nat) : Statement (.bridgeDeviceWrite req) :=
  fun _ h _ => nomatch h

theorem bridgeWriteAck (req : Nat) : Statement (.bridgeWriteAck req) :=
  fun _ h _ => nomatch h

theorem bridgeEvict (granule : Nat) : Statement (.bridgeEvict granule) :=
  fun _ h _ => nomatch h

theorem bridgeWriteback (granule : Nat) : Statement (.bridgeWriteback granule) :=
  fun _ h _ => nomatch h

theorem ingestWrite (requester off : Nat) (bytes : List (BitVec 8)) (poisoned : Bool) : Statement (.ingestWrite requester off bytes poisoned) :=
  fun _ h _ => nomatch h

theorem ingestPiece (stream : Nat) : Statement (.ingestPiece stream) :=
  fun _ h _ => nomatch h

theorem ingestDoorbell (requester off len : Nat) : Statement (.ingestDoorbell requester off len) :=
  fun _ h _ => nomatch h

theorem pwrcapWrite (val : BitVec 64) : Statement (.pwrcapWrite val) :=
  fun _ h _ => nomatch h

theorem powerCheck : Statement (.powerCheck) :=
  fun _ h _ => nomatch h

theorem attest (val : BitVec 64) : Statement (.attest val) :=
  fun _ h _ => nomatch h

theorem dbgctlWrite (val : BitVec 64) : Statement (.dbgctlWrite val) :=
  fun _ h _ => nomatch h

theorem dbgselWrite (val : BitVec 64) : Statement (.dbgselWrite val) :=
  fun _ h _ => nomatch h

theorem debugResume (val : BitVec 64) : Statement (.debugResume val) :=
  fun _ h _ => nomatch h

theorem dbgdataRead : Statement (.dbgdataRead) :=
  fun _ h _ => nomatch h

theorem dbgdataWrite (val : BitVec 64) : Statement (.dbgdataWrite val) :=
  fun _ h _ => nomatch h

theorem deviceNumberAssign (num : Nat) : Statement (.deviceNumberAssign num) :=
  fun _ h _ => nomatch h

theorem ptpSync (reference : Nat) : Statement (.ptpSync reference) :=
  fun _ h _ => nomatch h

theorem flitRetry (port : Nat) : Statement (.flitRetry port) :=
  fun _ h _ => nomatch h

theorem fabricTimeout (req : Nat) : Statement (.fabricTimeout req) :=
  fun _ h _ => nomatch h

theorem remoteRead (dev part asn va len : Nat) : Statement (.remoteRead dev part asn va len) :=
  fun _ h _ => nomatch h

theorem remoteWrite (dev part asn va : Nat) (bytes : List (BitVec 8)) : Statement (.remoteWrite dev part asn va bytes) :=
  fun _ h _ => nomatch h

theorem heldWriteRelease (req : Nat) : Statement (.heldWriteRelease req) :=
  fun _ h _ => nomatch h

theorem repStore (req : Ask) : Statement (.repStore req) :=
  fun _ h _ => nomatch h

theorem repUpdateApply (set : Nat) (seq : RepSeq) : Statement (.repUpdateApply set seq) :=
  fun _ h _ => nomatch h

theorem repApplyAck (set seq dev : Nat) : Statement (.repApplyAck set seq dev) :=
  fun _ h _ => nomatch h

theorem repLock (set : Nat) (seq : RepSeq) : Statement (.repLock set seq) :=
  fun _ h _ => nomatch h

theorem repLockTimeout (set seq dev : Nat) : Statement (.repLockTimeout set seq dev) :=
  fun _ h _ => nomatch h

theorem repLoadTimeout (req : Nat) : Statement (.repLoadTimeout req) :=
  fun _ h _ => nomatch h

theorem repModeSwitch (set : RepOrder) (lock : Bool) : Statement (.repModeSwitch set lock) :=
  fun _ h _ => nomatch h

theorem illegalInstruction (word : BitVec 32) : Statement (.illegalInstruction word) := by
  intro w h hw
  cases h
  have : reservedPrimary word = true := hw
  rw [decodeWord, this]; rfl

theorem fetchFill (core part asn va : Nat) : Statement (.fetchFill core part asn va) :=
  fun _ h _ => nomatch h

theorem retentionRequest (req : Nat) : Statement (.retentionRequest req) :=
  fun _ h _ => nomatch h

theorem damagedBit (loc : Storage) (bit : Nat) (uncorrectable : Bool) : Statement (.damagedBit loc bit uncorrectable) :=
  fun _ h _ => nomatch h

theorem ingestUnsupportedRequest (requester : Nat) : Statement (.ingestUnsupportedRequest requester) :=
  fun _ h _ => nomatch h

end Sys2Proof.Laws.Encodes
end

