-- ==== Sys2Proof/Laws/Results.lean ====
section
/-!
SUPPORT. Exact results and their narrowing: signed readings, wrapping and saturation as the claims about integer
words say them (R75, R77).
-/

namespace Sys2Proof.Machine

open Sys2Proof.Claims

/-- The signed reading of an element's bits is its two's-complement value. -/
theorem sval_toNat {w : Nat} (hw : 0 < w) (x : BitVec w) : sval w x.toNat = x.toInt := by
  have h := x.isLt
  obtain ⟨k, rfl⟩ : ∃ k, w = k + 1 := ⟨w - 1, by omega⟩
  rw [sval, BitVec.toInt_eq_toNat_cond, Nat.mod_eq_of_lt h]
  have : 2 ^ (k + 1) = 2 * 2 ^ k := by rw [Nat.pow_succ]; omega
  simp only [Nat.add_sub_cancel]
  split <;> split <;> omega

/-- Keeping the low bits of an exact result is narrowing it. -/
theorem ofNat_wrapI (w : Nat) (v : Int) : BitVec.ofNat w (wrapI w v) = BitVec.ofInt w v := by
  apply BitVec.eq_of_toNat_eq
  rw [wrapI, BitVec.toNat_ofNat, BitVec.toNat_ofInt]
  have h0 : (0:Int) < (2 ^ w : Nat) := by exact_mod_cast Nat.two_pow_pos w
  have h1 := Int.emod_nonneg v (by omega : ((2 ^ w : Nat) : Int) ≠ 0)
  have h2 := Int.emod_lt_of_pos v h0
  rw [Nat.mod_eq_of_lt (by omega)]

/-- The value of signed saturation is that of the claims. -/
theorem satS_fst {w : Nat} (_hw : 0 < w) (v : Int) : BitVec.ofNat w (satS w v).1 = sats w v := by
  have hp : 0 < 2 ^ (w - 1) := Nat.two_pow_pos _
  unfold satS sats
  dsimp only
  generalize 2 ^ (w - 1) = P at *
  split
  · rw [ofNat_wrapI]; congr 1; omega
  · split
    · rw [ofNat_wrapI]; congr 1; omega
    · rw [ofNat_wrapI]; congr 1; omega

/-- Signed saturation marks exactly the results outside the range. -/
theorem satS_snd {w : Nat}  (v : Int) : (satS w v).2 = true ↔ outS w v := by
  unfold satS outS
  dsimp only
  have hp : 0 < 2 ^ (w - 1) := Nat.two_pow_pos _
  generalize 2 ^ (w - 1) = P at *
  split
  · simp; omega
  · split <;> simp <;> omega

end Sys2Proof.Machine
end

