-- ==== Sys2Proof/Laws/State.lean ====
section
/-!
SUPPORT. What each update of the state leaves alone, field by field, so that no proof unfolds a record
update.
-/

namespace Sys2Proof.Machine

/-- `modGang` changes `gangs` alone. -/
@[simp] theorem State.modGang_fields (s : State) (id : Nat) (f : Gang → Gang) :
    (s.modGang id f).cycle = s.cycle ∧ (s.modGang id f).ptp = s.ptp ∧ (s.modGang id f).ptpRem = s.ptpRem ∧
    (s.modGang id f).mhz = s.mhz ∧ (s.modGang id f).synced = s.synced ∧ (s.modGang id f).slew = s.slew ∧
    (s.modGang id f).cur = s.cur ∧ (s.modGang id f).held = s.held ∧ (s.modGang id f).turns = s.turns ∧
    (s.modGang id f).usedPipes = s.usedPipes ∧ (s.modGang id f).granted = s.granted ∧
    (s.modGang id f).rr = s.rr ∧ (s.modGang id f).agenda = s.agenda ∧ (s.modGang id f).timers = s.timers ∧
    (s.modGang id f).nsTimers = s.nsTimers ∧ (s.modGang id f).choices = s.choices ∧
    (s.modGang id f).fresh = s.fresh ∧ (s.modGang id f).groups = s.groups ∧
    (s.modGang id f).teams = s.teams ∧ (s.modGang id f).windows = s.windows ∧
    (s.modGang id f).ops = s.ops ∧ (s.modGang id f).bankFree = s.bankFree ∧
    (s.modGang id f).passes = s.passes ∧ (s.modGang id f).sx = s.sx ∧ (s.modGang id f).mx = s.mx ∧
    (s.modGang id f).progs = s.progs ∧ (s.modGang id f).sxRr = s.sxRr ∧ (s.modGang id f).mxRr = s.mxRr ∧
    (s.modGang id f).mem = s.mem ∧ (s.modGang id f).bad = s.bad ∧ (s.modGang id f).icache = s.icache ∧
    (s.modGang id f).tlb = s.tlb ∧ (s.modGang id f).l1 = s.l1 ∧ (s.modGang id f).smb = s.smb ∧
    (s.modGang id f).owned = s.owned ∧ (s.modGang id f).reds = s.reds ∧ (s.modGang id f).wsigs = s.wsigs ∧
    (s.modGang id f).reqs = s.reqs ∧ (s.modGang id f).chips = s.chips ∧ (s.modGang id f).l2 = s.l2 ∧
    (s.modGang id f).regions = s.regions ∧ (s.modGang id f).rles = s.rles ∧
    (s.modGang id f).lwaits = s.lwaits ∧ (s.modGang id f).cells = s.cells ∧
    (s.modGang id f).farWon = s.farWon ∧ (s.modGang id f).stamp = s.stamp ∧
    (s.modGang id f).rets = s.rets ∧ (s.modGang id f).dclk = s.dclk ∧ (s.modGang id f).floors = s.floors ∧
    (s.modGang id f).dclkSeen = s.dclkSeen ∧ (s.modGang id f).offFrames = s.offFrames ∧
    (s.modGang id f).offL1 = s.offL1 ∧ (s.modGang id f).corrected = s.corrected ∧
    (s.modGang id f).retired = s.retired ∧ (s.modGang id f).drains = s.drains ∧
    (s.modGang id f).parts = s.parts ∧ (s.modGang id f).launches = s.launches ∧
    (s.modGang id f).accepted = s.accepted ∧ (s.modGang id f).lastDie = s.lastDie ∧
    (s.modGang id f).copies = s.copies ∧ (s.modGang id f).audits = s.audits ∧
    (s.modGang id f).cxl = s.cxl ∧ (s.modGang id f).granules = s.granules ∧
    (s.modGang id f).snoops = s.snoops ∧ (s.modGang id f).ingest = s.ingest ∧
    (s.modGang id f).reply = s.reply ∧ (s.modGang id f).devnum = s.devnum ∧
    (s.modGang id f).ports = s.ports ∧ (s.modGang id f).joined = s.joined ∧
    (s.modGang id f).sets = s.sets ∧ (s.modGang id f).harvest = s.harvest ∧
    (s.modGang id f).sigOk = s.sigOk ∧ (s.modGang id f).stage = s.stage ∧
    (s.modGang id f).bootFail = s.bootFail ∧ (s.modGang id f).pwrcap = s.pwrcap ∧
    (s.modGang id f).pwr = s.pwr ∧ (s.modGang id f).tmax = s.tmax ∧ (s.modGang id f).thr = s.thr ∧
    (s.modGang id f).attctl = s.attctl ∧ (s.modGang id f).attnonce = s.attnonce ∧
    (s.modGang id f).attCount = s.attCount ∧ (s.modGang id f).dbgctl = s.dbgctl ∧
    (s.modGang id f).dbgsel = s.dbgsel :=
  ⟨rfl, rfl, rfl, rfl, rfl, rfl, rfl, rfl, rfl, rfl, rfl, rfl, rfl, rfl, rfl, rfl, rfl, rfl, rfl, rfl,
    rfl, rfl, rfl, rfl, rfl, rfl, rfl, rfl, rfl, rfl, rfl, rfl, rfl, rfl, rfl, rfl, rfl, rfl, rfl, rfl,
    rfl, rfl, rfl, rfl, rfl, rfl, rfl, rfl, rfl, rfl, rfl, rfl, rfl, rfl, rfl, rfl, rfl, rfl, rfl, rfl,
    rfl, rfl, rfl, rfl, rfl, rfl, rfl, rfl, rfl, rfl, rfl, rfl, rfl, rfl, rfl, rfl, rfl, rfl, rfl, rfl,
    rfl, rfl, rfl⟩

/-- `setGang` changes `gangs` alone. -/
@[simp] theorem State.setGang_fields (s : State) (g : Gang) :
    (s.setGang g).cycle = s.cycle ∧ (s.setGang g).ptp = s.ptp ∧ (s.setGang g).ptpRem = s.ptpRem ∧
    (s.setGang g).mhz = s.mhz ∧ (s.setGang g).synced = s.synced ∧ (s.setGang g).slew = s.slew ∧
    (s.setGang g).cur = s.cur ∧ (s.setGang g).held = s.held ∧ (s.setGang g).turns = s.turns ∧
    (s.setGang g).usedPipes = s.usedPipes ∧ (s.setGang g).granted = s.granted ∧ (s.setGang g).rr = s.rr ∧
    (s.setGang g).agenda = s.agenda ∧ (s.setGang g).timers = s.timers ∧
    (s.setGang g).nsTimers = s.nsTimers ∧ (s.setGang g).choices = s.choices ∧
    (s.setGang g).fresh = s.fresh ∧ (s.setGang g).groups = s.groups ∧ (s.setGang g).teams = s.teams ∧
    (s.setGang g).windows = s.windows ∧ (s.setGang g).ops = s.ops ∧ (s.setGang g).bankFree = s.bankFree ∧
    (s.setGang g).passes = s.passes ∧ (s.setGang g).sx = s.sx ∧ (s.setGang g).mx = s.mx ∧
    (s.setGang g).progs = s.progs ∧ (s.setGang g).sxRr = s.sxRr ∧ (s.setGang g).mxRr = s.mxRr ∧
    (s.setGang g).mem = s.mem ∧ (s.setGang g).bad = s.bad ∧ (s.setGang g).icache = s.icache ∧
    (s.setGang g).tlb = s.tlb ∧ (s.setGang g).l1 = s.l1 ∧ (s.setGang g).smb = s.smb ∧
    (s.setGang g).owned = s.owned ∧ (s.setGang g).reds = s.reds ∧ (s.setGang g).wsigs = s.wsigs ∧
    (s.setGang g).reqs = s.reqs ∧ (s.setGang g).chips = s.chips ∧ (s.setGang g).l2 = s.l2 ∧
    (s.setGang g).regions = s.regions ∧ (s.setGang g).rles = s.rles ∧ (s.setGang g).lwaits = s.lwaits ∧
    (s.setGang g).cells = s.cells ∧ (s.setGang g).farWon = s.farWon ∧ (s.setGang g).stamp = s.stamp ∧
    (s.setGang g).rets = s.rets ∧ (s.setGang g).dclk = s.dclk ∧ (s.setGang g).floors = s.floors ∧
    (s.setGang g).dclkSeen = s.dclkSeen ∧ (s.setGang g).offFrames = s.offFrames ∧
    (s.setGang g).offL1 = s.offL1 ∧ (s.setGang g).corrected = s.corrected ∧
    (s.setGang g).retired = s.retired ∧ (s.setGang g).drains = s.drains ∧ (s.setGang g).parts = s.parts ∧
    (s.setGang g).launches = s.launches ∧ (s.setGang g).accepted = s.accepted ∧
    (s.setGang g).lastDie = s.lastDie ∧ (s.setGang g).copies = s.copies ∧ (s.setGang g).audits = s.audits ∧
    (s.setGang g).cxl = s.cxl ∧ (s.setGang g).granules = s.granules ∧ (s.setGang g).snoops = s.snoops ∧
    (s.setGang g).ingest = s.ingest ∧ (s.setGang g).reply = s.reply ∧ (s.setGang g).devnum = s.devnum ∧
    (s.setGang g).ports = s.ports ∧ (s.setGang g).joined = s.joined ∧ (s.setGang g).sets = s.sets ∧
    (s.setGang g).harvest = s.harvest ∧ (s.setGang g).sigOk = s.sigOk ∧ (s.setGang g).stage = s.stage ∧
    (s.setGang g).bootFail = s.bootFail ∧ (s.setGang g).pwrcap = s.pwrcap ∧ (s.setGang g).pwr = s.pwr ∧
    (s.setGang g).tmax = s.tmax ∧ (s.setGang g).thr = s.thr ∧ (s.setGang g).attctl = s.attctl ∧
    (s.setGang g).attnonce = s.attnonce ∧ (s.setGang g).attCount = s.attCount ∧
    (s.setGang g).dbgctl = s.dbgctl ∧ (s.setGang g).dbgsel = s.dbgsel :=
  ⟨rfl, rfl, rfl, rfl, rfl, rfl, rfl, rfl, rfl, rfl, rfl, rfl, rfl, rfl, rfl, rfl, rfl, rfl, rfl, rfl,
    rfl, rfl, rfl, rfl, rfl, rfl, rfl, rfl, rfl, rfl, rfl, rfl, rfl, rfl, rfl, rfl, rfl, rfl, rfl, rfl,
    rfl, rfl, rfl, rfl, rfl, rfl, rfl, rfl, rfl, rfl, rfl, rfl, rfl, rfl, rfl, rfl, rfl, rfl, rfl, rfl,
    rfl, rfl, rfl, rfl, rfl, rfl, rfl, rfl, rfl, rfl, rfl, rfl, rfl, rfl, rfl, rfl, rfl, rfl, rfl, rfl,
    rfl, rfl, rfl⟩

/-- `modGroup` changes `groups` alone. -/
@[simp] theorem State.modGroup_fields (s : State) (id : Nat) (f : Group → Group) :
    (s.modGroup id f).cycle = s.cycle ∧ (s.modGroup id f).ptp = s.ptp ∧
    (s.modGroup id f).ptpRem = s.ptpRem ∧ (s.modGroup id f).mhz = s.mhz ∧
    (s.modGroup id f).synced = s.synced ∧ (s.modGroup id f).slew = s.slew ∧ (s.modGroup id f).cur = s.cur ∧
    (s.modGroup id f).held = s.held ∧ (s.modGroup id f).turns = s.turns ∧
    (s.modGroup id f).usedPipes = s.usedPipes ∧ (s.modGroup id f).granted = s.granted ∧
    (s.modGroup id f).rr = s.rr ∧ (s.modGroup id f).agenda = s.agenda ∧
    (s.modGroup id f).timers = s.timers ∧ (s.modGroup id f).nsTimers = s.nsTimers ∧
    (s.modGroup id f).choices = s.choices ∧ (s.modGroup id f).fresh = s.fresh ∧
    (s.modGroup id f).gangs = s.gangs ∧ (s.modGroup id f).teams = s.teams ∧
    (s.modGroup id f).windows = s.windows ∧ (s.modGroup id f).ops = s.ops ∧
    (s.modGroup id f).bankFree = s.bankFree ∧ (s.modGroup id f).passes = s.passes ∧
    (s.modGroup id f).sx = s.sx ∧ (s.modGroup id f).mx = s.mx ∧ (s.modGroup id f).progs = s.progs ∧
    (s.modGroup id f).sxRr = s.sxRr ∧ (s.modGroup id f).mxRr = s.mxRr ∧ (s.modGroup id f).mem = s.mem ∧
    (s.modGroup id f).bad = s.bad ∧ (s.modGroup id f).icache = s.icache ∧ (s.modGroup id f).tlb = s.tlb ∧
    (s.modGroup id f).l1 = s.l1 ∧ (s.modGroup id f).smb = s.smb ∧ (s.modGroup id f).owned = s.owned ∧
    (s.modGroup id f).reds = s.reds ∧ (s.modGroup id f).wsigs = s.wsigs ∧ (s.modGroup id f).reqs = s.reqs ∧
    (s.modGroup id f).chips = s.chips ∧ (s.modGroup id f).l2 = s.l2 ∧
    (s.modGroup id f).regions = s.regions ∧ (s.modGroup id f).rles = s.rles ∧
    (s.modGroup id f).lwaits = s.lwaits ∧ (s.modGroup id f).cells = s.cells ∧
    (s.modGroup id f).farWon = s.farWon ∧ (s.modGroup id f).stamp = s.stamp ∧
    (s.modGroup id f).rets = s.rets ∧ (s.modGroup id f).dclk = s.dclk ∧
    (s.modGroup id f).floors = s.floors ∧ (s.modGroup id f).dclkSeen = s.dclkSeen ∧
    (s.modGroup id f).offFrames = s.offFrames ∧ (s.modGroup id f).offL1 = s.offL1 ∧
    (s.modGroup id f).corrected = s.corrected ∧ (s.modGroup id f).retired = s.retired ∧
    (s.modGroup id f).drains = s.drains ∧ (s.modGroup id f).parts = s.parts ∧
    (s.modGroup id f).launches = s.launches ∧ (s.modGroup id f).accepted = s.accepted ∧
    (s.modGroup id f).lastDie = s.lastDie ∧ (s.modGroup id f).copies = s.copies ∧
    (s.modGroup id f).audits = s.audits ∧ (s.modGroup id f).cxl = s.cxl ∧
    (s.modGroup id f).granules = s.granules ∧ (s.modGroup id f).snoops = s.snoops ∧
    (s.modGroup id f).ingest = s.ingest ∧ (s.modGroup id f).reply = s.reply ∧
    (s.modGroup id f).devnum = s.devnum ∧ (s.modGroup id f).ports = s.ports ∧
    (s.modGroup id f).joined = s.joined ∧ (s.modGroup id f).sets = s.sets ∧
    (s.modGroup id f).harvest = s.harvest ∧ (s.modGroup id f).sigOk = s.sigOk ∧
    (s.modGroup id f).stage = s.stage ∧ (s.modGroup id f).bootFail = s.bootFail ∧
    (s.modGroup id f).pwrcap = s.pwrcap ∧ (s.modGroup id f).pwr = s.pwr ∧ (s.modGroup id f).tmax = s.tmax ∧
    (s.modGroup id f).thr = s.thr ∧ (s.modGroup id f).attctl = s.attctl ∧
    (s.modGroup id f).attnonce = s.attnonce ∧ (s.modGroup id f).attCount = s.attCount ∧
    (s.modGroup id f).dbgctl = s.dbgctl ∧ (s.modGroup id f).dbgsel = s.dbgsel :=
  ⟨rfl, rfl, rfl, rfl, rfl, rfl, rfl, rfl, rfl, rfl, rfl, rfl, rfl, rfl, rfl, rfl, rfl, rfl, rfl, rfl,
    rfl, rfl, rfl, rfl, rfl, rfl, rfl, rfl, rfl, rfl, rfl, rfl, rfl, rfl, rfl, rfl, rfl, rfl, rfl, rfl,
    rfl, rfl, rfl, rfl, rfl, rfl, rfl, rfl, rfl, rfl, rfl, rfl, rfl, rfl, rfl, rfl, rfl, rfl, rfl, rfl,
    rfl, rfl, rfl, rfl, rfl, rfl, rfl, rfl, rfl, rfl, rfl, rfl, rfl, rfl, rfl, rfl, rfl, rfl, rfl, rfl,
    rfl, rfl, rfl⟩

/-- `modOp` changes `ops` alone. -/
@[simp] theorem State.modOp_fields (s : State) (id : Nat) (f : Op → Op) :
    (s.modOp id f).cycle = s.cycle ∧ (s.modOp id f).ptp = s.ptp ∧ (s.modOp id f).ptpRem = s.ptpRem ∧
    (s.modOp id f).mhz = s.mhz ∧ (s.modOp id f).synced = s.synced ∧ (s.modOp id f).slew = s.slew ∧
    (s.modOp id f).cur = s.cur ∧ (s.modOp id f).held = s.held ∧ (s.modOp id f).turns = s.turns ∧
    (s.modOp id f).usedPipes = s.usedPipes ∧ (s.modOp id f).granted = s.granted ∧
    (s.modOp id f).rr = s.rr ∧ (s.modOp id f).agenda = s.agenda ∧ (s.modOp id f).timers = s.timers ∧
    (s.modOp id f).nsTimers = s.nsTimers ∧ (s.modOp id f).choices = s.choices ∧
    (s.modOp id f).fresh = s.fresh ∧ (s.modOp id f).gangs = s.gangs ∧ (s.modOp id f).groups = s.groups ∧
    (s.modOp id f).teams = s.teams ∧ (s.modOp id f).windows = s.windows ∧
    (s.modOp id f).bankFree = s.bankFree ∧ (s.modOp id f).passes = s.passes ∧ (s.modOp id f).sx = s.sx ∧
    (s.modOp id f).mx = s.mx ∧ (s.modOp id f).progs = s.progs ∧ (s.modOp id f).sxRr = s.sxRr ∧
    (s.modOp id f).mxRr = s.mxRr ∧ (s.modOp id f).mem = s.mem ∧ (s.modOp id f).bad = s.bad ∧
    (s.modOp id f).icache = s.icache ∧ (s.modOp id f).tlb = s.tlb ∧ (s.modOp id f).l1 = s.l1 ∧
    (s.modOp id f).smb = s.smb ∧ (s.modOp id f).owned = s.owned ∧ (s.modOp id f).reds = s.reds ∧
    (s.modOp id f).wsigs = s.wsigs ∧ (s.modOp id f).reqs = s.reqs ∧ (s.modOp id f).chips = s.chips ∧
    (s.modOp id f).l2 = s.l2 ∧ (s.modOp id f).regions = s.regions ∧ (s.modOp id f).rles = s.rles ∧
    (s.modOp id f).lwaits = s.lwaits ∧ (s.modOp id f).cells = s.cells ∧ (s.modOp id f).farWon = s.farWon ∧
    (s.modOp id f).stamp = s.stamp ∧ (s.modOp id f).rets = s.rets ∧ (s.modOp id f).dclk = s.dclk ∧
    (s.modOp id f).floors = s.floors ∧ (s.modOp id f).dclkSeen = s.dclkSeen ∧
    (s.modOp id f).offFrames = s.offFrames ∧ (s.modOp id f).offL1 = s.offL1 ∧
    (s.modOp id f).corrected = s.corrected ∧ (s.modOp id f).retired = s.retired ∧
    (s.modOp id f).drains = s.drains ∧ (s.modOp id f).parts = s.parts ∧
    (s.modOp id f).launches = s.launches ∧ (s.modOp id f).accepted = s.accepted ∧
    (s.modOp id f).lastDie = s.lastDie ∧ (s.modOp id f).copies = s.copies ∧
    (s.modOp id f).audits = s.audits ∧ (s.modOp id f).cxl = s.cxl ∧ (s.modOp id f).granules = s.granules ∧
    (s.modOp id f).snoops = s.snoops ∧ (s.modOp id f).ingest = s.ingest ∧ (s.modOp id f).reply = s.reply ∧
    (s.modOp id f).devnum = s.devnum ∧ (s.modOp id f).ports = s.ports ∧ (s.modOp id f).joined = s.joined ∧
    (s.modOp id f).sets = s.sets ∧ (s.modOp id f).harvest = s.harvest ∧ (s.modOp id f).sigOk = s.sigOk ∧
    (s.modOp id f).stage = s.stage ∧ (s.modOp id f).bootFail = s.bootFail ∧
    (s.modOp id f).pwrcap = s.pwrcap ∧ (s.modOp id f).pwr = s.pwr ∧ (s.modOp id f).tmax = s.tmax ∧
    (s.modOp id f).thr = s.thr ∧ (s.modOp id f).attctl = s.attctl ∧ (s.modOp id f).attnonce = s.attnonce ∧
    (s.modOp id f).attCount = s.attCount ∧ (s.modOp id f).dbgctl = s.dbgctl ∧
    (s.modOp id f).dbgsel = s.dbgsel :=
  ⟨rfl, rfl, rfl, rfl, rfl, rfl, rfl, rfl, rfl, rfl, rfl, rfl, rfl, rfl, rfl, rfl, rfl, rfl, rfl, rfl,
    rfl, rfl, rfl, rfl, rfl, rfl, rfl, rfl, rfl, rfl, rfl, rfl, rfl, rfl, rfl, rfl, rfl, rfl, rfl, rfl,
    rfl, rfl, rfl, rfl, rfl, rfl, rfl, rfl, rfl, rfl, rfl, rfl, rfl, rfl, rfl, rfl, rfl, rfl, rfl, rfl,
    rfl, rfl, rfl, rfl, rfl, rfl, rfl, rfl, rfl, rfl, rfl, rfl, rfl, rfl, rfl, rfl, rfl, rfl, rfl, rfl,
    rfl, rfl, rfl⟩

/-- `modReq` changes `reqs` alone. -/
@[simp] theorem State.modReq_fields (s : State) (id : Nat) (f : Req → Req) :
    (s.modReq id f).cycle = s.cycle ∧ (s.modReq id f).ptp = s.ptp ∧ (s.modReq id f).ptpRem = s.ptpRem ∧
    (s.modReq id f).mhz = s.mhz ∧ (s.modReq id f).synced = s.synced ∧ (s.modReq id f).slew = s.slew ∧
    (s.modReq id f).cur = s.cur ∧ (s.modReq id f).held = s.held ∧ (s.modReq id f).turns = s.turns ∧
    (s.modReq id f).usedPipes = s.usedPipes ∧ (s.modReq id f).granted = s.granted ∧
    (s.modReq id f).rr = s.rr ∧ (s.modReq id f).agenda = s.agenda ∧ (s.modReq id f).timers = s.timers ∧
    (s.modReq id f).nsTimers = s.nsTimers ∧ (s.modReq id f).choices = s.choices ∧
    (s.modReq id f).fresh = s.fresh ∧ (s.modReq id f).gangs = s.gangs ∧ (s.modReq id f).groups = s.groups ∧
    (s.modReq id f).teams = s.teams ∧ (s.modReq id f).windows = s.windows ∧ (s.modReq id f).ops = s.ops ∧
    (s.modReq id f).bankFree = s.bankFree ∧ (s.modReq id f).passes = s.passes ∧ (s.modReq id f).sx = s.sx ∧
    (s.modReq id f).mx = s.mx ∧ (s.modReq id f).progs = s.progs ∧ (s.modReq id f).sxRr = s.sxRr ∧
    (s.modReq id f).mxRr = s.mxRr ∧ (s.modReq id f).mem = s.mem ∧ (s.modReq id f).bad = s.bad ∧
    (s.modReq id f).icache = s.icache ∧ (s.modReq id f).tlb = s.tlb ∧ (s.modReq id f).l1 = s.l1 ∧
    (s.modReq id f).smb = s.smb ∧ (s.modReq id f).owned = s.owned ∧ (s.modReq id f).reds = s.reds ∧
    (s.modReq id f).wsigs = s.wsigs ∧ (s.modReq id f).chips = s.chips ∧ (s.modReq id f).l2 = s.l2 ∧
    (s.modReq id f).regions = s.regions ∧ (s.modReq id f).rles = s.rles ∧
    (s.modReq id f).lwaits = s.lwaits ∧ (s.modReq id f).cells = s.cells ∧
    (s.modReq id f).farWon = s.farWon ∧ (s.modReq id f).stamp = s.stamp ∧ (s.modReq id f).rets = s.rets ∧
    (s.modReq id f).dclk = s.dclk ∧ (s.modReq id f).floors = s.floors ∧
    (s.modReq id f).dclkSeen = s.dclkSeen ∧ (s.modReq id f).offFrames = s.offFrames ∧
    (s.modReq id f).offL1 = s.offL1 ∧ (s.modReq id f).corrected = s.corrected ∧
    (s.modReq id f).retired = s.retired ∧ (s.modReq id f).drains = s.drains ∧
    (s.modReq id f).parts = s.parts ∧ (s.modReq id f).launches = s.launches ∧
    (s.modReq id f).accepted = s.accepted ∧ (s.modReq id f).lastDie = s.lastDie ∧
    (s.modReq id f).copies = s.copies ∧ (s.modReq id f).audits = s.audits ∧ (s.modReq id f).cxl = s.cxl ∧
    (s.modReq id f).granules = s.granules ∧ (s.modReq id f).snoops = s.snoops ∧
    (s.modReq id f).ingest = s.ingest ∧ (s.modReq id f).reply = s.reply ∧
    (s.modReq id f).devnum = s.devnum ∧ (s.modReq id f).ports = s.ports ∧
    (s.modReq id f).joined = s.joined ∧ (s.modReq id f).sets = s.sets ∧
    (s.modReq id f).harvest = s.harvest ∧ (s.modReq id f).sigOk = s.sigOk ∧
    (s.modReq id f).stage = s.stage ∧ (s.modReq id f).bootFail = s.bootFail ∧
    (s.modReq id f).pwrcap = s.pwrcap ∧ (s.modReq id f).pwr = s.pwr ∧ (s.modReq id f).tmax = s.tmax ∧
    (s.modReq id f).thr = s.thr ∧ (s.modReq id f).attctl = s.attctl ∧
    (s.modReq id f).attnonce = s.attnonce ∧ (s.modReq id f).attCount = s.attCount ∧
    (s.modReq id f).dbgctl = s.dbgctl ∧ (s.modReq id f).dbgsel = s.dbgsel :=
  ⟨rfl, rfl, rfl, rfl, rfl, rfl, rfl, rfl, rfl, rfl, rfl, rfl, rfl, rfl, rfl, rfl, rfl, rfl, rfl, rfl,
    rfl, rfl, rfl, rfl, rfl, rfl, rfl, rfl, rfl, rfl, rfl, rfl, rfl, rfl, rfl, rfl, rfl, rfl, rfl, rfl,
    rfl, rfl, rfl, rfl, rfl, rfl, rfl, rfl, rfl, rfl, rfl, rfl, rfl, rfl, rfl, rfl, rfl, rfl, rfl, rfl,
    rfl, rfl, rfl, rfl, rfl, rfl, rfl, rfl, rfl, rfl, rfl, rfl, rfl, rfl, rfl, rfl, rfl, rfl, rfl, rfl,
    rfl, rfl, rfl⟩

/-- `retry` changes `reqs` and `agenda` alone. -/
@[simp] theorem State.retry_fields (s : State) (q : Req) :
    (s.retry q).cycle = s.cycle ∧ (s.retry q).ptp = s.ptp ∧ (s.retry q).ptpRem = s.ptpRem ∧
    (s.retry q).mhz = s.mhz ∧ (s.retry q).synced = s.synced ∧ (s.retry q).slew = s.slew ∧
    (s.retry q).cur = s.cur ∧ (s.retry q).held = s.held ∧ (s.retry q).turns = s.turns ∧
    (s.retry q).usedPipes = s.usedPipes ∧ (s.retry q).granted = s.granted ∧ (s.retry q).rr = s.rr ∧
    (s.retry q).timers = s.timers ∧ (s.retry q).nsTimers = s.nsTimers ∧ (s.retry q).choices = s.choices ∧
    (s.retry q).fresh = s.fresh ∧ (s.retry q).gangs = s.gangs ∧ (s.retry q).groups = s.groups ∧
    (s.retry q).teams = s.teams ∧ (s.retry q).windows = s.windows ∧ (s.retry q).ops = s.ops ∧
    (s.retry q).bankFree = s.bankFree ∧ (s.retry q).passes = s.passes ∧ (s.retry q).sx = s.sx ∧
    (s.retry q).mx = s.mx ∧ (s.retry q).progs = s.progs ∧ (s.retry q).sxRr = s.sxRr ∧
    (s.retry q).mxRr = s.mxRr ∧ (s.retry q).mem = s.mem ∧ (s.retry q).bad = s.bad ∧
    (s.retry q).icache = s.icache ∧ (s.retry q).tlb = s.tlb ∧ (s.retry q).l1 = s.l1 ∧
    (s.retry q).smb = s.smb ∧ (s.retry q).owned = s.owned ∧ (s.retry q).reds = s.reds ∧
    (s.retry q).wsigs = s.wsigs ∧ (s.retry q).chips = s.chips ∧ (s.retry q).l2 = s.l2 ∧
    (s.retry q).regions = s.regions ∧ (s.retry q).rles = s.rles ∧ (s.retry q).lwaits = s.lwaits ∧
    (s.retry q).cells = s.cells ∧ (s.retry q).farWon = s.farWon ∧ (s.retry q).stamp = s.stamp ∧
    (s.retry q).rets = s.rets ∧ (s.retry q).dclk = s.dclk ∧ (s.retry q).floors = s.floors ∧
    (s.retry q).dclkSeen = s.dclkSeen ∧ (s.retry q).offFrames = s.offFrames ∧ (s.retry q).offL1 = s.offL1 ∧
    (s.retry q).corrected = s.corrected ∧ (s.retry q).retired = s.retired ∧ (s.retry q).drains = s.drains ∧
    (s.retry q).parts = s.parts ∧ (s.retry q).launches = s.launches ∧ (s.retry q).accepted = s.accepted ∧
    (s.retry q).lastDie = s.lastDie ∧ (s.retry q).copies = s.copies ∧ (s.retry q).audits = s.audits ∧
    (s.retry q).cxl = s.cxl ∧ (s.retry q).granules = s.granules ∧ (s.retry q).snoops = s.snoops ∧
    (s.retry q).ingest = s.ingest ∧ (s.retry q).reply = s.reply ∧ (s.retry q).devnum = s.devnum ∧
    (s.retry q).ports = s.ports ∧ (s.retry q).joined = s.joined ∧ (s.retry q).sets = s.sets ∧
    (s.retry q).harvest = s.harvest ∧ (s.retry q).sigOk = s.sigOk ∧ (s.retry q).stage = s.stage ∧
    (s.retry q).bootFail = s.bootFail ∧ (s.retry q).pwrcap = s.pwrcap ∧ (s.retry q).pwr = s.pwr ∧
    (s.retry q).tmax = s.tmax ∧ (s.retry q).thr = s.thr ∧ (s.retry q).attctl = s.attctl ∧
    (s.retry q).attnonce = s.attnonce ∧ (s.retry q).attCount = s.attCount ∧ (s.retry q).dbgctl = s.dbgctl ∧
    (s.retry q).dbgsel = s.dbgsel :=
  ⟨rfl, rfl, rfl, rfl, rfl, rfl, rfl, rfl, rfl, rfl, rfl, rfl, rfl, rfl, rfl, rfl, rfl, rfl, rfl, rfl,
    rfl, rfl, rfl, rfl, rfl, rfl, rfl, rfl, rfl, rfl, rfl, rfl, rfl, rfl, rfl, rfl, rfl, rfl, rfl, rfl,
    rfl, rfl, rfl, rfl, rfl, rfl, rfl, rfl, rfl, rfl, rfl, rfl, rfl, rfl, rfl, rfl, rfl, rfl, rfl, rfl,
    rfl, rfl, rfl, rfl, rfl, rfl, rfl, rfl, rfl, rfl, rfl, rfl, rfl, rfl, rfl, rfl, rfl, rfl, rfl, rfl,
    rfl, rfl⟩

/-- Serving requests again changes the requests and the agenda alone. -/
theorem State.retries_frame (l : List Req) (s : State) : l.foldl State.retry s =
    { s with reqs := (l.foldl State.retry s).reqs, agenda := (l.foldl State.retry s).agenda } := by
  induction l generalizing s with
  | nil => rfl
  | cons q l ih => rw [List.foldl_cons, ih]; rfl

theorem State.dropReq_frame (s : State) (id : Nat) :
    s.dropReq id = { s with reqs := (s.dropReq id).reqs, agenda := (s.dropReq id).agenda } := by
  rw [State.dropReq, State.afterReq, State.retries_frame]

/-- `dropReq` changes `reqs` and `agenda` alone. -/
@[simp] theorem State.dropReq_fields (s : State) (id : Nat) :
    (s.dropReq id).cycle = s.cycle ∧ (s.dropReq id).ptp = s.ptp ∧ (s.dropReq id).ptpRem = s.ptpRem ∧
    (s.dropReq id).mhz = s.mhz ∧ (s.dropReq id).synced = s.synced ∧ (s.dropReq id).slew = s.slew ∧
    (s.dropReq id).cur = s.cur ∧ (s.dropReq id).held = s.held ∧ (s.dropReq id).turns = s.turns ∧
    (s.dropReq id).usedPipes = s.usedPipes ∧ (s.dropReq id).granted = s.granted ∧
    (s.dropReq id).rr = s.rr ∧ (s.dropReq id).timers = s.timers ∧ (s.dropReq id).nsTimers = s.nsTimers ∧
    (s.dropReq id).choices = s.choices ∧ (s.dropReq id).fresh = s.fresh ∧ (s.dropReq id).gangs = s.gangs ∧
    (s.dropReq id).groups = s.groups ∧ (s.dropReq id).teams = s.teams ∧
    (s.dropReq id).windows = s.windows ∧ (s.dropReq id).ops = s.ops ∧
    (s.dropReq id).bankFree = s.bankFree ∧ (s.dropReq id).passes = s.passes ∧ (s.dropReq id).sx = s.sx ∧
    (s.dropReq id).mx = s.mx ∧ (s.dropReq id).progs = s.progs ∧ (s.dropReq id).sxRr = s.sxRr ∧
    (s.dropReq id).mxRr = s.mxRr ∧ (s.dropReq id).mem = s.mem ∧ (s.dropReq id).bad = s.bad ∧
    (s.dropReq id).icache = s.icache ∧ (s.dropReq id).tlb = s.tlb ∧ (s.dropReq id).l1 = s.l1 ∧
    (s.dropReq id).smb = s.smb ∧ (s.dropReq id).owned = s.owned ∧ (s.dropReq id).reds = s.reds ∧
    (s.dropReq id).wsigs = s.wsigs ∧ (s.dropReq id).chips = s.chips ∧ (s.dropReq id).l2 = s.l2 ∧
    (s.dropReq id).regions = s.regions ∧ (s.dropReq id).rles = s.rles ∧ (s.dropReq id).lwaits = s.lwaits ∧
    (s.dropReq id).cells = s.cells ∧ (s.dropReq id).farWon = s.farWon ∧ (s.dropReq id).stamp = s.stamp ∧
    (s.dropReq id).rets = s.rets ∧ (s.dropReq id).dclk = s.dclk ∧ (s.dropReq id).floors = s.floors ∧
    (s.dropReq id).dclkSeen = s.dclkSeen ∧ (s.dropReq id).offFrames = s.offFrames ∧
    (s.dropReq id).offL1 = s.offL1 ∧ (s.dropReq id).corrected = s.corrected ∧
    (s.dropReq id).retired = s.retired ∧ (s.dropReq id).drains = s.drains ∧
    (s.dropReq id).parts = s.parts ∧ (s.dropReq id).launches = s.launches ∧
    (s.dropReq id).accepted = s.accepted ∧ (s.dropReq id).lastDie = s.lastDie ∧
    (s.dropReq id).copies = s.copies ∧ (s.dropReq id).audits = s.audits ∧ (s.dropReq id).cxl = s.cxl ∧
    (s.dropReq id).granules = s.granules ∧ (s.dropReq id).snoops = s.snoops ∧
    (s.dropReq id).ingest = s.ingest ∧ (s.dropReq id).reply = s.reply ∧ (s.dropReq id).devnum = s.devnum ∧
    (s.dropReq id).ports = s.ports ∧ (s.dropReq id).joined = s.joined ∧ (s.dropReq id).sets = s.sets ∧
    (s.dropReq id).harvest = s.harvest ∧ (s.dropReq id).sigOk = s.sigOk ∧ (s.dropReq id).stage = s.stage ∧
    (s.dropReq id).bootFail = s.bootFail ∧ (s.dropReq id).pwrcap = s.pwrcap ∧ (s.dropReq id).pwr = s.pwr ∧
    (s.dropReq id).tmax = s.tmax ∧ (s.dropReq id).thr = s.thr ∧ (s.dropReq id).attctl = s.attctl ∧
    (s.dropReq id).attnonce = s.attnonce ∧ (s.dropReq id).attCount = s.attCount ∧
    (s.dropReq id).dbgctl = s.dbgctl ∧ (s.dropReq id).dbgsel = s.dbgsel := by
  rw [State.dropReq_frame]; exact
  ⟨rfl, rfl, rfl, rfl, rfl, rfl, rfl, rfl, rfl, rfl, rfl, rfl, rfl, rfl, rfl, rfl, rfl, rfl, rfl, rfl,
    rfl, rfl, rfl, rfl, rfl, rfl, rfl, rfl, rfl, rfl, rfl, rfl, rfl, rfl, rfl, rfl, rfl, rfl, rfl, rfl,
    rfl, rfl, rfl, rfl, rfl, rfl, rfl, rfl, rfl, rfl, rfl, rfl, rfl, rfl, rfl, rfl, rfl, rfl, rfl, rfl,
    rfl, rfl, rfl, rfl, rfl, rfl, rfl, rfl, rfl, rfl, rfl, rfl, rfl, rfl, rfl, rfl, rfl, rfl, rfl, rfl,
    rfl, rfl⟩

/-- `modSx` changes `sx` alone. -/
@[simp] theorem State.modSx_fields (s : State) (id : Nat) (f : SxCmd → SxCmd) :
    (s.modSx id f).cycle = s.cycle ∧ (s.modSx id f).ptp = s.ptp ∧ (s.modSx id f).ptpRem = s.ptpRem ∧
    (s.modSx id f).mhz = s.mhz ∧ (s.modSx id f).synced = s.synced ∧ (s.modSx id f).slew = s.slew ∧
    (s.modSx id f).cur = s.cur ∧ (s.modSx id f).held = s.held ∧ (s.modSx id f).turns = s.turns ∧
    (s.modSx id f).usedPipes = s.usedPipes ∧ (s.modSx id f).granted = s.granted ∧
    (s.modSx id f).rr = s.rr ∧ (s.modSx id f).agenda = s.agenda ∧ (s.modSx id f).timers = s.timers ∧
    (s.modSx id f).nsTimers = s.nsTimers ∧ (s.modSx id f).choices = s.choices ∧
    (s.modSx id f).fresh = s.fresh ∧ (s.modSx id f).gangs = s.gangs ∧ (s.modSx id f).groups = s.groups ∧
    (s.modSx id f).teams = s.teams ∧ (s.modSx id f).windows = s.windows ∧ (s.modSx id f).ops = s.ops ∧
    (s.modSx id f).bankFree = s.bankFree ∧ (s.modSx id f).passes = s.passes ∧ (s.modSx id f).mx = s.mx ∧
    (s.modSx id f).progs = s.progs ∧ (s.modSx id f).sxRr = s.sxRr ∧ (s.modSx id f).mxRr = s.mxRr ∧
    (s.modSx id f).mem = s.mem ∧ (s.modSx id f).bad = s.bad ∧ (s.modSx id f).icache = s.icache ∧
    (s.modSx id f).tlb = s.tlb ∧ (s.modSx id f).l1 = s.l1 ∧ (s.modSx id f).smb = s.smb ∧
    (s.modSx id f).owned = s.owned ∧ (s.modSx id f).reds = s.reds ∧ (s.modSx id f).wsigs = s.wsigs ∧
    (s.modSx id f).reqs = s.reqs ∧ (s.modSx id f).chips = s.chips ∧ (s.modSx id f).l2 = s.l2 ∧
    (s.modSx id f).regions = s.regions ∧ (s.modSx id f).rles = s.rles ∧ (s.modSx id f).lwaits = s.lwaits ∧
    (s.modSx id f).cells = s.cells ∧ (s.modSx id f).farWon = s.farWon ∧ (s.modSx id f).stamp = s.stamp ∧
    (s.modSx id f).rets = s.rets ∧ (s.modSx id f).dclk = s.dclk ∧ (s.modSx id f).floors = s.floors ∧
    (s.modSx id f).dclkSeen = s.dclkSeen ∧ (s.modSx id f).offFrames = s.offFrames ∧
    (s.modSx id f).offL1 = s.offL1 ∧ (s.modSx id f).corrected = s.corrected ∧
    (s.modSx id f).retired = s.retired ∧ (s.modSx id f).drains = s.drains ∧
    (s.modSx id f).parts = s.parts ∧ (s.modSx id f).launches = s.launches ∧
    (s.modSx id f).accepted = s.accepted ∧ (s.modSx id f).lastDie = s.lastDie ∧
    (s.modSx id f).copies = s.copies ∧ (s.modSx id f).audits = s.audits ∧ (s.modSx id f).cxl = s.cxl ∧
    (s.modSx id f).granules = s.granules ∧ (s.modSx id f).snoops = s.snoops ∧
    (s.modSx id f).ingest = s.ingest ∧ (s.modSx id f).reply = s.reply ∧ (s.modSx id f).devnum = s.devnum ∧
    (s.modSx id f).ports = s.ports ∧ (s.modSx id f).joined = s.joined ∧ (s.modSx id f).sets = s.sets ∧
    (s.modSx id f).harvest = s.harvest ∧ (s.modSx id f).sigOk = s.sigOk ∧ (s.modSx id f).stage = s.stage ∧
    (s.modSx id f).bootFail = s.bootFail ∧ (s.modSx id f).pwrcap = s.pwrcap ∧ (s.modSx id f).pwr = s.pwr ∧
    (s.modSx id f).tmax = s.tmax ∧ (s.modSx id f).thr = s.thr ∧ (s.modSx id f).attctl = s.attctl ∧
    (s.modSx id f).attnonce = s.attnonce ∧ (s.modSx id f).attCount = s.attCount ∧
    (s.modSx id f).dbgctl = s.dbgctl ∧ (s.modSx id f).dbgsel = s.dbgsel :=
  ⟨rfl, rfl, rfl, rfl, rfl, rfl, rfl, rfl, rfl, rfl, rfl, rfl, rfl, rfl, rfl, rfl, rfl, rfl, rfl, rfl,
    rfl, rfl, rfl, rfl, rfl, rfl, rfl, rfl, rfl, rfl, rfl, rfl, rfl, rfl, rfl, rfl, rfl, rfl, rfl, rfl,
    rfl, rfl, rfl, rfl, rfl, rfl, rfl, rfl, rfl, rfl, rfl, rfl, rfl, rfl, rfl, rfl, rfl, rfl, rfl, rfl,
    rfl, rfl, rfl, rfl, rfl, rfl, rfl, rfl, rfl, rfl, rfl, rfl, rfl, rfl, rfl, rfl, rfl, rfl, rfl, rfl,
    rfl, rfl, rfl⟩

/-- `modMx` changes `mx` alone. -/
@[simp] theorem State.modMx_fields (s : State) (id : Nat) (f : MxCmd → MxCmd) :
    (s.modMx id f).cycle = s.cycle ∧ (s.modMx id f).ptp = s.ptp ∧ (s.modMx id f).ptpRem = s.ptpRem ∧
    (s.modMx id f).mhz = s.mhz ∧ (s.modMx id f).synced = s.synced ∧ (s.modMx id f).slew = s.slew ∧
    (s.modMx id f).cur = s.cur ∧ (s.modMx id f).held = s.held ∧ (s.modMx id f).turns = s.turns ∧
    (s.modMx id f).usedPipes = s.usedPipes ∧ (s.modMx id f).granted = s.granted ∧
    (s.modMx id f).rr = s.rr ∧ (s.modMx id f).agenda = s.agenda ∧ (s.modMx id f).timers = s.timers ∧
    (s.modMx id f).nsTimers = s.nsTimers ∧ (s.modMx id f).choices = s.choices ∧
    (s.modMx id f).fresh = s.fresh ∧ (s.modMx id f).gangs = s.gangs ∧ (s.modMx id f).groups = s.groups ∧
    (s.modMx id f).teams = s.teams ∧ (s.modMx id f).windows = s.windows ∧ (s.modMx id f).ops = s.ops ∧
    (s.modMx id f).bankFree = s.bankFree ∧ (s.modMx id f).passes = s.passes ∧ (s.modMx id f).sx = s.sx ∧
    (s.modMx id f).progs = s.progs ∧ (s.modMx id f).sxRr = s.sxRr ∧ (s.modMx id f).mxRr = s.mxRr ∧
    (s.modMx id f).mem = s.mem ∧ (s.modMx id f).bad = s.bad ∧ (s.modMx id f).icache = s.icache ∧
    (s.modMx id f).tlb = s.tlb ∧ (s.modMx id f).l1 = s.l1 ∧ (s.modMx id f).smb = s.smb ∧
    (s.modMx id f).owned = s.owned ∧ (s.modMx id f).reds = s.reds ∧ (s.modMx id f).wsigs = s.wsigs ∧
    (s.modMx id f).reqs = s.reqs ∧ (s.modMx id f).chips = s.chips ∧ (s.modMx id f).l2 = s.l2 ∧
    (s.modMx id f).regions = s.regions ∧ (s.modMx id f).rles = s.rles ∧ (s.modMx id f).lwaits = s.lwaits ∧
    (s.modMx id f).cells = s.cells ∧ (s.modMx id f).farWon = s.farWon ∧ (s.modMx id f).stamp = s.stamp ∧
    (s.modMx id f).rets = s.rets ∧ (s.modMx id f).dclk = s.dclk ∧ (s.modMx id f).floors = s.floors ∧
    (s.modMx id f).dclkSeen = s.dclkSeen ∧ (s.modMx id f).offFrames = s.offFrames ∧
    (s.modMx id f).offL1 = s.offL1 ∧ (s.modMx id f).corrected = s.corrected ∧
    (s.modMx id f).retired = s.retired ∧ (s.modMx id f).drains = s.drains ∧
    (s.modMx id f).parts = s.parts ∧ (s.modMx id f).launches = s.launches ∧
    (s.modMx id f).accepted = s.accepted ∧ (s.modMx id f).lastDie = s.lastDie ∧
    (s.modMx id f).copies = s.copies ∧ (s.modMx id f).audits = s.audits ∧ (s.modMx id f).cxl = s.cxl ∧
    (s.modMx id f).granules = s.granules ∧ (s.modMx id f).snoops = s.snoops ∧
    (s.modMx id f).ingest = s.ingest ∧ (s.modMx id f).reply = s.reply ∧ (s.modMx id f).devnum = s.devnum ∧
    (s.modMx id f).ports = s.ports ∧ (s.modMx id f).joined = s.joined ∧ (s.modMx id f).sets = s.sets ∧
    (s.modMx id f).harvest = s.harvest ∧ (s.modMx id f).sigOk = s.sigOk ∧ (s.modMx id f).stage = s.stage ∧
    (s.modMx id f).bootFail = s.bootFail ∧ (s.modMx id f).pwrcap = s.pwrcap ∧ (s.modMx id f).pwr = s.pwr ∧
    (s.modMx id f).tmax = s.tmax ∧ (s.modMx id f).thr = s.thr ∧ (s.modMx id f).attctl = s.attctl ∧
    (s.modMx id f).attnonce = s.attnonce ∧ (s.modMx id f).attCount = s.attCount ∧
    (s.modMx id f).dbgctl = s.dbgctl ∧ (s.modMx id f).dbgsel = s.dbgsel :=
  ⟨rfl, rfl, rfl, rfl, rfl, rfl, rfl, rfl, rfl, rfl, rfl, rfl, rfl, rfl, rfl, rfl, rfl, rfl, rfl, rfl,
    rfl, rfl, rfl, rfl, rfl, rfl, rfl, rfl, rfl, rfl, rfl, rfl, rfl, rfl, rfl, rfl, rfl, rfl, rfl, rfl,
    rfl, rfl, rfl, rfl, rfl, rfl, rfl, rfl, rfl, rfl, rfl, rfl, rfl, rfl, rfl, rfl, rfl, rfl, rfl, rfl,
    rfl, rfl, rfl, rfl, rfl, rfl, rfl, rfl, rfl, rfl, rfl, rfl, rfl, rfl, rfl, rfl, rfl, rfl, rfl, rfl,
    rfl, rfl, rfl⟩

/-- `modProg` changes `progs` alone. -/
@[simp] theorem State.modProg_fields (s : State) (id : Nat) (f : Prog → Prog) :
    (s.modProg id f).cycle = s.cycle ∧ (s.modProg id f).ptp = s.ptp ∧ (s.modProg id f).ptpRem = s.ptpRem ∧
    (s.modProg id f).mhz = s.mhz ∧ (s.modProg id f).synced = s.synced ∧ (s.modProg id f).slew = s.slew ∧
    (s.modProg id f).cur = s.cur ∧ (s.modProg id f).held = s.held ∧ (s.modProg id f).turns = s.turns ∧
    (s.modProg id f).usedPipes = s.usedPipes ∧ (s.modProg id f).granted = s.granted ∧
    (s.modProg id f).rr = s.rr ∧ (s.modProg id f).agenda = s.agenda ∧ (s.modProg id f).timers = s.timers ∧
    (s.modProg id f).nsTimers = s.nsTimers ∧ (s.modProg id f).choices = s.choices ∧
    (s.modProg id f).fresh = s.fresh ∧ (s.modProg id f).gangs = s.gangs ∧
    (s.modProg id f).groups = s.groups ∧ (s.modProg id f).teams = s.teams ∧
    (s.modProg id f).windows = s.windows ∧ (s.modProg id f).ops = s.ops ∧
    (s.modProg id f).bankFree = s.bankFree ∧ (s.modProg id f).passes = s.passes ∧
    (s.modProg id f).sx = s.sx ∧ (s.modProg id f).mx = s.mx ∧ (s.modProg id f).sxRr = s.sxRr ∧
    (s.modProg id f).mxRr = s.mxRr ∧ (s.modProg id f).mem = s.mem ∧ (s.modProg id f).bad = s.bad ∧
    (s.modProg id f).icache = s.icache ∧ (s.modProg id f).tlb = s.tlb ∧ (s.modProg id f).l1 = s.l1 ∧
    (s.modProg id f).smb = s.smb ∧ (s.modProg id f).owned = s.owned ∧ (s.modProg id f).reds = s.reds ∧
    (s.modProg id f).wsigs = s.wsigs ∧ (s.modProg id f).reqs = s.reqs ∧ (s.modProg id f).chips = s.chips ∧
    (s.modProg id f).l2 = s.l2 ∧ (s.modProg id f).regions = s.regions ∧ (s.modProg id f).rles = s.rles ∧
    (s.modProg id f).lwaits = s.lwaits ∧ (s.modProg id f).cells = s.cells ∧
    (s.modProg id f).farWon = s.farWon ∧ (s.modProg id f).stamp = s.stamp ∧
    (s.modProg id f).rets = s.rets ∧ (s.modProg id f).dclk = s.dclk ∧ (s.modProg id f).floors = s.floors ∧
    (s.modProg id f).dclkSeen = s.dclkSeen ∧ (s.modProg id f).offFrames = s.offFrames ∧
    (s.modProg id f).offL1 = s.offL1 ∧ (s.modProg id f).corrected = s.corrected ∧
    (s.modProg id f).retired = s.retired ∧ (s.modProg id f).drains = s.drains ∧
    (s.modProg id f).parts = s.parts ∧ (s.modProg id f).launches = s.launches ∧
    (s.modProg id f).accepted = s.accepted ∧ (s.modProg id f).lastDie = s.lastDie ∧
    (s.modProg id f).copies = s.copies ∧ (s.modProg id f).audits = s.audits ∧
    (s.modProg id f).cxl = s.cxl ∧ (s.modProg id f).granules = s.granules ∧
    (s.modProg id f).snoops = s.snoops ∧ (s.modProg id f).ingest = s.ingest ∧
    (s.modProg id f).reply = s.reply ∧ (s.modProg id f).devnum = s.devnum ∧
    (s.modProg id f).ports = s.ports ∧ (s.modProg id f).joined = s.joined ∧
    (s.modProg id f).sets = s.sets ∧ (s.modProg id f).harvest = s.harvest ∧
    (s.modProg id f).sigOk = s.sigOk ∧ (s.modProg id f).stage = s.stage ∧
    (s.modProg id f).bootFail = s.bootFail ∧ (s.modProg id f).pwrcap = s.pwrcap ∧
    (s.modProg id f).pwr = s.pwr ∧ (s.modProg id f).tmax = s.tmax ∧ (s.modProg id f).thr = s.thr ∧
    (s.modProg id f).attctl = s.attctl ∧ (s.modProg id f).attnonce = s.attnonce ∧
    (s.modProg id f).attCount = s.attCount ∧ (s.modProg id f).dbgctl = s.dbgctl ∧
    (s.modProg id f).dbgsel = s.dbgsel :=
  ⟨rfl, rfl, rfl, rfl, rfl, rfl, rfl, rfl, rfl, rfl, rfl, rfl, rfl, rfl, rfl, rfl, rfl, rfl, rfl, rfl,
    rfl, rfl, rfl, rfl, rfl, rfl, rfl, rfl, rfl, rfl, rfl, rfl, rfl, rfl, rfl, rfl, rfl, rfl, rfl, rfl,
    rfl, rfl, rfl, rfl, rfl, rfl, rfl, rfl, rfl, rfl, rfl, rfl, rfl, rfl, rfl, rfl, rfl, rfl, rfl, rfl,
    rfl, rfl, rfl, rfl, rfl, rfl, rfl, rfl, rfl, rfl, rfl, rfl, rfl, rfl, rfl, rfl, rfl, rfl, rfl, rfl,
    rfl, rfl, rfl⟩

/-- `modPart` changes `parts` alone. -/
@[simp] theorem State.modPart_fields (s : State) (p : Nat) (f : Partition → Partition) :
    (s.modPart p f).cycle = s.cycle ∧ (s.modPart p f).ptp = s.ptp ∧ (s.modPart p f).ptpRem = s.ptpRem ∧
    (s.modPart p f).mhz = s.mhz ∧ (s.modPart p f).synced = s.synced ∧ (s.modPart p f).slew = s.slew ∧
    (s.modPart p f).cur = s.cur ∧ (s.modPart p f).held = s.held ∧ (s.modPart p f).turns = s.turns ∧
    (s.modPart p f).usedPipes = s.usedPipes ∧ (s.modPart p f).granted = s.granted ∧
    (s.modPart p f).rr = s.rr ∧ (s.modPart p f).agenda = s.agenda ∧ (s.modPart p f).timers = s.timers ∧
    (s.modPart p f).nsTimers = s.nsTimers ∧ (s.modPart p f).choices = s.choices ∧
    (s.modPart p f).fresh = s.fresh ∧ (s.modPart p f).gangs = s.gangs ∧ (s.modPart p f).groups = s.groups ∧
    (s.modPart p f).teams = s.teams ∧ (s.modPart p f).windows = s.windows ∧ (s.modPart p f).ops = s.ops ∧
    (s.modPart p f).bankFree = s.bankFree ∧ (s.modPart p f).passes = s.passes ∧ (s.modPart p f).sx = s.sx ∧
    (s.modPart p f).mx = s.mx ∧ (s.modPart p f).progs = s.progs ∧ (s.modPart p f).sxRr = s.sxRr ∧
    (s.modPart p f).mxRr = s.mxRr ∧ (s.modPart p f).mem = s.mem ∧ (s.modPart p f).bad = s.bad ∧
    (s.modPart p f).icache = s.icache ∧ (s.modPart p f).tlb = s.tlb ∧ (s.modPart p f).l1 = s.l1 ∧
    (s.modPart p f).smb = s.smb ∧ (s.modPart p f).owned = s.owned ∧ (s.modPart p f).reds = s.reds ∧
    (s.modPart p f).wsigs = s.wsigs ∧ (s.modPart p f).reqs = s.reqs ∧ (s.modPart p f).chips = s.chips ∧
    (s.modPart p f).l2 = s.l2 ∧ (s.modPart p f).regions = s.regions ∧ (s.modPart p f).rles = s.rles ∧
    (s.modPart p f).lwaits = s.lwaits ∧ (s.modPart p f).cells = s.cells ∧
    (s.modPart p f).farWon = s.farWon ∧ (s.modPart p f).stamp = s.stamp ∧ (s.modPart p f).rets = s.rets ∧
    (s.modPart p f).dclk = s.dclk ∧ (s.modPart p f).floors = s.floors ∧
    (s.modPart p f).dclkSeen = s.dclkSeen ∧ (s.modPart p f).offFrames = s.offFrames ∧
    (s.modPart p f).offL1 = s.offL1 ∧ (s.modPart p f).corrected = s.corrected ∧
    (s.modPart p f).retired = s.retired ∧ (s.modPart p f).drains = s.drains ∧
    (s.modPart p f).launches = s.launches ∧ (s.modPart p f).accepted = s.accepted ∧
    (s.modPart p f).lastDie = s.lastDie ∧ (s.modPart p f).copies = s.copies ∧
    (s.modPart p f).audits = s.audits ∧ (s.modPart p f).cxl = s.cxl ∧
    (s.modPart p f).granules = s.granules ∧ (s.modPart p f).snoops = s.snoops ∧
    (s.modPart p f).ingest = s.ingest ∧ (s.modPart p f).reply = s.reply ∧
    (s.modPart p f).devnum = s.devnum ∧ (s.modPart p f).ports = s.ports ∧
    (s.modPart p f).joined = s.joined ∧ (s.modPart p f).sets = s.sets ∧
    (s.modPart p f).harvest = s.harvest ∧ (s.modPart p f).sigOk = s.sigOk ∧
    (s.modPart p f).stage = s.stage ∧ (s.modPart p f).bootFail = s.bootFail ∧
    (s.modPart p f).pwrcap = s.pwrcap ∧ (s.modPart p f).pwr = s.pwr ∧ (s.modPart p f).tmax = s.tmax ∧
    (s.modPart p f).thr = s.thr ∧ (s.modPart p f).attctl = s.attctl ∧
    (s.modPart p f).attnonce = s.attnonce ∧ (s.modPart p f).attCount = s.attCount ∧
    (s.modPart p f).dbgctl = s.dbgctl ∧ (s.modPart p f).dbgsel = s.dbgsel :=
  ⟨rfl, rfl, rfl, rfl, rfl, rfl, rfl, rfl, rfl, rfl, rfl, rfl, rfl, rfl, rfl, rfl, rfl, rfl, rfl, rfl,
    rfl, rfl, rfl, rfl, rfl, rfl, rfl, rfl, rfl, rfl, rfl, rfl, rfl, rfl, rfl, rfl, rfl, rfl, rfl, rfl,
    rfl, rfl, rfl, rfl, rfl, rfl, rfl, rfl, rfl, rfl, rfl, rfl, rfl, rfl, rfl, rfl, rfl, rfl, rfl, rfl,
    rfl, rfl, rfl, rfl, rfl, rfl, rfl, rfl, rfl, rfl, rfl, rfl, rfl, rfl, rfl, rfl, rfl, rfl, rfl, rfl,
    rfl, rfl, rfl⟩

/-- `modChip` changes `chips` alone. -/
@[simp] theorem State.modChip_fields (s : State) (k : Nat) (f : Chip → Chip) :
    (s.modChip k f).cycle = s.cycle ∧ (s.modChip k f).ptp = s.ptp ∧ (s.modChip k f).ptpRem = s.ptpRem ∧
    (s.modChip k f).mhz = s.mhz ∧ (s.modChip k f).synced = s.synced ∧ (s.modChip k f).slew = s.slew ∧
    (s.modChip k f).cur = s.cur ∧ (s.modChip k f).held = s.held ∧ (s.modChip k f).turns = s.turns ∧
    (s.modChip k f).usedPipes = s.usedPipes ∧ (s.modChip k f).granted = s.granted ∧
    (s.modChip k f).rr = s.rr ∧ (s.modChip k f).agenda = s.agenda ∧ (s.modChip k f).timers = s.timers ∧
    (s.modChip k f).nsTimers = s.nsTimers ∧ (s.modChip k f).choices = s.choices ∧
    (s.modChip k f).fresh = s.fresh ∧ (s.modChip k f).gangs = s.gangs ∧ (s.modChip k f).groups = s.groups ∧
    (s.modChip k f).teams = s.teams ∧ (s.modChip k f).windows = s.windows ∧ (s.modChip k f).ops = s.ops ∧
    (s.modChip k f).bankFree = s.bankFree ∧ (s.modChip k f).passes = s.passes ∧ (s.modChip k f).sx = s.sx ∧
    (s.modChip k f).mx = s.mx ∧ (s.modChip k f).progs = s.progs ∧ (s.modChip k f).sxRr = s.sxRr ∧
    (s.modChip k f).mxRr = s.mxRr ∧ (s.modChip k f).mem = s.mem ∧ (s.modChip k f).bad = s.bad ∧
    (s.modChip k f).icache = s.icache ∧ (s.modChip k f).tlb = s.tlb ∧ (s.modChip k f).l1 = s.l1 ∧
    (s.modChip k f).smb = s.smb ∧ (s.modChip k f).owned = s.owned ∧ (s.modChip k f).reds = s.reds ∧
    (s.modChip k f).wsigs = s.wsigs ∧ (s.modChip k f).reqs = s.reqs ∧ (s.modChip k f).l2 = s.l2 ∧
    (s.modChip k f).regions = s.regions ∧ (s.modChip k f).rles = s.rles ∧
    (s.modChip k f).lwaits = s.lwaits ∧ (s.modChip k f).cells = s.cells ∧
    (s.modChip k f).farWon = s.farWon ∧ (s.modChip k f).stamp = s.stamp ∧ (s.modChip k f).rets = s.rets ∧
    (s.modChip k f).dclk = s.dclk ∧ (s.modChip k f).floors = s.floors ∧
    (s.modChip k f).dclkSeen = s.dclkSeen ∧ (s.modChip k f).offFrames = s.offFrames ∧
    (s.modChip k f).offL1 = s.offL1 ∧ (s.modChip k f).corrected = s.corrected ∧
    (s.modChip k f).retired = s.retired ∧ (s.modChip k f).drains = s.drains ∧
    (s.modChip k f).parts = s.parts ∧ (s.modChip k f).launches = s.launches ∧
    (s.modChip k f).accepted = s.accepted ∧ (s.modChip k f).lastDie = s.lastDie ∧
    (s.modChip k f).copies = s.copies ∧ (s.modChip k f).audits = s.audits ∧ (s.modChip k f).cxl = s.cxl ∧
    (s.modChip k f).granules = s.granules ∧ (s.modChip k f).snoops = s.snoops ∧
    (s.modChip k f).ingest = s.ingest ∧ (s.modChip k f).reply = s.reply ∧
    (s.modChip k f).devnum = s.devnum ∧ (s.modChip k f).ports = s.ports ∧
    (s.modChip k f).joined = s.joined ∧ (s.modChip k f).sets = s.sets ∧
    (s.modChip k f).harvest = s.harvest ∧ (s.modChip k f).sigOk = s.sigOk ∧
    (s.modChip k f).stage = s.stage ∧ (s.modChip k f).bootFail = s.bootFail ∧
    (s.modChip k f).pwrcap = s.pwrcap ∧ (s.modChip k f).pwr = s.pwr ∧ (s.modChip k f).tmax = s.tmax ∧
    (s.modChip k f).thr = s.thr ∧ (s.modChip k f).attctl = s.attctl ∧
    (s.modChip k f).attnonce = s.attnonce ∧ (s.modChip k f).attCount = s.attCount ∧
    (s.modChip k f).dbgctl = s.dbgctl ∧ (s.modChip k f).dbgsel = s.dbgsel :=
  ⟨rfl, rfl, rfl, rfl, rfl, rfl, rfl, rfl, rfl, rfl, rfl, rfl, rfl, rfl, rfl, rfl, rfl, rfl, rfl, rfl,
    rfl, rfl, rfl, rfl, rfl, rfl, rfl, rfl, rfl, rfl, rfl, rfl, rfl, rfl, rfl, rfl, rfl, rfl, rfl, rfl,
    rfl, rfl, rfl, rfl, rfl, rfl, rfl, rfl, rfl, rfl, rfl, rfl, rfl, rfl, rfl, rfl, rfl, rfl, rfl, rfl,
    rfl, rfl, rfl, rfl, rfl, rfl, rfl, rfl, rfl, rfl, rfl, rfl, rfl, rfl, rfl, rfl, rfl, rfl, rfl, rfl,
    rfl, rfl, rfl⟩

/-- `modLaunch` changes `launches` alone. -/
@[simp] theorem State.modLaunch_fields (s : State) (part lid : Nat) (f : Launch → Launch) :
    (s.modLaunch part lid f).cycle = s.cycle ∧ (s.modLaunch part lid f).ptp = s.ptp ∧
    (s.modLaunch part lid f).ptpRem = s.ptpRem ∧ (s.modLaunch part lid f).mhz = s.mhz ∧
    (s.modLaunch part lid f).synced = s.synced ∧ (s.modLaunch part lid f).slew = s.slew ∧
    (s.modLaunch part lid f).cur = s.cur ∧ (s.modLaunch part lid f).held = s.held ∧
    (s.modLaunch part lid f).turns = s.turns ∧ (s.modLaunch part lid f).usedPipes = s.usedPipes ∧
    (s.modLaunch part lid f).granted = s.granted ∧ (s.modLaunch part lid f).rr = s.rr ∧
    (s.modLaunch part lid f).agenda = s.agenda ∧ (s.modLaunch part lid f).timers = s.timers ∧
    (s.modLaunch part lid f).nsTimers = s.nsTimers ∧ (s.modLaunch part lid f).choices = s.choices ∧
    (s.modLaunch part lid f).fresh = s.fresh ∧ (s.modLaunch part lid f).gangs = s.gangs ∧
    (s.modLaunch part lid f).groups = s.groups ∧ (s.modLaunch part lid f).teams = s.teams ∧
    (s.modLaunch part lid f).windows = s.windows ∧ (s.modLaunch part lid f).ops = s.ops ∧
    (s.modLaunch part lid f).bankFree = s.bankFree ∧ (s.modLaunch part lid f).passes = s.passes ∧
    (s.modLaunch part lid f).sx = s.sx ∧ (s.modLaunch part lid f).mx = s.mx ∧
    (s.modLaunch part lid f).progs = s.progs ∧ (s.modLaunch part lid f).sxRr = s.sxRr ∧
    (s.modLaunch part lid f).mxRr = s.mxRr ∧ (s.modLaunch part lid f).mem = s.mem ∧
    (s.modLaunch part lid f).bad = s.bad ∧ (s.modLaunch part lid f).icache = s.icache ∧
    (s.modLaunch part lid f).tlb = s.tlb ∧ (s.modLaunch part lid f).l1 = s.l1 ∧
    (s.modLaunch part lid f).smb = s.smb ∧ (s.modLaunch part lid f).owned = s.owned ∧
    (s.modLaunch part lid f).reds = s.reds ∧ (s.modLaunch part lid f).wsigs = s.wsigs ∧
    (s.modLaunch part lid f).reqs = s.reqs ∧ (s.modLaunch part lid f).chips = s.chips ∧
    (s.modLaunch part lid f).l2 = s.l2 ∧ (s.modLaunch part lid f).regions = s.regions ∧
    (s.modLaunch part lid f).rles = s.rles ∧ (s.modLaunch part lid f).lwaits = s.lwaits ∧
    (s.modLaunch part lid f).cells = s.cells ∧ (s.modLaunch part lid f).farWon = s.farWon ∧
    (s.modLaunch part lid f).stamp = s.stamp ∧ (s.modLaunch part lid f).rets = s.rets ∧
    (s.modLaunch part lid f).dclk = s.dclk ∧ (s.modLaunch part lid f).floors = s.floors ∧
    (s.modLaunch part lid f).dclkSeen = s.dclkSeen ∧ (s.modLaunch part lid f).offFrames = s.offFrames ∧
    (s.modLaunch part lid f).offL1 = s.offL1 ∧ (s.modLaunch part lid f).corrected = s.corrected ∧
    (s.modLaunch part lid f).retired = s.retired ∧ (s.modLaunch part lid f).drains = s.drains ∧
    (s.modLaunch part lid f).parts = s.parts ∧ (s.modLaunch part lid f).accepted = s.accepted ∧
    (s.modLaunch part lid f).lastDie = s.lastDie ∧ (s.modLaunch part lid f).copies = s.copies ∧
    (s.modLaunch part lid f).audits = s.audits ∧ (s.modLaunch part lid f).cxl = s.cxl ∧
    (s.modLaunch part lid f).granules = s.granules ∧ (s.modLaunch part lid f).snoops = s.snoops ∧
    (s.modLaunch part lid f).ingest = s.ingest ∧ (s.modLaunch part lid f).reply = s.reply ∧
    (s.modLaunch part lid f).devnum = s.devnum ∧ (s.modLaunch part lid f).ports = s.ports ∧
    (s.modLaunch part lid f).joined = s.joined ∧ (s.modLaunch part lid f).sets = s.sets ∧
    (s.modLaunch part lid f).harvest = s.harvest ∧ (s.modLaunch part lid f).sigOk = s.sigOk ∧
    (s.modLaunch part lid f).stage = s.stage ∧ (s.modLaunch part lid f).bootFail = s.bootFail ∧
    (s.modLaunch part lid f).pwrcap = s.pwrcap ∧ (s.modLaunch part lid f).pwr = s.pwr ∧
    (s.modLaunch part lid f).tmax = s.tmax ∧ (s.modLaunch part lid f).thr = s.thr ∧
    (s.modLaunch part lid f).attctl = s.attctl ∧ (s.modLaunch part lid f).attnonce = s.attnonce ∧
    (s.modLaunch part lid f).attCount = s.attCount ∧ (s.modLaunch part lid f).dbgctl = s.dbgctl ∧
    (s.modLaunch part lid f).dbgsel = s.dbgsel :=
  ⟨rfl, rfl, rfl, rfl, rfl, rfl, rfl, rfl, rfl, rfl, rfl, rfl, rfl, rfl, rfl, rfl, rfl, rfl, rfl, rfl,
    rfl, rfl, rfl, rfl, rfl, rfl, rfl, rfl, rfl, rfl, rfl, rfl, rfl, rfl, rfl, rfl, rfl, rfl, rfl, rfl,
    rfl, rfl, rfl, rfl, rfl, rfl, rfl, rfl, rfl, rfl, rfl, rfl, rfl, rfl, rfl, rfl, rfl, rfl, rfl, rfl,
    rfl, rfl, rfl, rfl, rfl, rfl, rfl, rfl, rfl, rfl, rfl, rfl, rfl, rfl, rfl, rfl, rfl, rfl, rfl, rfl,
    rfl, rfl, rfl⟩

/-- `modWindow` changes `windows` alone. -/
@[simp] theorem State.modWindow_fields (s : State) (id : Nat) (f : Window → Window) :
    (s.modWindow id f).cycle = s.cycle ∧ (s.modWindow id f).ptp = s.ptp ∧
    (s.modWindow id f).ptpRem = s.ptpRem ∧ (s.modWindow id f).mhz = s.mhz ∧
    (s.modWindow id f).synced = s.synced ∧ (s.modWindow id f).slew = s.slew ∧
    (s.modWindow id f).cur = s.cur ∧ (s.modWindow id f).held = s.held ∧
    (s.modWindow id f).turns = s.turns ∧ (s.modWindow id f).usedPipes = s.usedPipes ∧
    (s.modWindow id f).granted = s.granted ∧ (s.modWindow id f).rr = s.rr ∧
    (s.modWindow id f).agenda = s.agenda ∧ (s.modWindow id f).timers = s.timers ∧
    (s.modWindow id f).nsTimers = s.nsTimers ∧ (s.modWindow id f).choices = s.choices ∧
    (s.modWindow id f).fresh = s.fresh ∧ (s.modWindow id f).gangs = s.gangs ∧
    (s.modWindow id f).groups = s.groups ∧ (s.modWindow id f).teams = s.teams ∧
    (s.modWindow id f).ops = s.ops ∧ (s.modWindow id f).bankFree = s.bankFree ∧
    (s.modWindow id f).passes = s.passes ∧ (s.modWindow id f).sx = s.sx ∧ (s.modWindow id f).mx = s.mx ∧
    (s.modWindow id f).progs = s.progs ∧ (s.modWindow id f).sxRr = s.sxRr ∧
    (s.modWindow id f).mxRr = s.mxRr ∧ (s.modWindow id f).mem = s.mem ∧ (s.modWindow id f).bad = s.bad ∧
    (s.modWindow id f).icache = s.icache ∧ (s.modWindow id f).tlb = s.tlb ∧ (s.modWindow id f).l1 = s.l1 ∧
    (s.modWindow id f).smb = s.smb ∧ (s.modWindow id f).owned = s.owned ∧
    (s.modWindow id f).reds = s.reds ∧ (s.modWindow id f).wsigs = s.wsigs ∧
    (s.modWindow id f).reqs = s.reqs ∧ (s.modWindow id f).chips = s.chips ∧ (s.modWindow id f).l2 = s.l2 ∧
    (s.modWindow id f).regions = s.regions ∧ (s.modWindow id f).rles = s.rles ∧
    (s.modWindow id f).lwaits = s.lwaits ∧ (s.modWindow id f).cells = s.cells ∧
    (s.modWindow id f).farWon = s.farWon ∧ (s.modWindow id f).stamp = s.stamp ∧
    (s.modWindow id f).rets = s.rets ∧ (s.modWindow id f).dclk = s.dclk ∧
    (s.modWindow id f).floors = s.floors ∧ (s.modWindow id f).dclkSeen = s.dclkSeen ∧
    (s.modWindow id f).offFrames = s.offFrames ∧ (s.modWindow id f).offL1 = s.offL1 ∧
    (s.modWindow id f).corrected = s.corrected ∧ (s.modWindow id f).retired = s.retired ∧
    (s.modWindow id f).drains = s.drains ∧ (s.modWindow id f).parts = s.parts ∧
    (s.modWindow id f).launches = s.launches ∧ (s.modWindow id f).accepted = s.accepted ∧
    (s.modWindow id f).lastDie = s.lastDie ∧ (s.modWindow id f).copies = s.copies ∧
    (s.modWindow id f).audits = s.audits ∧ (s.modWindow id f).cxl = s.cxl ∧
    (s.modWindow id f).granules = s.granules ∧ (s.modWindow id f).snoops = s.snoops ∧
    (s.modWindow id f).ingest = s.ingest ∧ (s.modWindow id f).reply = s.reply ∧
    (s.modWindow id f).devnum = s.devnum ∧ (s.modWindow id f).ports = s.ports ∧
    (s.modWindow id f).joined = s.joined ∧ (s.modWindow id f).sets = s.sets ∧
    (s.modWindow id f).harvest = s.harvest ∧ (s.modWindow id f).sigOk = s.sigOk ∧
    (s.modWindow id f).stage = s.stage ∧ (s.modWindow id f).bootFail = s.bootFail ∧
    (s.modWindow id f).pwrcap = s.pwrcap ∧ (s.modWindow id f).pwr = s.pwr ∧
    (s.modWindow id f).tmax = s.tmax ∧ (s.modWindow id f).thr = s.thr ∧
    (s.modWindow id f).attctl = s.attctl ∧ (s.modWindow id f).attnonce = s.attnonce ∧
    (s.modWindow id f).attCount = s.attCount ∧ (s.modWindow id f).dbgctl = s.dbgctl ∧
    (s.modWindow id f).dbgsel = s.dbgsel :=
  ⟨rfl, rfl, rfl, rfl, rfl, rfl, rfl, rfl, rfl, rfl, rfl, rfl, rfl, rfl, rfl, rfl, rfl, rfl, rfl, rfl,
    rfl, rfl, rfl, rfl, rfl, rfl, rfl, rfl, rfl, rfl, rfl, rfl, rfl, rfl, rfl, rfl, rfl, rfl, rfl, rfl,
    rfl, rfl, rfl, rfl, rfl, rfl, rfl, rfl, rfl, rfl, rfl, rfl, rfl, rfl, rfl, rfl, rfl, rfl, rfl, rfl,
    rfl, rfl, rfl, rfl, rfl, rfl, rfl, rfl, rfl, rfl, rfl, rfl, rfl, rfl, rfl, rfl, rfl, rfl, rfl, rfl,
    rfl, rfl, rfl⟩

/-- `modL2` changes `l2` alone. -/
@[simp] theorem State.modL2_fields (s : State) (r : LineRef) (f : L2Line → L2Line) :
    (s.modL2 r f).cycle = s.cycle ∧ (s.modL2 r f).ptp = s.ptp ∧ (s.modL2 r f).ptpRem = s.ptpRem ∧
    (s.modL2 r f).mhz = s.mhz ∧ (s.modL2 r f).synced = s.synced ∧ (s.modL2 r f).slew = s.slew ∧
    (s.modL2 r f).cur = s.cur ∧ (s.modL2 r f).held = s.held ∧ (s.modL2 r f).turns = s.turns ∧
    (s.modL2 r f).usedPipes = s.usedPipes ∧ (s.modL2 r f).granted = s.granted ∧ (s.modL2 r f).rr = s.rr ∧
    (s.modL2 r f).agenda = s.agenda ∧ (s.modL2 r f).timers = s.timers ∧
    (s.modL2 r f).nsTimers = s.nsTimers ∧ (s.modL2 r f).choices = s.choices ∧
    (s.modL2 r f).fresh = s.fresh ∧ (s.modL2 r f).gangs = s.gangs ∧ (s.modL2 r f).groups = s.groups ∧
    (s.modL2 r f).teams = s.teams ∧ (s.modL2 r f).windows = s.windows ∧ (s.modL2 r f).ops = s.ops ∧
    (s.modL2 r f).bankFree = s.bankFree ∧ (s.modL2 r f).passes = s.passes ∧ (s.modL2 r f).sx = s.sx ∧
    (s.modL2 r f).mx = s.mx ∧ (s.modL2 r f).progs = s.progs ∧ (s.modL2 r f).sxRr = s.sxRr ∧
    (s.modL2 r f).mxRr = s.mxRr ∧ (s.modL2 r f).mem = s.mem ∧ (s.modL2 r f).bad = s.bad ∧
    (s.modL2 r f).icache = s.icache ∧ (s.modL2 r f).tlb = s.tlb ∧ (s.modL2 r f).l1 = s.l1 ∧
    (s.modL2 r f).smb = s.smb ∧ (s.modL2 r f).owned = s.owned ∧ (s.modL2 r f).reds = s.reds ∧
    (s.modL2 r f).wsigs = s.wsigs ∧ (s.modL2 r f).reqs = s.reqs ∧ (s.modL2 r f).chips = s.chips ∧
    (s.modL2 r f).regions = s.regions ∧ (s.modL2 r f).rles = s.rles ∧ (s.modL2 r f).lwaits = s.lwaits ∧
    (s.modL2 r f).cells = s.cells ∧ (s.modL2 r f).farWon = s.farWon ∧ (s.modL2 r f).stamp = s.stamp ∧
    (s.modL2 r f).rets = s.rets ∧ (s.modL2 r f).dclk = s.dclk ∧ (s.modL2 r f).floors = s.floors ∧
    (s.modL2 r f).dclkSeen = s.dclkSeen ∧ (s.modL2 r f).offFrames = s.offFrames ∧
    (s.modL2 r f).offL1 = s.offL1 ∧ (s.modL2 r f).corrected = s.corrected ∧
    (s.modL2 r f).retired = s.retired ∧ (s.modL2 r f).drains = s.drains ∧ (s.modL2 r f).parts = s.parts ∧
    (s.modL2 r f).launches = s.launches ∧ (s.modL2 r f).accepted = s.accepted ∧
    (s.modL2 r f).lastDie = s.lastDie ∧ (s.modL2 r f).copies = s.copies ∧ (s.modL2 r f).audits = s.audits ∧
    (s.modL2 r f).cxl = s.cxl ∧ (s.modL2 r f).granules = s.granules ∧ (s.modL2 r f).snoops = s.snoops ∧
    (s.modL2 r f).ingest = s.ingest ∧ (s.modL2 r f).reply = s.reply ∧ (s.modL2 r f).devnum = s.devnum ∧
    (s.modL2 r f).ports = s.ports ∧ (s.modL2 r f).joined = s.joined ∧ (s.modL2 r f).sets = s.sets ∧
    (s.modL2 r f).harvest = s.harvest ∧ (s.modL2 r f).sigOk = s.sigOk ∧ (s.modL2 r f).stage = s.stage ∧
    (s.modL2 r f).bootFail = s.bootFail ∧ (s.modL2 r f).pwrcap = s.pwrcap ∧ (s.modL2 r f).pwr = s.pwr ∧
    (s.modL2 r f).tmax = s.tmax ∧ (s.modL2 r f).thr = s.thr ∧ (s.modL2 r f).attctl = s.attctl ∧
    (s.modL2 r f).attnonce = s.attnonce ∧ (s.modL2 r f).attCount = s.attCount ∧
    (s.modL2 r f).dbgctl = s.dbgctl ∧ (s.modL2 r f).dbgsel = s.dbgsel :=
  ⟨rfl, rfl, rfl, rfl, rfl, rfl, rfl, rfl, rfl, rfl, rfl, rfl, rfl, rfl, rfl, rfl, rfl, rfl, rfl, rfl,
    rfl, rfl, rfl, rfl, rfl, rfl, rfl, rfl, rfl, rfl, rfl, rfl, rfl, rfl, rfl, rfl, rfl, rfl, rfl, rfl,
    rfl, rfl, rfl, rfl, rfl, rfl, rfl, rfl, rfl, rfl, rfl, rfl, rfl, rfl, rfl, rfl, rfl, rfl, rfl, rfl,
    rfl, rfl, rfl, rfl, rfl, rfl, rfl, rfl, rfl, rfl, rfl, rfl, rfl, rfl, rfl, rfl, rfl, rfl, rfl, rfl,
    rfl, rfl, rfl⟩

/-- `modRegion` changes `regions` alone. -/
@[simp] theorem State.modRegion_fields (s : State) (r : LineRef) (f : Region → Region) :
    (s.modRegion r f).cycle = s.cycle ∧ (s.modRegion r f).ptp = s.ptp ∧
    (s.modRegion r f).ptpRem = s.ptpRem ∧ (s.modRegion r f).mhz = s.mhz ∧
    (s.modRegion r f).synced = s.synced ∧ (s.modRegion r f).slew = s.slew ∧ (s.modRegion r f).cur = s.cur ∧
    (s.modRegion r f).held = s.held ∧ (s.modRegion r f).turns = s.turns ∧
    (s.modRegion r f).usedPipes = s.usedPipes ∧ (s.modRegion r f).granted = s.granted ∧
    (s.modRegion r f).rr = s.rr ∧ (s.modRegion r f).agenda = s.agenda ∧
    (s.modRegion r f).timers = s.timers ∧ (s.modRegion r f).nsTimers = s.nsTimers ∧
    (s.modRegion r f).choices = s.choices ∧ (s.modRegion r f).fresh = s.fresh ∧
    (s.modRegion r f).gangs = s.gangs ∧ (s.modRegion r f).groups = s.groups ∧
    (s.modRegion r f).teams = s.teams ∧ (s.modRegion r f).windows = s.windows ∧
    (s.modRegion r f).ops = s.ops ∧ (s.modRegion r f).bankFree = s.bankFree ∧
    (s.modRegion r f).passes = s.passes ∧ (s.modRegion r f).sx = s.sx ∧ (s.modRegion r f).mx = s.mx ∧
    (s.modRegion r f).progs = s.progs ∧ (s.modRegion r f).sxRr = s.sxRr ∧ (s.modRegion r f).mxRr = s.mxRr ∧
    (s.modRegion r f).mem = s.mem ∧ (s.modRegion r f).bad = s.bad ∧ (s.modRegion r f).icache = s.icache ∧
    (s.modRegion r f).tlb = s.tlb ∧ (s.modRegion r f).l1 = s.l1 ∧ (s.modRegion r f).smb = s.smb ∧
    (s.modRegion r f).owned = s.owned ∧ (s.modRegion r f).reds = s.reds ∧
    (s.modRegion r f).wsigs = s.wsigs ∧ (s.modRegion r f).reqs = s.reqs ∧
    (s.modRegion r f).chips = s.chips ∧ (s.modRegion r f).l2 = s.l2 ∧ (s.modRegion r f).rles = s.rles ∧
    (s.modRegion r f).lwaits = s.lwaits ∧ (s.modRegion r f).cells = s.cells ∧
    (s.modRegion r f).farWon = s.farWon ∧ (s.modRegion r f).stamp = s.stamp ∧
    (s.modRegion r f).rets = s.rets ∧ (s.modRegion r f).dclk = s.dclk ∧
    (s.modRegion r f).floors = s.floors ∧ (s.modRegion r f).dclkSeen = s.dclkSeen ∧
    (s.modRegion r f).offFrames = s.offFrames ∧ (s.modRegion r f).offL1 = s.offL1 ∧
    (s.modRegion r f).corrected = s.corrected ∧ (s.modRegion r f).retired = s.retired ∧
    (s.modRegion r f).drains = s.drains ∧ (s.modRegion r f).parts = s.parts ∧
    (s.modRegion r f).launches = s.launches ∧ (s.modRegion r f).accepted = s.accepted ∧
    (s.modRegion r f).lastDie = s.lastDie ∧ (s.modRegion r f).copies = s.copies ∧
    (s.modRegion r f).audits = s.audits ∧ (s.modRegion r f).cxl = s.cxl ∧
    (s.modRegion r f).granules = s.granules ∧ (s.modRegion r f).snoops = s.snoops ∧
    (s.modRegion r f).ingest = s.ingest ∧ (s.modRegion r f).reply = s.reply ∧
    (s.modRegion r f).devnum = s.devnum ∧ (s.modRegion r f).ports = s.ports ∧
    (s.modRegion r f).joined = s.joined ∧ (s.modRegion r f).sets = s.sets ∧
    (s.modRegion r f).harvest = s.harvest ∧ (s.modRegion r f).sigOk = s.sigOk ∧
    (s.modRegion r f).stage = s.stage ∧ (s.modRegion r f).bootFail = s.bootFail ∧
    (s.modRegion r f).pwrcap = s.pwrcap ∧ (s.modRegion r f).pwr = s.pwr ∧ (s.modRegion r f).tmax = s.tmax ∧
    (s.modRegion r f).thr = s.thr ∧ (s.modRegion r f).attctl = s.attctl ∧
    (s.modRegion r f).attnonce = s.attnonce ∧ (s.modRegion r f).attCount = s.attCount ∧
    (s.modRegion r f).dbgctl = s.dbgctl ∧ (s.modRegion r f).dbgsel = s.dbgsel :=
  ⟨rfl, rfl, rfl, rfl, rfl, rfl, rfl, rfl, rfl, rfl, rfl, rfl, rfl, rfl, rfl, rfl, rfl, rfl, rfl, rfl,
    rfl, rfl, rfl, rfl, rfl, rfl, rfl, rfl, rfl, rfl, rfl, rfl, rfl, rfl, rfl, rfl, rfl, rfl, rfl, rfl,
    rfl, rfl, rfl, rfl, rfl, rfl, rfl, rfl, rfl, rfl, rfl, rfl, rfl, rfl, rfl, rfl, rfl, rfl, rfl, rfl,
    rfl, rfl, rfl, rfl, rfl, rfl, rfl, rfl, rfl, rfl, rfl, rfl, rfl, rfl, rfl, rfl, rfl, rfl, rfl, rfl,
    rfl, rfl, rfl⟩

/-- `modAudit` changes `audits` alone. -/
@[simp] theorem State.modAudit_fields (s : State) (id : Nat) (f : Audit → Audit) :
    (s.modAudit id f).cycle = s.cycle ∧ (s.modAudit id f).ptp = s.ptp ∧
    (s.modAudit id f).ptpRem = s.ptpRem ∧ (s.modAudit id f).mhz = s.mhz ∧
    (s.modAudit id f).synced = s.synced ∧ (s.modAudit id f).slew = s.slew ∧ (s.modAudit id f).cur = s.cur ∧
    (s.modAudit id f).held = s.held ∧ (s.modAudit id f).turns = s.turns ∧
    (s.modAudit id f).usedPipes = s.usedPipes ∧ (s.modAudit id f).granted = s.granted ∧
    (s.modAudit id f).rr = s.rr ∧ (s.modAudit id f).agenda = s.agenda ∧
    (s.modAudit id f).timers = s.timers ∧ (s.modAudit id f).nsTimers = s.nsTimers ∧
    (s.modAudit id f).choices = s.choices ∧ (s.modAudit id f).fresh = s.fresh ∧
    (s.modAudit id f).gangs = s.gangs ∧ (s.modAudit id f).groups = s.groups ∧
    (s.modAudit id f).teams = s.teams ∧ (s.modAudit id f).windows = s.windows ∧
    (s.modAudit id f).ops = s.ops ∧ (s.modAudit id f).bankFree = s.bankFree ∧
    (s.modAudit id f).passes = s.passes ∧ (s.modAudit id f).sx = s.sx ∧ (s.modAudit id f).mx = s.mx ∧
    (s.modAudit id f).progs = s.progs ∧ (s.modAudit id f).sxRr = s.sxRr ∧ (s.modAudit id f).mxRr = s.mxRr ∧
    (s.modAudit id f).mem = s.mem ∧ (s.modAudit id f).bad = s.bad ∧ (s.modAudit id f).icache = s.icache ∧
    (s.modAudit id f).tlb = s.tlb ∧ (s.modAudit id f).l1 = s.l1 ∧ (s.modAudit id f).smb = s.smb ∧
    (s.modAudit id f).owned = s.owned ∧ (s.modAudit id f).reds = s.reds ∧
    (s.modAudit id f).wsigs = s.wsigs ∧ (s.modAudit id f).reqs = s.reqs ∧
    (s.modAudit id f).chips = s.chips ∧ (s.modAudit id f).l2 = s.l2 ∧
    (s.modAudit id f).regions = s.regions ∧ (s.modAudit id f).rles = s.rles ∧
    (s.modAudit id f).lwaits = s.lwaits ∧ (s.modAudit id f).cells = s.cells ∧
    (s.modAudit id f).farWon = s.farWon ∧ (s.modAudit id f).stamp = s.stamp ∧
    (s.modAudit id f).rets = s.rets ∧ (s.modAudit id f).dclk = s.dclk ∧
    (s.modAudit id f).floors = s.floors ∧ (s.modAudit id f).dclkSeen = s.dclkSeen ∧
    (s.modAudit id f).offFrames = s.offFrames ∧ (s.modAudit id f).offL1 = s.offL1 ∧
    (s.modAudit id f).corrected = s.corrected ∧ (s.modAudit id f).retired = s.retired ∧
    (s.modAudit id f).drains = s.drains ∧ (s.modAudit id f).parts = s.parts ∧
    (s.modAudit id f).launches = s.launches ∧ (s.modAudit id f).accepted = s.accepted ∧
    (s.modAudit id f).lastDie = s.lastDie ∧ (s.modAudit id f).copies = s.copies ∧
    (s.modAudit id f).cxl = s.cxl ∧ (s.modAudit id f).granules = s.granules ∧
    (s.modAudit id f).snoops = s.snoops ∧ (s.modAudit id f).ingest = s.ingest ∧
    (s.modAudit id f).reply = s.reply ∧ (s.modAudit id f).devnum = s.devnum ∧
    (s.modAudit id f).ports = s.ports ∧ (s.modAudit id f).joined = s.joined ∧
    (s.modAudit id f).sets = s.sets ∧ (s.modAudit id f).harvest = s.harvest ∧
    (s.modAudit id f).sigOk = s.sigOk ∧ (s.modAudit id f).stage = s.stage ∧
    (s.modAudit id f).bootFail = s.bootFail ∧ (s.modAudit id f).pwrcap = s.pwrcap ∧
    (s.modAudit id f).pwr = s.pwr ∧ (s.modAudit id f).tmax = s.tmax ∧ (s.modAudit id f).thr = s.thr ∧
    (s.modAudit id f).attctl = s.attctl ∧ (s.modAudit id f).attnonce = s.attnonce ∧
    (s.modAudit id f).attCount = s.attCount ∧ (s.modAudit id f).dbgctl = s.dbgctl ∧
    (s.modAudit id f).dbgsel = s.dbgsel :=
  ⟨rfl, rfl, rfl, rfl, rfl, rfl, rfl, rfl, rfl, rfl, rfl, rfl, rfl, rfl, rfl, rfl, rfl, rfl, rfl, rfl,
    rfl, rfl, rfl, rfl, rfl, rfl, rfl, rfl, rfl, rfl, rfl, rfl, rfl, rfl, rfl, rfl, rfl, rfl, rfl, rfl,
    rfl, rfl, rfl, rfl, rfl, rfl, rfl, rfl, rfl, rfl, rfl, rfl, rfl, rfl, rfl, rfl, rfl, rfl, rfl, rfl,
    rfl, rfl, rfl, rfl, rfl, rfl, rfl, rfl, rfl, rfl, rfl, rfl, rfl, rfl, rfl, rfl, rfl, rfl, rfl, rfl,
    rfl, rfl, rfl⟩

/-- `modGranule` changes `granules` alone. -/
@[simp] theorem State.modGranule_fields (s : State) (g : Nat) (f : Granule → Granule) :
    (s.modGranule g f).cycle = s.cycle ∧ (s.modGranule g f).ptp = s.ptp ∧
    (s.modGranule g f).ptpRem = s.ptpRem ∧ (s.modGranule g f).mhz = s.mhz ∧
    (s.modGranule g f).synced = s.synced ∧ (s.modGranule g f).slew = s.slew ∧
    (s.modGranule g f).cur = s.cur ∧ (s.modGranule g f).held = s.held ∧
    (s.modGranule g f).turns = s.turns ∧ (s.modGranule g f).usedPipes = s.usedPipes ∧
    (s.modGranule g f).granted = s.granted ∧ (s.modGranule g f).rr = s.rr ∧
    (s.modGranule g f).agenda = s.agenda ∧ (s.modGranule g f).timers = s.timers ∧
    (s.modGranule g f).nsTimers = s.nsTimers ∧ (s.modGranule g f).choices = s.choices ∧
    (s.modGranule g f).fresh = s.fresh ∧ (s.modGranule g f).gangs = s.gangs ∧
    (s.modGranule g f).groups = s.groups ∧ (s.modGranule g f).teams = s.teams ∧
    (s.modGranule g f).windows = s.windows ∧ (s.modGranule g f).ops = s.ops ∧
    (s.modGranule g f).bankFree = s.bankFree ∧ (s.modGranule g f).passes = s.passes ∧
    (s.modGranule g f).sx = s.sx ∧ (s.modGranule g f).mx = s.mx ∧ (s.modGranule g f).progs = s.progs ∧
    (s.modGranule g f).sxRr = s.sxRr ∧ (s.modGranule g f).mxRr = s.mxRr ∧ (s.modGranule g f).mem = s.mem ∧
    (s.modGranule g f).bad = s.bad ∧ (s.modGranule g f).icache = s.icache ∧
    (s.modGranule g f).tlb = s.tlb ∧ (s.modGranule g f).l1 = s.l1 ∧ (s.modGranule g f).smb = s.smb ∧
    (s.modGranule g f).owned = s.owned ∧ (s.modGranule g f).reds = s.reds ∧
    (s.modGranule g f).wsigs = s.wsigs ∧ (s.modGranule g f).reqs = s.reqs ∧
    (s.modGranule g f).chips = s.chips ∧ (s.modGranule g f).l2 = s.l2 ∧
    (s.modGranule g f).regions = s.regions ∧ (s.modGranule g f).rles = s.rles ∧
    (s.modGranule g f).lwaits = s.lwaits ∧ (s.modGranule g f).cells = s.cells ∧
    (s.modGranule g f).farWon = s.farWon ∧ (s.modGranule g f).stamp = s.stamp ∧
    (s.modGranule g f).rets = s.rets ∧ (s.modGranule g f).dclk = s.dclk ∧
    (s.modGranule g f).floors = s.floors ∧ (s.modGranule g f).dclkSeen = s.dclkSeen ∧
    (s.modGranule g f).offFrames = s.offFrames ∧ (s.modGranule g f).offL1 = s.offL1 ∧
    (s.modGranule g f).corrected = s.corrected ∧ (s.modGranule g f).retired = s.retired ∧
    (s.modGranule g f).drains = s.drains ∧ (s.modGranule g f).parts = s.parts ∧
    (s.modGranule g f).launches = s.launches ∧ (s.modGranule g f).accepted = s.accepted ∧
    (s.modGranule g f).lastDie = s.lastDie ∧ (s.modGranule g f).copies = s.copies ∧
    (s.modGranule g f).audits = s.audits ∧ (s.modGranule g f).cxl = s.cxl ∧
    (s.modGranule g f).snoops = s.snoops ∧ (s.modGranule g f).ingest = s.ingest ∧
    (s.modGranule g f).reply = s.reply ∧ (s.modGranule g f).devnum = s.devnum ∧
    (s.modGranule g f).ports = s.ports ∧ (s.modGranule g f).joined = s.joined ∧
    (s.modGranule g f).sets = s.sets ∧ (s.modGranule g f).harvest = s.harvest ∧
    (s.modGranule g f).sigOk = s.sigOk ∧ (s.modGranule g f).stage = s.stage ∧
    (s.modGranule g f).bootFail = s.bootFail ∧ (s.modGranule g f).pwrcap = s.pwrcap ∧
    (s.modGranule g f).pwr = s.pwr ∧ (s.modGranule g f).tmax = s.tmax ∧ (s.modGranule g f).thr = s.thr ∧
    (s.modGranule g f).attctl = s.attctl ∧ (s.modGranule g f).attnonce = s.attnonce ∧
    (s.modGranule g f).attCount = s.attCount ∧ (s.modGranule g f).dbgctl = s.dbgctl ∧
    (s.modGranule g f).dbgsel = s.dbgsel :=
  ⟨rfl, rfl, rfl, rfl, rfl, rfl, rfl, rfl, rfl, rfl, rfl, rfl, rfl, rfl, rfl, rfl, rfl, rfl, rfl, rfl,
    rfl, rfl, rfl, rfl, rfl, rfl, rfl, rfl, rfl, rfl, rfl, rfl, rfl, rfl, rfl, rfl, rfl, rfl, rfl, rfl,
    rfl, rfl, rfl, rfl, rfl, rfl, rfl, rfl, rfl, rfl, rfl, rfl, rfl, rfl, rfl, rfl, rfl, rfl, rfl, rfl,
    rfl, rfl, rfl, rfl, rfl, rfl, rfl, rfl, rfl, rfl, rfl, rfl, rfl, rfl, rfl, rfl, rfl, rfl, rfl, rfl,
    rfl, rfl, rfl⟩

/-- `modSet` changes `sets` alone. -/
@[simp] theorem State.modSet_fields (s : State) (id : Nat) (f : RepSet → RepSet) :
    (s.modSet id f).cycle = s.cycle ∧ (s.modSet id f).ptp = s.ptp ∧ (s.modSet id f).ptpRem = s.ptpRem ∧
    (s.modSet id f).mhz = s.mhz ∧ (s.modSet id f).synced = s.synced ∧ (s.modSet id f).slew = s.slew ∧
    (s.modSet id f).cur = s.cur ∧ (s.modSet id f).held = s.held ∧ (s.modSet id f).turns = s.turns ∧
    (s.modSet id f).usedPipes = s.usedPipes ∧ (s.modSet id f).granted = s.granted ∧
    (s.modSet id f).rr = s.rr ∧ (s.modSet id f).agenda = s.agenda ∧ (s.modSet id f).timers = s.timers ∧
    (s.modSet id f).nsTimers = s.nsTimers ∧ (s.modSet id f).choices = s.choices ∧
    (s.modSet id f).fresh = s.fresh ∧ (s.modSet id f).gangs = s.gangs ∧ (s.modSet id f).groups = s.groups ∧
    (s.modSet id f).teams = s.teams ∧ (s.modSet id f).windows = s.windows ∧ (s.modSet id f).ops = s.ops ∧
    (s.modSet id f).bankFree = s.bankFree ∧ (s.modSet id f).passes = s.passes ∧ (s.modSet id f).sx = s.sx ∧
    (s.modSet id f).mx = s.mx ∧ (s.modSet id f).progs = s.progs ∧ (s.modSet id f).sxRr = s.sxRr ∧
    (s.modSet id f).mxRr = s.mxRr ∧ (s.modSet id f).mem = s.mem ∧ (s.modSet id f).bad = s.bad ∧
    (s.modSet id f).icache = s.icache ∧ (s.modSet id f).tlb = s.tlb ∧ (s.modSet id f).l1 = s.l1 ∧
    (s.modSet id f).smb = s.smb ∧ (s.modSet id f).owned = s.owned ∧ (s.modSet id f).reds = s.reds ∧
    (s.modSet id f).wsigs = s.wsigs ∧ (s.modSet id f).reqs = s.reqs ∧ (s.modSet id f).chips = s.chips ∧
    (s.modSet id f).l2 = s.l2 ∧ (s.modSet id f).regions = s.regions ∧ (s.modSet id f).rles = s.rles ∧
    (s.modSet id f).lwaits = s.lwaits ∧ (s.modSet id f).cells = s.cells ∧
    (s.modSet id f).farWon = s.farWon ∧ (s.modSet id f).stamp = s.stamp ∧ (s.modSet id f).rets = s.rets ∧
    (s.modSet id f).dclk = s.dclk ∧ (s.modSet id f).floors = s.floors ∧
    (s.modSet id f).dclkSeen = s.dclkSeen ∧ (s.modSet id f).offFrames = s.offFrames ∧
    (s.modSet id f).offL1 = s.offL1 ∧ (s.modSet id f).corrected = s.corrected ∧
    (s.modSet id f).retired = s.retired ∧ (s.modSet id f).drains = s.drains ∧
    (s.modSet id f).parts = s.parts ∧ (s.modSet id f).launches = s.launches ∧
    (s.modSet id f).accepted = s.accepted ∧ (s.modSet id f).lastDie = s.lastDie ∧
    (s.modSet id f).copies = s.copies ∧ (s.modSet id f).audits = s.audits ∧ (s.modSet id f).cxl = s.cxl ∧
    (s.modSet id f).granules = s.granules ∧ (s.modSet id f).snoops = s.snoops ∧
    (s.modSet id f).ingest = s.ingest ∧ (s.modSet id f).reply = s.reply ∧
    (s.modSet id f).devnum = s.devnum ∧ (s.modSet id f).ports = s.ports ∧
    (s.modSet id f).joined = s.joined ∧ (s.modSet id f).harvest = s.harvest ∧
    (s.modSet id f).sigOk = s.sigOk ∧ (s.modSet id f).stage = s.stage ∧
    (s.modSet id f).bootFail = s.bootFail ∧ (s.modSet id f).pwrcap = s.pwrcap ∧
    (s.modSet id f).pwr = s.pwr ∧ (s.modSet id f).tmax = s.tmax ∧ (s.modSet id f).thr = s.thr ∧
    (s.modSet id f).attctl = s.attctl ∧ (s.modSet id f).attnonce = s.attnonce ∧
    (s.modSet id f).attCount = s.attCount ∧ (s.modSet id f).dbgctl = s.dbgctl ∧
    (s.modSet id f).dbgsel = s.dbgsel :=
  ⟨rfl, rfl, rfl, rfl, rfl, rfl, rfl, rfl, rfl, rfl, rfl, rfl, rfl, rfl, rfl, rfl, rfl, rfl, rfl, rfl,
    rfl, rfl, rfl, rfl, rfl, rfl, rfl, rfl, rfl, rfl, rfl, rfl, rfl, rfl, rfl, rfl, rfl, rfl, rfl, rfl,
    rfl, rfl, rfl, rfl, rfl, rfl, rfl, rfl, rfl, rfl, rfl, rfl, rfl, rfl, rfl, rfl, rfl, rfl, rfl, rfl,
    rfl, rfl, rfl, rfl, rfl, rfl, rfl, rfl, rfl, rfl, rfl, rfl, rfl, rfl, rfl, rfl, rfl, rfl, rfl, rfl,
    rfl, rfl, rfl⟩

/-- `raisePts` changes `gangs` alone. -/
@[simp] theorem State.raisePts_fields (s : State) (gang : Nat) (t : TS) :
    (s.raisePts gang t).cycle = s.cycle ∧ (s.raisePts gang t).ptp = s.ptp ∧
    (s.raisePts gang t).ptpRem = s.ptpRem ∧ (s.raisePts gang t).mhz = s.mhz ∧
    (s.raisePts gang t).synced = s.synced ∧ (s.raisePts gang t).slew = s.slew ∧
    (s.raisePts gang t).cur = s.cur ∧ (s.raisePts gang t).held = s.held ∧
    (s.raisePts gang t).turns = s.turns ∧ (s.raisePts gang t).usedPipes = s.usedPipes ∧
    (s.raisePts gang t).granted = s.granted ∧ (s.raisePts gang t).rr = s.rr ∧
    (s.raisePts gang t).agenda = s.agenda ∧ (s.raisePts gang t).timers = s.timers ∧
    (s.raisePts gang t).nsTimers = s.nsTimers ∧ (s.raisePts gang t).choices = s.choices ∧
    (s.raisePts gang t).fresh = s.fresh ∧ (s.raisePts gang t).groups = s.groups ∧
    (s.raisePts gang t).teams = s.teams ∧ (s.raisePts gang t).windows = s.windows ∧
    (s.raisePts gang t).ops = s.ops ∧ (s.raisePts gang t).bankFree = s.bankFree ∧
    (s.raisePts gang t).passes = s.passes ∧ (s.raisePts gang t).sx = s.sx ∧ (s.raisePts gang t).mx = s.mx ∧
    (s.raisePts gang t).progs = s.progs ∧ (s.raisePts gang t).sxRr = s.sxRr ∧
    (s.raisePts gang t).mxRr = s.mxRr ∧ (s.raisePts gang t).mem = s.mem ∧ (s.raisePts gang t).bad = s.bad ∧
    (s.raisePts gang t).icache = s.icache ∧ (s.raisePts gang t).tlb = s.tlb ∧
    (s.raisePts gang t).l1 = s.l1 ∧ (s.raisePts gang t).smb = s.smb ∧ (s.raisePts gang t).owned = s.owned ∧
    (s.raisePts gang t).reds = s.reds ∧ (s.raisePts gang t).wsigs = s.wsigs ∧
    (s.raisePts gang t).reqs = s.reqs ∧ (s.raisePts gang t).chips = s.chips ∧
    (s.raisePts gang t).l2 = s.l2 ∧ (s.raisePts gang t).regions = s.regions ∧
    (s.raisePts gang t).rles = s.rles ∧ (s.raisePts gang t).lwaits = s.lwaits ∧
    (s.raisePts gang t).cells = s.cells ∧ (s.raisePts gang t).farWon = s.farWon ∧
    (s.raisePts gang t).stamp = s.stamp ∧ (s.raisePts gang t).rets = s.rets ∧
    (s.raisePts gang t).dclk = s.dclk ∧ (s.raisePts gang t).floors = s.floors ∧
    (s.raisePts gang t).dclkSeen = s.dclkSeen ∧ (s.raisePts gang t).offFrames = s.offFrames ∧
    (s.raisePts gang t).offL1 = s.offL1 ∧ (s.raisePts gang t).corrected = s.corrected ∧
    (s.raisePts gang t).retired = s.retired ∧ (s.raisePts gang t).drains = s.drains ∧
    (s.raisePts gang t).parts = s.parts ∧ (s.raisePts gang t).launches = s.launches ∧
    (s.raisePts gang t).accepted = s.accepted ∧ (s.raisePts gang t).lastDie = s.lastDie ∧
    (s.raisePts gang t).copies = s.copies ∧ (s.raisePts gang t).audits = s.audits ∧
    (s.raisePts gang t).cxl = s.cxl ∧ (s.raisePts gang t).granules = s.granules ∧
    (s.raisePts gang t).snoops = s.snoops ∧ (s.raisePts gang t).ingest = s.ingest ∧
    (s.raisePts gang t).reply = s.reply ∧ (s.raisePts gang t).devnum = s.devnum ∧
    (s.raisePts gang t).ports = s.ports ∧ (s.raisePts gang t).joined = s.joined ∧
    (s.raisePts gang t).sets = s.sets ∧ (s.raisePts gang t).harvest = s.harvest ∧
    (s.raisePts gang t).sigOk = s.sigOk ∧ (s.raisePts gang t).stage = s.stage ∧
    (s.raisePts gang t).bootFail = s.bootFail ∧ (s.raisePts gang t).pwrcap = s.pwrcap ∧
    (s.raisePts gang t).pwr = s.pwr ∧ (s.raisePts gang t).tmax = s.tmax ∧ (s.raisePts gang t).thr = s.thr ∧
    (s.raisePts gang t).attctl = s.attctl ∧ (s.raisePts gang t).attnonce = s.attnonce ∧
    (s.raisePts gang t).attCount = s.attCount ∧ (s.raisePts gang t).dbgctl = s.dbgctl ∧
    (s.raisePts gang t).dbgsel = s.dbgsel :=
  ⟨rfl, rfl, rfl, rfl, rfl, rfl, rfl, rfl, rfl, rfl, rfl, rfl, rfl, rfl, rfl, rfl, rfl, rfl, rfl, rfl,
    rfl, rfl, rfl, rfl, rfl, rfl, rfl, rfl, rfl, rfl, rfl, rfl, rfl, rfl, rfl, rfl, rfl, rfl, rfl, rfl,
    rfl, rfl, rfl, rfl, rfl, rfl, rfl, rfl, rfl, rfl, rfl, rfl, rfl, rfl, rfl, rfl, rfl, rfl, rfl, rfl,
    rfl, rfl, rfl, rfl, rfl, rfl, rfl, rfl, rfl, rfl, rfl, rfl, rfl, rfl, rfl, rfl, rfl, rfl, rfl, rfl,
    rfl, rfl, rfl⟩

/-- `poke` changes `mem` and `launches` alone. -/
@[simp] theorem State.poke_fields (s : State) (k : Nat) (b : Byte) :
    (s.poke k b).cycle = s.cycle ∧ (s.poke k b).ptp = s.ptp ∧ (s.poke k b).ptpRem = s.ptpRem ∧
    (s.poke k b).mhz = s.mhz ∧ (s.poke k b).synced = s.synced ∧ (s.poke k b).slew = s.slew ∧
    (s.poke k b).cur = s.cur ∧ (s.poke k b).held = s.held ∧ (s.poke k b).turns = s.turns ∧
    (s.poke k b).usedPipes = s.usedPipes ∧ (s.poke k b).granted = s.granted ∧ (s.poke k b).rr = s.rr ∧
    (s.poke k b).agenda = s.agenda ∧ (s.poke k b).timers = s.timers ∧ (s.poke k b).nsTimers = s.nsTimers ∧
    (s.poke k b).choices = s.choices ∧ (s.poke k b).fresh = s.fresh ∧ (s.poke k b).gangs = s.gangs ∧
    (s.poke k b).groups = s.groups ∧ (s.poke k b).teams = s.teams ∧ (s.poke k b).windows = s.windows ∧
    (s.poke k b).ops = s.ops ∧ (s.poke k b).bankFree = s.bankFree ∧ (s.poke k b).passes = s.passes ∧
    (s.poke k b).sx = s.sx ∧ (s.poke k b).mx = s.mx ∧ (s.poke k b).progs = s.progs ∧
    (s.poke k b).sxRr = s.sxRr ∧ (s.poke k b).mxRr = s.mxRr ∧ (s.poke k b).bad = s.bad ∧
    (s.poke k b).icache = s.icache ∧ (s.poke k b).tlb = s.tlb ∧ (s.poke k b).l1 = s.l1 ∧
    (s.poke k b).smb = s.smb ∧ (s.poke k b).owned = s.owned ∧ (s.poke k b).reds = s.reds ∧
    (s.poke k b).wsigs = s.wsigs ∧ (s.poke k b).reqs = s.reqs ∧ (s.poke k b).chips = s.chips ∧
    (s.poke k b).l2 = s.l2 ∧ (s.poke k b).regions = s.regions ∧ (s.poke k b).rles = s.rles ∧
    (s.poke k b).lwaits = s.lwaits ∧ (s.poke k b).cells = s.cells ∧ (s.poke k b).farWon = s.farWon ∧
    (s.poke k b).stamp = s.stamp ∧ (s.poke k b).rets = s.rets ∧ (s.poke k b).dclk = s.dclk ∧
    (s.poke k b).floors = s.floors ∧ (s.poke k b).dclkSeen = s.dclkSeen ∧
    (s.poke k b).offFrames = s.offFrames ∧ (s.poke k b).offL1 = s.offL1 ∧
    (s.poke k b).corrected = s.corrected ∧ (s.poke k b).retired = s.retired ∧
    (s.poke k b).drains = s.drains ∧ (s.poke k b).parts = s.parts ∧ (s.poke k b).accepted = s.accepted ∧
    (s.poke k b).lastDie = s.lastDie ∧ (s.poke k b).copies = s.copies ∧ (s.poke k b).audits = s.audits ∧
    (s.poke k b).cxl = s.cxl ∧ (s.poke k b).granules = s.granules ∧ (s.poke k b).snoops = s.snoops ∧
    (s.poke k b).ingest = s.ingest ∧ (s.poke k b).reply = s.reply ∧ (s.poke k b).devnum = s.devnum ∧
    (s.poke k b).ports = s.ports ∧ (s.poke k b).joined = s.joined ∧ (s.poke k b).sets = s.sets ∧
    (s.poke k b).harvest = s.harvest ∧ (s.poke k b).sigOk = s.sigOk ∧ (s.poke k b).stage = s.stage ∧
    (s.poke k b).bootFail = s.bootFail ∧ (s.poke k b).pwrcap = s.pwrcap ∧ (s.poke k b).pwr = s.pwr ∧
    (s.poke k b).tmax = s.tmax ∧ (s.poke k b).thr = s.thr ∧ (s.poke k b).attctl = s.attctl ∧
    (s.poke k b).attnonce = s.attnonce ∧ (s.poke k b).attCount = s.attCount ∧
    (s.poke k b).dbgctl = s.dbgctl ∧ (s.poke k b).dbgsel = s.dbgsel :=
  ⟨rfl, rfl, rfl, rfl, rfl, rfl, rfl, rfl, rfl, rfl, rfl, rfl, rfl, rfl, rfl, rfl, rfl, rfl, rfl, rfl,
    rfl, rfl, rfl, rfl, rfl, rfl, rfl, rfl, rfl, rfl, rfl, rfl, rfl, rfl, rfl, rfl, rfl, rfl, rfl, rfl,
    rfl, rfl, rfl, rfl, rfl, rfl, rfl, rfl, rfl, rfl, rfl, rfl, rfl, rfl, rfl, rfl, rfl, rfl, rfl, rfl,
    rfl, rfl, rfl, rfl, rfl, rfl, rfl, rfl, rfl, rfl, rfl, rfl, rfl, rfl, rfl, rfl, rfl, rfl, rfl, rfl,
    rfl, rfl⟩

/-- `post` changes `agenda` alone. -/
@[simp] theorem State.post_fields (s : State) (i : Instr) :
    (s.post i).cycle = s.cycle ∧ (s.post i).ptp = s.ptp ∧ (s.post i).ptpRem = s.ptpRem ∧
    (s.post i).mhz = s.mhz ∧ (s.post i).synced = s.synced ∧ (s.post i).slew = s.slew ∧
    (s.post i).cur = s.cur ∧ (s.post i).held = s.held ∧ (s.post i).turns = s.turns ∧
    (s.post i).usedPipes = s.usedPipes ∧ (s.post i).granted = s.granted ∧ (s.post i).rr = s.rr ∧
    (s.post i).timers = s.timers ∧ (s.post i).nsTimers = s.nsTimers ∧ (s.post i).choices = s.choices ∧
    (s.post i).fresh = s.fresh ∧ (s.post i).gangs = s.gangs ∧ (s.post i).groups = s.groups ∧
    (s.post i).teams = s.teams ∧ (s.post i).windows = s.windows ∧ (s.post i).ops = s.ops ∧
    (s.post i).bankFree = s.bankFree ∧ (s.post i).passes = s.passes ∧ (s.post i).sx = s.sx ∧
    (s.post i).mx = s.mx ∧ (s.post i).progs = s.progs ∧ (s.post i).sxRr = s.sxRr ∧
    (s.post i).mxRr = s.mxRr ∧ (s.post i).mem = s.mem ∧ (s.post i).bad = s.bad ∧
    (s.post i).icache = s.icache ∧ (s.post i).tlb = s.tlb ∧ (s.post i).l1 = s.l1 ∧ (s.post i).smb = s.smb ∧
    (s.post i).owned = s.owned ∧ (s.post i).reds = s.reds ∧ (s.post i).wsigs = s.wsigs ∧
    (s.post i).reqs = s.reqs ∧ (s.post i).chips = s.chips ∧ (s.post i).l2 = s.l2 ∧
    (s.post i).regions = s.regions ∧ (s.post i).rles = s.rles ∧ (s.post i).lwaits = s.lwaits ∧
    (s.post i).cells = s.cells ∧ (s.post i).farWon = s.farWon ∧ (s.post i).stamp = s.stamp ∧
    (s.post i).rets = s.rets ∧ (s.post i).dclk = s.dclk ∧ (s.post i).floors = s.floors ∧
    (s.post i).dclkSeen = s.dclkSeen ∧ (s.post i).offFrames = s.offFrames ∧ (s.post i).offL1 = s.offL1 ∧
    (s.post i).corrected = s.corrected ∧ (s.post i).retired = s.retired ∧ (s.post i).drains = s.drains ∧
    (s.post i).parts = s.parts ∧ (s.post i).launches = s.launches ∧ (s.post i).accepted = s.accepted ∧
    (s.post i).lastDie = s.lastDie ∧ (s.post i).copies = s.copies ∧ (s.post i).audits = s.audits ∧
    (s.post i).cxl = s.cxl ∧ (s.post i).granules = s.granules ∧ (s.post i).snoops = s.snoops ∧
    (s.post i).ingest = s.ingest ∧ (s.post i).reply = s.reply ∧ (s.post i).devnum = s.devnum ∧
    (s.post i).ports = s.ports ∧ (s.post i).joined = s.joined ∧ (s.post i).sets = s.sets ∧
    (s.post i).harvest = s.harvest ∧ (s.post i).sigOk = s.sigOk ∧ (s.post i).stage = s.stage ∧
    (s.post i).bootFail = s.bootFail ∧ (s.post i).pwrcap = s.pwrcap ∧ (s.post i).pwr = s.pwr ∧
    (s.post i).tmax = s.tmax ∧ (s.post i).thr = s.thr ∧ (s.post i).attctl = s.attctl ∧
    (s.post i).attnonce = s.attnonce ∧ (s.post i).attCount = s.attCount ∧ (s.post i).dbgctl = s.dbgctl ∧
    (s.post i).dbgsel = s.dbgsel :=
  ⟨rfl, rfl, rfl, rfl, rfl, rfl, rfl, rfl, rfl, rfl, rfl, rfl, rfl, rfl, rfl, rfl, rfl, rfl, rfl, rfl,
    rfl, rfl, rfl, rfl, rfl, rfl, rfl, rfl, rfl, rfl, rfl, rfl, rfl, rfl, rfl, rfl, rfl, rfl, rfl, rfl,
    rfl, rfl, rfl, rfl, rfl, rfl, rfl, rfl, rfl, rfl, rfl, rfl, rfl, rfl, rfl, rfl, rfl, rfl, rfl, rfl,
    rfl, rfl, rfl, rfl, rfl, rfl, rfl, rfl, rfl, rfl, rfl, rfl, rfl, rfl, rfl, rfl, rfl, rfl, rfl, rfl,
    rfl, rfl, rfl⟩

/-- `postAt` changes `timers` alone. -/
@[simp] theorem State.postAt_fields (s : State) (cycle : Nat) (i : Instr) :
    (s.postAt cycle i).cycle = s.cycle ∧ (s.postAt cycle i).ptp = s.ptp ∧
    (s.postAt cycle i).ptpRem = s.ptpRem ∧ (s.postAt cycle i).mhz = s.mhz ∧
    (s.postAt cycle i).synced = s.synced ∧ (s.postAt cycle i).slew = s.slew ∧
    (s.postAt cycle i).cur = s.cur ∧ (s.postAt cycle i).held = s.held ∧
    (s.postAt cycle i).turns = s.turns ∧ (s.postAt cycle i).usedPipes = s.usedPipes ∧
    (s.postAt cycle i).granted = s.granted ∧ (s.postAt cycle i).rr = s.rr ∧
    (s.postAt cycle i).agenda = s.agenda ∧ (s.postAt cycle i).nsTimers = s.nsTimers ∧
    (s.postAt cycle i).choices = s.choices ∧ (s.postAt cycle i).fresh = s.fresh ∧
    (s.postAt cycle i).gangs = s.gangs ∧ (s.postAt cycle i).groups = s.groups ∧
    (s.postAt cycle i).teams = s.teams ∧ (s.postAt cycle i).windows = s.windows ∧
    (s.postAt cycle i).ops = s.ops ∧ (s.postAt cycle i).bankFree = s.bankFree ∧
    (s.postAt cycle i).passes = s.passes ∧ (s.postAt cycle i).sx = s.sx ∧ (s.postAt cycle i).mx = s.mx ∧
    (s.postAt cycle i).progs = s.progs ∧ (s.postAt cycle i).sxRr = s.sxRr ∧
    (s.postAt cycle i).mxRr = s.mxRr ∧ (s.postAt cycle i).mem = s.mem ∧ (s.postAt cycle i).bad = s.bad ∧
    (s.postAt cycle i).icache = s.icache ∧ (s.postAt cycle i).tlb = s.tlb ∧ (s.postAt cycle i).l1 = s.l1 ∧
    (s.postAt cycle i).smb = s.smb ∧ (s.postAt cycle i).owned = s.owned ∧
    (s.postAt cycle i).reds = s.reds ∧ (s.postAt cycle i).wsigs = s.wsigs ∧
    (s.postAt cycle i).reqs = s.reqs ∧ (s.postAt cycle i).chips = s.chips ∧ (s.postAt cycle i).l2 = s.l2 ∧
    (s.postAt cycle i).regions = s.regions ∧ (s.postAt cycle i).rles = s.rles ∧
    (s.postAt cycle i).lwaits = s.lwaits ∧ (s.postAt cycle i).cells = s.cells ∧
    (s.postAt cycle i).farWon = s.farWon ∧ (s.postAt cycle i).stamp = s.stamp ∧
    (s.postAt cycle i).rets = s.rets ∧ (s.postAt cycle i).dclk = s.dclk ∧
    (s.postAt cycle i).floors = s.floors ∧ (s.postAt cycle i).dclkSeen = s.dclkSeen ∧
    (s.postAt cycle i).offFrames = s.offFrames ∧ (s.postAt cycle i).offL1 = s.offL1 ∧
    (s.postAt cycle i).corrected = s.corrected ∧ (s.postAt cycle i).retired = s.retired ∧
    (s.postAt cycle i).drains = s.drains ∧ (s.postAt cycle i).parts = s.parts ∧
    (s.postAt cycle i).launches = s.launches ∧ (s.postAt cycle i).accepted = s.accepted ∧
    (s.postAt cycle i).lastDie = s.lastDie ∧ (s.postAt cycle i).copies = s.copies ∧
    (s.postAt cycle i).audits = s.audits ∧ (s.postAt cycle i).cxl = s.cxl ∧
    (s.postAt cycle i).granules = s.granules ∧ (s.postAt cycle i).snoops = s.snoops ∧
    (s.postAt cycle i).ingest = s.ingest ∧ (s.postAt cycle i).reply = s.reply ∧
    (s.postAt cycle i).devnum = s.devnum ∧ (s.postAt cycle i).ports = s.ports ∧
    (s.postAt cycle i).joined = s.joined ∧ (s.postAt cycle i).sets = s.sets ∧
    (s.postAt cycle i).harvest = s.harvest ∧ (s.postAt cycle i).sigOk = s.sigOk ∧
    (s.postAt cycle i).stage = s.stage ∧ (s.postAt cycle i).bootFail = s.bootFail ∧
    (s.postAt cycle i).pwrcap = s.pwrcap ∧ (s.postAt cycle i).pwr = s.pwr ∧
    (s.postAt cycle i).tmax = s.tmax ∧ (s.postAt cycle i).thr = s.thr ∧
    (s.postAt cycle i).attctl = s.attctl ∧ (s.postAt cycle i).attnonce = s.attnonce ∧
    (s.postAt cycle i).attCount = s.attCount ∧ (s.postAt cycle i).dbgctl = s.dbgctl ∧
    (s.postAt cycle i).dbgsel = s.dbgsel :=
  ⟨rfl, rfl, rfl, rfl, rfl, rfl, rfl, rfl, rfl, rfl, rfl, rfl, rfl, rfl, rfl, rfl, rfl, rfl, rfl, rfl,
    rfl, rfl, rfl, rfl, rfl, rfl, rfl, rfl, rfl, rfl, rfl, rfl, rfl, rfl, rfl, rfl, rfl, rfl, rfl, rfl,
    rfl, rfl, rfl, rfl, rfl, rfl, rfl, rfl, rfl, rfl, rfl, rfl, rfl, rfl, rfl, rfl, rfl, rfl, rfl, rfl,
    rfl, rfl, rfl, rfl, rfl, rfl, rfl, rfl, rfl, rfl, rfl, rfl, rfl, rfl, rfl, rfl, rfl, rfl, rfl, rfl,
    rfl, rfl, rfl⟩

/-- `postNs` changes `nsTimers` alone. -/
@[simp] theorem State.postNs_fields (s : State) (ns : Nat) (i : Instr) :
    (s.postNs ns i).cycle = s.cycle ∧ (s.postNs ns i).ptp = s.ptp ∧ (s.postNs ns i).ptpRem = s.ptpRem ∧
    (s.postNs ns i).mhz = s.mhz ∧ (s.postNs ns i).synced = s.synced ∧ (s.postNs ns i).slew = s.slew ∧
    (s.postNs ns i).cur = s.cur ∧ (s.postNs ns i).held = s.held ∧ (s.postNs ns i).turns = s.turns ∧
    (s.postNs ns i).usedPipes = s.usedPipes ∧ (s.postNs ns i).granted = s.granted ∧
    (s.postNs ns i).rr = s.rr ∧ (s.postNs ns i).agenda = s.agenda ∧ (s.postNs ns i).timers = s.timers ∧
    (s.postNs ns i).choices = s.choices ∧ (s.postNs ns i).fresh = s.fresh ∧
    (s.postNs ns i).gangs = s.gangs ∧ (s.postNs ns i).groups = s.groups ∧ (s.postNs ns i).teams = s.teams ∧
    (s.postNs ns i).windows = s.windows ∧ (s.postNs ns i).ops = s.ops ∧
    (s.postNs ns i).bankFree = s.bankFree ∧ (s.postNs ns i).passes = s.passes ∧ (s.postNs ns i).sx = s.sx ∧
    (s.postNs ns i).mx = s.mx ∧ (s.postNs ns i).progs = s.progs ∧ (s.postNs ns i).sxRr = s.sxRr ∧
    (s.postNs ns i).mxRr = s.mxRr ∧ (s.postNs ns i).mem = s.mem ∧ (s.postNs ns i).bad = s.bad ∧
    (s.postNs ns i).icache = s.icache ∧ (s.postNs ns i).tlb = s.tlb ∧ (s.postNs ns i).l1 = s.l1 ∧
    (s.postNs ns i).smb = s.smb ∧ (s.postNs ns i).owned = s.owned ∧ (s.postNs ns i).reds = s.reds ∧
    (s.postNs ns i).wsigs = s.wsigs ∧ (s.postNs ns i).reqs = s.reqs ∧ (s.postNs ns i).chips = s.chips ∧
    (s.postNs ns i).l2 = s.l2 ∧ (s.postNs ns i).regions = s.regions ∧ (s.postNs ns i).rles = s.rles ∧
    (s.postNs ns i).lwaits = s.lwaits ∧ (s.postNs ns i).cells = s.cells ∧
    (s.postNs ns i).farWon = s.farWon ∧ (s.postNs ns i).stamp = s.stamp ∧ (s.postNs ns i).rets = s.rets ∧
    (s.postNs ns i).dclk = s.dclk ∧ (s.postNs ns i).floors = s.floors ∧
    (s.postNs ns i).dclkSeen = s.dclkSeen ∧ (s.postNs ns i).offFrames = s.offFrames ∧
    (s.postNs ns i).offL1 = s.offL1 ∧ (s.postNs ns i).corrected = s.corrected ∧
    (s.postNs ns i).retired = s.retired ∧ (s.postNs ns i).drains = s.drains ∧
    (s.postNs ns i).parts = s.parts ∧ (s.postNs ns i).launches = s.launches ∧
    (s.postNs ns i).accepted = s.accepted ∧ (s.postNs ns i).lastDie = s.lastDie ∧
    (s.postNs ns i).copies = s.copies ∧ (s.postNs ns i).audits = s.audits ∧ (s.postNs ns i).cxl = s.cxl ∧
    (s.postNs ns i).granules = s.granules ∧ (s.postNs ns i).snoops = s.snoops ∧
    (s.postNs ns i).ingest = s.ingest ∧ (s.postNs ns i).reply = s.reply ∧
    (s.postNs ns i).devnum = s.devnum ∧ (s.postNs ns i).ports = s.ports ∧
    (s.postNs ns i).joined = s.joined ∧ (s.postNs ns i).sets = s.sets ∧
    (s.postNs ns i).harvest = s.harvest ∧ (s.postNs ns i).sigOk = s.sigOk ∧
    (s.postNs ns i).stage = s.stage ∧ (s.postNs ns i).bootFail = s.bootFail ∧
    (s.postNs ns i).pwrcap = s.pwrcap ∧ (s.postNs ns i).pwr = s.pwr ∧ (s.postNs ns i).tmax = s.tmax ∧
    (s.postNs ns i).thr = s.thr ∧ (s.postNs ns i).attctl = s.attctl ∧
    (s.postNs ns i).attnonce = s.attnonce ∧ (s.postNs ns i).attCount = s.attCount ∧
    (s.postNs ns i).dbgctl = s.dbgctl ∧ (s.postNs ns i).dbgsel = s.dbgsel :=
  ⟨rfl, rfl, rfl, rfl, rfl, rfl, rfl, rfl, rfl, rfl, rfl, rfl, rfl, rfl, rfl, rfl, rfl, rfl, rfl, rfl,
    rfl, rfl, rfl, rfl, rfl, rfl, rfl, rfl, rfl, rfl, rfl, rfl, rfl, rfl, rfl, rfl, rfl, rfl, rfl, rfl,
    rfl, rfl, rfl, rfl, rfl, rfl, rfl, rfl, rfl, rfl, rfl, rfl, rfl, rfl, rfl, rfl, rfl, rfl, rfl, rfl,
    rfl, rfl, rfl, rfl, rfl, rfl, rfl, rfl, rfl, rfl, rfl, rfl, rfl, rfl, rfl, rfl, rfl, rfl, rfl, rfl,
    rfl, rfl, rfl⟩

/-- `choose` changes `choices` alone. -/
@[simp] theorem State.choose_fields (s : State) (n : Nat) :
    ((s.choose n).2).cycle = s.cycle ∧ ((s.choose n).2).ptp = s.ptp ∧ ((s.choose n).2).ptpRem = s.ptpRem ∧
    ((s.choose n).2).mhz = s.mhz ∧ ((s.choose n).2).synced = s.synced ∧ ((s.choose n).2).slew = s.slew ∧
    ((s.choose n).2).cur = s.cur ∧ ((s.choose n).2).held = s.held ∧ ((s.choose n).2).turns = s.turns ∧
    ((s.choose n).2).usedPipes = s.usedPipes ∧ ((s.choose n).2).granted = s.granted ∧
    ((s.choose n).2).rr = s.rr ∧ ((s.choose n).2).agenda = s.agenda ∧ ((s.choose n).2).timers = s.timers ∧
    ((s.choose n).2).nsTimers = s.nsTimers ∧ ((s.choose n).2).fresh = s.fresh ∧
    ((s.choose n).2).gangs = s.gangs ∧ ((s.choose n).2).groups = s.groups ∧
    ((s.choose n).2).teams = s.teams ∧ ((s.choose n).2).windows = s.windows ∧
    ((s.choose n).2).ops = s.ops ∧ ((s.choose n).2).bankFree = s.bankFree ∧
    ((s.choose n).2).passes = s.passes ∧ ((s.choose n).2).sx = s.sx ∧ ((s.choose n).2).mx = s.mx ∧
    ((s.choose n).2).progs = s.progs ∧ ((s.choose n).2).sxRr = s.sxRr ∧ ((s.choose n).2).mxRr = s.mxRr ∧
    ((s.choose n).2).mem = s.mem ∧ ((s.choose n).2).bad = s.bad ∧ ((s.choose n).2).icache = s.icache ∧
    ((s.choose n).2).tlb = s.tlb ∧ ((s.choose n).2).l1 = s.l1 ∧ ((s.choose n).2).smb = s.smb ∧
    ((s.choose n).2).owned = s.owned ∧ ((s.choose n).2).reds = s.reds ∧ ((s.choose n).2).wsigs = s.wsigs ∧
    ((s.choose n).2).reqs = s.reqs ∧ ((s.choose n).2).chips = s.chips ∧ ((s.choose n).2).l2 = s.l2 ∧
    ((s.choose n).2).regions = s.regions ∧ ((s.choose n).2).rles = s.rles ∧
    ((s.choose n).2).lwaits = s.lwaits ∧ ((s.choose n).2).cells = s.cells ∧
    ((s.choose n).2).farWon = s.farWon ∧ ((s.choose n).2).stamp = s.stamp ∧
    ((s.choose n).2).rets = s.rets ∧ ((s.choose n).2).dclk = s.dclk ∧ ((s.choose n).2).floors = s.floors ∧
    ((s.choose n).2).dclkSeen = s.dclkSeen ∧ ((s.choose n).2).offFrames = s.offFrames ∧
    ((s.choose n).2).offL1 = s.offL1 ∧ ((s.choose n).2).corrected = s.corrected ∧
    ((s.choose n).2).retired = s.retired ∧ ((s.choose n).2).drains = s.drains ∧
    ((s.choose n).2).parts = s.parts ∧ ((s.choose n).2).launches = s.launches ∧
    ((s.choose n).2).accepted = s.accepted ∧ ((s.choose n).2).lastDie = s.lastDie ∧
    ((s.choose n).2).copies = s.copies ∧ ((s.choose n).2).audits = s.audits ∧
    ((s.choose n).2).cxl = s.cxl ∧ ((s.choose n).2).granules = s.granules ∧
    ((s.choose n).2).snoops = s.snoops ∧ ((s.choose n).2).ingest = s.ingest ∧
    ((s.choose n).2).reply = s.reply ∧ ((s.choose n).2).devnum = s.devnum ∧
    ((s.choose n).2).ports = s.ports ∧ ((s.choose n).2).joined = s.joined ∧
    ((s.choose n).2).sets = s.sets ∧ ((s.choose n).2).harvest = s.harvest ∧
    ((s.choose n).2).sigOk = s.sigOk ∧ ((s.choose n).2).stage = s.stage ∧
    ((s.choose n).2).bootFail = s.bootFail ∧ ((s.choose n).2).pwrcap = s.pwrcap ∧
    ((s.choose n).2).pwr = s.pwr ∧ ((s.choose n).2).tmax = s.tmax ∧ ((s.choose n).2).thr = s.thr ∧
    ((s.choose n).2).attctl = s.attctl ∧ ((s.choose n).2).attnonce = s.attnonce ∧
    ((s.choose n).2).attCount = s.attCount ∧ ((s.choose n).2).dbgctl = s.dbgctl ∧
    ((s.choose n).2).dbgsel = s.dbgsel :=
  ⟨rfl, rfl, rfl, rfl, rfl, rfl, rfl, rfl, rfl, rfl, rfl, rfl, rfl, rfl, rfl, rfl, rfl, rfl, rfl, rfl,
    rfl, rfl, rfl, rfl, rfl, rfl, rfl, rfl, rfl, rfl, rfl, rfl, rfl, rfl, rfl, rfl, rfl, rfl, rfl, rfl,
    rfl, rfl, rfl, rfl, rfl, rfl, rfl, rfl, rfl, rfl, rfl, rfl, rfl, rfl, rfl, rfl, rfl, rfl, rfl, rfl,
    rfl, rfl, rfl, rfl, rfl, rfl, rfl, rfl, rfl, rfl, rfl, rfl, rfl, rfl, rfl, rfl, rfl, rfl, rfl, rfl,
    rfl, rfl, rfl⟩

end Sys2Proof.Machine
end

