-- ==== Sys2Proof/Laws/StreamWord.lean ====
section
/-!
SUPPORT. Words without lane operands: when nothing holds them their own effect is performed, and how
changes of the issuing slices, one after another, come to one change of each.
-/

namespace Sys2Proof.Machine

open Sys2Proof.Safety Sys2Proof.Claims

/-- A word of a stream that no operation blocks is performed. -/
theorem withStream_eq {s : State} {x : Cx} (h : s.stream? = some x) (hb : x.blocked s = false)
    (k : Cx → Host.Outcome State Fault Refusal) : withStream s k = k x := by simp [withStream, h, hb]

theorem groupDamaged_sound {s : State} (h : s.bad = []) (x : Cx) (srcs : List Src) (preds : List Nat) :
    groupDamaged s x srcs preds = false := by simp [groupDamaged, h]

/-- A legal word without lane operands that nothing holds is performed. -/
theorem streamWord_ready {s : State} {x : Cx} {legal : Bool} {preds : List Nat}
    {k : State → Cx → Host.Outcome State Fault Refusal} (h : StreamReady s x) (hl : legal = true) :
    streamWord s legal preds k = k s x := by
  simp [streamWord, withStream, h.stream, notBlocked h.free, h.hints, h.free, hl, groupDamaged_sound h.sound,
    repairWhere_sound h.sound]

theorem mapSlices_id (x : Cx) : (x.mapSlices fun _ sl => sl) = x.g := by
  simp [Cx.mapSlices, imap_id]

/-- A change of every issuing slice is one that Sends speaks of. -/
theorem sends_mapSlices {s : State} {x : Cx} {f : Nat → Slice → Slice} :
    Sends s (s.setGang (x.mapSlices f)) x x.g.unified f :=
  ⟨x.mapSlices f, rfl, mapSlices_gangWith fun _ _ _ _ => rfl⟩

/-- What `issued` leaves in each issuing slice. -/
theorem issued_eq (x : Cx) (s : State) (st n : Nat) (dest : Nat → Slice → Word) :
    x.issued s st n dest = x.mapSlices fun i sl => sent s.beat st n (dest i sl) sl := rfl

theorem next_eq (x : Cx) (s : State) (st : Nat) :
    x.next s st = x.mapSlices fun _ sl => sent s.beat st 0 (sl.pc + 4) sl := rfl

theorem metFault_beat (s : State) (G : Group) : (s.metFault G).beat = s.beat := by
  unfold State.metFault; split <;> rfl

/-- A precise fault of a stream with a handler (R138). A replay that meets one is marked so (R393). -/
theorem takeTrap_handled {s : State} {x : Cx} (h : CanTrap x) (cause code : Nat) (bk : Bool) (m : Word)
    (ret : Option Word) :
    Sends (s.metFault x.grp) (takeTrap s x cause code bk m ret) x x.g.unified fun _ old =>
      trapped s.beat x.grp.trapvec (trapCauseWord cause code bk) m (ret.getD (old.hints.addr.getD old.pc)) old := by
  have e : takeTrap s x cause code bk m ret = (s.metFault x.grp).setGang (x.mapSlices fun _ old =>
      trapped (s.metFault x.grp).beat x.grp.trapvec (trapCauseWord cause code bk) m
        (ret.getD (old.hints.addr.getD old.pc)) old) := by
    rw [takeTrap, if_neg]
    · rfl
    · rintro (hv | hv)
      · exact h.vector hv
      · obtain ⟨i, hi, hv⟩ := List.any_eq_true.mp hv
        cases hs : x.g.slice? i with
        | none => simp [hs] at hv
        | some sl =>
          have := h.outside i hi sl hs
          simp [hs, Slice.inHandler] at hv this
          simp [hv] at this
  rw [e, metFault_beat]
  exact sends_mapSlices

/-- The gang and the group of a stream are those of the state. -/
theorem streamOf_some {s : State} {r : StreamRef} {x : Cx} (h : s.streamOf r = some x) :
    s.gang? r.gang = some x.g ∧ s.group? x.g.group = some x.grp := by
  unfold State.streamOf at h
  split at h
  · cases h
  · rename_i g hg
    split at h
    · cases h
    · rename_i grp hgrp
      split at h
      · split at h
        · cases h; exact ⟨hg, hgrp⟩
        · cases h
      · split at h
        · cases h; exact ⟨hg, hgrp⟩
        · cases h

theorem stream?_some {s : State} {x : Cx} (h : s.stream? = some x) :
    s.gang? x.g.id = some x.g ∧ s.group? x.grp.id = some x.grp := by
  obtain ⟨r, _, hr⟩ := Option.bind_eq_some_iff.mp h
  obtain ⟨hg, hG⟩ := streamOf_some hr
  have e : x.g.id = r.gang := by simpa using List.find?_some hg
  have e' : x.grp.id = x.g.group := by simpa using List.find?_some hG
  exact ⟨e ▸ hg, e' ▸ hG⟩

/-- A change of the gang after it was put back. -/
theorem setGang_modGang (s : State) (g : Gang) (f : Gang → Gang) (h : (f g).id = g.id) :
    (s.setGang g).modGang g.id f = s.setGang (f g) := by
  simp only [State.setGang, State.modGang, List.map_map, h]
  congr 1
  apply List.map_congr_left
  intro a _
  by_cases e : a.id = g.id <;> simp [Function.comp, e]

theorem partTest_id (g : Gang) : g.partTest.id = g.id := by
  unfold Gang.partTest; split
  · rfl
  · split <;> rfl

/-- The issuing slices change once more, each from what it was before and after the word. -/
theorem gangWith_after {x : Cx} {R : Nat → Slice → Slice → Prop} {g : Gang} (h : GangWith x R g)
    (post : Nat → Slice → Slice → Slice) :
    GangWith x (fun i old new => ∃ mid, R i old mid ∧ new = post i old mid)
      (Cx.mapSlices ⟨g, x.grp, x.ss⟩ fun i sl => match x.g.slice? i with
        | some old => post i old sl
        | none => sl) := by
  obtain ⟨he, hl, hs⟩ := h
  refine ⟨?_, by simp [Cx.mapSlices, hl], fun i sl hi => ?_⟩
  · exact congrArg (fun (a : Gang) => { a with slices := (Cx.mapSlices ⟨g, x.grp, x.ss⟩ fun i sl =>
      match x.g.slice? i with | some old => post i old sl | none => sl).slices }) he
  · obtain ⟨mid, hm, hr⟩ := hs i sl hi
    by_cases hc : x.ss.contains i = true
    · refine ⟨post i sl mid, ?_, ?_⟩
      · simp only [Cx.mapSlices, imap_zero_getElem?, hm, Option.map_some, hc, if_true, Gang.slice?, hi]
      · simp only [hc, if_true] at hr ⊢; exact ⟨mid, hr, rfl⟩
    · refine ⟨mid, ?_, ?_⟩
      · simp only [Cx.mapSlices, imap_zero_getElem?, hm, Option.map_some, hc]; rfl
      · simp only [hc] at hr ⊢; exact hr

theorem laneDone_id {s t : State} {x : Cx} {W : Shape} {fl : Nat → Slice → FFlags} {outs : Nat → LaneOut}
    (h : LaneDone s t x W fl outs) : ∃ g, t = s.setGang g ∧ g.id = x.g.id := by
  obtain ⟨g, rfl, he, _⟩ := h
  exact ⟨g, rfl, by rw [he]⟩

/-- A gate that a word with its own causes passes. -/
theorem laneGate_passes {s : State} {x : Cx} {W : Shape}
    {pre : Cx → List (List Word) → List (Nat × Word)} {f : Cx → List (List Word) → Nat → LaneOut}
    {k : Cx → List (List Word) → (Nat → LaneOut) → List Nat → State}
    (h : Passes s x W (pre x (allVals s.beat x.g W.srcs)))
    (ht : NoTrap x x.enOf (f x (allVals s.beat x.g W.srcs))) :
    laneGate s W pre Cx.enOf f k =
      .next (k x (allVals s.beat x.g W.srcs) (f x (allVals s.beat x.g W.srcs)) []) :=
  laneGateW_passes h.issues rfl h.common h.own ht

theorem noTrap_noOut (x : Cx) (en : Nat → FFlags) : NoTrap x en noOut := fun _ _ => ⟨by simp [noOut], rfl⟩

/-- The common effects of a lane word with results at once. -/
theorem finishLane_done {s : State} {x : Cx} {W : Shape} (hb : W.sb = none) (hs : s.bad = [])
    (outs : Nat → LaneOut) :
    LaneDone s (finishLane s W false x (allVals s.beat x.g W.srcs) outs []) x W (slFlags outs) outs := by
  refine ⟨_, ?_, commit_gangWith s x W false _ _ none⟩
  simp only [finishLane, hb, repairReads_sound hs, rewritten_sound hs, killLanes_nil]

/-- The common effects of a scoreboarded lane word with its results known. -/
theorem finishLane_issued {s : State} {x : Cx} {W : Shape} {lo hi : Nat} (hb : W.sb = some (lo, hi))
    (hle : lo ≤ hi) (hs : s.bad = []) (outs : Nat → LaneOut) :
    LaneIssued s (finishLane s W false x (allVals s.beat x.g W.srcs) outs []) x W lo hi outs := by
  have hm : Config.choice s.choices % (hi - lo + 1) < hi - lo + 1 := Nat.mod_lt _ (by omega)
  refine ⟨_, s.beat + lo + Config.choice s.choices % (hi - lo + 1),
    newOp { s with choices := s.choices + 1 } x W outs []
      (s.beat + lo + Config.choice s.choices % (hi - lo + 1)), by omega, by omega, ?_, ?_, ?_, ?_, ?_, ?_, ?_, ?_,
    ?_, ?_, ?_, ?_, commit_gangWith s x W false _ _ (some s.fresh)⟩
  rotate_right
  · simp only [finishLane, hb, repairReads_sound hs, rewritten_sound hs, killLanes_nil, State.returnBeat,
      State.choose]
    rfl
  all_goals simp [newOp, List.filter_eq_self.2]

/-- A lane word with an effect of its own on its slices, issued normally. -/
theorem runLanePost_done {s : State} {x : Cx} {W : Shape} {pre : Cx → List (List Word) → List (Nat × Word)}
    {f : Cx → List (List Word) → Nat → LaneOut} {post : Cx → List (List Word) → Nat → Slice → Slice → Slice}
    (h : Passes s x W (pre x (allVals s.beat x.g W.srcs)))
    (ht : NoTrap x x.enOf (f x (allVals s.beat x.g W.srcs))) :
    ∃ t, runLanePost s W pre f post = .next t ∧
      LaneAfter s t x W (f x (allVals s.beat x.g W.srcs)) Gang.partTest (post x (allVals s.beat x.g W.srcs)) := by
  refine ⟨_, laneGate_passes h ht, _, ?_, gangWith_after (commit_gangWith s x W false _ _ none) _⟩
  simp only [repairReads_sound h.issues.sound, rewritten_sound h.issues.sound, killLanes_nil]
  all_goals rfl

/-- A word without results and then an effect of its own. -/
theorem laneGate_then {s : State} {x : Cx} {W : Shape} {pre : Cx → List (List Word) → List (Nat × Word)}
    {k : Cx → List (List Word) → (Nat → LaneOut) → List Nat → State} {e : State → State} (hb : W.sb = none)
    (h : Passes s x W (pre x (allVals s.beat x.g W.srcs)))
    (he : k x (allVals s.beat x.g W.srcs) noOut [] =
      e (finishLane s W false x (allVals s.beat x.g W.srcs) noOut [])) :
    ∃ t, laneGate s W pre Cx.enOf (fun _ _ _ => { val := 0 }) k = .next t ∧ Then s t x W e := by
  refine ⟨_, laneGate_passes h (noTrap_noOut _ _), _, finishLane_done hb h.issues.sound noOut, he⟩

end Sys2Proof.Machine
end

