-- ==== Sys2Proof/Laws/WordGates.lean ====
section
/-!
SUPPORT. The gates of control, barrier and memory words: what each answers when its conditions hold.
-/

namespace Sys2Proof.Machine

open Sys2Proof.Safety Sys2Proof.Claims

/-- A result that is a value alone traps for no flag. -/
theorem noTrapVal (x : Cx) (f : Nat → Word) : NoTrap x x.enOf (fun L => { val := f L }) := fun _ _ => ⟨by simp, rfl⟩

/-- No slice meets the condition: no return-stack fault. -/
theorem stack_nil {x : Cx} {p : Slice → Bool} (h : EverySlice x fun sl => p sl = false) : stackCause p x = [] := by
  unfold stackCause; rw [if_neg]
  intro hc
  obtain ⟨i, hi, hv⟩ := List.any_eq_true.mp hc
  cases hs : x.g.slice? i with
  | none => simp [hs] at hv
  | some sl => simp [hs, h i hi sl hs] at hv

/-- Some slice meets the condition: the return-stack fault of the issuing lanes (R120). -/
theorem stack_hit {x : Cx} {p : Slice → Bool} (h : ∃ i ∈ x.ss, ∃ sl, x.g.slice? i = some sl ∧ p sl = true) : stackCause p x = [(0x0B, x.mask)] := by
  unfold stackCause; rw [if_pos]
  obtain ⟨i, hi, sl, hs, hp⟩ := h
  exact List.any_eq_true.mpr ⟨i, hi, by simp [hs, hp]⟩

/-- The state after a lane word depends on its change of slices by value. -/
theorem after_congr {s t x W outs fin p q} (h : LaneAfter s t x W outs fin p) (e : ∀ i a b, p i a b = q i a b) : LaneAfter s t x W outs fin q := by
  have : p = q := by funext i a b; exact e i a b
  exact this ▸ h

/-- No barrier is damaged in a state without damage. -/
theorem barDamaged_sound {s : State} (h : s.bad = []) (G l) : barDamaged s G l = false := by
  unfold barDamaged; split <;> simp [scratchBad, h]

theorem barRepair_sound {s : State} (h : s.bad = []) (G l) : barRepair s G l = s := by
  unfold barRepair; split <;> simp [scratchRepair, h]

/-- A stream with no scratchpad access under way is settled as it stands (R448). -/
theorem settled_none {s : State} {x : Cx} (h : ∀ p ∈ s.passes, p.gang ≠ x.g.id) : settled s x = (s, some x) := by
  unfold settled; rw [if_neg]
  simp only [List.any_eq_true, not_exists, not_and, Bool.and_eq_true, beq_iff_eq]
  exact fun p hp hg => absurd hg (h p hp)

/-- A BAR word that nothing holds performs its own effect at its barrier (R245). -/
theorem bar_ready {s x g l} (h : BarReady s x g l) {legal regs k} (hl : legal = true) (hr : ∀ r ∈ regs, BitVec.toNat r < 60) :
    barWord s legal g regs k = k s x l := by
  unfold barWord
  rw [streamWord_ready h.stream (by simpa [hl] using hr)]
  simp only [h.acq, settled_none h.passed, groupDamaged_sound h.stream.sound, Bool.false_eq_true, if_false]
  rw [h.place]
  simp only [barDamaged_sound h.stream.sound, Bool.false_eq_true, if_false, repairWhere_sound h.stream.sound,
    barRepair_sound h.stream.sound]

/-- A flush of a core with no buffered store changes nothing. -/
theorem flushNone {s : State} {c gs} (h : ∀ e ∈ s.smb, e.core ≠ c) : s.flushWhere c (fun _ => true) gs = s := by
  have : (s.smb.filter fun e => e.core == c && true) = [] := by
    rw [List.filter_eq_nil_iff]; intro e he; simpa using h e he
  unfold State.flushWhere; rw [this]; rfl

/-- A memory word whose checks pass performs its accesses (R229). -/
theorem reach_goes {s x W doc A pre k} (h : Reaches s x W doc A (pre x (allVals s.beat x.g W.srcs))) :
    memGate s W doc A pre k = .next (k x (allVals s.beat x.g W.srcs) [] (accs s x W A)) :=
  laneGateW_passes (pre := fun x v => pre x v ++ accCauses s A x v) (f := fun _ _ _ => { val := 0 })
    h.passes.issues h.goes h.passes.common h.passes.own (noTrap_noOut _ _)

/-- Issuing an operation: its record and what the stream then holds. -/
theorem issueOp_issued {s : State} {x W doc} (op : Op) (hs : s.bad = []) (h1 : op.id = s.fresh)
    (h2 : op.gang = x.g.id) (h3 : op.slices = x.ss) (h4 : op.reg = (W.dest x.hints).named)
    (h5 : op.push = (W.dest x.hints).pushes) (h6 : op.vals = []) (h7 : op.regs = []) (h8 : op.dead = [])
    (h9 : op.doc = doc) :
    OpIssued doc s (issueOp s x W (allVals s.beat x.g W.srcs) [] op) x W op := by
  refine ⟨_, ?_, h1, h2, h3, h4, h5, h6, h7, h8, h9, commit_gangWith s x W false _ noOut (some op.id)⟩
  have h : ({ s with fresh := s.fresh + 1, ops := s.ops ++ [op] } : State).bad = [] := hs
  simp only [issueOp, h1, repairReads_sound h, rewritten_sound h]; rfl

end Sys2Proof.Machine
end

