-- ==== Sys2Proof/Tests/Slice0.lean ====
section
/-!
SUPPORT. Tests of syntax: a term that each check of WellFormed refuses, and words written out field by field from
the formats of R55 and the codes of the opcode table.
-/

namespace Sys2Proof.Tests

open Sys2Proof

/-- Refused: hints with reserved or empty payloads (R64 to R67). -/
theorem test_wf_hints :
    Instr.wf (.hsched ⟨0, 0⟩) = false ∧
    Instr.wf (.himm ⟨3, 0⟩) = false ∧
    Instr.wf (.himm ⟨2, 0x10000⟩) = false ∧
    Instr.wf (.hdst ⟨18⟩) = false ∧
    Instr.wf (.hmod ⟨4, 0, 0, 0, 0⟩) = false ∧
    Instr.wf (.hmod ⟨0, 0, 5, 0, 0⟩) = false ∧
    Instr.wf (.hmod ⟨0, 0, 0, 0, 5⟩) = false := by
  decide

/-- Refused: a D5 code above 17 (R54). -/
theorem test_wf_d5 :
    Instr.wf (.iadd ⟨0, 0, 18, 0, 0⟩) = false ∧
    Instr.wf (.clz ⟨0, 0, 18, 0⟩) = false ∧
    Instr.wf (.fenc ⟨0, 0, 18, 0, 0⟩) = false ∧
    Instr.wf (.cexp2 ⟨0, 0, 18, 0⟩) = false ∧
    Instr.wf (.vmin ⟨0, 0, 18, 0, 0⟩) = false ∧
    Instr.wf (.vscan ⟨0, 0, 18, 0, 0⟩) = false ∧
    Instr.wf (.ldg ⟨0, 0, 18, 0, 0⟩) = false ∧
    Instr.wf (.ldgx ⟨0, 0, 18, 0, 0, 0⟩) = false ∧
    Instr.wf (.ldo ⟨0, 0, 18, 0, 0, 0⟩) = false ∧
    Instr.wf (.csrr ⟨0, 0, 18⟩) = false ∧
    Instr.wf (.clkCyc ⟨0, 18⟩) = false ∧
    Instr.wf (.devr ⟨0, 0, 18⟩) = false := by
  refine ⟨?_, ?_, ?_, ?_, ?_, ?_, ?_, ?_, ?_, ?_, ?_, ?_⟩ <;> rfl

/-- Refused: an operand-cache code on a queue register (R51). -/
theorem test_wf_s7 :
    Instr.wf (.iadd ⟨0, 0, 0, 0x30, 0⟩) = false ∧
    Instr.wf (.clz ⟨0, 0, 0, 0x30⟩) = false ∧
    Instr.wf (.imad ⟨0, 0x30, 0, 0⟩) = false ∧
    Instr.wf (.imad ⟨0, 0, 0x30, 0⟩) = false ∧
    Instr.wf (.imad ⟨0, 0, 0, 0x30⟩) = false ∧
    Instr.wf (.icmpeq ⟨0, 0, 0x30, 0⟩) = false ∧
    Instr.wf (.fma ⟨0, 0, 0x30, 0, 0⟩) = false ∧
    Instr.wf (.fma ⟨0, 0, 0, 0x30, 0⟩) = false ∧
    Instr.wf (.fma ⟨0, 0, 0, 0, 0x30⟩) = false ∧
    Instr.wf (.fenc ⟨0, 0, 0, 0x30, 0⟩) = false ∧
    Instr.wf (.cexp2 ⟨0, 0, 0, 0x30⟩) = false ∧
    Instr.wf (.vmin ⟨0, 0, 0, 0x30, 0⟩) = false ∧
    Instr.wf (.vscan ⟨0, 0, 0, 0x30, 0⟩) = false ∧
    Instr.wf (.pset ⟨0, 0, 0x30, 0⟩) = false ∧
    Instr.wf (.pset ⟨0, 0, 0, 0x30⟩) = false ∧
    Instr.wf (.sel ⟨0, 0, 0, 0x30, 0⟩) = false ∧
    Instr.wf (.sel ⟨0, 0, 0, 0, 0x30⟩) = false ∧
    Instr.wf (.mscl ⟨0, 0, 0, 0x30⟩) = false ∧
    Instr.wf (.mmake ⟨0, 0, 0x30⟩) = false ∧
    Instr.wf (.mcolSmp ⟨0, 0, 0x30⟩) = false ∧
    Instr.wf (.ldg ⟨0, 0, 0, 0x30, 0⟩) = false ∧
    Instr.wf (.ldgx ⟨0, 0, 0, 0, 0x30, 0⟩) = false ∧
    Instr.wf (.stg ⟨0, 0, 0x30, 0, 0⟩) = false ∧
    Instr.wf (.stg ⟨0, 0, 0, 0x30, 0⟩) = false ∧
    Instr.wf (.stgx ⟨0, 0, 0x30, 0, 0, 0⟩) = false ∧
    Instr.wf (.stgx ⟨0, 0, 0, 0, 0x30, 0⟩) = false ∧
    Instr.wf (.ldo ⟨0, 0, 0, 0x30, 0, 0⟩) = false ∧
    Instr.wf (.sto ⟨0, 0, 0x30, 0, 0, 0⟩) = false ∧
    Instr.wf (.sto ⟨0, 0, 0, 0x30, 0, 0⟩) = false ∧
    Instr.wf (.atmAdd ⟨0, 0, 0x30, 0, 0⟩) = false ∧
    Instr.wf (.atmAdd ⟨0, 0, 0, 0x30, 0⟩) = false ∧
    Instr.wf (.raddI32 ⟨0, 0x30, 0, 0⟩) = false ∧
    Instr.wf (.raddI32 ⟨0, 0, 0x30, 0⟩) = false ∧
    Instr.wf (.prop ⟨0, 0, 0x30, 0, 0⟩) = false ∧
    Instr.wf (.prop ⟨0, 0, 0, 0x30, 0⟩) = false ∧
    Instr.wf (.recyc ⟨0, 0x30, 0⟩) = false ∧
    Instr.wf (.pref ⟨0, 0x30⟩) = false ∧
    Instr.wf (.pin ⟨0, 0x30, 0⟩) = false ∧
    Instr.wf (.pin ⟨0, 0, 0x30⟩) = false ∧
    Instr.wf (.unpin ⟨0, 0x30⟩) = false ∧
    Instr.wf (.jmpi ⟨0x30⟩) = false ∧
    Instr.wf (.csrw ⟨0, 0, 0x30⟩) = false ∧
    Instr.wf (.csrwErrinj ⟨0, 0x30⟩) = false ∧
    Instr.wf (.gset ⟨0, 0, 0x30⟩) = false ∧
    Instr.wf (.iadd ⟨0, 0, 0, 0, 0x30⟩) = false ∧
    Instr.wf (.icmpeq ⟨0, 0, 0, 0x30⟩) = false := by
  refine ⟨?_, ?_, ?_, ?_, ?_, ?_, ?_, ?_, ?_, ?_, ?_, ?_, ?_, ?_, ?_, ?_, ?_, ?_, ?_, ?_, ?_, ?_, ?_, ?_, ?_, ?_, ?_, ?_, ?_, ?_, ?_, ?_, ?_, ?_, ?_, ?_, ?_, ?_, ?_, ?_, ?_, ?_, ?_, ?_, ?_, ?_⟩ <;> rfl

/-- Refused: a uniform register above g59 (R56). -/
theorem test_wf_g :
    Instr.wf (.stgx ⟨0, 0, 0, 60, 0, 0⟩) = false ∧
    Instr.wf (.binit ⟨0, 60, 0, 0, 0, 0⟩) = false ∧
    Instr.wf (.binit ⟨0, 0, 60, 0, 0, 0⟩) = false ∧
    Instr.wf (.barr ⟨0, 60⟩) = false ∧
    Instr.wf (.barrx ⟨0, 60, 0⟩) = false ∧
    Instr.wf (.barrx ⟨0, 0, 60⟩) = false ∧
    Instr.wf (.bwait ⟨0, 60, 0⟩) = false ∧
    Instr.wf (.btry ⟨0, 60, 0, 0⟩) = false ∧
    Instr.wf (.yieldw ⟨0, 60, 0⟩) = false ∧
    Instr.wf (.region ⟨0, 60⟩) = false ∧
    Instr.wf (.lnch ⟨0, 0, 60⟩) = false ∧
    Instr.wf (.fork ⟨0, 60, 0, 0⟩) = false ∧
    Instr.wf (.fork ⟨0, 0, 60, 0⟩) = false ∧
    Instr.wf (.fkill ⟨0, 60, 0⟩) = false ∧
    Instr.wf (.mxcfgNf ⟨0, 60, 0⟩) = false ∧
    Instr.wf (.mxcfgNf ⟨0, 0, 60⟩) = false ∧
    Instr.wf (.mxcfgFree ⟨0, 60⟩) = false ∧
    Instr.wf (.mxldb ⟨0, 60, 0, 0, 0⟩) = false ∧
    Instr.wf (.mxldb ⟨0, 0, 60, 0, 0⟩) = false ∧
    Instr.wf (.mxldb ⟨0, 0, 0, 60, 0⟩) = false ∧
    Instr.wf (.mxloop ⟨0, 60, 0, 0⟩) = false ∧
    Instr.wf (.mxloop ⟨0, 0, 60, 0⟩) = false ∧
    Instr.wf (.mxloop ⟨0, 0, 0, 60⟩) = false ∧
    Instr.wf (.sxcopy ⟨0, 60, 0, 0, 0⟩) = false ∧
    Instr.wf (.sxcopy ⟨0, 0, 60, 0, 0⟩) = false ∧
    Instr.wf (.sxcopy ⟨0, 0, 0, 60, 0⟩) = false ∧
    Instr.wf (.gset ⟨0, 60, 0⟩) = false := by
  refine ⟨?_, ?_, ?_, ?_, ?_, ?_, ?_, ?_, ?_, ?_, ?_, ?_, ?_, ?_, ?_, ?_, ?_, ?_, ?_, ?_, ?_, ?_, ?_, ?_, ?_, ?_, ?_⟩ <;> rfl

/-- Refused: an SC code above 4 (R56). -/
theorem test_wf_sc :
    Instr.wf (.ldo ⟨0, 0, 0, 0, 5, 0⟩) = false ∧
    Instr.wf (.sto ⟨0, 0, 0, 0, 5, 0⟩) = false ∧
    Instr.wf (.atmAdd ⟨0, 0, 0, 0, 5⟩) = false ∧
    Instr.wf (.raddI32 ⟨0, 0, 0, 5⟩) = false ∧
    Instr.wf (.prop ⟨0, 0, 0, 0, 5⟩) = false ∧
    Instr.wf (.recyc ⟨0, 0, 5⟩) = false ∧
    Instr.wf (.fenceAcq ⟨0, 5⟩) = false := by
  decide

/-- Refused: a CSRW to the registers with words of their own, and a word that is no reserved primary. -/
theorem test_wf_other :
    Instr.wf (.csrw ⟨0, 0x0F, 0⟩) = false ∧
    Instr.wf (.csrw ⟨0, 0x10, 0⟩) = false ∧
    Instr.wf (.illegalInstruction 0x10000000) = false := by
  decide
/-- Words of the hint words (R64 to R67), field by field from the highest bit as R55 and the opcode table lay them out. -/
theorem test_decode_hints :
    decodeWord (0x00#6 ++ 0#26) = .ok .hnop ∧
    decodeWord (0x00#6 ++ 0#24 ++ 1#1 ++ 1#1) = .ok (.hsched ⟨1, 1⟩) ∧
    decodeWord (0x01#6 ++ 1#2 ++ 5#24) = .ok (.himm ⟨1, 5⟩) ∧
    decodeWord (0x02#6 ++ 0#21 ++ 5#5) = .ok (.hdst ⟨5⟩) ∧
    decodeWord (0x03#6 ++ 0#14 ++ 2#3 ++ 1#1 ++ 3#3 ++ 0#1 ++ 1#1 ++ 3#3) = .ok (.hmod ⟨2, 1, 3, 1, 3⟩) := by
  refine ⟨?_, ?_, ?_, ?_, ?_⟩ <;> rfl

/-- Words of the integer families (R79 to R89), field by field from the highest bit as R55 and the opcode table lay them out. -/
theorem test_decode_integer :
    decodeWord (0x04#6 ++ 2#2 ++ 1#3 ++ 2#2 ++ 5#5 ++ 9#7 ++ 67#7) = .ok (.isub ⟨2, 2, 5, 9, 67⟩) ∧
    decodeWord (0x08#6 ++ 2#2 ++ 2#3 ++ 2#2 ++ 5#5 ++ 9#7 ++ 67#7) = .ok (.iaddsG ⟨2, 2, 5, 9, 67⟩) ∧
    decodeWord (0x05#6 ++ 2#2 ++ 2#3 ++ 2#2 ++ 5#5 ++ 9#7 ++ 67#7) = .ok (.xor ⟨2, 2, 5, 9, 67⟩) ∧
    decodeWord (0x09#6 ++ 2#2 ++ 5#3 ++ 2#2 ++ 5#5 ++ 9#7 ++ 67#7) = .ok (.shrG ⟨2, 2, 5, 9, 67⟩) ∧
    decodeWord (0x06#6 ++ 2#2 ++ 2#3 ++ 2#2 ++ 5#5 ++ 9#7 ++ 67#7) = .ok (.umin ⟨2, 2, 5, 9, 67⟩) ∧
    decodeWord (0x0A#6 ++ 2#2 ++ 5#3 ++ 2#2 ++ 5#5 ++ 9#7 ++ 67#7) = .ok (.iabsdG ⟨2, 2, 5, 9, 67⟩) ∧
    decodeWord (0x07#6 ++ 2#2 ++ 1#3 ++ 2#2 ++ 5#5 ++ 9#7 ++ 0#7) = .ok (.ctz ⟨2, 2, 5, 9⟩) ∧
    decodeWord (0x0C#6 ++ 2#2 ++ 2#3 ++ 9#7 ++ 67#7 ++ 10#7) = .ok (.imadhs ⟨2, 9, 67, 10⟩) ∧
    decodeWord (0x0D#6 ++ 2#2 ++ 2#3 ++ 2#2 ++ 5#5 ++ 9#7 ++ 67#7) = .ok (.irems ⟨2, 2, 5, 9, 67⟩) ∧
    decodeWord (0x0E#6 ++ 2#3 ++ 2#2 ++ 53#7 ++ 9#7 ++ 67#7) = .ok (.icmplt ⟨2, 53, 9, 67⟩) ∧
    decodeWord (0x0F#6 ++ 6#3 ++ 2#2 ++ 53#7 ++ 9#7 ++ 67#7) = .ok (.icmptstG ⟨2, 53, 9, 67⟩) := by
  refine ⟨?_, ?_, ?_, ?_, ?_, ?_, ?_, ?_, ?_, ?_, ?_⟩ <;> rfl

/-- Words of the floating-point and function families (R101 to R110, R166), field by field from the highest bit as R55 and the opcode table lay them out. -/
theorem test_decode_float :
    decodeWord (0x10#6 ++ 2#2 ++ 4#3 ++ 2#2 ++ 5#5 ++ 9#7 ++ 67#7) = .ok (.fmax ⟨2, 2, 5, 9, 67⟩) ∧
    decodeWord (0x11#6 ++ 2#2 ++ 1#3 ++ 2#2 ++ 5#5 ++ 9#7 ++ 67#7) = .ok (.fsubG ⟨2, 2, 5, 9, 67⟩) ∧
    decodeWord (0x12#6 ++ 2#2 ++ 1#1 ++ 2#2 ++ 9#7 ++ 67#7 ++ 10#7) = .ok (.fnma ⟨2, 1, 9, 67, 10⟩) ∧
    decodeWord (0x13#6 ++ 2#2 ++ 1#3 ++ 9#7 ++ 67#7 ++ 10#7) = .ok (.hdotF16 ⟨2, 9, 67, 10⟩) ∧
    decodeWord (0x14#6 ++ 2#2 ++ 5#3 ++ 2#2 ++ 5#5 ++ 9#7 ++ 0#7) = .ok (.fgetexp ⟨2, 2, 5, 9⟩) ∧
    decodeWord (0x15#6 ++ 2#2 ++ 7#3 ++ 2#2 ++ 5#5 ++ 9#7 ++ 0#3 ++ 1#4) = .ok (.fenc ⟨2, 2, 5, 9, 1⟩) ∧
    decodeWord (0x16#6 ++ 4#3 ++ 2#2 ++ 53#7 ++ 9#7 ++ 67#7) = .ok (.fcmpun ⟨2, 53, 9, 67⟩) ∧
    decodeWord (0x17#6 ++ 2#2 ++ 1#3 ++ 2#2 ++ 5#5 ++ 9#7 ++ 0#7) = .ok (.fsqrt ⟨2, 2, 5, 9⟩) ∧
    decodeWord (0x18#6 ++ 5#4 ++ 3#5 ++ 1#2 ++ 5#5 ++ 9#7 ++ 0#3) = .ok (.csigm ⟨3, 1, 5, 9⟩) ∧
    decodeWord (0x19#6 ++ 2#4 ++ 3#5 ++ 1#2 ++ 5#5 ++ 9#7 ++ 0#3) = .ok (.chypot ⟨3, 1, 5, 9⟩) := by
  refine ⟨?_, ?_, ?_, ?_, ?_, ?_, ?_, ?_, ?_, ?_⟩ <;> rfl

/-- Words of the cross-lane and predicate families (R113 to R127), field by field from the highest bit as R55 and the opcode table lay them out. -/
theorem test_decode_cross_lane :
    decodeWord (0x1A#6 ++ 2#2 ++ 5#3 ++ 2#2 ++ 5#5 ++ 9#7 ++ 67#7) = .ok (.xperm ⟨2, 2, 5, 9, 67⟩) ∧
    decodeWord (0x1B#6 ++ 2#2 ++ 6#3 ++ 2#2 ++ 5#5 ++ 9#7 ++ 67#7) = .ok (.xrotG ⟨2, 2, 5, 9, 67⟩) ∧
    decodeWord (0x1C#6 ++ 2#2 ++ 6#3 ++ 2#2 ++ 5#5 ++ 9#7 ++ 0#5 ++ 0#1 ++ 0#1) = .ok (.vscan ⟨2, 2, 5, 9, 0⟩) ∧
    decodeWord (0x1D#6 ++ 12#5 ++ 5#7 ++ 9#7 ++ 67#7) = .ok (.pandn ⟨5, 9, 67⟩) ∧
    decodeWord (0x1E#6 ++ 2#2 ++ 1#3 ++ 53#7 ++ 9#7 ++ 67#7) = .ok (.pset ⟨2, 53, 9, 67⟩) ∧
    decodeWord (0x1F#6 ++ 2#2 ++ 1#1 ++ 53#7 ++ 0#2 ++ 9#7 ++ 67#7) = .ok (.sel ⟨2, 1, 53, 9, 67⟩) ∧
    decodeWord (0x20#6 ++ 512#12 ++ 9#7 ++ 0#7) = .ok (.guardn ⟨9⟩) := by
  refine ⟨?_, ?_, ?_, ?_, ?_, ?_, ?_⟩ <;> rfl

/-- Words of the moment families (R151 to R159), field by field from the highest bit as R55 and the opcode table lay them out. -/
theorem test_decode_moment :
    decodeWord (0x21#6 ++ 2#2 ++ 2#3 ++ 5#4 ++ 9#4 ++ 3#4 ++ 0#9) = .ok (.mmul ⟨2, 5, 9, 3⟩) ∧
    decodeWord (0x22#6 ++ 2#2 ++ 2#3 ++ 5#4 ++ 9#4 ++ 0#13) = .ok (.msig ⟨2, 5, 9⟩) ∧
    decodeWord (0x23#6 ++ 2#2 ++ 80#7 ++ 9#4 ++ 0#4 ++ 12#7 ++ 0#2) = .ok (.mcolSmp ⟨2, 9, 12⟩) := by
  refine ⟨?_, ?_, ?_⟩ <;> rfl

/-- Words of the memory, decide-once and fence families (R227 to R268), field by field from the highest bit as R55 and the opcode table lay them out. -/
theorem test_decode_memory :
    decodeWord (0x24#6 ++ 2#2 ++ 1#2 ++ 5#5 ++ 9#7 ++ 21#10) = .ok (.ldg ⟨2, 1, 5, 9, 21⟩) ∧
    decodeWord (0x25#6 ++ 2#2 ++ 1#2 ++ 5#5 ++ 33#7 ++ 12#7 ++ 1#3) = .ok (.ldgx ⟨2, 1, 5, 33, 12, 1⟩) ∧
    decodeWord (0x26#6 ++ 2#2 ++ 1#2 ++ 11#7 ++ 9#7 ++ 21#8) = .ok (.stg ⟨2, 1, 11, 9, 21⟩) ∧
    decodeWord (0x27#6 ++ 2#2 ++ 1#2 ++ 11#7 ++ 33#6 ++ 12#7 ++ 1#2) = .ok (.stgx ⟨2, 1, 11, 33, 12, 1⟩) ∧
    decodeWord (0x28#6 ++ 2#2 ++ 1#2 ++ 5#5 ++ 9#7 ++ 21#10) = .ok (.lds ⟨2, 1, 5, 9, 21⟩) ∧
    decodeWord (0x29#6 ++ 2#2 ++ 1#2 ++ 5#5 ++ 33#7 ++ 12#7 ++ 1#3) = .ok (.ldsx ⟨2, 1, 5, 33, 12, 1⟩) ∧
    decodeWord (0x2A#6 ++ 2#2 ++ 1#2 ++ 11#7 ++ 9#7 ++ 21#8) = .ok (.sts ⟨2, 1, 11, 9, 21⟩) ∧
    decodeWord (0x2B#6 ++ 2#2 ++ 1#2 ++ 11#7 ++ 33#6 ++ 12#7 ++ 1#2) = .ok (.stsx ⟨2, 1, 11, 33, 12, 1⟩) ∧
    decodeWord (0x2C#6 ++ 2#2 ++ 1#1 ++ 1#1 ++ 5#5 ++ 9#7 ++ 3#3 ++ 21#7) = .ok (.ldo ⟨2, 1, 5, 9, 3, 21⟩) ∧
    decodeWord (0x2D#6 ++ 2#2 ++ 1#1 ++ 1#1 ++ 11#7 ++ 9#7 ++ 3#3 ++ 21#5) = .ok (.sto ⟨2, 1, 11, 9, 3, 21⟩) ∧
    decodeWord (0x2E#6 ++ 2#2 ++ 19#5 ++ 1#1 ++ 9#7 ++ 67#7 ++ 3#3 ++ 0#1) = .ok (.atmCas ⟨2, 1, 9, 67, 3⟩) ∧
    decodeWord (0x2F#6 ++ 2#2 ++ 10#6 ++ 9#7 ++ 67#7 ++ 3#3 ++ 0#1) = .ok (.raddF32 ⟨2, 9, 67, 3⟩) ∧
    decodeWord (0x30#6 ++ 2#2 ++ 0#4 ++ 1#2 ++ 9#7 ++ 67#7 ++ 3#3 ++ 0#1) = .ok (.prop ⟨2, 1, 9, 67, 3⟩) ∧
    decodeWord (0x31#6 ++ 2#2 ++ 8192#21 ++ 3#3) = .ok (.fenceRel ⟨2, 3⟩) ∧
    decodeWord (0x32#6 ++ 2#2 ++ 1#5 ++ 1#1 ++ 9#7 ++ 67#7 ++ 3#3 ++ 0#1) = .ok (.wsigSt ⟨2, 1, 9, 67, 3⟩) ∧
    decodeWord (0x33#6 ++ 2#2 ++ 8#6 ++ 9#7 ++ 67#7 ++ 0#4) = .ok (.pin ⟨2, 9, 67⟩) := by
  refine ⟨?_, ?_, ?_, ?_, ?_, ?_, ?_, ?_, ?_, ?_, ?_, ?_, ?_, ?_, ?_, ?_⟩ <;> rfl

/-- Words of barriers, control flow, launches and spills (R117 to R131, R245 to R251), field by field from the highest bit as R55 and the opcode table lay them out. -/
theorem test_decode_control :
    decodeWord (0x34#6 ++ 2#2 ++ 0#8 ++ 33#6 ++ 17#6 ++ 0#1 ++ 1#1 ++ 0#1 ++ 1#1) = .ok (.binit ⟨2, 33, 17, 1, 0, 1⟩) ∧
    decodeWord (0x34#6 ++ 2#2 ++ 4#8 ++ 33#6 ++ 53#7 ++ 0#1 ++ 1#2) = .ok (.btry ⟨2, 33, 53, 1⟩) ∧
    decodeWord (0x35#6 ++ 3#2 ++ 53#7 ++ 5#17) = .ok (.brUni ⟨53, 5⟩) ∧
    decodeWord (0x36#6 ++ 1#2 ++ 5#24) = .ok (.call ⟨5⟩) ∧
    decodeWord (0x36#6 ++ 393216#19 ++ 9#7) = .ok (.jmpi ⟨9⟩) ∧
    decodeWord (0x37#6 ++ 2#2 ++ 2#8 ++ 3#16) = .ok (.sleep ⟨2, 3⟩) ∧
    decodeWord (0x37#6 ++ 2#2 ++ 4#8 ++ 33#6 ++ 5#10) = .ok (.yieldw ⟨2, 33, 5⟩) ∧
    decodeWord (0x38#6 ++ 2#2 ++ 0#21 ++ 3#3) = .ok (.role ⟨2, 3⟩) ∧
    decodeWord (0x38#6 ++ 2#2 ++ 2#8 ++ 53#7 ++ 1#3 ++ 1#1 ++ 0#5) = .ok (.emit ⟨2, 53, 1, 1⟩) ∧
    decodeWord (0x38#6 ++ 2#2 ++ 3#8 ++ 53#7 ++ 0#3 ++ 33#6) = .ok (.lnch ⟨2, 53, 33⟩) ∧
    decodeWord (0x39#6 ++ 2#2 ++ 0#4 ++ 9#6 ++ 3#6 ++ 0#6 ++ 1#2) = .ok (.fork ⟨2, 9, 3, 1⟩) ∧
    decodeWord (0x3A#6 ++ 2#2 ++ 4#10 ++ 1#6 ++ 0#2 ++ 1#1 ++ 0#1 ++ 3#4) = .ok (.unpark ⟨2, 1, 1, 3⟩) := by
  refine ⟨?_, ?_, ?_, ?_, ?_, ?_, ?_, ?_, ?_, ?_, ?_, ?_⟩ <;> rfl

/-- Words of the engine and system families (R132, R278, R321), field by field from the highest bit as R55 and the opcode table lay them out. -/
theorem test_decode_engine :
    decodeWord (0x3B#6 ++ 2#2 ++ 3#4 ++ 9#6 ++ 3#6 ++ 10#6 ++ 1#2) = .ok (.mxldb ⟨2, 9, 3, 10, 1⟩) ∧
    decodeWord (0x3B#6 ++ 2#2 ++ 6#4 ++ 9#6 ++ 3#6 ++ 10#6 ++ 0#2) = .ok (.mxloop ⟨2, 9, 3, 10⟩) ∧
    decodeWord (0x3C#6 ++ 2#2 ++ 1#4 ++ 9#6 ++ 3#6 ++ 10#6 ++ 0#1 ++ 1#1) = .ok (.sxgath ⟨2, 9, 3, 10, 1⟩) ∧
    decodeWord (0x3D#6 ++ 2#2 ++ 0#8 ++ 10#6 ++ 0#5 ++ 5#5) = .ok (.csrr ⟨2, 10, 5⟩) ∧
    decodeWord (0x3D#6 ++ 2#2 ++ 2#8 ++ 10#16) = .ok (.trap ⟨2, 10⟩) ∧
    decodeWord (0x3D#6 ++ 2#2 ++ 5#8 ++ 3#8 ++ 0#3 ++ 5#5) = .ok (.devr ⟨2, 3, 5⟩) ∧
    decodeWord (0x3D#6 ++ 2#2 ++ 7#8 ++ 33#6 ++ 0#3 ++ 12#7) = .ok (.gset ⟨2, 33, 12⟩) := by
  refine ⟨?_, ?_, ?_, ?_, ?_, ?_, ?_⟩ <;> rfl

end Sys2Proof.Tests
end

