-- ==== Sys2Proof/Tests/World.lean ====
section
/-!
SUPPORT. The small states on which the tests show that the hypotheses of each statement can be met together:
one gang of 16 lanes in a group of one team on core 0, with a scratchpad window, a registered barrier, a page of
the chiplet's memory and its line in L2.
-/

namespace Sys2Proof.Tests

open Sys2Proof.Machine Sys2Proof.Safety Sys2Proof.Claims

/-- The gang as at group start, with the uniform registers `gs`. -/
def gangT (gs : List Word) : Gang := Gang.start ⟨1, 1, 0, 0, [0, 1, 2, 3], 0, [], gs, 0⟩ 0

/-- Its group: a handler at 0x100, NFMT registers that hold E4M3, and the barrier at offset 0 recorded. -/
def grpT : Group := { soloGroup with
  nfmt := List.replicate 16 0x072143, trapvec := 0x100, bars := [⟨⟨0, 0⟩, false, [], [], [], 0⟩] }

/-- Its window: four tiles and one of the park reserve; threads own tiles 0 and 2, the engines 1 and 3. -/
def winT : Window where
  id := 7
  team := 1
  core := 0
  partner := none
  tiles := [⟨false, 0, none, []⟩, ⟨true, 0, none, []⟩, ⟨false, 0, none, []⟩, ⟨true, 0, none, []⟩, ⟨false, 0, none, []⟩]
  rsv := 1
  mem := []

/-- The state in which that stream performs its word, and the stream. -/
def sG (gs : List Word) : State := { fetchReady State.reset 0 with
  cur := some ⟨1, none⟩, gangs := [gangT gs], groups := [grpT], windows := [winT] }
def xG (gs : List Word) : Cx := ⟨gangT gs, grpT, [0, 1, 2, 3]⟩

theorem sG_stream (gs : List Word) : (sG gs).stream? = some (xG gs) := rfl

theorem sG_ready (gs : List Word) : StreamReady (sG gs) (xG gs) := ⟨rfl, rfl, rfl, rfl⟩

/-- The gang parted, its slice 0 performing the word. -/
def gangP : Gang := { gangT [] with unified := false }
def sP : State := { sG [] with gangs := [gangP], cur := some ⟨1, some 0⟩ }
def xP : Cx := ⟨gangP, grpT, [0]⟩

theorem sP_ready : StreamReady sP xP := ⟨rfl, rfl, rfl, rfl⟩

/-- A property of every slice of a gang holds of the slice of a number. -/
theorem slice_has {P : Slice → Prop} {g : Gang} (h : ∀ sl ∈ g.slices, P sl) {i : Nat} {sl : Slice}
    (e : g.slice? i = some sl) : P sl := h sl (List.mem_of_getElem? e)

/-- Slices without stall check and without PRE raise none of the common faults. -/
theorem no_common {s : State} {x : Cx} {W : Shape}
    (h : ∀ sl ∈ x.g.slices, sl.stallchk = 0 ∧ sl.status = 0) : NoCommonFault s x W where
  stall := fun _ i _ sl e hb => by
    have := (slice_has h e).1
    rw [this] at hb
    exact absurd hb (by decide)
  poison := fun L _ sl e hb => by
    have : sl.status = 0 := by
      unfold Cx.sliceOf at e
      exact (slice_has h e).2
    unfold Slice.hasStatus at hb
    rw [this] at hb
    exact absurd hb (by decide)

theorem xG_plain (gs : List Word) : ∀ sl ∈ (xG gs).g.slices, sl.stallchk = 0 ∧ sl.status = 0 := by
  intro sl h
  have e : (xG gs).g.slices = (xG []).g.slices := rfl
  rw [e] at h
  revert sl
  decide +kernel

/-- The hypotheses of RunsAs and IssuesAs, met by a state and a stream. -/
def Meets (s : State) (x : Cx) (D : LaneWord) : Prop :=
  Issues s x D.shape ∧ NoCommonFault s x D.shape ∧ D.pre x (allVals s.beat x.g D.shape.srcs) = [] ∧
    NoTrap x x.enOf (D.out x (allVals s.beat x.g D.shape.srcs))

theorem passes_of {gs : List Word} {W : Shape} {cs : List (Nat × Word)} (h1 : W.legal = true)
    (h2 : hintsOk Hints.none W.srcs W.hdst W.hm = true)
    (h3 : (xG gs).pending (sG gs) W.srcs (W.dest Hints.none) = false) (h4 : cs = []) :
    Passes (sG gs) (xG gs) W cs :=
  ⟨⟨rfl, h1, h2, h3, rfl⟩, no_common (xG_plain gs), h4⟩

theorem meets_of {D : LaneWord} (h1 : D.shape.legal = true)
    (h2 : hintsOk Hints.none D.shape.srcs D.shape.hdst D.shape.hm = true)
    (h3 : (xG []).pending (sG []) D.shape.srcs (D.shape.dest Hints.none) = false)
    (h4 : D.pre (xG []) (allVals (sG []).beat (xG []).g D.shape.srcs) = [])
    (h5 : NoTrap (xG []) (xG []).enOf (D.out (xG []) (allVals (sG []).beat (xG []).g D.shape.srcs))) :
    Meets (sG []) (xG []) D :=
  ⟨⟨rfl, h1, h2, h3, rfl⟩, no_common (xG_plain []), h4, h5⟩

/-- A launch of one stage whose groups are of width 16. -/
def launchT : Launch where
  part := 0
  lid := 0
  asn := 0
  order := 0
  queue := 0
  kaddr := 0
  args := []
  roles := [⟨0x40, 1, 1, 0⟩, ⟨0x80, 1, 1, 3⟩]
  nRoles := 2
  stages := [⟨0, 16, 0, 1, 2, [⟨List.replicate 8 0, 0, 0⟩], 1, [], [], 0⟩]
  caddr := 0x200
  cval := 5
  nteams := 1
  pword := 0
  kind := 0
  cls := 0
  aud := false
  mom := true
  width := 16
  gangs := 1
  pair := false
  groups := 1
  obu := 1
  intr := false
  stk := false
  vec := 0
  stkb := 0
  stks := 0
  deps := []
  awin := []
  next := 0
  wait := []
  st := .running
  fault := none
  rej := false
  copied := false
  block := []
  made := 0
  pts := 0
  done := none
  undo := []

/-- The first partition enabled with TEST and DEBUG. -/
def partT : Partition := { Partition.reset with pcfg := 7 }

end Sys2Proof.Tests
end

