-- ==== Sys2Proof/Tests/Steps.lean ====
section
/-!
SUPPORT. For each statement about the steps of homes, engines, the hub, the bridge, the fabric and the platform, a
concrete state and operands that meet its hypotheses together.
-/

namespace Sys2Proof.Tests

set_option Elab.async false

open Sys2Proof Sys2Proof.Machine Sys2Proof.Safety Sys2Proof.Claims

/-! ## The home of a line -/

/-- The line at address 0x80 with WTS 5 and RTS 9, a request of that gang for it, and its operation. -/
def refT : LineRef := ⟨0, 0, 0, 0x80, 1⟩
def lineT : L2Line := ⟨0, 0, 0, 0x80, 1, 5, 9, false, none, 0, none, none, 0⟩
def reqT (k : ReqKind) : Req := ⟨2, k, 0, 1, some 3, 0, 0, 0x80, 0, 4, none, false, none, 2, none, false, 2, .none⟩
def opT : Op := ⟨3, 1, [0, 1, 2, 3], some 2, none, false, [], [], [], false, none, 0, 1, 0, false, none, false, [], [], [], [], 0, none, false⟩

def sX (k : ReqKind) : State := { sG [] with
  tlb := [⟨0, 0, 0, soloLeaf⟩, ⟨144, 0, 0, soloLeaf⟩], l2 := [lineT], reqs := [reqT k], ops := [opT], fresh := 10 }

theorem lone {s : State} {G : Group} {P : Group → Prop} (h : s.groups = [G]) (p : P G) : ∀ H ∈ s.groups, P H := by
  intro H hH
  rw [h] at hH
  have : H = G := by simpa using hH
  exact this ▸ p

theorem refT_at : refT = soloLeaf.lineRef 0 0 0x80 := by decide +kernel

/-- A request that is alone, without signals, stands behind none. -/
theorem earlier_self {s : State} {q : Req} (h : s.reqs = [q]) (w : s.wsigs = []) : s.earlier q = none := by
  unfold State.earlier
  rw [h, w]
  simp

theorem sX_home (k : ReqKind) : AtHome (sX k) (reqT k) soloLeaf refT lineT :=
  ⟨rfl, rfl, rfl, rfl, earlier_self rfl rfl, rfl, rfl, by decide, refT_at, rfl, by show 0 < 4; decide, rfl, rfl, rfl, rfl,
    lone rfl rfl, rfl⟩

theorem sX_quiet (k : ReqKind) : Quiet (sX k) refT lineT := ⟨rfl, by show 0 < 4; decide, rfl, rfl, rfl, rfl⟩

/-- A state whose page 0 is mapped by a level 1 table at 0x1000 and a level 2 leaf of 1 GiB at 0x10000. -/
def sMap : State := { State.reset with
  stage := 5
  agenda := []
  mem := (State.reset.mem.write 0x1000 (leBytes 8 0x10001)).write 0x10000 (leBytes 8 0x1F)
  parts := [{ Partition.reset with l2sh := 0x10000, ptroot := List.replicate 16 0x1001 }] }

/-- A flag line that a core owns where the level 1 table stands. -/
def ownTab : Owned := ⟨20, 0x1000 / 128, 0, [1], 0, 0, 0x1000, 0, 1, List.replicate 128 0, 4, 5⟩

theorem walk_ok {s : State} {va : Nat} {P : State → Bool} (h : (match s.walkRead 0 0 va with
    | .ok u => P u | .error _ => false) = true) : ∃ u, s.walkRead 0 0 va = .ok u ∧ P u = true := by
  split at h
  · exact ⟨_, ‹_›, h⟩
  · exact absurd h (by decide)

theorem walk_held {s : State} {va : Nat} (h : (match s.walkRead 0 0 va with
    | .ok _ => false | .error _ => true) = true) : ∃ e, s.walkRead 0 0 va = .error e := by
  split at h
  · exact absurd h (by decide)
  · exact ⟨_, ‹_›⟩

theorem look_ok {s : State} {va : Nat} (h : (match fetchLook s 0 0 0 va with
    | .ok _ => true | .error _ => false) = true) : ∃ u, fetchLook s 0 0 0 va = .ok u := by
  split at h
  · exact ⟨_, ‹_›⟩
  · exact absurd h (by decide)

theorem look_held {s : State} {va : Nat} (h : (match fetchLook s 0 0 0 va with
    | .ok _ => false | .error _ => true) = true) : ∃ u, fetchLook s 0 0 0 va = .error u := by
  split at h
  · exact absurd h (by decide)
  · exact ⟨_, ‹_›⟩

/-- A store's pass that is still to come, of the last byte of the window's last tile. -/
def passT (due : Nat) : ScratchPass := ⟨9, 1, [0], due, none, none, [(0, 7, 20479, 1, [1])]⟩

/-- IssueSteps: an agenda; neither agenda nor turns; a miss of a mapped page, of an absent one and of one whose table a
core owns; a line to fetch, free and owned; a scratchpad pass due later and now; a sleep that ends in this beat; an operation that waits for nothing: a store's, one without
and one with an exception. -/
theorem test_issue_steps :
    (({ sG [] with agenda := [.powerCheck] } : State).agenda = [.powerCheck] ∧ sMap.agenda = [] ∧ sMap.turns = [] ∧
      (sG []).bad = [] ∧ (sG []).slew = 0 ∧ (∀ p ∈ [passT 9], (sG []).beat + 1 < p.due) ∧ (passT 0).slices ≠ [] ∧
      (passT 0).due ≤ (sG []).beat + 1 ∧ ({ sG [] with passes := [passT 0] } : State).passes = [passT 0]) ∧
    (sMap.draining 0 0 0 = false ∧ sMap.tlb? 0 0 0 0 = none ∧
      ∃ u, sMap.walkRead 0 0 0 = .ok u ∧ (walk u 0 0 0 == .leaf { soloLeaf with size := 2 ^ 30 }) = true) ∧
    (State.reset.draining 0 0 0 = false ∧ State.reset.tlb? 0 0 0 0 = none ∧
      ∃ u, State.reset.walkRead 0 0 0 = .ok u ∧ (decide (0 < u.parts.length) && walk u 0 0 0 == .absent) = true) ∧
    (∃ e, ({ sMap with owned := [ownTab] } : State).walkRead 0 0 0 = .error e) ∧
    ((0, 0, 0, 1) ∉ (sX (.dstat 0)).icache ∧ ∃ u, fetchLook (sX (.dstat 0)) 0 0 0 0x80 = .ok u) ∧
    (∃ u, fetchLook { sX (.dstat 0) with owned := [{ ownTab with line := 1 }] } 0 0 0 0x80 = .error u) ∧
    (let g : Gang := { gangT [] with slices := (gangT []).slices.map fun sl => { sl with run := .sleep 0 } };
      ({ sG [] with gangs := [g] } : State).gang? 1 = some g ∧ (∃ sl, g.slices[3]? = some sl ∧ sl.run = .sleep 0) ∧
      0 ≤ (sG []).beat) ∧
    (let o : Op := { opT with waits := 0 };
      let s : State := { sG [] with ops := [o] };
      s.op? 3 = some o ∧ s.gang? o.gang = some (gangT []) ∧ o.rel = false ∧ o.xc = none ∧ o.dead = [] ∧ o.fabric = [] ∧ s.bad = [] ∧
        ∃ sl l, (gangT []).slices[3]? = some sl ∧ sl.lanes[3]? = some l ∧ o.reg = some 2 ∧ 2 < l.n.length ∧ o.regs = []) ∧
    (({ sG [] with ops := [{ opT with waits := 0, rel := true }] } : State).op? 3 = some { opT with waits := 0, rel := true }) ∧
    (let o : Op := { opT with waits := 0, xc := some (16#5, 1) };
      let s : State := { sG [] with ops := [o] };
      s.op? 3 = some o ∧ o.doc = false ∧ s.gang? o.gang = some (gangT []) ∧ s.group? (gangT []).group = some grpT) :=
  ⟨⟨rfl, rfl, rfl, rfl, rfl, by decide +kernel, by decide, by decide +kernel, rfl⟩, ⟨rfl, rfl, walk_ok (by decide +kernel)⟩, ⟨rfl, rfl, walk_ok (by decide +kernel)⟩,
    walk_held (by decide +kernel), ⟨by decide +kernel, look_ok (by decide +kernel)⟩, look_held (by decide +kernel),
    ⟨rfl, ⟨_, rfl, rfl⟩, by decide +kernel⟩,
    ⟨rfl, rfl, rfl, rfl, rfl, rfl, rfl, _, _, rfl, rfl, rfl, by decide +kernel, rfl⟩, rfl, ⟨rfl, rfl, rfl, rfl⟩⟩

/-- HomeReadsAndWrites: a read of bytes 120 to 127 for lane 15, a write of byte 127, a served write, a buffered entry. -/
theorem test_home_reads_and_writes :
    (let q := reqT (.read [(15, 120, 8)] none true false false false 0 (List.replicate 128 0));
      AtHome (sX q.kind) q soloLeaf refT lineT ∧
      overInterval ((sX q.kind).chip refT.chip) (readRts (sX q.kind) refT lineT q.t) = false) ∧
    (let q := reqT (.write (maskAt 127 1) (List.replicate 128 1) [1] false false);
      AtHome (sX q.kind) q soloLeaf refT lineT ∧ InTime (sX q.kind) q refT lineT ∧ (List.replicate 128 (1#8)).length = 128 ∧
      ({ sX q.kind with reqs := [{ q with served := true }] } : State).req? 2 = some { q with served := true }) ∧
    (let e : SmbEntry := ⟨4, 0, 0, 0, 0x80, 0, 1, List.replicate 128 0, 3, [1], 0, false⟩;
      let s : State := { sG [] with smb := [e] };
      e ∈ s.smb ∧ s.inj6For e.gangs = none ∧ ∀ d ∈ s.smb, d.id = e.id → d = e) :=
  ⟨⟨sX_home _, by decide +kernel⟩, ⟨sX_home _, by unfold InTime; decide +kernel, rfl, rfl⟩, by decide +kernel⟩

/-- The gang's entry in the atomic buffer, its drain begun by request 2. -/
def redT : RedEntry := ⟨6, 0, 0, 1, 1, 0, 1, 8, 0, 0, 0x80, 5, 0, 4, some 2⟩

/-- AtomicsAtTheirHomes: an atomic on the last 8 bytes of the line, an entry's request unserved and served, entries of
the gang. -/
theorem test_atomics_at_homes :
    (let q := reqT (.atom 15 120 8 9 1 2 0 false);
      AtHome (sX q.kind) q soloLeaf refT lineT ∧ q.src = none ∧ InTime (sX q.kind) q refT lineT ∧ 120 + 8 ≤ 128) ∧
    (let q := reqT (.red 6);
      let s : State := { sX q.kind with reds := [redT] };
      AtHome s q soloLeaf refT lineT ∧ q.src = none ∧ InTime s q refT lineT ∧ s.reds.find? (·.id == redT.id) = some redT ∧
      s.reqs.find? (fun p => p.kind == .red redT.id) = some q ∧ q.va % 8 = 0) ∧
    (let q := { reqT (.red 6) with served := true };
      let s : State := { sX q.kind with reds := [redT], reqs := [q] };
      s.reqs.find? (fun p => p.kind == .red redT.id) = some q ∧ s.reds.find? (·.id == redT.id) = some redT ∧
      ({ q with wts := some 8 }).wts.isSome = true ∧ q.wts = none) ∧
    (let s : State := { sX (.red 6) with reds := [{ redT with drain := none }] };
      (∀ q ∈ s.reqs, q.id < s.fresh) ∧ ∃ e ∈ s.reds, e.drain = none) :=
  ⟨⟨sX_home _, rfl, by unfold InTime; decide +kernel, by decide⟩,
    ⟨⟨rfl, rfl, rfl, rfl, earlier_self rfl rfl, rfl, rfl, by decide, refT_at, rfl, by show 0 < 4; decide, rfl, rfl, rfl, rfl,
        lone rfl rfl, rfl⟩, rfl,
      by unfold InTime; decide +kernel, rfl, rfl, rfl⟩,
    ⟨rfl, rfl, rfl, rfl⟩, by decide +kernel⟩

/-- The home of a cell at 0x80 that holds `c`. -/
def sC (c : Cell) (k : ReqKind) : State := { sX k with mem := (sX k).mem.write 0x80 c.bytes }

/-- CellRules: an undecided cell of generation 6 and a decided one, under PROP of either generation, DREAD, DSTAT and
RECYC by the winner's launch; a finished decide-once operation. -/
theorem test_cell_rules :
    (let c : Cell := ⟨List.replicate 32 0, 0, 6, 0⟩;
      let q := reqT (.prop 15 6 4 4 (List.replicate 32 1) 7 4);
      CellAt (sC c q.kind) q soloLeaf refT lineT c ∧ InTime (sC c q.kind) q refT lineT ∧ (6 ≠ c.gen ↔ False)) ∧
    (let c : Cell := ⟨List.replicate 32 1, 5 * 2 ^ 32 + 7, 6, 1⟩;
      CellAt (sC c (.dread 15 6 4 0)) (reqT (.dread 15 6 4 0)) soloLeaf refT lineT c ∧
      CellAt (sC c (.dstat 15)) (reqT (.dstat 15)) soloLeaf refT lineT c ∧
      CellAt (sC c (.recyc 15 6 5)) (reqT (.recyc 15 6 5)) soloLeaf refT lineT c ∧
      InTime (sC c (.recyc 15 6 5)) (reqT (.recyc 15 6 5)) refT lineT ∧ 6 = c.gen ∧ c.st = 1 ∧ c.wid / 2 ^ 32 = 5) ∧
    (let o : Op := { opT with waits := 0, doc := true };
      ({ sG [] with ops := [o] } : State).op? 3 = some o ∧ o.waits = 0 ∧ o.block = false ∧ o.dead = [] ∧ o.fabric = [] ∧
        (sG []).bad = []) ∧
    (let o : Op := { opT with waits := 0, doc := true, block := true, fabric := [3] };
      let s : State := { sG [] with ops := [o] };
      s.op? 3 = some o ∧ o.fabric ≠ [] ∧ s.gang? o.gang = some (gangT []) ∧ s.group? (gangT []).group = some grpT) := by
  have home : ∀ (c : Cell) (k : ReqKind), ((sX k).mem.write 0x80 c.bytes).wf = true →
      AtHome (sC c k) (reqT k) soloLeaf refT lineT := fun c k h =>
    ⟨rfl, rfl, rfl, rfl, earlier_self rfl rfl, rfl, rfl, by decide, refT_at, rfl, by show 0 < 4; decide, rfl, rfl, rfl, rfl,
      lone rfl rfl, h⟩
  exact ⟨⟨⟨home _ _ (by decide +kernel), rfl, by decide +kernel, rfl, rfl, by decide +kernel⟩,
      by unfold InTime; decide +kernel, by decide⟩,
    ⟨⟨home _ _ (by decide +kernel), rfl, by decide +kernel, rfl, rfl, by decide +kernel⟩,
      ⟨home _ _ (by decide +kernel), rfl, by decide +kernel, rfl, rfl, by decide +kernel⟩,
      ⟨home _ _ (by decide +kernel), rfl, by decide +kernel, rfl, rfl, by decide +kernel⟩,
      by unfold InTime; decide +kernel, rfl, rfl, by decide⟩,
    ⟨rfl, rfl, rfl, rfl, rfl, rfl⟩, rfl, by decide, rfl, rfl⟩

/-- A flag line that core 0 owns, and records that wait for nothing: for the flag, for two signals, for a FENCE. -/
def ownedT : Owned := ⟨20, 1, 0, [1], 0, 0, 0x80, 0, 1, List.replicate 128 0, 4, 5⟩
def wsigT (sigs : List (Nat × Word × Word)) (flag op : Option Nat) : Wsig := ⟨21, 1, 0, 0, 0, true, 8, sigs, 4, [], flag, op, false, none, []⟩

/-- ReleasesAndSignals; a PIN of a chiplet's page with a register free and with all eight in use, and of a host page. -/
theorem test_releases_and_signals :
    (let s : State := { sX (.write 1 (List.replicate 128 0) [1] false false) with owned := [ownedT] };
      s.owned.find? (·.id == ownedT.id) = some ownedT ∧ s.owner? ownedT.line = some ownedT ∧
      (∀ w ∈ s.wsigs, w.flag ≠ some ownedT.id) ∧ (∀ q ∈ s.reqs, ∀ m d gs, q.kind ≠ .flag ownedT.id m d gs)) ∧
    (let s : State := { sG [] with owned := [ownedT], wsigs := [wsigT [] (some 20) none] };
      s.wsigs.find? (·.id == 21) = some (wsigT [] (some 20) none) ∧ s.owned.find? (·.id == 20) = some ownedT) ∧
    (let w := wsigT [(0, 0x88, 3), (1, 0x90, 3)] none none;
      let s : State := { sG [] with wsigs := [w] };
      s.wsigs.find? (·.id == w.id) = some w ∧ w.waits = [] ∧ gaddr s 0x88 = some (0, 0x88)) ∧
    (let w := wsigT [] none (some 3);
      let s : State := { sG [] with wsigs := [w], ops := [opT] };
      s.wsigs.find? (·.id == w.id) = some w ∧ w.arr = none ∧ s.op? 3 = some opT ∧ opT.acq = none ∧ opT.rel = false) ∧
    ((sX (.unpin 7)).req? 2 = some (reqT (.unpin 7)) ∧ (sX (.pin 7 0x100 4)).req? 2 = some (reqT (.pin 7 0x100 4)) ∧
      (reqT (.pin 7 0x100 4)).held = none ∧ (reqT (.pin 7 0x100 4)).served = false ∧ (reqT (.pin 7 0x100 4)).dev = 0 ∧
      (sX (.pin 7 0x100 4)).earlier (reqT (.pin 7 0x100 4)) = none) ∧
    (translate (sX (.pin 7 0x100 4)) 0 0 0x80 = (.leaf soloLeaf, sX (.pin 7 0x100 4)) ∧ soloLeaf.host = false ∧
      (sX (.pin 7 0x100 4)).rets = [] ∧
      (let u : State := { sX (.pin 7 0x100 4) with tlb := [⟨144, 0, 0, { soloLeaf with pa := 2 ^ 47 }⟩] };
        translate u 0 0 0x80 = (.leaf { soloLeaf with pa := 2 ^ 47 }, u) ∧ { soloLeaf with pa := 2 ^ 47 }.host = true) ∧
      let u : State := { sX (.pin 7 0x100 4) with rets := (rangeFrom 8 8).map fun k => ⟨0, k, soloLeaf.quad 0x80, 0, 0, 128, 1⟩ };
      8 ≤ (u.rets.filter fun r => r.chip == soloLeaf.quad 0x80 && !(r.part == 0 && r.k == 7)).length ∧
        u.op? 3 = some opT ∧ u.gang? opT.gang = some (gangT []) ∧ u.group? (gangT []).group = some grpT) :=
  ⟨⟨rfl, rfl, fun w h => absurd h (by show w ∉ []; simp), fun q h => by
      have : q = reqT (.write 1 (List.replicate 128 0) [1] false false) := by simpa [sX] using h
      subst this; intro m d gs e; exact ReqKind.noConfusion e⟩,
    ⟨rfl, rfl⟩, ⟨rfl, rfl, rfl⟩, ⟨rfl, rfl, rfl, rfl, rfl⟩, ⟨rfl, rfl, rfl, rfl, rfl, earlier_self rfl rfl⟩,
    rfl, rfl, rfl, ⟨rfl, rfl⟩, by decide +kernel, rfl, rfl, rfl⟩

/-- ClockSteps: a request held for the interval; a sweep past the last set; two halves idle for 65,536 cycles. -/
theorem test_clock_steps :
    (∃ q ∈ ({ sG [] with reqs := [{ reqT (.dstat 0) with held := some .clock }] } : State).reqs, q.held = some .clock) ∧
    3 < State.reset.chips.length ∧
    (TS.precedes lineT.rts (((⟨0x400100, 0, 0, 0⟩ : Chip).cc) - 0x400000#24) = true) ∧
    (let a : Region := ⟨0, 0, 9, 2, none, 0⟩;
      let b : Region := ⟨0, 512, 9, 4, none, 0⟩;
      let s : State := { sG [] with cycle := 65536, regions := [a, b] };
      s.regions.find? (fun y => y.chip == 0 && y.base == 0) = some a ∧ 0 / 2 ^ a.k % 2 = 0 ∧
      s.regions.find? (fun y => y.chip == 0 && y.base == 0 + 2 ^ a.k && y.k == a.k) = some b ∧ a.k < 16 ∧
      a.touch + 65536 ≤ s.cycle ∧ b.touch + 65536 ≤ s.cycle) :=
  ⟨⟨_, List.mem_singleton.mpr rfl, rfl⟩, by decide, by decide, by decide +kernel⟩

/-! ## The engines -/

/-- A group with tile 0 of 16 by 16 FP32 sums. -/
def grpZ : Group := { grpT with z := modAt (fun _ => some (ZTile.zero 16 16 0 false)) 0 grpT.z }
def tileZ : ZTile := ZTile.zero 16 16 0 false

/-- A copy of two 8-byte elements between the engines' tiles, from 0x1000 to 0x3100, and a fill at 0x1100. -/
def patC (kind : Nat) : PatRec :=
  ⟨[2, 1, 1, 1], [if kind = 3 then 0 else 8, 0, 0, 0], [8, 0, 0, 0], 3, kind != 3, true, 0, 0, 0, 0, 0⟩
def cmdC (kind : Nat) (st : CmdState) (cancel : Option Nat) : SxCmd where
  id := 30
  core := 0
  group := some 1
  part := 0
  asn := 0
  kind := kind
  pat := patC kind
  sb := 0x1000
  db := if kind = 3 then 0x1100 else 0x3100
  ef := false
  et := 0
  bar := some ⟨0, 0⟩
  prog := none
  launch := none
  st := st
  cursor := 0
  landed := []
  cancel := cancel
  page := none
  acks := []
  far := []
def sE (kind : Nat) (st : CmdState) (cancel : Option Nat) : State := { sG [] with sx := [cmdC kind st cancel] }

theorem sE_flies0 : SxFlies (sE 0 .running none) (cmdC 0 .running none) 1 :=
  ⟨rfl, rfl, rfl, rfl, by decide, rfl, rfl, by decide +kernel, rfl⟩
theorem sE_flies3 : SxFlies (sE 3 .running none) (cmdC 3 .running none) 1 :=
  ⟨rfl, rfl, rfl, rfl, by decide, rfl, rfl, by decide +kernel, rfl⟩

/-- A program of the matrix engine whose words are an SX word, MXBEGIN and HNOP, on a mapped page. -/
def progT (next : Nat) (done : Bool) : Prog := ⟨40, 1, 1, true, 0x20000, next, List.replicate 60 0, ⟨0, 0⟩, 0, 0, done⟩
def sProg (next : Nat) (done : Bool) : State := { sG [] with
  mem := (((State.reset.mem.write 0x1000 (leBytes 8 0x10001)).write 0x10000 (leBytes 8 0x1F)).write 0x20000
    (leBytes 4 0xF0000000)).write 0x20004 (leBytes 4 0xEC500000)
  parts := [{ Partition.reset with l2sh := 0x10000, ptroot := List.replicate 16 0x1001 }]
  progs := [progT next done] }

theorem fetched {s : State} {G : Group} {p : Prog} {i w : Nat} {P : State → Bool}
    (h : (match progFetch s G p i with | .word u v => v == w && P u | _ => false) = true) :
    ∃ u, progFetch s G p i = .word u w ∧ P u = true := by
  split at h
  · rename_i u v e
    obtain ⟨a, b⟩ := Bool.and_eq_true_iff.mp h
    exact ⟨u, by rw [e, eq_of_beq a], b⟩
  · exact absurd h (by decide)

/-- The program's word `w` is one that it may queue: its checks find nothing, and the queue has room. -/
def queues (u : State) (p : Prog) (w : Nat) : Bool :=
  match progMx u grpT (enWord w) (fun r => at' 0 p.g r) with
  | .act a => a.causes.isEmpty && !a.bad && !u.mxFull 0
  | _ => false

/-- StreamEngineSteps. -/
theorem test_stream_engine_steps :
    ((sE 0 .queued none).sxRunning 0 < 8 ∧ sxNext (sE 0 .queued none) 0 = some (cmdC 0 .queued none)) ∧
    (SxFlies (sE 3 .running none) (cmdC 3 .running none) 1 ∧
      (sE 3 .running none).scratchOf (some 1) ((cmdC 3 .running none).dst 1 0) = some (winT, 0x1108) ∧
      0x1108 % (patC 3).size = 0 ∧ (claimTile (sE 3 .running none) 7 (0x1108 / 4096) 30 true).isSome = true) ∧
    (SxFlies (sE 0 .running none) (cmdC 0 .running none) 1 ∧ (patC 0).ssp = true ∧ (patC 0).dsp = true ∧
      (sE 0 .running none).scratchOf (some 1) ((cmdC 0 .running none).src 1 0) = some (winT, 0x1008) ∧
      ((claimTile (sE 0 .running none) 7 (0x1008 / 4096) 30 false).bind fun s1 =>
        (s1.scratchOf (some 1) ((cmdC 0 .running none).dst 1 0)).bind fun v =>
          (claimTile s1 v.1.id (v.2 / 4096) 30 true).map fun _ => v.2) = some 0x3108) ∧
    ((sE 0 (.parked false) none).sx? 30 = some (cmdC 0 (.parked false) none)) ∧
    (let c := { cmdC 0 .running (some 0x25) with acks := [(0, 2)] };
      ({ sE 0 .running none with sx := [c] } : State).sx? 30 = some c ∧ c.cancel = some 0x25 ∧ c.acks ≠ []) ∧
    ((sE 0 .running (some 0x25)).sx? 30 = some (cmdC 0 .running (some 0x25)) ∧
      (cmdC 0 .running (some 0x25)).acks = [] ∧ WindowsApart (sE 0 .running (some 0x25))) ∧
    ((sProg 0 false).prog? 40 = some (progT 0 false) ∧ (sProg 0 false).group? 1 = some grpT ∧ grpT.ending = false ∧
      grpT.fatal = none ∧ 0 < 4096 ∧
      (∃ u, progFetch (sProg 0 false) grpT (progT 0 false) 0 = .word u 0xF0000000 ∧ true = true) ∧
      (enWord 0xF0000000).op = engineOp (!true)) ∧
    ((∃ u, progFetch (sProg 1 false) grpT (progT 1 false) 1 = .word u 0xEC500000 ∧
        queues u (progT 1 false) 0xEC500000 = true) ∧ (enWord 0xEC500000).op = engineOp true) ∧
    ((∃ u, progFetch (sProg 2 false) grpT (progT 2 false) 2 = .word u 0 ∧ true = true) ∧ (enWord 0).op ≠ 0x3B ∧
      (enWord 0).op ≠ 0x3C) ∧
    ((sProg 3 true).prog? 40 = some (progT 3 true) ∧ (progT 3 true).done = true ∧ (sProg 3 true).sx = [] ∧
      (sProg 3 true).mx = []) :=
  ⟨⟨by decide +kernel, by decide +kernel⟩, ⟨sE_flies3, by decide +kernel, by decide +kernel, by decide +kernel⟩,
    ⟨sE_flies0, rfl, rfl, by decide +kernel, by decide +kernel⟩, rfl,
    ⟨rfl, rfl, by decide⟩, ⟨rfl, rfl, fun v hv w hw _ => by
      have hv : v = winT := by simpa [sE, sG] using hv
      have hw : w = winT := by simpa [sE, sG] using hw
      rw [hv, hw]⟩,
    ⟨rfl, rfl, rfl, rfl, by decide, fetched (by decide +kernel), by decide +kernel⟩,
    ⟨fetched (by decide +kernel), by decide +kernel⟩,
    ⟨fetched (by decide +kernel), by decide +kernel, by decide +kernel⟩, rfl, rfl, rfl, rfl⟩

/-- A matrix command of the group, and the state in which the engine runs it. -/
def cmdZ (k : MxKind) (st : CmdState) : MxCmd := ⟨31, 0, 1, k, 0, none, none, 1, st, 0, none, 0, 0, none⟩
def sZ (k : MxKind) (st : CmdState) : State := { sG [] with groups := [grpZ], mx := [cmdZ k st] }

theorem sZ_runs (k : MxKind) : MxRuns (sZ k .running) (cmdZ k .running) grpZ :=
  ⟨rfl, rfl, rfl, rfl, rfl, fun v hv w hw _ => by
      have hv : v = winT := by simpa [sZ, sG] using hv
      have hw : w = winT := by simpa [sZ, sG] using hw
      rw [hv, hw], fun d hd _ => by simpa [sZ] using hd⟩

theorem landable_of {s : State} {G : Group} {cmd off n : Nat}
    (h : (match scratchAt s G (BitVec.ofNat 64 off) with
      | some (w, o) => decide (o % n = 0 ∧ (w.tile (o / 4096)).engine = true ∧ o / 4096 < w.tiles.length ∧
          (w.tile (o / 4096)).wclaim = none ∧ (w.tile (o / 4096)).rclaim = [])
      | none => false) = true) : Landable s G cmd off n := by
  split at h
  · rename_i w o e
    obtain ⟨a, b, c, d, f⟩ := of_decide_eq_true h
    exact ⟨w, o, e, a, b, c, .inr ⟨d, f⟩⟩
  · exact absurd h (by decide)

theorem readA_of {s : State} {G : Group} {cl : Nat} {rk : Rake} {k : KStep}
    (h : (match readA s G cl rk k with
      | .ok (t, _) => decide (t.groups = s.groups ∧ t.mx = s.mx ∧ t.mem = s.mem)
      | .error _ => false) = true) :
    ∃ t A, readA s G cl rk k = .ok (t, A) ∧ t.groups = s.groups ∧ t.mx = s.mx ∧ t.mem = s.mem := by
  split at h
  · rename_i t A e
    exact ⟨t, A, e, of_decide_eq_true h⟩
  · exact absurd h (by decide)

theorem engRead_of {s : State} {b : EngBy} {n align : Nat} {a : Word}
    (h : (match engRead s b n align a with
      | .ok u _ _ => decide (u.mx = s.mx ∧ u.groups = s.groups)
      | _ => false) = true) : ∃ u bytes wts, engRead s b n align a = .ok u bytes wts ∧ u.mx = s.mx ∧ u.groups = s.groups := by
  split at h
  · exact ⟨_, _, _, ‹_›, of_decide_eq_true h⟩
  · exact absurd h (by decide)

theorem engRead_sent {s : State} {b : EngBy} {n align : Nat} {a : Word}
    (h : (match engRead s b n align a with | .sent _ _ => true | _ => false) = true) :
    ∃ u id, engRead s b n align a = .sent u id := by
  split at h
  · exact ⟨_, _, ‹_›⟩
  · exact absurd h (by decide)

/-- An MXLDB of 16 bytes of device 0's line at 0x80, or of another device's, with the answer `far`. -/
def cmdF (src : Word) (far : Option (Nat × Option (List Byte))) : MxCmd := { cmdZ (.ldb src false 16 0 false) .running with far := far }
def sF' (src : Word) (far : Option (Nat × Option (List Byte))) : State := { sX (.dstat 0) with
  ports := true, joined := true, groups := [grpZ], mx := [cmdF src far], reqs := [], devnum := 1
  tlb := [⟨144, 0, 0, soloLeaf⟩, ⟨0, 0, 0, { soloLeaf with va := farKey 2 0 }⟩] }

theorem sF'_runs (src : Word) (far : Option (Nat × Option (List Byte))) : MxRuns (sF' src far) (cmdF src far) grpZ :=
  ⟨rfl, rfl, rfl, rfl, rfl, fun v hv w hw _ => by
      have hv : v = winT := by simpa [sF', sX, sG] using hv
      have hw : w = winT := by simpa [sF', sX, sG] using hw
      rw [hv, hw], fun d hd _ => by simpa [sF'] using hd⟩

/-- MatrixEngineSteps: a queued start, clear and loop, whose turn it is and is not; an MXLDB of the last 16 bytes of a
scratchpad tile, and of memory here, elsewhere and answered; one k-step of 16 by 16; the chain's end; a drain of a whole
tile and a check, with bytes written and others. -/
def rakeZ : Rake := ⟨true, 0, 0, 0x1000, 64, 0, 256, 0, 0, 0, 0, 0, 0, 0, 0, 0, 0, 64, 0⟩
def resvZ : Resv := ⟨0, 4096, 16, 16, 64, 0, 0, 0, 0, 0, 0, 0, 0⟩
def loopZ : MxKind := .loop 1 1 0 resvZ 0x072143 rakeZ 16 16 0 0 16 0 0 16

theorem test_matrix_engine_steps :
    (∀ k ∈ [MxKind.chainBegin, .zero 0, loopZ], (sZ k .queued).mx.find? (·.group == 1) = some (cmdZ k .queued) ∧
      (∀ d ∈ (sZ k .queued).mx, d.st ≠ .running) ∧ (sZ k .queued).group? 1 = some grpZ ∧ grpZ.tile 0 = some tileZ ∧
      (sZ k .queued).bad = [] ∧ mxNext (sZ k .queued) 0 = some 1) ∧
    (let s : State := { sZ .chainBegin .queued with
        groups := [grpZ, { grpZ with id := 2 }], mxRr := [(0, 1)]
        mx := [cmdZ .chainBegin .queued, { cmdZ .chainBegin .queued with id := 32, group := 2 }] };
      s.mx.find? (·.group == 1) = some (cmdZ .chainBegin .queued) ∧ (∀ d ∈ s.mx, d.st ≠ .running) ∧
      s.group? 1 = some grpZ ∧ s.bad = [] ∧ mxNext s 0 ≠ some 1) ∧
    (MxRuns (sZ (.ldb 0x1FF0 true 16 0 false) .running) (cmdZ (.ldb 0x1FF0 true 16 0 false) .running) grpZ ∧
      scratchAt (sZ (.ldb 0x1FF0 true 16 0 false) .running) grpZ 0x1FF0 = some (winT, 0x1FF0) ∧
      (claimTile (sZ (.ldb 0x1FF0 true 16 0 false) .running) 7 (0x1FF0 / 4096) 31 false).isSome = true) ∧
    (MxRuns (sF' 0x80 none) (cmdF 0x80 none) grpZ ∧ ∃ u bytes wts,
      engRead (sF' 0x80 none) ⟨0, 0, 0, 1, 31, 0, 0, false⟩ 16 8 0x80 = .ok u bytes wts ∧ u.mx = (sF' 0x80 none).mx ∧
        u.groups = (sF' 0x80 none).groups) ∧
    (MxRuns (sF' 0x80 (some (2, some [1]))) (cmdF 0x80 (some (2, some [1]))) grpZ ∧ ([1] : List Byte) ≠ [] ∧
      grpZ.replay = none) ∧
    (MxRuns (sF' 0x2000000000080 none) (cmdF 0x2000000000080 none) grpZ ∧ ∃ u id,
      engRead (sF' 0x2000000000080 none) ⟨0, 0, 0, 1, 31, 0, 0, false⟩ 16 8 0x2000000000080 = .sent u id) ∧
    (MxRuns (sZ loopZ .running) (cmdZ loopZ .running) grpZ ∧ kLen tileZ.mode rakeZ resvZ 0x072143 = some 16 ∧
      ∃ k, kStep grpZ.ob resvZ 16 16 16 0 0 16 0 0 16 0 = some k ∧
        ∃ t A, readA (sZ loopZ .running) grpZ 1 rakeZ k = .ok (t, A) ∧ t.groups = (sZ loopZ .running).groups ∧
          t.mx = (sZ loopZ .running).mx ∧ t.mem = (sZ loopZ .running).mem) ∧
    (MxRuns (sZ (.chainEnd [0]) .running) (cmdZ (.chainEnd [0]) .running) grpZ ∧ [0].Nodup) ∧
    (MxRuns (sZ (.drain 0x1000 64 true 0 0) .running) (cmdZ (.drain 0x1000 64 true 0 0) .running) grpZ ∧
      ∀ e, 0 ≤ e → e < 0 + min (512 / tileZ.drainSize 0) (256 - 0) →
        Landable (sZ (.drain 0x1000 64 true 0 0) .running) grpZ 31 (drainOff 0x1000 64 16 (tileZ.drainSize 0) e) (tileZ.drainSize 0)) ∧
    (winT ∈ (sZ (.drain 0x1000 64 true 0 0) .running).windows ∧ winT.mem.wf = true ∧
      scratchAt (sZ (.drain 0x1000 64 true 0 0) .running) grpZ (BitVec.ofNat 64 (drainOff 0x1000 64 16 (tileZ.drainSize 0) 0)) =
        some (winT, 0x1000) ∧ (cmdZ (.drain 0x1000 64 true 0 0) .running).bar = none ∧
      (∀ e, e < 128 → ∀ p, scratchAt (sZ (.drain 0x1000 64 true 0 0) .running) grpZ
        (BitVec.ofNat 64 (drainOff 0x1000 64 16 (tileZ.drainSize 0) e)) = some (winT, p) → p ≠ 0)) ∧
    (MxRuns (sZ (.chk 0x1FE0 0 3 true) .running) (cmdZ (.chk 0x1FE0 0 3 true) .running) grpZ ∧
      Landable (sZ (.chk 0x1FE0 0 3 true) .running) grpZ 31 0x1FE0 32 ∧
      ElemByte (sZ (.chk 0x1FE0 0 3 true) .running) grpZ 0x1FE0 32 winT 0x1FFF 31 ∧
      ∀ i, ¬ ElemByte (sZ (.chk 0x1FE0 0 3 true) .running) grpZ 0x1FE0 32 winT 0x1FDF i) := by
  have chk : scratchAt (sZ (.chk 0x1FE0 0 3 true) .running) grpZ (BitVec.ofNat 64 0x1FE0) = some (winT, 0x1FE0) := by
    decide +kernel
  refine ⟨by decide +kernel, by decide +kernel, ⟨sZ_runs _, by decide +kernel, by decide +kernel⟩,
    ⟨sF'_runs _ _, engRead_of (by decide +kernel)⟩, ⟨sF'_runs _ _, by decide, rfl⟩,
    ⟨sF'_runs _ _, engRead_sent (by decide +kernel)⟩, ⟨sZ_runs _, rfl, ?_⟩,
    ⟨sZ_runs _, by decide⟩, ⟨sZ_runs _, fun e _ he => landable_of ?_⟩,
    ⟨List.mem_singleton.mpr rfl, rfl, by decide +kernel, rfl, ?_⟩, sZ_runs _, landable_of (by decide +kernel),
    ⟨0x1FE0, chk, rfl, by decide⟩, fun i ⟨p, e, h, _⟩ => ?_⟩
  · refine ⟨_, rfl, readA_of ?_⟩
    decide +kernel
  · have all : ∀ e, e < 128 → (match scratchAt (sZ (.drain 0x1000 64 true 0 0) .running) grpZ
        (BitVec.ofNat 64 (drainOff 0x1000 64 16 (tileZ.drainSize 0) e)) with
      | some (w, o) => decide (o % tileZ.drainSize 0 = 0 ∧ (w.tile (o / 4096)).engine = true ∧ o / 4096 < w.tiles.length ∧
          (w.tile (o / 4096)).wclaim = none ∧ (w.tile (o / 4096)).rclaim = [])
      | none => false) = true := by decide +kernel
    exact all e (Nat.lt_of_lt_of_eq he (by decide +kernel))
  · have all : ∀ e, e < 128 → (match scratchAt (sZ (.drain 0x1000 64 true 0 0) .running) grpZ
        (BitVec.ofNat 64 (drainOff 0x1000 64 16 (tileZ.drainSize 0) e)) with
      | some (_, p) => decide (p ≠ 0)
      | none => true) = true := by decide +kernel
    intro e he p hp
    have := all e he
    rw [hp] at this
    exact of_decide_eq_true this
  · rw [chk] at e
    cases e
    omega

/-! ## Launches and teams -/

/-- Partition 0 enabled, owning every core of die 0, with queue 0 of 16 slots: WI 3 and CI 1. -/
def partQ (wi ci : BitVec 32) : Partition := { partT with
  cores := [0xFFFFFFFFF, 0, 0], queues := modAt (fun _ => ⟨4, 0, wi, ci⟩) 0 Partition.reset.queues }
def sL (l : Launch) : State := { sG [] with parts := [partQ 3 1, Partition.reset], launches := [l] }

/-- What the hub's read of the slot at CI of queue 0 comes to. -/
def slotIs (s : State) (p : SlotRes → Bool) : Bool := p (readSlot s 0 0 ((s.part 0).queue 0))

theorem slot_ok {s : State} {P : State → Bool}
    (h : slotIs s (fun | .ok u _ => P u | .wait _ => false | .poisoned => false) = true) :
    ∃ u d, readSlot s 0 0 ((s.part 0).queue 0) = .ok u d ∧ P u = true := by
  dsimp only [slotIs] at h
  split at h
  · exact ⟨_, _, ‹_›, h⟩
  · exact absurd h (by decide)
  · exact absurd h (by decide)

theorem slot_waits {s : State} (h : slotIs s (fun | .ok _ _ => false | .wait _ => true | .poisoned => false) = true) :
    ∃ u, readSlot s 0 0 ((s.part 0).queue 0) = .wait u := by
  dsimp only [slotIs] at h
  split at h
  · exact absurd h (by decide)
  · exact ⟨_, ‹_›⟩
  · exact absurd h (by decide)

theorem slot_poisoned {s : State} (h : slotIs s (fun | .ok _ _ => false | .wait _ => false | .poisoned => true) = true) :
    readSlot s 0 0 ((s.part 0).queue 0) = .poisoned := by
  dsimp only [slotIs] at h
  split at h
  · exact absurd h (by decide)
  · exact absurd h (by decide)
  · assumption

/-- The queue's page is mapped, so that its slot at CI is the line at 0x80. -/
def sSl : State := { sL launchT with
  mem := sMap.mem, parts := [{ partQ 3 1 with l2sh := 0x10000, ptroot := List.replicate 16 0x1001 }] }

/-- Two stages, the first of which emitted in the last interval into the second, 7/8 full of records. -/
def launchH : Launch := { launchT with stages := [⟨0, 16, 0, 1, 2, [], 1, [], [1], 0⟩,
  ⟨0, 16, 0, 1, 2, List.replicate 14 ⟨List.replicate 8 0, 0, 0⟩, 1, [], [], 14⟩] }

/-- LaunchSteps: sound and poisoned hub state; a doorbell at the last slot, one past it and one that moves back; a launch to accept, its slot read, held
by a core and poisoned; a copy and a release launch; one that is over and one whose completion word is acknowledged; a
stage's records of age 2,048; a stage that is held. -/
theorem test_launch_steps :
    (let s := sL launchT;
      let q := (s.part 0).queue 0;
      (s.part 0).en = true ∧ (s.part 0).rst = false ∧ s.stage = 5 ∧ q.open 0 = true ∧ (q.wi - q.ci).toNat = 2 ∧
      (BitVec.ofNat 32 17 - q.ci).toNat = q.slots 0 ∧ q.slots 0 < (BitVec.ofNat 32 18 - q.ci).toNat ∧
      (BitVec.ofNat 32 2 - q.ci).toNat < (q.wi - q.ci).toNat ∧ q.ci ≠ q.wi ∧ hubPoisoned s 0 = false ∧
      s.launch? 0 (4096 * 0 + q.ci.toNat % 4096) = none) ∧
    (HubStep 0 (.doorbellWrite 0 0 17) ∧ hubPoisoned { sL launchT with bad := [⟨.hubPartition 0, false, 0, 5⟩] } 0 = true ∧
      HubSound (sL launchT) 0 ∧ HubSound sSl 0 ∧ HubSound { sSl with bad := [⟨.mem 16, false, 0, 0⟩] } 0) ∧
    (∃ u d, readSlot (sL launchT) 0 0 (((sL launchT).part 0).queue 0) = .ok u d ∧
      decide (0 < u.parts.length ∧ 0 < (u.part 0).queues.length) = true) ∧
    (∃ u, readSlot { sSl with owned := [{ ownTab with line := 1 }] } 0 0
      ((({ sSl with owned := [{ ownTab with line := 1 }] } : State).part 0).queue 0) = .wait u) ∧
    (readSlot { sSl with bad := [⟨.mem 16, false, 0, 0⟩] } 0 0
      ((({ sSl with bad := [⟨.mem 16, false, 0, 0⟩] } : State).part 0).queue 0) = .poisoned) ∧
    (let l := { launchT with kind := 1 };
      (sL l).launch? 0 0 = some l ∧ l.rej = false ∧ l.deps = [] ∧ l.copied = false ∧ ((sL l).part 0).rst = false ∧ (∀ c ∈ (sL l).sx, ¬ (c.part = 0 ∧ c.launch = some 0)) ∧
      (((sL l).ownCores 0).find? fun c => !(sL l).sxFull c) = some 0) ∧
    ((sL { launchT with kind := 2 }).launch? 0 0 = some { launchT with kind := 2 }) ∧
    (let l := { launchT with rej := true };
      (sL l).launch? 0 0 = some l ∧ l.done = none ∧ launchOver (sL l) l = true ∧ l.caddr ≠ 0 ∧ l.caddr.toNat % 8 = 0 ∧
      gaddr (sL l) l.caddr = some (0, 0x200)) ∧
    (let l := { launchT with done := some 2 };
      (sL l).launch? 0 0 = some l ∧ (sL l).req? 2 = none) ∧
    (let s := { sL launchT with cycle := 2048 };
      ∃ g, launchT.stages[0]? = some g ∧ (∀ r ∈ g.recs, r.came + 2048 ≤ s.cycle) ∧ g.recs.length ≤ launchT.width ∧
        (∀ e, (g.naming e).length ≤ launchT.width) ∧ g.recs ≠ [] ∧ g.minc ≤ g.maxc) ∧
    (∃ g, launchH.stages[0]? = some g ∧ launchH.stageHeld 0 g = true ∧ (⟨0, [], some 0, [], none⟩ : WaitTeam).stage = some 0) :=
  ⟨by decide +kernel, ⟨.doorbell 0 0 17, by decide +kernel, fun d h => absurd h (by show d ∉ []; simp), fun d h => absurd h (by show d ∉ []; simp),
      fun d h => by have : d = ⟨.mem 16, false, 0, 0⟩ := by simpa using h
                    rw [this]; decide⟩,
    slot_ok (by decide +kernel), slot_waits (by decide +kernel), slot_poisoned (by decide +kernel),
    by decide +kernel, by decide +kernel, by decide +kernel, by decide +kernel, ⟨_, rfl, by decide,
    by decide, fun e => Nat.le_trans (List.length_filter_le _ _) (by decide), by decide, by decide⟩, _, rfl, by decide +kernel,
    rfl⟩

/-- A team with a mark, its group inside a region or with its gangs ended, and an audit of it. -/
def teamT : Team := ⟨1, 0, 0, 0, [0], some 5, [], none, [], none⟩
def auditT (stage : Nat) (s1 : Memory) : Audit := ⟨50, 0, 0, 0, 0, 0, [0], stage, some launchT, [(3, 1)], s1, [(3, 1)], false⟩

/-- TeamSteps. -/
theorem test_team_steps :
    (let s := { sL launchT with parts := [{ partQ 3 1 with pcfg := 1 + 100000 * 2 ^ 32 }], groups := [], gangs := [] };
      s.bad = [] ∧ (∀ G ∈ s.groups, G.replay = none) ∧ ∃ w, bestLaunch s 0 = some (launchT, w) ∧ findCore s launchT w = some 0) ∧
    (∃ w : WaitTeam, w.restart = [] ∧ w.stage = none ∧ w.recs = [] ∧ w.pts = none) ∧
    (let s : State := { sG [] with teams := [teamT], gangs := [{ gangT [] with region := some (4, 5) }] };
      s.team? 1 = some teamT ∧ teamT.saved = [] ∧ s.teamInside 1 = true ∧ s.teamHalted 1 = false ∧ ∃ G ∈ s.groups, G.team = 1 ∧ G.fatal = none) ∧
    (let s : State := { sG [] with teams := [teamT], ptp := 100005 };
      s.team? 1 = some teamT ∧ 5 + (s.part 0).wdog ≤ s.ptp ∧ s.teamHalted 1 = false ∧ ∀ G ∈ s.groups, s.group? G.id = some G) ∧
    (let s : State := { sL launchT with teams := [teamT], ptp := 100005, groups := [{ grpT with ending := true }] };
      5 + (s.part 0).wdog ≤ s.ptp ∧ s.teamHalted 1 = false ∧ ∀ G ∈ s.groups, G.team = 1 ∧ G.fatal = none ∧ G.ending = true ∧
        G.replay = none ∧ s.launch? G.part G.lid = some launchT ∧ launchT.fault = none) ∧
    (let s : State := { sG [] with gangs := [{ gangT [] with ended := some .exit }] };
      s.group? 1 = some grpT ∧ (∀ g ∈ s.gangs, g.group = 1 → g.ended ≠ none) ∧ grpT.fatal = none ∧ grpT.ending = false) ∧
    (let G := { grpT with ending := true };
      let s : State := { sG [] with gangs := [{ gangT [] with ended := some .exit }], groups := [G] };
      s.group? 1 = some G ∧ s.groupBusy 1 = false ∧ G.audit = none ∧ G.replay = none) ∧
    (let G := { grpT with nRoles := 2 };
      let s : State := { sL launchT with gangs := [{ gangT [] with ended := some (.role 1) }], groups := [G] };
      s.group? 1 = some G ∧ s.gangsOf 1 ≠ [] ∧ (∀ g ∈ s.gangs, g.group = 1 → g.ended = some (.role 1)) ∧ 1 < G.nRoles ∧
      s.launchOf G = some launchT ∧ s.sx = [] ∧ s.mx = [] ∧ s.passes = []) ∧
    (let G := { grpT with nRoles := 2, replay := some 50 };
      ({ sG [] with groups := [G], audits := [auditT 1 []], launches := [] } : State).launchOf G = some launchT) ∧
    (let s := { sL launchT with audits := [auditT 1 []] };
      s.audit? 50 = some (auditT 1 []) ∧ (∀ G ∈ s.groups, G.replay ≠ some 50) ∧ replayCore s (auditT 1 []) = some 1) ∧
    (signature [(3, 1)] ≠ signature [] ∧ signature (auditT 1 [(3, 1)]).s0 = signature (auditT 1 [(3, 1)]).s1) := by
  refine ⟨⟨rfl, by decide, ⟨0, [], none, [], none⟩, by decide +kernel, by decide +kernel⟩, ⟨⟨0, [], none, [], none⟩, rfl, rfl, rfl, rfl⟩,
    by decide +kernel, by decide +kernel, by decide +kernel, by decide +kernel, by decide +kernel, by decide +kernel, by decide +kernel, by decide +kernel,
    by decide +kernel⟩

/-! ## The host bridge -/

/-- A granule of host memory at address 0 of it, and a request of the gang for it. -/
def granT (st : Option GranuleState) (le : Nat) : Granule := ⟨0, 0, st, le, none, false⟩
def hostL : Leaf := { soloLeaf with pa := 2 ^ 47 }
def reqB (k : ReqKind) : Req := { reqT k with va := 0 }
def sB (k : ReqKind) (g : List Granule) : State := { sX k with
  tlb := [⟨144, 0, 0, hostL⟩], reqs := [reqB k], granules := g, ptp := 1000 }

theorem sB_at (k : ReqKind) (g : List Granule) : AtBridge (sB k g) (reqB k) hostL :=
  ⟨rfl, rfl, rfl, earlier_self rfl rfl, rfl, by decide +kernel, rfl, lone rfl rfl, rfl⟩

/-- Partition 0 with window 0 over its first 64 KiB, open to host reads and writes and to ingest from requester 9. -/
def partW (fca : Word) : Partition := { partT with
  wins := modAt (fun _ => ⟨0, 1, 0x90003, fca, 3⟩) 0 Partition.reset.wins }
def sW (l : Leaf) (fca : Word) : State := { sX (.dstat 0) with
  parts := [partW fca, Partition.reset], tlb := [⟨144, 0, 0, l⟩], snoops := [⟨1, true, some false, 0, 0, 0x80⟩], reqs := [] }
def biasLeaf : Leaf := { soloLeaf with bias := true }

/-- A bridge full of granules other than 0. -/
def fullB (k : ReqKind) : State := sB k (List.replicate 65536 { granT (some .s) 0 with addr := 1 })

theorem fullB_none (k : ReqKind) : (fullB k).granule? 0 = none := by
  have : ∀ x ∈ (fullB k).granules, ¬ (x.addr == 0) = true := fun x hx => by
    rw [List.eq_of_mem_replicate hx]
    decide
  exact List.find?_eq_none.mpr this

/-- The replicated page under the host's window. -/
def repW : Leaf := { soloLeaf with mode := 4 }

/-- A damaged copy of granule 0. -/
def hurtB : State := { sB (.dstat 0) [granT (some .m) 0] with bad := [⟨.mem (memKey 4 0 / 8), false, 0, 0⟩] }

/-- HostSteps: a held granule, none, a line whose flag another core owns, and a full bridge; a grant that is wanted; a write in E; the acknowledgement;
evictions before and after LE; a write-back, also of a damaged copy; the snoops of a granule held and of one that is
leaving; host accesses to the last bytes of a line of either bias and of a replicated page, outside the window and during
a reset; a back-invalidation that is out. -/
theorem test_host_steps :
    (let k : ReqKind := .read [(15, 120, 8)] none true false false false 0 (List.replicate 128 0);
      AtBridge (sB k [granT (some .s) 0]) (reqB k) hostL ∧ AtBridge (sB k []) (reqB k) hostL ∧
      granuleOf (hostL.hostLine (reqB k)) = 0 ∧ (sB k [granT (some .s) 0]).hostReadable 0 = true ∧
      (sB k []).hostReadable 0 = false ∧ (sB k []).granules.length < 65536 ∧ (sB k []).cxlMode = true ∧
      (sB k []).hostOwner (reqB k) (hostL.hostLine (reqB k)) = none) ∧
    (let k : ReqKind := .read [(15, 120, 8)] none true false false false 0 (List.replicate 128 0);
      let o := { ownedT with core := 3, line := hostL.hostLine (reqB k) };
      let s := { sB k [] with owned := [o] };
      AtBridge s (reqB k) hostL ∧ s.hostOwner (reqB k) (hostL.hostLine (reqB k)) = some o) ∧
    (∀ k, AtBridge (fullB k) (reqB k) hostL ∧ (fullB k).hostOwner (reqB k) (hostL.hostLine (reqB k)) = none ∧
      (fullB k).granule? 0 = none ∧ 65536 ≤ (fullB k).granules.length) ∧
    (let x : Granule := { granT none 0 with want := some true };
      (sB (.dstat 0) [x]).granule? 0 = some x ∧ x.want ≠ none ∧ (List.replicate 128 (0#8)).length = 128 ∧
      (sB (.dstat 0) [x]).mem.wf = true) ∧
    (let k : ReqKind := .write 1 (List.replicate 128 0) [1] false false;
      AtBridge (sB k [granT (some .e) 920]) (reqB k) hostL ∧ (sB k [granT (some .e) 920]).hostWritable 0 = true ∧
      (sB k [granT (some .e) 920]).hostOwner (reqB k) (hostL.hostLine (reqB k)) = none ∧
      (920 ≠ 0 ∧ (sB k []).ptp ≤ 920 + 80) ∧ 919 + 80 < (sB k []).ptp ∧
      ({ sB k [] with reqs := [{ reqB k with served := true }] } : State).req? 2 = some { reqB k with served := true }) ∧
    ((sB (.dstat 0) [granT (some .m) 1000]).granule? 0 = some (granT (some .m) 1000) ∧ (sB (.dstat 0) []).ptp ≤ 1000 ∧
      999 < (sB (.dstat 0) []).ptp ∧ some GranuleState.e ≠ some .m) ∧
    ((granT (some .m) 0).evicting = false ∧ ({ granT (some .m) 0 with evicting := true }).evicting = true ∧
      (sB (.dstat 0) [granT (some .m) 0]).granuleBad 0 = false ∧ hurtB.granule? 0 = some (granT (some .m) 0) ∧
      hurtB.granuleBad 0 = true) ∧
    (winAddr (sW biasLeaf 0) 0 0 248 8 0 = some (0, 248) ∧ 248 % 128 + 8 ≤ 128 ∧
      hostPage (sW biasLeaf 0) 0 0 248 = .ok (sW biasLeaf 0) biasLeaf ∧
      (sW biasLeaf 0).lockedLine 0 0 248 biasLeaf = false ∧ refT = biasLeaf.lineRef 0 0 248 ∧
      Quiet (sW biasLeaf 0) refT lineT ∧ (sW biasLeaf 0).filterFull refT.line = false ∧
      overInterval ((sW biasLeaf 0).chip 0) (readRts (sW biasLeaf 0) refT lineT (sW biasLeaf 0).dclk) = false ∧
      InTimeAt (sW biasLeaf 0) refT lineT (sW biasLeaf 0).dclk ∧ biasLeaf.mode ≠ 4 ∧
      hostPage (sW soloLeaf 0) 0 0 248 = .ok (sW soloLeaf 0) soloLeaf ∧
      hostPage (sW repW 0) 0 0 248 = .ok (sW repW 0) repW ∧ repW.mode = 4 ∧ (sW repW 0).filterFull refT.line = false) ∧
    (winAddr (sW biasLeaf 0) 0 0 65529 8 0 = none ∧ (sW biasLeaf 0).resetting = false ∧
      winAddr { sW biasLeaf 0 with stage := 1 } 0 0 0 8 0 = none ∧ ({ sW biasLeaf 0 with stage := 1 } : State).resetting = true) ∧
    (let q := { reqT (.write 1 (List.replicate 128 0) [1] false false) with held := some (.host 1 false) };
      let s := { sW biasLeaf 0 with reqs := [q] };
      s.req? 2 = some q ∧ s.snoop? 1 = some ⟨1, true, some false, 0, 0, 0x80⟩ ∧ biHome s ⟨1, true, some false, 0, 0, 0x80⟩ = refT ∧ Quiet s refT lineT ∧
      InTimeAt s refT lineT s.dclk) :=
  ⟨⟨sB_at _ _, sB_at _ _, by decide +kernel, rfl, rfl, by decide, rfl, rfl⟩,
    ⟨⟨rfl, rfl, rfl, earlier_self rfl rfl, rfl, by decide +kernel, rfl, lone rfl rfl, rfl⟩, by decide +kernel⟩,
    fun k => ⟨sB_at _ _, rfl, fullB_none k, Nat.le_of_eq List.length_replicate.symm⟩,
    by decide +kernel,
    ⟨sB_at _ _, rfl, rfl, by decide +kernel, by decide +kernel, rfl⟩, by decide +kernel,
    ⟨rfl, rfl, by decide +kernel, rfl, by decide +kernel⟩,
    ⟨by decide +kernel, by decide, rfl, by decide +kernel, by decide +kernel, ⟨rfl, by show 0 < 4; decide, rfl, rfl, rfl, rfl⟩, by decide +kernel,
      by decide +kernel, by unfold InTimeAt; decide +kernel, by decide, rfl, rfl, rfl, by decide +kernel⟩,
    by decide +kernel, ⟨rfl, rfl, by decide +kernel, ⟨rfl, by show 0 < 4; decide, rfl, rfl, rfl, rfl⟩, by unfold InTimeAt; decide +kernel⟩⟩

/-! ## Registers of the functions -/

/-- The page at 0 mapped by a level 1 table at 0x1000 and a level 2 leaf of 1 GiB; the slot of the leaf is 0x10000. -/
def sFs (p : Partition) : State := { sG [] with
  mem := (State.reset.mem.write 0x1000 (leBytes 8 0x10001)).write 0x10000 (leBytes 8 0x1F)
  parts := [{ p with l2sh := 0x10000, ptroot := List.replicate 16 0x1001 }] ++ List.replicate 7 Partition.reset
  launches := [{ launchT with asn := 3 }] }

theorem flip_ok {s : State} {part asn : Nat} {ks : List Nat} {x : Option (List Leaf)}
    (h : (match flipLeaves s part asn ks with | .ok y => decide (y = x) | .error _ => false) = true) :
    flipLeaves s part asn ks = .ok x := by
  split at h
  · rename_i e
    rw [e, of_decide_eq_true h]
  · exact absurd h (by decide)

theorem flip_held {s : State} {part asn : Nat} {ks : List Nat}
    (h : (match flipLeaves s part asn ks with | .ok _ => false | .error _ => true) = true) :
    ∃ e, flipLeaves s part asn ks = .error e := by
  split at h
  · exact absurd h (by decide)
  · exact ⟨_, ‹_›⟩

/-- PartitionRegisters: each register refused and accepted; a queue of CI = WI and one with entries; an address space
with and without a launch; a flip of a page that is not mapped, of one whose table a core owns and of one that is mapped. -/
theorem test_partition_registers :
    ((sFs partT).parts.length = 8 ∧ (sFs partT).bootFail = false ∧ resReg 0x118 ≠ .none ∧
      resRefused (sFs partT) 1 (1 + 2 ^ 32) (resReg 0) = false ∧ resRefused (sFs partT) 1 1 (resReg 0) = true ∧
      resRefused (sFs partT) 1 0x10000 (resReg 8) = false ∧ resRefused (sFs partT) 0 0x10000 (resReg 8) = true ∧
      resRefused (sFs partT) 1 0xFFFF (resReg 0x20) = false ∧ resRefused (sFs partT) 1 0x10000 (resReg 0x20) = true ∧
      resRefused (sFs partT) 1 1 (resReg 0x30) = false ∧ resRefused (sFs partT) 1 2 (resReg 0x30) = true ∧
      resRefused (sFs partT) 1 0x1000F (resReg (0x100 + 32 * 15)) = false ∧
      resRefused (sFs partT) 1 0x100000 (resReg (0x108 + 32 * 15)) = false ∧
      resRefused (sFs partT) 1 0x90003 (resReg (0x110 + 32 * 15)) = false ∧
      resRefused (sFs partT) 1 0x208 (resReg (0x118 + 32 * 15)) = false ∧
      resRefused (sFs partT) 1 0x204 (resReg (0x118 + 32 * 15)) = true) ∧
    (((sFs partT).part 0).en = true ∧ fld (0 : Word) 1 2 ≠ fld ((sFs partT).part 0).pcfg 1 2) ∧
    (fld (2 ^ 22 : Word) 22 10 ≠ 0 ∧ fld (0xF8 : Word) 3 5 ≠ 0 ∧ fld (0 : Word) 32 32 = 0 ∧ 16 < fld (0x110000 : Word) 16 5 ∧
      144 < fld (0x9100 : Word) 8 8) ∧ fld (0x10000 : Word) 16 48 ≠ 0 ∧
    ((sFs (partQ 3 1)).fnOpen 0 = true ∧ 0 < (sFs (partQ 3 1)).parts.length ∧
      (((sFs (partQ 3 1)).part 0).queue 0).ci ≠ (((sFs (partQ 3 1)).part 0).queue 0).wi ∧
      (((sFs (partQ 3 1)).part 0).queue 14).ci = (((sFs (partQ 3 1)).part 0).queue 14).wi ∧ 127 < 128) ∧
    ((∃ l ∈ (sFs partT).launches, l.part = 0 ∧ l.asn = 3) ∧ (∀ l ∈ (sFs partT).launches, l.part = 0 → l.asn ≠ 15)) ∧
    (let u := (sFs partT).modPart 0 fun p => { p with bfc := 0x100000001, flip := some (0, 2 ^ 31) };
      ((sFs { partT with flip := some (0, 2 ^ 31) }).part 0).flip.getD (9, 9) = (0, 2 ^ 31) ∧
      ((sFs partT).part 0).bfc.getLsbD 0 = false ∧ (0x100000001 : Word).getLsbD 0 = true ∧ (2 : Word).getLsbD 0 = false ∧
      flipLeaves u 0 0 (rangeFrom (2 ^ 31) 1) = .ok none ∧
      (let v : State := { u with owned := [ownTab] }; ∃ h, flipLeaves v 0 0 (rangeFrom 1 1) = .error h)) ∧
    (let s := sFs { partT with bfa := 0x10000 };
      let r := (s.part 0).flip.getD (fld (s.part 0).bfa 0 4, fld (s.part 0).bfa 16 32);
      let u := s.modPart 0 fun p => { p with bfc := 0x100000001, flip := some r };
      r = (0, 1) ∧ (∃ l, [l] ≠ [] ∧ flipLeaves u 0 r.1 (rangeFrom r.2 1) = .ok (some [l])) ∧ u.snoops = []) :=
  ⟨by decide +kernel, by decide +kernel, by decide +kernel, by decide +kernel, by decide +kernel, by decide +kernel,
    ⟨by decide +kernel, rfl, by decide +kernel, by decide +kernel, flip_ok (by decide +kernel), flip_held (by decide +kernel)⟩,
    by decide +kernel, ⟨{ soloLeaf with size := 2 ^ 30 }, by decide, flip_ok (by decide +kernel)⟩, rfl⟩

/-! ## Ingest, power and debug -/

/-- An ingest stream of window 0 that holds the pieces `ps`. -/
def sI (ps : List IngPiece) (fca : Word) : State := { sW soloLeaf fca with ingest := [⟨0, 0, ps⟩], snoops := [] }
def pieceT (bell : Bool) : IngPiece := ⟨5, 0, 248, 120, List.replicate 8 1, false, bell, none⟩

/-- The group halted for debugging, DBGSEL at lane 15 of it. -/
def sHs (space : Nat) : State := { sG [] with
  groups := [{ grpT with halted := true }], dbgsel := BitVec.ofNat 64 (space * 2 ^ 56 + 31 * 2 ^ 48 + 15 * 2 ^ 40) }

/-- IngestAndPlatformSteps. -/
theorem test_ingest_and_platform_steps :
    ((winAddr (sW soloLeaf 0) 0 0 65529 8 1 = none ∧ ingestOpen (sW soloLeaf 0) 0 0 8 = false ∧
        0 < (sW soloLeaf 0).parts.length) ∧
      (winAddr (sW soloLeaf 0) 0 0 65528 8 1 = some (0, 65528) ∧ ingestOpen (sW soloLeaf 0) 0 0 9 = true ∧
        ingestPages (sW soloLeaf 0) 0 0 65528 8 = true ∧ (sW soloLeaf 0).ingest = [])) ∧
    (let s : State := { sFs partT with
        mem := (sFs partT).mem.write 0x10000 (leBytes 8 0x3F)
        parts := [{ partW 0 with l2sh := 0x10000, ptroot := List.replicate 16 0x1001 }] };
      winAddr s 0 0 0 8 1 = some (0, 0) ∧ ingestOpen s 0 0 9 = true ∧ ingestPages s 0 0 0 8 = false) ∧
    (let s := sI [pieceT false] 0;
      s.ingest.find? (fun h => h.part == 0 && h.win == 0) = some ⟨0, 0, [pieceT false]⟩ ∧ s.draining 0 0 248 = false ∧
      refT = soloLeaf.lineRef 0 0 248 ∧ s.snoop? refT.line = none ∧ 0 < s.parts.length ∧ 0 < (s.part 0).wins.length ∧
      (pieceT false).off + (pieceT false).data.length ≤ 128) ∧
    (translate (sI [pieceT false] 0) 0 0 248 = (.leaf soloLeaf, sI [pieceT false] 0) ∧
      tlpPages (sI [pieceT false] 0) ⟨0, 0, [pieceT false]⟩ (pieceT false) = .take ∧ soloLeaf.host = false ∧ Quiet (sI [pieceT false] 0) refT lineT ∧
      InTimeAt (sI [pieceT false] 0) refT lineT (smax ((sI [pieceT false] 0).winSs 0 0 + 1) (sI [pieceT false] 0).dclk)) ∧
    ((sI [pieceT false, pieceT true] 0).ingest.find? (fun h => h.part == 0 && h.win == 0) =
        some ⟨0, 0, [pieceT false, pieceT true]⟩ ∧ [pieceT true] ≠ []) ∧
    (let s : State := { sI [pieceT false] 0 with tlb := [⟨144, 0, 0, repW⟩] };
      tlpPages s ⟨0, 0, [pieceT false]⟩ (pieceT false) = .lose ∧ s.draining 0 0 248 = false) ∧
    (let s : State := { sI [pieceT false] 0 with tlb := [] };
      tlpPages s ⟨0, 0, [pieceT false]⟩ (pieceT false) = .absent 248 ∧ s.draining 0 0 248 = false) ∧
    (let s : State := { sFs partT with owned := [ownTab], ingest := [⟨0, 0, [pieceT false]⟩] };
      ∃ h, tlpPages s ⟨0, 0, [pieceT false]⟩ (pieceT false) = .held h ∧ s.draining 0 0 248 = false) ∧
    ((sI [pieceT true] 0).ingest.find? (fun h => h.part == 0 && h.win == 0) = some ⟨0, 0, [pieceT true]⟩ ∧
      (pieceT true).bell = true ∧ (pieceT true).req = none ∧ (sI [pieceT true] 0).draining 0 0 248 = false ∧
      translate (sI [pieceT true] 0) 0 0 248 = (.leaf soloLeaf, sI [pieceT true] 0) ∧
      leafCause (sI [pieceT true] 0).devnum { wr := true, atom := true } soloLeaf = none ∧
      ({ pieceT true with req := some 2 }).req = some 2 ∧ (sI [] 0).req? 2 = none ∧ (sX (.dstat 0)).req? 2 ≠ none) ∧
    ((at' ⟨0, 0, 0, 0, 0⟩ ((sW soloLeaf 0).part 0).wins 0).fca = 0 ∧
      (at' ⟨0, 0, 0, 0, 0⟩ ((sW soloLeaf 0x208).part 0).wins 0).fca ≠ 0 ∧ ingestOpen (sW soloLeaf 0x208) 0 0 9 = true ∧
      winAddr (sW soloLeaf 0x208) 0 0 0 0 1 ≠ none ∧ (sW soloLeaf 0x208).ingest = []) ∧
    ((sG []).attctl.getLsbD 0 = false ∧ (0x7FFFFFFFFE01 : Word).getLsbD 0 = true) ∧
    (let q := reqB (.report (List.replicate 128 1));
      let s := sB q.kind [granT (some .e) 0];
      s.req? 2 = some q ∧ q.held = none ∧ q.served = false ∧ q.va % 128 = 0 ∧ q.va < 2 ^ 47 ∧ s.cxlMode = true ∧
      s.hostWritable (q.va / 128) = true ∧ s.granule? (q.va / 128) = some (granT (some .e) 0) ∧ s.bad = [] ∧
      s.mem.wf = true ∧ ({ s with reqs := [{ q with served := true }] } : State).req? 2 = some { q with served := true } ∧
      ∀ p ∈ s.reqs, p.id ≠ q.id → False) ∧
    ((sHs 0).bootFail = false ∧ (sHs 0).groups[0]? = some { grpT with halted := true } ∧
      ((2 : Word) &&& 0xFF#64).getLsbD 0 = false ∧ fld (0xFF00000000000000 : Word) 56 8 = 0xFF ∧ fld (0 : Word) 56 8 ≠ 0xFF ∧
      dbgGroup (sHs 0) (sHs 0).dbgsel = some { grpT with halted := true }) ∧
    (let s : State := { sG [] with groups := [{ grpT with halting := true }] };
      s.groups[0]? = some { grpT with halting := true } ∧ { grpT with halting := true }.halting = true) ∧
    (let runs : List RunState := [.sleep 9, .regang 0x40, .barrier ⟨0, 0⟩ false 0x40, .ended];
      let g : Gang := { gangT [] with slices := (List.zip (gangT []).slices runs).map fun e => { e.1 with run := e.2 } };
      let s : State := { sHs 0 with gangs := [g] };
      dbgGroup s s.dbgsel = some { grpT with halted := true } ∧ s.gangs[0]? = some g ∧ g.group = grpT.id ∧
        ∀ i, i < 4 → (g.slices[i]?).map (·.run) = runs[i]?) ∧
    (dbgLane (sHs 0) (sHs 0).dbgsel = some ({ grpT with halted := true }, gangT [], 15) ∧
      dbgLane (sHs 1) (sHs 1).dbgsel = some ({ grpT with halted := true }, gangT [], fld (sHs 1).dbgsel 40 8 % 64) ∧
      dbgBad (sHs 0) = false ∧ dbgBad { sHs 0 with bad := [⟨.named 1 15 31, false, 0, 0⟩] } = true ∧
      fld (sHs 0).dbgsel 56 8 = 0 ∧ fld (sHs 1).dbgsel 56 8 = 1 ∧ fld (sHs 2).dbgsel 56 8 = 2 ∧ ((gangT []).lane? 15).isSome = true ∧
      (sHs 2).gangs = [gangT []]) :=
  ⟨⟨by decide +kernel, by decide +kernel⟩, by decide +kernel, by decide +kernel,
    ⟨rfl, rfl, rfl, ⟨rfl, by show 0 < 4; decide, rfl, rfl, rfl, rfl⟩, by unfold InTimeAt; decide +kernel⟩,
    by decide +kernel, ⟨rfl, rfl⟩, ⟨by decide +kernel, rfl⟩, ⟨_, rfl, rfl⟩,
    ⟨rfl, rfl, rfl, rfl, rfl, by decide +kernel, rfl, rfl, by decide +kernel⟩, by decide +kernel, by decide +kernel,
    by decide +kernel, by decide +kernel, ⟨rfl, rfl⟩, by decide +kernel, by decide +kernel⟩

/-! ## The fabric -/

/-- A joined device 1, and a replica set of devices 1 and 2 over the first 64 KiB. -/
def updT (sent : Bool) : RepUpd := ⟨1, 0x80, 1, List.replicate 128 0, some 2, [], [], sent, false, false⟩
def setT (lock : Bool) (ups : List RepUpd) (devs : List Nat) : RepSet := ⟨60, 0, 0, 0, 65536, devs, 0, 0, lock, none, ups, [0x80], []⟩
def sRs (q : Req) (g : RepSet) : State := { sX (.dstat 0) with
  joined := true, synced := true, ports := true, devnum := 1, reqs := [q], sets := [g] }
def readK : ReqKind := .read [(15, 120, 8)] none true false false false 0 (List.replicate 128 0)
def repK : ReqKind := .rep 1 (List.replicate 128 0) [1] false false

/-- FabricSteps. -/
theorem test_fabric_steps :
    (let s : State := { sG [] with ports := true, synced := true };
      s.bootFail = false ∧ 0 < 4608 ∧ s.ports = true ∧ s.joined = false ∧ s.synced = true ∧ ({ s with stage := 3 } : State).stage = 3 ∧
      (sG []).synced = false ∧ (sG []).ports = false ∧ ({ s with bootFail := true } : State).bootFail = true) ∧
    (let q := { reqT readK with dev := 2, op := some 3 };
      let s := sRs q (setT false [] [1, 2]);
      s.req? 2 = some q ∧ q.dev ≠ 0 ∧ q.served = false ∧ s.op? 3 = some opT) ∧
    (let s := sRs (reqT readK) (setT false [] [1, 2]);
      s.joined = true ∧ s.bootFail = false ∧ s.draining 0 0 0x80 = false ∧ refT = soloLeaf.lineRef 0 0 0x80 ∧ s.snoop? refT.line = none ∧
      s.lockedLine 0 0 0x80 soloLeaf = false ∧ s.lockedLine 0 0 0x80 repW = true ∧ heldFor s refT.line = false ∧
      heldFor { s with lwaits := [(1, 500)] } refT.line = true ∧
      s.repSet? 0 0 0x80 = some (setT false [] [1, 2]) ∧ s.repHome (setT false [] [1, 2]) = s.devnum ∧
      (sRs (reqT readK) (setT false [] [2, 1])).repHome (setT false [] [2, 1]) ≠ s.devnum) ∧
    (translate (sRs (reqT readK) (setT false [] [1, 2])) 0 0 0x80 = (.leaf soloLeaf, sRs (reqT readK) (setT false [] [1, 2])) ∧
      Quiet (sRs (reqT readK) (setT false [] [1, 2])) refT lineT) ∧
    (let s := { sRs (reqT readK) (setT false [] [1, 2]) with tlb := [⟨144, 0, 0, repW⟩] };
      translate s 0 0 0x80 = (.leaf repW, s) ∧ repW.host = false ∧ refT = repW.lineRef 0 0 0x80 ∧ Quiet s refT lineT) ∧
    (let s := { sRs (reqT readK) (setT true [updT false] [1, 2]) with tlb := [⟨144, 0, 0, repW⟩] };
      let v := { sRs (reqT readK) (setT true [updT false] [2, 1]) with tlb := [⟨144, 0, 0, repW⟩] };
      s.lockedLine 0 0 0x80 repW = true ∧ s.homeOf 0 0 0x80 = s.devnum ∧ v.lockedLine 0 0 0x80 repW = true ∧
      v.homeOf 0 0 0x80 ≠ v.devnum ∧ (∀ q ∈ v.reqs, q.standsIn = false) ∧
      ∀ b, let q := { reqT (.read [] none false false false false 0 []) with core := 144, op := none, served := b };
        q.standsIn = true ∧ ({ v with reqs := [q] } : State).reqs.find? (fun q => q.standsIn && q.part == 0 && q.asn == 0 &&
          q.va / 128 == 0x80 / 128) = some q) ∧
    ([1#8] ≠ [] ∧ 0xFF % 128 + [1#8].length ≤ 128) ∧
    (let q := { reqT readK with held := some (.lease 500) };
      let s := sRs q (setT false [] [1, 2]);
      s.req? 2 = some q ∧ s.ptp < 500 ∧ 500 ≤ ({ s with ptp := 500 } : State).ptp) ∧
    (let q := reqT repK;
      let s := sRs q (setT true [] [1, 2]);
      s.req? 2 = some q ∧ q.held = none ∧ q.served = false ∧ s.repSet? 0 0 0x80 = some (setT true [] [1, 2]) ∧
      (sRs q (setT false [] [1, 2])).repSet? 0 0 0x80 = some (setT false [] [1, 2]) ∧
      s.sets.find? (·.id == 60) = some (setT true [] [1, 2]) ∧ (setT true [] [1, 2]).toLock = none ∧
      (setT true [] [1, 2]).upds = [] ∧ s.joined = true ∧ ({ s with joined := false } : State).joined = false ∧ (sRs q (setT true [] [2, 1])).repSet? 0 0 0x80 = some (setT true [] [2, 1]) ∧
      (sRs q (setT true [] [2, 1])).sets.find? (·.id == 60) = some (setT true [] [2, 1])) ∧
    (let g := setT true [updT false] [1, 2];
      let s := sRs (reqT repK) g;
      s.upd? 60 1 = some (g, updT false) ∧ s.repHome g = s.devnum ∧ s.devnum ∉ (updT false).locked ∧
      2 ∉ (updT false).locked ∧ 2 ∈ g.devs ∧ (∀ d ∈ (setT true [updT false] [1]).devs, d = s.devnum)) ∧
    (let g := setT true [{ updT true with acked := [1] }] [2, 1];
      let s := sRs (reqT repK) g;
      s.upd? 60 1 = some (g, { updT true with acked := [1] }) ∧ s.repHome g ≠ s.devnum ∧ s.devnum ∈ [1] ∧
      s.devnum ∉ (updT true).acked) ∧
    (let g := setT true [] [2, 1];
      let s := sRs (reqT repK) g;
      s.farSet? 60 = some g ∧ g.applied < 1 ∧ g.applied < 2 ∧ 2 ≠ g.applied + 1 ∧ 0 ≤ g.applied ∧ 0x100 ∉ g.locks ∧
      ∀ u ∈ g.upds, u.seq ≠ 1) ∧
    (let g := setT false [updT true] [1, 2];
      let q := reqT repK;
      let s := sRs q g;
      s.upd? 60 1 = some (g, updT true) ∧ 1 = g.applied + 1 ∧
      refT = soloLeaf.lineRef 0 0 (updT true).va ∧ s.snoop? refT.line = none ∧ (updT true).data.length = 128 ∧
      (∃ d ∈ g.devs, d ≠ 1 ∧ d ∉ (updT true).acked) ∧ (updT true).src = some q.id ∧ s.req? q.id = some q ∧
      q.standsIn = false ∧ soloLeaf.host = false) ∧
    (translate (sRs (reqT readK) (setT false [updT true] [1])) 0 0 0x80 =
        (.leaf soloLeaf, sRs (reqT readK) (setT false [updT true] [1])) ∧
      Quiet (sRs (reqT readK) (setT false [updT true] [1])) refT lineT ∧
      InTimeAt (sRs (reqT readK) (setT false [updT true] [1])) refT lineT (sRs (reqT readK) (setT false [updT true] [1])).dclk ∧
      (∀ d ∈ (setT false [updT true] [1]).devs, d = 1 ∨ d ∈ (updT true).acked)) ∧
    (let q := { reqT (.read [] none false false false false 0 []) with core := 144, op := none, held := some (.lease 0) };
      (sRs q (setT true [updT false] [2, 1])).req? 2 = some q ∧ q.standsIn = true) ∧
    (let q := { reqT readK with held := some (.lease 0) };
      let s := sRs q (setT true [updT false] [2, 1]);
      s.req? 2 = some q ∧ q.standsIn = false ∧ s.repSet? 0 0 0x80 = some (setT true [updT false] [2, 1]) ∧
      s.repHome (setT true [updT false] [2, 1]) ≠ s.devnum) ∧
    (let q := { reqT readK with held := some (.lease 0) };
      let s := sRs q (setT true [updT false] [1, 2]);
      s.req? 2 = some q ∧ q.standsIn = false ∧ s.repSet? 0 0 0x80 = some (setT true [updT false] [1, 2]) ∧ (∀ G ∈ s.groups, G.replay = none) ∧
      s.repHome (setT true [updT false] [1, 2]) = s.devnum ∧
      overInterval (s.chip refT.chip) (readRts s refT lineT q.t) = false) ∧
    (let s := sRs (reqT repK) (setT false [] [1, 2]);
      entryOk s ⟨61, 0, 0, 0, 65536, [1]⟩ = false ∧ entryOk s ⟨61, 0, 0, 0, 65536, [1, 4608]⟩ = true ∧
      s.sets.find? (·.id == 61) = none ∧ entryOk s ⟨60, 0, 0, 0, 65536, [1, 4608]⟩ = true ∧
      s.sets.find? (·.id == 60) = some (setT false [] [1, 2])) :=
  ⟨by decide +kernel, by decide +kernel, by decide +kernel, ⟨rfl, rfl, by show 0 < 4; decide, rfl, rfl, rfl, rfl⟩,
    ⟨rfl, rfl, by decide +kernel, rfl, by show 0 < 4; decide, rfl, rfl, rfl, rfl⟩, by decide +kernel, by decide,
    by decide +kernel, by decide +kernel, by decide +kernel, by decide +kernel, by decide +kernel, by decide +kernel,
    ⟨rfl, ⟨rfl, by show 0 < 4; decide, rfl, rfl, rfl, rfl⟩, by unfold InTimeAt; decide +kernel, by decide⟩, by decide +kernel,
    by decide +kernel, by decide +kernel, by decide +kernel⟩

/-! ## Faults and resets -/

/-- The entry's line of the mapped page 0 in L2, with the state that a drain procedure of that page finds. -/
def refD : LineRef := ⟨0, 0, 0, 0x10000, 0x10000 / 128⟩
def lineD : L2Line := ⟨0, 0, 0, 0x10000, 0x10000 / 128, 5, 9, false, none, 0, none, none, 0⟩
def sDr : State := { sFs partT with l2 := [lineD] }

/-- FaultAndResetSteps. -/
theorem test_fault_and_reset_steps :
    (let q := { reqT readK with held := some .fault };
      let s : State := { sX readK with reqs := [q] };
      q ∈ s.reqs ∧ q.va / 65536 = 0x1234 / 65536 ∧ s.sx = [] ∧ s.mx = [] ∧ s.groupOf q.gang = some grpT ∧ grpT.ending = false ∧
      grpT.fatal = none ∧ 0 < s.parts.length) ∧
    (reqT readK ∈ (sX readK).reqs ∧ (reqT readK).held ≠ some .fault ∧ (reqT readK).dev = 0 ∧
      0 / 65536 ≤ (reqT readK).va / 65536 ∧ (reqT readK).va / 65536 < 0 / 65536 + [(0 : BitVec 64)].length) ∧
    ((sFs partT).smb = [] ∧ (sFs partT).reds = [] ∧ (sFs partT).owned = [] ∧ (sFs partT).reqs = [] ∧
      (sFs partT).rles = [] ∧ (dropPages (stopFills sDr 0 0 [0]) 0 0 [0]).walkHold 0 0 0 = none ∧
      walkSlot (dropPages (stopFills sDr 0 0 [0]) 0 0 [0]) 0 0 0 = some 0x10000 ∧ 0x10000 / 2 ^ 48 < 4 ∧ 0x10000 % 128 + 8 ≤ 128) ∧
    (let u := dropPages (stopFills sDr 0 0 [0]) 0 0 [0];
      Quiet u refD lineD ∧ u.snoop? refD.line = none ∧ InTimeAt u refD lineD sDr.dclk) ∧
    (let d : State := { sDr with owned := [{ ownTab with va := 0x20000 }] };
      drainBusy (drainBuffers (stopFills d 0 0 [0]) 0 0 [0]) 0 0 [0] = false ∧
      ∃ u h, rewriteEntries 0 0 (dropPages (drainBuffers (stopFills d 0 0 [0]) 0 0 [0]) 0 0 [0]) (List.zip [0] [0x3F]) = .held u h) ∧
    ((sX readK).hasPlace (.mem 16) = true ∧ (sX readK).hasPlace (.scratch 7 0) = true ∧ (sX readK).bad = [] ∧
      ([⟨.mem 16, true, 0, 5⟩] : List Damage).find? (·.loc == .mem 16) = some ⟨.mem 16, true, 0, 5⟩ ∧
      ([⟨.hbm 4, true, 0, 5⟩] : List Damage).find? (·.loc == .hbm 4) = some ⟨.hbm 4, true, 0, 5⟩) ∧
    (let c : L1Line := ⟨3, 0, 0, 0x7FFF80, List.replicate 128 0, .lt 0 8, 0, false, 0, 7⟩;
      let s : State := { sX readK with l1 := [c] };
      s.l1.find? (fun d => d.core == 3 && d.va / 128 % 256 == 2047 / 8 % 256 && d.way == 2047 % 8) = some c) ∧
    ((((sX readK).icache.filter (·.1 == 0))[0]?).isSome = true ∧
      (((sX readK).tlb.filter (·.core == 144 + 0))[0]?).isSome = true) ∧
    ((sFs partT).parts.length = 8 ∧ (∀ G ∈ (sFs partT).groups, G.part ≠ 7) ∧ (∀ q ∈ (sFs partT).reqs, q.part ≠ 7) ∧
      (∀ c ∈ (sFs partT).sx, c.part ≠ 7) ∧ (∀ g ∈ (sFs partT).ingest, g.part ≠ 7) ∧ (∀ l ∈ (sFs partT).launches, l.part ≠ 7) ∧
      (∀ x ∈ (sFs partT).granules, x.part = 7 → x.st ≠ some .m) ∧ leaseLeft (sFs partT) 7 = false ∧
      ∃ G ∈ (sFs partT).groups, G.part = 0) ∧
    (granulesOut (sB (.dstat 0) [granT (some .m) 0]) (fun _ => true) ≠ [] ∧
      granulesOut (sFs partT) (fun _ => true) = []) ∧
    (let x := { lineT with dirty := true };
      let s : State := { sX readK with l2 := [x] };
      x ∈ s.l2 ∧ x.pa * 128 < memKey 4 0 ∧ s.sigOk = true ∧ s.ports = false ∧ ({ s with ports := true } : State).ports = true ∧ ({ s with sigOk := false } : State).sigOk = false) :=
  ⟨by decide +kernel, by decide +kernel, by decide +kernel,
    ⟨⟨by decide +kernel, by decide +kernel, by decide +kernel, by decide +kernel, by decide +kernel, by decide +kernel⟩,
      by decide +kernel, by unfold InTimeAt; decide +kernel⟩,
    ⟨by decide +kernel, _, _, rfl⟩, by decide +kernel, by decide +kernel, by decide +kernel, by decide +kernel, by decide +kernel, by decide +kernel⟩

/-! ## The machine -/

/-- MemoryStaysCanonical: memory in canonical form before a step that answers a next state. -/
theorem test_memory_stays_canonical :
    State.reset.mem.wf = true ∧ ∃ t, step State.reset = .next t := ⟨rfl, _, rfl⟩

end Sys2Proof.Tests
end

