-- ==== Sys2Proof/Tests/Words.lean ====
section
/-!
SUPPORT. For each statement about words, a concrete state and operands that meet its hypotheses together.
-/

namespace Sys2Proof.Tests

set_option Elab.async false

open Sys2Proof Sys2Proof.Machine Sys2Proof.Safety Sys2Proof.Claims

/-- IntegerWords: IADD.64 n2, n1, n3 and PKHI.32 n2, n1, imm. -/
theorem test_integer_words :
    (∃ i o g r, IntForm i o g r ∧ Meets (sG []) (xG []) (intWordOf o g r)) ∧
    ∃ i o g h, PackForm i o g h ∧ Meets (sG []) (xG []) (packWordOf o g h) :=
  ⟨⟨_, _, _, _, .iadd ⟨0, 3, 2, 1, 3⟩, meets_of rfl (by decide +kernel) (by decide +kernel) rfl (by unfold NoTrap; decide +kernel)⟩,
    _, _, _, _, .pkhiG ⟨0, 2, 2, 1, 0x41⟩, meets_of rfl (by decide +kernel) (by decide +kernel) rfl (by unfold NoTrap; decide +kernel)⟩

/-- UnaryAndMultiplyAddWords: BSWAP.16 n2, n1 and IMADW n1, n2, n3. -/
theorem test_unary_and_multiply_add :
    (∃ i o l r, UnForm i o l r ∧ Meets (sG []) (xG []) (unWordOf o l r)) ∧
    ∃ i o r, MadForm i o r ∧ Meets (sG []) (xG []) (madWordOf o r) :=
  ⟨⟨_, _, _, _, .bswap ⟨0, 1, 2, 1⟩, meets_of rfl (by decide +kernel) (by decide +kernel) rfl (by unfold NoTrap; decide +kernel)⟩,
    _, _, _, .imadw ⟨0, 1, 2, 3⟩, meets_of rfl (by decide +kernel) (by decide +kernel) rfl (by unfold NoTrap; decide +kernel)⟩

/-- ComparesAndPredicateLogic: ICMPLT.8 p5, n1, n2 and PNOT p127, p0. -/
theorem test_compares_and_predicates :
    (∃ i o g r, CmpForm i o g r ∧ Meets (sG []) (xG []) (cmpWordOf o g r)) ∧
    ∃ i d a b f, PlogForm i d a b f ∧ Meets (sG []) (xG []) (plogWordOf d a b f) :=
  ⟨⟨_, _, _, _, .icmplt ⟨0, 5, 1, 2⟩, meets_of rfl (by decide +kernel) (by decide +kernel) rfl (by unfold NoTrap; decide +kernel)⟩,
    _, _, _, _, _, .pnot ⟨127, 0⟩, meets_of rfl (by decide +kernel) (by decide +kernel) rfl (by unfold NoTrap; decide +kernel)⟩

/-- FloatingPointWords: one word of each of the five kinds. -/
theorem test_floating_point_words :
    (∃ i o g r, FltForm i o g r ∧ Meets (sG []) (xG []) (fltWordOf o g r)) ∧
    (∃ i o p c, FmaForm i o p c ∧ Meets (sG []) (xG []) (fmaWordOf o p c)) ∧
    (∃ i o f, DotForm i o f ∧ Meets (sG []) (xG []) (dotWordOf o f)) ∧
    (∃ i o f, Fma4Form i o f ∧ Meets (sG []) (xG []) (fma4WordOf o f)) ∧
    ∃ i o r, FunForm i o r ∧ Meets (sG []) (xG []) (funWordOf o r) :=
  ⟨⟨_, _, _, _, .fadd ⟨0, 3, 2, 1, 3⟩, meets_of rfl (by decide +kernel) (by decide +kernel) rfl (by unfold NoTrap; decide +kernel)⟩,
    ⟨_, _, _, _, .fnma ⟨0, 1, 1, 2, 3⟩, meets_of rfl (by decide +kernel) (by decide +kernel) rfl (by unfold NoTrap; decide +kernel)⟩,
    ⟨_, _, _, .bf16 ⟨0, 1, 2, 3⟩, meets_of rfl (by decide +kernel) (by decide +kernel) rfl (by unfold NoTrap; decide +kernel)⟩,
    ⟨_, _, _, .f16 ⟨0, 1, 2, 3⟩, meets_of rfl (by decide +kernel) (by decide +kernel) rfl (by unfold NoTrap; decide +kernel)⟩,
    _, _, _, .frnd ⟨0, 2, 2, 1⟩, meets_of rfl (by decide +kernel) (by decide +kernel) rfl (by unfold NoTrap; decide +kernel)⟩

/-- ConversionsAndFloatCompares: FDEC.f16 under the valid format of NFMT value 0x347 and FCMPLT.32. -/
theorem test_conversions_and_compares :
    (∃ i D, CvtForm i D ∧ Meets (sG []) (xG []) D) ∧
    ∃ i o r, FcmpForm i o r ∧ Meets (sG []) (xG []) (fcmpWordOf o r) :=
  ⟨⟨_, _, .fdec ⟨0, 1, 2, 1, 0⟩, meets_of rfl (by decide +kernel) (by decide +kernel) (by decide +kernel) (by unfold NoTrap; decide +kernel)⟩,
    _, _, _, .fcmplt ⟨2, 5, 1, 2⟩, meets_of rfl (by decide +kernel) (by decide +kernel) rfl (by unfold NoTrap; decide +kernel)⟩

/-- ScoreboardedLaneWords: IREMZ.64 by a nonzero divisor, FDIV.64 0 by 1, FSQRT.32 0, and CEXP2.f32 with 24 iterations. -/
theorem test_scoreboarded_words :
    (∃ i o sg rem, DivForm i o sg rem ∧ Meets (sG []) (xG []) (divWordOf o sg rem)) ∧
    (∃ o, Meets (sG []) (xG []) (fdivWordOf o)) ∧
    (∃ o, Meets (sG []) (xG []) (fsqrtWordOf o)) ∧
    ∃ i o p f, CfForm i o p f ∧ Issues (sG []) (xG []) (cfWordOf o p (xG []).hints f).shape ∧
      NoCommonFault (sG []) (xG []) (cfWordOf o p (xG []).hints f).shape ∧ cfBusy (sG []) (xG []) = false ∧
      NoTrap (xG []) (xG []).enOf ((cfWordOf o p (xG []).hints f).out (xG []) (allVals (sG []).beat (xG []).g [.s7 o.a])) :=
  ⟨⟨_, _, _, _, .iremz ⟨0, 3, 2, 1, 3⟩, meets_of rfl (by decide +kernel) (by decide +kernel) rfl (by unfold NoTrap; decide +kernel)⟩,
    ⟨⟨0, 3, 2, 1, 3⟩, meets_of rfl (by decide +kernel) (by decide +kernel) rfl (by unfold NoTrap; decide +kernel)⟩,
    ⟨⟨0, 2, 2, 1⟩, meets_of rfl (by decide +kernel) (by decide +kernel) rfl (by unfold NoTrap; decide +kernel)⟩,
    _, _, _, _, .cexp2 ⟨24, 0, 2, 1⟩, ⟨rfl, rfl, by decide +kernel, by decide +kernel, rfl⟩, no_common (xG_plain []),
      by decide +kernel, by unfold NoTrap; decide +kernel⟩

/-- CrossLaneWords: XSHF.32 by an immediate. -/
theorem test_cross_lane_words : ∃ i o g gang r, CrossForm i o g gang r ∧ Meets (sG []) (xG []) (crossWordOf o g gang r) :=
  ⟨_, _, _, _, _, .xshfG ⟨0, 2, 2, 1, 0x41⟩, meets_of rfl (by decide +kernel) (by decide +kernel) (by decide +kernel) (by unfold NoTrap; decide +kernel)⟩

/-- Reductions: VFSCAN.64 exclusive. -/
theorem test_reductions : ∃ i st d a hm R, RedForm i st d a hm R ∧ Issues (sG []) (xG []) (redShape st d a hm) ∧
    NoCommonFault (sG []) (xG []) (redShape st d a hm) ∧ (xG []).g.unified = true ∧
    NoTrap (xG []) (xG []).redEn (redOut R (xG []) (allVals (sG []).beat (xG []).g [.s7 a])) :=
  ⟨_, _, _, _, _, _, .vfscan ⟨0, 3, 2, 1, 1⟩, ⟨rfl, rfl, by decide +kernel, by decide +kernel, rfl⟩,
    no_common (xG_plain []), rfl, by unfold NoTrap; decide +kernel⟩

/-- PredicateTransferAndSelect: PGET p64 and SEL p1. -/
theorem test_predicate_transfer : (∃ i D, PxForm i D ∧ Meets (sG []) (xG []) D) ∧ ∃ i D, PxForm i D ∧ Meets (sG []) (xG []) D :=
  ⟨⟨_, _, .pget ⟨0, 64⟩, meets_of rfl (by decide +kernel) (by decide +kernel) rfl (by unfold NoTrap; decide +kernel)⟩,
    _, _, .sel ⟨0, 1, 1, 1, 2⟩, meets_of rfl (by decide +kernel) (by decide +kernel) rfl (by unfold NoTrap; decide +kernel)⟩

/-- MomentWords: MTANH m2, m1 and MCOL.SMP m1, n1, with moments enabled. -/
theorem test_moment_words : (∃ i D, MomForm (momOn (sG [])) i D ∧ Meets (sG []) (xG []) D) ∧ ∃ i D, MomForm (momOn (sG [])) i D ∧ Meets (sG []) (xG []) D :=
  ⟨⟨_, _, .mtanh true ⟨0, 2, 1⟩, meets_of rfl (by decide +kernel) (by decide +kernel) rfl (by unfold NoTrap; decide +kernel)⟩,
    _, _, .mcolSmp true ⟨0, 1, 1⟩, meets_of rfl (by decide +kernel) (by decide +kernel) rfl (by unfold NoTrap; decide +kernel)⟩

/-- IntegerResultRules: IADDS on the most significant byte, whose sum saturates. -/
theorem test_integer_result_rules : (∃ r f, IntRule r f) ∧ 7 < 64 / widthOf 0#2 ∧
    outS (widthOf 0#2) ((elemAt 0x7F00000000000000#64 0#2 7).toInt + (elemAt 0x0100000000000000#64 0#2 7).toInt) ∧
    rIsub ≠ rIadds :=
  ⟨⟨_, _, .iadds⟩, by decide, by unfold outS; decide, fun h => by
    have e := congrFun (congrFun (congrFun h 8) 0) 1
    exact absurd e (by decide)⟩

/-- DecodeGivesBackWhatEncodeMade, EncodeGivesBackWhatDecodeRead and ReservedPrimariesTrap. -/
theorem test_decode_and_encode :
    (∃ i w, Instr.wf i = true ∧ encode i = some w) ∧ (∃ w i, decodeWord w = .ok i) ∧
    (0xFFFFFFFF#32).extractLsb' 26 6 = 0x3F#6 ∧ (0x2C000000#32).extractLsb' 26 6 = 0x0B#6 ∧
    (0xF8000000#32).extractLsb' 26 6 = 0x3E#6 :=
  ⟨⟨.iaddG ⟨0, 3, 2, 1, 95⟩, _, rfl, rfl⟩, ⟨0, .hnop, rfl⟩, by decide, by decide, by decide⟩

/-- The state whose next step fetches IADD.64 n2, n1, −1. -/
def sF : State := State.reset.withFetchWord 32 0x201880DF

/-- StepRunsTheDecodedWord: the turn is granted, and the word at the counter is fetched; a word of OP 0x3D with
reserved bits does not decode. FetchReadsTheWordInMemoryOrder: the page is executable and the line cached. -/
theorem test_step_and_fetch :
    sF.agenda = [] ∧ sF.turns = [⟨0, 0, ⟨1, none⟩⟩] ∧
    (∃ x, Granted { sF with turns := [] } ⟨0, 0, ⟨1, none⟩⟩ x ∧ fetch { sF with turns := [] } x = .word 0x201880DF#32 ∧
      gaddr sF x.pc = some (0, 0) ∧ sF.tlb? x.grp.core x.grp.part x.grp.asn 0 = some soloLeaf ∧ soloLeaf.x = true ∧
      sF.icache.contains (x.grp.core, x.grp.part, x.grp.asn, 0 / 128) = true) ∧
    (∃ i r u, decode (bytesOfWord 0x201880DF#32) = .ok (i, r) ∧
      exec i { sF with turns := [], cur := some ⟨1, none⟩, held := false } = .next u ∧ u.held = false) ∧
    (∃ e, decode (bytesOfWord 0xF7FFFFFF#32) = .error e) ∧
    ({ soloLeaf with x := false }).x = false ∧
    (let s := { sF with usedPipes := [(0, 0, 0)] };
      let x : Cx := ⟨gangT [], soloGroup, [0, 1, 2, 3]⟩;
      State.streamOf { s with turns := [] } ⟨1, none⟩ = some x ∧ x.ready { s with turns := [] } = true ∧ x.shutOut s = true ∧
        fetch { s with turns := [] } x = .word 0x201880DF#32 ∧
        ∃ i r u, decode (bytesOfWord 0x201880DF#32) = .ok (i, r) ∧
          exec i { s with turns := [], cur := some ⟨1, none⟩, held := false } = .next u ∧ u.held = false) ∧
    (fld (0xE000000000000000 : Word) 61 3 ≠ 0 ∧ sF.ports = false ∧ fld (0x1000000000000 : Word) 48 13 ≠ 0 ∧
      ({ sF with joined := true } : State).joined = true ∧ 4609 ≤ fld (0x1201000000000000 : Word) 48 13 ∧
      gaddr sF (0xE000000000000000 : Word) = none) :=
  ⟨rfl, rfl, ⟨⟨gangT [], soloGroup, [0, 1, 2, 3]⟩, ⟨rfl, rfl, by decide +kernel, by decide +kernel⟩, by decide +kernel,
    rfl, rfl, rfl, rfl⟩, ⟨.iaddG ⟨0, 3, 2, 1, 95⟩, [], _, rfl, rfl, rfl⟩, ⟨_, rfl⟩, rfl,
    ⟨rfl, by decide +kernel, by decide +kernel, by decide +kernel, .iaddG ⟨0, 3, 2, 1, 95⟩, [], _, rfl, rfl, rfl⟩, by decide +kernel⟩

/-- The gang with every slice inside the handler, and the group without a handler. -/
def gangH : Gang := { gangT [] with slices := (gangT []).slices.map fun sl => { sl with trapcause := 1#64 <<< 63 } }
def sH : State := { sG [] with gangs := [gangH] }
def xH : Cx := ⟨gangH, grpT, [0, 1, 2, 3]⟩
def sN : State := { sG [] with groups := [soloGroup] }
def xN : Cx := ⟨gangT [], soloGroup, [0, 1, 2, 3]⟩

/-- TrapsEnterTheHandler: outside the handler, inside it, and without one; debug halt on, a group that is to stop, and one
that has. -/
theorem test_traps :
    (let s : State := { sG [] with dbgctl := 1, parts := [partT] };
      StreamReady s (xG []) ∧ (s.dbgctl.getLsbD 0 && (s.part 0).debug) = true) ∧
    (let s : State := { sG [] with groups := [{ grpT with halting := true }] };
      (∃ G ∈ s.groups, G.id = (gangT []).group ∧ G.halting = true) ∧ (∀ G ∈ (sG []).groups, G.halting = false) ∧
      (⟨gangT [], { grpT with halted := true }, [0]⟩ : Cx).grp.halted = true) ∧
    (CanTrap (xG []) ∧ StreamReady (sG []) (xG []) ∧ ((sG []).dbgctl.getLsbD 0 && ((sG []).part 0).debug) = false) ∧
    (StreamReady sH xH ∧ (∀ i ∈ xH.ss, ∃ sl, xH.g.slice? i = some sl ∧ sl.inHandler = true)) ∧
    (∃ i ∈ (xG []).ss, ∃ sl, (xG []).g.slice? i = some sl ∧ sl.inHandler = false) ∧
    (StreamReady sN xN ∧ xN.grp.trapvec = 0 ∧ xN.grp.fatal = none) := by
  refine ⟨⟨⟨rfl, rfl, rfl, rfl⟩, by decide +kernel⟩, by decide +kernel, ⟨⟨by decide, fun i _ sl e => ?_⟩, sG_ready [], rfl⟩, ⟨⟨rfl, rfl, rfl, rfl⟩, ?_⟩,
    ⟨0, by decide, _, rfl, rfl⟩, ⟨⟨rfl, rfl, rfl, rfl⟩, rfl, rfl⟩⟩
  · exact slice_has (P := fun sl => sl.trapcause.getLsbD 63 = false) (by decide +kernel) e
  · intro i hi
    have : i = 0 ∨ i = 1 ∨ i = 2 ∨ i = 3 := by simpa [xH] using hi
    rcases this with h | h | h | h <;> subst h <;> exact ⟨_, rfl, by decide +kernel⟩

/-- HintAndGuardWords and BranchesAndJumps: a stream performs the word; a per-slice branch. -/
theorem test_hints_and_branches : (sG []).stream? = some (xG []) ∧ StreamReady (sG []) (xG []) ∧
    StreamReady sP xP ∧ ∃ i o dec, BrForm i o dec :=
  ⟨rfl, sG_ready [], sP_ready, _, _, _, .all ⟨3, 0x1FFFF⟩⟩

/-- The gang with one return address on every stack, and with full stacks. -/
def gangR (n : Nat) : Gang := { gangT [] with slices := (gangT []).slices.map fun sl => { sl with rstack := List.replicate n 0x40 } }
def sR (n : Nat) : State := { sG [] with gangs := [gangR n] }
def xR (n : Nat) : Cx := ⟨gangR n, grpT, [0, 1, 2, 3]⟩

/-- CallsAndReturns: stacks with room (15 entries), filled (16), with an entry and empty; aligned equal targets. -/
theorem test_calls_and_returns :
    (Passes (sR 15) (xR 15) callShape [] ∧ EverySlice (xR 15) fun sl => sl.rstack.length < 16) ∧
    (Passes (sG []) (xG []) (jmpiShape ⟨1⟩) [] ∧ TargetsAgree (sG []) (xG []) (jmpiShape ⟨1⟩)) ∧
    (Passes (sG []) (xG []) (calliShape ⟨1⟩) [] ∧ TargetsAgree (sG []) (xG []) (calliShape ⟨1⟩) ∧
      EverySlice (xG []) fun sl => sl.rstack.length < 16) ∧
    (StreamReady (sR 1) (xR 1) ∧ EverySlice (xR 1) fun sl => sl.rstack ≠ []) ∧
    (∃ i ∈ (xG []).ss, ∃ sl, (xG []).g.slice? i = some sl ∧ sl.rstack = []) ∧
    (Issues (sR 16) (xR 16) callShape ∧ NoCommonFault (sR 16) (xR 16) callShape ∧
      ∃ i ∈ (xR 16).ss, ∃ sl, (xR 16).g.slice? i = some sl ∧ 16 ≤ sl.rstack.length) := by
  have plain : ∀ n, ∀ sl ∈ (xR n).g.slices, sl.stallchk = 0 ∧ sl.status = 0 := by
    intro n sl h
    obtain ⟨o, ho, rfl⟩ := List.mem_map.mp h
    exact xG_plain [] o ho
  have agree : ∀ W : Shape, W.srcs = [.s7 1] → TargetsAgree (sG []) (xG []) W := by
    intro W e
    have z : ∀ L, src (sG []) (xG []) W L 0 = src (sG []) (xG []) (jmpiShape ⟨1⟩) L 0 := fun L => by
      unfold src; rw [e]; rfl
    have all : ∀ L, L < 16 → src (sG []) (xG []) (jmpiShape ⟨1⟩) L 0 = 0 := by decide +kernel
    have four : ∀ i ∈ (xG []).ss, i < 4 := by decide
    have pos : ∀ sl ∈ (xG []).g.slices, ∀ j ∈ sl.activePos, j < 4 := by decide +kernel
    have act : ∀ L ∈ (xG []).actives, L < 16 := by decide +kernel
    refine ⟨fun L hL => ?_, fun i hi sl es j hj k hk => ?_⟩
    · rw [z, all L (act L hL)]; rfl
    · have m := List.mem_of_getElem? es
      have hi := four i hi
      have hj := pos sl m j hj
      have hk := pos sl m k hk
      rw [z, z, all _ (by omega), all _ (by omega)]
  exact ⟨⟨⟨⟨rfl, rfl, rfl, rfl, rfl⟩, no_common (plain 15), rfl⟩, fun i _ sl e =>
      slice_has (P := fun sl => sl.rstack.length < 16) (by decide +kernel) e⟩,
    ⟨passes_of rfl rfl (by decide +kernel) rfl, agree _ rfl⟩,
    ⟨passes_of rfl rfl (by decide +kernel) rfl, agree _ rfl, fun i _ sl e =>
      slice_has (P := fun sl => sl.rstack.length < 16) (by decide +kernel) e⟩,
    ⟨⟨rfl, rfl, rfl, rfl⟩, fun i _ sl e => slice_has (P := fun sl => sl.rstack ≠ []) (by decide +kernel) e⟩,
    ⟨0, by decide, _, rfl, rfl⟩,
    ⟨rfl, rfl, rfl, rfl, rfl⟩, no_common (plain 16), 0, by decide, _, rfl, by decide⟩

/-- The parted gang with every slice waiting at REGANG words, at `a` or, for slice 3, at `b`. -/
def gangQ (a b : Word) : Gang := { gangP with
  slices := imap (fun i sl => { sl with run := .regang (if i = 3 then b else a) }) 0 gangP.slices }

/-- Every lane's load of one bad word is still to be performed. -/
def sDie : State := { sG [] with
  passes := [⟨9, 1, [0, 1, 2, 3], 5, some 3, none, (rangeFrom 0 16).map fun L => (L, 7, 0, 8, [])⟩]
  bad := [⟨.scratch 7 0, false, 0, 0⟩] }

/-- GangControlWords: unified and parted, nothing outstanding, a role that is declared; slices that have not all
arrived, that arrived at one address, and that arrived at two. -/
theorem test_gang_control :
    ((xG []).g.unified = true ∧ (xG []).outstanding (sG []) = false ∧ (0#3).toNat < (xG []).grp.nRoles) ∧
    (StreamReady sP xP ∧ xP.g.unified = false ∧ xP.outstanding sP = false) ∧
    (settled (sG []) (xG []) = (sG [], some (xG [])) ∧ settled sP xP = (sP, some xP)) ∧
    (sDie.stream? = some (xG []) ∧ (xG []).pending sDie [] .none = false ∧ groupDamaged sDie (xG []) [] [] = false ∧
      let u := sDie.repairWhere (xG []) ((xG []).readsWhole [] [])
      (xG []).outstanding u = false ∧ ∃ t, settled u (xG []) = (t, none)) ∧
    (gangP.unified = false ∧ ∃ i ∈ gangP.liveSlices, ∃ sl, gangP.slice? i = some sl ∧ ∀ a, sl.run ≠ .regang a) ∧
    ((gangQ 8 8).liveSlices ≠ [] ∧ (∀ i ∈ (gangQ 8 8).liveSlices, ∃ sl, (gangQ 8 8).slice? i = some sl ∧
      sl.run = .regang 8)) ∧
    (∀ i ∈ (gangQ 8 12).liveSlices, ∃ sl, (gangQ 8 12).slice? i = some sl ∧ sl.run = .regang (if i = 3 then 12 else 8)) := by
  refine ⟨by decide +kernel, ⟨sP_ready, rfl, by decide +kernel⟩, ⟨rfl, rfl⟩,
    ⟨rfl, rfl, by decide +kernel, by decide +kernel, _, Prod.ext rfl (by decide +kernel)⟩,
    ⟨rfl, 0, by decide +kernel, _, rfl, fun a h => RunState.noConfusion h⟩, ⟨by decide +kernel, ?_⟩, ?_⟩ <;>
  · intro i hi
    have : i = 0 ∨ i = 1 ∨ i = 2 ∨ i = 3 := by
      have : i ∈ [0, 1, 2, 3] := hi
      simpa using this
    rcases this with h | h | h | h <;> subst h <;> exact ⟨_, rfl, rfl⟩

/-- IdsLayout at the upper ends of the ranges. -/
theorem test_ids : ∃ G : Group, G.teamIdx < 2 ^ 32 ∧ G.core < 144 ∧ G.idx < 8 ∧ G.part < 8 ∧
    G.ids = 0xFFFFFFFF008F0707#64 :=
  ⟨{ grpT with teamIdx := 0xFFFFFFFF, core := 143, idx := 7, part := 7 }, by decide +kernel⟩

/-- SystemReads: CSRR of FFLAGS and of the last RETSTAT register, CLK, DEVR at the ends of both ranges. -/
theorem test_system_reads :
    (csrReadable ((sG []).part 0) 1 = true ∧ csrReadable ((sG []).part 0) 31 = true ∧ (xG []).flagsPending (sG []) = false ∧
      Passes (sG []) (xG []) (readsTo 0 2 true) []) ∧
    (3#8).toNat ≤ 3 ∧ 16 ≤ (0x10#8).toNat ∧ (0x9F#8).toNat ≤ 159 :=
  ⟨⟨by decide +kernel, by decide +kernel, by decide +kernel, passes_of rfl rfl (by decide +kernel) rfl⟩, by decide,
    by decide, by decide⟩

/-- SystemWrites: CSRW to STALLCHK, TRAPPC, TRAPCAUSE and TRAPVEC, GSET and PSET. -/
theorem test_system_writes :
    ((5#6).toNat ≤ 5 ∧ (11#6).toNat = 11 ∧ (12#6).toNat = 12 ∧ (14#6).toNat = 14) ∧
    Passes (sG []) (xG []) (readShape 0 1) [] ∧ (xG []).g.unified = true ∧
    Passes (sG []) (xG []) (psetShape ⟨0, 64, 1, 2⟩) [] :=
  ⟨by decide, passes_of rfl rfl (by decide +kernel) rfl, rfl, passes_of rfl rfl (by decide +kernel) rfl⟩

/-- ControlRegisterMasks at the largest cause and code. -/
theorem test_trap_cause_word : 255 < 256 ∧ 65535 < 65536 ∧ trapCauseWord 255 65535 true = 0x80000000FFFF01FF#64 := by
  decide

/-- The gang with a parked register in slot 5 and a parked queue in slot 6; and a group whose rows are all taken. -/
def gangK : Gang := { gangT [] with
  park := modAt (fun _ => some ⟨false, [(0, [7])], 1, 0⟩) 5 (modAt (fun _ => some ⟨true, [(0, List.replicate 16 7)], 4, 0⟩) 6
    (gangT []).park) }
def sK : State := { sG [] with gangs := [gangK] }
def xK : Cx := ⟨gangK, grpT, [0, 1, 2, 3]⟩
def grpF : Group := { grpT with accRows := 0 }
def sFull : State := { sG [] with groups := [grpF], windows := [{ winT with rsv := 0 }] }
def xFull : Cx := ⟨gangT [], grpF, [0, 1, 2, 3]⟩

/-- ParkingWords: an empty slot with rows free and without, a parked register, a parked queue. -/
theorem test_parking :
    (xK.g.unified = true ∧ Passes sK xK (parkShape ⟨0, 63, 0, 1⟩ grpT.mom) [] ∧ xK.g.slot 63 = none ∧
      1 ≤ sK.freeAcc grpT + sK.freeRsv grpT) ∧
    (Passes sFull xFull (parkShape ⟨0, 0, 0, 1⟩ grpF.mom) [] ∧ xFull.g.slot 0 = none ∧
      sFull.freeAcc grpF + sFull.freeRsv grpF = 0) ∧
    (Passes sK xK (unparkShape ⟨0, 5, 0, 2⟩ grpT.mom) [] ∧ ∃ p, xK.g.slot 5 = some p ∧ p.spq = false) ∧
    (Passes sK xK (spqShape ⟨0, 0⟩ none) [] ∧ xK.queuePending = false ∧ queueUnderrun xK = [] ∧ xK.g.slot 0 = none ∧
      xK.g.slices.length ≤ sK.freeAcc grpT + sK.freeRsv grpT) ∧
    (Passes sK xK (spqShape ⟨0, 6⟩ (some (1, 64))) [] ∧ ∃ p, xK.g.slot 6 = some p ∧ p.spq = true) := by
  have plain : ∀ sl ∈ xK.g.slices, sl.stallchk = 0 ∧ sl.status = 0 := xG_plain []
  have full : ∀ sl ∈ xFull.g.slices, sl.stallchk = 0 ∧ sl.status = 0 := xG_plain []
  exact ⟨⟨rfl, ⟨⟨rfl, rfl, rfl, by decide +kernel, rfl⟩, no_common plain, rfl⟩, by decide +kernel, by decide +kernel⟩,
    ⟨⟨⟨rfl, rfl, rfl, by decide +kernel, rfl⟩, no_common full, rfl⟩, by decide +kernel, by decide +kernel⟩,
    ⟨⟨⟨rfl, rfl, rfl, by decide +kernel, rfl⟩, no_common plain, rfl⟩, _, rfl, rfl⟩,
    ⟨⟨⟨rfl, rfl, rfl, by decide +kernel, rfl⟩, no_common plain, rfl⟩, by decide +kernel, by decide +kernel, by decide +kernel,
      by decide +kernel⟩,
    ⟨⟨rfl, rfl, rfl, by decide +kernel, rfl⟩, no_common plain, rfl⟩, _, rfl, rfl⟩
/-- A state like `sG []` in which every lane's n1 and n2 hold values, its groups, windows and pages are given. -/
def gangA (a b : Word) : Gang := { gangT [] with slices := (gangT []).slices.map fun sl =>
  { sl with lanes := sl.lanes.map fun l => { l with n := modAt (fun _ => a) 1 (modAt (fun _ => b) 2 l.n) } } }
def sA (a b : Word) (l : Leaf) : State := { sG [] with gangs := [gangA a b], tlb := [⟨0, 0, 0, l⟩] }
def xA (a b : Word) : Cx := ⟨gangA a b, grpT, [0, 1, 2, 3]⟩

theorem xA_plain (a b : Word) : ∀ sl ∈ (xA a b).g.slices, sl.stallchk = 0 ∧ sl.status = 0 := by
  intro sl h
  obtain ⟨o, ho, rfl⟩ := List.mem_map.mp h
  exact xG_plain [] o ho

theorem passes_at {a b : Word} {l : Leaf} {W : Shape} {cs : List (Nat × Word)} (h1 : W.legal = true)
    (h2 : hintsOk Hints.none W.srcs W.hdst W.hm = true)
    (h3 : (xA a b).pending (sA a b l) W.srcs (W.dest Hints.none) = false) (h4 : cs = []) :
    Passes (sA a b l) (xA a b) W cs :=
  ⟨⟨rfl, h1, h2, h3, rfl⟩, no_common (xA_plain a b), h4⟩

/-- The barrier at offset 0, with a slice that waits for it or not. -/
def locT : BarLoc := ⟨0, 0⟩

/-- An operation of the stream; and the core one of a pair, with that operation out. -/
def opP : Op := ⟨3, 1, [0, 1, 2, 3], some 2, none, false, [], [], [], false, none, 0, 1, 0, false, none, false, [], [], [], [], 0,
  none, false⟩
def sPr : State := { sG [0] with windows := [{ winT with partner := some 1 }], ops := [opP] }

/-- BarrierWords: the barrier at offset 0 under every word: recorded, and unrecorded at 0x20; nobody waits; the
phase still to complete (parity 0) and completed (parity 1). -/
theorem test_barriers :
    (BarReady (sG [0]) (xG [0]) 0 locT ∧ BarReady (sG [0x20]) (xG [0x20]) 0 ⟨0, 0x20⟩ ∧ (59#6).toNat < 60) ∧
    (sG [0]).waitedOn 1 locT = false ∧ (∀ H ∈ (sG [0]).groups, H.team = 1 → ∀ b, H.bar? locT = some b → b.out = 0) ∧
    (grpT.bar? ⟨0, 0x20⟩ = none ∧ grpT.bars.length < 16) ∧
    (NotDropped (xG [0]) locT ∧ Released (sG [0]) (xG [0])) ∧
    (parityOf grpT (gangT [0]) locT 0 = some 0 ∧ parityOf grpT (gangT [0]) locT 2 = some 1 ∧
      ((sG [0]).bar 1 locT).phase % 2 = 0) ∧
    (∃ b, grpT.bar? locT = some b ∧ b.out = 0) ∧ (2#2 : BitVec 2) ≠ 3#2 ∧
    (BarReady sPr (xG [0]) 0 locT ∧ sPr.pairTeam grpT = true ∧ (xG [0]).opsOut sPr ≠ []) := by
  have bars : ∀ b, grpT.bar? locT = some b → b = ⟨⟨0, 0⟩, false, [], [], [], 0⟩ := fun b h => by
    have : grpT.bar? locT = some ⟨⟨0, 0⟩, false, [], [], [], 0⟩ := rfl
    rw [this] at h; exact (Option.some.inj h).symm
  exact ⟨⟨⟨sG_ready _, rfl, by decide, rfl, by decide⟩, ⟨sG_ready _, rfl, by decide, rfl, by decide⟩, by decide⟩,
    by decide +kernel, (fun H hH _ b hb => by
      have : H = grpT := by simpa [sG] using hH
      subst this; rw [bars b hb]),
    ⟨rfl, by decide⟩, ⟨fun b hb i _ => by rw [show b = _ from bars b hb]; rfl, .inl rfl⟩,
    ⟨rfl, rfl, by decide +kernel⟩, ⟨_, rfl, rfl⟩, by decide, ⟨⟨rfl, rfl, rfl, rfl⟩, rfl, by decide, rfl, by decide⟩, rfl, by decide⟩

/-- BarrierPhaseRule: counts below and at the expectation, a carried timestamp, fields at their ends. -/
theorem test_phase_rule :
    ((sG []).bar 1 locT).expa ≤ ((sG []).bar 1 locT).cnta ∧
    ((sG []).bar 1 locT).expb + ((sG []).bar 1 locT).xb ≤ ((sG []).bar 1 locT).cntb ∧
    (((sG []).setBar 1 locT ⟨1, 0, 0, 0, 0, false, false, false, 0, 0, 0⟩).bar 1 locT).cnta <
      (((sG []).setBar 1 locT ⟨1, 0, 0, 0, 0, false, false, false, 0, 0, 0⟩).bar 1 locT).expa ∧
    (∃ o : BarObj, o.expa < 2 ^ 32 ∧ o.cnta < 2 ^ 32 ∧ o.expb < 2 ^ 32 ∧ o.xb < 2 ^ 32 ∧ o.cntb < 2 ^ 32 ∧
      o.phase < 2 ^ 32 ∧ o.ainf < 2 ^ 32 ∧ o.tv = true ∧ o.expa = 2 ^ 32 - 1) :=
  ⟨by decide +kernel, by decide +kernel, by decide +kernel,
    ⟨2 ^ 32 - 1, 1, 2, 3, 4, true, false, true, 5, 6, 2 ^ 32 - 1⟩, by decide⟩

/-- ScratchpadBytes and ScratchWords: a pair load of n2, n3 from offset 0x40, and a pair store of them to it. -/
theorem test_scratch :
    winT.mem.wf = true ∧
    (∃ i W0 z d addr, LdsForm i W0 z d addr ∧ scratchSize z = 16 ∧ (xA 0x40 7).morePending (d + 1) = false ∧
      (xA 0x40 7).acqHeld (sA 0x40 7 soloLeaf) = false ∧
      Passes (sA 0x40 7 soloLeaf) (xA 0x40 7) (ldsShape W0 z d) (scratchCauses (sA 0x40 7 soloLeaf) false (scratchSize z)
        addr (xA 0x40 7) (allVals (sA 0x40 7 soloLeaf).beat (xA 0x40 7).g (ldsShape W0 z d).srcs))) ∧
    ∃ i W0 z vf k addr, StsForm i W0 z vf k addr ∧ scratchSize z = 16 ∧
      Passes (sA 0x40 7 soloLeaf) (xA 0x40 7) (stsShape W0 z vf) (scratchCauses (sA 0x40 7 soloLeaf) true (scratchSize z)
        addr (xA 0x40 7) (allVals (sA 0x40 7 soloLeaf).beat (xA 0x40 7).g (stsShape W0 z vf).srcs)) :=
  ⟨rfl, ⟨_, _, _, _, _, .lds ⟨0, 0, 2, 1, 0⟩, by decide, by decide +kernel, rfl,
      passes_at (by decide +kernel) (by decide +kernel) (by decide +kernel) (by decide +kernel)⟩,
    _, _, _, _, _, _, .sts ⟨0, 0, 2, 1, 0⟩, by decide,
      passes_at (by decide +kernel) (by decide +kernel) (by decide +kernel) (by decide +kernel)⟩

/-- GlobalLoads: LDG of 1 byte at the last address of the page, and LDO of 8 bytes at system scope. -/
theorem test_global_loads :
    (∃ i W R m addr, LoadForm i W R m addr ∧
      Reaches (sA 0xFFFF 0 soloLeaf) (xA 0xFFFF 0) W false (accAll R addr) [] ∧ (m (sA 0xFFFF 0 soloLeaf) (xA 0xFFFF 0)).acq = none) ∧
    ∃ i W R m addr, LoadForm i W R m addr ∧
      Reaches (sA 0xFFF8 0 soloLeaf) (xA 0xFFF8 0) W false (accAll R addr) [] ∧
      (m (sA 0xFFF8 0 soloLeaf) (xA 0xFFF8 0)).acq = some 4 :=
  ⟨⟨_, _, _, _, _, .ldg ⟨0, 0, 2, 1, 0⟩, ⟨passes_at (by decide +kernel) (by decide +kernel) (by decide +kernel)
      (by decide +kernel), by decide +kernel⟩, rfl⟩,
    _, _, _, _, _, .ldo ⟨0, 1, 2, 1, 4, 0⟩, ⟨passes_at (by decide +kernel) (by decide +kernel) (by decide +kernel)
      (by decide +kernel), by decide +kernel⟩, rfl⟩

/-- An L1 copy of the line at address 0, usable up to timestamp 0xC00000 at the floor. -/
def copyT : L1Line := ⟨0, 0, 0, 0, List.replicate 128 9, .lt 0 0x10, 0, false, 0, 0⟩

/-- LoadLaneRule: bytes that all stand in the merge buffer, no copy, and a usable copy (its rts is PTS itself). -/
theorem test_load_lane_rule :
    (let s := { sG [] with l1 := [copyT], floors := List.replicate 144 0 };
      ∃ g sl, s.gang? 1 = some g ∧ (s.group? 1).bind (·.replay) = none ∧ (xG []).sliceOf 15 = some sl ∧
      ¬ (maskAt 120 8 &&& ~~~(s.seenMask 0 0 0 0 0) = 0) ∧ s.atomOnLine 1 0 0 0 0 = false ∧
      s.l1? 0 0 0 (l1Key 0 0) = some copyT ∧ copyT.usable s g.pts sl.sysAcq = true ∧ copyT.usable s 0x10 0 = true ∧
      copyT.usable s 0x11 0 = false ∧ copyT.usable { s with cycle := 8191 } 0 0 = true ∧
      copyT.usable { s with cycle := 8192 } 0 0 = false) ∧
    (let s := { sG [] with smb := [⟨1, 0, 0, 0, 0, 0, BitVec.allOnes 128, List.replicate 128 3, 0, [1], 0, false⟩] };
      maskAt 120 8 &&& ~~~(s.seenMask 0 0 0 0 0) = 0) ∧
    (sG []).l1? 0 0 0 (l1Key 0 0) = none :=
  ⟨⟨_, _, rfl, rfl, rfl, by decide +kernel⟩, by decide +kernel, by decide +kernel⟩

/-- The leaf of a host page, and of one in the replicated and in the decide-once mode. -/
def hostLeaf : Leaf := { soloLeaf with pa := 2 ^ 47 }
def repLeaf : Leaf := { soloLeaf with mode := 4 }
def docLeaf : Leaf := { soloLeaf with mode := 3 }

/-- The shape and the accesses of STO.64 of n2 at [n1] under scope `k`. -/
def stoShape (k : BitVec 3) : Shape :=
  { shapeStore 0 [.s7 1, .s7 2] hmBypass with legal := decide (k.toNat ≤ 4) }
def stoAccs (k : BitVec 3) : Accs :=
  accAll { wr := true, align := 8, scope := some k.toNat } fun _ v L => addrB (val v L 0) (0#5).toInt 8

/-- GlobalStores: STG; STO at core and team scope, at device scope on a line of this device, and at system scope on a
replicated one; a store into a line that is buffered, and one into a buffer with 63 other entries. -/
theorem test_global_stores :
    (∃ i W n k addr, StoreForm i W n k addr ∧
      Reaches (sA 0xFFFF 0 soloLeaf) (xA 0xFFFF 0) W false (accAll { wr := true, align := n } addr) []) ∧
    (Reaches (sA 0x78 7 soloLeaf) (xA 0x78 7) (stoShape 2) false (stoAccs 2) [] ∧
      (sA 0x78 7 soloLeaf).pairTeam grpT = false) ∧
    (Reaches (sA 0x78 7 soloLeaf) (xA 0x78 7) (stoShape 3) false (stoAccs 3) [] ∧ grpT.replay = none ∧ grpT.audit = none ∧
      accs (sA 0x78 7 soloLeaf) (xA 0x78 7) (stoShape 3) (stoAccs 3) = (rangeFrom 0 16).map (⟨·, 0, 0x78⟩) ∧
      (sA 0x78 7 soloLeaf).tlb? 0 0 0 0x78 = some soloLeaf ∧ soloLeaf.host = false ∧ soloLeaf.mode ≠ 4) ∧
    (Reaches (sA 0x78 7 repLeaf) (xA 0x78 7) (stoShape 4) false (stoAccs 4) [] ∧
      accs (sA 0x78 7 repLeaf) (xA 0x78 7) (stoShape 4) (stoAccs 4) = (rangeFrom 0 16).map (⟨·, 0, 0x78⟩) ∧
      (sA 0x78 7 repLeaf).tlb? 0 0 0 0x78 = some repLeaf ∧ repLeaf.mode = 4 ∧ sPr.pairTeam grpT = true) ∧
    (∃ s : State, (∀ e ∈ s.smb, e.data.length = 128) ∧
      (s.smb.filter (·.core == 0)).length = 63 ∧ (s.smb.filter (·.core == 0)).length < 64 ∧
      ∃ e ∈ s.smb, e.core = 0 ∧ e.part = 0 ∧ e.asn = 0 ∧ e.dev = 0 ∧ e.va = 0) :=
  ⟨⟨_, _, _, _, _, .stg ⟨0, 0, 2, 1, 0⟩, passes_at (by decide +kernel) (by decide +kernel) (by decide +kernel)
      (by decide +kernel), by decide +kernel⟩,
    ⟨⟨passes_at (by decide +kernel) (by decide +kernel) (by decide +kernel) (by decide +kernel), by decide +kernel⟩,
      by decide +kernel⟩,
    ⟨⟨passes_at (by decide +kernel) (by decide +kernel) (by decide +kernel) (by decide +kernel), by decide +kernel⟩,
      rfl, rfl, by decide +kernel, by decide +kernel, by decide, by decide⟩,
    ⟨⟨passes_at (by decide +kernel) (by decide +kernel) (by decide +kernel) (by decide +kernel), by decide +kernel⟩,
      by decide +kernel, by decide +kernel, rfl, rfl⟩,
    ⟨{ sG [] with smb := (rangeFrom 0 63).map fun k => ⟨k, 0, 0, 0, 128 * k, 0, 0, List.replicate 128 0, 0, [], 0, false⟩ },
      by decide +kernel, by decide +kernel, by decide +kernel, ⟨0, 0, 0, 0, 0, 0, 0, List.replicate 128 0, 0, [], 0, false⟩,
      by decide +kernel⟩⟩

/-- AtomicWords, SignalsAndFences, CacheControlWords: the words at address 0x78 of the page, at device scope. -/
theorem test_atomics_fences_and_caches :
    (∃ i o f srcs hm lg, AtmForm i o f srcs hm lg ∧ Reaches (sA 0x78 2 soloLeaf) (xA 0x78 2) (atmShape o srcs hm lg) false
      (atSource { wr := true, atom := true, align := atSize o.z, scope := some o.k.toNat }) [] ∧
      ∃ y, (commitRegion ((sA 0x78 2 soloLeaf).spoilAudit 1) 1).streamOf ⟨1, none⟩ = some y) ∧
    (∃ i st a b k f sz, RedWord i st a b k f sz ∧ Reaches (sA 0x78 2 soloLeaf) (xA 0x78 2)
      (plainShape st [.s7 a, .s7 b] (wideScope k)) false
      (atSource { wr := true, atom := true, align := 8, scope := some k.toNat }) []) ∧
    (Passes (sG []) (xG []) (plainShape 0 [] true) [] ∧ (xG []).acqHeld (sG []) = false ∧ (xG []).g.unified = true) ∧
    Reaches (sA 0x78 2 soloLeaf) (xA 0x78 2) (plainShape 0 [.s7 1, .s7 2] (wideScope 4)) false
      (atSource { wr := true, align := atSize 1, scope := some 4 }) [] ∧
    (∃ i o acq rel eng full, FenceForm i o acq rel eng full ∧ eng = true ∧ o.k.toNat ≤ 4 ∧ o.k ≠ 0#3) ∧
    Reaches (sA 0x78 2 soloLeaf) (xA 0x78 2) (plainShape 0 [.s7 1] true) false (atSource { rd := true }) [] ∧
    Reaches (sA 0x78 2 soloLeaf) (xA 0x78 2) (plainShape 0 [.s7 1, .s7 2] true) false (atSource { rd := true }) [] ∧
    ((xA 0 0).actives = 0 :: rangeFrom 1 15 ∧ Passes (sA 0 0 soloLeaf) (xA 0 0) (plainShape 0 [.s7 1, .s7 2] true) [] ∧
      gaddr (sA 0 0 soloLeaf) (src (sA 0 0 soloLeaf) (xA 0 0) (plainShape 0 [.s7 1, .s7 2] true) 0 0) = some (0, 0) ∧
      0 % 128 = 0 ∧ (sA 0 0 soloLeaf).rets = []) ∧
    (let s := { sA (5#64 <<< 48) 0 soloLeaf with ports := true, joined := true };
      Passes s (xA (5#64 <<< 48) 0) (plainShape 0 [.s7 1, .s7 2] true) [] ∧
      gaddr s (src s (xA (5#64 <<< 48) 0) (plainShape 0 [.s7 1, .s7 2] true) 0 0) = some (5, 0)) :=
  ⟨⟨_, _, _, _, _, _, .cas ⟨0, 0, 1, 2, 3⟩, ⟨passes_at (by decide +kernel) (by decide +kernel) (by decide +kernel)
      (by decide +kernel), by decide +kernel⟩, _, rfl⟩,
    ⟨_, _, _, _, _, _, _, .raddF64 ⟨0, 1, 2, 3⟩, ⟨passes_at (by decide +kernel) (by decide +kernel) (by decide +kernel)
      (by decide +kernel), by decide +kernel⟩⟩,
    ⟨passes_of rfl rfl (by decide +kernel) rfl, rfl, rfl⟩,
    ⟨passes_at (by decide +kernel) (by decide +kernel) (by decide +kernel) (by decide +kernel), by decide +kernel⟩,
    ⟨_, _, _, _, _, _, .eng ⟨0, 4⟩, rfl, by decide, by decide⟩,
    ⟨passes_at (by decide +kernel) (by decide +kernel) (by decide +kernel) (by decide +kernel), by decide +kernel⟩,
    ⟨passes_at (by decide +kernel) (by decide +kernel) (by decide +kernel) (by decide +kernel), by decide +kernel⟩,
    ⟨by decide +kernel, passes_at (by decide +kernel) (by decide +kernel) (by decide +kernel) rfl, by decide +kernel,
      by decide, by decide +kernel⟩,
    ⟨⟨rfl, rfl, rfl, by decide +kernel, rfl⟩, no_common (xA_plain _ _), rfl⟩, by decide +kernel⟩

/-- DecideOnceWords: PROP on a cell of this device, DREAD of a decided copy, and DSTAT on a cell of device 5. -/
theorem test_decide_once_words :
    (∃ i st ar more regs k legal wr rd kind, DocForm (sA 3 0x40 docLeaf) (xA 3 0x40) i st ar more regs k legal wr rd kind ∧
      Reaches (sA 3 0x40 docLeaf) (xA 3 0x40) (docShape st ar more k legal) true (docCells wr rd k) [] ∧
      (∀ r ∈ regs, (xA 3 0x40).morePending r = false) ∧
      accs (sA 3 0x40 docLeaf) (xA 3 0x40) (docShape st ar more k legal) (docCells wr rd k) =
        (rangeFrom 0 16).map (⟨·, 0, 0x40⟩)) ∧
    (sA 3 0x40 docLeaf).tlb? 0 0 0 0x40 = some docLeaf ∧ docLeaf.host = false ∧
    (let s : State := { sA (5#64 <<< 48) 0 { remoteLeaf 5 0 with mode := 3 } with ports := true, joined := true };
      ∃ i st ar more regs k legal wr rd kind, DocForm s (xA (5#64 <<< 48) 0) i st ar more regs k legal wr rd kind ∧
      Reaches s (xA (5#64 <<< 48) 0) (docShape st ar more k legal) true (docCells wr rd k) [] ∧
      accs s (xA (5#64 <<< 48) 0) (docShape st ar more k legal) (docCells wr rd k) = (rangeFrom 0 16).map (⟨·, 5, 0⟩)) ∧
    (let s : State := { sG [] with l1 := [⟨0, 0, 0, 0x40, List.replicate 128 0, .decided 6 (some 3), 0, false, 0, 0⟩] };
      ∃ c dts, s.decidedCopy? grpT 0 0x40 6 = some (c, dts) ∧ s.group? 1 = some grpT ∧ grpT.replay = none) :=
  ⟨⟨_, _, _, _, _, _, _, _, _, _, .prop ⟨0, 1, 2, 4, 3⟩, ⟨passes_at (by decide +kernel) (by decide +kernel)
      (by decide +kernel) (by decide +kernel), by decide +kernel⟩, by decide +kernel, by decide +kernel⟩, by decide +kernel, rfl,
    ⟨_, _, _, _, _, _, _, _, _, _, .dstat ⟨0, 1, 4⟩, ⟨⟨⟨rfl, rfl, rfl, by decide +kernel, rfl⟩,
      no_common (xA_plain _ _), by decide +kernel⟩, by decide +kernel⟩, by decide +kernel⟩, _, _, rfl, rfl, rfl⟩
/-! ## Words of launches and engines -/

/-- A read of a descriptor that comes to bytes at once and leaves gangs, groups, windows, audits and memory as they were. -/
theorem reads_ok {s : State} {G : Group} {a : Word} {p : TS} (h : (match lnchRead s G a p with
      | .ok t _ _ => decide (t.gangs = s.gangs ∧ t.mem = s.mem ∧ t.windows = s.windows ∧ t.groups = s.groups ∧
          t.audits = s.audits)
      | _ => false) = true) :
    ∃ t d w, lnchRead s G a p = .ok t d w ∧ t.gangs = s.gangs ∧ t.mem = s.mem ∧ t.windows = s.windows ∧
      t.groups = s.groups ∧ t.audits = s.audits := by
  split at h
  · exact ⟨_, _, _, ‹_›, of_decide_eq_true h⟩
  · exact absurd h (by decide)

/-- A descriptor at 0x80 of the mapped page, its line in L2. -/
def sLn : State := { sG [0x80] with
  tlb := [⟨0, 0, 0, soloLeaf⟩, ⟨144, 0, 0, soloLeaf⟩], l2 := [⟨0, 0, 0, 0x80, 1, 5, 9, false, none, 0, none, none, 0⟩] }

/-- LaunchAndTestWords: REGION; EMIT of one stage; LNCH with queue 15 empty and with 64 descriptors in it; FORK and FKILL;
CLKTEST alone and beside another partition; ERRINJ with injection 6. -/
theorem test_launch_and_test_words :
    ((59#6).toNat < 60 ∧ StreamReady (sG []) (xG []) ∧ (xG []).g.unified = true) ∧
    (let s : State := { sG [] with launches := [launchT] };
      Passes s (xG []) { st := 0, srcs := (rangeFrom 8 8).map fun r => .s7 (BitVec.ofNat 7 r), dst := .none, lat := 0 } [] ∧
      (xG []).acqHeld s = false ∧ s.launch? 0 0 = some launchT ∧ (0#3).toNat < launchT.stages.length ∧
      (∀ L ∈ (xG []).actives, src s (xG []) { st := 0, srcs := (rangeFrom 8 8).map fun r => .s7 (BitVec.ofNat 7 r)
                                              dst := .none, lat := 0 } L 0 &&& 3 = 0) ∧
      (xG []).g.region = none ∧ relPending s (xG []) = false ∧ relDone s (xG []) = none ∧ grpT.audit = none ∧
      grpT.replay = none) ∧
    (let A : Accs := fun x _ => [(lowLane x.mask, { rd := true, align := 128 }, x.uni 0)];
      StreamReady sLn (xG [0x80]) ∧ accWait sLn false A (xG [0x80]) [] = none ∧ accCauses sLn A (xG [0x80]) [] = [] ∧
      relPending sLn (xG [0x80]) = false ∧ relDone sLn (xG [0x80]) = none ∧
      (((sG []).part 0).queue 15).wi = (((sG []).part 0).queue 15).ci ∧
      64 ≤ (((({ sG [] with parts := [{ partT with queues := List.replicate 16 ⟨0, 0, 64, 0⟩ }] } : State).part 0).queue 15).wi -
        0).toNat) ∧
    (∃ t d w, lnchRead sLn grpT ((xG [0x80]).uni 0) (gangT [0x80]).pts = .ok t d w ∧ t.gangs = sLn.gangs ∧ t.mem = sLn.mem ∧
      t.windows = sLn.windows ∧ t.groups = sLn.groups ∧ t.audits = sLn.audits) ∧
    (EngineReady (sA 0 0 { soloLeaf with x := true }) (xA 0 0) [0, 59] [] ∧
      engineBar (sA 0 0 { soloLeaf with x := true }) grpT ((xA 0 0).uni 59) = .ok locT ∧
      forkAddr (sA 0 0 { soloLeaf with x := true }) grpT ((xA 0 0).uni 0) = ([], .known)) ∧
    (let s : State := { sG [] with parts := [partT, Partition.reset] };
      let W : Shape := { st := 0, srcs := [.s7 1], dst := .none, lat := 0 };
      (s.part 0).test = true ∧ (s.part 0).debug = true ∧ Passes s (xG []) W [] ∧ (xG []).actives = 0 :: rangeFrom 1 15 ∧
      fld (src s (xG []) W 0 0) 24 8 = 0 ∧ (∀ p, p < 8 → p ≠ 0 → (s.part p).en = false) ∧
      (({ s with parts := [partT, partT] } : State).part 1).en = true ∧ injBad s grpT (6#64 <<< 60) = false) :=
  ⟨⟨by decide, sG_ready [], rfl⟩,
    ⟨⟨⟨rfl, rfl, rfl, by decide +kernel, rfl⟩, no_common (xG_plain []), rfl⟩, rfl, rfl, by decide, by decide +kernel, rfl,
      by decide +kernel, by decide +kernel, rfl, rfl⟩,
    ⟨⟨rfl, rfl, rfl, rfl⟩, by decide +kernel, by decide +kernel, by decide +kernel, by decide +kernel, rfl, by decide +kernel⟩,
    reads_ok (by decide +kernel),
    ⟨⟨⟨rfl, rfl, rfl, rfl⟩, rfl, rfl, by decide, by decide, by decide, rfl⟩, rfl, by decide +kernel⟩,
    ⟨by decide +kernel, by decide +kernel, ⟨⟨rfl, rfl, rfl, by decide +kernel, rfl⟩, no_common (xG_plain []), rfl⟩,
      by decide +kernel, by decide +kernel, by decide +kernel, by decide +kernel, by decide +kernel⟩⟩

/-- Rows and columns of 16 BF16 elements at offset 0x1000, and their reservation of 4,096 bytes. -/
def rakeT : Rake := ⟨true, 0, 0, 0x1000, 64, 0, 256, 0, 0, 0, 0, 0, 0, 0, 0, 0, 0, 64, 0⟩
def resvT : Resv := ⟨0, 4096, 16, 16, 64, 0, 0, 0, 0, 0, 0, 0, 0⟩

/-- The records of both at offsets 0x80 and 0xC0, and at 0x40 that of a copy of one 8-byte element whose barrier lies at 0. -/
def winM : Window :=
  (((((winT.write 0x40 [1, 0, 0, 0, 1, 0, 0, 0, 1, 0, 0, 0, 1]).write 0x70 [3, 3]).write 0x81 [0x10, 0, 0x10]).write 0x80
    [0, 0, 0, 0, 0, 0x10, 0, 0, 16, 0, 16, 0, 64]).write 0xC0 [0, 0x10, 0, 0x80, 0, 0, 64, 0, 0, 1]).write 0xDA [64, 0]

/-- A group with tile 0, handle 0 and Rake slot 0 in use and the chain `ch` open. -/
def grpM (ch : Option (Nat × List (Nat × Nat))) : Group := { grpT with
  z := modAt (fun _ => some (ZTile.zero 16 16 0 false)) 0 grpT.z
  handles := modAt (fun _ => some resvT) 0 grpT.handles
  rakes := modAt (fun _ => some rakeT) 0 grpT.rakes
  chain := ch }

/-- Uniforms: g0 = 0, g1 a loop of one step promoted each step, g2 to g4 the offsets of the records, g5 = 0x1000, g6 = 16
bytes of the reservation, g7 a pitch of 64 bytes, g8 = 1, g9 = 0x2000. -/
def gsM : List Word := [0, 0x0001010000000000, 0x80, 0xC0, 0x40, 0x1000, 0x100000000000, 0x4000, 1, 0x2000]

def sM (ch : Option (Nat × List (Nat × Nat))) : State := { sG gsM with groups := [grpM ch], windows := [winM] }
def xM (ch : Option (Nat × List (Nat × Nat))) : Cx := ⟨gangT gsM, grpM ch, [0, 1, 2, 3]⟩

theorem sM_ready (ch : Option (Nat × List (Nat × Nat))) : StreamReady (sM ch) (xM ch) := ⟨rfl, rfl, rfl, rfl⟩

/-- MatrixWords: the six words that act at issue and the eight forms that queue a command, each without a cause. -/
theorem test_matrix_words :
    (∃ i st regs causes f, MxNow (sM none) (xM none) i st regs causes f ∧ EngineReady (sM none) (xM none) regs causes) ∧
    (∃ o st regs causes f, MxNow (sM none) (xM none) (.mxcfgTile o) st regs causes f ∧
      EngineReady (sM none) (xM none) regs causes) ∧
    (∃ o st regs causes f, MxNow (sM none) (xM none) (.mxcfgFree o) st regs causes f ∧
      EngineReady (sM none) (xM none) regs causes) ∧
    (∃ o st regs causes f, MxNow (sM none) (xM none) (.mxres o) st regs causes f ∧
      EngineReady (sM none) (xM none) regs causes) ∧
    (∃ o st regs causes f, MxNow (sM none) (xM none) (.mxrake o) st regs causes f ∧
      EngineReady (sM none) (xM none) regs causes) ∧
    (∃ o st regs causes k b c, MxQueued (sM none) (xM none) (.mxldb o) st regs causes k b c ∧
      EngineReady (sM none) (xM none) regs causes) ∧
    (∃ o st regs causes k b c, MxQueued (sM none) (xM none) (.mxbegin o) st regs causes k b c ∧
      EngineReady (sM none) (xM none) regs causes) ∧
    (∃ o st regs causes k b c, MxQueued (sM (some (1, []))) (xM (some (1, []))) (.mxloop o) st regs causes k b c ∧
      EngineReady (sM (some (1, []))) (xM (some (1, []))) regs causes) ∧
    (∃ o st regs causes k b c, MxQueued (sM (some (1, []))) (xM (some (1, []))) (.mxend o) st regs causes k b c ∧
      EngineReady (sM (some (1, []))) (xM (some (1, []))) regs causes ∧ o.f = 1#1) ∧
    (∃ o st regs causes k b c, MxQueued (sM none) (xM none) (.mxzero o) st regs causes k b c ∧
      EngineReady (sM none) (xM none) regs causes) ∧
    (∃ o st regs causes k b c, MxQueued (sM none) (xM none) (.mxdrain o) st regs causes k b c ∧
      EngineReady (sM none) (xM none) regs causes) ∧
    (∃ o st regs causes k b c, MxQueued (sM none) (xM none) (.mxchk o) st regs causes k b c ∧
      EngineReady (sM none) (xM none) regs causes) ∧
    ((sM none).mx.filter (·.core == (xM none).grp.core)).length < 32 :=
  ⟨⟨_, _, _, _, _, .nf ⟨0, 8, 8⟩, sM_ready _, rfl, rfl, by decide, by decide, by decide, rfl⟩,
    ⟨_, _, _, _, _, .tile ⟨0, 8, 0⟩, sM_ready _, rfl, rfl, by decide, by decide, by decide, by decide +kernel⟩,
    ⟨_, _, _, _, _, .free ⟨0, 0⟩, sM_ready _, rfl, rfl, by decide, by decide, by decide, by decide +kernel⟩,
    ⟨_, _, _, _, _, .res ⟨0, 2, 8⟩ _ _ _ rfl, sM_ready _, rfl, rfl, by decide, by decide, by decide, by decide +kernel⟩,
    ⟨_, _, _, _, _, .rake ⟨0, 3, 8⟩ _ _ _ rfl, sM_ready _, rfl, rfl, by decide, by decide, by decide, by decide +kernel⟩,
    ⟨_, _, _, _, _, _, _, .ldb ⟨0, 5, 6, 0, 1⟩ _ _ (by decide) rfl rfl, sM_ready _, rfl, rfl, by decide, by decide, by decide, by decide +kernel⟩,
    ⟨_, _, _, _, _, _, _, .start ⟨0⟩, sM_ready _, rfl, rfl, by decide, by decide, by decide, by decide +kernel⟩,
    ⟨_, _, _, _, _, _, _, .loop ⟨0, 1, 0, 0⟩ _ _ rfl rfl, sM_ready _, rfl, rfl, by decide, by decide, by decide, by decide +kernel⟩,
    ⟨_, _, _, _, _, _, _, .doneAt ⟨0, 0, 1⟩ _ rfl rfl, ⟨sM_ready _, rfl, rfl, by decide, by decide, by decide, by decide +kernel⟩, rfl⟩,
    ⟨_, _, _, _, _, _, _, .zero ⟨0, 0⟩, sM_ready _, rfl, rfl, by decide, by decide, by decide, by decide +kernel⟩,
    ⟨_, _, _, _, _, _, _, .drain ⟨0, 5, 7, 0⟩ _ rfl, sM_ready _, rfl, rfl, by decide, by decide, by decide, by decide +kernel⟩,
    ⟨_, _, _, _, _, _, _, .chk ⟨0, 5, 0, 0⟩ _ rfl, sM_ready _, rfl, rfl, by decide, by decide, by decide, by decide +kernel⟩,
    by decide⟩

/-- StreamWords: SXCOPY under the record at 0x40; SXFLIP of tile 2 and SXFLIP.t of tile 1; SXCAN and SXSTAT of the
barrier at 0. -/
theorem test_stream_words :
    (∃ i o kind w off bs, SxForm i o kind ∧ EngineReady (sM none) (xM none) [o.a, o.b, o.c] [] ∧
      readRecord (sM none) (grpM none) ((xM none).uni o.a) = .ok (w, off, bs) ∧ patBad bs kind = false ∧
      engineBar (sM none) (grpM none) (BitVec.ofNat 64 (patOf bs).bar) = .ok locT) ∧
    ((sM none).sx.filter (·.core == 0)).length < 32 ∧
    (EngineReady (sM none) (xM none) [9, 8] [] ∧ scratchAt (sM none) (grpM none) ((xM none).uni 9) = some (winM, 0x2000) ∧
      ((xM none).uni 9).getLsbD 23 = false ∧ ((xM none).uni 8).toNat = 1 ∧ 0x2000 + 1 * 4096 ≤ winM.size ∧
      (winM.tile 2).engine = false ∧ (sM none).touchesBar 1 0 (2 * 4096) 4096 = false) ∧
    (scratchAt (sM none) (grpM none) ((xM none).uni 5) = some (winM, 0x1000) ∧ (winM.tile 1).engine = true ∧
      (sM none).touchesBar 1 0 (1 * 4096) 4096 = false ∧ (winM.tile 1).wclaim = none ∧ (winM.tile 1).rclaim = []) ∧
    (EngineReady (sM none) (xM none) [] [] ∧ EngineReady (sM none) (xM none) [0] [] ∧
      statBar (sM none) (grpM none) ((xM none).uni 0) = .ok locT) :=
  ⟨⟨_, _, _, _, _, _, .copy ⟨0, 4, 5, 5, 0⟩, ⟨sM_ready _, rfl, rfl, by decide, by decide, by decide, rfl⟩, rfl, by decide +kernel, rfl⟩, by decide,
    ⟨⟨sM_ready _, rfl, rfl, by decide, by decide, by decide, rfl⟩, by decide +kernel, by decide +kernel, by decide +kernel, by decide +kernel,
      by decide +kernel, by decide +kernel⟩,
    by decide +kernel, ⟨sM_ready _, rfl, rfl, by decide, by decide, by decide, rfl⟩, ⟨sM_ready _, rfl, rfl, by decide, by decide, by decide, rfl⟩, rfl⟩

/-! ## Further clauses of the memory words -/

/-- BarrierPhaseRule: a gang whose slices wait for the barrier; an object of a phase that completed and of one aborted. -/
def gangB : Gang := { gangT [] with slices := (gangT []).slices.map fun sl => { sl with run := .barrier locT true 0x40 } }
def sB0 : State := { sG [] with gangs := [gangB] }

theorem test_phase_release :
    ((sB0.gangs.map (·.id)).Nodup ∧ gangB ∈ sB0.gangs ∧ sB0.group? gangB.group = some grpT ∧
      gangB.waiters locT = [([0, 1, 2, 3], true, 0x40)]) ∧
    (sB0.gang? 1 = some gangB ∧ ∃ b, grpT.bar? locT = some b) :=
  ⟨⟨by decide, List.mem_singleton.mpr rfl, rfl, by decide +kernel⟩, rfl, _, rfl⟩

/-- ScratchWords: accesses due now and later, none of their gang before them; a load's with its operation and its window,
and a store's. -/
theorem test_passes :
    (let p : ScratchPass := ⟨9, 1, [0, 1, 2, 3], 5, some 3, some 2, [(15, 7, 0x4FF0, 16, [])]⟩;
      let o : Op := { opP with waits := 0 };
      let s : State := { sG [] with ops := [o], passes := [p] };
      s.beat < p.due ∧ s.bad = [] ∧ s.gang? 1 = some (gangT []) ∧ s.group? (gangT []).group = some grpT ∧
      s.op? 3 = some o ∧ p.accs.map (fun a => s.windows.find? (·.id == a.2.1)) = [winT].map some) ∧
    (let p : ScratchPass := ⟨9, 1, [0, 1, 2, 3], 0, none, none, [(15, 7, 0x4FF8, 8, List.replicate 8 1)]⟩;
      p.due ≤ (sG []).beat ∧ (∀ r ∈ (sG []).passes, r.gang ≠ p.gang) ∧ winT ∈ (sG []).windows ∧ winT.mem.wf = true ∧
      ∀ b ∈ p.accs, b.2.1 = winT.id → 0x4FF7 < b.2.2.1 ∨ b.2.2.1 + b.2.2.2.2.length ≤ 0x4FF7) :=
  ⟨by decide +kernel, by decide +kernel, by decide, List.mem_singleton.mpr rfl, rfl, by decide⟩

/-- LoadLaneRule: a copy past its lease, and a line that an atomic on its way is still to change. -/
theorem test_lane_copies :
    (let s := { sG [] with l1 := [copyT], cycle := 8192 };
      s.l1? 0 0 0 (l1Key 0 0) = some copyT ∧ copyT.usable s 0 0 = false) ∧
    (let q : Req := ⟨2, .atom 15 0 8 0 1 0 0 false, 0, 1, some 3, 0, 0, 0, 0, 4, none, false, none, 0, none, false, 2, .none⟩;
      ({ sG [] with reqs := [q] } : State).atomOnLine 0 0 0 0 0 = true) :=
  ⟨by decide +kernel, by decide +kernel⟩

/-- GlobalStores: STO at team scope in a pair; at device scope where the page of the lanes is not present; a full buffer
without the line. -/
theorem test_release_forms :
    (let s : State := { sA 0x78 7 soloLeaf with windows := [{ winT with partner := some 1 }] };
      Reaches s (xA 0x78 7) (stoShape 2) false (stoAccs 2) [] ∧ s.pairTeam grpT = true ∧ s.passes = [] ∧
      accs s (xA 0x78 7) (stoShape 2) (stoAccs 2) = (rangeFrom 0 16).map (⟨·, 0, 0x78⟩)) ∧
    (let s : State := { sA 0x78 7 soloLeaf with tlb := [], parts := [{ Partition.reset with faultq := [(0, 0)] }] };
      Reaches s (xA 0x78 7) (stoShape 3) false (stoAccs 3) [] ∧
      accs s (xA 0x78 7) (stoShape 3) (stoAccs 3) = (rangeFrom 0 16).map (⟨·, 0, 0x78⟩) ∧ s.tlb? 0 0 0 0x78 = none) ∧
    (let s : State := { sG [] with
        smb := (rangeFrom 1 64).map fun k => ⟨k, 0, 0, 0, 128 * k, 0, 0, List.replicate 128 0, 0, [], 0, false⟩ };
      (s.smb.filter (·.core == 0)).tail.length = 63 ∧ (s.smb.map (·.id)).Nodup ∧ s.owned = [] ∧
      (∀ d ∈ s.smb, ¬ (d.core = 0 ∧ d.part = 0 ∧ d.asn = 0 ∧ d.dev = 0 ∧ d.va = 0)) ∧ ∀ e ∈ s.smb, s.inj6For e.gangs = none) :=
  ⟨⟨⟨⟨⟨rfl, by decide +kernel, by decide +kernel, by decide +kernel, rfl⟩, no_common (xA_plain _ _), by decide +kernel⟩,
      by decide +kernel⟩, by decide +kernel, rfl, by decide +kernel⟩,
    ⟨⟨⟨⟨rfl, by decide +kernel, by decide +kernel, by decide +kernel, rfl⟩, no_common (xA_plain _ _), by decide +kernel⟩,
      by decide +kernel⟩, by decide +kernel, by decide +kernel⟩,
    by decide +kernel⟩

/-- An entry of the gang at 0x80 that holds an integer sum of function `f`. -/
def termT (f : Nat) : RedEntry := ⟨6, 0, 0, 1, 1, 0, f, 8, 0, 0, 0x80, 5, 0, 0, none⟩

/-- AtomicWords: a term whose entry is there, one without, one of another function, and one past 256 entries. -/
theorem test_terms :
    let mine := fun (e : RedEntry) => e.gang == 1 && e.addr == (0x80 : Word) && e.epoch == 0 && e.drain.isNone
    (mine (termT 1) = true ∧ (termT 1).f = 1 ∧ (termT 1).sz = 8) ∧
    (∀ r ∈ (sG []).reds, mine r = false) ∧
    (∀ r ∈ [termT 3], mine r = true → ¬ (r.f = 1 ∧ r.sz = 8)) ∧
    (let s : State := { sG [] with reds := List.replicate 256 { termT 1 with gang := 2 } };
      (∀ r ∈ s.reds, mine r = false) ∧ ¬ (s.reds.filter fun r => r.core == 0 && r.sched == (gangT []).sched).length < 256) :=
  ⟨by decide, by decide, by decide, fun r h => by rw [List.eq_of_mem_replicate h]; decide, by decide +kernel⟩

/-- SignalsAndFences: full and release at device scope and acquire at core scope; a core that owns a flag. -/
theorem test_fences :
    (∃ i o acq rel eng full, FenceForm i o acq rel eng full ∧ full = true ∧ 3 ≤ o.k.toNat ∧ o.k.toNat ≤ 4) ∧
    (∃ i o acq rel eng full, FenceForm i o acq rel eng full ∧ rel = true ∧ full = false ∧ 3 ≤ o.k.toNat) ∧
    (∃ i o acq rel eng full, FenceForm i o acq rel eng full ∧ acq = true ∧ full = false ∧ o.k.toNat < 3) :=
  ⟨⟨_, _, _, _, _, _, .full ⟨0, 3⟩, rfl, by decide, by decide⟩, ⟨_, _, _, _, _, _, .rel ⟨0, 4⟩, rfl, rfl, by decide⟩,
    _, _, _, _, _, _, .acq ⟨0, 0⟩, rfl, rfl, by decide⟩

/-- A gang of which lane 0 alone lives, n1 holding 0x80. -/
def gang1 : Gang := (gangA 0x80 3).deaden (rangeFrom 1 15)
def s1 : State := { sG [] with gangs := [gang1], tlb := [⟨0, 0, 0, soloLeaf⟩] }
def x1 : Cx := ⟨gang1, grpT, [0]⟩

/-- The operation of a PIN whose register is set. -/
def doneT : Op := { opP with rel := true, block := false, waits := 0 }

/-- CacheControlWords: LHINT of one lane over a tracked line; a PIN that has not been asked for and one that is done. -/
theorem test_hint_and_pin :
    (Reaches { s1 with gangs := [gang1] } x1 (plainShape 0 [.s7 1, .s7 2] true) false (atSource { rd := true }) [] ∧
      accs s1 x1 (plainShape 0 [.s7 1, .s7 2] true) (atSource { rd := true }) = [⟨0, 0, 0x80⟩] ∧
      s1.tlb? 0 0 0 0x80 = some soloLeaf ∧ soloLeaf.host = false ∧
      (s1.track (soloLeaf.lineRef 0 0 0x80)).region? (soloLeaf.lineRef 0 0 0x80) ≠ none) ∧
    (relDone (sA 0 0 soloLeaf) (xA 0 0) = none ∧ pinChip (sA 0 0 soloLeaf) grpT 0 = none ∧
      relDone { sA 0 0 soloLeaf with ops := [doneT] } (xA 0 0) = some doneT) := by
  have plain : ∀ sl ∈ x1.g.slices, sl.stallchk = 0 ∧ sl.status = 0 := by decide +kernel
  exact ⟨⟨⟨⟨⟨rfl, by decide +kernel, by decide +kernel, by decide +kernel, rfl⟩, no_common plain, by decide +kernel⟩,
      by decide +kernel⟩, by decide +kernel, by decide +kernel, rfl, by decide +kernel⟩, by decide +kernel⟩

/-- LaunchAndTestWords: a stage with room and one that is full; the release of an EMIT that is performed; a descriptor of
this device and of another one, and its answer. -/
theorem test_emit_and_descriptor :
    (let s : State := { sG [] with launches := [launchT] };
      ∃ g, s.launch? 0 0 = some launchT ∧ launchT.stages[0]? = some g ∧ g.recs.length < g.qcap ∧
        (∀ e, (({ g with recs := g.recs ++ [⟨List.replicate 8 1, 0, 0⟩] } : Stage).naming e).length < launchT.width) ∧
        ({ g with qcap := 1 } : Stage).qcap ≤ g.recs.length) ∧
    (commitRegion { sG [] with ops := [doneT] } 1 = { sG [] with ops := [doneT] } ∧
      relDone { sG [] with ops := [doneT] } (xG []) = some doneT) ∧
    (gaddr (sG []) 0x80 = some (0, 0x80) ∧
      gaddr { sG [] with ports := true, joined := true } (5#64 <<< 48) = some (5, 0)) ∧
    ({ doneT with vals := [(0, 7)] }.vals ≠ [] ∧ doneT.dead = []) :=
  ⟨⟨_, rfl, rfl, by decide, fun e => Nat.lt_of_le_of_lt (List.length_filter_le _ _) (by decide), by decide⟩,
    ⟨by decide +kernel, by decide +kernel⟩, by decide +kernel, by decide, rfl⟩

end Sys2Proof.Tests
end

section
/-!
SUPPORT. What a beat does (R35, R435, R448) and what the fills, wakings and returns do, part by part, in the order in
which ISSUE_BEAT goes through them; and the two statements about them and about the state after reset.
-/

namespace Sys2Proof.Machine

/-! ## Scratchpad accesses over sound storage -/

theorem scratchBad_sound {s : State} (h : s.bad = []) (w : Window) (off n : Nat) : scratchBad s w off n = false := by
  simp [scratchBad, h]

theorem scratchRepair_sound {s : State} (h : s.bad = []) (G : Group) (w : Window) (off n : Nat) :
    scratchRepair s G w off n = s := by simp [scratchRepair, h]

theorem scratchMend_sound {s : State} (h : s.bad = []) (G : Group) (w : Window) (off n : Nat) :
    scratchMend s G w off n = s := by simp [scratchMend, h]

theorem passHurt_sound {s : State} (h : s.bad = []) (p : ScratchPass) : passHurt s p = [] := by
  unfold passHurt
  split
  · rfl
  · refine List.filterMap_eq_nil_iff.mpr fun a _ => ?_
    split <;> simp [scratchBad_sound h]

theorem Gang.deaden_nil (g : Gang) : g.deaden [] = g := by
  have hl : ∀ (i : Nat) (sl : Slice), (sl.mapLanes fun j l =>
      if ([] : List Nat).contains (4 * i + j) then { l with dead := true } else l) = sl := by
    intro i sl
    simp [Slice.mapLanes, imap_id]
  simp only [Gang.deaden, hl, imap_id]

/-- No lane dies: nothing changes. -/
theorem State.markDead_nil (s : State) (gid : Nat) : s.markDead gid [] = s := by
  unfold State.markDead
  split
  · rfl
  · dsimp only
    rw [List.filter_eq_nil_iff.mpr]
    · simp [Gang.deaden_nil, State.modGang]
    · intro i _
      split <;> simp

/-- Two states without damage that agree in what a scratchpad access reads. -/
structure SamePads (s t : State) : Prop where
  bad     : s.bad = []
  bad'    : t.bad = []
  gangs   : t.gangs = s.gangs
  groups  : t.groups = s.groups
  windows : t.windows = s.windows
  ops     : t.ops = s.ops

theorem SamePads.refl {s : State} (h : s.bad = []) : SamePads s s := ⟨h, h, rfl, rfl, rfl, rfl⟩

theorem SamePads.self_eq {s t : State} (h : SamePads s t) : t = { t with windows := s.windows, ops := s.ops } := by
  rw [← h.windows, ← h.ops]

/-- A step that changes windows and operations alone, and these by what a scratchpad access reads. -/
def PadStep (f : State → State) : Prop :=
  ∀ s t, SamePads s t → f t = { t with windows := (f s).windows, ops := (f s).ops }

theorem PadStep.samePads {f : State → State} (hf : PadStep f) {s t : State} (h : SamePads s t) :
    SamePads (f s) (f t) := by
  have hs := hf s s (.refl h.bad)
  have ht := hf s t h
  exact ⟨by rw [hs]; exact h.bad, by rw [ht]; exact h.bad', by rw [ht, hs]; exact h.gangs,
    by rw [ht, hs]; exact h.groups, by rw [ht], by rw [ht]⟩

theorem PadStep.foldl {α : Type} {f : State → α → State} (hf : ∀ a, PadStep fun s => f s a) (l : List α) :
    PadStep fun s => l.foldl f s := by
  induction l with
  | nil =>
    exact fun s t h => h.self_eq
  | cons a l ih =>
    intro s t h
    calc (a :: l).foldl f t
        = { f t a with windows := (l.foldl f (f s a)).windows, ops := (l.foldl f (f s a)).ops } :=
          ih _ _ ((hf a).samePads h)
      _ = { t with windows := ((a :: l).foldl f s).windows, ops := ((a :: l).foldl f s).ops } := by
          rw [show f t a = _ from hf a s t h]; rfl

theorem passLoad_padStep (G : Group) (p : ScratchPass) (op : Nat) (a : Nat × Nat × Nat × Nat × List Byte) :
    PadStep fun s => passLoad G p op s a := by
  intro s t h
  simp only [passLoad, h.windows]
  split
  · exact h.self_eq
  · simp only [scratchBad_sound h.bad, scratchBad_sound h.bad', Bool.false_eq_true, if_false]
    rw [scratchRepair_sound (by simpa using h.bad'), scratchRepair_sound (by simpa using h.bad)]
    simp only [State.modOp, ← h.windows, h.ops]

theorem passStore_padStep (G : Group) (a : Nat × Nat × Nat × Nat × List Byte) : PadStep fun s => passStore G s a := by
  intro s t h
  simp only [passStore, h.windows]
  split
  · exact h.self_eq
  · simp only [scratchMend_sound h.bad, scratchMend_sound h.bad', State.winWrite, State.modWindow, h.windows, ← h.ops]

/-- An access's lanes read or write, and those that read a bad word die: `performPass` after the access has left the list. -/
def State.performLanes (s : State) (p : ScratchPass) : State :=
  match (s.gang? p.gang).bind fun g => s.group? g.group with
  | none => s
  | some G => match p.op with
    | some op => (p.accs.foldl (passLoad G p op) s).markDead p.gang (passHurt s p)
    | none => p.accs.foldl (passStore G) s

theorem performPass_eq_lanes (s : State) (p : ScratchPass) :
    s.performPass p = State.performLanes { s with passes := s.passes.filter (·.id != p.id) } p := rfl

theorem performLanes_padStep (p : ScratchPass) : PadStep fun s => s.performLanes p := by
  intro s t h
  have hG : ((t.gang? p.gang).bind fun g => t.group? g.group) = (s.gang? p.gang).bind fun g => s.group? g.group := by
    simp only [State.gang?, State.group?, h.gangs, h.groups]
  simp only [State.performLanes, hG]
  split
  · exact h.self_eq
  · split
    · simp only [passHurt_sound h.bad, passHurt_sound h.bad', State.markDead_nil]
      exact PadStep.foldl (passLoad_padStep _ p _) p.accs s t h
    · exact PadStep.foldl (passStore_padStep _) p.accs s t h

/-- An access over sound storage changes its windows and its operation alone, and these by gangs, groups, windows
and operations as they stand. -/
theorem performPass_eq {s t : State} (h : SamePads s t) (p : ScratchPass) :
    t.performPass p = { t with
      passes := t.passes.filter (·.id != p.id), windows := (s.performPass p).windows, ops := (s.performPass p).ops } :=
  performLanes_padStep p { s with passes := s.passes.filter (·.id != p.id) }
    { t with passes := t.passes.filter (·.id != p.id) } ⟨h.bad, h.bad', h.gangs, h.groups, h.windows, h.ops⟩

/-- Accesses one after the other. -/
theorem performPasses_frame (l : List ScratchPass) {s : State} (h : s.bad = []) :
    l.foldl State.performPass s = { s with
      passes := s.passes.filter fun q => l.all (q.id != ·.id)
      windows := (l.foldl State.performPass s).windows, ops := (l.foldl State.performPass s).ops } := by
  induction l generalizing s with
  | nil =>
    have kept : s.passes.filter (fun q => ([] : List ScratchPass).all (q.id != ·.id)) = s.passes :=
      List.filter_eq_self.mpr fun _ _ => rfl
    rw [kept]
    rfl
  | cons p l ih =>
    have hp := performPass_eq (.refl h) p
    have hb : (s.performPass p).bad = [] := by rw [hp]; exact h
    have hl : s.passes.filter (fun q => (p :: l).all (q.id != ·.id)) =
        (s.performPass p).passes.filter fun q => l.all (q.id != ·.id) := by
      rw [hp]; simp [List.filter_filter, Bool.and_comm]
    rw [List.foldl_cons, hl, ih hb]
    rw [hp]

/-- The accesses that fall due, as `passesDue` picks them. -/
def State.duePasses (s : State) : List ScratchPass :=
  s.passes.filter fun p => s.passes.any fun q => decide (q.due ≤ s.beat) && decide (p.id ≤ q.id) && p.sameStream q

theorem passesDue_eq (s : State) : s.passesDue = s.duePasses.foldl State.performPass s := rfl

theorem passesDue_passes {s : State} (h : s.bad = []) :
    s.passesDue.passes = s.passes.filter fun q => s.duePasses.all (q.id != ·.id) := by
  rw [passesDue_eq, performPasses_frame s.duePasses h]

theorem passesDue_frame {s : State} (h : s.bad = []) :
    s.passesDue = { s with
      passes := s.passesDue.passes, windows := s.passesDue.windows, ops := s.passesDue.ops } := by
  rw [passesDue_passes h]
  exact performPasses_frame s.duePasses h

theorem passesDue_fields {s : State} (h : s.bad = []) :
    s.passesDue.cycle = s.cycle ∧ s.passesDue.mem = s.mem ∧ s.passesDue.gangs = s.gangs ∧ s.passesDue.groups = s.groups ∧
      s.passesDue.ptp = s.ptp ∧ s.passesDue.agenda = s.agenda ∧ s.passesDue.timers = s.timers := by
  rw [passesDue_frame h]
  exact ⟨rfl, rfl, rfl, rfl, rfl, rfl, rfl⟩

theorem ScratchPass.sameStream_self {p : ScratchPass} (h : p.slices ≠ []) : p.sameStream p = true := by
  simpa [ScratchPass.sameStream] using List.exists_mem_of_ne_nil _ h

theorem mem_duePasses_self {s : State} {p : ScratchPass} (hp : p ∈ s.passes) (hs : p.slices ≠ []) (hd : p.due ≤ s.beat) :
    p ∈ s.duePasses :=
  List.mem_filter.mpr ⟨hp, List.any_eq_true.mpr ⟨p, hp, by simp [hd, p.sameStream_self hs]⟩⟩

theorem duePasses_nil {s : State} (h : ∀ p ∈ s.passes, s.beat < p.due) : s.duePasses = [] := by
  refine List.filter_eq_nil_iff.mpr fun p _ => ?_
  simp only [List.any_eq_true, not_exists, not_and]
  intro q hq
  simp [Nat.not_le.mpr (h q hq)]

theorem duePasses_one {s : State} {p : ScratchPass} (h : s.passes = [p]) (hs : p.slices ≠ []) (hd : p.due ≤ s.beat) :
    s.duePasses = [p] := by
  simp [State.duePasses, h, hd, p.sameStream_self hs]

/-- An access whose last pass is done is not kept (R448). -/
theorem mem_passesDue {s : State} (h : s.bad = []) {p : ScratchPass} (hp : p ∈ s.passesDue.passes) :
    p ∈ s.passes ∧ (p.slices ≠ [] → s.beat < p.due) := by
  rw [passesDue_passes h] at hp
  obtain ⟨hm, hk⟩ := List.mem_filter.mp hp
  refine ⟨hm, fun hs => Nat.lt_of_not_le fun hd => ?_⟩
  simpa using List.all_eq_true.mp hk p (mem_duePasses_self hm hs hd)

/-! ## Candidates (R35) -/

theorem mem_imap {α β : Type} {f : Nat → α → β} {l : List α} {i : Nat} {y : β} (h : y ∈ imap f i l) :
    ∃ k, ∃ x ∈ l, y = f k x := by
  induction l generalizing i with
  | nil => cases h
  | cons a l ih =>
    rcases List.mem_cons.mp h with rfl | h
    · exact ⟨i, a, List.mem_cons_self, rfl⟩
    · obtain ⟨k, x, hx, e⟩ := ih h
      exact ⟨k, x, List.mem_cons_of_mem _ hx, e⟩

theorem mem_insertTurn {r : Rank} {t : Turn} {l : List (Rank × Turn)} {e : Rank × Turn} (h : e ∈ insertTurn r t l) :
    e = (r, t) ∨ e ∈ l := by
  induction l with
  | nil => simpa [insertTurn] using h
  | cons a l ih =>
    unfold insertTurn at h
    split at h
    · simpa using h
    · rcases List.mem_cons.mp h with rfl | h
      · exact .inr List.mem_cons_self
      · exact (ih h).imp_right (List.mem_cons_of_mem _)

/-- Laying turns out in order adds none. -/
theorem mem_insertTurns {l acc : List (Rank × Turn)} {e : Rank × Turn}
    (h : e ∈ l.foldl (fun acc e => insertTurn e.1 e.2 acc) acc) : e ∈ acc ∨ e ∈ l := by
  induction l generalizing acc with
  | nil => exact .inl h
  | cons a l ih =>
    rcases ih h with h | h
    · rcases mem_insertTurn h with rfl | h
      · exact .inr List.mem_cons_self
      · exact .inl h
    · exact .inr (List.mem_cons_of_mem _ h)

/-- Every turn of a beat is of a stream that can issue in it. -/
theorem mem_candidates {s : State} {T : Turn} (h : T ∈ candidates s) :
    ∃ x, s.streamOf T.ref = some x ∧ x.comes s = true ∧ T.core = x.grp.core ∧ T.sched = x.g.sched := by
  obtain ⟨ts, hts, hT⟩ := List.mem_flatten.mp h
  obtain ⟨k, -, rfl⟩ := List.mem_map.mp hts
  obtain ⟨⟨rank, T⟩, he, rfl⟩ := List.mem_map.mp hT
  obtain ⟨items, hi, hmem⟩ := List.mem_flatten.mp
    (List.mem_filter.mp ((mem_insertTurns he).resolve_left List.not_mem_nil)).1
  obtain ⟨_, r, -, rfl⟩ := mem_imap hi
  split at hmem
  · rename_i x hx
    split at hmem
    · rename_i hc
      obtain ⟨-, rfl⟩ := Prod.mk.inj (List.mem_singleton.mp hmem)
      exact ⟨x, hx, hc, rfl, rfl⟩
    · cases hmem
  · cases hmem

/-! ## The passing of a beat -/

theorem haltGroups_frame (s : State) :
    s.haltGroups = { s with gangs := s.haltGroups.gangs, groups := s.haltGroups.groups } := by
  unfold State.haltGroups
  dsimp only
  split <;> rfl

/-- A beat up to its scratchpad accesses: what BKPT has halted stops, the clocks move, timers fire, and what falls due
by the clock is set going. -/
def State.beatBegins (s : State) : State := ((s.haltGroups.tick).fireTimers).periodic s.ptp

theorem passBeat_eq (s : State) : passBeat s = { s.beatBegins.passesDue with
    cur := none, held := false, usedPipes := [], granted := [], rr := s.rr + 1
    turns := candidates s.beatBegins.passesDue } := rfl

/-- What the beginning of a beat leaves as the halt left it. -/
theorem beatBegins_fields (s : State) :
    s.beatBegins.bad = s.bad ∧ s.beatBegins.mem = s.mem ∧ s.beatBegins.passes = s.passes ∧
      s.beatBegins.windows = s.windows ∧ s.beatBegins.ops = s.ops ∧
      s.beatBegins.gangs = s.haltGroups.gangs ∧ s.beatBegins.groups = s.haltGroups.groups := by
  unfold State.beatBegins
  rw [haltGroups_frame]
  exact ⟨rfl, rfl, rfl, rfl, rfl, rfl, rfl⟩

theorem beatBegins_cycle (s : State) : s.beatBegins.cycle = s.cycle + 4 := by
  unfold State.beatBegins
  rw [haltGroups_frame]
  rfl

theorem beatBegins_beat (s : State) : s.beatBegins.beat = s.beat + 1 := by
  unfold State.beat
  rw [beatBegins_cycle]
  omega

/-- Without a pending correction PTPNOW moves by the arithmetic clock alone (R421). -/
theorem tick_ptp {s : State} (h : s.slew = 0) : s.tick.ptp = s.ptp + (s.ptpRem + 4000) / s.mhz := by
  simp only [State.tick, h, Config.beatCycles, Int.lt_irrefl, if_false, ite_self, Int.add_zero, Int.toNat_natCast]

theorem beatBegins_ptp {s : State} (h : s.slew = 0) : s.beatBegins.ptp = s.ptp + (s.ptpRem + 4000) / s.mhz := by
  have hp : s.haltGroups.tick.ptp = s.tick.ptp := by rw [haltGroups_frame]; rfl
  exact hp.trans (tick_ptp h)

/-- A timer that is due becomes a step of the agenda; the others stay. -/
theorem beatBegins_timer {s : State} {e : Nat × Instr} (he : e ∈ s.timers) :
    if e.1 ≤ s.cycle + 4 then e.2 ∈ s.beatBegins.agenda else e ∈ s.beatBegins.timers := by
  have hv : s.haltGroups.tick.timers = s.timers ∧ s.haltGroups.tick.cycle = s.cycle + 4 := by
    rw [haltGroups_frame]; exact ⟨rfl, rfl⟩
  obtain ⟨ht, hc⟩ := hv
  split
  · rename_i hd
    have : e.2 ∈ ((s.haltGroups.tick).fireTimers).agenda := by
      simp only [State.fireTimers, ht, hc, List.mem_append]
      exact .inl (.inr (List.mem_map_of_mem (List.mem_filter.mpr ⟨he, by simpa using hd⟩)))
    simp only [State.beatBegins, State.periodic, List.mem_append]
    exact .inl (.inl (.inl (.inl (.inl this))))
  · rename_i hd
    show e ∈ ((s.haltGroups.tick).fireTimers).timers
    simp only [State.fireTimers, ht, hc]
    exact List.mem_filter.mpr ⟨he, by simpa using hd⟩

/-- The turns of a beat are of streams that can issue in it (R35). -/
theorem mem_passBeat_turns {s : State} {T : Turn} (h : T ∈ (passBeat s).turns) :
    ∃ x, (passBeat s).streamOf T.ref = some x ∧ x.comes (passBeat s) = true ∧ T.core = x.grp.core ∧ T.sched = x.g.sched :=
  mem_candidates (s := s.beatBegins.passesDue) h

/-- Clocks, memory, gangs and groups after a beat over sound storage. -/
theorem passBeat_fields {s : State} (h : s.bad = []) :
    (passBeat s).cycle = s.cycle + 4 ∧ (passBeat s).mem = s.mem ∧ (passBeat s).gangs = s.haltGroups.gangs ∧
      (passBeat s).groups = s.haltGroups.groups ∧ (passBeat s).ptp = s.beatBegins.ptp ∧
      (passBeat s).agenda = s.beatBegins.agenda ∧ (passBeat s).timers = s.beatBegins.timers := by
  obtain ⟨hbad, hmem, -, -, -, hgangs, hgroups⟩ := beatBegins_fields s
  obtain ⟨pc, pm, pg, pG, pp, pa, pt⟩ := passesDue_fields (hbad.trans h)
  exact ⟨pc.trans (beatBegins_cycle s), pm.trans hmem, pg.trans hgangs, pG.trans hgroups, pp, pa, pt⟩

/-- An access that a beat keeps is still to have its last pass done. -/
theorem mem_passBeat_passes {s : State} (h : s.bad = []) {p : ScratchPass} (hp : p ∈ (passBeat s).passes) :
    p ∈ s.passes ∧ (p.slices ≠ [] → s.beat + 1 < p.due) := by
  obtain ⟨hbad, -, hpasses, -⟩ := beatBegins_fields s
  have := mem_passesDue (hbad.trans h) hp
  rwa [hpasses, beatBegins_beat] at this

/-- A beat in which no access is due performs none. -/
theorem passBeat_nothingDue {s : State} (hd : ∀ p ∈ s.passes, s.beat + 1 < p.due) :
    (passBeat s).passes = s.passes ∧ (passBeat s).windows = s.windows ∧ (passBeat s).ops = s.ops := by
  obtain ⟨-, -, hpasses, hwindows, hops, -⟩ := beatBegins_fields s
  have hn : s.beatBegins.passesDue = s.beatBegins := by
    rw [passesDue_eq, duePasses_nil (by rwa [hpasses, beatBegins_beat])]
    rfl
  rw [passBeat_eq, hn]
  exact ⟨hpasses, hwindows, hops⟩

/-- A beat performs the one access that is due as it would be over the state that the halt leaves. -/
theorem passBeat_oneDue {s : State} (h : s.bad = []) {p : ScratchPass} (hp : s.passes = [p]) (hs : p.slices ≠ [])
    (hd : p.due ≤ s.beat + 1) :
    (passBeat s).windows = (s.haltGroups.performPass p).windows ∧ (passBeat s).ops = (s.haltGroups.performPass p).ops := by
  obtain ⟨hbad, -, hpasses, hwindows, hops, hgangs, hgroups⟩ := beatBegins_fields s
  have hone : s.beatBegins.passesDue = s.beatBegins.performPass p := by
    rw [passesDue_eq, duePasses_one (hpasses.trans hp) hs (by rwa [beatBegins_beat])]
    rfl
  have hsame : SamePads s.haltGroups s.beatBegins := by
    have hh := haltGroups_frame s
    exact ⟨by rw [hh]; exact h, hbad.trans h, hgangs, hgroups, by rw [hh]; exact hwindows, by rw [hh]; exact hops⟩
  rw [passBeat_eq, hone, performPass_eq hsame]
  exact ⟨rfl, rfl⟩

/-! ## Fills -/

/-- A walk that meets a leaf enters it as the youngest entry (R192). -/
theorem exec_tlbFill_leaf {s u : State} {core part asn va : Nat} {l : Leaf} (hva : va < 2 ^ 48)
    (hd : s.draining part asn va = false) (ht : s.tlb? core part asn va = none) (hr : s.walkRead part asn va = .ok u)
    (hw : walk u part asn va = .leaf l) : exec (.tlbFill core part asn va) s = .next (u.fillTlb core part asn l) := by
  show execTlbFill core part asn va s = _
  simp only [execTlbFill, hd, ht, Bool.false_eq_true, Option.isSome_none, if_false, if_neg (Nat.not_le.mpr hva), hr, hw]

/-- A walk that meets an absent entry tells system software (R194). -/
theorem exec_tlbFill_absent {s u : State} {core part asn va : Nat} (hva : va < 2 ^ 48)
    (hd : s.draining part asn va = false) (ht : s.tlb? core part asn va = none) (hr : s.walkRead part asn va = .ok u)
    (hw : walk u part asn va = .absent) : exec (.tlbFill core part asn va) s = .next (u.notPresent part asn va) := by
  show execTlbFill core part asn va s = _
  simp only [execTlbFill, hd, ht, Bool.false_eq_true, Option.isSome_none, if_false, if_neg (Nat.not_le.mpr hva), hr, hw]

/-- A walk that a held line stops tries again a beat later (R193). -/
theorem exec_tlbFill_held {s : State} {core part asn va : Nat} {h : Hold} (hva : va < 2 ^ 48)
    (hd : s.draining part asn va = false) (ht : s.tlb? core part asn va = none) (hr : s.walkRead part asn va = .error h) :
    exec (.tlbFill core part asn va) s = .next ((s.onHold h 0).postAt (s.cycle + 4) (.tlbFill core part asn va)) := by
  show execTlbFill core part asn va s = _
  simp only [execTlbFill, hd, ht, Bool.false_eq_true, Option.isSome_none, if_false, if_neg (Nat.not_le.mpr hva), hr]

theorem mem_faultq_notPresent {s : State} {part : Nat} (hp : part < s.parts.length) (asn va : Nat) :
    (asn, va / 65536 * 65536) ∈ ((s.notPresent part asn va).part part).faultq := by
  rw [State.notPresent, State.part_modPart, if_pos ⟨rfl, hp⟩]
  split
  · rename_i hc
    simpa using hc
  · simp

/-- A line that nothing holds comes in (R46). -/
theorem exec_fetchFill_ok {s u : State} {core part asn va : Nat} (hn : (core, part, asn, va / 128) ∉ s.icache)
    (hl : fetchLook s core part asn va = .ok u) : ∃ t, exec (.fetchFill core part asn va) s = .next t ∧
      (core, part, asn, va / 128) ∈ t.icache ∧ t = { u with icache := t.icache } := by
  have hc : s.icache.contains (core, part, asn, va / 128) = false := by simpa using hn
  refine ⟨_, by show execFetchFill core part asn va s = _; simp only [execFetchFill, hc, hl]; rfl, ?_, rfl⟩
  exact List.mem_cons_self

theorem exec_fetchFill_held {s u : State} {core part asn va : Nat} (hn : (core, part, asn, va / 128) ∉ s.icache)
    (hl : fetchLook s core part asn va = .error u) :
    exec (.fetchFill core part asn va) s = .next (u.postAt (u.cycle + 4) (.fetchFill core part asn va)) := by
  have hc : s.icache.contains (core, part, asn, va / 128) = false := by simpa using hn
  show execFetchFill core part asn va s = _
  simp only [execFetchFill, hc, Bool.false_eq_true, if_false, hl]

/-! ## Waking (R121) -/

theorem Slice.wake_due {sl : Slice} {beat due : Nat} (hr : sl.run = .sleep due) (hd : due ≤ beat) :
    sl.wake beat = { sl with run := .run, readyAt := due, since := due } := by
  simp [Slice.wake, hr, hd]

theorem Slice.wake_notDue {sl : Slice} {beat : Nat} (h : ∀ due, sl.run = .sleep due → beat < due) : sl.wake beat = sl := by
  unfold Slice.wake
  split
  · rename_i due hr
    simp [Nat.not_le.mpr (h due hr)]
  · rfl

/-- The gang as SLEEP_EXPIRY of one of its slices leaves it. -/
def Gang.woken (g : Gang) (beat k : Nat) : Gang :=
  if g.unified then { g with slices := g.slices.map (Slice.wake · beat) }
  else { g with slices := modAt (Slice.wake · beat) k g.slices }

theorem exec_sleepExpiry (s : State) (gang k : Nat) :
    exec (.sleepExpiry gang k) s = .next (s.modGang gang fun g => g.woken s.beat k) := rfl

theorem Gang.woken_id (g : Gang) (beat k : Nat) : (g.woken beat k).id = g.id := by
  unfold Gang.woken; split <;> rfl

theorem Gang.woken_slice {g : Gang} {i : Nat} {sl : Slice} (h : g.slices[i]? = some sl) (beat k : Nat) :
    (g.woken beat k).slices[i]? = some (if g.unified = true ∨ i = k then sl.wake beat else sl) := by
  unfold Gang.woken
  by_cases hu : g.unified = true
  · simp [hu, h]
  · by_cases hi : i = k
    · subst hi
      simp [hu, modAt_getElem?, h]
    · simp [hu, modAt_getElem?, h, hi]

theorem State.gang?_id {s : State} {id : Nat} {g : Gang} (h : s.gang? id = some g) : g.id = id := by
  simpa using List.find?_some h

/-- The gang that an update names, as it then is. -/
theorem State.gang?_modGang_self {s : State} {id : Nat} {g : Gang} (h : s.gang? id = some g) {f : Gang → Gang}
    (hf : ∀ g, (f g).id = g.id) : (s.modGang id f).gang? id = some (f g) := by
  rw [State.gang?_modGang s hf, h, Option.map_some, if_pos (State.gang?_id h)]

/-! ## Returns (R59, R99) -/

/-- What the word that holds its stream reads of an operation stands for it; the operation holds no more (R370). -/
theorem exec_resultReturn_release {s : State} {id : Nat} {o : Op} (ho : s.op? id = some o) (hw : o.waits = 0)
    (hd : o.doc = false) (hr : o.rel = true) (hf : o.fabric = []) :
    exec (.resultReturn id) s = .next (s.modOp id fun o => { o with block := false }) := by
  show execResultReturn id s = _
  simp [execResultReturn, ho, hw, hd, hr, hf]

theorem exec_resultReturn_value {s : State} {id : Nat} {o : Op} (ho : s.op? id = some o) (hw : o.waits = 0)
    (hd : o.doc = false) (hr : o.rel = false) (hx : o.xc = none) :
    exec (.resultReturn id) s = .next (returnOp s o) := by
  show execResultReturn id s = _
  simp [execResultReturn, ho, hw, hd, hr, hx]

theorem exec_resultReturn_trap {s : State} {id : Nat} {o : Op} {e : FFlags × Word} (ho : s.op? id = some o)
    (hw : o.waits = 0) (hd : o.doc = false) (hr : o.rel = false) (hx : o.xc = some e) :
    exec (.resultReturn id) s = .next (returnTrap s o e.1 e.2) := by
  show execResultReturn id s = _
  simp [execResultReturn, ho, hw, hd, hr, hx]

theorem opRewritten_sound {s : State} (h : s.bad = []) (o : Op) : s.opRewritten o = s := by
  unfold State.opRewritten
  dsimp only
  cases o.reg <;> cases o.mreg <;> simp only [rewritten_sound h]

/-- The gang as the return of an operation leaves it. -/
def Gang.filled (o : Op) (g : Gang) : Gang :=
  { g with slices := imap (fun i sl => if o.slices.contains i then Slice.fill o i sl else sl) 0 g.slices }

/-- A return over sound storage, with no lane that died and no fabric fault, fills slices of its gang and is gone. -/
theorem returnOp_sound {s : State} (h : s.bad = []) {o : Op} (hd : o.dead = []) (hf : o.fabric = []) :
    returnOp s o = { s.modGang o.gang (Gang.filled o) with ops := s.ops.filter (·.id != o.id) } := by
  simp only [returnOp, opRewritten_sound h, hd, hf, killMore, List.isEmpty_nil, if_true]
  rfl

/-- An enabled exception is a trap at the return, before any lane has written (R99, R173). -/
theorem returnTrap_eq {s : State} {o : Op} {g : Gang} {G : Group} (hg : s.gang? o.gang = some g)
    (hG : s.group? g.group = some G) (fl : FFlags) (m : Word) :
    returnTrap s o fl m =
      takeTrap { s with ops := s.ops.filter (·.id != o.id) } (Cx.withXC ⟨g, G, o.slices⟩ fl) 0x07 0 false m none := by
  simp only [State.gang?, State.group?] at hg hG
  simp only [returnTrap, State.gang?, State.group?, hg, hG]

/-- A lane after the return of an operation with one destination register: the register, if it still waits for
the operation, has the lane's value. -/
theorem fill_lane {o : Op} {i j r : Nat} {sl : Slice} {l : Lane} (hl : sl.lanes[j]? = some l) (hr : o.reg = some r)
    (hm : o.regs = []) : ∃ l', (Slice.fill o i sl).lanes[j]? = some l' ∧ l'.p = l.p ∧ l'.dead = l.dead ∧
      l'.n = if (at' Timing.zero sl.nT r).pend = some o.id
        then (o.valueAt (4 * i + j)).elim l.n (fun v => modAt (fun _ => v) r l.n) else l.n := by
  simp only [Slice.fill, Slice.raise, Slice.mapLanes, imap_zero_getElem?, hl, hr, hm, Option.map_some, List.filter_nil,
    List.foldl_nil]
  refine ⟨_, rfl, ?_⟩
  by_cases hp : (at' Timing.zero sl.nT r).pend = some o.id
  · rw [if_pos hp, if_pos hp]
    cases o.valueAt (4 * i + j) with
    | none => split <;> exact ⟨rfl, rfl, rfl⟩
    | some v => split <;> exact ⟨rfl, rfl, rfl⟩
  · rw [if_neg hp, if_neg hp]
    split <;> exact ⟨rfl, rfl, rfl⟩

end Sys2Proof.Machine
end

section
open Sys2Proof Sys2Proof.Machine

/-- Settles O42, clause by clause from the lemmas about beats, fills, wakings and returns. -/
theorem issueSteps : Obligations.IssueSteps := by
  unfold Obligations.IssueSteps
  refine ⟨?agenda, ?idle, ?beat, ?tlb, ?fetch, ?sleep, ?release, ?value, ?trap, ?lane⟩
  case agenda =>
    intro s i rest h
    simp only [step, h]
  case idle =>
    intro s ha ht
    simp only [step, ha, ht]
  case beat =>
    intro s
    refine ⟨passBeat s, rfl, rfl, rfl, rfl, fun T hT => mem_passBeat_turns hT, fun h => ?_⟩
    obtain ⟨hcycle, hmem, hgangs, hgroups, hptp, hagenda, htimers⟩ := passBeat_fields h
    refine ⟨hcycle, hmem, hgangs, hgroups, fun hs => hptp.trans (beatBegins_ptp hs), ?_,
      fun p hp => mem_passBeat_passes h hp, passBeat_nothingDue, fun p hp hs hd => passBeat_oneDue h hp hs hd⟩
    rw [hagenda, htimers]
    exact fun e he => beatBegins_timer he
  case tlb =>
    intro s core part asn va hva hd ht
    refine ⟨fun u l hr hw => ⟨_, exec_tlbFill_leaf hva hd ht hr hw, rfl, rfl⟩, fun u hr hp hw => ?_,
      fun h hr => exec_tlbFill_held hva hd ht hr⟩
    exact ⟨_, exec_tlbFill_absent hva hd ht hr hw, mem_faultq_notPresent hp asn va, rfl⟩
  case fetch =>
    intro s core part asn va hn
    exact ⟨fun u hl => exec_fetchFill_ok hn hl, fun u hl => exec_fetchFill_held hn hl⟩
  case sleep =>
    intro s gang k g hg
    refine ⟨_, _, exec_sleepExpiry s gang k, State.gang?_modGang_self hg (fun g => g.woken_id s.beat k), rfl, ?_⟩
    intro i sl hsl
    refine ⟨_, Gang.woken_slice hsl s.beat k, fun due hrun hdue hk => ?_, ?_⟩
    · rw [if_pos hk, Slice.wake_due hrun hdue]
    · rintro (hlate | ⟨hparted, hother⟩)
      · rw [Slice.wake_notDue hlate, ite_self]
      · rw [if_neg (by simp [hparted, hother])]
  case release =>
    intro s id o ho hw hd hr hf
    exact exec_resultReturn_release ho hw hd hr hf
  case value =>
    intro s id o ho hw hd hr hx hdead hf hb
    refine ⟨_, exec_resultReturn_value ho hw hd hr hx, ?_⟩
    rw [returnOp_sound hb hdead hf]
    refine ⟨rfl, fun g hg => ⟨_, State.gang?_modGang_self hg (f := Gang.filled o) (fun _ => rfl), fun i sl hsl => ?_⟩⟩
    rw [Gang.filled, imap_zero_getElem?, hsl, Option.map_some]
  case trap =>
    intro s id o e g G ho hw hd hr hx hg hG
    rw [exec_resultReturn_trap ho hw hd hr hx, returnTrap_eq hg hG]
  case lane =>
    intro o i sl j l r hl hr hlen hm
    obtain ⟨l', hl', hp, hdead, hn⟩ := fill_lane (i := i) hl hr hm
    refine ⟨l', hl', hp, hdead, fun k hk => ?_, fun hpend => by rw [hn, if_neg hpend], fun v hv hpend => ?_⟩
    · rw [hn]
      split
      · cases o.valueAt (4 * i + j) with
        | none => rfl
        | some v => simp [modAt_getElem?, hk]
      · rfl
    · rw [hn, if_pos hpend, hv, Option.elim_some, modAt_getElem?, if_pos rfl, List.getElem?_eq_getElem hlen, Option.map_some]

/-- Settles O57 by evaluating the reset state; partitions and queues by their number. -/
theorem resetState : Obligations.ResetState := by
  unfold Obligations.ResetState
  refine ⟨rfl, rfl, rfl, rfl, by decide, rfl, by decide, rfl, rfl, rfl, rfl, rfl, rfl, by decide, rfl⟩
end

section
/-!
SUPPORT. The decoder and the encoder are inverse to each other: a row of the decoder reads off a word exactly the bits
that its instruction's encoding puts back (R55, R68), and the statements of this family about words.
-/

namespace Sys2Proof

/-! ## Fields read off a word and laid out again -/

/-- A field that is read off a word and laid out again where it stood is that field's bits of the word. -/
theorem field_eq (n p : Nat) (w : BitVec 32) :
    (w.extractLsb' p n).setWidth 32 <<< p = w &&& (BitVec.allOnes n).setWidth 32 <<< p := by
  apply BitVec.eq_of_getLsbD_eq
  intro i hi
  simp only [BitVec.getLsbD_shiftLeft, BitVec.getLsbD_setWidth, BitVec.getLsbD_extractLsb', BitVec.getLsbD_and,
    BitVec.getLsbD_allOnes]
  by_cases hp : i < p
  · simp [hp]
  · simp [hi, hp, show p + (i - p) = i by omega, show i - p < 32 by omega, Bool.and_comm]

theorem field_eq_zero (n : Nat) (w : BitVec 32) :
    (w.extractLsb' 0 n).setWidth 32 = w &&& (BitVec.allOnes n).setWidth 32 := by
  simpa using field_eq n 0 w

theorem OpHsched.toWord_ofWord (w : BitVec 32) : (ofWord w).toWord = w &&& ~~~0xFFFFFFFC#32 := by
  simp only [OpHsched.toWord, OpHsched.ofWord, field_eq, field_eq_zero, ← BitVec.and_or_distrib_left]
  rfl

theorem OpHimm.toWord_ofWord (w : BitVec 32) : (ofWord w).toWord = w &&& ~~~0xFC000000#32 := by
  simp only [OpHimm.toWord, OpHimm.ofWord, field_eq, field_eq_zero, ← BitVec.and_or_distrib_left]
  rfl

theorem OpHdst.toWord_ofWord (w : BitVec 32) : (ofWord w).toWord = w &&& ~~~0xFFFFFFE0#32 := by
  simp only [OpHdst.toWord, OpHdst.ofWord, field_eq_zero]
  rfl

theorem OpHmod.toWord_ofWord (w : BitVec 32) : (ofWord w).toWord = w &&& ~~~0xFFFFF010#32 := by
  simp only [OpHmod.toWord, OpHmod.ofWord, field_eq, field_eq_zero, ← BitVec.and_or_distrib_left]
  rfl

theorem OpAB.toWord_ofWord (w : BitVec 32) : (ofWord w).toWord = w &&& ~~~0xFCE00000#32 := by
  simp only [OpAB.toWord, OpAB.ofWord, field_eq, field_eq_zero, ← BitVec.and_or_distrib_left]
  rfl

theorem OpA.toWord_ofWord (w : BitVec 32) : (ofWord w).toWord = w &&& ~~~0xFCE0007F#32 := by
  simp only [OpA.toWord, OpA.ofWord, field_eq, ← BitVec.and_or_distrib_left]
  rfl

theorem OpABC.toWord_ofWord (w : BitVec 32) : (ofWord w).toWord = w &&& ~~~0xFCE00000#32 := by
  simp only [OpABC.toWord, OpABC.ofWord, field_eq, field_eq_zero, ← BitVec.and_or_distrib_left]
  rfl

theorem OpCmp.toWord_ofWord (w : BitVec 32) : (ofWord w).toWord = w &&& ~~~0xFF800000#32 := by
  simp only [OpCmp.toWord, OpCmp.ofWord, field_eq, field_eq_zero, ← BitVec.and_or_distrib_left]
  rfl

theorem OpFma.toWord_ofWord (w : BitVec 32) : (ofWord w).toWord = w &&& ~~~0xFC600000#32 := by
  simp only [OpFma.toWord, OpFma.ofWord, field_eq, field_eq_zero, ← BitVec.and_or_distrib_left]
  rfl

theorem OpNarrow.toWord_ofWord (w : BitVec 32) : (ofWord w).toWord = w &&& ~~~0xFCE00070#32 := by
  simp only [OpNarrow.toWord, OpNarrow.ofWord, field_eq, field_eq_zero, ← BitVec.and_or_distrib_left]
  rfl

theorem OpCordic.toWord_ofWord (w : BitVec 32) : (ofWord w).toWord = w &&& ~~~0xFFC00007#32 := by
  simp only [OpCordic.toWord, OpCordic.ofWord, field_eq, ← BitVec.and_or_distrib_left]
  rfl

theorem OpRedU.toWord_ofWord (w : BitVec 32) : (ofWord w).toWord = w &&& ~~~0xFCE0007E#32 := by
  simp only [OpRedU.toWord, OpRedU.ofWord, field_eq, field_eq_zero, ← BitVec.and_or_distrib_left]
  rfl

theorem OpRedX.toWord_ofWord (w : BitVec 32) : (ofWord w).toWord = w &&& ~~~0xFCE0007D#32 := by
  simp only [OpRedX.toWord, OpRedX.ofWord, field_eq, ← BitVec.and_or_distrib_left]
  rfl

theorem OpPred2.toWord_ofWord (w : BitVec 32) : (ofWord w).toWord = w &&& ~~~0xFFE00000#32 := by
  simp only [OpPred2.toWord, OpPred2.ofWord, field_eq, field_eq_zero, ← BitVec.and_or_distrib_left]
  rfl

theorem OpPred1.toWord_ofWord (w : BitVec 32) : (ofWord w).toWord = w &&& ~~~0xFFE0007F#32 := by
  simp only [OpPred1.toWord, OpPred1.ofWord, field_eq, ← BitVec.and_or_distrib_left]
  rfl

theorem OpGuard.toWord_ofWord (w : BitVec 32) : (ofWord w).toWord = w &&& ~~~0xFFFFC07F#32 := by
  simp only [OpGuard.toWord, OpGuard.ofWord, field_eq]
  rfl

theorem OpPx1.toWord_ofWord (w : BitVec 32) : (ofWord w).toWord = w &&& ~~~0xFCE03FFF#32 := by
  simp only [OpPx1.toWord, OpPx1.ofWord, field_eq, ← BitVec.and_or_distrib_left]
  rfl

theorem OpPset.toWord_ofWord (w : BitVec 32) : (ofWord w).toWord = w &&& ~~~0xFCE00000#32 := by
  simp only [OpPset.toWord, OpPset.ofWord, field_eq, field_eq_zero, ← BitVec.and_or_distrib_left]
  rfl

theorem OpSel.toWord_ofWord (w : BitVec 32) : (ofWord w).toWord = w &&& ~~~0xFC00C000#32 := by
  simp only [OpSel.toWord, OpSel.ofWord, field_eq, field_eq_zero, ← BitVec.and_or_distrib_left]
  rfl

theorem OpMom2.toWord_ofWord (w : BitVec 32) : (ofWord w).toWord = w &&& ~~~0xFCE001FF#32 := by
  simp only [OpMom2.toWord, OpMom2.ofWord, field_eq, ← BitVec.and_or_distrib_left]
  rfl

theorem OpMomX.toWord_ofWord (w : BitVec 32) : (ofWord w).toWord = w &&& ~~~0xFCE01E03#32 := by
  simp only [OpMomX.toWord, OpMomX.ofWord, field_eq, ← BitVec.and_or_distrib_left]
  rfl

theorem OpMom1.toWord_ofWord (w : BitVec 32) : (ofWord w).toWord = w &&& ~~~0xFCE01FFF#32 := by
  simp only [OpMom1.toWord, OpMom1.ofWord, field_eq, ← BitVec.and_or_distrib_left]
  rfl

theorem OpMmake.toWord_ofWord (w : BitVec 32) : (ofWord w).toWord = w &&& ~~~0xFCE1FE03#32 := by
  simp only [OpMmake.toWord, OpMmake.ofWord, field_eq, ← BitVec.and_or_distrib_left]
  rfl

theorem OpMcol.toWord_ofWord (w : BitVec 32) : (ofWord w).toWord = w &&& ~~~0xFCFE1FFF#32 := by
  simp only [OpMcol.toWord, OpMcol.ofWord, field_eq, ← BitVec.and_or_distrib_left]
  rfl

theorem OpMcolX.toWord_ofWord (w : BitVec 32) : (ofWord w).toWord = w &&& ~~~0xFCFE1E03#32 := by
  simp only [OpMcolX.toWord, OpMcolX.ofWord, field_eq, ← BitVec.and_or_distrib_left]
  rfl

theorem OpLB.toWord_ofWord (w : BitVec 32) : (ofWord w).toWord = w &&& ~~~0xFC000000#32 := by
  simp only [OpLB.toWord, OpLB.ofWord, field_eq, field_eq_zero, ← BitVec.and_or_distrib_left]
  rfl

theorem OpLX.toWord_ofWord (w : BitVec 32) : (ofWord w).toWord = w &&& ~~~0xFC000000#32 := by
  simp only [OpLX.toWord, OpLX.ofWord, field_eq, field_eq_zero, ← BitVec.and_or_distrib_left]
  rfl

theorem OpSB.toWord_ofWord (w : BitVec 32) : (ofWord w).toWord = w &&& ~~~0xFC000000#32 := by
  simp only [OpSB.toWord, OpSB.ofWord, field_eq, field_eq_zero, ← BitVec.and_or_distrib_left]
  rfl

theorem OpSX.toWord_ofWord (w : BitVec 32) : (ofWord w).toWord = w &&& ~~~0xFC000000#32 := by
  simp only [OpSX.toWord, OpSX.ofWord, field_eq, field_eq_zero, ← BitVec.and_or_distrib_left]
  rfl

theorem OpLdo.toWord_ofWord (w : BitVec 32) : (ofWord w).toWord = w &&& ~~~0xFC800000#32 := by
  simp only [OpLdo.toWord, OpLdo.ofWord, field_eq, field_eq_zero, ← BitVec.and_or_distrib_left]
  rfl

theorem OpSto.toWord_ofWord (w : BitVec 32) : (ofWord w).toWord = w &&& ~~~0xFC800000#32 := by
  simp only [OpSto.toWord, OpSto.ofWord, field_eq, field_eq_zero, ← BitVec.and_or_distrib_left]
  rfl

theorem OpAT.toWord_ofWord (w : BitVec 32) : (ofWord w).toWord = w &&& ~~~0xFCF80001#32 := by
  simp only [OpAT.toWord, OpAT.ofWord, field_eq, ← BitVec.and_or_distrib_left]
  rfl

theorem OpRed.toWord_ofWord (w : BitVec 32) : (ofWord w).toWord = w &&& ~~~0xFCFC0001#32 := by
  simp only [OpRed.toWord, OpRed.ofWord, field_eq, ← BitVec.and_or_distrib_left]
  rfl

theorem OpSt.toWord_ofWord (w : BitVec 32) : (ofWord w).toWord = w &&& ~~~0xFCFFFFFF#32 := by
  simp only [OpSt.toWord, OpSt.ofWord, field_eq]
  rfl

theorem OpDoc.toWord_ofWord (w : BitVec 32) : (ofWord w).toWord = w &&& ~~~0xFCF00001#32 := by
  simp only [OpDoc.toWord, OpDoc.ofWord, field_eq, ← BitVec.and_or_distrib_left]
  rfl

theorem OpDoc1.toWord_ofWord (w : BitVec 32) : (ofWord w).toWord = w &&& ~~~0xFCFC07F1#32 := by
  simp only [OpDoc1.toWord, OpDoc1.ofWord, field_eq, ← BitVec.and_or_distrib_left]
  rfl

theorem OpFence.toWord_ofWord (w : BitVec 32) : (ofWord w).toWord = w &&& ~~~0xFCFFFFF8#32 := by
  simp only [OpFence.toWord, OpFence.ofWord, field_eq, field_eq_zero, ← BitVec.and_or_distrib_left]
  rfl

theorem OpCa.toWord_ofWord (w : BitVec 32) : (ofWord w).toWord = w &&& ~~~0xFCFC07FF#32 := by
  simp only [OpCa.toWord, OpCa.ofWord, field_eq, ← BitVec.and_or_distrib_left]
  rfl

theorem OpCab.toWord_ofWord (w : BitVec 32) : (ofWord w).toWord = w &&& ~~~0xFCFC000F#32 := by
  simp only [OpCab.toWord, OpCab.ofWord, field_eq, ← BitVec.and_or_distrib_left]
  rfl

theorem OpCb.toWord_ofWord (w : BitVec 32) : (ofWord w).toWord = w &&& ~~~0xFCFFF80F#32 := by
  simp only [OpCb.toWord, OpCb.ofWord, field_eq, ← BitVec.and_or_distrib_left]
  rfl

theorem OpBinit.toWord_ofWord (w : BitVec 32) : (ofWord w).toWord = w &&& ~~~0xFCFF0008#32 := by
  simp only [OpBinit.toWord, OpBinit.ofWord, field_eq, field_eq_zero, ← BitVec.and_or_distrib_left]
  rfl

theorem OpBarG.toWord_ofWord (w : BitVec 32) : (ofWord w).toWord = w &&& ~~~0xFCFF03FF#32 := by
  simp only [OpBarG.toWord, OpBarG.ofWord, field_eq, ← BitVec.and_or_distrib_left]
  rfl

theorem OpBarGE.toWord_ofWord (w : BitVec 32) : (ofWord w).toWord = w &&& ~~~0xFCFF000F#32 := by
  simp only [OpBarGE.toWord, OpBarGE.ofWord, field_eq, ← BitVec.and_or_distrib_left]
  rfl

theorem OpBwait.toWord_ofWord (w : BitVec 32) : (ofWord w).toWord = w &&& ~~~0xFCFF03FC#32 := by
  simp only [OpBwait.toWord, OpBwait.ofWord, field_eq, field_eq_zero, ← BitVec.and_or_distrib_left]
  rfl

theorem OpBtry.toWord_ofWord (w : BitVec 32) : (ofWord w).toWord = w &&& ~~~0xFCFF0004#32 := by
  simp only [OpBtry.toWord, OpBtry.ofWord, field_eq, field_eq_zero, ← BitVec.and_or_distrib_left]
  rfl

theorem OpBr.toWord_ofWord (w : BitVec 32) : (ofWord w).toWord = w &&& ~~~0xFF000000#32 := by
  simp only [OpBr.toWord, OpBr.ofWord, field_eq, field_eq_zero, ← BitVec.and_or_distrib_left]
  rfl

theorem OpJump.toWord_ofWord (w : BitVec 32) : (ofWord w).toWord = w &&& ~~~0xFF000000#32 := by
  simp only [OpJump.toWord, OpJump.ofWord, field_eq_zero]
  rfl

theorem OpJumpI.toWord_ofWord (w : BitVec 32) : (ofWord w).toWord = w &&& ~~~0xFFFFFF80#32 := by
  simp only [OpJumpI.toWord, OpJumpI.ofWord, field_eq_zero]
  rfl

theorem OpSleep.toWord_ofWord (w : BitVec 32) : (ofWord w).toWord = w &&& ~~~0xFCFF0000#32 := by
  simp only [OpSleep.toWord, OpSleep.ofWord, field_eq, field_eq_zero, ← BitVec.and_or_distrib_left]
  rfl

theorem OpYieldw.toWord_ofWord (w : BitVec 32) : (ofWord w).toWord = w &&& ~~~0xFCFF0000#32 := by
  simp only [OpYieldw.toWord, OpYieldw.ofWord, field_eq, field_eq_zero, ← BitVec.and_or_distrib_left]
  rfl

theorem OpRole.toWord_ofWord (w : BitVec 32) : (ofWord w).toWord = w &&& ~~~0xFCFFFFF8#32 := by
  simp only [OpRole.toWord, OpRole.ofWord, field_eq, field_eq_zero, ← BitVec.and_or_distrib_left]
  rfl

theorem OpRegion.toWord_ofWord (w : BitVec 32) : (ofWord w).toWord = w &&& ~~~0xFCFFFFC0#32 := by
  simp only [OpRegion.toWord, OpRegion.ofWord, field_eq, field_eq_zero, ← BitVec.and_or_distrib_left]
  rfl

theorem OpEmit.toWord_ofWord (w : BitVec 32) : (ofWord w).toWord = w &&& ~~~0xFCFF001F#32 := by
  simp only [OpEmit.toWord, OpEmit.ofWord, field_eq, ← BitVec.and_or_distrib_left]
  rfl

theorem OpLnch.toWord_ofWord (w : BitVec 32) : (ofWord w).toWord = w &&& ~~~0xFCFF01C0#32 := by
  simp only [OpLnch.toWord, OpLnch.ofWord, field_eq, field_eq_zero, ← BitVec.and_or_distrib_left]
  rfl

theorem OpEnF.toWord_ofWord (w : BitVec 32) : (ofWord w).toWord = w &&& ~~~0xFCF000FC#32 := by
  simp only [OpEnF.toWord, OpEnF.ofWord, field_eq, field_eq_zero, ← BitVec.and_or_distrib_left]
  rfl

theorem OpEnA.toWord_ofWord (w : BitVec 32) : (ofWord w).toWord = w &&& ~~~0xFCF03FFE#32 := by
  simp only [OpEnA.toWord, OpEnA.ofWord, field_eq, field_eq_zero, ← BitVec.and_or_distrib_left]
  rfl

theorem OpPark.toWord_ofWord (w : BitVec 32) : (ofWord w).toWord = w &&& ~~~0xFCFFC0D0#32 := by
  simp only [OpPark.toWord, OpPark.ofWord, field_eq, field_eq_zero, ← BitVec.and_or_distrib_left]
  rfl

theorem OpSpq.toWord_ofWord (w : BitVec 32) : (ofWord w).toWord = w &&& ~~~0xFCFFC0FF#32 := by
  simp only [OpSpq.toWord, OpSpq.ofWord, field_eq, ← BitVec.and_or_distrib_left]
  rfl

theorem OpEn2.toWord_ofWord (w : BitVec 32) : (ofWord w).toWord = w &&& ~~~0xFCF000FF#32 := by
  simp only [OpEn2.toWord, OpEn2.ofWord, field_eq, ← BitVec.and_or_distrib_left]
  rfl

theorem OpEn1.toWord_ofWord (w : BitVec 32) : (ofWord w).toWord = w &&& ~~~0xFCF03FFF#32 := by
  simp only [OpEn1.toWord, OpEn1.ofWord, field_eq, ← BitVec.and_or_distrib_left]
  rfl

theorem OpMxldb.toWord_ofWord (w : BitVec 32) : (ofWord w).toWord = w &&& ~~~0xFCF00000#32 := by
  simp only [OpMxldb.toWord, OpMxldb.ofWord, field_eq, field_eq_zero, ← BitVec.and_or_distrib_left]
  rfl

theorem OpEn3.toWord_ofWord (w : BitVec 32) : (ofWord w).toWord = w &&& ~~~0xFCF00003#32 := by
  simp only [OpEn3.toWord, OpEn3.ofWord, field_eq, ← BitVec.and_or_distrib_left]
  rfl

theorem OpSx.toWord_ofWord (w : BitVec 32) : (ofWord w).toWord = w &&& ~~~0xFCF00002#32 := by
  simp only [OpSx.toWord, OpSx.ofWord, field_eq, field_eq_zero, ← BitVec.and_or_distrib_left]
  rfl

theorem OpCsrr.toWord_ofWord (w : BitVec 32) : (ofWord w).toWord = w &&& ~~~0xFCFF03E0#32 := by
  simp only [OpCsrr.toWord, OpCsrr.ofWord, field_eq, field_eq_zero, ← BitVec.and_or_distrib_left]
  rfl

theorem OpCsrw.toWord_ofWord (w : BitVec 32) : (ofWord w).toWord = w &&& ~~~0xFCFF0380#32 := by
  simp only [OpCsrw.toWord, OpCsrw.ofWord, field_eq, field_eq_zero, ← BitVec.and_or_distrib_left]
  rfl

theorem OpCsrwK.toWord_ofWord (w : BitVec 32) : (ofWord w).toWord = w &&& ~~~0xFCFFFF80#32 := by
  simp only [OpCsrwK.toWord, OpCsrwK.ofWord, field_eq, field_eq_zero, ← BitVec.and_or_distrib_left]
  rfl

theorem OpCode.toWord_ofWord (w : BitVec 32) : (ofWord w).toWord = w &&& ~~~0xFCFF0000#32 := by
  simp only [OpCode.toWord, OpCode.ofWord, field_eq, field_eq_zero, ← BitVec.and_or_distrib_left]
  rfl

theorem OpClk.toWord_ofWord (w : BitVec 32) : (ofWord w).toWord = w &&& ~~~0xFCFFFFE0#32 := by
  simp only [OpClk.toWord, OpClk.ofWord, field_eq, field_eq_zero, ← BitVec.and_or_distrib_left]
  rfl

theorem OpDevr.toWord_ofWord (w : BitVec 32) : (ofWord w).toWord = w &&& ~~~0xFCFF00E0#32 := by
  simp only [OpDevr.toWord, OpDevr.ofWord, field_eq, field_eq_zero, ← BitVec.and_or_distrib_left]
  rfl

theorem OpGset.toWord_ofWord (w : BitVec 32) : (ofWord w).toWord = w &&& ~~~0xFCFF0380#32 := by
  simp only [OpGset.toWord, OpGset.ofWord, field_eq, field_eq_zero, ← BitVec.and_or_distrib_left]
  rfl
/-! ## Rows -/

/-- Whatever word belongs to the row, the instruction read from it encodes to that word. -/
def Row.Sound (r : Row) : Prop := ∀ w, w &&& r.mask = r.pat → encode (r.instr w) = some w

/-- A row is sound when its pattern and the fields of its format make up the whole word between them. -/
theorem Row.Sound.of_fields {m p : BitVec 32} {k : BitVec 32 → Instr} {f : BitVec 32 → BitVec 32}
    (hk : ∀ w, encode (k w) = some (p ||| f w)) (hf : ∀ w, f w = w &&& ~~~m) : Row.Sound ⟨m, p, k⟩ := by
  intro w hw
  have hw : w &&& m = p := hw
  have hsplit : w &&& m ||| w &&& ~~~m = w := by
    rw [← BitVec.and_or_distrib_left, BitVec.or_not_self, BitVec.and_allOnes]
  rw [hk, hf, ← hw, hsplit]

/-- A row of one word is sound when its instruction has that word. -/
theorem Row.Sound.of_fixed {p : BitVec 32} {i : Instr} (hi : encode i = some p) :
    Row.Sound ⟨0xFFFFFFFF#32, p, fun _ => i⟩ := by
  intro w hw
  have hw : w &&& BitVec.allOnes 32 = p := hw
  rw [hi, ← hw, BitVec.and_allOnes]

theorem rows00_sound : ∀ r ∈ rows00, r.Sound := by
  refine List.forall_mem_cons.mpr ⟨.of_fixed rfl, ?_⟩
  refine List.forall_mem_cons.mpr ⟨.of_fields (fun _ => rfl) OpHsched.toWord_ofWord, ?_⟩
  exact List.forall_mem_nil _

theorem rows01_sound : ∀ r ∈ rows01, r.Sound := by
  refine List.forall_mem_cons.mpr ⟨.of_fields (fun _ => rfl) OpHimm.toWord_ofWord, ?_⟩
  exact List.forall_mem_nil _

theorem rows02_sound : ∀ r ∈ rows02, r.Sound := by
  refine List.forall_mem_cons.mpr ⟨.of_fields (fun _ => rfl) OpHdst.toWord_ofWord, ?_⟩
  exact List.forall_mem_nil _

theorem rows03_sound : ∀ r ∈ rows03, r.Sound := by
  refine List.forall_mem_cons.mpr ⟨.of_fields (fun _ => rfl) OpHmod.toWord_ofWord, ?_⟩
  exact List.forall_mem_nil _

theorem rows04_sound : ∀ r ∈ rows04, r.Sound := by
  iterate 8 refine List.forall_mem_cons.mpr ⟨.of_fields (fun _ => rfl) OpAB.toWord_ofWord, ?_⟩
  exact List.forall_mem_nil _

theorem rows05_sound : ∀ r ∈ rows05, r.Sound := by
  iterate 8 refine List.forall_mem_cons.mpr ⟨.of_fields (fun _ => rfl) OpAB.toWord_ofWord, ?_⟩
  exact List.forall_mem_nil _

theorem rows06_sound : ∀ r ∈ rows06, r.Sound := by
  iterate 8 refine List.forall_mem_cons.mpr ⟨.of_fields (fun _ => rfl) OpAB.toWord_ofWord, ?_⟩
  exact List.forall_mem_nil _

theorem rows07_sound : ∀ r ∈ rows07, r.Sound := by
  iterate 8 refine List.forall_mem_cons.mpr ⟨.of_fields (fun _ => rfl) OpA.toWord_ofWord, ?_⟩
  exact List.forall_mem_nil _

theorem rows08_sound : ∀ r ∈ rows08, r.Sound := by
  iterate 8 refine List.forall_mem_cons.mpr ⟨.of_fields (fun _ => rfl) OpAB.toWord_ofWord, ?_⟩
  exact List.forall_mem_nil _

theorem rows09_sound : ∀ r ∈ rows09, r.Sound := by
  iterate 8 refine List.forall_mem_cons.mpr ⟨.of_fields (fun _ => rfl) OpAB.toWord_ofWord, ?_⟩
  exact List.forall_mem_nil _

theorem rows0A_sound : ∀ r ∈ rows0A, r.Sound := by
  iterate 8 refine List.forall_mem_cons.mpr ⟨.of_fields (fun _ => rfl) OpAB.toWord_ofWord, ?_⟩
  exact List.forall_mem_nil _

theorem rows0C_sound : ∀ r ∈ rows0C, r.Sound := by
  iterate 7 refine List.forall_mem_cons.mpr ⟨.of_fields (fun _ => rfl) OpABC.toWord_ofWord, ?_⟩
  exact List.forall_mem_nil _

theorem rows0D_sound : ∀ r ∈ rows0D, r.Sound := by
  iterate 4 refine List.forall_mem_cons.mpr ⟨.of_fields (fun _ => rfl) OpAB.toWord_ofWord, ?_⟩
  exact List.forall_mem_nil _

theorem rows0E_sound : ∀ r ∈ rows0E, r.Sound := by
  iterate 7 refine List.forall_mem_cons.mpr ⟨.of_fields (fun _ => rfl) OpCmp.toWord_ofWord, ?_⟩
  exact List.forall_mem_nil _

theorem rows0F_sound : ∀ r ∈ rows0F, r.Sound := by
  iterate 7 refine List.forall_mem_cons.mpr ⟨.of_fields (fun _ => rfl) OpCmp.toWord_ofWord, ?_⟩
  exact List.forall_mem_nil _

theorem rows10_sound : ∀ r ∈ rows10, r.Sound := by
  iterate 8 refine List.forall_mem_cons.mpr ⟨.of_fields (fun _ => rfl) OpAB.toWord_ofWord, ?_⟩
  exact List.forall_mem_nil _

theorem rows11_sound : ∀ r ∈ rows11, r.Sound := by
  iterate 8 refine List.forall_mem_cons.mpr ⟨.of_fields (fun _ => rfl) OpAB.toWord_ofWord, ?_⟩
  exact List.forall_mem_nil _

theorem rows12_sound : ∀ r ∈ rows12, r.Sound := by
  iterate 4 refine List.forall_mem_cons.mpr ⟨.of_fields (fun _ => rfl) OpFma.toWord_ofWord, ?_⟩
  exact List.forall_mem_nil _

theorem rows13_sound : ∀ r ∈ rows13, r.Sound := by
  iterate 4 refine List.forall_mem_cons.mpr ⟨.of_fields (fun _ => rfl) OpABC.toWord_ofWord, ?_⟩
  exact List.forall_mem_nil _

theorem rows14_sound : ∀ r ∈ rows14, r.Sound := by
  iterate 7 refine List.forall_mem_cons.mpr ⟨.of_fields (fun _ => rfl) OpA.toWord_ofWord, ?_⟩
  exact List.forall_mem_nil _

theorem rows15_sound : ∀ r ∈ rows15, r.Sound := by
  iterate 2 refine List.forall_mem_cons.mpr ⟨.of_fields (fun _ => rfl) OpA.toWord_ofWord, ?_⟩
  refine List.forall_mem_cons.mpr ⟨.of_fields (fun _ => rfl) OpAB.toWord_ofWord, ?_⟩
  iterate 4 refine List.forall_mem_cons.mpr ⟨.of_fields (fun _ => rfl) OpA.toWord_ofWord, ?_⟩
  iterate 2 refine List.forall_mem_cons.mpr ⟨.of_fields (fun _ => rfl) OpNarrow.toWord_ofWord, ?_⟩
  exact List.forall_mem_nil _

theorem rows16_sound : ∀ r ∈ rows16, r.Sound := by
  iterate 8 refine List.forall_mem_cons.mpr ⟨.of_fields (fun _ => rfl) OpCmp.toWord_ofWord, ?_⟩
  exact List.forall_mem_nil _

theorem rows17_sound : ∀ r ∈ rows17, r.Sound := by
  refine List.forall_mem_cons.mpr ⟨.of_fields (fun _ => rfl) OpAB.toWord_ofWord, ?_⟩
  refine List.forall_mem_cons.mpr ⟨.of_fields (fun _ => rfl) OpA.toWord_ofWord, ?_⟩
  exact List.forall_mem_nil _

theorem rows18_sound : ∀ r ∈ rows18, r.Sound := by
  iterate 10 refine List.forall_mem_cons.mpr ⟨.of_fields (fun _ => rfl) OpCordic.toWord_ofWord, ?_⟩
  exact List.forall_mem_nil _

theorem rows19_sound : ∀ r ∈ rows19, r.Sound := by
  iterate 3 refine List.forall_mem_cons.mpr ⟨.of_fields (fun _ => rfl) OpCordic.toWord_ofWord, ?_⟩
  exact List.forall_mem_nil _

theorem rows1A_sound : ∀ r ∈ rows1A, r.Sound := by
  iterate 7 refine List.forall_mem_cons.mpr ⟨.of_fields (fun _ => rfl) OpAB.toWord_ofWord, ?_⟩
  exact List.forall_mem_nil _

theorem rows1B_sound : ∀ r ∈ rows1B, r.Sound := by
  iterate 7 refine List.forall_mem_cons.mpr ⟨.of_fields (fun _ => rfl) OpAB.toWord_ofWord, ?_⟩
  exact List.forall_mem_nil _

theorem rows1C_sound : ∀ r ∈ rows1C, r.Sound := by
  iterate 2 refine List.forall_mem_cons.mpr ⟨.of_fields (fun _ => rfl) OpA.toWord_ofWord, ?_⟩
  iterate 2 refine List.forall_mem_cons.mpr ⟨.of_fields (fun _ => rfl) OpRedU.toWord_ofWord, ?_⟩
  iterate 2 refine List.forall_mem_cons.mpr ⟨.of_fields (fun _ => rfl) OpA.toWord_ofWord, ?_⟩
  iterate 2 refine List.forall_mem_cons.mpr ⟨.of_fields (fun _ => rfl) OpRedX.toWord_ofWord, ?_⟩
  exact List.forall_mem_nil _

theorem rows1D_sound : ∀ r ∈ rows1D, r.Sound := by
  iterate 4 refine List.forall_mem_cons.mpr ⟨.of_fields (fun _ => rfl) OpPred2.toWord_ofWord, ?_⟩
  iterate 4 refine List.forall_mem_cons.mpr ⟨.of_fields (fun _ => rfl) OpPred1.toWord_ofWord, ?_⟩
  exact List.forall_mem_nil _

theorem rows1E_sound : ∀ r ∈ rows1E, r.Sound := by
  refine List.forall_mem_cons.mpr ⟨.of_fields (fun _ => rfl) OpPx1.toWord_ofWord, ?_⟩
  refine List.forall_mem_cons.mpr ⟨.of_fields (fun _ => rfl) OpPset.toWord_ofWord, ?_⟩
  iterate 2 refine List.forall_mem_cons.mpr ⟨.of_fields (fun _ => rfl) OpPx1.toWord_ofWord, ?_⟩
  exact List.forall_mem_nil _

theorem rows1F_sound : ∀ r ∈ rows1F, r.Sound := by
  refine List.forall_mem_cons.mpr ⟨.of_fields (fun _ => rfl) OpSel.toWord_ofWord, ?_⟩
  exact List.forall_mem_nil _

theorem rows20_sound : ∀ r ∈ rows20, r.Sound := by
  iterate 2 refine List.forall_mem_cons.mpr ⟨.of_fields (fun _ => rfl) OpGuard.toWord_ofWord, ?_⟩
  refine List.forall_mem_cons.mpr ⟨.of_fixed rfl, ?_⟩
  exact List.forall_mem_nil _

theorem rows21_sound : ∀ r ∈ rows21, r.Sound := by
  iterate 3 refine List.forall_mem_cons.mpr ⟨.of_fields (fun _ => rfl) OpMom2.toWord_ofWord, ?_⟩
  iterate 2 refine List.forall_mem_cons.mpr ⟨.of_fields (fun _ => rfl) OpMomX.toWord_ofWord, ?_⟩
  iterate 2 refine List.forall_mem_cons.mpr ⟨.of_fields (fun _ => rfl) OpMom1.toWord_ofWord, ?_⟩
  exact List.forall_mem_nil _

theorem rows22_sound : ∀ r ∈ rows22, r.Sound := by
  iterate 6 refine List.forall_mem_cons.mpr ⟨.of_fields (fun _ => rfl) OpMom1.toWord_ofWord, ?_⟩
  exact List.forall_mem_nil _

theorem rows23_sound : ∀ r ∈ rows23, r.Sound := by
  refine List.forall_mem_cons.mpr ⟨.of_fields (fun _ => rfl) OpMmake.toWord_ofWord, ?_⟩
  iterate 4 refine List.forall_mem_cons.mpr ⟨.of_fields (fun _ => rfl) OpMcol.toWord_ofWord, ?_⟩
  refine List.forall_mem_cons.mpr ⟨.of_fields (fun _ => rfl) OpMcolX.toWord_ofWord, ?_⟩
  exact List.forall_mem_nil _

theorem rows24_sound : ∀ r ∈ rows24, r.Sound := by
  refine List.forall_mem_cons.mpr ⟨.of_fields (fun _ => rfl) OpLB.toWord_ofWord, ?_⟩
  exact List.forall_mem_nil _

theorem rows25_sound : ∀ r ∈ rows25, r.Sound := by
  refine List.forall_mem_cons.mpr ⟨.of_fields (fun _ => rfl) OpLX.toWord_ofWord, ?_⟩
  exact List.forall_mem_nil _

theorem rows26_sound : ∀ r ∈ rows26, r.Sound := by
  refine List.forall_mem_cons.mpr ⟨.of_fields (fun _ => rfl) OpSB.toWord_ofWord, ?_⟩
  exact List.forall_mem_nil _

theorem rows27_sound : ∀ r ∈ rows27, r.Sound := by
  refine List.forall_mem_cons.mpr ⟨.of_fields (fun _ => rfl) OpSX.toWord_ofWord, ?_⟩
  exact List.forall_mem_nil _

theorem rows28_sound : ∀ r ∈ rows28, r.Sound := by
  refine List.forall_mem_cons.mpr ⟨.of_fields (fun _ => rfl) OpLB.toWord_ofWord, ?_⟩
  exact List.forall_mem_nil _

theorem rows29_sound : ∀ r ∈ rows29, r.Sound := by
  refine List.forall_mem_cons.mpr ⟨.of_fields (fun _ => rfl) OpLX.toWord_ofWord, ?_⟩
  exact List.forall_mem_nil _

theorem rows2A_sound : ∀ r ∈ rows2A, r.Sound := by
  refine List.forall_mem_cons.mpr ⟨.of_fields (fun _ => rfl) OpSB.toWord_ofWord, ?_⟩
  exact List.forall_mem_nil _

theorem rows2B_sound : ∀ r ∈ rows2B, r.Sound := by
  refine List.forall_mem_cons.mpr ⟨.of_fields (fun _ => rfl) OpSX.toWord_ofWord, ?_⟩
  exact List.forall_mem_nil _

theorem rows2C_sound : ∀ r ∈ rows2C, r.Sound := by
  refine List.forall_mem_cons.mpr ⟨.of_fields (fun _ => rfl) OpLdo.toWord_ofWord, ?_⟩
  exact List.forall_mem_nil _

theorem rows2D_sound : ∀ r ∈ rows2D, r.Sound := by
  refine List.forall_mem_cons.mpr ⟨.of_fields (fun _ => rfl) OpSto.toWord_ofWord, ?_⟩
  exact List.forall_mem_nil _

theorem rows2E_sound : ∀ r ∈ rows2E, r.Sound := by
  iterate 11 refine List.forall_mem_cons.mpr ⟨.of_fields (fun _ => rfl) OpAT.toWord_ofWord, ?_⟩
  exact List.forall_mem_nil _

theorem rows2F_sound : ∀ r ∈ rows2F, r.Sound := by
  iterate 4 refine List.forall_mem_cons.mpr ⟨.of_fields (fun _ => rfl) OpRed.toWord_ofWord, ?_⟩
  iterate 2 refine List.forall_mem_cons.mpr ⟨.of_fields (fun _ => rfl) OpAT.toWord_ofWord, ?_⟩
  refine List.forall_mem_cons.mpr ⟨.of_fields (fun _ => rfl) OpSt.toWord_ofWord, ?_⟩
  exact List.forall_mem_nil _

theorem rows30_sound : ∀ r ∈ rows30, r.Sound := by
  iterate 2 refine List.forall_mem_cons.mpr ⟨.of_fields (fun _ => rfl) OpDoc.toWord_ofWord, ?_⟩
  iterate 2 refine List.forall_mem_cons.mpr ⟨.of_fields (fun _ => rfl) OpDoc1.toWord_ofWord, ?_⟩
  exact List.forall_mem_nil _

theorem rows31_sound : ∀ r ∈ rows31, r.Sound := by
  iterate 4 refine List.forall_mem_cons.mpr ⟨.of_fields (fun _ => rfl) OpFence.toWord_ofWord, ?_⟩
  exact List.forall_mem_nil _

theorem rows32_sound : ∀ r ∈ rows32, r.Sound := by
  iterate 2 refine List.forall_mem_cons.mpr ⟨.of_fields (fun _ => rfl) OpAT.toWord_ofWord, ?_⟩
  exact List.forall_mem_nil _

theorem rows33_sound : ∀ r ∈ rows33, r.Sound := by
  iterate 2 refine List.forall_mem_cons.mpr ⟨.of_fields (fun _ => rfl) OpCa.toWord_ofWord, ?_⟩
  refine List.forall_mem_cons.mpr ⟨.of_fields (fun _ => rfl) OpCab.toWord_ofWord, ?_⟩
  refine List.forall_mem_cons.mpr ⟨.of_fields (fun _ => rfl) OpCb.toWord_ofWord, ?_⟩
  refine List.forall_mem_cons.mpr ⟨.of_fields (fun _ => rfl) OpCab.toWord_ofWord, ?_⟩
  exact List.forall_mem_nil _

theorem rows34_sound : ∀ r ∈ rows34, r.Sound := by
  refine List.forall_mem_cons.mpr ⟨.of_fields (fun _ => rfl) OpBinit.toWord_ofWord, ?_⟩
  refine List.forall_mem_cons.mpr ⟨.of_fields (fun _ => rfl) OpBarG.toWord_ofWord, ?_⟩
  refine List.forall_mem_cons.mpr ⟨.of_fields (fun _ => rfl) OpBarGE.toWord_ofWord, ?_⟩
  refine List.forall_mem_cons.mpr ⟨.of_fields (fun _ => rfl) OpBwait.toWord_ofWord, ?_⟩
  refine List.forall_mem_cons.mpr ⟨.of_fields (fun _ => rfl) OpBtry.toWord_ofWord, ?_⟩
  iterate 2 refine List.forall_mem_cons.mpr ⟨.of_fields (fun _ => rfl) OpBarG.toWord_ofWord, ?_⟩
  exact List.forall_mem_nil _

theorem rows35_sound : ∀ r ∈ rows35, r.Sound := by
  iterate 4 refine List.forall_mem_cons.mpr ⟨.of_fields (fun _ => rfl) OpBr.toWord_ofWord, ?_⟩
  exact List.forall_mem_nil _

theorem rows36_sound : ∀ r ∈ rows36, r.Sound := by
  iterate 2 refine List.forall_mem_cons.mpr ⟨.of_fields (fun _ => rfl) OpJump.toWord_ofWord, ?_⟩
  refine List.forall_mem_cons.mpr ⟨.of_fixed rfl, ?_⟩
  iterate 2 refine List.forall_mem_cons.mpr ⟨.of_fields (fun _ => rfl) OpJumpI.toWord_ofWord, ?_⟩
  exact List.forall_mem_nil _

theorem rows37_sound : ∀ r ∈ rows37, r.Sound := by
  iterate 2 refine List.forall_mem_cons.mpr ⟨.of_fields (fun _ => rfl) OpSt.toWord_ofWord, ?_⟩
  refine List.forall_mem_cons.mpr ⟨.of_fields (fun _ => rfl) OpSleep.toWord_ofWord, ?_⟩
  refine List.forall_mem_cons.mpr ⟨.of_fields (fun _ => rfl) OpSt.toWord_ofWord, ?_⟩
  refine List.forall_mem_cons.mpr ⟨.of_fields (fun _ => rfl) OpYieldw.toWord_ofWord, ?_⟩
  exact List.forall_mem_nil _

theorem rows38_sound : ∀ r ∈ rows38, r.Sound := by
  refine List.forall_mem_cons.mpr ⟨.of_fields (fun _ => rfl) OpRole.toWord_ofWord, ?_⟩
  refine List.forall_mem_cons.mpr ⟨.of_fields (fun _ => rfl) OpRegion.toWord_ofWord, ?_⟩
  refine List.forall_mem_cons.mpr ⟨.of_fields (fun _ => rfl) OpEmit.toWord_ofWord, ?_⟩
  refine List.forall_mem_cons.mpr ⟨.of_fields (fun _ => rfl) OpLnch.toWord_ofWord, ?_⟩
  exact List.forall_mem_nil _

theorem rows39_sound : ∀ r ∈ rows39, r.Sound := by
  refine List.forall_mem_cons.mpr ⟨.of_fields (fun _ => rfl) OpEnF.toWord_ofWord, ?_⟩
  refine List.forall_mem_cons.mpr ⟨.of_fields (fun _ => rfl) OpEnA.toWord_ofWord, ?_⟩
  exact List.forall_mem_nil _

theorem rows3A_sound : ∀ r ∈ rows3A, r.Sound := by
  iterate 2 refine List.forall_mem_cons.mpr ⟨.of_fields (fun _ => rfl) OpPark.toWord_ofWord, ?_⟩
  iterate 2 refine List.forall_mem_cons.mpr ⟨.of_fields (fun _ => rfl) OpSpq.toWord_ofWord, ?_⟩
  exact List.forall_mem_nil _

theorem rows3B_sound : ∀ r ∈ rows3B, r.Sound := by
  iterate 2 refine List.forall_mem_cons.mpr ⟨.of_fields (fun _ => rfl) OpEn2.toWord_ofWord, ?_⟩
  refine List.forall_mem_cons.mpr ⟨.of_fields (fun _ => rfl) OpEn1.toWord_ofWord, ?_⟩
  refine List.forall_mem_cons.mpr ⟨.of_fields (fun _ => rfl) OpEn2.toWord_ofWord, ?_⟩
  refine List.forall_mem_cons.mpr ⟨.of_fields (fun _ => rfl) OpEn1.toWord_ofWord, ?_⟩
  refine List.forall_mem_cons.mpr ⟨.of_fields (fun _ => rfl) OpMxldb.toWord_ofWord, ?_⟩
  refine List.forall_mem_cons.mpr ⟨.of_fields (fun _ => rfl) OpEn2.toWord_ofWord, ?_⟩
  refine List.forall_mem_cons.mpr ⟨.of_fields (fun _ => rfl) OpSt.toWord_ofWord, ?_⟩
  refine List.forall_mem_cons.mpr ⟨.of_fields (fun _ => rfl) OpEn3.toWord_ofWord, ?_⟩
  refine List.forall_mem_cons.mpr ⟨.of_fields (fun _ => rfl) OpEnA.toWord_ofWord, ?_⟩
  refine List.forall_mem_cons.mpr ⟨.of_fields (fun _ => rfl) OpEn1.toWord_ofWord, ?_⟩
  iterate 2 refine List.forall_mem_cons.mpr ⟨.of_fields (fun _ => rfl) OpEn3.toWord_ofWord, ?_⟩
  exact List.forall_mem_nil _

theorem rows3C_sound : ∀ r ∈ rows3C, r.Sound := by
  iterate 4 refine List.forall_mem_cons.mpr ⟨.of_fields (fun _ => rfl) OpSx.toWord_ofWord, ?_⟩
  refine List.forall_mem_cons.mpr ⟨.of_fields (fun _ => rfl) OpEnF.toWord_ofWord, ?_⟩
  refine List.forall_mem_cons.mpr ⟨.of_fields (fun _ => rfl) OpEn2.toWord_ofWord, ?_⟩
  refine List.forall_mem_cons.mpr ⟨.of_fields (fun _ => rfl) OpEnA.toWord_ofWord, ?_⟩
  refine List.forall_mem_cons.mpr ⟨.of_fields (fun _ => rfl) OpEn2.toWord_ofWord, ?_⟩
  exact List.forall_mem_nil _

theorem rows3D_sound : ∀ r ∈ rows3D, r.Sound := by
  refine List.forall_mem_cons.mpr ⟨.of_fields (fun _ => rfl) OpSt.toWord_ofWord, ?_⟩
  iterate 3 refine List.forall_mem_cons.mpr ⟨.of_fields (fun _ => rfl) OpClk.toWord_ofWord, ?_⟩
  iterate 2 refine List.forall_mem_cons.mpr ⟨.of_fields (fun _ => rfl) OpCsrwK.toWord_ofWord, ?_⟩
  refine List.forall_mem_cons.mpr ⟨.of_fields (fun _ => rfl) OpCsrr.toWord_ofWord, ?_⟩
  refine List.forall_mem_cons.mpr ⟨.of_fields (fun _ => rfl) OpCsrw.toWord_ofWord, ?_⟩
  refine List.forall_mem_cons.mpr ⟨.of_fields (fun _ => rfl) OpDevr.toWord_ofWord, ?_⟩
  refine List.forall_mem_cons.mpr ⟨.of_fields (fun _ => rfl) OpGset.toWord_ofWord, ?_⟩
  iterate 2 refine List.forall_mem_cons.mpr ⟨.of_fields (fun _ => rfl) OpCode.toWord_ofWord, ?_⟩
  exact List.forall_mem_nil _

theorem rowsOf_sound (n : Nat) : ∀ r ∈ rowsOf n, r.Sound := by
  unfold rowsOf
  split
  · exact rows00_sound
  · exact rows01_sound
  · exact rows02_sound
  · exact rows03_sound
  · exact rows04_sound
  · exact rows05_sound
  · exact rows06_sound
  · exact rows07_sound
  · exact rows08_sound
  · exact rows09_sound
  · exact rows0A_sound
  · exact rows0C_sound
  · exact rows0D_sound
  · exact rows0E_sound
  · exact rows0F_sound
  · exact rows10_sound
  · exact rows11_sound
  · exact rows12_sound
  · exact rows13_sound
  · exact rows14_sound
  · exact rows15_sound
  · exact rows16_sound
  · exact rows17_sound
  · exact rows18_sound
  · exact rows19_sound
  · exact rows1A_sound
  · exact rows1B_sound
  · exact rows1C_sound
  · exact rows1D_sound
  · exact rows1E_sound
  · exact rows1F_sound
  · exact rows20_sound
  · exact rows21_sound
  · exact rows22_sound
  · exact rows23_sound
  · exact rows24_sound
  · exact rows25_sound
  · exact rows26_sound
  · exact rows27_sound
  · exact rows28_sound
  · exact rows29_sound
  · exact rows2A_sound
  · exact rows2B_sound
  · exact rows2C_sound
  · exact rows2D_sound
  · exact rows2E_sound
  · exact rows2F_sound
  · exact rows30_sound
  · exact rows31_sound
  · exact rows32_sound
  · exact rows33_sound
  · exact rows34_sound
  · exact rows35_sound
  · exact rows36_sound
  · exact rows37_sound
  · exact rows38_sound
  · exact rows39_sound
  · exact rows3A_sound
  · exact rows3B_sound
  · exact rows3C_sound
  · exact rows3D_sound
  · exact List.forall_mem_nil _

/-! ## What the decoder answers -/

theorem findRow_some {w : BitVec 32} {rows : List Row} {r : Row} (h : findRow w rows = some r) :
    r ∈ rows ∧ w &&& r.mask = r.pat := by
  induction rows with
  | nil => cases h
  | cons a rows ih =>
    rw [findRow] at h
    split at h
    next hm =>
      cases h
      exact ⟨List.mem_cons_self, eq_of_beq hm⟩
    next =>
      obtain ⟨hmem, hrow⟩ := ih h
      exact ⟨List.mem_cons_of_mem _ hmem, hrow⟩

/-- A word decodes in one of two ways: its primary opcode is reserved, or it belongs to a row of its primary opcode,
with operand codes that are not reserved (R68, R70). -/
theorem decodeWord_ok {w : BitVec 32} {i : Instr} (h : decodeWord w = .ok i) :
    (reservedPrimary w = true ∧ i = .illegalInstruction w) ∨
    ∃ r ∈ rowsOf (w.extractLsb' 26 6).toNat, w &&& r.mask = r.pat ∧ r.instr w = i ∧ i.wf = true := by
  unfold decodeWord at h
  split at h
  next hres =>
    cases h
    exact .inl ⟨hres, rfl⟩
  next =>
    split at h
    next => cases h
    next r hfind =>
      split at h
      next hwf =>
        cases h
        obtain ⟨hmem, hrow⟩ := findRow_some hfind
        exact .inr ⟨r, hmem, hrow, rfl, hwf⟩
      next => cases h

theorem wf_of_decodeWord {w : BitVec 32} {i : Instr} (h : decodeWord w = .ok i) : i.wf = true := by
  obtain ⟨hres, rfl⟩ | ⟨r, -, -, -, hwf⟩ := decodeWord_ok h
  · exact hres
  · exact hwf

theorem encode_of_decodeWord {w : BitVec 32} {i : Instr} (h : decodeWord w = .ok i) : encode i = some w := by
  obtain ⟨-, rfl⟩ | ⟨r, hmem, hrow, rfl, -⟩ := decodeWord_ok h
  · rfl
  · exact rowsOf_sound _ r hmem w hrow

theorem decodeWord_reserved {w : BitVec 32} (h : reservedPrimary w = true) :
    decodeWord w = .ok (.illegalInstruction w) := if_pos h

theorem decode_bytesOfWord {w : BitVec 32} {i : Instr} (h : decodeWord w = .ok i) (rest : List Byte) :
    decode (bytesOfWord w ++ rest) = .ok (i, rest) := by
  simp only [bytesOfWord, List.cons_append, List.nil_append, decode, wordOfBytes_extract, h]

end Sys2Proof

namespace Sys2Proof.Laws.Encodes

/-- The lemmas per instruction together; a step of an agent has no word (R68). -/
theorem encodes (i : Instr) : Statement i := by
  cases i with
  | hnop => exact hnop
  | hsched o => exact hsched o
  | himm o => exact himm o
  | hdst o => exact hdst o
  | hmod o => exact hmod o
  | iadd o => exact iadd o
  | isub o => exact isub o
  | iadds o => exact iadds o
  | iaddu o => exact iaddu o
  | isubs o => exact isubs o
  | isubu o => exact isubu o
  | imul o => exact imul o
  | imulh o => exact imulh o
  | iaddG o => exact iaddG o
  | isubG o => exact isubG o
  | iaddsG o => exact iaddsG o
  | iadduG o => exact iadduG o
  | isubsG o => exact isubsG o
  | isubuG o => exact isubuG o
  | imulG o => exact imulG o
  | imulhG o => exact imulhG o
  | and o => exact and o
  | or o => exact or o
  | xor o => exact xor o
  | andn o => exact andn o
  | shl o => exact shl o
  | shr o => exact shr o
  | sar o => exact sar o
  | rotl o => exact rotl o
  | andG o => exact andG o
  | orG o => exact orG o
  | xorG o => exact xorG o
  | andnG o => exact andnG o
  | shlG o => exact shlG o
  | shrG o => exact shrG o
  | sarG o => exact sarG o
  | rotlG o => exact rotlG o
  | imin o => exact imin o
  | imax o => exact imax o
  | umin o => exact umin o
  | umax o => exact umax o
  | imulhu o => exact imulhu o
  | iabsd o => exact iabsd o
  | pklo o => exact pklo o
  | pkhi o => exact pkhi o
  | iminG o => exact iminG o
  | imaxG o => exact imaxG o
  | uminG o => exact uminG o
  | umaxG o => exact umaxG o
  | imulhuG o => exact imulhuG o
  | iabsdG o => exact iabsdG o
  | pkloG o => exact pkloG o
  | pkhiG o => exact pkhiG o
  | clz o => exact clz o
  | ctz o => exact ctz o
  | popc o => exact popc o
  | brev o => exact brev o
  | ineg o => exact ineg o
  | inot o => exact inot o
  | iabs o => exact iabs o
  | bswap o => exact bswap o
  | imad o => exact imad o
  | imad64 o => exact imad64 o
  | imadhs o => exact imadhs o
  | imadhz o => exact imadhz o
  | imadw o => exact imadw o
  | idot8 o => exact idot8 o
  | idot16 o => exact idot16 o
  | idivs o => exact idivs o
  | idivz o => exact idivz o
  | irems o => exact irems o
  | iremz o => exact iremz o
  | icmpeq o => exact icmpeq o
  | icmpne o => exact icmpne o
  | icmplt o => exact icmplt o
  | icmple o => exact icmple o
  | icmpltz o => exact icmpltz o
  | icmplez o => exact icmplez o
  | icmptst o => exact icmptst o
  | icmpeqG o => exact icmpeqG o
  | icmpneG o => exact icmpneG o
  | icmpltG o => exact icmpltG o
  | icmpleG o => exact icmpleG o
  | icmpltzG o => exact icmpltzG o
  | icmplezG o => exact icmplezG o
  | icmptstG o => exact icmptstG o
  | fadd o => exact fadd o
  | fsub o => exact fsub o
  | fmul o => exact fmul o
  | fmin o => exact fmin o
  | fmax o => exact fmax o
  | fminn o => exact fminn o
  | fmaxn o => exact fmaxn o
  | fcpsg o => exact fcpsg o
  | faddG o => exact faddG o
  | fsubG o => exact fsubG o
  | fmulG o => exact fmulG o
  | fminG o => exact fminG o
  | fmaxG o => exact fmaxG o
  | fminnG o => exact fminnG o
  | fmaxnG o => exact fmaxnG o
  | fcpsgG o => exact fcpsgG o
  | fma o => exact fma o
  | fms o => exact fms o
  | fnma o => exact fnma o
  | fnms o => exact fnms o
  | hdotBf16 o => exact hdotBf16 o
  | hdotF16 o => exact hdotF16 o
  | ffmaBf16x4 o => exact ffmaBf16x4 o
  | ffmaF16x4 o => exact ffmaF16x4 o
  | fabs o => exact fabs o
  | fneg o => exact fneg o
  | frnd o => exact frnd o
  | frndz o => exact frndz o
  | fclass o => exact fclass o
  | fgetexp o => exact fgetexp o
  | fgetman o => exact fgetman o
  | fcvtwl o => exact fcvtwl o
  | fcvtwh o => exact fcvtwh o
  | fcvtn o => exact fcvtn o
  | fcvtfi o => exact fcvtfi o
  | fcvtfu o => exact fcvtfu o
  | fcvtif o => exact fcvtif o
  | fcvtuf o => exact fcvtuf o
  | fenc o => exact fenc o
  | fdec o => exact fdec o
  | fcmpeq o => exact fcmpeq o
  | fcmpne o => exact fcmpne o
  | fcmplt o => exact fcmplt o
  | fcmple o => exact fcmple o
  | fcmpun o => exact fcmpun o
  | fcmpor o => exact fcmpor o
  | fcmpequ o => exact fcmpequ o
  | fcmpgt o => exact fcmpgt o
  | fdiv o => exact fdiv o
  | fsqrt o => exact fsqrt o
  | cexp2 o => exact cexp2 o
  | clog2 o => exact clog2 o
  | csin o => exact csin o
  | ccos o => exact ccos o
  | ctanh o => exact ctanh o
  | csigm o => exact csigm o
  | crcp o => exact crcp o
  | crsqrt o => exact crsqrt o
  | csqrt o => exact csqrt o
  | catan o => exact catan o
  | catan2 o => exact catan2 o
  | csincos o => exact csincos o
  | chypot o => exact chypot o
  | xshf o => exact xshf o
  | xup o => exact xup o
  | xdn o => exact xdn o
  | xbfly o => exact xbfly o
  | xget o => exact xget o
  | xperm o => exact xperm o
  | xrot o => exact xrot o
  | xshfG o => exact xshfG o
  | xupG o => exact xupG o
  | xdnG o => exact xdnG o
  | xbflyG o => exact xbflyG o
  | xgetG o => exact xgetG o
  | xpermG o => exact xpermG o
  | xrotG o => exact xrotG o
  | vsum o => exact vsum o
  | vfsum o => exact vfsum o
  | vmin o => exact vmin o
  | vmax o => exact vmax o
  | vfmin o => exact vfmin o
  | vfmax o => exact vfmax o
  | vscan o => exact vscan o
  | vfscan o => exact vfscan o
  | pand o => exact pand o
  | por o => exact por o
  | pxor o => exact pxor o
  | pandn o => exact pandn o
  | pnot o => exact pnot o
  | pmov o => exact pmov o
  | pany o => exact pany o
  | pall o => exact pall o
  | guard o => exact guard o
  | guardn o => exact guardn o
  | guardoff => exact guardoff
  | pbal o => exact pbal o
  | pset o => exact pset o
  | pget o => exact pget o
  | pcnt o => exact pcnt o
  | sel o => exact sel o
  | madd o => exact madd o
  | msub o => exact msub o
  | mmul o => exact mmul o
  | mscl o => exact mscl o
  | mofs o => exact mofs o
  | mneg o => exact mneg o
  | mcpy o => exact mcpy o
  | mrelu o => exact mrelu o
  | mexp o => exact mexp o
  | msig o => exact msig o
  | mtanh o => exact mtanh o
  | mrcp o => exact mrcp o
  | msqr o => exact msqr o
  | mmake o => exact mmake o
  | mcolMu o => exact mcolMu o
  | mcolVar o => exact mcolVar o
  | mcolSd o => exact mcolSd o
  | mcolPair o => exact mcolPair o
  | mcolSmp o => exact mcolSmp o
  | ldg o => exact ldg o
  | ldgx o => exact ldgx o
  | stg o => exact stg o
  | stgx o => exact stgx o
  | lds o => exact lds o
  | ldsx o => exact ldsx o
  | sts o => exact sts o
  | stsx o => exact stsx o
  | ldo o => exact ldo o
  | sto o => exact sto o
  | atmAdd o => exact atmAdd o
  | atmAnd o => exact atmAnd o
  | atmOr o => exact atmOr o
  | atmXor o => exact atmXor o
  | atmMin o => exact atmMin o
  | atmMax o => exact atmMax o
  | atmMinz o => exact atmMinz o
  | atmMaxz o => exact atmMaxz o
  | atmXchg o => exact atmXchg o
  | atmCas o => exact atmCas o
  | atmFadd o => exact atmFadd o
  | raddI32 o => exact raddI32 o
  | raddI64 o => exact raddI64 o
  | raddF32 o => exact raddF32 o
  | raddF64 o => exact raddF64 o
  | rmin o => exact rmin o
  | rmax o => exact rmax o
  | redfl o => exact redfl o
  | prop o => exact prop o
  | dread o => exact dread o
  | recyc o => exact recyc o
  | dstat o => exact dstat o
  | fenceAcq o => exact fenceAcq o
  | fenceRel o => exact fenceRel o
  | fenceFull o => exact fenceFull o
  | fenceEng o => exact fenceEng o
  | wsigSt o => exact wsigSt o
  | wsigAdd o => exact wsigAdd o
  | pref o => exact pref o
  | evf o => exact evf o
  | pin o => exact pin o
  | unpin o => exact unpin o
  | lhint o => exact lhint o
  | binit o => exact binit o
  | barr o => exact barr o
  | barrx o => exact barrx o
  | bwait o => exact bwait o
  | btry o => exact btry o
  | bdrop o => exact bdrop o
  | bdropRel o => exact bdropRel o
  | brAny o => exact brAny o
  | brAll o => exact brAll o
  | brNone o => exact brNone o
  | brUni o => exact brUni o
  | jmp o => exact jmp o
  | call o => exact call o
  | ret => exact ret
  | jmpi o => exact jmpi o
  | calli o => exact calli o
  | regang o => exact regang o
  | exit o => exact exit o
  | sleep o => exact sleep o
  | yield o => exact yield o
  | yieldw o => exact yieldw o
  | role o => exact role o
  | region o => exact region o
  | emit o => exact emit o
  | lnch o => exact lnch o
  | fork o => exact fork o
  | fkill o => exact fkill o
  | park o => exact park o
  | unpark o => exact unpark o
  | spqOut o => exact spqOut o
  | spqIn o => exact spqIn o
  | mxcfgNf o => exact mxcfgNf o
  | mxcfgTile o => exact mxcfgTile o
  | mxcfgFree o => exact mxcfgFree o
  | mxres o => exact mxres o
  | mxrel o => exact mxrel o
  | mxldb o => exact mxldb o
  | mxrake o => exact mxrake o
  | mxbegin o => exact mxbegin o
  | mxloop o => exact mxloop o
  | mxend o => exact mxend o
  | mxzero o => exact mxzero o
  | mxdrain o => exact mxdrain o
  | mxchk o => exact mxchk o
  | sxcopy o => exact sxcopy o
  | sxgath o => exact sxgath o
  | sxscat o => exact sxscat o
  | sxfill o => exact sxfill o
  | sxflip o => exact sxflip o
  | sxflipT o => exact sxflipT o
  | sxcan o => exact sxcan o
  | sxstat o => exact sxstat o
  | csrr o => exact csrr o
  | csrw o => exact csrw o
  | csrwErrinj o => exact csrwErrinj o
  | csrwClktest o => exact csrwClktest o
  | trap o => exact trap o
  | eret o => exact eret o
  | clkCyc o => exact clkCyc o
  | clkPts o => exact clkPts o
  | clkPtp o => exact clkPtp o
  | devr o => exact devr o
  | bkpt o => exact bkpt o
  | gset o => exact gset o
  | illegalInstruction o => exact illegalInstruction o
  | _ => exact fun _ h _ => nomatch h

end Sys2Proof.Laws.Encodes

open Sys2Proof Sys2Proof.Machine

/-- Settles O12: the word decodes to the instruction (`Encodes`), and its bytes in memory order are the word. -/
theorem decodeGivesBackWhatEncodeMade : Obligations.DecodeGivesBackWhatEncodeMade := by
  unfold Obligations.DecodeGivesBackWhatEncodeMade
  intro i w rest hwf henc
  exact decode_bytesOfWord (Laws.Encodes.encodes i w henc hwf) rest

/-- Settles O13: a word is its row's pattern and its row's fields, and the encoder lays out both (`rowsOf_sound`). -/
theorem encodeGivesBackWhatDecodeRead : Obligations.EncodeGivesBackWhatDecodeRead := by
  unfold Obligations.EncodeGivesBackWhatDecodeRead
  intro w i h
  exact ⟨wf_of_decodeWord h, encode_of_decodeWord h⟩

/-- Settles O14 by decoding the six words. -/
theorem wordsOfTheSpec : Obligations.WordsOfTheSpec := by
  unfold Obligations.WordsOfTheSpec
  exact ⟨⟨_, rfl, rfl, rfl, rfl, rfl, rfl⟩, ⟨_, rfl, rfl⟩, ⟨_, rfl, rfl, rfl, rfl, rfl⟩, ⟨_, rfl, rfl, rfl⟩, ⟨_, rfl, rfl⟩,
    rfl⟩

/-- Settles O15: the three primaries are the reserved ones, and the decoder gives well-formed instructions alone. -/
theorem reservedPrimariesTrap : Obligations.ReservedPrimariesTrap := by
  unfold Obligations.ReservedPrimariesTrap
  refine ⟨fun w hw => decodeWord_reserved ?_, fun w i h => wf_of_decodeWord h⟩
  rcases hw with hw | hw | hw <;> simp [reservedPrimary, hw]
end

section
/-!
SUPPORT. The scoreboarded lane words (R59, R445): the shared operation issues them, and a function-unit word besides waits
for its scheduler's unit (R165).
-/

namespace Sys2Proof.Claims

open Sys2Proof.Machine Sys2Proof.Safety

/-- A function-unit word that nothing holds, with its unit free, is issued and returns P·(n + 2) + 4 beats on (R173). -/
theorem cfWord_issued {s : State} {x : Cx} {o : OpCordic} {p : Nat} {f : Fmt → FMode → List FVal → List FRes}
    (hi : Issues s x (cfWordOf o p x.hints f).shape) (hc : NoCommonFault s x (cfWordOf o p x.hints f).shape)
    (hfree : cfBusy s x = false)
    (ht : NoTrap x x.enOf ((cfWordOf o p x.hints f).out x (allVals s.beat x.g [.s7 o.a]))) :
    ∃ t, cfWord s o p f = .next t ∧ LaneIssued s t x (cfWordOf o p x.hints f).shape
      (p * (o.i.toNat + 2) + 4) (p * (o.i.toNat + 2) + 4)
      ((cfWordOf o p x.hints f).out x (allVals s.beat x.g [.s7 o.a])) := by
  have hrun : cfWord s o p f =
      runLane s (cfWordOf o p x.hints f).shape noCauses (cfWordOf o p x.hints f).out := by
    rw [cfWord, withStream_eq hi.stream (notBlocked hi.free)]
    simp only [hfree, Bool.and_false, Bool.false_eq_true, if_false]
    rfl
  rw [hrun]
  exact runLaneWith_issued rfl (Nat.le_refl _) hi hc rfl ht

/-- Each of the 13 function-unit words is the shared operation with its passes and its function (R165, R166, R169). -/
theorem exec_cfForm {i : Instr} {o : OpCordic} {p : Nat} {f : Fmt → FMode → List FVal → List FRes}
    (h : CfForm i o p f) (s : State) : exec i s = cfWord s o p f := by
  cases h <;> rfl

/-- IDIVS, IDIVZ, IREMS and IREMZ are the shared operation with their row's sign and result (R87). -/
theorem exec_divForm {i : Instr} {o : OpAB} {sg rem : Bool} (h : DivForm i o sg rem) (s : State) :
    exec i s = runLane s (divWordOf o sg rem).shape (divWordOf o sg rem).pre (divWordOf o sg rem).out := by
  cases h <;> rfl

end Sys2Proof.Claims

open Sys2Proof Sys2Proof.Machine Sys2Proof.Claims

/-- Settles O6: every word is the shared operation of lane words on a shape with bounds for its return
(`issuesAs_of`), the function-unit words once their unit is seen to be free (`cfWord_issued`). -/
theorem scoreboardedLaneWords : Obligations.ScoreboardedLaneWords := by
  unfold Obligations.ScoreboardedLaneWords
  refine ⟨fun i o sg rem h => ?div, fun o => ?fdiv, fun o => ?fsqrt, fun i o p f h s x hi hc hfree ht => ?cf⟩
  case div => exact issuesAs_of rfl (idivBounds_le o.w) (exec_divForm h)
  case fdiv => exact issuesAs_of rfl (fdivBounds_le o.w) fun _ => rfl
  case fsqrt => exact issuesAs_of rfl (fdivBounds_le o.w) fun _ => rfl
  case cf =>
    rw [exec_cfForm h]
    exact cfWord_issued hi hc hfree ht
end

section
/-!
SUPPORT. Addresses that name no place (R179, R418), and what a fetch reads (R46, R192).
-/

namespace Sys2Proof.Machine

/-! ## Global addresses -/

theorem gaddr_highBits {s : State} {a : Word} (h : fld a 61 3 ≠ 0) : gaddr s a = none := if_pos h

theorem gaddr_thisDevice {s : State} {a : Word} (hz : fld a 61 3 = 0) (hdev : fld a 48 13 = 0) :
    gaddr s a = some (0, fld a 0 48) := by simp [gaddr, hz, hdev]

theorem gaddr_noPorts {s : State} {a : Word} (hp : s.ports = false) (hdev : fld a 48 13 ≠ 0) : gaddr s a = none := by
  simp [gaddr, hp, hdev]

theorem gaddr_beyondDomain {s : State} {a : Word} (hj : s.joined = true) (hdev : 4609 ≤ fld a 48 13) :
    gaddr s a = none := by
  simp [gaddr, hj, hdev, show fld a 48 13 ≠ 0 by omega]

/-! ## Fetch -/

theorem fetch_addressFault {s : State} {x : Cx} (h : gaddr s x.pc = none) : fetch s x = .fault 0x10 := by
  simp [fetch, h]

theorem farKey_thisDevice (va : Nat) : farKey 0 va = va := by simp [farKey]

theorem fetch_notExecutable {s : State} {x : Cx} {va : Nat} {l : Leaf} (h : gaddr s x.pc = some (0, va))
    (ht : s.tlb? x.grp.core x.grp.part x.grp.asn va = some l) (hx : l.x = false) : fetch s x = .fault 0x11 := by
  simp [fetch, h, farKey_thisDevice, ht, hx]

theorem fetch_word {s : State} {x : Cx} {va : Nat} {l : Leaf} (h : gaddr s x.pc = some (0, va))
    (ht : s.tlb? x.grp.core x.grp.part x.grp.asn va = some l) (hx : l.x = true)
    (hc : (x.grp.core, x.grp.part, x.grp.asn, va / 128) ∈ s.icache) :
    fetch s x = .word (word32 ((rangeFrom va 4).map fun v => s.peekCode x.grp.part x.grp.lid (l.key v))) := by
  simp [fetch, h, farKey_thisDevice, ht, hx, hc]

theorem word32_four (b0 b1 b2 b3 : Byte) :
    word32 [b0, b1, b2, b3] = BitVec.ofNat 32 (b0.toNat + 256 * (b1.toNat + 256 * (b2.toNat + 256 * b3.toNat))) := rfl

end Sys2Proof.Machine

open Sys2Proof Sys2Proof.Machine

/-- Settles O17, clause by clause from what an address names and what a fetch comes to. -/
theorem fetchReadsTheWordInMemoryOrder : Obligations.FetchReadsTheWordInMemoryOrder := by
  unfold Obligations.FetchReadsTheWordInMemoryOrder
  refine ⟨fun s x => fetch_addressFault, fun s a => ⟨gaddr_highBits, gaddr_noPorts, gaddr_beyondDomain,
    gaddr_thisDevice⟩, fun s x va h l ht => ⟨fetch_notExecutable h ht, fun hx hc => ?_⟩⟩
  rw [fetch_word h ht hx (List.contains_iff_mem.mp hc)]
  exact congrArg Fetched.word (word32_four ..)
end

section
/-!
SUPPORT. Traps (R70, R132, R137, R138), group-fatal faults (R72), the return from a handler (R138) and the halt of a group
by BKPT (R435), one lemma for each outcome.
-/

namespace Sys2Proof.Machine

open Sys2Proof.Safety Sys2Proof.Claims

/-! ## Being inside a handler -/

/-- Is some issuing slice of the stream inside its handler (R138)? -/
def Cx.inSomeHandler (x : Cx) : Prop := ∃ i ∈ x.ss, ∃ sl, x.g.slice? i = some sl ∧ sl.inHandler = true

theorem any_inHandler_iff (x : Cx) :
    (x.ss.any fun i => match x.g.slice? i with | some sl => sl.inHandler | none => false) = true ↔ x.inSomeHandler := by
  rw [List.any_eq_true]
  refine exists_congr fun i => and_congr_right fun _ => ?_
  cases x.g.slice? i <;> simp

/-- ERET's own condition: every issuing slice is inside its handler. -/
def Cx.inAllHandlers (x : Cx) : Bool :=
  x.ss.all fun i => match x.g.slice? i with | some sl => sl.inHandler | none => false

theorem inAllHandlers_true {x : Cx} (h : ∀ i ∈ x.ss, ∃ sl, x.g.slice? i = some sl ∧ sl.inHandler = true) :
    x.inAllHandlers = true := by
  refine List.all_eq_true.mpr fun i hi => ?_
  obtain ⟨sl, hsl, hin⟩ := h i hi
  simpa only [hsl] using hin

theorem inAllHandlers_false {x : Cx} (h : ∃ i ∈ x.ss, ∃ sl, x.g.slice? i = some sl ∧ sl.inHandler = false) :
    x.inAllHandlers = false := by
  obtain ⟨i, hi, sl, hsl, hout⟩ := h
  refine List.all_eq_false.mpr ⟨i, hi, ?_⟩
  simp only [hsl, hout, Bool.false_eq_true, not_false_eq_true]

/-! ## Group-fatal faults -/

/-- Noting that a replay met a fault changes the audits alone (R393). -/
theorem metFault_frame (s : State) (G : Group) : s.metFault G = { s with audits := (s.metFault G).audits } := by
  unfold State.metFault
  split <;> rfl

theorem metFault_group? (s : State) (G : Group) (id : Nat) : (s.metFault G).group? id = s.group? id := by
  rw [metFault_frame]
  rfl

/-- With no handler, or inside one, a precise fault is group-fatal (R138). -/
theorem takeTrap_fatal {s : State} {x : Cx} (h : x.grp.trapvec = 0 ∨ x.inSomeHandler) (cause code : Nat) (bk : Bool)
    (m : Word) (ret : Option Word) : takeTrap s x cause code bk m ret =
      groupFatal (s.metFault x.grp) x.grp.id cause (64 * x.g.idx + lowLane m) :=
  if_pos (h.imp_right (any_inHandler_iff x).mpr)

theorem groupFatal_frame (s : State) (id cause lane : Nat) : groupFatal s id cause lane =
    { s with groups := (groupFatal s id cause lane).groups, agenda := (groupFatal s id cause lane).agenda } := by
  unfold groupFatal
  split
  · rfl
  · split <;> rfl

/-- The first cause stands (R72). -/
theorem groupFatal_again {s : State} {id : Nat} {G : Group} (hG : s.group? id = some G) (hf : G.fatal ≠ none)
    (cause lane : Nat) : groupFatal s id cause lane = s := by
  simp only [groupFatal, hG, Option.isSome_iff_ne_none.mpr hf, if_true]

theorem groupFatal_first {s : State} {id : Nat} {G : Group} (hG : s.group? id = some G) (hf : G.fatal = none)
    (cause lane : Nat) : groupFatal s id cause lane =
      (s.modGroup id fun G => { G with fatal := some cause, fatalLn := lane }).post (.groupEnd id) := by
  simp only [groupFatal, hG, hf, Option.isSome_none, Bool.false_eq_true, if_false]

theorem State.group?_id {s : State} {id : Nat} {G : Group} (h : s.group? id = some G) : G.id = id := by
  simpa using List.find?_some h

/-- A group that had not failed is marked with the cause, and its end is set going (R72). -/
theorem groupFatal_marks {s : State} {id : Nat} {G : Group} (hG : s.group? id = some G) (hf : G.fatal = none)
    (cause lane : Nat) : ((groupFatal s id cause lane).group? id).bind Group.fatal = some cause ∧
      .groupEnd id ∈ (groupFatal s id cause lane).agenda := by
  rw [groupFatal_first hG hf]
  refine ⟨?_, List.mem_append_right _ List.mem_cons_self⟩
  have hmod := State.group?_modGroup s (f := fun G => { G with fatal := some cause, fatalLn := lane }) (fun _ => rfl) id id
  rw [hG, Option.map_some, if_pos (State.group?_id hG)] at hmod
  exact congrArg (Option.bind · Group.fatal) hmod

/-! ## The words -/

/-- A word without lane operands that is illegal where it stands is an illegal-instruction fault (R70). -/
theorem streamWord_illegal {s : State} {x : Cx} {preds : List Nat} {k : State → Cx → Host.Outcome State Fault Refusal}
    (h : StreamReady s x) : streamWord s false preds k = .next (takeTrap s x 0x01 0 false x.mask none) := by
  rw [streamWord, withStream_eq h.stream (notBlocked h.free)]
  rfl

theorem exec_trap_ready {s : State} {x : Cx} (h : StreamReady s x) (o : OpCode) :
    exec (.trap o) s = .next (takeTrap s x 0x0E o.c.toNat false x.mask (some (x.pc + 4))) := by
  show execTrap o s = _
  rw [execTrap, streamWord_ready h rfl]

theorem exec_bkpt_ready {s : State} {x : Cx} (h : StreamReady s x) (o : OpCode) : exec (.bkpt o) s =
    if s.dbgctl.getLsbD x.grp.part && (s.part x.grp.part).debug then
      .next ((s.setGang (x.next s 0)).modGroup x.grp.id fun G => { G with halting := true })
    else .next (takeTrap s x 0x0E o.c.toNat true x.mask (some (x.pc + 4))) := by
  show execBkpt o s = _
  rw [execBkpt, streamWord_ready h rfl]

theorem exec_illegalInstruction_issued {s : State} {x : Cx} (h : s.stream? = some x) (hb : x.blocked s = false)
    (w : BitVec 32) : exec (.illegalInstruction w) s = .next (takeTrap s x 0x01 0 false x.mask none) :=
  withStream_eq h hb _

theorem exec_eret_ready {s : State} {x : Cx} (h : StreamReady s x) (o : OpSt) : exec (.eret o) s =
    streamWord s x.inAllHandlers [] fun s x => .next ((trapReturn s x o.s.toNat).modGang x.g.id Gang.partTest) :=
  withStream_eq h.stream (notBlocked h.free) _

/-- The stream's gang on the return from its handler, before it is seen whether it parts (R138). -/
def Cx.returned (x : Cx) (beat st : Nat) : Gang :=
  x.mapSlices fun _ sl =>
    { sent beat st 0 sl.trappc sl with trapcause := sl.trapcause &&& ~~~(1#64 <<< 63) }

theorem trapReturn_eq (s : State) (x : Cx) (st : Nat) : trapReturn s x st = s.setGang (x.returned s.beat st) := by
  rw [trapReturn, issued_eq]
  exact congrArg s.setGang (mapSlices_mapSlices x _ fun _ sl => { sl with trapcause := sl.trapcause &&& ~~~(1#64 <<< 63) })

/-! ## The halt of a group (R435) -/

/-- Does some group with this number stop as the next beat begins? -/
theorem halting_ids_iff (s : State) (id : Nat) :
    ((s.groups.filter (·.halting)).map (·.id)).contains id = true ↔
      ∃ G ∈ s.groups, G.id = id ∧ G.halting = true := by
  simp only [List.contains_iff_mem, List.mem_map, List.mem_filter]
  exact exists_congr fun G => by rw [and_assoc, and_comm (a := G.halting = true)]

theorem haltGroups_none {s : State} (h : ∀ G ∈ s.groups, G.halting = false) : s.haltGroups = s := by
  have hids : s.groups.filter (·.halting) = [] := List.filter_eq_nil_iff.mpr fun G hG => by simp [h G hG]
  simp [State.haltGroups, hids]

/-- A group as the beat begins: one whose BKPT has issued is halted, with the time noted. -/
def Group.haltedAt (ptp : Nat) (G : Group) : Group :=
  if G.halting then { G with halting := false, halted := true, haltAt := ptp } else G

/-- A gang as its group stops: TRAPPC of every slice is where it goes on. -/
def Gang.stopped (g : Gang) : Gang := { g with slices := g.slices.map fun (sl : Slice) => { sl with trappc := sl.goesOn } }

theorem haltGroups_some {s : State} (h : ∃ G ∈ s.groups, G.halting = true) : s.haltGroups = { s with
    gangs := s.gangs.map fun g =>
      if ((s.groups.filter (·.halting)).map (·.id)).contains g.group then g.stopped else g
    groups := s.groups.map (Group.haltedAt s.ptp) } := by
  obtain ⟨G, hG, hh⟩ := h
  have hids : ((s.groups.filter (·.halting)).map (·.id)).isEmpty = false := by
    rw [List.isEmpty_eq_false_iff_exists_mem]
    exact ⟨G.id, List.mem_map.mpr ⟨G, List.mem_filter.mpr ⟨hG, hh⟩, rfl⟩⟩
  simp only [State.haltGroups, hids]
  rfl

theorem halting_cases (s : State) : (∀ G ∈ s.groups, G.halting = false) ∨ ∃ G ∈ s.groups, G.halting = true := by
  by_cases h : ∃ G ∈ s.groups, G.halting = true
  · exact .inr h
  · exact .inl fun G hG => by simpa using fun hh => h ⟨G, hG, hh⟩

theorem haltGroups_groups (s : State) : s.haltGroups.groups = s.groups.map (Group.haltedAt s.ptp) := by
  rcases halting_cases s with hnone | hsome
  · rw [haltGroups_none hnone, List.map_congr_left (g := id) fun G hG => by simp [Group.haltedAt, hnone G hG], List.map_id]
  · rw [haltGroups_some hsome]

/-- The gangs of the groups that stop. -/
theorem stopped_mem_haltGroups {s : State} {g : Gang} (hg : g ∈ s.gangs)
    (h : ∃ G ∈ s.groups, G.id = g.group ∧ G.halting = true) : g.stopped ∈ s.haltGroups.gangs := by
  have hsome : ∃ G ∈ s.groups, G.halting = true := h.imp fun _ hG => ⟨hG.1, hG.2.2⟩
  rw [haltGroups_some hsome]
  exact List.mem_map.mpr ⟨g, hg, if_pos ((halting_ids_iff s g.group).mpr h)⟩

/-- The gangs of all other groups. -/
theorem mem_haltGroups {s : State} {g : Gang} (hg : g ∈ s.gangs)
    (h : ∀ G ∈ s.groups, G.id = g.group → G.halting = false) : g ∈ s.haltGroups.gangs := by
  rcases halting_cases s with hnone | hsome
  · rwa [haltGroups_none hnone]
  · rw [haltGroups_some hsome]
    refine List.mem_map.mpr ⟨g, hg, if_neg fun hc => ?_⟩
    obtain ⟨G, hG, hid, hh⟩ := (halting_ids_iff s g.group).mp hc
    simp [h G hG hid] at hh

theorem haltGroups_fields (s : State) : s.haltGroups.mem = s.mem ∧ s.haltGroups.windows = s.windows := by
  rw [haltGroups_frame]
  exact ⟨rfl, rfl⟩

theorem goesOn_barrier {sl : Slice} {l : BarLoc} {own : Bool} {a : Word} (h : sl.run = .barrier l own a) :
    sl.goesOn = a := by rw [Slice.goesOn, h]

theorem goesOn_run {sl : Slice} (h : sl.run = .run) : sl.goesOn = sl.hints.addr.getD sl.pc := by rw [Slice.goesOn, h]

theorem ready_halted {s : State} {x : Cx} (h : x.grp.halted = true) : x.ready s = false := by
  simp [Cx.ready, Group.runs, h]

end Sys2Proof.Machine

open Sys2Proof Sys2Proof.Machine

/-- Settles O18, outcome by outcome: a fault that a handler takes (`takeTrap_handled`), a group that BKPT stops, the
return, and a fault that no handler takes (`takeTrap_fatal`). -/
theorem trapsEnterTheHandler : Obligations.TrapsEnterTheHandler := by
  unfold Obligations.TrapsEnterTheHandler
  refine ⟨⟨⟨?handled, ?bkpt, ?halt, ?goesOn, fun s x => ready_halted⟩, ?eret⟩, ?fatal⟩
  case handled =>
    intro s x hx
    refine ⟨fun h o => ⟨_, exec_trap_ready h o, takeTrap_handled hx ..⟩, fun h hd o => ?_,
      fun h hb w => ⟨_, exec_illegalInstruction_issued h hb w, takeTrap_handled hx ..⟩⟩
    rw [exec_bkpt_ready h, hd]
    exact ⟨_, rfl, takeTrap_handled hx ..⟩
  case bkpt =>
    intro s x h hd o
    rw [exec_bkpt_ready h, if_pos hd]
  case halt =>
    intro s
    exact ⟨haltGroups_none, haltGroups_groups s, fun g hg => ⟨stopped_mem_haltGroups hg, mem_haltGroups hg⟩,
      haltGroups_fields s⟩
  case goesOn =>
    intro sl
    exact ⟨fun l own a => goesOn_barrier, goesOn_run⟩
  case eret =>
    intro s x h o
    rw [exec_eret_ready h]
    refine ⟨fun hin => ⟨x.returned s.beat o.s.toNat, ?_, mapSlices_gangWith fun _ _ _ _ => rfl⟩, fun hout => ?_⟩
    · rw [inAllHandlers_true hin, streamWord_ready h rfl, trapReturn_eq]
      exact congrArg Host.Outcome.next (setGang_modGang s _ Gang.partTest (partTest_id _))
    · rw [inAllHandlers_false hout, streamWord_illegal h]
  case fatal =>
    intro s x h hno o
    obtain ⟨_, hG⟩ := stream?_some h.stream
    rw [← metFault_group? s x.grp] at hG
    refine ⟨_, (exec_trap_ready h o).trans (congrArg _ (takeTrap_fatal hno ..)), ?_⟩
    refine ⟨?_, ?_, ?_, fun hf => groupFatal_marks hG hf .., fun hf => groupFatal_again hG hf ..⟩
    all_goals
      rw [groupFatal_frame, metFault_frame]
end

section
/-!
SUPPORT. The two-source integer rules on one pair of sub-elements (R79): the value of each in fixed-width
arithmetic, and which of them mark what they clip.
-/

namespace Sys2Proof.Claims

open Sys2Proof.Machine

/-! ## Values -/

/-- On sub-elements of any width the rule `r` gives the fixed-width value `f`. -/
def Computes (r : Rule2) (f : (w : Nat) → BitVec w → BitVec w → BitVec w) : Prop :=
  ∀ w, 0 < w → ∀ a b : BitVec w, BitVec.ofNat w (r w a.toNat b.toNat).1 = f w a b

theorem ofNat_mod_two_pow (w n : Nat) : BitVec.ofNat w (n % 2 ^ w) = BitVec.ofNat w n :=
  BitVec.eq_of_toNat_eq (by simp)

theorem ofNat_toNat_self {w : Nat} (x : BitVec w) : BitVec.ofNat w x.toNat = x := by simp

theorem rIadd_computes : Computes rIadd fun _ a b => a + b := by
  intro w _ a b
  rw [rIadd, ofNat_mod_two_pow, BitVec.ofNat_add, ofNat_toNat_self, ofNat_toNat_self]

theorem rIsub_computes : Computes rIsub fun _ a b => a - b := by
  intro w _ a b
  have hb := b.isLt
  apply BitVec.eq_of_toNat_eq
  rw [rIsub, ofNat_mod_two_pow, BitVec.toNat_ofNat, BitVec.toNat_sub]
  congr 1
  omega

theorem rIadds_computes : Computes rIadds fun w a b => sats w (a.toInt + b.toInt) := by
  intro w hw a b
  rw [rIadds, sval_toNat hw, sval_toNat hw, satS_fst hw]

theorem rIsubs_computes : Computes rIsubs fun w a b => sats w (a.toInt - b.toInt) := by
  intro w hw a b
  rw [rIsubs, sval_toNat hw, sval_toNat hw, satS_fst hw]

/-- Unsigned saturation of a value that is not negative is the smaller of it and the greatest value (R75). -/
theorem satU_natCast (w n : Nat) : (satU w n).1 = min n (2 ^ w - 1) := by
  unfold satU
  have hneg : ¬ (n : Int) < 0 := by omega
  rw [if_neg hneg]
  split <;> simp only [Int.toNat_natCast] <;> omega

/-- Unsigned saturation of a difference is the difference, or 0 where it is negative (R75). -/
theorem satU_sub {w : Nat} (a b : BitVec w) : (satU w ((a.toNat : Int) - b.toNat)).1 = a.toNat - b.toNat := by
  have ha := a.isLt
  unfold satU
  split
  · simp only; omega
  · rw [if_neg (by omega)]
    simp only; omega

theorem rIaddu_computes : Computes rIaddu fun w a b => BitVec.ofNat w (min (a.toNat + b.toNat) (2 ^ w - 1)) := by
  intro w _ a b
  rw [rIaddu, ← Int.natCast_add, satU_natCast]

theorem rIsubu_computes : Computes rIsubu fun _ a b => if b ≤ a then a - b else 0 := by
  intro w _ a b
  rw [rIsubu, satU_sub]
  change _ = if b ≤ a then a - b else 0
  split
  case isTrue h => rw [← BitVec.ofNat_sub_ofNat_of_le _ _ b.isLt h, ofNat_toNat_self, ofNat_toNat_self]
  case isFalse h => exact congrArg (BitVec.ofNat w) (Nat.sub_eq_zero_of_le (Nat.le_of_not_le h))

theorem rImul_computes : Computes rImul fun _ a b => a * b := by
  intro w hw a b
  rw [rImul, sval_toNat hw, sval_toNat hw, ofNat_wrapI, BitVec.ofInt_mul, BitVec.ofInt_toInt, BitVec.ofInt_toInt]

theorem rImulh_computes :
    Computes rImulh fun w a b => BitVec.ofInt w (a.toInt * b.toInt / (2 ^ w : Nat)) := by
  intro w hw a b
  rw [rImulh, sval_toNat hw, sval_toNat hw, ofNat_wrapI]

theorem rImulhu_computes : Computes rImulhu fun w a b => BitVec.ofNat w (a.toNat * b.toNat / 2 ^ w) :=
  fun _ _ _ _ => rfl

theorem rIabsd_computes : Computes rIabsd fun w a b => BitVec.ofNat w (a.toInt - b.toInt).natAbs := by
  intro w hw a b
  rw [rIabsd, sval_toNat hw, sval_toNat hw]

theorem rAnd_computes : Computes rAnd fun _ a b => a &&& b := by
  intro w _ a b
  rw [rAnd, BitVec.ofNat_and, ofNat_toNat_self, ofNat_toNat_self]

theorem rOr_computes : Computes rOr fun _ a b => a ||| b := by
  intro w _ a b
  rw [rOr, BitVec.ofNat_or, ofNat_toNat_self, ofNat_toNat_self]

theorem rXor_computes : Computes rXor fun _ a b => a ^^^ b := by
  intro w _ a b
  rw [rXor, BitVec.ofNat_xor, ofNat_toNat_self, ofNat_toNat_self]

theorem rAndn_computes : Computes rAndn fun _ a b => a &&& ~~~b := by
  intro w _ a b
  rw [rAndn, ← BitVec.toNat_not, BitVec.ofNat_and, ofNat_toNat_self, ofNat_toNat_self]

theorem rShl_computes : Computes rShl fun _ a b => a <<< b.toNat := by
  intro w _ a b
  unfold rShl
  split
  case isTrue h => exact (BitVec.shiftLeft_eq_zero h).symm
  case isFalse h =>
    apply BitVec.eq_of_toNat_eq
    rw [ofNat_mod_two_pow, BitVec.toNat_ofNat, BitVec.toNat_shiftLeft, Nat.shiftLeft_eq]

theorem rShr_computes : Computes rShr fun _ a b => a >>> b.toNat := by
  intro w _ a b
  unfold rShr
  split
  case isTrue h => exact (BitVec.ushiftRight_eq_zero h).symm
  case isFalse h => rw [← Nat.shiftRight_eq_div_pow, ← BitVec.toNat_ushiftRight, ofNat_toNat_self]

/-- An arithmetic shift by the width or more leaves what a shift by the width less one leaves, the sign. -/
theorem toInt_div_two_pow_min {w : Nat} (a : BitVec w) (k : Nat) :
    a.toInt / (2 ^ min k (w - 1) : Nat) = a.toInt / (2 ^ k : Nat) := by
  rcases Nat.le_total k (w - 1) with h | h
  · rw [Nat.min_eq_left h]
  · rw [Nat.min_eq_right h]
    have hlo := a.le_toInt
    have hhi := a.toInt_lt
    have hp : 0 < 2 ^ (w - 1) := Nat.two_pow_pos _
    have hle : 2 ^ (w - 1) ≤ 2 ^ k := Nat.pow_le_pow_right (by decide) h
    have hc : ((2 : Int) ^ (w - 1)) = (2 ^ (w - 1) : Nat) := by push_cast; rfl
    rw [hc] at hlo hhi
    generalize 2 ^ (w - 1) = P at *
    generalize 2 ^ k = K at *
    rcases Int.lt_or_le a.toInt 0 with hn | hn
    · rw [Int.ediv_eq_neg_one_of_neg_of_le hn (by omega), Int.ediv_eq_neg_one_of_neg_of_le hn (by omega)]
    · rw [Int.ediv_eq_zero_of_lt hn hhi, Int.ediv_eq_zero_of_lt hn (by omega)]

theorem rSar_computes : Computes rSar fun _ a b => a.sshiftRight b.toNat := by
  intro w hw a b
  rw [rSar, sval_toNat hw, ofNat_wrapI, toInt_div_two_pow_min, ← Int.shiftRight_eq_div_pow]
  exact BitVec.sshiftRight_eq.symm

/-- Rotating moves the high bits below the low ones: the two parts share no bit, so that their sum joins them. -/
theorem rRotl_computes : Computes rRotl fun _ a b => a.rotateLeft b.toNat := by
  intro w hw a b
  have hr : b.toNat % w < w := Nat.mod_lt _ hw
  apply BitVec.eq_of_toNat_eq
  rw [BitVec.toNat_rotateLeft, rRotl, ofNat_mod_two_pow, BitVec.toNat_ofNat]
  generalize b.toNat % w = r at hr ⊢
  have hlow : a.toNat >>> (w - r) < 2 ^ r := by
    rw [Nat.shiftRight_eq_div_pow]
    apply Nat.div_lt_of_lt_mul
    rw [← Nat.pow_add, Nat.sub_add_cancel (Nat.le_of_lt hr)]
    exact a.isLt
  have hfits : a.toNat >>> (w - r) < 2 ^ w :=
    Nat.lt_trans hlow (Nat.pow_lt_pow_right (by decide) hr)
  rw [← Nat.shiftLeft_eq, ← Nat.shiftRight_eq_div_pow, Nat.shiftLeft_add_eq_or_of_lt hlow, Nat.or_mod_two_pow,
    Nat.mod_eq_of_lt hfits]

theorem rImin_computes : Computes rImin fun _ a b => if b.slt a then b else a := by
  intro w hw a b
  simp only [rImin, sval_toNat hw, BitVec.slt_iff_toInt_lt]
  split <;> exact ofNat_toNat_self _

theorem rImax_computes : Computes rImax fun _ a b => if a.slt b then b else a := by
  intro w hw a b
  simp only [rImax, sval_toNat hw, BitVec.slt_iff_toInt_lt]
  split <;> exact ofNat_toNat_self _

theorem rUmin_computes : Computes rUmin fun _ a b => if b < a then b else a := by
  intro w _ a b
  simp only [rUmin, BitVec.lt_def]
  split <;> exact ofNat_toNat_self _

theorem rUmax_computes : Computes rUmax fun _ a b => if a < b then b else a := by
  intro w _ a b
  simp only [rUmax, BitVec.lt_def]
  split <;> exact ofNat_toNat_self _

/-- Every rule of R79's table computes its entry. -/
theorem intRule_computes {r : Rule2} {f : (w : Nat) → BitVec w → BitVec w → BitVec w} (h : IntRule r f) :
    Computes r f := by
  cases h with
  | iadd => exact rIadd_computes
  | isub => exact rIsub_computes
  | iadds => exact rIadds_computes
  | iaddu => exact rIaddu_computes
  | isubs => exact rIsubs_computes
  | isubu => exact rIsubu_computes
  | imul => exact rImul_computes
  | imulh => exact rImulh_computes
  | and => exact rAnd_computes
  | or => exact rOr_computes
  | xor => exact rXor_computes
  | andn => exact rAndn_computes
  | shl => exact rShl_computes
  | shr => exact rShr_computes
  | sar => exact rSar_computes
  | rotl => exact rRotl_computes
  | imin => exact rImin_computes
  | imax => exact rImax_computes
  | umin => exact rUmin_computes
  | umax => exact rUmax_computes
  | imulhu => exact rImulhu_computes
  | iabsd => exact rIabsd_computes

/-! ## Marks -/

/-- Unsigned saturation marks exactly the results outside the range. -/
theorem satU_snd {w : Nat} (v : Int) : (satU w v).2 = true ↔ v < 0 ∨ ((2 ^ w : Nat) : Int) ≤ v := by
  unfold satU
  split
  case isTrue hneg => simp [hneg]
  case isFalse hneg =>
    split
    case isTrue hbig => simp only [hbig, or_true]
    case isFalse hbig => simp only [hneg, hbig, Bool.false_eq_true, or_self]

theorem rIadds_marks {w : Nat} (hw : 0 < w) (a b : BitVec w) :
    (rIadds w a.toNat b.toNat).2 = true ↔ outS w (a.toInt + b.toInt) := by
  rw [rIadds, sval_toNat hw, sval_toNat hw, satS_snd]

theorem rIsubs_marks {w : Nat} (hw : 0 < w) (a b : BitVec w) :
    (rIsubs w a.toNat b.toNat).2 = true ↔ outS w (a.toInt - b.toInt) := by
  rw [rIsubs, sval_toNat hw, sval_toNat hw, satS_snd]

theorem rIaddu_marks {w : Nat} (a b : BitVec w) :
    (rIaddu w a.toNat b.toNat).2 = true ↔ 2 ^ w ≤ a.toNat + b.toNat := by
  rw [rIaddu, satU_snd]
  omega

theorem rIsubu_marks {w : Nat} (a b : BitVec w) :
    (rIsubu w a.toNat b.toNat).2 = true ↔ a.toNat < b.toNat := by
  have ha := a.isLt
  rw [rIsubu, satU_snd]
  omega

/-- The mark of a result, when a rule's mark on a pair of sub-elements says `P` of the pair. -/
theorem zipElems_isat_iff {r : Rule2} {P : (w : Nat) → BitVec w → BitVec w → Prop}
    (h : ∀ {w : Nat}, 0 < w → ∀ a b : BitVec w, (r w a.toNat b.toNat).2 = true ↔ P w a b)
    (W : BitVec 2) (a b : Word) : (zipElems (widthOf W) r a b).isat = true ↔
      ∃ i, i < 64 / widthOf W ∧ P (widthOf W) (elemAt a W i) (elemAt b W i) := by
  simp only [zipElems_isat, h (widthOf_pos W), elemAt]

/-- A rule that never clips leaves no mark, at any width. -/
theorem zipElems_isat_false {r : Rule2} (h : ∀ w a b, (r w a b).2 = false) (w : Nat) (a b : Word) :
    (zipElems w r a b).isat = false := by
  simp only [zipElems, ← List.map_uncurry_zip_eq_zipWith, List.any_map, List.any_eq_false]
  intro e _
  simp [Function.uncurry, h]

/-- Beside the four saturating rules no rule of R79's table clips. -/
theorem intRule_unclipped {r : Rule2} {f : (w : Nat) → BitVec w → BitVec w → BitVec w} (h : IntRule r f)
    (hs : r ≠ rIadds) (hu : r ≠ rIaddu) (hs' : r ≠ rIsubs) (hu' : r ≠ rIsubu) (w a b : Nat) :
    (r w a b).2 = false := by
  cases h with
  | iadds => exact absurd rfl hs
  | iaddu => exact absurd rfl hu
  | isubs => exact absurd rfl hs'
  | isubu => exact absurd rfl hu'
  | _ => rfl

end Sys2Proof.Claims

open Sys2Proof Sys2Proof.Machine Sys2Proof.Claims

/-- Settles O11: a sub-element of a result is the rule's value on the operands' (`zipElems_extract`), which is the entry
of R79's table (`intRule_computes`); the mark is that of some pair (`zipElems_isat_iff`). -/
theorem integerResultRules : Obligations.IntegerResultRules := by
  unfold Obligations.IntegerResultRules
  refine ⟨fun r f h W a b i hi => ?value, fun W a b => ⟨?iadds, ?isubs, ?iaddu, ?isubu⟩, ?unclipped⟩
  case value => rw [elemAt, zipElems_extract W r a b i hi, intRule_computes h _ (widthOf_pos W), elemAt, elemAt]
  case iadds => exact zipElems_isat_iff (P := fun w x y => outS w (x.toInt + y.toInt)) rIadds_marks W a b
  case isubs => exact zipElems_isat_iff (P := fun w x y => outS w (x.toInt - y.toInt)) rIsubs_marks W a b
  case iaddu => exact zipElems_isat_iff (P := fun w x y => 2 ^ w ≤ x.toNat + y.toNat) (fun _ => rIaddu_marks) W a b
  case isubu => exact zipElems_isat_iff (P := fun _ x y => x.toNat < y.toNat) (fun _ => rIsubu_marks) W a b
  case unclipped =>
    intro r f h hs hu hs' hu'
    exact zipElems_isat_false (intRule_unclipped h hs hu hs' hu')
end

section
/-!
SUPPORT. The integer and predicate words whose results come at once (R79 to R91, R113): each family is the
shared operation of lane words on its row's shape and rule.
-/

namespace Sys2Proof.Claims

open Sys2Proof.Machine

/-- The meaning of `i` is the shared operation of lane words on the shape, the causes and the result of `D`. -/
def MeansLane (i : Instr) (D : LaneWord) : Prop := ∀ s, exec i s = runLane s D.shape D.pre D.out

theorem intForm_means {i : Instr} {o : OpAB} {g : Bool} {r : Rule2} (h : IntForm i o g r) :
    MeansLane i (intWordOf o g r) := by
  cases h <;> exact fun _ => rfl

theorem packForm_means {i : Instr} {o : OpAB} {g high : Bool} (h : PackForm i o g high) :
    MeansLane i (packWordOf o g high) := by
  cases h <;> exact fun _ => rfl

theorem unForm_means {i : Instr} {o : OpA} {legal : Bool} {r : Rule1} (h : UnForm i o legal r) :
    MeansLane i (unWordOf o legal r) := by
  cases h <;> exact fun _ => rfl

theorem madForm_means {i : Instr} {o : OpABC} {r : Word → Word → Word → Word} (h : MadForm i o r) :
    MeansLane i (madWordOf o r) := by
  cases h <;> exact fun _ => rfl

theorem cmpForm_means {i : Instr} {o : OpCmp} {g : Bool} {r : Rel2} (h : CmpForm i o g r) :
    MeansLane i (cmpWordOf o g r) := by
  cases h <;> exact fun _ => rfl

theorem plogForm_means {i : Instr} {d a b : BitVec 7} {f : Cx → Nat → Bool} (h : PlogForm i d a b f) :
    MeansLane i (plogWordOf d a b f) := by
  cases h <;> exact fun _ => rfl

end Sys2Proof.Claims

open Sys2Proof Sys2Proof.Machine Sys2Proof.Claims

/-- Settles O1: no two-source word has a return of its own, so that each completes as the shared operation does
(`runsAs_of`). -/
theorem integerWords : Obligations.IntegerWords :=
  ⟨fun _ _ _ _ h => runsAs_of rfl (intForm_means h), fun _ _ _ _ h => runsAs_of rfl (packForm_means h)⟩

/-- Settles O2: one-source, multiply-add and dot words complete as the shared operation does (`runsAs_of`). -/
theorem unaryAndMultiplyAddWords : Obligations.UnaryAndMultiplyAddWords :=
  ⟨fun _ _ _ _ h => runsAs_of rfl (unForm_means h), fun _ _ _ h => runsAs_of rfl (madForm_means h)⟩

/-- Settles O3: a word with a predicate for its destination completes as the shared operation does (`runsAs_of`). -/
theorem comparesAndPredicateLogic : Obligations.ComparesAndPredicateLogic :=
  ⟨fun _ _ _ _ h => runsAs_of rfl (cmpForm_means h), fun _ _ _ _ _ h => runsAs_of rfl (plogForm_means h)⟩
end

section
/-!
SUPPORT. The floating-point words, conversions and floating-point compares (R101 to R109): each family is the shared
operation of lane words on its row's shape and rule.
-/

namespace Sys2Proof.Claims

open Sys2Proof.Machine

theorem fltForm_means {i : Instr} {o : OpAB} {g : Bool} {r : FRule2} (h : FltForm i o g r) :
    MeansLane i (fltWordOf o g r) := by
  cases h <;> exact fun _ => rfl

theorem fmaForm_means {i : Instr} {o : OpFma} {negP negC : Bool} (h : FmaForm i o negP negC) :
    MeansLane i (fmaWordOf o negP negC) := by
  cases h <;> exact fun _ => rfl

theorem dotForm_means {i : Instr} {o : OpABC} {f : Fmt} (h : DotForm i o f) : MeansLane i (dotWordOf o f) := by
  cases h <;> exact fun _ => rfl

theorem fma4Form_means {i : Instr} {o : OpABC} {f : Fmt} (h : Fma4Form i o f) : MeansLane i (fma4WordOf o f) := by
  cases h <;> exact fun _ => rfl

theorem funForm_means {i : Instr} {o : OpA} {r : FRule1} (h : FunForm i o r) : MeansLane i (funWordOf o r) := by
  cases h <;> exact fun _ => rfl

theorem cvtForm_means {i : Instr} {D : LaneWord} (h : CvtForm i D) : MeansLane i D := by
  cases h <;> exact fun _ => rfl

/-- Every conversion gives its results at once. -/
theorem cvtForm_sb {i : Instr} {D : LaneWord} (h : CvtForm i D) : D.shape.sb = none := by
  cases h <;> rfl

theorem fcmpForm_means {i : Instr} {o : OpCmp} {r : FRel} (h : FcmpForm i o r) : MeansLane i (fcmpWordOf o r) := by
  cases h <;> exact fun _ => rfl

end Sys2Proof.Claims

open Sys2Proof Sys2Proof.Machine Sys2Proof.Claims

/-- Settles O4: no word of the five families has a return of its own, so that each completes as the shared operation does
(`runsAs_of`). HDOT's NV beside a NaN (log entry 98) is part of its rule. -/
theorem floatingPointWords : Obligations.FloatingPointWords := by
  unfold Obligations.FloatingPointWords
  refine ⟨fun i o g r h => ?two, fun i o p c h => ?fma, fun i o f h => ?dot, fun i o f h => ?fma4, fun i o r h => ?one⟩
  case two => exact runsAs_of rfl (fltForm_means h)
  case fma => exact runsAs_of rfl (fmaForm_means h)
  case dot => exact runsAs_of rfl (dotForm_means h)
  case fma4 => exact runsAs_of rfl (fma4Form_means h)
  case one => exact runsAs_of rfl (funForm_means h)

/-- Settles O5: conversions and compares complete as the shared operation does (`runsAs_of`); an invalid narrow format is a
cause of FENC and FDEC, which the hypotheses leave out. -/
theorem conversionsAndFloatCompares : Obligations.ConversionsAndFloatCompares :=
  ⟨fun _ _ h => runsAs_of (cvtForm_sb h) (cvtForm_means h), fun _ _ _ h => runsAs_of rfl (fcmpForm_means h)⟩
end

section
/-!
SUPPORT. What a CSRW keeps of the value it writes (R95, R98, R134, R135, R137, R144, R145), the word that trap entry
writes, and the setting that FMODE selects.
-/

namespace Sys2Proof.Machine

/-! ## Masked registers -/

/-- A register under a mask keeps of a value the bits that the mask names; `p` says which they are. -/
theorem getLsbD_and_mask {m : Word} {p : Nat → Bool} (h : ∀ k < 64, m.getLsbD k = p k) (v : Word) (k : Nat) :
    (v &&& m).getLsbD k = (v.getLsbD k && p k) := by
  rw [BitVec.getLsbD_and]
  by_cases hk : k < 64
  · rw [h k hk]
  · rw [BitVec.getLsbD_of_ge v k (by omega), Bool.false_and, Bool.false_and]

theorem maskFMODE_bits : ∀ k < 64, maskFMODE.getLsbD k = decide (k ≤ 4) := by decide

theorem maskFFLAGS_bits : ∀ k < 64, maskFFLAGS.getLsbD k =
    (decide (k ≤ 4) || (decide (8 ≤ k) && decide (k ≤ 12)) || (decide (16 ≤ k) && decide (k ≤ 20))) := by decide

theorem maskMCOV_bits : ∀ k < 64, maskMCOV.getLsbD k = decide (k ≤ 3) := by decide

theorem maskSTATUS_bits : ∀ k < 64, maskSTATUS.getLsbD k = decide (k ≤ 7) := by decide

theorem maskSTALLCHK_bits : ∀ k < 64, maskSTALLCHK.getLsbD k = decide (k = 0) := by decide

theorem maskADDR_bits : ∀ k < 64, maskADDR.getLsbD k = decide (2 ≤ k) := by decide

theorem maskTRAPCAUSE_bits : ∀ k < 64, maskTRAPCAUSE.getLsbD k =
    (decide (k ≤ 8) || (decide (16 ≤ k) && decide (k ≤ 31)) || decide (k = 63)) := by decide

/-- A write to a slice-held register changes none but those eight (R134). -/
theorem writeCsr_frame (sl : Slice) (n : Nat) (v : Word) : sl.writeCsr n v = { sl with
    fmode := (sl.writeCsr n v).fmode, fflags := (sl.writeCsr n v).fflags, mcov := (sl.writeCsr n v).mcov
    mrho := (sl.writeCsr n v).mrho, status := (sl.writeCsr n v).status, stallchk := (sl.writeCsr n v).stallchk
    trappc := (sl.writeCsr n v).trappc, trapcause := (sl.writeCsr n v).trapcause } := by
  unfold Slice.writeCsr
  split <;> rfl

/-! ## Order of floating-point values -/

/-- A difference of two numbers of one sign: that of the magnitudes at the smaller exponent. -/
theorem addDy_opposite (s : Bool) (m n : Nat) (e g : Int) : addDy (s, m, e) (!s, n, g) =
    if n <<< (g - min e g).toNat ≤ m <<< (e - min e g).toNat
    then (s, m <<< (e - min e g).toNat - n <<< (g - min e g).toNat, min e g)
    else (!s, n <<< (g - min e g).toNat - m <<< (e - min e g).toNat, min e g) := by
  cases s <;> rfl

/-- Of two positive numbers the smaller has the smaller magnitude. -/
theorem ltV_fin_pos (m n : Nat) (e g : Int) : (FVal.fin false m e).ltV (.fin false n g) =
    decide (m <<< (e - min e g).toNat < n <<< (g - min e g).toNat) := by
  simp only [FVal.ltV, addDy_opposite]
  generalize m <<< (e - min e g).toNat = a, n <<< (g - min e g).toNat = b
  split
  next h => simp [Nat.not_lt.2 h]
  next h => simp [Nat.not_le.1 h, Nat.sub_ne_zero_of_lt (Nat.not_le.1 h)]

/-- Negation reverses the order. -/
theorem ltV_fin_neg (m n : Nat) (e g : Int) :
    (FVal.fin true n g).ltV (.fin true m e) = (FVal.fin false m e).ltV (.fin false n g) := by
  rw [ltV_fin_pos, Int.min_comm]
  simp only [FVal.ltV, addDy_opposite]
  generalize m <<< (e - min g e).toNat = a, n <<< (g - min g e).toNat = b
  split
  next h =>
    rw [Bool.eq_iff_iff]
    simp [Nat.sub_eq_zero_iff_le]
  next h => simp [Nat.le_of_lt (Nat.not_le.1 h)]

/-! ## MRHO -/

/-- The FP32 patterns of the numbers from −1 to +1 but −0 (R145). -/
abbrev IsRho (n : Nat) : Prop :=
  n < 2 ^ 32 ∧ n ≠ 0x80000000 ∧ (n ≤ 0x3F800000 ∨ (0x80000000 ≤ n ∧ n ≤ 0xBF800000))

/-- An FP32 pattern above that of 1, sign aside, is a magnitude above 1, the two compared at the smaller exponent as
`ltV_fin_pos` does: its exponent field is 127 or more, and at 127 its fraction is not 0 (R92). -/
theorem one_lt_magnitude {x : Nat} (h : 0x3F800000 < x % 2 ^ 31) :
    1 <<< (0 - min 0 ((x / 2 ^ 23 % 2 ^ 8 : Nat) - 127 - 23 : Int)).toNat <
      (2 ^ 23 + x % 2 ^ 23) <<< (((x / 2 ^ 23 % 2 ^ 8 : Nat) - 127 - 23 : Int) -
        min 0 ((x / 2 ^ 23 % 2 ^ 8 : Nat) - 127 - 23 : Int)).toNat := by
  have hE : 127 ≤ x / 2 ^ 23 % 2 ^ 8 := by omega
  have hm : x / 2 ^ 23 % 2 ^ 8 = 127 → 0 < x % 2 ^ 23 := by omega
  generalize x / 2 ^ 23 % 2 ^ 8 = E at *
  generalize x % 2 ^ 23 = m at *
  rw [Nat.one_shiftLeft, Nat.shiftLeft_eq]
  by_cases hbig : 150 ≤ E
  · have hmin : min 0 ((E : Int) - 127 - 23) = 0 := by omega
    rw [hmin]
    calc 2 ^ (0 - 0 : Int).toNat < (2 ^ 23 + m) * 1 := by rw [Int.sub_self, Int.toNat_zero]; omega
      _ ≤ _ := Nat.mul_le_mul_left _ (Nat.two_pow_pos _)
  · have hmin : min 0 ((E : Int) - 127 - 23) = (E : Int) - 127 - 23 := by omega
    rw [hmin, Int.sub_self, Int.toNat_zero, Nat.pow_zero, Nat.mul_one]
    by_cases h127 : E = 127
    · subst h127
      have := hm rfl
      simpa using this
    · calc 2 ^ (0 - ((E : Int) - 127 - 23)).toNat ≤ 2 ^ 22 := Nat.pow_le_pow_right (by decide) (by omega)
        _ < 2 ^ 23 + m := by omega

/-- An FP32 pattern by its fields (R92). -/
theorem fp32_decode (x : Nat) : fp32.decode x =
    if x / 2 ^ 23 % 2 ^ 8 = 255 then
      if x % 2 ^ 23 = 0 then .inf (x.testBit 31) else .nan (x.testBit 31) ((x % 2 ^ 23).testBit 22) (x % 2 ^ 23 % 2 ^ 22)
    else if x / 2 ^ 23 % 2 ^ 8 = 0 then .fin (x.testBit 31) (x % 2 ^ 23) (1 - 127 - 23)
    else .fin (x.testBit 31) (2 ^ 23 + x % 2 ^ 23) ((x / 2 ^ 23 % 2 ^ 8 : Nat) - 127 - 23) := rfl

theorem isNaN_ne_true {a : FVal} (h : ∀ s q p, a = .nan s q p → False) : a.isNaN ≠ true := by
  cases a with
  | nan s q p => exact (h s q p rfl).elim
  | inf s => exact Bool.false_ne_true
  | fin s m e => exact Bool.false_ne_true

/-- An FP32 pattern above that of 1, sign aside, is a NaN, a value above +1 or one below −1. -/
theorem fp32_decode_beyondOne {x : Nat} (h : 0x3F800000 < x % 2 ^ 31) : (fp32.decode x).isNaN = true ∨
    (FVal.fin false 1 0).ltV (fp32.decode x) = true ∨ (fp32.decode x).ltV (.fin true 1 0) = true := by
  have hE : x / 2 ^ 23 % 2 ^ 8 ≠ 0 := by omega
  rw [fp32_decode, if_neg hE]
  split
  · split
    · cases x.testBit 31 <;> simp [FVal.ltV]
    · exact .inl rfl
  · have hlt := one_lt_magnitude h
    cases x.testBit 31
    · rw [ltV_fin_pos]
      exact .inr (.inl (decide_eq_true hlt))
    · rw [ltV_fin_neg, ltV_fin_pos]
      exact .inr (.inr (decide_eq_true hlt))

/-- An FP32 pattern that is no NaN, not equal to zero, not above +1 and not below −1. -/
theorem isRho_of_within {x : Nat} (hx : x < 2 ^ 32) (hnan : (fp32.decode x).isNaN ≠ true)
    (hzero : (fp32.decode x).eqV (.fin false 0 0) ≠ true) (habove : (FVal.fin false 1 0).ltV (fp32.decode x) ≠ true)
    (hbelow : (fp32.decode x).ltV (.fin true 1 0) ≠ true) : IsRho x := by
  have hmag : x % 2 ^ 31 ≤ 0x3F800000 := by
    refine Nat.le_of_not_lt fun h => ?_
    obtain hn | ha | hb := fp32_decode_beyondOne h
    · exact hnan hn
    · exact habove ha
    · exact hbelow hb
  have hne : x ≠ 0x80000000 := by
    rintro rfl
    exact hzero (by decide)
  exact ⟨hx, hne, by omega⟩

/-- Every value written leaves a number from −1 to +1 in MRHO, and not −0 (R145). -/
theorem isRho_mrhoOf (v : Word) : IsRho (mrhoOf v).toNat := by
  have hx : fld v 0 32 < 2 ^ 32 := Nat.mod_lt _ (by decide)
  unfold mrhoOf
  dsimp only
  split
  next => decide
  next hnan =>
    by_cases hzero : (fp32.decode (fld v 0 32)).eqV (.fin false 0 0) = true
    · rw [if_pos hzero]
      decide
    by_cases habove : (FVal.fin false 1 0).ltV (fp32.decode (fld v 0 32)) = true
    · rw [if_neg hzero, if_pos habove]
      decide
    by_cases hbelow : (fp32.decode (fld v 0 32)).ltV (.fin true 1 0) = true
    · rw [if_neg hzero, if_neg habove, if_pos hbelow]
      decide
    rw [if_neg hzero, if_neg habove, if_neg hbelow, BitVec.toNat_ofNat, Nat.mod_eq_of_lt (by omega)]
    exact isRho_of_within hx (isNaN_ne_true hnan) hzero habove hbelow

/-! ## TRAPCAUSE at trap entry -/

/-- The word of trap entry bit by bit (R137). -/
theorem trapCauseWord_getLsbD (cause code : Nat) (bk : Bool) (k : Nat) : (trapCauseWord cause code bk).getLsbD k =
    (decide (k = 63) || (decide (16 ≤ k) && decide (k < 32) && code.testBit (k - 16)) || (decide (k = 8) && bk) ||
      (decide (k < 8) && cause.testBit k)) := by
  have hH : (1#64 <<< 63).getLsbD k = decide (k = 63) := by
    rw [← BitVec.twoPow_eq, BitVec.getLsbD_twoPow]
    simp [eq_comm]
  have hbk : (if bk then 0x100#64 else 0).getLsbD k = (decide (k = 8) && bk) := by
    rw [show 0x100#64 = BitVec.twoPow 64 8 from rfl]
    cases bk
    · simp
    · simp [BitVec.getLsbD_twoPow, eq_comm]
  have hcode : (BitVec.ofNat 64 (code % 65536) <<< 16).getLsbD k =
      (decide (16 ≤ k) && decide (k < 32) && code.testBit (k - 16)) := by
    rw [BitVec.getLsbD_shiftLeft, BitVec.getLsbD_ofNat, show 65536 = 2 ^ 16 from rfl, Nat.testBit_mod_two_pow]
    grind
  have hcause : (BitVec.ofNat 64 (cause % 256)).getLsbD k = (decide (k < 8) && cause.testBit k) := by
    rw [BitVec.getLsbD_ofNat, show 256 = 2 ^ 8 from rfl, Nat.testBit_mod_two_pow]
    grind
  simp only [trapCauseWord, BitVec.getLsbD_or, hH, hcode, hbk, hcause]

theorem trapCauseWord_handler (cause code : Nat) (bk : Bool) : (trapCauseWord cause code bk).getLsbD 63 = true := by
  rw [trapCauseWord_getLsbD]
  simp

theorem trapCauseWord_bk (cause code : Nat) (bk : Bool) : (trapCauseWord cause code bk).getLsbD 8 = bk := by
  rw [trapCauseWord_getLsbD]
  simp

theorem trapCauseWord_code (cause code : Nat) (bk : Bool) :
    (trapCauseWord cause code bk).extractLsb' 16 16 = BitVec.ofNat 16 code := by
  refine BitVec.eq_of_getLsbD_eq fun i hi => ?_
  rw [BitVec.getLsbD_extractLsb', trapCauseWord_getLsbD, BitVec.getLsbD_ofNat, Nat.add_sub_cancel_left]
  simp [hi, show 16 + i < 32 by omega, show 16 + i ≠ 63 by omega, show 16 + i ≠ 8 by omega, show ¬16 + i < 8 by omega]

theorem trapCauseWord_cause (cause code : Nat) (bk : Bool) :
    (trapCauseWord cause code bk).extractLsb' 0 8 = BitVec.ofNat 8 cause := by
  refine BitVec.eq_of_getLsbD_eq fun i hi => ?_
  rw [BitVec.getLsbD_extractLsb', trapCauseWord_getLsbD, BitVec.getLsbD_ofNat, Nat.zero_add]
  simp [hi, show i ≠ 63 by omega, show ¬16 ≤ i by omega, show i ≠ 8 by omega]

/-- No bit is set in bits 15:9 and 62:32. -/
theorem trapCauseWord_reserved (cause code : Nat) (bk : Bool) {lo n : Nat}
    (h : (9 ≤ lo ∧ lo + n ≤ 16) ∨ (32 ≤ lo ∧ lo + n ≤ 63)) : (trapCauseWord cause code bk).extractLsb' lo n = 0 := by
  refine BitVec.eq_of_getLsbD_eq fun i hi => ?_
  have hcode : (decide (16 ≤ lo + i) && decide (lo + i < 32)) = false := by
    rw [← Bool.decide_and]
    exact decide_eq_false (by omega)
  rw [BitVec.getLsbD_extractLsb', trapCauseWord_getLsbD, hcode]
  simp [show lo + i ≠ 63 by omega, show lo + i ≠ 8 by omega, show ¬lo + i < 8 by omega]

/-! ## FMODE -/

/-- The rounding modes by their codes (R95). -/
theorem rmOf_toNat (r : BitVec 2) : (rmOf r.toNat = .rne ↔ r = 0#2) ∧ (rmOf r.toNat = .rtz ↔ r = 1#2) ∧
    (rmOf r.toNat = .rup ↔ r = 2#2) ∧ (rmOf r.toNat = .rdn ↔ r = 3#2) := by
  revert r
  decide

/-- A word without an HMOD computes under FMODE alone (R96). -/
theorem fmodeOf_none (w : Word) : fmodeOf w none =
    ⟨rmOf (w.extractLsb' 0 2).toNat, w.getLsbD 2, w.getLsbD 3, w.getLsbD 4⟩ := by
  simp [fmodeOf, fld_eq_extract]

end Sys2Proof.Machine

open Sys2Proof Sys2Proof.Machine Sys2Proof.Claims

/-- Settles O26: register by register from its mask, MRHO from the order of FP32 values (`isRho_mrhoOf`), and the word of
trap entry from its bits. -/
theorem controlRegisterMasks : Obligations.ControlRegisterMasks := by
  unfold Obligations.ControlRegisterMasks
  refine ⟨fun sl v => ?registers, fun cause code bk hcause hcode => ?entry, fun sl v k => ?trapcause⟩
  case registers =>
    obtain ⟨hlt, hne, hrange⟩ := isRho_mrhoOf v
    exact ⟨getLsbD_and_mask maskFMODE_bits v, getLsbD_and_mask maskFFLAGS_bits v, getLsbD_and_mask maskMCOV_bits v,
      getLsbD_and_mask maskSTATUS_bits v, getLsbD_and_mask maskSTALLCHK_bits v, getLsbD_and_mask maskADDR_bits v,
      hlt, fun h => hne (congrArg BitVec.toNat h), hrange, fun n => writeCsr_frame sl n v⟩
  case entry =>
    exact ⟨trapCauseWord_handler cause code bk, trapCauseWord_code cause code bk, trapCauseWord_bk cause code bk,
      trapCauseWord_cause cause code bk, trapCauseWord_reserved cause code bk (by decide),
      trapCauseWord_reserved cause code bk (by decide)⟩
  case trapcause => exact getLsbD_and_mask maskTRAPCAUSE_bits v k

/-- Settles O60: a slice starts with FMODE 0, a write keeps the bits of its mask, and a word without an HMOD takes its
setting from the fields of FMODE (`fmodeOf_none`, R96). -/
theorem fmodeLayout : Obligations.FmodeLayout := by
  unfold Obligations.FmodeLayout
  refine ⟨fun _ _ _ _ => rfl, fun sl v k => ?mask, fun w => ?fields⟩
  case mask =>
    rw [show decide (k < 5) = decide (k ≤ 4) from decide_eq_decide.2 Nat.lt_succ_iff]
    exact getLsbD_and_mask maskFMODE_bits v k
  case fields =>
    rw [fmodeOf_none]
    exact ⟨rfl, rfl, rfl, rmOf_toNat (w.extractLsb' 0 2)⟩
end

section
/-!
SUPPORT. Cross-lane words (R124, R125), reductions and scans (R126, R127), predicate transfer and select (R115, R116):
each family is the shared operation of lane words on its row's shape and rule.
-/

namespace Sys2Proof.Claims

open Sys2Proof.Machine Sys2Proof.Safety

theorem crossForm_means {i : Instr} {o : OpAB} {g gang : Bool} {r : XRule} (h : CrossForm i o g gang r) :
    MeansLane i (crossWordOf o g gang r) := by
  cases h <;> exact fun _ => rfl

theorem pxForm_means {i : Instr} {D : LaneWord} (h : PxForm i D) : MeansLane i D := by
  cases h <;> exact fun _ => rfl

/-- Predicate transfer and select give their results at once. -/
theorem pxForm_sb {i : Instr} {D : LaneWord} (h : PxForm i D) : D.shape.sb = none := by
  cases h <;> rfl

/-- Each of the eight VRED words is the reduction word with its row's tree (R126). -/
theorem exec_redForm {i : Instr} {st : BitVec 2} {d : BitVec 5} {a : BitVec 7} {hm : OpHmod → Bool} {R : Red}
    (h : RedForm i st d a hm R) (s : State) : exec i s = redWord s st d a hm R := by
  cases h <;> rfl

/-- The result of a VRED word in a lane, with the exceptions that `marks` hold of its term. -/
def redLane (R : Red) (marks : List (Nat × FFlags)) (x : Cx) (v : List (List Word)) (L : Nat) : LaneOut :=
  { redOut R x v L with fl := (marks.filter (·.1 == L)).foldl (fun f m => f ||| m.2) 0 }

theorem redWord_eq (s : State) (st : BitVec 2) (d : BitVec 5) (a : BitVec 7) (hm : OpHmod → Bool) (R : Red) :
    redWord s st d a hm R = runLaneWith s (redShape st d a hm) true (fun x _ => partedCause x) Cx.redEn
      fun x v => redLane R (if x.g.unified then R.marks x v else []) x v := rfl

/-- In a unified gang the result is the one that R127 gives. -/
theorem redLane_unified {x : Cx} (hu : x.g.unified = true) (R : Red) (v : List (List Word)) :
    redLane R (if x.g.unified then R.marks x v else []) x v = redOut R x v := by
  rw [hu]
  rfl

end Sys2Proof.Claims

open Sys2Proof Sys2Proof.Machine Sys2Proof.Claims

/-- Settles O7: no cross-lane word has a return of its own, so that each completes as the shared operation does
(`runsAs_of`). -/
theorem crossLaneWords : Obligations.CrossLaneWords :=
  fun _ _ _ _ _ h => runsAs_of rfl (crossForm_means h)

/-- Settles O8: every word of the family is the reduction word on its row's tree (`exec_redForm`), which
completes as the shared operation does, with the exceptions of the whole word in every issuing slice. -/
theorem reductions : Obligations.Reductions := by
  unfold Obligations.Reductions
  intro i st d a hm R h s x hi hc hu ht
  rw [← redLane_unified hu] at ht ⊢
  rw [exec_redForm h, redWord_eq]
  exact runLaneWith_done (f := fun x v => redLane R (if x.g.unified then R.marks x v else []) x v) rfl hi hc
    (if_pos hu) ht

/-- Settles O9: the four words complete as the shared operation does (`runsAs_of`). -/
theorem predicateTransferAndSelect : Obligations.PredicateTransferAndSelect :=
  fun _ _ h => runsAs_of (pxForm_sb h) (pxForm_means h)
end

section
/-!
SUPPORT. Calls, indirect transfers and returns (R118 to R120): what their own causes come to, and a lane word that a
cause of its own turns away.
-/

namespace Sys2Proof.Machine

open Sys2Proof.Safety Sys2Proof.Claims

/-- A lane word that nothing holds and that has one cause of its own takes it (R138, R140). -/
theorem laneGate_traps {s : State} {x : Cx} {W : Shape} {pre : Cx → List (List Word) → List (Nat × Word)}
    {f : Cx → List (List Word) → Nat → LaneOut} {k : Cx → List (List Word) → (Nat → LaneOut) → List Nat → State}
    {c : Nat} {m : Word} (hi : Issues s x W) (hc : NoCommonFault s x W)
    (hp : pre x (allVals s.beat x.g W.srcs) = [(c, m)]) (ht : NoTrap x x.enOf (f x (allVals s.beat x.g W.srcs)))
    (h7 : c ≠ 0x07) : laneGate s W pre Cx.enOf f k = .next (takeTrap s x c 0 false m none) := by
  have hd : dyingLanes s x W = [] := by simp [dyingLanes, hi.sound]
  have hx : x.without [] = x := rfl
  have hv : hush [] (allVals s.beat x.g W.srcs) = allVals s.beat x.g W.srcs := rfl
  simp [laneGate, laneGateW, withStream_eq hi.stream (notBlocked hi.free), hi.legal, hi.hints, hi.free,
    groupDamaged_sound hi.sound, hd, hx, hv, commonCauses_nil hc, hp, laneCauses_nil ht, lowest, raiseCause, h7]

/-- Targets that agree raise no fault of an indirect transfer (R119). -/
theorem indirectCauses_nil {s : State} {x : Cx} {W : Shape} (h : TargetsAgree s x W) :
    indirectCauses x (allVals s.beat x.g W.srcs) = [] := by
  obtain ⟨haligned, hagree⟩ := h
  have hmis : (x.maskOfP fun L => (val (allVals s.beat x.g W.srcs) L 0).toNat % 4 != 0) = 0 :=
    maskOfP_none fun L hL => by simpa [src] using haligned L hL
  simp only [indirectCauses, hmis]
  rw [if_neg (by simp), if_pos, List.append_nil]
  rw [List.isEmpty_iff, List.flatten_eq_nil_iff]
  intro lanes hmem
  obtain ⟨i, hi, rfl⟩ := List.mem_map.1 hmem
  cases hs : x.g.slice? i with
  | none => rfl
  | some sl =>
    have hall := hagree i hi sl hs
    cases hpos : sl.activePos with
    | nil => simp [sliceTargets, hpos]
    | cons j js =>
      rw [hpos] at hall
      have hsame : ∀ k ∈ js, val (allVals s.beat x.g W.srcs) (4 * i + k) 0 =
          val (allVals s.beat x.g W.srcs) (4 * i + j) 0 :=
        fun k hk => hall k (List.mem_cons_of_mem j hk) j List.mem_cons_self
      simpa [sliceTargets, hpos] using hsame

theorem lowest_singleton (c : Nat × Word) : lowest [c] = some c := rfl

/-- What the active lanes of a slice read first is its target (R119). -/
theorem sliceTargets_head? (s : State) (x : Cx) (W : Shape) (i : Nat) (sl : Slice) :
    (sliceTargets (allVals s.beat x.g W.srcs) i sl).head? = sliceTarget s x W i sl :=
  List.head?_map

/-- CALL as a lane word with an effect of its own on its slices (R118). -/
theorem exec_call (o : OpJump) (s : State) : exec (.call o) s =
    runLanePost s callShape (fun x _ => stackCause Slice.stackFull x) (fun x _ L => { val := pcAfter x L })
      fun _ _ _ old mid => { mid with pc := old.pc + disp _ o.d, rstack := (old.pc + 4) :: old.rstack } := rfl

/-- JMPI (R119). -/
theorem exec_jmpi (o : OpJumpI) (s : State) : exec (.jmpi o) s =
    runLanePost s (jmpiShape o) indirectCauses (fun _ _ => noOut)
      fun _ vals i old mid => { mid with pc := (sliceTargets vals i old).headD (old.pc + 4) } := rfl

/-- What CALLI leaves of a slice (R119): one with an active lane goes to its target, with the return address on its
stack; another goes on. -/
def calliPost (vals : List (List Word)) (i : Nat) (old mid : Slice) : Slice :=
  match sliceTargets vals i old with
  | [] => mid
  | a :: _ => { mid with pc := a, rstack := (old.pc + 4) :: old.rstack }

theorem exec_calli (o : OpJumpI) (s : State) : exec (.calli o) s =
    runLanePost s (calliShape o) (fun x vals => indirectCauses x vals ++ stackCause Slice.stackFull x)
      (fun x _ L => { val := pcAfter x L }) fun _ => calliPost := rfl

theorem exec_ret (s : State) : exec .ret s = execRet s := rfl

/-- RET of slices that each hold an address goes there, with the address taken off (R118). -/
theorem execRet_goes {s : State} {x : Cx} (h : StreamReady s x) (hs : EverySlice x fun sl => sl.rstack ≠ []) :
    execRet s = .next (s.setGang (x.mapSlices fun _ old =>
      { sent s.beat 0 0 (old.rstack.headD 0) old with rstack := old.rstack.tail }).partTest) := by
  have hnil : stackCause (fun sl => sl.rstack.isEmpty) x = [] :=
    stack_nil fun i hi sl hsl => List.isEmpty_eq_false_iff.2 (hs i hi sl hsl)
  rw [execRet, streamWord_ready h rfl, hnil, lowest_nil, issued_eq, mapSlices_mapSlices]
  rfl

end Sys2Proof.Machine

open Sys2Proof Sys2Proof.Machine Sys2Proof.Safety Sys2Proof.Claims

/-- Settles O21: the four words complete as a lane word with an effect of its own on its slices does
(`runLanePost_done`), RET as a word without lane operands, and a return stack in the wrong state is a cause of its
own. -/
theorem callsAndReturns : Obligations.CallsAndReturns := by
  unfold Obligations.CallsAndReturns
  refine fun s x => ⟨fun o h hfree => ?call, fun o h hagree => ?jmpi, fun o h hagree hfree => ?calli, fun h hs => ?ret,
    fun h hs => ?retEmpty, fun o hi hc hs => ?callFull⟩
  case call =>
    have hstack : stackCause Slice.stackFull x = [] :=
      stack_nil fun i hi sl hsl => decide_eq_false (Nat.not_le.2 (hfree i hi sl hsl))
    rw [exec_call]
    exact runLanePost_done ⟨h.issues, h.common, hstack⟩ (noTrapVal x _)
  case jmpi =>
    rw [exec_jmpi]
    obtain ⟨t, ht, hafter⟩ := runLanePost_done (f := fun _ _ => noOut) (post := fun _ vals i old mid =>
        { mid with pc := (sliceTargets vals i old).headD (old.pc + 4) })
      ⟨h.issues, h.common, indirectCauses_nil hagree⟩ (noTrap_noOut x _)
    exact ⟨t, ht, after_congr hafter fun i old mid => by rw [← sliceTargets_head?, List.headD_eq_head?_getD]⟩
  case calli =>
    have hstack : stackCause Slice.stackFull x = [] :=
      stack_nil fun i hi sl hsl => decide_eq_false (Nat.not_le.2 (hfree i hi sl hsl))
    have hown : indirectCauses x (allVals s.beat x.g (calliShape o).srcs) ++ stackCause Slice.stackFull x = [] := by
      rw [indirectCauses_nil hagree, hstack, List.append_nil]
    rw [exec_calli]
    obtain ⟨t, ht, hafter⟩ := runLanePost_done
      (pre := fun x vals => indirectCauses x vals ++ stackCause Slice.stackFull x)
      (f := fun x _ L => { val := pcAfter x L }) (post := fun _ => calliPost) ⟨h.issues, h.common, hown⟩ (noTrapVal x _)
    refine ⟨t, ht, after_congr hafter fun i old mid => ?_⟩
    rw [← sliceTargets_head?, calliPost]
    cases sliceTargets (allVals s.beat x.g (calliShape o).srcs) i old <;> rfl
  case ret =>
    rw [exec_ret]
    exact ⟨_, execRet_goes h hs, mapSlices_gangWith fun _ _ _ _ => rfl⟩
  case retEmpty =>
    obtain ⟨i, hi, sl, hsl, hnil⟩ := hs
    have hhit : stackCause (fun sl => sl.rstack.isEmpty) x = [(0x0B, x.mask)] :=
      stack_hit ⟨i, hi, sl, hsl, List.isEmpty_iff.2 hnil⟩
    rw [exec_ret, execRet, streamWord_ready h rfl, hhit, lowest_singleton]
  case callFull =>
    obtain ⟨i, hi', sl, hsl, hfull⟩ := hs
    have hhit : stackCause Slice.stackFull x = [(0x0B, x.mask)] :=
      stack_hit ⟨i, hi', sl, hsl, decide_eq_true hfull⟩
    rw [exec_call]
    exact laneGate_traps hi hc hhit (noTrapVal x _) (by decide)
end

section
/-!
SUPPORT. The layout of IDS (R136), and the words that read and write control, uniform and predicate registers
(R115, R132 to R134, R352, R353).
-/

namespace Sys2Proof.Machine

open Sys2Proof.Safety Sys2Proof.Claims

/-! ## IDS -/

/-- IDS as a number: nothing of its four fields is cut off. -/
theorem ids_toNat {G : Group} (ht : G.teamIdx < 2 ^ 32) (hc : G.core < 144) (hi : G.idx < 8) (hp : G.part < 8) :
    G.ids.toNat = G.teamIdx * 2 ^ 32 + G.core * 2 ^ 16 + G.idx * 2 ^ 8 + G.part := by
  rw [Group.ids, BitVec.toNat_ofNat, Nat.mod_eq_of_lt (by omega)]

/-- A field of a word by its number. -/
theorem extractLsb'_eq_ofNat {v : Word} {lo n m : Nat} (h : v.toNat / 2 ^ lo % 2 ^ n = m % 2 ^ n) :
    v.extractLsb' lo n = BitVec.ofNat n m := by
  refine BitVec.eq_of_toNat_eq ?_
  rw [BitVec.extractLsb'_toNat, Nat.shiftRight_eq_div_pow, BitVec.toNat_ofNat, h]

/-! ## Reads -/

/-- A stream whose word nothing holds performs it. -/
theorem withStream_passes {s : State} {x : Cx} {W : Shape} {cs : List (Nat × Word)} (h : Passes s x W cs)
    (k : Cx → Host.Outcome State Fault Refusal) : withStream s k = k x :=
  withStream_eq h.issues.stream (notBlocked h.issues.free) k

/-- A lane word whose results are values alone gives them (R39). -/
theorem runLane_gives {s : State} {x : Cx} {W : Shape} (hb : W.sb = none) (h : Passes s x W [])
    (v : Cx → Nat → Word) :
    ∃ t, runLane s W noCauses (fun x _ L => { val := v x L }) = .next t ∧ Gives s t x W (v x) :=
  runLane_done hb h.issues h.common rfl (noTrapVal x _)

/-- The value of control register `n` in the slice of a lane. -/
def laneCsr (s : State) (n : Nat) (x : Cx) (L : Nat) : Word :=
  match x.sliceOf L with
  | some sl => csrValue s x sl n
  | none => 0

/-- CSRR of a readable register that waits for no flags is a lane word (R98, R132). -/
theorem execCsrr_eq {s : State} {x : Cx} {o : OpCsrr} (h : Passes s x (readsTo o.s o.d true) [])
    (hr : csrReadable (s.part x.grp.part) o.c.toNat = true) (hfl : o.c = 1#6 → x.flagsPending s = false) :
    execCsrr o s = runLane s (readsTo o.s o.d true) noCauses fun x _ L => { val := laneCsr s o.c.toNat x L } := by
  have hfree : ((o.c == 1#6) && x.flagsPending s) = false := by
    by_cases hc : o.c = 1#6
    · simp [hfl hc]
    · simp [hc]
  simp only [execCsrr, withStream_passes h, hr, Bool.true_and, hfree, Bool.false_eq_true, if_false]
  rfl

theorem exec_clkCyc (o : OpClk) (s : State) : exec (.clkCyc o) s =
    runLane s (readsTo o.s o.d true) noCauses fun _ _ _ => { val := BitVec.ofNat 64 s.cycle } := rfl

theorem exec_clkPts (o : OpClk) (s : State) : exec (.clkPts o) s =
    runLane s (readsTo o.s o.d true) noCauses fun x _ _ => { val := x.g.pts.setWidth 64 } := rfl

theorem exec_clkPtp (o : OpClk) (s : State) : exec (.clkPtp o) s =
    runLane s (readsTo o.s o.d true) noCauses fun _ _ _ => { val := BitVec.ofNat 64 s.ptp } := rfl

/-- The device register that DEVR reads (R132, R352, R353). -/
def State.devReg (s : State) (r : Nat) : Word := if r ≤ 3 then (s.harvestOf r).setWidth 64 else s.lpt (r - 16)

theorem exec_devr (o : OpDevr) (s : State) : exec (.devr o) s =
    runLane s (readsTo o.s o.d (decide (o.r.toNat ≤ 3) || (decide (16 ≤ o.r.toNat) && decide (o.r.toNat ≤ 159))))
      noCauses fun _ _ _ => { val := s.devReg o.r.toNat } := rfl

/-- DEVR of a register that there is gives its value. -/
theorem devr_gives {s : State} {x : Cx} {o : OpDevr} (h : Passes s x (readsTo o.s o.d true) [])
    (hr : o.r.toNat ≤ 3 ∨ (16 ≤ o.r.toNat ∧ o.r.toNat ≤ 159)) :
    ∃ t, exec (.devr o) s = .next t ∧ Gives s t x (readsTo o.s o.d true) fun _ => s.devReg o.r.toNat := by
  have hl : (decide (o.r.toNat ≤ 3) || (decide (16 ≤ o.r.toNat) && decide (o.r.toNat ≤ 159))) = true := by
    simpa using hr
  rw [exec_devr, hl]
  exact runLane_gives rfl h fun _ _ => s.devReg o.r.toNat

/-- RETSTAT of a partition (R134). -/
theorem csrValue_retstat (s : State) (x : Cx) (sl : Slice) {k : Nat} (h : k < 8) :
    csrValue s x sl (0x18 + k) = at' 0 (s.part x.grp.part).retstat k :=
  match k, h with
  | 0, _ | 1, _ | 2, _ | 3, _ | 4, _ | 5, _ | 6, _ | 7, _ => rfl

/-! ## Writes -/

/-- A word without results and then a change of each issuing slice, from what it was before and after the word. -/
theorem laneGate_after {s : State} {x : Cx} {W : Shape} {pre : Cx → List (List Word) → List (Nat × Word)}
    {k : Cx → List (List Word) → (Nat → LaneOut) → List Nat → State} {post : Nat → Slice → Slice → Slice}
    (hb : W.sb = none) (h : Passes s x W (pre x (allVals s.beat x.g W.srcs)))
    (he : k x (allVals s.beat x.g W.srcs) noOut [] =
      (finishLane s W false x (allVals s.beat x.g W.srcs) noOut []).modGang x.g.id fun g =>
        Cx.mapSlices ⟨g, x.grp, x.ss⟩ fun i sl => match x.g.slice? i with
          | some old => post i old sl
          | none => sl) :
    ∃ t, laneGate s W pre Cx.enOf (fun _ _ _ => { val := 0 }) k = .next t ∧ LaneAfter s t x W noOut id post := by
  obtain ⟨g, hg, hw⟩ := finishLane_done hb h.issues.sound (outs := noOut)
  have hid : g.id = x.g.id := by rw [hw.1]
  refine ⟨_, laneGate_passes h (noTrap_noOut _ _), _, ?_, gangWith_after hw post⟩
  refine he.trans ?_
  rw [hg, ← hid]
  exact setGang_modGang s g _ rfl

/-- What CSRW leaves of an issuing slice: register `n` written from the lowest active lane (R132). -/
def csrwPost (n : Nat) (vals : List (List Word)) (i : Nat) (old mid : Slice) : Slice :=
  match old.activePos.head? with
  | some j => mid.writeCsr n (val vals (4 * i + j) 0)
  | none => mid

/-- What follows the lane part of CSRW (R132). -/
def csrwEffect (n : Nat) (x : Cx) (vals : List (List Word)) (u : State) : State :=
  if n = 14 then
    match x.actives.head? with
    | some L => u.modGroup x.grp.id fun G => { G with trapvec := val vals L 0 &&& maskADDR }
    | none => u
  else u.modGang x.g.id fun g => Cx.mapSlices ⟨g, x.grp, x.ss⟩ fun i sl => match x.g.slice? i with
    | some old => csrwPost n vals i old sl
    | none => sl

/-- CSRW of a writable register that waits for no flags is a lane word with an effect of its own (R98, R132). -/
theorem execCsrw_eq {s : State} {x : Cx} {o : OpCsrw} (h : Passes s x (readShape o.s o.x) [])
    (hw : csrWritable o.c.toNat = true) (hfl : o.c = 1#6 → x.flagsPending s = false) :
    execCsrw o s = laneGate s (readShape o.s o.x) noCauses Cx.enOf (fun _ _ _ => { val := 0 }) fun x vals outs dead =>
      csrwEffect o.c.toNat x vals (finishLane s (readShape o.s o.x) false x vals outs dead) := by
  have hfree : ((o.c.toNat == 1) && x.flagsPending s) = false := by
    by_cases hc : o.c = 1#6
    · simp [hfl hc]
    · have : o.c.toNat ≠ 1 := fun h => hc (BitVec.eq_of_toNat_eq h)
      simp [this]
  simp only [execCsrw, withStream_passes h, hw, Bool.true_and, hfree, Bool.false_eq_true, if_false]
  congr 1
  funext y vals outs dead
  unfold csrwEffect
  split
  · cases y.actives <;> rfl
  · congr 1
    funext g
    simp only [Cx.mapSlices]
    congr 2
    funext i sl
    cases y.g.slice? i with
    | none => simp
    | some old =>
      cases hp : old.activePos <;> simp [csrwPost, hp]

/-- The cause of GSET in a parted slice (R133). -/
def gsetCauses (x : Cx) (_ : List (List Word)) : List (Nat × Word) := if x.g.unified then [] else [(0x05, x.mask)]

/-- What follows the lane part of GSET: uniform `r` from the first of the lanes `ls` (R133). -/
def gsetEffect (r : Nat) (x : Cx) (vals : List (List Word)) (ls : List Nat) (u : State) : State :=
  match ls with
  | [] => u
  | L :: _ => u.modGang x.g.id fun g => { g with g := modAt (fun _ => val vals L 0) r g.g }

theorem exec_gset (o : OpGset) (s : State) : exec (.gset o) s =
    laneGate s (readShape o.s o.x) gsetCauses Cx.enOf (fun _ _ _ => { val := 0 }) fun x vals outs dead =>
      gsetEffect o.g.toNat x vals (x.actives.filter (!dead.contains ·))
        (finishLane s (readShape o.s o.x) false x vals outs dead) := rfl

/-- With no lane dying, GSET takes its value from the lowest active lane. -/
theorem gsetEffect_actives (r : Nat) (x : Cx) (vals : List (List Word)) (u : State) :
    gsetEffect r x vals (x.actives.filter (!([] : List Nat).contains ·)) u = match x.actives.head? with
      | some L => u.modGang x.g.id fun g => { g with g := modAt (fun _ => val vals L 0) r g.g }
      | none => u := by
  have hall : x.actives.filter (!([] : List Nat).contains ·) = x.actives := List.filter_eq_self.2 fun _ _ => rfl
  rw [hall]
  cases x.actives <;> rfl

theorem exec_pset (o : OpPset) (s : State) : exec (.pset o) s =
    runLanePost s (psetShape o) noCauses (fun _ _ => noOut) fun _ vals i old mid => mid.mapLanes fun j l =>
      if old.active j then l.setPreds o.p.toNat (val vals (4 * i + j) 0) (val vals (4 * i + j) 1) else l := rfl

end Sys2Proof.Machine

open Sys2Proof Sys2Proof.Machine Sys2Proof.Safety Sys2Proof.Claims

/-- Settles O23, field by field from the number that IDS is (`ids_toNat`). -/
theorem idsLayout : Obligations.IdsLayout := by
  unfold Obligations.IdsLayout
  intro G ht hc hi hp
  have hn := ids_toNat ht hc hi hp
  have field : ∀ lo n m, G.ids.toNat / 2 ^ lo % 2 ^ n = m % 2 ^ n → G.ids.extractLsb' lo n = BitVec.ofNat n m :=
    fun _ _ _ => extractLsb'_eq_ofNat
  exact ⟨field 32 32 _ (by omega), field 24 8 0 (by omega), field 16 8 _ (by omega), field 12 4 0 (by omega),
    field 8 4 _ (by omega), field 3 5 0 (by omega), field 0 3 _ (by omega), fun _ _ _ hx => by rw [← hx]; rfl⟩

/-- Settles O24: every word is the shared operation of lane words on its register's value (`runLane_gives`). -/
theorem systemReads : Obligations.SystemReads := by
  unfold Obligations.SystemReads
  refine ⟨fun s x => ⟨fun o hr hfl h => ?csrr, fun o h => ⟨?cyc, ?pts, ?ptp⟩, fun o h => ⟨fun h3 => ?harvest,
    fun h16 h159 => ?lpt⟩⟩, fun s x sl => ?values⟩
  case csrr =>
    show ∃ t, execCsrr o s = _ ∧ _
    rw [execCsrr_eq h hr hfl]
    exact runLane_gives rfl h (laneCsr s o.c.toNat)
  case cyc => exact exec_clkCyc o s ▸ runLane_gives rfl h fun _ _ => BitVec.ofNat 64 s.cycle
  case pts => exact exec_clkPts o s ▸ runLane_gives rfl h fun x _ => x.g.pts.setWidth 64
  case ptp => exact exec_clkPtp o s ▸ runLane_gives rfl h fun _ _ => BitVec.ofNat 64 s.ptp
  case harvest =>
    have hreg : s.devReg o.r.toNat = (s.harvestOf o.r.toNat).setWidth 64 := if_pos h3
    exact hreg ▸ devr_gives h (.inl h3)
  case lpt =>
    have hreg : s.devReg o.r.toNat = s.lpt (o.r.toNat - 16) := if_neg (by omega)
    exact hreg ▸ devr_gives h (.inr ⟨h16, h159⟩)
  case values =>
    exact ⟨rfl, rfl, rfl, rfl, rfl, rfl, rfl, rfl, rfl, rfl, rfl, rfl, rfl, rfl, fun _ => csrValue_retstat s x sl⟩

/-- Settles O25: CSRW and GSET are lane words without results whose own effect follows (`laneGate_after`,
`laneGate_then`), PSET one with an effect on its slices (`runLanePost_done`). -/
theorem systemWrites : Obligations.SystemWrites := by
  unfold Obligations.SystemWrites
  refine fun s x => ⟨fun o hn hfl h => ?slice, fun o hn h => ?trapvec, fun o hu h => ?gset, fun o h => ?pset⟩
  case slice =>
    have hw : csrWritable o.c.toNat = true := by
      simp only [csrWritable, Bool.or_eq_true, decide_eq_true_eq, beq_iff_eq]; omega
    have hne : o.c.toNat ≠ 14 := by omega
    show ∃ t, execCsrw o s = _ ∧ _
    rw [execCsrw_eq h hw hfl]
    exact laneGate_after (post := csrwPost o.c.toNat _) rfl h (if_neg hne)
  case trapvec =>
    have hw : csrWritable o.c.toNat = true := by rw [hn]; rfl
    show ∃ t, execCsrw o s = _ ∧ _
    rw [execCsrw_eq h hw (by rintro hc; rw [hc] at hn; simp at hn), hn]
    exact laneGate_then rfl h rfl
  case gset =>
    rw [exec_gset]
    exact laneGate_then rfl ⟨h.issues, h.common, if_pos hu⟩ (gsetEffect_actives _ _ _ _)
  case pset =>
    rw [exec_pset]
    exact runLanePost_done (f := fun _ _ => noOut) h (noTrap_noOut x _)
end

section
/-!
SUPPORT. Parking (R128 to R131): the slot of a gang in a state without damage, the causes of the words that fill and
empty one, and what each of the four words does after its lane part.
-/

namespace Sys2Proof.Machine

open Sys2Proof.Safety Sys2Proof.Claims

/-! ## Slots -/

theorem clean_sound {s : State} (h : s.bad = []) (p : Storage → Bool) : s.clean p = s := by simp [State.clean, h]

theorem parkedHurt_sound {s : State} (h : s.bad = []) (g k : Nat) (ls : List Nat) : s.parkedHurt g k ls = [] := by
  simp [State.parkedHurt, h]

theorem fillSlot_sound {s : State} (h : s.bad = []) (x : Cx) (k rows : Nat) (spq : Bool)
    (vals : List (Nat × List Word)) :
    s.fillSlot x k rows spq vals = s.modGang x.g.id (withSlot k (some (slotOf s x rows spq vals))) := by
  unfold State.fillSlot
  rw [clean_sound h]
  rfl

theorem emptySlot_sound {s : State} (h : s.bad = []) (g k : Nat) :
    s.emptySlot g k = s.modGang g (withSlot k none) := by
  unfold State.emptySlot
  rw [clean_sound h]
  rfl

theorem laneDone_bad {s t : State} {x : Cx} {W : Shape} {fl : Nat → Slice → FFlags} {outs : Nat → LaneOut}
    (h : LaneDone s t x W fl outs) : t.bad = s.bad := by
  obtain ⟨g, rfl, _⟩ := h
  rfl

theorem laneIssued_bad {s t : State} {x : Cx} {W : Shape} {lo hi : Nat} {outs : Nat → LaneOut}
    (h : LaneIssued s t x W lo hi outs) : t.bad = s.bad := by
  obtain ⟨g, due, op, -, -, -, -, -, -, -, -, -, -, -, -, -, rfl, -⟩ := h
  rfl

/-- The operation of a scoreboarded lane word is the last one, and has the number that was free. -/
theorem laneIssued_lastOp {s t : State} {x : Cx} {W : Shape} {lo hi : Nat} {outs : Nat → LaneOut}
    (h : LaneIssued s t x W lo hi outs) : t.ops.getLast?.map Op.id = some s.fresh := by
  obtain ⟨g, due, op, -, -, hid, -, -, -, -, -, -, -, -, -, -, rfl, -⟩ := h
  show (s.ops ++ [op]).getLast?.map Op.id = _
  rw [List.getLast?_concat, Option.map_some, hid]

/-! ## Causes -/

/-- A unified gang with an empty slot and rows enough fills it without a fault (R129 to R131). -/
theorem fillCauses_nil {s : State} {x : Cx} {k rows : Nat} (hu : x.g.unified = true) (hk : x.g.slot k = none)
    (hr : rows ≤ s.freeAcc x.grp + s.freeRsv x.grp) (v : List (List Word)) : fillCauses s k rows x v = [] := by
  simp [fillCauses, partedCause, hu, hk, Nat.not_lt.2 hr]

/-- With too few rows, that is its one cause (R131). -/
theorem fillCauses_rows {s : State} {x : Cx} {k rows : Nat} (hu : x.g.unified = true) (hk : x.g.slot k = none)
    (hr : s.freeAcc x.grp + s.freeRsv x.grp < rows) (v : List (List Word)) :
    fillCauses s k rows x v = [(0x0D, x.mask)] := by
  simp [fillCauses, partedCause, hu, hk, hr]

/-- A unified gang empties a slot of the word's kind without a fault (R129). -/
theorem emptyCauses_nil {x : Cx} {k : Nat} {p : ParkSlot} {spq : Bool} (hu : x.g.unified = true)
    (hk : x.g.slot k = some p) (hp : p.spq = spq) (v : List (List Word)) : emptyCauses k spq x v = [] := by
  simp [emptyCauses, partedCause, hu, hk, hp]

/-! ## The words -/

/-- Whether MOM may be 1 is a matter of the stream's launch (R128, R142). -/
theorem momLegal_eq {s : State} {x : Cx} (h : s.stream? = some x) (m : BitVec 1) :
    momLegal s m = (m == 0#1 || x.grp.mom) := by
  rw [momLegal, h]

theorem execPark_eq {s : State} {x : Cx} (h : s.stream? = some x) (o : OpPark) : execPark o s =
    laneGate s (parkShape o x.grp.mom) (fillCauses s o.l.toNat 1) Cx.enOf (fun _ _ => noOut) fun x' vals outs dead =>
      (finishLane s (parkShape o x.grp.mom) false x' vals outs dead).fillSlot x' o.l.toNat 1 false
        (x'.g.liveLanes.map fun L => (L, [val vals L 0])) := by
  simp only [execPark, momLegal_eq h]
  rfl

/-- The parked value of a lane, 0 where the slot is empty. -/
def slotValue (k : Nat) (x : Cx) (L : Nat) : Word :=
  match x.g.slot k with
  | some p => p.valueAt L
  | none => 0

theorem execUnpark_eq {s : State} {x : Cx} (h : s.stream? = some x) (hs : s.bad = []) (o : OpPark) : execUnpark o s =
    laneGate s (unparkShape o x.grp.mom) (emptyCauses o.l.toNat false) Cx.enOf
      (fun x' _ L => { val := slotValue o.l.toNat x' L }) fun x' vals outs dead =>
        (finishLane s (unparkShape o x.grp.mom) false x' vals outs dead).emptySlot x'.g.id o.l.toNat := by
  simp only [execUnpark, momLegal_eq h, repairWhere_sound hs, parkedHurt_sound hs, List.append_nil]
  rfl

theorem execSpqOut_eq {s : State} {x : Cx} {o : OpSpq} (h : Passes s x (spqShape o none) [])
    (hq : x.queuePending = false) : execSpqOut o s =
    laneGate s (spqShape o none) (fun x' v => queueUnderrun x' ++ fillCauses s o.l.toNat x.g.slices.length x' v) Cx.enOf
      (fun _ _ => noOut) fun x' vals outs dead =>
        (finishLane s (spqShape o none) false x' vals outs dead).fillSlot x' o.l.toNat x.g.slices.length true
          (x'.g.liveLanes.map fun L => (L, srcVals s.beat x'.g queueSrcs L)) := by
  have hstream := withStream_eq h.issues.stream (notBlocked h.issues.free)
  simp only [execSpqOut, hstream, hq, Bool.false_eq_true, if_false, repairWhere_sound h.issues.sound, h.issues.sound,
    List.isEmpty_nil, if_true, killLanes_nil]
  rfl

/-- A slice whose live lanes' queues are replaced by parked ones, which operation `id` brings (R129). -/
def queuesBack (qs : List (Nat × List Word)) (id i : Nat) (sl : Slice) : Slice :=
  { sl.mapLanes (fun j l => if l.dead then l else match qs.find? (·.1 == 4 * i + j) with
      | some e => { l with q := e.2 }
      | none => l) with
    qT := sl.qT.map fun _ => ⟨sl.clock, 0, 0, some id⟩ }

/-- The queues in a slot, none where it is empty. -/
def slotQueues (k : Nat) (x : Cx) : List (Nat × List Word) :=
  match x.g.slot k with
  | some p => p.vals
  | none => []

/-- The number of a state's last operation. -/
def State.lastOp (s : State) : Nat :=
  match s.ops.getLast? with
  | some o => o.id
  | none => 0

/-- What follows the lane part of SPQ.in. -/
def spqInEffect (k : Nat) (x : Cx) (u : State) : State :=
  (((u.modOp u.lastOp fun op => { op with vals := [] }).modGang x.g.id fun g =>
    Cx.mapSlices ⟨g, x.grp, x.ss⟩ (queuesBack (slotQueues k x) u.lastOp)).clean
      (queuesOf x.g.id x.g.liveLanes)).emptySlot x.g.id k

/-- When a word returns is no matter of its gate. -/
theorem spqShape_passes {s : State} {x : Cx} {o : OpSpq} {cs : List (Nat × Word)} {a : Option (Nat × Nat)}
    (h : Passes s x (spqShape o a) cs) (b : Option (Nat × Nat)) : Passes s x (spqShape o b) cs :=
  ⟨⟨h.issues.stream, h.issues.legal, h.issues.hints, h.issues.free, h.issues.sound⟩,
    ⟨h.common.stall, h.common.poison⟩, h.own⟩

theorem execSpqIn_eq {s : State} {x : Cx} {o : OpSpq} (h : Passes s x (spqShape o (some (1, 64))) [])
    (hq : x.queuePending = false) : execSpqIn o s =
    laneGate s (spqShape o (some (1, 64))) (emptyCauses o.l.toNat true) Cx.enOf (fun _ _ => noOut)
      fun x' vals outs dead =>
        spqInEffect o.l.toNat x' (finishLane s (spqShape o (some (1, 64))) false x' vals outs dead) := by
  have hstream := withStream_eq h.issues.stream (notBlocked h.issues.free)
  simp only [execSpqIn, hstream, hq, Bool.false_eq_true, if_false, repairWhere_sound h.issues.sound,
    parkedHurt_sound h.issues.sound, List.contains_nil, killLanes_nil]
  rfl

/-- What follows SPQ.in in a state without damage, whose last operation is `id`, from slot contents `p`. -/
theorem spqInEffect_sound {u : State} {x : Cx} {k id : Nat} {p : ParkSlot} (hb : u.bad = [])
    (hid : u.ops.getLast?.map Op.id = some id) (hk : x.g.slot k = some p) : spqInEffect k x u =
    ((u.modOp id fun op => { op with vals := [] }).modGang x.g.id fun g =>
      Cx.mapSlices ⟨g, x.grp, x.ss⟩ (queuesBack p.vals id)).modGang x.g.id (withSlot k none) := by
  have hlast : u.lastOp = id := by
    obtain ⟨op, hop, rfl⟩ := Option.map_eq_some_iff.1 hid
    rw [State.lastOp, hop]
  have hqs : slotQueues k x = p.vals := by rw [slotQueues, hk]
  have hb' : ((u.modOp id fun op => { op with vals := [] }).modGang x.g.id fun g =>
      Cx.mapSlices ⟨g, x.grp, x.ss⟩ (queuesBack p.vals id)).bad = [] := hb
  rw [spqInEffect, hlast, hqs, clean_sound hb', emptySlot_sound hb']

end Sys2Proof.Machine

open Sys2Proof Sys2Proof.Machine Sys2Proof.Safety Sys2Proof.Claims

/-- Settles O27: the lane part of each word passes its gate (`laneGate_passes`), and what follows it is the change of
the slot, since a state without damage loses nothing (`fillSlot_sound`, `emptySlot_sound`). -/
theorem parkingWords : Obligations.ParkingWords := by
  unfold Obligations.ParkingWords
  refine fun s x hu => ⟨fun o h hk => ⟨fun hr => ?park, fun hr => ?parkFull⟩, fun o p h hk hp => ?unpark,
    fun o h hq hur hk hr => ?spqOut, fun o p h hq hk hp => ?spqIn⟩
  case park =>
    have hdone := finishLane_done (x := x) (W := parkShape o x.grp.mom) rfl h.issues.sound noOut
    show ∃ t, execPark o s = _ ∧ _
    rw [execPark_eq h.issues.stream]
    refine ⟨_, laneGate_passes (f := fun _ _ => noOut) ⟨h.issues, h.common, fillCauses_nil hu hk hr _⟩
      (noTrap_noOut x _), _, hdone, ?_⟩
    exact fillSlot_sound ((laneDone_bad hdone).trans h.issues.sound) ..
  case parkFull =>
    show execPark o s = _
    rw [execPark_eq h.issues.stream]
    exact laneGate_traps (f := fun _ _ => noOut) h.issues h.common (fillCauses_rows hu hk (by omega) _)
      (noTrap_noOut x _) (by decide)
  case unpark =>
    have hout : (fun L => ({ val := slotValue o.l.toNat x L } : LaneOut)) = fun L => { val := p.valueAt L } := by
      unfold slotValue
      rw [hk]
    have hissued := finishLane_issued (x := x) (W := unparkShape o x.grp.mom) (lo := 1) (hi := 64) rfl
      (by decide) h.issues.sound fun L => { val := p.valueAt L }
    refine ⟨_, ?_, hissued⟩
    show execUnpark o s = _
    rw [execUnpark_eq h.issues.stream h.issues.sound,
      laneGate_passes ⟨h.issues, h.common, emptyCauses_nil hu hk hp _⟩ (noTrapVal x _), hout,
      emptySlot_sound ((laneIssued_bad hissued).trans h.issues.sound)]
  case spqOut =>
    have hdone := finishLane_done (x := x) (W := spqShape o none) rfl h.issues.sound noOut
    have hown : ∀ v, queueUnderrun x ++ fillCauses s o.l.toNat x.g.slices.length x v = [] := by
      intro v
      rw [hur, fillCauses_nil hu hk hr, List.append_nil]
    show ∃ t, execSpqOut o s = _ ∧ _
    rw [execSpqOut_eq h hq]
    refine ⟨_, laneGate_passes (pre := fun x' v => queueUnderrun x' ++ fillCauses s o.l.toNat x.g.slices.length x' v)
      (f := fun _ _ => noOut) ⟨h.issues, h.common, hown _⟩ (noTrap_noOut x _), _, hdone, ?_⟩
    exact fillSlot_sound ((laneDone_bad hdone).trans h.issues.sound) ..
  case spqIn =>
    have h := spqShape_passes h (some (1, 64))
    have hissued := finishLane_issued (x := x) (W := spqShape o (some (1, 64))) rfl (by decide) h.issues.sound noOut
    refine ⟨_, hissued, ?_⟩
    show execSpqIn o s = _
    rw [execSpqIn_eq h hq,
      laneGate_passes (f := fun _ _ => noOut) ⟨h.issues, h.common, emptyCauses_nil hu hk hp _⟩ (noTrap_noOut x _),
      spqInEffect_sound ((laneIssued_bad hissued).trans h.issues.sound) (laneIssued_lastOp hissued) hk]
    rfl
end

section
/-!
SUPPORT. What the drain of a core's store merge buffer before a release does (R214, R226, R247): the writes it sends,
and everything that it leaves alone.
-/

namespace Sys2Proof.Machine

open Sys2Proof.Safety Sys2Proof.Claims

/-! ## What a drain leaves alone -/

/-- Nothing has changed but what flushes of buffered stores touch: the buffer, the core's own copies, requests, their
steps and time-outs, and the injections of errors. -/
def State.FlushedTo (s t : State) : Prop := t = { s with
  smb := t.smb, groups := t.groups, fresh := t.fresh, l1 := t.l1, reqs := t.reqs
  nsTimers := t.nsTimers, agenda := t.agenda }

theorem State.FlushedTo.refl (s : State) : s.FlushedTo s := rfl

theorem State.FlushedTo.trans {a b c : State} (h : a.FlushedTo b) (k : b.FlushedTo c) : a.FlushedTo c := by
  unfold State.FlushedTo at *
  rw [k, h]

theorem State.FlushedTo.foldl {α : Type} {f : State → α → State} (h : ∀ (s : State) a, s.FlushedTo (f s a))
    (l : List α) (s : State) :
    s.FlushedTo (l.foldl f s) := by
  induction l generalizing s with
  | nil => exact .refl s
  | cons a l ih => exact (h s a).trans (ih _)

theorem State.FlushedTo.keeps {s t : State} (h : s.FlushedTo t) :
    t.gangs = s.gangs ∧ t.mem = s.mem ∧ t.windows = s.windows := by
  rw [h]
  exact ⟨rfl, rfl, rfl⟩

theorem post_flushedTo (s : State) (i : Instr) : s.FlushedTo (s.post i) := rfl

theorem postOnce_flushedTo (s : State) (i : Instr) : s.FlushedTo (s.postOnce i) := by
  unfold State.postOnce
  split
  · exact .refl s
  · exact post_flushedTo s i

theorem drainOwned_flushedTo (s : State) (flags : List Nat) : s.FlushedTo (s.drainOwned flags) :=
  .foldl (fun s i => postOnce_flushedTo s (.lazyReleaseDrain i)) flags s

theorem postOnce_keeps (s : State) (i : Instr) : (s.postOnce i).reqs = s.reqs ∧ (s.postOnce i).smb = s.smb := by
  unfold State.postOnce
  split
  · exact ⟨rfl, rfl⟩
  · exact ⟨rfl, rfl⟩

theorem drainOwned_keeps (s : State) (flags : List Nat) :
    (s.drainOwned flags).reqs = s.reqs ∧ (s.drainOwned flags).smb = s.smb := by
  unfold State.drainOwned
  induction flags generalizing s with
  | nil => exact ⟨rfl, rfl⟩
  | cons i flags ih =>
    obtain ⟨hr, hs⟩ := postOnce_keeps s (.lazyReleaseDrain i)
    exact ⟨(ih _).1.trans hr, (ih _).2.trans hs⟩

/-! ## Requests by what they ask -/

/-- What a request is: its number, its kind and its core. -/
def Req.what (q : Req) : Nat × ReqKind × Nat := (q.id, q.kind, q.core)

/-- The number of a write of a core. -/
def writeOf (core : Nat) : Nat × ReqKind × Nat → Option Nat
  | (id, .write _ _ _ _ _, c) => if c == core then some id else none
  | (id, .rep _ _ _ _ _, c) => if c == core then some id else none
  | _ => none

theorem writesOut_eq (s : State) (core : Nat) :
    s.writesOut core (fun _ _ => true) = (s.reqs.map Req.what).filterMap (writeOf core) := by
  unfold State.writesOut
  rw [List.filterMap_map]
  congr 1
  funext q
  simp only [Function.comp, Req.what]
  cases q.kind <;> simp [writeOf]

theorem modReq_what {s : State} {f : Req → Req} (h : ∀ q, (f q).what = q.what) (id : Nat) :
    (s.modReq id f).reqs.map Req.what = s.reqs.map Req.what := by
  simp only [State.modReq, List.map_map]
  refine List.map_congr_left fun q _ => ?_
  simp only [Function.comp]
  split
  · exact h q
  · rfl

/-- A request is sent: it stands last, and nothing else is asked (R419). -/
theorem send_spec (s : State) (k : ReqKind) (core gang : Nat) (op : Option Nat) (part asn va dev : Nat) (t : TS) :
    s.FlushedTo (s.send k core gang op part asn va dev t) ∧ (s.send k core gang op part asn va dev t).smb = s.smb ∧
    (s.send k core gang op part asn va dev t).reqs.map Req.what = s.reqs.map Req.what ++ [(s.fresh, k, core)] := by
  have held : ∀ u : State, (u.modReq s.fresh fun q => { q with held := some .fabric }).reqs.map Req.what =
      u.reqs.map Req.what := fun u => modReq_what (f := fun q => { q with held := some .fabric }) (fun _ => rfl) s.fresh
  unfold State.send
  dsimp only
  split
  · split
    · exact ⟨rfl, rfl, (held _).trans (by simp [State.postNs, Req.what])⟩
    · exact ⟨rfl, rfl, by simp [State.postNs, State.post, Req.what]⟩
  · split
    · exact ⟨rfl, rfl, (held _).trans (by simp [Req.what])⟩
    · exact ⟨rfl, rfl, by simp [State.post, Req.what]⟩

/-! ## Flushes -/

/-- The state in which a flush sends its write: the entry is gone, an injected error is spent (R387), and the core's own
copy of the line holds the bytes. -/
def State.flushing (s : State) (e : SmbEntry) : State :=
  let s := { s with smb := s.smb.filter (·.id != e.id) }
  let s := match s.inj6For e.gangs with
    | some grp => s.modGroup grp fun G => { G with inj6 := false }
    | none => s
  s.overL1 e.core e.part e.asn (l1Key e.dev e.va) e.mask e.data

theorem flushing_spec (s : State) (e : SmbEntry) : s.FlushedTo (s.flushing e) ∧
    (s.flushing e).smb = s.smb.filter (·.id != e.id) ∧ (s.flushing e).reqs = s.reqs := by
  unfold State.flushing
  dsimp only
  split <;> exact ⟨rfl, rfl, rfl⟩

/-- The gangs whose PTS the acknowledgement of a flush raises. -/
def SmbEntry.raises (e : SmbEntry) (more : List Nat) : List Nat := e.gangs ++ more.filter (!e.gangs.contains ·)

/-- The write that a flush sends. -/
def State.flushWrite (s : State) (e : SmbEntry) (more : List Nat) : ReqKind :=
  .write e.mask e.data (e.raises more) e.ef
    (({ s with smb := s.smb.filter (·.id != e.id) } : State).inj6For e.gangs).isSome

theorem flushEntry_eq (s : State) (e : SmbEntry) (more : List Nat) : s.flushEntry e more =
    ((s.flushing e).send (s.flushWrite e more) e.core ((e.raises more).headD 0) none e.part e.asn e.va e.dev e.t).modReq
      (s.flushing e).fresh fun q => { q with ent := e.id } := rfl

/-- A flush takes its entry out of the buffer, sends one write of its core, and leaves the rest alone (R214). -/
theorem flushEntry_spec (s : State) (e : SmbEntry) (more : List Nat) : s.FlushedTo (s.flushEntry e more) ∧
    (s.flushEntry e more).smb = s.smb.filter (·.id != e.id) ∧
    (s.flushEntry e more).reqs.map Req.what =
      s.reqs.map Req.what ++ [((s.flushing e).fresh, s.flushWrite e more, e.core)] := by
  obtain ⟨hf, hs, hr⟩ := flushing_spec s e
  obtain ⟨kf, ks, kr⟩ := send_spec (s.flushing e) (s.flushWrite e more) e.core ((e.raises more).headD 0) none e.part
    e.asn e.va e.dev e.t
  rw [flushEntry_eq]
  refine ⟨(hf.trans kf).trans rfl, ks.trans hs, ?_⟩
  rw [modReq_what (f := fun q => { q with ent := e.id }) fun _ => rfl, kr, hr]

/-- Flushes one after another: no entry of theirs is left, and each has sent a write of its core. -/
theorem flushEntries_spec (l : List SmbEntry) (more : List Nat) (s : State) :
    (∀ a ∈ (l.foldl (fun s e => s.flushEntry e more) s).smb, a ∈ s.smb ∧ ∀ e ∈ l, a.id ≠ e.id) ∧
    ∀ core, (l.foldl (fun s e => s.flushEntry e more) s).writesOut core (fun _ _ => true) = [] →
      s.writesOut core (fun _ _ => true) = [] ∧ ∀ e ∈ l, e.core ≠ core := by
  induction l generalizing s with
  | nil => exact ⟨fun a ha => ⟨ha, nofun⟩, fun core h => ⟨h, nofun⟩⟩
  | cons e l ih =>
    obtain ⟨-, hsmb, hreq⟩ := flushEntry_spec s e more
    obtain ⟨ihsmb, ihout⟩ := ih (s.flushEntry e more)
    refine ⟨fun a ha => ?_, fun core h => ?_⟩
    · obtain ⟨hmem, hne⟩ := ihsmb a ha
      rw [hsmb] at hmem
      obtain ⟨hmem, he⟩ := List.mem_filter.1 hmem
      exact ⟨hmem, List.forall_mem_cons.2 ⟨bne_iff_ne.1 he, hne⟩⟩
    · obtain ⟨hout, hne⟩ := ihout core h
      rw [writesOut_eq, hreq, List.filterMap_append, List.append_eq_nil_iff] at hout
      obtain ⟨hout, hlast⟩ := hout
      refine ⟨(writesOut_eq s core).trans hout, List.forall_mem_cons.2 ⟨?_, hne⟩⟩
      rintro rfl
      simp [writeOf, State.flushWrite] at hlast

/-! ## The drain before a release -/

/-- A stream with no scratchpad access under way has none to perform. -/
theorem settlePasses_none {s : State} {g : Nat} (h : ∀ p ∈ s.passes, p.gang ≠ g) (ss : List Nat) :
    s.settlePasses g ss = s := by
  have hnil : (s.passes.filter fun p => p.gang == g && p.slices.any (ss.contains ·)) = [] := by
    rw [List.filter_eq_nil_iff]
    intro p hp
    simp [h p hp]
  rw [State.settlePasses, hnil]
  rfl

/-- What a release of a stream waits for in a state (R226). -/
def Cx.releaseWaits (x : Cx) (s : State) : List Nat :=
  x.opsOut s ++ s.writesOut x.grp.core (fun _ _ => true) ++ s.flagsOut x.grp.core x.g.id ++ s.redsOut x.g.id ++
    s.signalsOut x.g.id true

/-- What a drain leaves alone is waited for as before. -/
theorem releaseWaits_flushed {s t : State} (h : s.FlushedTo t) (x : Cx) : x.releaseWaits t =
    x.opsOut s ++ t.writesOut x.grp.core (fun _ _ => true) ++ s.flagsOut x.grp.core x.g.id ++ s.redsOut x.g.id ++
      s.signalsOut x.g.id true := by
  have hops : x.opsOut t = x.opsOut s := by rw [h]; rfl
  have hflags : t.flagsOut x.grp.core x.g.id = s.flagsOut x.grp.core x.g.id := by rw [h]; rfl
  have hreds : t.redsOut x.g.id = s.redsOut x.g.id := by rw [h]; rfl
  have hsigs : t.signalsOut x.g.id true = s.signalsOut x.g.id true := by rw [h]; rfl
  rw [Cx.releaseWaits, hops, hflags, hreds, hsigs]

/-- The state after the drain of a core for a release of a stream: flushes of its buffered stores, oldest first, and
the flags that it owns asked for. -/
def State.drained (s : State) (x : Cx) : State :=
  let u := (s.smb.filter fun e => e.core == x.grp.core && true).foldl (fun s e => s.flushEntry e [x.g.id]) s
  u.drainOwned (u.flagsOut x.grp.core x.g.id)

/-- The drain of a core for a release of a stream with no scratchpad access under way (R226): buffered stores are on
their way, nothing but what flushes touch has changed, and the core's buffer is empty. A drain that finds nothing to
wait for found no buffered store. -/
theorem drained_spec (s : State) (x : Cx) : s.FlushedTo (s.drained x) ∧ (∀ e ∈ (s.drained x).smb, e.core ≠ x.grp.core) ∧
    ((s.drained x).writesOut x.grp.core (fun _ _ => true) = [] →
      s.writesOut x.grp.core (fun _ _ => true) = [] ∧ ∀ e ∈ s.smb, e.core ≠ x.grp.core) := by
  let l := s.smb.filter fun e => e.core == x.grp.core && true
  let u := l.foldl (fun s e => s.flushEntry e [x.g.id]) s
  have hl : ∀ e ∈ s.smb, e.core = x.grp.core → e ∈ l := fun e he hc => List.mem_filter.2 ⟨he, by simp [hc]⟩
  have hu : s.FlushedTo u := .foldl (fun s e => (flushEntry_spec s e [x.g.id]).1) l s
  obtain ⟨hsmb, hout⟩ := flushEntries_spec l [x.g.id] s
  obtain ⟨hreqs, hsmb'⟩ := drainOwned_keeps u (u.flagsOut x.grp.core x.g.id)
  refine ⟨hu.trans (drainOwned_flushedTo u _), fun e he hc => ?_, fun h => ?_⟩
  · obtain ⟨hmem, hne⟩ := hsmb e (hsmb' ▸ he)
    exact hne e (hl e hmem hc) rfl
  · have hwrites : u.writesOut x.grp.core (fun _ _ => true) = [] := by
      rw [writesOut_eq, ← hreqs, ← writesOut_eq]
      exact h
    obtain ⟨hnone, hne⟩ := hout x.grp.core hwrites
    exact ⟨hnone, fun e he hc => hne e (hl e he hc) hc⟩

theorem drainCore_eq {s : State} {x : Cx} (h : ∀ p ∈ s.passes, p.gang ≠ x.g.id) :
    drainCore s x = (s.drained x, x.releaseWaits (s.drained x)) := by
  have hu : (s.smb.filter fun e => e.core == x.grp.core && true).foldl (fun s e => s.flushEntry e [x.g.id]) s =
      s.flushWhere x.grp.core (fun _ => true) [x.g.id] := rfl
  have hflags : (s.drained x).flagsOut x.grp.core x.g.id =
      (s.flushWhere x.grp.core (fun _ => true) [x.g.id]).flagsOut x.grp.core x.g.id := by
    rw [State.drained, hu, drainOwned_flushedTo (s.flushWhere x.grp.core (fun _ => true) [x.g.id])]
    rfl
  rw [Cx.releaseWaits, hflags, State.drained, hu, drainCore, settlePasses_none h]

/-- A core with nothing buffered and a stream with nothing to wait for drains as it stands. -/
theorem drained_none {s : State} {x : Cx} (hsmb : ∀ e ∈ s.smb, e.core ≠ x.grp.core)
    (hflags : s.flagsOut x.grp.core x.g.id = []) : s.drained x = s := by
  have hnil : (s.smb.filter fun e => e.core == x.grp.core && true) = [] := by
    rw [List.filter_eq_nil_iff]
    intro e he
    simp [hsmb e he]
  rw [State.drained, hnil]
  show s.drainOwned (s.flagsOut x.grp.core x.g.id) = s
  rw [hflags]
  rfl

end Sys2Proof.Machine
end

section
/-!
SUPPORT. The BAR words and YIELDW (R123, R245 to R251): each passes the gate of barrier words (`bar_ready`) and performs
its own effect.
-/

namespace Sys2Proof.Machine

open Sys2Proof.Safety Sys2Proof.Claims

/-! ## The stream -/

/-- A gang that was put back is found in the place of the one before it. -/
theorem setGang_gang? {s : State} {g h : Gang} (hg : s.gang? g.id = some h) : (s.setGang g).gang? g.id = some g := by
  have hkey : ((fun a : Gang => a.id == g.id) ∘ fun a => if a.id = g.id then g else a) = fun a => a.id == g.id := by
    funext a
    by_cases ha : a.id = g.id <;> simp [ha]
  have hid : h.id = g.id := beq_iff_eq.1 (List.find?_some (p := fun a : Gang => a.id == g.id) hg)
  show (s.gangs.map fun a => if a.id = g.id then g else a).find? (fun a => a.id == g.id) = some g
  rw [List.find?_map, hkey]
  exact (congrArg (Option.map _) hg).trans (by rw [Option.map_some, if_pos hid])

/-- A stream that goes on, whatever else changes but gangs, has gone on (`WentOn`). -/
theorem goOn_wentOn {s u t : State} {x : Cx} (hs : s.stream? = some x) (hu : u.gangs = s.gangs) (st : BitVec 2)
    (ht : t.gangs = (goOn u x st).gangs) : WentOn t x := by
  have hg : u.gang? x.g.id = some x.g := by
    unfold State.gang?
    rw [hu]
    exact (stream?_some hs).1
  refine ⟨x.next u st.toNat, ?_, fun i hi old hold => ⟨sent u.beat st.toNat 0 (old.pc + 4) old, ?_, rfl, rfl⟩⟩
  · unfold State.gang?
    rw [ht]
    exact setGang_gang? (g := x.next u st.toNat) hg
  · have hc : x.ss.contains i = true := List.contains_iff_mem.2 hi
    have hold' : x.g.slices[i]? = some old := hold
    simp [next_eq, Cx.mapSlices, Gang.slice?, hold', hi]

theorem mem_liveSlices {g : Gang} {i : Nat} (h : i ∈ g.liveSlices) : ∃ sl, g.slice? i = some sl := by
  obtain ⟨l, hl, hi⟩ := List.mem_flatten.1 h
  obtain ⟨k, hk⟩ := List.mem_iff_getElem?.1 hl
  rw [imap_zero_getElem?] at hk
  obtain ⟨sl, hsl, rfl⟩ := Option.map_eq_some_iff.1 hk
  split at hi
  · exact ⟨sl, List.mem_singleton.1 hi ▸ hsl⟩
  · simp at hi

/-- A stream that issues has a lowest-numbered slice (R35). -/
theorem stream?_first {s : State} {x : Cx} (h : s.stream? = some x) : ∃ sl, x.first? = some sl := by
  obtain ⟨r, -, hr⟩ := Option.bind_eq_some_iff.1 h
  have : ∃ i ∈ x.g.liveSlices, x.ss.head? = some i := by
    unfold State.streamOf at hr
    split at hr
    · cases hr
    · rename_i g hg
      split at hr
      · cases hr
      · split at hr
        · split at hr
          · rename_i hu
            cases hr
            simp only [Bool.and_eq_true, Bool.not_eq_true', List.isEmpty_eq_false_iff] at hu
            exact ⟨_, List.head_mem hu.2, List.head?_eq_some_head hu.2⟩
          · cases hr
        · split at hr
          · rename_i hu
            cases hr
            simp only [Bool.and_eq_true, List.contains_iff_mem] at hu
            exact ⟨_, hu.2, rfl⟩
          · cases hr
  obtain ⟨i, hi, hhead⟩ := this
  obtain ⟨sl, hsl⟩ := mem_liveSlices hi
  exact ⟨sl, by rw [Cx.first?, hhead]; exact hsl⟩

/-! ## Initialisation (R246) -/

/-- No stream and no command holds the barrier at `l` busy (R246). -/
def barBusy (s : State) (team : Nat) (l : BarLoc) : Bool :=
  s.waitedOn team l ||
    s.groups.any fun H => H.team == team && (match H.bar? l with | some b => b.out != 0 | none => false)

theorem barBusy_false {s : State} {team : Nat} {l : BarLoc} (hw : s.waitedOn team l = false)
    (ho : ∀ H ∈ s.groups, H.team = team → ∀ b, H.bar? l = some b → b.out = 0) : barBusy s team l = false := by
  rw [barBusy, hw, Bool.false_or, List.any_eq_false]
  intro H hH hc
  simp only [Bool.and_eq_true, beq_iff_eq] at hc
  obtain ⟨hteam, hout⟩ := hc
  cases hb : H.bar? l with
  | none => simp [hb] at hout
  | some b => simp [hb, ho H hH hteam b hb] at hout

/-- A word that records a barrier finds a place in the registry, which holds 16 (R246). -/
theorem registry_room {G : Group} {l : BarLoc} {rec' : Bool} (h : rec' = true → G.bar? l = none → G.bars.length < 16) :
    (rec' && (G.bar? l).isNone && decide (16 ≤ G.bars.length)) = false := by
  rw [Bool.eq_false_iff]
  intro hc
  simp only [Bool.and_eq_true, Option.isNone_iff_eq_none, decide_eq_true_eq] at hc
  obtain ⟨⟨hr, hn⟩, hl⟩ := hc
  exact Nat.not_le.2 (h hr hn) hl

/-- Damage in a barrier's words, but AINF, is written over (R382). -/
def State.mendBar (s : State) (G : Group) (l : BarLoc) : State :=
  match s.winAt G.team l.core with
  | some w => scratchMend s G w l.off 28
  | none => s

theorem mendBar_sound {s : State} (h : s.bad = []) (G : Group) (l : BarLoc) : s.mendBar G l = s := by
  unfold State.mendBar
  split
  · exact scratchMend_sound h ..
  · rfl

/-- The object that BINIT writes: the expectations of a uniform, and AINF as it was (R246). -/
def freshBar (e : Word) (ainf : Nat) : BarObj := ⟨fld e 0 32, 0, fld e 32 32, 0, 0, false, false, false, 0, 0, ainf⟩

/-- What BINIT, or with `att` ATTACH, leaves when its fields are legal and the registry lets it pass. -/
def binitDone (o : OpBinit) (att : Bool) (s : State) (x : Cx) (l : BarLoc) : State :=
  let s := goOn s x o.s
  let s := if att then s else s.mendBar x.grp l
  let old := s.bar x.grp.team l
  let s := if att then s else s.setBar x.grp.team l (freshBar (at' 0 x.g.g o.e.toNat) old.ainf)
  let s := if att || o.r == 1#1 then s.record x.grp l (o.n == 1#1) else s
  if att && s.bar x.grp.team l == old then s else s.phaseTest x.grp.team l

theorem exec_binit (o : OpBinit) (s : State) : exec (.binit o) s =
    barWord s (if o.t == 1#1 then o.e == 0#6 && o.r == 0#1 else o.r == 1#1 || o.n == 0#1) o.g
      (if o.t == 1#1 then [o.g] else [o.g, o.e]) fun s x l =>
        if ((o.t == 1#1 || o.r == 1#1) && (x.grp.bar? l).isNone && decide (16 ≤ x.grp.bars.length)) ||
          (!(o.t == 1#1) && barBusy s x.grp.team l) then regFault s x
        else .next (binitDone o (o.t == 1#1) s x l) := rfl

/-- BINIT that nothing holds performs its effect. -/
theorem binit_done {s : State} {x : Cx} {l : BarLoc} {o : OpBinit} (ht : o.t = 0#1) (he : o.e.toNat < 60)
    (hn : o.r = 1#1 ∨ o.n = 0#1) (h : BarReady s x o.g l)
    (hroom : o.r = 1#1 → x.grp.bar? l = none → x.grp.bars.length < 16) (hbusy : barBusy s x.grp.team l = false) :
    exec (.binit o) s = .next (binitDone o false s x l) := by
  have hatt : (o.t == 1#1) = false := by rw [ht]; rfl
  have hlegal : (o.r == 1#1 || o.n == 0#1) = true := by simpa using hn
  have hroom' := registry_room (rec' := o.r == 1#1) fun hr => hroom (beq_iff_eq.1 hr)
  rw [exec_binit, hatt]
  simp only [Bool.false_eq_true, if_false, Bool.false_or]
  rw [bar_ready h hlegal (by simp [h.reg, he]), hroom', hbusy]
  rfl

/-- ATTACH that nothing holds performs its effect. -/
theorem attach_done {s : State} {x : Cx} {l : BarLoc} {o : OpBinit} (ht : o.t = 1#1) (he : o.e = 0#6) (hr : o.r = 0#1)
    (h : BarReady s x o.g l) (hroom : x.grp.bar? l = none → x.grp.bars.length < 16) :
    exec (.binit o) s = .next (binitDone o true s x l) := by
  have hatt : (o.t == 1#1) = true := by rw [ht]; rfl
  have hlegal : (o.e == 0#6 && o.r == 0#1) = true := by rw [he, hr]; rfl
  have hroom' := registry_room (rec' := true) fun _ => hroom
  rw [exec_binit, hatt]
  simp only [if_true, Bool.true_or]
  rw [bar_ready h hlegal (by simp [h.reg]), hroom']
  rfl

/-- In a state without damage nothing is mended: the fresh object is written, recorded under REC, and its phase
tested. -/
theorem binitDone_init {s : State} (hs : s.bad = []) (o : OpBinit) (x : Cx) (l : BarLoc) :
    let s1 := (goOn s x o.s).setBar x.grp.team l (freshBar (at' 0 x.g.g o.e.toNat) (s.bar x.grp.team l).ainf)
    binitDone o false s x l =
      (if o.r = 1#1 then s1.record x.grp l (o.n == 1#1) else s1).phaseTest x.grp.team l := by
  have hmend : (goOn s x o.s).mendBar x.grp l = goOn s x o.s := mendBar_sound (s := goOn s x o.s) hs ..
  simp only [binitDone, hmend, Bool.false_eq_true, if_false, Bool.false_or, Bool.false_and, beq_iff_eq]
  rfl

/-- ATTACH tests the phase where recording the barrier has changed its object. -/
theorem binitDone_attach (s : State) (o : OpBinit) (x : Cx) (l : BarLoc) :
    let t := (goOn s x o.s).record x.grp l (o.n == 1#1)
    binitDone o true s x l = if t.bar x.grp.team l = s.bar x.grp.team l then t else t.phaseTest x.grp.team l := by
  simp only [binitDone, if_true, Bool.true_or, Bool.true_and, beq_iff_eq]
  rfl

/-! ## Arrivals (R247) -/

/-- What BARRX adds to XB: bits 31:0 of uniform `e`; BARR adds nothing. -/
def barrAdd (x : Cx) (e : Option (BitVec 6)) : Nat :=
  match e with
  | some r => fld (at' 0 x.g.g r.toNat) 0 32
  | none => 0

/-- The state in which a release at team scope stands, and what it waits for: in a team of one core it waits for
nothing (R247). -/
def State.beforeArrival (s : State) (x : Cx) : State × List Nat := if s.pairTeam x.grp then drainCore s x else (s, [])

/-- The record of an arrival that follows what `waits` names. -/
def arrivalSig (x : Cx) (l : BarLoc) (add : Nat) (waits : List Nat) : Wsig :=
  ⟨0, x.g.id, x.grp.core, x.grp.part, x.grp.asn, false, 0, [], x.g.pts, waits, none, none, true,
    some ⟨l, add, arrivals x⟩, []⟩

/-- BARR or BARRX of a stream that was not dropped arrives at once, or once everything earlier is acknowledged. -/
theorem barrWord_ready {s : State} {x : Cx} {l : BarLoc} {g : BitVec 6} (st : BitVec 2) {e : Option (BitVec 6)}
    (h : BarReady s x g l) (he : ∀ r ∈ e, r.toNat < 60) (hd : NotDropped x l) : barrWord s st g e =
    .next (if (s.beforeArrival x).2.isEmpty then
        (goOn (s.beforeArrival x).1 x st).arriveLanes x.grp.id x.grp.team ⟨l, barrAdd x e, arrivals x⟩ x.g.pts
      else (goOn (s.beforeArrival x).1 x st).addWsig (arrivalSig x l (barrAdd x e) (s.beforeArrival x).2)) := by
  have hregs : ∀ r ∈ g :: e.toList, r.toNat < 60 := by simpa [h.reg] using he
  have hdrop : (match x.grp.bar? l with
      | some b => x.ss.any fun i => b.drop.contains (x.g.idx, i)
      | none => false) = false := by
    cases hb : x.grp.bar? l with
    | none => rfl
    | some b =>
      show (x.ss.any fun i => b.drop.contains (x.g.idx, i)) = false
      rw [List.any_eq_false]
      exact fun i hi => by rw [hd b hb i hi]; exact Bool.false_ne_true
  rw [barrWord, bar_ready h rfl hregs]
  refine (if_neg ?_).trans rfl
  exact fun hc => absurd (hc.symm.trans hdrop) (by decide)

/-- A release with nothing to wait for goes ahead in the state as it stands (R247). -/
theorem beforeArrival_released {s : State} {x : Cx} (hpass : ∀ p ∈ s.passes, p.gang ≠ x.g.id) (h : Released s x) :
    s.beforeArrival x = (s, []) := by
  unfold State.beforeArrival
  split
  next hpair =>
    obtain hsingle | ⟨hsmb, hwrites, hops, hflags, hreds, hsigs⟩ := h
    · rw [hpair] at hsingle
      cases hsingle
    · have hwaits : x.releaseWaits s = [] := by rw [Cx.releaseWaits, hops, hwrites, hflags, hreds, hsigs]; rfl
      rw [drainCore_eq hpass, drained_none hsmb hflags, hwaits]
  next => rfl

/-- Any other is in a team of a pair, drains its core, and has something to wait for. -/
theorem beforeArrival_unreleased {s : State} {x : Cx} (hpass : ∀ p ∈ s.passes, p.gang ≠ x.g.id) (h : ¬ Released s x) :
    s.beforeArrival x = (s.drained x, x.releaseWaits (s.drained x)) ∧ x.releaseWaits (s.drained x) ≠ [] := by
  obtain ⟨hframe, -, hsent⟩ := drained_spec s x
  have hpair : s.pairTeam x.grp = true := eq_true_of_ne_false fun hf => h (.inl hf)
  refine ⟨(if_pos hpair).trans (drainCore_eq hpass), fun hnil => h (.inr ?_)⟩
  rw [releaseWaits_flushed hframe] at hnil
  simp only [List.append_eq_nil_iff] at hnil
  obtain ⟨⟨⟨⟨hops, hwrites⟩, hflags⟩, hreds⟩, hsigs⟩ := hnil
  obtain ⟨hnone, hsmb⟩ := hsent hwrites
  exact ⟨hsmb, hnone, hops, hflags, hreds, hsigs⟩

/-- An arrival with nothing to wait for is counted, and the phase tested (R247, R248). -/
theorem barrWord_arrives {s : State} {x : Cx} {l : BarLoc} {g : BitVec 6} (st : BitVec 2) {e : Option (BitVec 6)}
    (h : BarReady s x g l) (he : ∀ r ∈ e, r.toNat < 60) (hd : NotDropped x l) (hr : Released s x) :
    barrWord s st g e = .next ((arrived s x st l (barrAdd x e)).phaseTest x.grp.team l) := by
  rw [barrWord_ready st h he hd, beforeArrival_released h.passed hr]
  rfl

theorem addWsig_waits (s : State) {w : Wsig} (h : w.waits ≠ []) : s.addWsig w =
    { s with fresh := s.fresh + 1, wsigs := s.wsigs ++ [{ w with id := s.fresh }] } :=
  if_neg (by simpa using h)

theorem barrWord_waits {s : State} {x : Cx} {l : BarLoc} {g : BitVec 6} (st : BitVec 2) {e : Option (BitVec 6)}
    (h : BarReady s x g l) (he : ∀ r ∈ e, r.toNat < 60) (hd : NotDropped x l) (hr : ¬ Released s x) :
    barrWord s st g e = .next ((goOn (s.drained x) x st).addWsig
      (arrivalSig x l (barrAdd x e) (x.releaseWaits (s.drained x)))) := by
  obtain ⟨hbefore, hne⟩ := beforeArrival_unreleased h.passed hr
  rw [barrWord_ready st h he hd, hbefore]
  exact congrArg Host.Outcome.next (if_neg (by simpa using hne))

/-! ## Waits (R249, R123) -/

/-- A wait on a barrier's phase that nothing holds succeeds at once when the phase has the other parity, else its slices
wait, with the address at which they go on. -/
theorem waitWord_ready {s : State} {x : Cx} {l : BarLoc} {g : BitVec 6} {legal : Bool} {st : BitVec 2} {mode p : Nat}
    {resume : Cx → Word} (h : BarReady s x g l) (hl : legal = true) (hp : parityOf x.grp x.g l mode = some p) :
    waitWord s legal st g mode resume =
      if (s.bar x.grp.team l).phase % 2 ≠ p then
        .next (succeedNow (s.setGang (x.mapSlices fun _ sl => sent s.beat st.toNat 0 (resume x) sl)) x l (mode == 0)
          (s.bar x.grp.team l) (resume x))
      else .next (s.setGang (x.mapSlices fun _ sl =>
        { sent s.beat st.toNat 0 (resume x) sl with run := .barrier l (mode == 0) (resume x) })) := by
  have hwait : (s.setGang (x.issued s st.toNat 0 fun _ _ => resume x)).modGang x.g.id (fun g =>
      Cx.mapSlices ⟨g, x.grp, x.ss⟩ fun _ sl => { sl with run := .barrier l (mode == 0) (resume x) }) =
      s.setGang (x.mapSlices fun _ sl =>
        { sent s.beat st.toNat 0 (resume x) sl with run := .barrier l (mode == 0) (resume x) }) := by
    rw [issued_eq]
    refine (setGang_modGang s (x.mapSlices fun _ sl => sent s.beat st.toNat 0 (resume x) sl) _ rfl).trans ?_
    rw [mapSlices_mapSlices]
  rw [waitWord, bar_ready h hl (by simp [h.reg]), hp, ← hwait]
  rfl

theorem exec_bwait (o : OpBwait) (s : State) :
    exec (.bwait o) s = waitWord s (o.m != 3#2) o.s o.g o.m.toNat fun x => x.pc + 4 := rfl

theorem exec_yieldw (o : OpYieldw) (s : State) :
    exec (.yieldw o) s = waitWord s true o.s o.g 0 fun x => x.pc + 4 * o.d.signExtend 64 := rfl

/-! ## BTRY (R249) -/

/-- A slice that BTRY leaves: its active lanes have `ok` in predicate `p`. -/
def btried (p : Nat) (ok : Bool) (beat st : Nat) (old : Slice) : Slice :=
  { sent beat st 0 (old.pc + 4) old with
    lanes := imap (fun j ln => if old.active j then ln.setPred p ok else ln) 0 old.lanes }

theorem btry_ready {s : State} {x : Cx} {l : BarLoc} {o : OpBtry} {p : Nat} (hm : o.m ≠ 3#2) (h : BarReady s x o.g l)
    (hp : parityOf x.grp x.g l o.m.toNat = some p) :
    let ok := (s.bar x.grp.team l).phase % 2 != p
    let t := s.setGang (x.mapSlices fun _ old => btried o.p.toNat ok s.beat o.s.toNat old)
    exec (.btry o) s = .next (if ok then succeedNow t x l (o.m == 0#2) (s.bar x.grp.team l) (x.pc + 4) else t) := by
  obtain ⟨first, hfirst⟩ := stream?_first h.stream.stream
  show execBtry o s = _
  rw [execBtry, bar_ready h (bne_iff_ne.2 hm) (by simp [h.reg]), hp]
  simp only [next_eq, mapSlices_mapSlices, hfirst]
  rfl

/-! ## Drops (R251) -/

/-- BDROP of a barrier that the registry does not hold goes on. -/
theorem bdrop_unknown {s : State} {x : Cx} {l : BarLoc} {o : OpBarG} (h : BarReady s x o.g l)
    (hb : x.grp.bar? l = none) : exec (.bdrop o) s = .next (goOn s x o.s) := by
  show execBdrop o s = _
  rw [execBdrop, bar_ready h rfl (by simp [h.reg]), hb]

theorem bdropRel_unknown {s : State} {x : Cx} {l : BarLoc} {o : OpBarG} (h : BarReady s x o.g l)
    (hb : x.grp.bar? l = none) : exec (.bdropRel o) s = .next (goOn s x o.s) := by
  show execBdropRel o s = _
  rw [execBdropRel, bar_ready h rfl (by simp [h.reg]), hb]

end Sys2Proof.Machine

open Sys2Proof Sys2Proof.Machine Sys2Proof.Safety Sys2Proof.Claims

/-- Settles O28, word by word behind the gate of barrier words (`bar_ready`). -/
theorem barrierWords : Obligations.BarrierWords := by
  unfold Obligations.BarrierWords
  refine fun s x l => ⟨fun o ht he hn h hroom hw ho => ?init, fun o ht he hr h hroom => ?attach, fun o h hd hr => ?barr,
    fun o h he hd hr => ?barrx, fun i st g add hform h hd hr => ?arrivesLater, fun i st m dest p hform hp => ?wait,
    fun o hm h p hp => ?btry, fun o h => ⟨fun hb => ?dropUnknown, fun b hb => ?drop⟩,
    fun o h => ⟨fun hb => ?relUnknown, fun b hb hw ho => ?rel⟩⟩
  case init =>
    rw [binit_done ht he hn h hroom (barBusy_false hw ho), binitDone_init h.stream.sound]
    rfl
  case attach =>
    rw [attach_done ht he hr h hroom, binitDone_attach]
  case barr => exact barrWord_arrives (e := none) o.s h nofun hd hr
  case barrx => exact barrWord_arrives (e := some o.e) o.s h (by simpa using he) hd hr
  case arrivesLater =>
    obtain ⟨e, hexec, hadd, he⟩ : ∃ e, exec i s = barrWord s st g e ∧ add = barrAdd x e ∧ ∀ r ∈ e, r.toNat < 60 := by
      obtain ⟨o, rfl, rfl, rfl, rfl⟩ | ⟨o, rfl, he, rfl, rfl, rfl⟩ := hform
      · exact ⟨none, rfl, rfl, nofun⟩
      · exact ⟨some o.e, rfl, rfl, by simpa using he⟩
    obtain ⟨hframe, hsmb, -⟩ := drained_spec s x
    obtain ⟨hgangs, hmem, hwindows⟩ := hframe.keeps
    obtain ⟨-, hne⟩ := beforeArrival_unreleased h.passed hr
    rw [hexec, barrWord_waits st h he hd hr, hadd, addWsig_waits _ hne]
    refine ⟨_, _, rfl, goOn_wentOn h.stream.stream hgangs st rfl,
      List.mem_append_right _ (List.mem_singleton_self _), rfl, rfl, rfl, rfl, rfl, fun n hn => ?_,
      fun n hn => ?_, hsmb, hmem, hwindows⟩
    · show n ∈ x.releaseWaits (s.drained x)
      rw [releaseWaits_flushed hframe]
      simp only [List.mem_append] at hn ⊢
      exact hn.imp_left (Or.imp_left (Or.imp_left Or.inl))
    · show n ∈ x.releaseWaits (s.drained x)
      simp only [Cx.releaseWaits, List.mem_append]
      exact .inl (.inl (.inl (.inr hn)))
  case wait =>
    obtain ⟨legal, g, resume, hexec, hl, h, hdest⟩ : ∃ legal g, ∃ resume : Cx → Word,
        exec i s = waitWord s legal st g m resume ∧ legal = true ∧ BarReady s x g l ∧ resume x = dest := by
      obtain ⟨o, rfl, hm, h, rfl, rfl, rfl⟩ | ⟨o, rfl, h, rfl, rfl, rfl⟩ := hform
      · exact ⟨_, _, _, exec_bwait o s, bne_iff_ne.2 hm, h, rfl⟩
      · exact ⟨_, _, _, exec_yieldw o s, rfl, h, rfl⟩
    subst hdest
    refine ⟨_, mapSlices_gangWith fun _ _ _ _ => rfl, fun hne => ?_, fun heq => ?_⟩
    · rw [hexec, waitWord_ready h hl hp, if_pos hne]
    · rw [hexec, waitWord_ready h hl hp, if_neg fun hne => hne heq]
      exact ⟨_, rfl, sends_mapSlices⟩
  case btry => exact ⟨_, mapSlices_gangWith fun _ _ _ _ => rfl, btry_ready hm h hp⟩
  case dropUnknown => exact bdrop_unknown h hb
  case drop =>
    show execBdrop o s = _
    rw [execBdrop, bar_ready h rfl (by simp [h.reg]), hb]
  case relUnknown => exact bdropRel_unknown h hb
  case rel =>
    show execBdropRel o s = _
    rw [execBdropRel, bar_ready h rfl (by simp [h.reg]), hb]
    exact if_neg (by simp [hw, ho])
end

section
/-!
SUPPORT. The moment words (R142 to R159): each is the shared operation of lane words on its row's shape and rule, legal
where moments are enabled for the stream's launch.
-/

namespace Sys2Proof.Claims

open Sys2Proof.Machine

/-- Each of the 19 moment words is the shared operation on its row's shape and rule; the shape is legal where the launch
of the issuing stream enables moments (R142). -/
theorem exec_momForm {i : Instr} {s : State} {D : LaneWord} (h : MomForm (momOn s) i D) :
    exec i s = runLane s D.shape D.pre D.out := by
  cases h <;> rfl

/-- Every moment word gives its results at once. -/
theorem momForm_sb {on : Bool} {i : Instr} {D : LaneWord} (h : MomForm on i D) : D.shape.sb = none := by
  cases h <;> rfl

/-- No moment word has causes of its own from its sources: a negative variance is a cause of a lane's result (R149). -/
theorem momForm_pre {on : Bool} {i : Instr} {D : LaneWord} (h : MomForm on i D) : D.pre = noCauses := by
  cases h <;> rfl

end Sys2Proof.Claims

open Sys2Proof Sys2Proof.Machine Sys2Proof.Claims

/-- Settles O10: the word is the shared operation on its row's rule (`exec_momForm`), which completes with the results
where no lane traps (`runLane_done`); a negative variance without clamping is a lane's own cause, which `NoTrap` leaves
out. -/
theorem momentWords : Obligations.MomentWords := by
  unfold Obligations.MomentWords
  intro i s x D h hi hc ht
  rw [exec_momForm h]
  exact runLane_done (momForm_sb h) hi hc (by rw [momForm_pre h]; rfl) ht
end
